-- ==== Sys2Proof/Word.lean ====
section
/-! DEFINITION. The words of the DH9-384 and their plainest arithmetic. -/

namespace Sys2Proof

/-- A byte of memory. -/
abbrev Byte := BitVec 8
/-- A scalar token's data and an instruction word (R22, R76). -/
abbrev Word := BitVec 32
/-- A 64-bit quantity: counters, virtual addresses, W64 values (R118, R196). -/
abbrev Dword := BitVec 64
/-- The 64 bytes of a block, little-endian (R7): byte i is bits [8i + 7 : 8i]. -/
abbrev Bits512 := BitVec 512
/-- A block descriptor: SCALE in [15:8], FMT in [7:0] (R95). -/
abbrev Desc := BitVec 16

end Sys2Proof
end

