-- ==== Sys2Proof/Syntax.lean ====
section
/-! DEFINITION. The steps of the DH9-384: one constructor for each row of the opcode table, the 194
instruction words (R83) first and the 90 events after them. -/

namespace Sys2Proof

/-- The four operand slots of an instruction (R77). -/
inductive Slot where
  | a | b | c | p
  deriving DecidableEq, Repr

/-- A target field other than 0x1FF: a slot of an instruction of the block (R77). -/
structure Target where
  slot : Slot
  index : Fin 128
  deriving DecidableEq, Repr

/-- A target field; `none` is 0x1FF (R77). -/
abbrev Tgt := Option Target

/-- Predication, mod[5:4] of a D-format word (R78). -/
inductive Pred where
  | always | ifTrue | ifFalse
  deriving DecidableEq, Repr

/-- The common fields of a D-format word with two targets and predication (R76, R78). -/
structure DHead where
  t0 : Tgt
  t1 : Tgt
  pred : Pred
  deriving DecidableEq, Repr

/-- Lane width field W of the INT layout (R133). -/
inductive Width where
  | w32 | w16 | w8 | w4
  deriving DecidableEq, Repr

/-- Rounding modes (R105). -/
inductive Rnd where
  | rne | rtz | rup | rdn
  deriving DecidableEq, Repr

/-- Conditions (R133). -/
inductive Cond where
  | eq | ne | lt | le | gt | ge
  deriving DecidableEq, Repr

/-- LOGI's operation field (R153). -/
inductive LogOp where
  | and | or | xor | andn
  deriving DecidableEq, Repr

/-- SCB's target field (R166). -/
inductive ScbFmt where
  | i8 | i4 | i16 | n8 | q4n
  deriving DecidableEq, Repr

/-- Scopes from `.elem` to `.sys` (R6, R79). -/
inductive Scope where
  | elem | region | field | dev | sys
  deriving DecidableEq, Repr

/-- The space field of an M-format word (R80). -/
inductive Space where
  | g | s | w
  deriving DecidableEq, Repr

/-- ACQ, REL and SCOPE of an engine command (R79). -/
structure Order where
  acq : Bool
  rel : Bool
  scope : Scope
  deriving DecidableEq, Repr

/-- The common fields of an M-format memory instruction: target, seq, UNORD (R80). -/
structure MHead where
  t : Tgt
  seq : Fin 64
  unord : Bool
  deriving DecidableEq, Repr

/-- Access size of LD, LDX, ST (R220). -/
inductive Size where
  | w32 | w16 | w8
  deriving DecidableEq, Repr

/-- Extents of the cache-maintenance and prefetch instructions (R191, R220). -/
inductive Ext where
  | line | sblk | page | all
  deriving DecidableEq, Repr

/-- CNTADD's REL field (R220, R229). -/
inductive CntRel where
  | none | dev | sys
  deriving DecidableEq, Repr

/-- Source of MMA and MMAO (R247). -/
inductive MmaSrc where
  | bob | strm | skew
  deriving DecidableEq, Repr

/-- VRED's operation (R289). -/
inductive RedOp where
  | add | max | min | amax
  deriving DecidableEq, Repr

/-- SCAT's VARIANT (R314). -/
inductive ScatOp where
  | write | fadd | add
  deriving DecidableEq, Repr

/-- MRED's VARIANT (R372). -/
inductive MredOp where
  | add | max | min
  deriving DecidableEq, Repr

/-- TLBI's extent (R431). -/
inductive TlbExt where
  | page | large | all
  deriving DecidableEq, Repr

/-- An executing context: a node of the pending-launch store, or a core's firmware window at a level
(R10, R408, R414). -/
inductive CtxId where
  | node (id : Nat)
  | fw (core : Fin 16) (level : Fin 3)
  deriving DecidableEq, Repr

/-- What a checker reports when a check fails (R437, R439, R440). -/
structure Check where
  ctx : CtxId
  src : Fin 16
  field : Fin 4
  x : Nat
  y : Nat
  idx : Option Nat
  lane : Nat
  code : Byte
  exp : Fin 16
  obs : Fin 16
  l0 : Word
  l1 : Word
  l2 : Word
  l3 : Word
  loc : Word
  inj : Bool
  deriving DecidableEq, Repr

/-- A line of a node's region part (R172): committed scratch, a global or scratch snapshot value, staged global or scratch
bytes, or the carry words. -/
inductive RegionPart where
  | scratch | snapG | snapS | stageG | stageS | carry
  deriving DecidableEq, Repr

/-- A corruption of a stored symbol of a home way, of the pool or of a region part (R205), of an HBM line (R366), or of a live entry
of the channel unit (R341). -/
inductive SoftErr where
  | sram (block : Nat) (codeword : Fin 17) (layer : Fin 6) (flip : Byte)
  | region (ctx : CtxId) (part : RegionPart) (block : Nat) (codeword : Fin 17) (layer : Fin 6) (flip : Byte)
  | hbm (block : Nat) (corrected : Bool)
  | channel (ch : Fin 4096)
  deriving DecidableEq, Repr

/-- A data flit of a peer port (R469). -/
structure Flit where
  data : Bits512
  desc : Desc
  poison : Bool
  va : BitVec 55
  fport : Fin 8
  hops : Fin 8
  deriving DecidableEq, Repr

/-- A header flit of a peer port (R469). -/
structure HeaderFlit where
  ticket : Dword
  nrow : Nat
  rb : Nat
  pcnt : Dword
  padd : Byte
  va : BitVec 55
  fport : Fin 8
  hops : Fin 8
  deriving DecidableEq, Repr

/-- The power registers a budget write can name (R403). -/
inductive PwrReg where
  | field (f : Fin 4) | module | depth
  deriving DecidableEq, Repr

/-- The five power buckets (R392). -/
inductive Bucket where
  | field (f : Fin 4) | module
  deriving DecidableEq, Repr

/-- Units that can become marginal (R445). -/
inductive UnitName where
  | site (x : Fin 128) (y : Fin 96)
  | cell (x : Fin 256) (y : Fin 192)
  | ve (x : Fin 64) (y : Fin 48)
  | core (c : Fin 16)
  | memUnit (u : Fin 1024)
  deriving DecidableEq, Repr

/-- One row of the opcode table. -/
inductive Instr where
  -- group 0x0: flow and draft control (R134 to R147)
  | mov (h : DHead)
  | fank (t : Tgt) (k : Fin 256) (c : Fin 8)
  | steer (t0 t1 : Tgt)
  | merge (t0 t1 : Tgt)
  | gate (h : DHead)
  | mark (t : Tgt) (c : Fin 4096) (k : Fin 8)
  | rankq (t : Tgt) (k : Fin 8)
  | strip (t : Tgt) (k : Fin 8)
  | count (t : Tgt) (k : Fin 8)
  | getw (t : Tgt) (w : Fin 64)
  | putw (t : Tgt) (w : Fin 64)
  | const (t : Tgt) (k : Fin 256) (n : Fin 16)
  | nextb (t : Tgt) (i : Fin 256)
  | halt (t : Tgt)
  | drop (p : Pred)
  -- group 0x1: integer arithmetic (R148 to R152)
  | add (h : DHead) (sat uns : Bool) (w : Width)
  | sub (h : DHead) (sat uns : Bool) (w : Width)
  | addi (t : Tgt) (v : BitVec 15)
  | mul (h : DHead) (sat uns : Bool) (w : Width)
  | mulh (h : DHead) (uns : Bool) (w : Width)
  | mad (h : DHead) (sat uns : Bool) (w : Width)
  | div (h : DHead) (sat uns : Bool)
  | rem (h : DHead) (uns : Bool)
  | min (h : DHead) (uns : Bool) (w : Width)
  | max (h : DHead) (uns : Bool) (w : Width)
  | abs (h : DHead) (sat : Bool) (w : Width)
  | neg (h : DHead) (sat : Bool) (w : Width)
  | clamp (h : DHead) (uns : Bool) (w : Width)
  | addc (h : DHead) (s : Bool)
  | muli (t : Tgt) (v : BitVec 15)
  | dot4 (h : DHead) (sat uns : Bool) (w : Width)
  -- group 0x2: logic, shift and compare (R153, R154)
  | and (h : DHead)
  | or (h : DHead)
  | xor (h : DHead)
  | andn (h : DHead)
  | shl (h : DHead) (uns : Bool) (w : Width)
  | shr (h : DHead) (uns : Bool) (w : Width)
  | rot (h : DHead) (w : Width)
  | clz (h : DHead) (w : Width)
  | popc (h : DHead) (w : Width)
  | bfx (h : DHead) (uns : Bool)
  | bfi (h : DHead)
  | cmp (h : DHead) (c : Cond) (uns : Bool)
  | cmpi (t : Tgt) (c : Cond) (uns : Bool) (v : BitVec 11)
  | sel (h : DHead)
  | logi (t : Tgt) (op : LogOp) (v : BitVec 13)
  | tstb (h : DHead)
  -- group 0x3: FP32 arithmetic (R155 to R159)
  | fadd (h : DHead) (r : Rnd)
  | fsub (h : DHead) (r : Rnd)
  | fmul (h : DHead) (r : Rnd)
  | ffma (h : DHead) (r : Rnd)
  | fmin (h : DHead)
  | fmax (h : DHead)
  | fneg (h : DHead)
  | fcmp (h : DHead) (c : Cond)
  | fdiv (h : DHead) (r : Rnd)
  | fsqrt (h : DHead) (r : Rnd)
  | frsqe (h : DHead)
  | frcpe (h : DHead)
  | fclass (h : DHead)
  | fexp2e (h : DHead)
  | flog2e (h : DHead)
  | fscl (h : DHead) (r : Rnd)
  -- group 0x4: conversions and constants (R160 to R167)
  | cvtif (h : DHead) (uns : Bool) (r : Rnd)
  | cvtfi (h : DHead) (uns : Bool) (r : Rnd)
  | cvtfh (h : DHead) (sat f16 : Bool) (r : Rnd)
  | cvthf (h : DHead) (f16 : Bool) (l : Fin 2)
  | cvtf8 (h : DHead) (l : Fin 4) (e5m2 nsat : Bool)
  | cvt8f (h : DHead) (l : Fin 4) (e5m2 : Bool)
  | ldi (t : Tgt) (v : BitVec 15)
  | ldhi (t : Tgt) (v : BitVec 15)
  | pack (h : DHead) (sat uns : Bool) (w : Width)
  | unpk (h : DHead) (hi uns : Bool) (w : Width)
  | q4e (h : DHead) (l : Fin 8)
  | q4d (h : DHead) (l : Fin 8)
  | scb (h : DHead) (f : ScbFmt)
  | scd (h : DHead)
  | desc (h : DHead)
  -- group 0x5: streams and scalar accesses (R216 to R221)
  | lds (t : Tgt) (k : Fin 256)
  | sts (t : Tgt) (k : Fin 256)
  | ldb (t : Tgt) (k : Fin 256) (bob : Bool)
  | stb (t : Tgt) (k : Fin 256) (bob : Bool)
  | agen (t : Tgt) (k : Fin 256) (va w : Bool)
  | agcfg (t : Tgt) (k : Fin 256) (o : Order) (ind : Bool)
  | ld (m : MHead) (sp : Space) (bsel : Fin 4) (sx : Bool) (sz : Size)
  | st (m : MHead) (sp : Space) (bsel : Fin 4) (sz : Size)
  | ldx (m : MHead) (sp : Space) (bsel : Fin 4) (sx : Bool) (sz : Size)
  | pref (m : MHead) (bsel : Fin 4) (e : Ext)
  -- group 0x6: atomics, ordering, counters, barriers (R222 to R233)
  | atom (m : MHead) (sp : Space) (bsel : Fin 4) (op : Fin 16)
  | cas (m : MHead) (sp : Space) (bsel : Fin 4)
  | tas (m : MHead) (sp : Space) (bsel : Fin 4)
  | fence (t : Tgt) (seq : Fin 64)
  | phase (t : Tgt) (seq : Fin 64) (sc : Scope)
  | bar (t : Tgt) (k : Fin 256) (o : Order)
  | arrv (t : Tgt) (k : Fin 256) (rel : Bool) (sc : Scope)
  | bwait (t : Tgt) (k : Fin 256) (acq : Bool) (sc : Scope)
  | waitge (m : MHead) (bsel : Fin 4)
  | cntadd (m : MHead) (bsel : Fin 4) (rel : CntRel)
  | osend (t : Tgt) (p : Pred)
  | orecv (h : DHead)
  -- group 0x7: banks (R183 to R195)
  | split (t : Tgt) (k : Fin 256)
  | bobdef (t : Tgt) (k : Fin 256) (retire : Bool)
  | bwf (t : Tgt) (b : Fin 32) (n : Fin 64)
  | bwe (t : Tgt) (b : Fin 32) (n : Fin 64)
  | badv (t : Tgt) (b : Fin 32) (tail : Bool) (k : Fin 64)
  | tstat (t : Tgt) (i : Fin 512)
  | tset (t : Tgt) (i : Fin 512)
  | cflush (m : MHead) (e : Ext)
  | cwb (m : MHead) (e : Ext)
  | cinv (m : MHead) (sp : Space) (e : Ext)
  | pin (m : MHead) (lock : Bool)
  | unpin (m : MHead) (lock : Bool)
  | mapw (t : Tgt) (k : Fin 256) (o : Order) (wr load : Bool)
  | unmapw (t : Tgt) (k : Fin 256) (o : Order) (drop : Bool)
  -- group 0x8: the sea (R261 to R273)
  | fuse (t : Tgt) (k : Fin 256) (y : Fin 4)
  | unfuse (t : Tgt) (y : Fin 4)
  | wload (t : Tgt) (k : Fin 256) (strm : Bool) (y : Fin 4)
  | wswap (t : Tgt) (r : Fin 8) (y : Fin 4)
  | mma (t : Tgt) (k : Fin 256) (mrank : Fin 8) (src : MmaSrc) (y : Fin 4)
  | mmao (t : Tgt) (k : Fin 256) (mrank : Fin 8) (src : MmaSrc) (y : Fin 4)
  | accz (t : Tgt) (k : Fin 256)
  | accrd (h : DHead) (w64 : Bool) (r : Rnd)
  | accdr (t : Tgt) (k : Fin 256) (keep : Bool) (y : Fin 4)
  | accsv (t : Tgt) (k : Fin 256) (keep : Bool)
  | accrs (t : Tgt) (k : Fin 256)
  | edly (t : Tgt) (k : Fin 256) (y : Fin 4)
  | skewc (t : Tgt) (clr : Bool) (d s : Fin 4)
  | seaq (t : Tgt) (item : Fin 8) (y : Fin 4)
  -- group 0x9: vector engines (R284 to R296)
  | vadd (t : Tgt) (k : Fin 256) (bb : Bool)
  | vsub (t : Tgt) (k : Fin 256) (bb : Bool)
  | vmul (t : Tgt) (k : Fin 256) (bb : Bool)
  | vfma (t : Tgt) (k : Fin 256) (bc bb : Bool)
  | vmin (t : Tgt) (k : Fin 256) (bb : Bool)
  | vmax (t : Tgt) (k : Fin 256) (bb : Bool)
  | vcmp (t : Tgt) (k : Fin 256) (c : Cond) (bb : Bool)
  | vsel (t : Tgt) (k : Fin 256) (bc bb : Bool)
  | vcvt (t : Tgt) (k : Fin 256) (qs cont : Bool)
  | vred (t : Tgt) (k : Fin 256) (r : Fin 8) (op : RedOp) (cols vec : Bool)
  | vexp2 (t : Tgt) (k : Fin 256)
  | vrsq (t : Tgt) (k : Fin 256)
  | vrcp (t : Tgt) (k : Fin 256)
  | vperm (t : Tgt) (k : Fin 256) (pool : Bool) (g : Fin 4)
  | vbcst (t : Tgt) (k : Fin 256) (i : Fin 64) (fromv : Bool)
  | vqnt (t : Tgt) (k : Fin 256) (qs : Bool)
  -- group 0xA: the shuttle (R310, R312 to R318)
  | copy (t : Tgt) (k : Fin 256) (o : Order) (ofs : Bool)
  | gath (t : Tgt) (k : Fin 256) (o : Order)
  | scat (t : Tgt) (k : Fin 256) (o : Order) (op : ScatOp)
  | mcast (t : Tgt) (k : Fin 256) (o : Order) (ofs : Bool)
  | xconv (t : Tgt) (k : Fin 256) (o : Order) (planes : Bool)
  | relay (t : Tgt) (k : Fin 256) (o : Order)
  | free (t : Tgt) (n : Fin 64) (tag : Fin 16)
  | xstat (t : Tgt) (v : Fin 3)
  -- group 0xB: channels (R345 to R353)
  | chopen (t : Tgt) (k : Fin 256)
  | push (t : Tgt) (ep : Fin 256) (p : Pred)
  | pop (t : Tgt) (ep : Fin 256) (trig : Bool)
  | pushb (t : Tgt) (k : Fin 256)
  | popb (t : Tgt) (k : Fin 256)
  | peek (t : Tgt) (ep : Fin 256)
  | chend (t : Tgt) (fin : Bool) (ep : Fin 256)
  | chstat (t : Tgt) (v : Fin 4)
  | chgrow (t : Tgt) (k : Fin 256) (add : Bool)
  | chdef (t : Tgt) (k : Fin 256)
  | chfree (t : Tgt)
  -- group 0xC: memory-side units (R369 to R376)
  | matom (m : MHead) (bsel : Fin 4) (op : Fin 16)
  | mcas (m : MHead) (bsel : Fin 4) (flag : Bool)
  | mtas (m : MHead) (bsel : Fin 4) (clr : Bool)
  | mred (t : Tgt) (k : Fin 256) (o : Order) (op : MredOp)
  | mcnt (m : MHead) (bsel : Fin 4) (op : Fin 4)
  | framem (t : Tgt) (k : Fin 256) (norm : Bool)
  -- group 0xD: dispatcher (R387 to R391)
  | launch (t : Tgt) (k : Fin 256) (o : Order) (ofs : Bool)
  | nodeq (t : Tgt) (i : Fin 8)
  | yieldN (t : Tgt) (force : Bool)
  | pwrq (t : Tgt) (i : Fin 6)
  -- group 0xE: control cores (R419 to R434)
  | trap (t : Tgt) (c : BitVec 15)
  | rte (t : Tgt)
  | csrrd (t : Tgt) (n : BitVec 12)
  | csrwr (t : Tgt) (n : BitVec 12)
  | tlbi (m : MHead) (bsel : Fin 4) (e : TlbExt)
  | wfe (t : Tgt) (m : BitVec 6)
  | jmpb (t : Tgt) (k : Fin 256)
  | callb (t : Tgt) (k : Fin 256)
  | retb (t : Tgt)
  | tqpost (t : Tgt) (acq : Bool) (sc : Scope) (nw : Bool)
  | tqack (t : Tgt) (rel : Bool) (sc : Scope)
  | sigchk (t : Tgt) (k : Fin 256) (acq : Bool) (sc : Scope) (key : Fin 4)
  | fwswap (t : Tgt)
  -- group 0xF: the health unit (R456 to R460)
  | mcread (t : Tgt)
  | ecntr (t : Tgt) (clr : Bool)
  | einj (t : Tgt) (k : Fin 256) (off : Bool)
  | binset (t : Tgt)
  | retest (t : Tgt)
  | bypass (t : Tgt)
  | flddrain (t : Tgt)
  | fldadmit (t : Tgt)
  -- events: the rows without a word; first those that the machine takes up by itself
  | launchRecordCheck (port : Fin 2)
  | blockLoad (c : CtxId)
  | blockEnd (c : CtxId)
  | phaseBoundary (c : CtxId)
  | commitBoundary (c : CtxId)
  | nodeComplete (id : Nat)
  | machineCheck (k : Check)
  | nodeRetireChecks (id : Nat)
  | marginalUnit (u : UnitName)
  | preemption (id : Nat)
  | restore (id : Nat)
  | channelRefill (ch : Fin 4096)
  | chuDefine (ch : Fin 4096)
  | chuFree (ch : Fin 4096)
  | chuSnapshot (ch : Fin 4096)
  | chuClose (ch : Fin 4096)
  | xlUnmap (npg : BitVec 16)
  | xlMigrate (npg : BitVec 16)
  | xlInvalidate (npg : BitVec 16)
  | xlHostPin (npg : BitVec 16)
  | xlHostUnpin (npg : BitVec 16)
  | layerAutoMark (bank : Fin 12288) (layer : Fin 6)
  | ceThreshold (frame : Nat)
  | fieldDrained (f : Fin 4)
  | retestDone (f : Fin 4) (cells : List (Fin 256 × Fin 192)) (others : Nat)
  | binChangeDone (f : Fin 4)
  | shuttleCommandStart (ticket : Nat)
  | shuttleTilePermit (ticket : Nat)
  | shuttleComplete (ticket : Nat)
  | timerMatch (c : Fin 16)
  | fwWatchdog (c : Fin 16)
  | sliceExpiry (c : Fin 16)
  | hbmTrain (ok : Bool)
  | sramTest (ok : Bool) (marks : List (Fin 12288 × Fin 6))
  | binLoadRetest (ok : Bool)
  | linkTrain (ok : Bool)
  | powerBucketTick (b : Bucket)
  | peerDataFlit (p : Fin 8) (f : Flit)
  | peerHeaderFlit (p : Fin 8) (h : HeaderFlit)
  | relayAckTimeout (ticket : Nat)
  | twoCopyDisagree (block : Dword)
  -- events without operands
  | tqFatalClear
  | trapRecordPost
  | placementPass
  | ageTick
  | deadlockDetect
  | dspPreempt
  | dspHold
  | dspRelease
  | dspReopen
  | hlCdataRead
  | hlRetireFrame
  | hlRetirePch
  | hlRetireStack
  | hlMarkLayer
  | hlClearLayer
  | bypassApply
  | sigchkComplete
  | mgAttest
  | bootImageVerify
  | firmwareInstall
  -- events that come from outside: register writes, host accesses, links, faults of the hardware
  | lwRecWrite (port : Fin 2) (off : Fin 64) (data : List Byte)
  | tqBaseWrite (v : Dword)
  | tqCfgWrite (v : Word)
  | tqHeadWrite (v : Word)
  | tqAckWrite (stamp : Dword)
  | chuBaseWrite (v : Dword)
  | chuCfgWrite (v : Word)
  | xlRootWrite (v : Dword)
  | xlFtdescWrite (v : Word)
  | dspCfgWrite (v : Word)
  | pwrBudgetWrite (r : PwrReg) (v : Word)
  | hlCfgWrite (v : Word)
  | registerWrite (port : Fin 2) (off : BitVec 15) (wide : Bool) (v : Dword)
  | hostWrite (port : Fin 2) (off : BitVec 36) (data : List Byte)
  | hostRead (port : Fin 2) (off : BitVec 36) (len : Nat)
  | descriptorViewWrite (port : Fin 2) (off : BitVec 31) (width : Nat) (v : Desc)
  | hpDbellWrite (port : Fin 2) (v : Word)
  | hostRequestTimeout (port : Fin 2)
  | peerAckFlit (p : Fin 8) (ticket : Dword)
  | peerCreditFlit (p : Fin 8)
  | peerPortDown (p : Fin 8)
  | prRetrain (p : Fin 8)
  | moduleReset (hold : Bool)
  | coldPlateLimit (temp : Word)
  | hbmStackLost (stack : Fin 8)
  | peerPortUp (p : Fin 8)
  | peerFlitCrcFail (p : Fin 8)
  | hostLinkChange (port : Fin 2) (up : Bool) (rate : BitVec 4) (width : BitVec 5)
  | memorySoftError (e : SoftErr)
  deriving DecidableEq, Repr

end Sys2Proof
end

