-- ==== Sys2Proof/WellFormed.lean ====
section
/-! DEFINITION. Well-formed words: the cases that the manual calls an illegal configuration word and that the word
alone decides (R77 to R81, R171, R206, R220, R231, R274, R301, R435, R461). What depends on the block (NINS, the
pool) is checked at load, in Machine/Load.lean. -/

namespace Sys2Proof

/-- Why a word is ill-formed. -/
inductive IllFormed where
  /-- Slot p of instruction 127 is never a target: its code is 0x1FF (R77). -/
  | targetCode
  /-- A D-format word with t0 = t1 and a target (R77). -/
  | equalTargets
  /-- MARK with c = 0 (R139). -/
  | markPeriod
  /-- A rank field that holds 7 (R139, R140, R265, R274, R289). -/
  | rank
  /-- UNS = 1 with W = 11 (R133). -/
  | unsignedNibbles
  /-- DOT4, PACK, UNPK with W = 00 (R171). -/
  | wideLanes
  /-- Space w with a size other than four bytes (R220). -/
  | carrySize
  /-- A space that the instruction's definition forbids (R80, R206, R220). -/
  | forbiddenSpace
  /-- BSEL other than 00 in space s or w (R209). -/
  | baseSelect
  /-- A scope where the form lists none (R419: TQPOST). -/
  | unusedScope
  /-- ATOM with AOP 12 to 15 (R223). -/
  | atomicOperation
  /-- An extent that the instruction does not have (R191, R206, R220). -/
  | extent
  /-- BAR, ARRV or BWAIT with scope 0 or 4 (R231). -/
  | barrierScope
  /-- VRED with MODE 1 and OUTV 0 (R289). -/
  | reduceShape
  /-- A non-zero kidx in a form that reads no pool word (R301, R461). -/
  | unusedPool
  /-- VBCST with FROMV 0 and a non-zero index (R292). -/
  | broadcastIndex
  /-- WFE with MASK 0 (R435). -/
  | emptyMask
  deriving DecidableEq, Repr

/-- The first failure of a list of checks. -/
def firstOf : List (Option IllFormed) → Option IllFormed
  | [] => none
  | some e :: _ => some e
  | none :: cs => firstOf cs

/-- A check that fails when its condition holds. -/
def refuse (c : Bool) (e : IllFormed) : Option IllFormed := if c then some e else none

def tgtCheck (t : Tgt) : Option IllFormed :=
  refuse (t == some { slot := .p, index := 127 }) .targetCode

def pairCheck (t0 t1 : Tgt) : Option IllFormed :=
  refuse (t0 == t1 && t0.isSome) .equalTargets

def headCheck (h : DHead) : Option IllFormed :=
  firstOf [tgtCheck h.t0, tgtCheck h.t1, pairCheck h.t0 h.t1]

/-- BSEL is 00 outside space g (R209). -/
def baseCheck (sp : Space) (b : Fin 4) : Option IllFormed := refuse (sp != .g && b.val != 0) .baseSelect

def rankCheck (k : Fin 8) : Option IllFormed := refuse (k.val == 7) .rank

/-- The first thing wrong with an instruction word; an event has no word and nothing to be wrong. -/
def Instr.check (i : Instr) : Option IllFormed :=
  match i with
  | .mov h => headCheck h
  | .fank t _ _ => tgtCheck t
  | .steer t0 t1 => firstOf [tgtCheck t0, tgtCheck t1, pairCheck t0 t1]
  | .merge t0 t1 => firstOf [tgtCheck t0, tgtCheck t1, pairCheck t0 t1]
  | .gate h => headCheck h
  | .mark t c k => firstOf [tgtCheck t, refuse (c.val == 0) .markPeriod, rankCheck k]
  | .rankq t k => firstOf [tgtCheck t, rankCheck k]
  | .strip t k => firstOf [tgtCheck t, rankCheck k]
  | .count t k => firstOf [tgtCheck t, rankCheck k]
  | .getw t _ => tgtCheck t
  | .putw t _ => tgtCheck t
  | .const t _ _ => tgtCheck t
  | .nextb t _ => tgtCheck t
  | .halt t => tgtCheck t
  | .drop _ => none
  | .add h _ uns w => firstOf [headCheck h, refuse (uns && w == .w4) .unsignedNibbles]
  | .sub h _ uns w => firstOf [headCheck h, refuse (uns && w == .w4) .unsignedNibbles]
  | .addi t _ => tgtCheck t
  | .mul h _ uns w => firstOf [headCheck h, refuse (uns && w == .w4) .unsignedNibbles]
  | .mulh h uns w => firstOf [headCheck h, refuse (uns && w == .w4) .unsignedNibbles]
  | .mad h _ uns w => firstOf [headCheck h, refuse (uns && w == .w4) .unsignedNibbles]
  | .div h _ _ => headCheck h
  | .rem h _ => headCheck h
  | .min h uns w => firstOf [headCheck h, refuse (uns && w == .w4) .unsignedNibbles]
  | .max h uns w => firstOf [headCheck h, refuse (uns && w == .w4) .unsignedNibbles]
  | .abs h _ _ => headCheck h
  | .neg h _ _ => headCheck h
  | .clamp h uns w => firstOf [headCheck h, refuse (uns && w == .w4) .unsignedNibbles]
  | .addc h _ => headCheck h
  | .muli t _ => tgtCheck t
  | .dot4 h _ uns w => firstOf [headCheck h, refuse (uns && w == .w4) .unsignedNibbles, refuse (w == .w32) .wideLanes]
  | .and h => headCheck h
  | .or h => headCheck h
  | .xor h => headCheck h
  | .andn h => headCheck h
  | .shl h uns w => firstOf [headCheck h, refuse (uns && w == .w4) .unsignedNibbles]
  | .shr h uns w => firstOf [headCheck h, refuse (uns && w == .w4) .unsignedNibbles]
  | .rot h _ => headCheck h
  | .clz h _ => headCheck h
  | .popc h _ => headCheck h
  | .bfx h _ => headCheck h
  | .bfi h => headCheck h
  | .cmp h _ _ => headCheck h
  | .cmpi t _ _ _ => tgtCheck t
  | .sel h => headCheck h
  | .logi t _ _ => tgtCheck t
  | .tstb h => headCheck h
  | .fadd h _ => headCheck h
  | .fsub h _ => headCheck h
  | .fmul h _ => headCheck h
  | .ffma h _ => headCheck h
  | .fmin h => headCheck h
  | .fmax h => headCheck h
  | .fneg h => headCheck h
  | .fcmp h _ => headCheck h
  | .fdiv h _ => headCheck h
  | .fsqrt h _ => headCheck h
  | .frsqe h => headCheck h
  | .frcpe h => headCheck h
  | .fclass h => headCheck h
  | .fexp2e h => headCheck h
  | .flog2e h => headCheck h
  | .fscl h _ => headCheck h
  | .cvtif h _ _ => headCheck h
  | .cvtfi h _ _ => headCheck h
  | .cvtfh h _ _ _ => headCheck h
  | .cvthf h _ _ => headCheck h
  | .cvtf8 h _ _ _ => headCheck h
  | .cvt8f h _ _ => headCheck h
  | .ldi t _ => tgtCheck t
  | .ldhi t _ => tgtCheck t
  | .pack h _ uns w => firstOf [headCheck h, refuse (uns && w == .w4) .unsignedNibbles, refuse (w == .w32) .wideLanes]
  | .unpk h _ uns w => firstOf [headCheck h, refuse (uns && w == .w4) .unsignedNibbles, refuse (w == .w32) .wideLanes]
  | .q4e h _ => headCheck h
  | .q4d h _ => headCheck h
  | .scb h _ => headCheck h
  | .scd h => headCheck h
  | .desc h => headCheck h
  | .lds t _ => tgtCheck t
  | .sts t _ => tgtCheck t
  | .ldb t _ _ => tgtCheck t
  | .stb t _ _ => tgtCheck t
  | .agen t _ _ _ => tgtCheck t
  | .agcfg t _ _ _ => tgtCheck t
  | .ld m sp b _ sz => firstOf [tgtCheck m.t, refuse (sp == .w && sz != .w32) .carrySize, baseCheck sp b]
  | .st m sp b sz => firstOf [tgtCheck m.t, refuse (sp == .w && sz != .w32) .carrySize, baseCheck sp b]
  | .ldx m sp b _ sz => firstOf [tgtCheck m.t, refuse (sp == .w && sz != .w32) .carrySize, baseCheck sp b]
  | .pref m _ e => firstOf [tgtCheck m.t, refuse (e == .all) .extent]
  | .atom m sp b op => firstOf [tgtCheck m.t, refuse (sp == .w) .forbiddenSpace, refuse (decide (12 ≤ op.val)) .atomicOperation, baseCheck sp b]
  | .cas m sp b => firstOf [tgtCheck m.t, refuse (sp == .w) .forbiddenSpace, baseCheck sp b]
  | .tas m sp b => firstOf [tgtCheck m.t, refuse (sp == .w) .forbiddenSpace, baseCheck sp b]
  | .fence t _ => tgtCheck t
  | .phase t _ _ => tgtCheck t
  | .bar t _ o => firstOf [tgtCheck t, refuse (o.scope == .elem || o.scope == .sys) .barrierScope]
  | .arrv t _ _ sc => firstOf [tgtCheck t, refuse (sc == .elem || sc == .sys) .barrierScope]
  | .bwait t _ _ sc => firstOf [tgtCheck t, refuse (sc == .elem || sc == .sys) .barrierScope]
  | .waitge m _ => tgtCheck m.t
  | .cntadd m _ _ => tgtCheck m.t
  | .osend t _ => tgtCheck t
  | .orecv h => headCheck h
  | .split t _ => tgtCheck t
  | .bobdef t _ _ => tgtCheck t
  | .bwf t _ _ => tgtCheck t
  | .bwe t _ _ => tgtCheck t
  | .badv t _ _ _ => tgtCheck t
  | .tstat t _ => tgtCheck t
  | .tset t _ => tgtCheck t
  | .cflush m _ => tgtCheck m.t
  | .cwb m e => firstOf [tgtCheck m.t, refuse (e == .all) .extent]
  | .cinv m sp e => firstOf [tgtCheck m.t, refuse (sp == .w) .forbiddenSpace, refuse (sp == .s && e == .all) .extent]
  | .pin m _ => tgtCheck m.t
  | .unpin m _ => tgtCheck m.t
  | .mapw t _ _ _ _ => tgtCheck t
  | .unmapw t _ _ _ => tgtCheck t
  | .fuse t _ _ => tgtCheck t
  | .unfuse t _ => tgtCheck t
  | .wload t _ _ _ => tgtCheck t
  | .wswap t r _ => firstOf [tgtCheck t, rankCheck r]
  | .mma t _ mrank _ _ => firstOf [tgtCheck t, rankCheck mrank]
  | .mmao t _ mrank _ _ => firstOf [tgtCheck t, rankCheck mrank]
  | .accz t _ => tgtCheck t
  | .accrd h _ _ => headCheck h
  | .accdr t _ _ _ => tgtCheck t
  | .accsv t _ _ => tgtCheck t
  | .accrs t _ => tgtCheck t
  | .edly t _ _ => tgtCheck t
  | .skewc t _ _ _ => tgtCheck t
  | .seaq t _ _ => tgtCheck t
  | .vadd t _ _ => tgtCheck t
  | .vsub t _ _ => tgtCheck t
  | .vmul t _ _ => tgtCheck t
  | .vfma t _ _ _ => tgtCheck t
  | .vmin t _ _ => tgtCheck t
  | .vmax t _ _ => tgtCheck t
  | .vcmp t _ _ _ => tgtCheck t
  | .vsel t _ _ _ => tgtCheck t
  | .vcvt t _ _ _ => tgtCheck t
  | .vred t _ r _ cols vec => firstOf [tgtCheck t, rankCheck r, refuse (cols && !vec) .reduceShape]
  | .vexp2 t _ => tgtCheck t
  | .vrsq t _ => tgtCheck t
  | .vrcp t _ => tgtCheck t
  | .vperm t k pool _ => firstOf [tgtCheck t, refuse (!pool && k.val != 0) .unusedPool]
  | .vbcst t k i fromv => firstOf [tgtCheck t, refuse (!fromv && i.val != 0) .broadcastIndex, refuse (fromv && k.val != 0) .unusedPool]
  | .vqnt t _ _ => tgtCheck t
  | .copy t _ _ _ => tgtCheck t
  | .gath t _ _ => tgtCheck t
  | .scat t _ _ _ => tgtCheck t
  | .mcast t _ _ _ => tgtCheck t
  | .xconv t _ _ _ => tgtCheck t
  | .relay t _ _ => tgtCheck t
  | .free t _ _ => tgtCheck t
  | .xstat t _ => tgtCheck t
  | .chopen t _ => tgtCheck t
  | .push t _ _ => tgtCheck t
  | .pop t _ _ => tgtCheck t
  | .pushb t _ => tgtCheck t
  | .popb t _ => tgtCheck t
  | .peek t _ => tgtCheck t
  | .chend t _ _ => tgtCheck t
  | .chstat t _ => tgtCheck t
  | .chgrow t _ _ => tgtCheck t
  | .chdef t _ => tgtCheck t
  | .chfree t => tgtCheck t
  | .matom m _ _ => tgtCheck m.t
  | .mcas m _ _ => tgtCheck m.t
  | .mtas m _ _ => tgtCheck m.t
  | .mred t _ _ _ => tgtCheck t
  | .mcnt m _ _ => tgtCheck m.t
  | .framem t _ _ => tgtCheck t
  | .launch t _ _ _ => tgtCheck t
  | .nodeq t _ => tgtCheck t
  | .yieldN t _ => tgtCheck t
  | .pwrq t _ => tgtCheck t
  | .trap t _ => tgtCheck t
  | .rte t => tgtCheck t
  | .csrrd t _ => tgtCheck t
  | .csrwr t _ => tgtCheck t
  | .tlbi m _ _ => tgtCheck m.t
  | .wfe t m => firstOf [tgtCheck t, refuse (m == 0) .emptyMask]
  | .jmpb t _ => tgtCheck t
  | .callb t _ => tgtCheck t
  | .retb t => tgtCheck t
  | .tqpost t _ sc _ => firstOf [tgtCheck t, refuse (sc != .elem) .unusedScope]
  | .tqack t _ _ => tgtCheck t
  | .sigchk t _ _ _ _ => tgtCheck t
  | .fwswap t => tgtCheck t
  | .mcread t => tgtCheck t
  | .ecntr t _ => tgtCheck t
  | .einj t k off => firstOf [tgtCheck t, refuse (off && k.val != 0) .unusedPool]
  | .binset t => tgtCheck t
  | .retest t => tgtCheck t
  | .bypass t => tgtCheck t
  | .flddrain t => tgtCheck t
  | .fldadmit t => tgtCheck t
  | .lwRecWrite _ _ _ => none
  | .launchRecordCheck _ => none
  | .tqBaseWrite _ => none
  | .tqCfgWrite _ => none
  | .tqHeadWrite _ => none
  | .tqAckWrite _ => none
  | .tqFatalClear => none
  | .trapRecordPost => none
  | .placementPass => none
  | .blockLoad _ => none
  | .blockEnd _ => none
  | .phaseBoundary _ => none
  | .commitBoundary _ => none
  | .nodeComplete _ => none
  | .machineCheck _ => none
  | .nodeRetireChecks _ => none
  | .marginalUnit _ => none
  | .preemption _ => none
  | .restore _ => none
  | .ageTick => none
  | .deadlockDetect => none
  | .channelRefill _ => none
  | .chuBaseWrite _ => none
  | .chuCfgWrite _ => none
  | .chuDefine _ => none
  | .chuFree _ => none
  | .chuSnapshot _ => none
  | .chuClose _ => none
  | .xlRootWrite _ => none
  | .xlFtdescWrite _ => none
  | .xlUnmap _ => none
  | .xlMigrate _ => none
  | .xlInvalidate _ => none
  | .xlHostPin _ => none
  | .xlHostUnpin _ => none
  | .dspCfgWrite _ => none
  | .pwrBudgetWrite _ _ => none
  | .dspPreempt => none
  | .dspHold => none
  | .dspRelease => none
  | .dspReopen => none
  | .hlCfgWrite _ => none
  | .hlCdataRead => none
  | .hlRetireFrame => none
  | .hlRetirePch => none
  | .hlRetireStack => none
  | .hlMarkLayer => none
  | .hlClearLayer => none
  | .layerAutoMark _ _ => none
  | .ceThreshold _ => none
  | .fieldDrained _ => none
  | .retestDone _ _ _ => none
  | .binChangeDone _ => none
  | .bypassApply => none
  | .shuttleCommandStart _ => none
  | .shuttleTilePermit _ => none
  | .shuttleComplete _ => none
  | .sigchkComplete => none
  | .timerMatch _ => none
  | .fwWatchdog _ => none
  | .sliceExpiry _ => none
  | .registerWrite _ _ _ _ => none
  | .hostWrite _ _ _ => none
  | .hostRead _ _ _ => none
  | .descriptorViewWrite _ _ _ _ => none
  | .hpDbellWrite _ _ => none
  | .hostRequestTimeout _ => none
  | .peerDataFlit _ _ => none
  | .peerHeaderFlit _ _ => none
  | .peerAckFlit _ _ => none
  | .peerCreditFlit _ => none
  | .relayAckTimeout _ => none
  | .peerPortDown _ => none
  | .prRetrain _ => none
  | .mgAttest => none
  | .moduleReset _ => none
  | .bootImageVerify => none
  | .hbmTrain _ => none
  | .sramTest _ _ => none
  | .binLoadRetest _ => none
  | .firmwareInstall => none
  | .linkTrain _ => none
  | .coldPlateLimit _ => none
  | .hbmStackLost _ => none
  | .twoCopyDisagree _ => none
  | .powerBucketTick _ => none
  | .peerPortUp _ => none
  | .peerFlitCrcFail _ => none
  | .hostLinkChange _ _ _ _ => none
  | .memorySoftError _ => none

/-- A well-formed instruction. -/
def Instr.wellFormed (i : Instr) : Bool := i.check.isNone

end Sys2Proof
end

