-- ==== Sys2Proof/Decode.lean ====
section
/-! DEFINITION. Decoding of configuration words (R76 to R83) and, after it, their encoder. -/

namespace Sys2Proof

/-- Why a word is no instruction (R81, R83): an illegal configuration word, cause 1. -/
inductive BadWord where
  /-- The opcode map has a dash there, or the word is all zero (R81, R83). -/
  | unassigned
  /-- A bit that the encoding fixes has another value (R81, R134). -/
  | fixedBits
  /-- Predication code 11 (R78). -/
  | predication
  /-- Scope code 5 to 7 (R79). -/
  | scope
  /-- Space code 11 (R80). -/
  | space
  /-- A modifier code that the instruction's definition does not list (R81). -/
  | modifier
  deriving DecidableEq, Repr

/-! ### Fields -/

/-- The low bits of a field as a number below a power of two. -/
def fin (n : Nat) [NeZero n] (v : Nat) : Fin n := Fin.ofNat n v

/-- Bit `k` of a field. -/
def bitAt (i k : Nat) : Bool := i / 2 ^ k % 2 == 1

/-- Bits that must have one value. -/
def fixed (v e : Nat) : Except BadWord Unit := if v = e then .ok () else .error .fixedBits

/-- A field that must stay below `n`. -/
def readFin (n : Nat) (v : Nat) : Except BadWord (Fin n) :=
  if h : v < n then .ok ⟨v, h⟩ else .error .modifier

/-- The slot codes of R77. -/
def readSlot (v : Nat) : Slot :=
  match v with
  | 0 => .a
  | 1 => .b
  | 2 => .c
  | _ => .p

/-- A target field: slot in [8:7], index in [6:0], 0x1FF for none (R77). -/
def readTgt (v : Nat) : Tgt :=
  if v % 512 = 511 then none else some { slot := readSlot (v / 128 % 4), index := fin 128 v }

def readPred (v : Nat) : Except BadWord Pred :=
  match v with
  | 0 => .ok .always
  | 1 => .ok .ifTrue
  | 2 => .ok .ifFalse
  | _ => .error .predication

/-- The second target and the predication field of a D-format word (R76). -/
def readHead (t i : Nat) : Except BadWord DHead := do
  let p ← readPred (i / 16 % 4)
  .ok { t0 := readTgt t, t1 := readTgt (i / 64), pred := p }

def readWidth (v : Nat) : Except BadWord Width :=
  match v with
  | 0 => .ok .w32
  | 1 => .ok .w16
  | 2 => .ok .w8
  | _ => .ok .w4

def readRnd (v : Nat) : Except BadWord Rnd :=
  match v with
  | 0 => .ok .rne
  | 1 => .ok .rtz
  | 2 => .ok .rup
  | _ => .ok .rdn

def readCond (v : Nat) : Except BadWord Cond :=
  match v with
  | 0 => .ok .eq
  | 1 => .ok .ne
  | 2 => .ok .lt
  | 3 => .ok .le
  | 4 => .ok .gt
  | 5 => .ok .ge
  | _ => .error .modifier

def readLogOp (v : Nat) : Except BadWord LogOp :=
  match v with
  | 0 => .ok .and
  | 1 => .ok .or
  | 2 => .ok .xor
  | _ => .ok .andn

def readScbFmt (v : Nat) : Except BadWord ScbFmt :=
  match v with
  | 0 => .ok .i8
  | 1 => .ok .i4
  | 2 => .ok .i16
  | 3 => .ok .n8
  | 4 => .ok .q4n
  | _ => .error .modifier

def readScope (v : Nat) : Except BadWord Scope :=
  match v with
  | 0 => .ok .elem
  | 1 => .ok .region
  | 2 => .ok .field
  | 3 => .ok .dev
  | 4 => .ok .sys
  | _ => .error .scope

/-- ACQ, REL and SCOPE of an engine command (R79). -/
def readOrder (i : Nat) : Except BadWord Order := do
  let s ← readScope (i / 4 % 8)
  .ok { acq := bitAt i 6, rel := bitAt i 5, scope := s }

def readSpace (v : Nat) : Except BadWord Space :=
  match v with
  | 0 => .ok .g
  | 1 => .ok .s
  | 2 => .ok .w
  | _ => .error .space

/-- seq and UNORD of an M-format word (R80). -/
def readMHead (t i : Nat) : MHead :=
  { t := readTgt t, seq := fin 64 (i / 512), unord := bitAt i 6 }

def readSize (v : Nat) : Except BadWord Size :=
  match v with
  | 0 => .ok .w32
  | 1 => .ok .w16
  | 2 => .ok .w8
  | _ => .error .modifier

def readExt (v : Nat) : Except BadWord Ext :=
  match v with
  | 0 => .ok .line
  | 1 => .ok .sblk
  | 2 => .ok .page
  | _ => .ok .all

def readCntRel (v : Nat) : Except BadWord CntRel :=
  match v with
  | 0 => .ok .none
  | 1 => .ok .dev
  | 2 => .ok .sys
  | _ => .error .modifier

def readMmaSrc (v : Nat) : Except BadWord MmaSrc :=
  match v with
  | 0 => .ok .bob
  | 1 => .ok .strm
  | 2 => .ok .skew
  | _ => .error .modifier

def readRedOp (v : Nat) : Except BadWord RedOp :=
  match v with
  | 0 => .ok .add
  | 1 => .ok .max
  | 2 => .ok .min
  | _ => .ok .amax

def readScatOp (v : Nat) : Except BadWord ScatOp :=
  match v with
  | 0 => .ok .write
  | 1 => .ok .fadd
  | 2 => .ok .add
  | _ => .error .modifier

def readMredOp (v : Nat) : Except BadWord MredOp :=
  match v with
  | 0 => .ok .add
  | 1 => .ok .max
  | 2 => .ok .min
  | _ => .error .modifier

def readTlbExt (v : Nat) : Except BadWord TlbExt :=
  match v with
  | 0 => .ok .page
  | 1 => .ok .large
  | 2 => .ok .all
  | _ => .error .modifier

/-- A VARIANT field, bits [1:0], that lists 00 and 01 only. -/
def readVar1 (i : Nat) : Except BadWord Bool :=
  match i % 4 with
  | 0 => .ok false
  | 1 => .ok true
  | _ => .error .modifier

/-! ### The sixteen groups -/

/-- Group 0x0 of the opcode map (R83): column `c`, target field `t`, bits [14:0] `i`. -/
def decodeGroup0 (c t i : Nat) : Except BadWord Instr :=
  match c with
  | 1 => do fixed (i % 16) 0; let h ← readHead t i; .ok (.mov h)
  | 2 => do fixed (i / 8 % 16) 0; .ok (.fank (readTgt t) (fin 256 (i / 128)) (fin 8 (i % 8)))
  | 3 => do fixed (i % 64) 0; .ok (.steer (readTgt t) (readTgt (i / 64)))
  | 4 => do fixed (i % 64) 0; .ok (.merge (readTgt t) (readTgt (i / 64)))
  | 5 => do fixed (i % 16) 0; let h ← readHead t i; .ok (.gate h)
  | 6 => .ok (.mark (readTgt t) (fin 4096 (i / 8)) (fin 8 (i % 8)))
  | 7 => do fixed (i / 8) 0; .ok (.rankq (readTgt t) (fin 8 (i % 8)))
  | 8 => do fixed (i / 8) 0; .ok (.strip (readTgt t) (fin 8 (i % 8)))
  | 9 => do fixed (i / 8) 0; .ok (.count (readTgt t) (fin 8 (i % 8)))
  | 10 => do fixed (i / 64) 0; .ok (.getw (readTgt t) (fin 64 (i % 64)))
  | 11 => do fixed (i / 64) 0; .ok (.putw (readTgt t) (fin 64 (i % 64)))
  | 12 => do fixed (i / 16 % 8) 0; .ok (.const (readTgt t) (fin 256 (i / 128)) (fin 16 (i % 16)))
  | 13 => do fixed (i / 256) 0; .ok (.nextb (readTgt t) (fin 256 (i % 256)))
  | 14 => do fixed i 0; .ok (.halt (readTgt t))
  | 15 => do fixed t 511; fixed (i / 64) 511; fixed (i % 16) 0; let p ← readPred (i / 16 % 4); .ok (.drop p)
  | _ => .error .unassigned

/-- Group 0x1 of the opcode map (R83): column `c`, target field `t`, bits [14:0] `i`. -/
def decodeGroup1 (c t i : Nat) : Except BadWord Instr :=
  match c with
  | 0 => do let h ← readHead t i; let w ← readWidth (i % 4); .ok (.add h (bitAt i 3) (bitAt i 2) w)
  | 1 => do let h ← readHead t i; let w ← readWidth (i % 4); .ok (.sub h (bitAt i 3) (bitAt i 2) w)
  | 2 => .ok (.addi (readTgt t) (BitVec.ofNat 15 i))
  | 3 => do let h ← readHead t i; let w ← readWidth (i % 4); .ok (.mul h (bitAt i 3) (bitAt i 2) w)
  | 4 => do fixed (i / 8 % 2) 0; let h ← readHead t i; let w ← readWidth (i % 4); .ok (.mulh h (bitAt i 2) w)
  | 5 => do let h ← readHead t i; let w ← readWidth (i % 4); .ok (.mad h (bitAt i 3) (bitAt i 2) w)
  | 6 => do fixed (i % 4) 0; let h ← readHead t i; .ok (.div h (bitAt i 3) (bitAt i 2))
  | 7 => do fixed (i / 8 % 2) 0; fixed (i % 4) 0; let h ← readHead t i; .ok (.rem h (bitAt i 2))
  | 8 => do fixed (i / 8 % 2) 0; let h ← readHead t i; let w ← readWidth (i % 4); .ok (.min h (bitAt i 2) w)
  | 9 => do fixed (i / 8 % 2) 0; let h ← readHead t i; let w ← readWidth (i % 4); .ok (.max h (bitAt i 2) w)
  | 10 => do fixed (i / 4 % 2) 0; let h ← readHead t i; let w ← readWidth (i % 4); .ok (.abs h (bitAt i 3) w)
  | 11 => do fixed (i / 4 % 2) 0; let h ← readHead t i; let w ← readWidth (i % 4); .ok (.neg h (bitAt i 3) w)
  | 12 => do fixed (i / 8 % 2) 0; let h ← readHead t i; let w ← readWidth (i % 4); .ok (.clamp h (bitAt i 2) w)
  | 13 => do fixed (i / 2 % 8) 0; let h ← readHead t i; .ok (.addc h (bitAt i 0))
  | 14 => .ok (.muli (readTgt t) (BitVec.ofNat 15 i))
  | _ => do let h ← readHead t i; let w ← readWidth (i % 4); .ok (.dot4 h (bitAt i 3) (bitAt i 2) w)

/-- Group 0x2 of the opcode map (R83): column `c`, target field `t`, bits [14:0] `i`. -/
def decodeGroup2 (c t i : Nat) : Except BadWord Instr :=
  match c with
  | 0 => do fixed (i % 16) 0; let h ← readHead t i; .ok (.and h)
  | 1 => do fixed (i % 16) 0; let h ← readHead t i; .ok (.or h)
  | 2 => do fixed (i % 16) 0; let h ← readHead t i; .ok (.xor h)
  | 3 => do fixed (i % 16) 0; let h ← readHead t i; .ok (.andn h)
  | 4 => do fixed (i / 8 % 2) 0; let h ← readHead t i; let w ← readWidth (i % 4); .ok (.shl h (bitAt i 2) w)
  | 5 => do fixed (i / 8 % 2) 0; let h ← readHead t i; let w ← readWidth (i % 4); .ok (.shr h (bitAt i 2) w)
  | 6 => do fixed (i / 4 % 4) 0; let h ← readHead t i; let w ← readWidth (i % 4); .ok (.rot h w)
  | 7 => do fixed (i / 4 % 4) 0; let h ← readHead t i; let w ← readWidth (i % 4); .ok (.clz h w)
  | 8 => do fixed (i / 4 % 4) 0; let h ← readHead t i; let w ← readWidth (i % 4); .ok (.popc h w)
  | 9 => do fixed (i / 8 % 2) 0; fixed (i % 4) 0; let h ← readHead t i; .ok (.bfx h (bitAt i 2))
  | 10 => do fixed (i % 16) 0; let h ← readHead t i; .ok (.bfi h)
  | 11 => do let h ← readHead t i; let c ← readCond (i / 2 % 8); .ok (.cmp h c (bitAt i 0))
  | 12 => do let c ← readCond (i / 4096); .ok (.cmpi (readTgt t) c (bitAt i 11) (BitVec.ofNat 11 (i % 2048)))
  | 13 => do fixed (i % 16) 0; let h ← readHead t i; .ok (.sel h)
  | 14 => do let ox ← readLogOp (i / 8192); .ok (.logi (readTgt t) ox (BitVec.ofNat 13 (i % 8192)))
  | _ => do fixed (i % 16) 0; let h ← readHead t i; .ok (.tstb h)

/-- Group 0x3 of the opcode map (R83): column `c`, target field `t`, bits [14:0] `i`. -/
def decodeGroup3 (c t i : Nat) : Except BadWord Instr :=
  match c with
  | 0 => do fixed (i / 4 % 4) 0; let h ← readHead t i; let r ← readRnd (i % 4); .ok (.fadd h r)
  | 1 => do fixed (i / 4 % 4) 0; let h ← readHead t i; let r ← readRnd (i % 4); .ok (.fsub h r)
  | 2 => do fixed (i / 4 % 4) 0; let h ← readHead t i; let r ← readRnd (i % 4); .ok (.fmul h r)
  | 3 => do fixed (i / 4 % 4) 0; let h ← readHead t i; let r ← readRnd (i % 4); .ok (.ffma h r)
  | 4 => do fixed (i % 16) 0; let h ← readHead t i; .ok (.fmin h)
  | 5 => do fixed (i % 16) 0; let h ← readHead t i; .ok (.fmax h)
  | 6 => do fixed (i % 16) 0; let h ← readHead t i; .ok (.fneg h)
  | 7 => do fixed (i / 8 % 2) 0; let h ← readHead t i; let c ← readCond (i % 8); .ok (.fcmp h c)
  | 8 => do fixed (i / 4 % 4) 0; let h ← readHead t i; let r ← readRnd (i % 4); .ok (.fdiv h r)
  | 9 => do fixed (i / 4 % 4) 0; let h ← readHead t i; let r ← readRnd (i % 4); .ok (.fsqrt h r)
  | 10 => do fixed (i % 16) 0; let h ← readHead t i; .ok (.frsqe h)
  | 11 => do fixed (i % 16) 0; let h ← readHead t i; .ok (.frcpe h)
  | 12 => do fixed (i % 16) 0; let h ← readHead t i; .ok (.fclass h)
  | 13 => do fixed (i % 16) 0; let h ← readHead t i; .ok (.fexp2e h)
  | 14 => do fixed (i % 16) 0; let h ← readHead t i; .ok (.flog2e h)
  | _ => do fixed (i / 4 % 4) 0; let h ← readHead t i; let r ← readRnd (i % 4); .ok (.fscl h r)

/-- Group 0x4 of the opcode map (R83): column `c`, target field `t`, bits [14:0] `i`. -/
def decodeGroup4 (c t i : Nat) : Except BadWord Instr :=
  match c with
  | 0 => do fixed (i / 8 % 2) 0; let h ← readHead t i; let r ← readRnd (i % 4); .ok (.cvtif h (bitAt i 2) r)
  | 1 => do fixed (i / 8 % 2) 0; let h ← readHead t i; let r ← readRnd (i % 4); .ok (.cvtfi h (bitAt i 2) r)
  | 2 => do let h ← readHead t i; let r ← readRnd (i % 4); .ok (.cvtfh h (bitAt i 3) (bitAt i 2) r)
  | 3 => do fixed (i / 8 % 2) 0; fixed (i / 2 % 2) 0; let h ← readHead t i; .ok (.cvthf h (bitAt i 2) (fin 2 (i % 2)))
  | 4 => do let h ← readHead t i; .ok (.cvtf8 h (fin 4 (i / 4 % 4)) (bitAt i 1) (bitAt i 0))
  | 5 => do fixed (i % 2) 0; let h ← readHead t i; .ok (.cvt8f h (fin 4 (i / 4 % 4)) (bitAt i 1))
  | 6 => .ok (.ldi (readTgt t) (BitVec.ofNat 15 i))
  | 7 => .ok (.ldhi (readTgt t) (BitVec.ofNat 15 i))
  | 8 => do let h ← readHead t i; let w ← readWidth (i % 4); .ok (.pack h (bitAt i 3) (bitAt i 2) w)
  | 9 => do let h ← readHead t i; let w ← readWidth (i % 4); .ok (.unpk h (bitAt i 3) (bitAt i 2) w)
  | 10 => do fixed (i / 8 % 2) 0; let h ← readHead t i; .ok (.q4e h (fin 8 (i % 8)))
  | 11 => do fixed (i / 8 % 2) 0; let h ← readHead t i; .ok (.q4d h (fin 8 (i % 8)))
  | 12 => do fixed (i / 8 % 2) 0; let h ← readHead t i; let x ← readScbFmt (i % 8); .ok (.scb h x)
  | 13 => do fixed (i % 16) 0; let h ← readHead t i; .ok (.scd h)
  | 14 => do fixed (i % 16) 0; let h ← readHead t i; .ok (.desc h)
  | _ => .error .unassigned

/-- Group 0x5 of the opcode map (R83): column `c`, target field `t`, bits [14:0] `i`. -/
def decodeGroup5 (c t i : Nat) : Except BadWord Instr :=
  match c with
  | 0 => do fixed (i % 128) 0; .ok (.lds (readTgt t) (fin 256 (i / 128)))
  | 1 => do fixed (i % 128) 0; .ok (.sts (readTgt t) (fin 256 (i / 128)))
  | 2 => do fixed (i / 4 % 32) 0; let v ← readVar1 i; .ok (.ldb (readTgt t) (fin 256 (i / 128)) v)
  | 3 => do fixed (i / 4 % 32) 0; let v ← readVar1 i; .ok (.stb (readTgt t) (fin 256 (i / 128)) v)
  | 4 => do fixed (i / 4 % 32) 0; .ok (.agen (readTgt t) (fin 256 (i / 128)) (bitAt i 1) (bitAt i 0))
  | 5 => do let o ← readOrder i; let v ← readVar1 i; .ok (.agcfg (readTgt t) (fin 256 (i / 128)) o v)
  | 6 => do fixed (i / 8 % 2) 0; let sp ← readSpace (i / 128 % 4); let z ← readSize (i % 4); .ok (.ld (readMHead t i) sp (fin 4 (i / 16 % 4)) (bitAt i 2) z)
  | 7 => do fixed (i / 4 % 4) 0; let sp ← readSpace (i / 128 % 4); let z ← readSize (i % 4); .ok (.st (readMHead t i) sp (fin 4 (i / 16 % 4)) z)
  | 8 => do fixed (i / 8 % 2) 0; let sp ← readSpace (i / 128 % 4); let z ← readSize (i % 4); .ok (.ldx (readMHead t i) sp (fin 4 (i / 16 % 4)) (bitAt i 2) z)
  | 9 => do fixed (i / 128 % 4) 0; fixed (i / 4 % 4) 0; let e ← readExt (i % 4); .ok (.pref (readMHead t i) (fin 4 (i / 16 % 4)) e)
  | _ => .error .unassigned

/-- Group 0x6 of the opcode map (R83): column `c`, target field `t`, bits [14:0] `i`. -/
def decodeGroup6 (c t i : Nat) : Except BadWord Instr :=
  match c with
  | 0 => do let sp ← readSpace (i / 128 % 4); .ok (.atom (readMHead t i) sp (fin 4 (i / 16 % 4)) (fin 16 (i % 16)))
  | 1 => do fixed (i % 16) 0; let sp ← readSpace (i / 128 % 4); .ok (.cas (readMHead t i) sp (fin 4 (i / 16 % 4)))
  | 2 => do fixed (i % 16) 0; let sp ← readSpace (i / 128 % 4); .ok (.tas (readMHead t i) sp (fin 4 (i / 16 % 4)))
  | 3 => do fixed (i % 512) 0; .ok (.fence (readTgt t) (fin 64 (i / 512)))
  | 4 => do fixed (i / 8 % 64) 0; let s ← readScope (i % 8); .ok (.phase (readTgt t) (fin 64 (i / 512)) s)
  | 5 => do fixed (i % 4) 0; let o ← readOrder i; .ok (.bar (readTgt t) (fin 256 (i / 128)) o)
  | 6 => do fixed (i / 64 % 2) 0; fixed (i % 4) 0; let s ← readScope (i / 4 % 8); .ok (.arrv (readTgt t) (fin 256 (i / 128)) (bitAt i 5) s)
  | 7 => do fixed (i / 32 % 2) 0; fixed (i % 4) 0; let s ← readScope (i / 4 % 8); .ok (.bwait (readTgt t) (fin 256 (i / 128)) (bitAt i 6) s)
  | 8 => do fixed (i / 128 % 4) 0; fixed (i % 16) 0; .ok (.waitge (readMHead t i) (fin 4 (i / 16 % 4)))
  | 9 => do fixed (i / 128 % 4) 0; fixed (i / 4 % 4) 0; let l ← readCntRel (i % 4); .ok (.cntadd (readMHead t i) (fin 4 (i / 16 % 4)) l)
  | 10 => do fixed (i / 64) 511; fixed (i % 16) 0; let p ← readPred (i / 16 % 4); .ok (.osend (readTgt t) p)
  | 11 => do fixed (i % 16) 0; let h ← readHead t i; .ok (.orecv h)
  | _ => .error .unassigned

/-- Group 0x7 of the opcode map (R83): column `c`, target field `t`, bits [14:0] `i`. -/
def decodeGroup7 (c t i : Nat) : Except BadWord Instr :=
  match c with
  | 0 => do fixed (i % 128) 0; .ok (.split (readTgt t) (fin 256 (i / 128)))
  | 1 => do fixed (i / 4 % 32) 0; let v ← readVar1 i; .ok (.bobdef (readTgt t) (fin 256 (i / 128)) v)
  | 2 => do fixed (i / 64 % 16) 0; .ok (.bwf (readTgt t) (fin 32 (i / 1024)) (fin 64 (i % 64)))
  | 3 => do fixed (i / 64 % 16) 0; .ok (.bwe (readTgt t) (fin 32 (i / 1024)) (fin 64 (i % 64)))
  | 4 => do fixed (i / 64 % 8) 0; .ok (.badv (readTgt t) (fin 32 (i / 1024)) (bitAt i 9) (fin 64 (i % 64)))
  | 5 => do fixed (i / 512) 0; .ok (.tstat (readTgt t) (fin 512 (i % 512)))
  | 6 => do fixed (i / 512) 0; .ok (.tset (readTgt t) (fin 512 (i % 512)))
  | 7 => do fixed (i / 128 % 4) 0; fixed (i / 4 % 16) 0; let e ← readExt (i % 4); .ok (.cflush (readMHead t i) e)
  | 8 => do fixed (i / 128 % 4) 0; fixed (i / 4 % 16) 0; let e ← readExt (i % 4); .ok (.cwb (readMHead t i) e)
  | 9 => do fixed (i / 4 % 16) 0; let sp ← readSpace (i / 128 % 4); let e ← readExt (i % 4); .ok (.cinv (readMHead t i) sp e)
  | 10 => do fixed (i / 128 % 4) 0; fixed (i / 2 % 32) 0; .ok (.pin (readMHead t i) (bitAt i 0))
  | 11 => do fixed (i / 128 % 4) 0; fixed (i / 2 % 32) 0; .ok (.unpin (readMHead t i) (bitAt i 0))
  | 12 => do let o ← readOrder i; .ok (.mapw (readTgt t) (fin 256 (i / 128)) o (bitAt i 1) (bitAt i 0))
  | 13 => do let o ← readOrder i; let v ← readVar1 i; .ok (.unmapw (readTgt t) (fin 256 (i / 128)) o v)
  | _ => .error .unassigned

/-- Group 0x8 of the opcode map (R83): column `c`, target field `t`, bits [14:0] `i`. -/
def decodeGroup8 (c t i : Nat) : Except BadWord Instr :=
  match c with
  | 0 => do fixed (i / 4 % 32) 0; .ok (.fuse (readTgt t) (fin 256 (i / 128)) (fin 4 (i % 4)))
  | 1 => do fixed (i / 4) 0; .ok (.unfuse (readTgt t) (fin 4 (i % 4)))
  | 2 => do fixed (i / 8 % 16) 0; .ok (.wload (readTgt t) (fin 256 (i / 128)) (bitAt i 2) (fin 4 (i % 4)))
  | 3 => do fixed (i / 32) 0; .ok (.wswap (readTgt t) (fin 8 (i / 4 % 8)) (fin 4 (i % 4)))
  | 4 => do let s ← readMmaSrc (i / 4 % 4); .ok (.mma (readTgt t) (fin 256 (i / 128)) (fin 8 (i / 16 % 8)) s (fin 4 (i % 4)))
  | 5 => do let s ← readMmaSrc (i / 4 % 4); .ok (.mmao (readTgt t) (fin 256 (i / 128)) (fin 8 (i / 16 % 8)) s (fin 4 (i % 4)))
  | 6 => do fixed (i % 128) 0; .ok (.accz (readTgt t) (fin 256 (i / 128)))
  | 7 => do fixed (i / 8 % 2) 0; let h ← readHead t i; let r ← readRnd (i % 4); .ok (.accrd h (bitAt i 2) r)
  | 8 => do fixed (i / 8 % 16) 0; .ok (.accdr (readTgt t) (fin 256 (i / 128)) (bitAt i 2) (fin 4 (i % 4)))
  | 9 => do fixed (i / 8 % 16) 0; fixed (i % 4) 0; .ok (.accsv (readTgt t) (fin 256 (i / 128)) (bitAt i 2))
  | 10 => do fixed (i % 128) 0; .ok (.accrs (readTgt t) (fin 256 (i / 128)))
  | 11 => do fixed (i / 4 % 32) 0; .ok (.edly (readTgt t) (fin 256 (i / 128)) (fin 4 (i % 4)))
  | 12 => do fixed (i / 32) 0; .ok (.skewc (readTgt t) (bitAt i 4) (fin 4 (i / 4 % 4)) (fin 4 (i % 4)))
  | 13 => do fixed (i / 32) 0; .ok (.seaq (readTgt t) (fin 8 (i / 4 % 8)) (fin 4 (i % 4)))
  | _ => .error .unassigned

/-- Group 0x9 of the opcode map (R83): column `c`, target field `t`, bits [14:0] `i`. -/
def decodeGroup9 (c t i : Nat) : Except BadWord Instr :=
  match c with
  | 0 => do fixed (i / 2 % 64) 0; .ok (.vadd (readTgt t) (fin 256 (i / 128)) (bitAt i 0))
  | 1 => do fixed (i / 2 % 64) 0; .ok (.vsub (readTgt t) (fin 256 (i / 128)) (bitAt i 0))
  | 2 => do fixed (i / 2 % 64) 0; .ok (.vmul (readTgt t) (fin 256 (i / 128)) (bitAt i 0))
  | 3 => do fixed (i / 4 % 32) 0; .ok (.vfma (readTgt t) (fin 256 (i / 128)) (bitAt i 1) (bitAt i 0))
  | 4 => do fixed (i / 2 % 64) 0; .ok (.vmin (readTgt t) (fin 256 (i / 128)) (bitAt i 0))
  | 5 => do fixed (i / 2 % 64) 0; .ok (.vmax (readTgt t) (fin 256 (i / 128)) (bitAt i 0))
  | 6 => do fixed (i / 2 % 8) 0; let c ← readCond (i / 16 % 8); .ok (.vcmp (readTgt t) (fin 256 (i / 128)) c (bitAt i 0))
  | 7 => do fixed (i / 4 % 32) 0; .ok (.vsel (readTgt t) (fin 256 (i / 128)) (bitAt i 1) (bitAt i 0))
  | 8 => do fixed (i / 4 % 32) 0; .ok (.vcvt (readTgt t) (fin 256 (i / 128)) (bitAt i 1) (bitAt i 0))
  | 9 => do let r ← readRedOp (i / 4 % 4); .ok (.vred (readTgt t) (fin 256 (i / 128)) (fin 8 (i / 16 % 8)) r (bitAt i 1) (bitAt i 0))
  | 10 => do fixed (i % 128) 0; .ok (.vexp2 (readTgt t) (fin 256 (i / 128)))
  | 11 => do fixed (i % 128) 0; .ok (.vrsq (readTgt t) (fin 256 (i / 128)))
  | 12 => do fixed (i % 128) 0; .ok (.vrcp (readTgt t) (fin 256 (i / 128)))
  | 13 => do fixed (i / 8 % 16) 0; .ok (.vperm (readTgt t) (fin 256 (i / 128)) (bitAt i 2) (fin 4 (i % 4)))
  | 14 => .ok (.vbcst (readTgt t) (fin 256 (i / 128)) (fin 64 (i / 2 % 64)) (bitAt i 0))
  | _ => do fixed (i / 4 % 32) 0; fixed (i % 2) 0; .ok (.vqnt (readTgt t) (fin 256 (i / 128)) (bitAt i 1))

/-- Group 0xA of the opcode map (R83): column `c`, target field `t`, bits [14:0] `i`. -/
def decodeGroupA (c t i : Nat) : Except BadWord Instr :=
  match c with
  | 0 => do let o ← readOrder i; let v ← readVar1 i; .ok (.copy (readTgt t) (fin 256 (i / 128)) o v)
  | 1 => do fixed (i % 4) 0; let o ← readOrder i; .ok (.gath (readTgt t) (fin 256 (i / 128)) o)
  | 2 => do let o ← readOrder i; let v ← readScatOp (i % 4); .ok (.scat (readTgt t) (fin 256 (i / 128)) o v)
  | 3 => do let o ← readOrder i; let v ← readVar1 i; .ok (.mcast (readTgt t) (fin 256 (i / 128)) o v)
  | 4 => do let o ← readOrder i; let v ← readVar1 i; .ok (.xconv (readTgt t) (fin 256 (i / 128)) o v)
  | 5 => do fixed (i % 4) 0; let o ← readOrder i; .ok (.relay (readTgt t) (fin 256 (i / 128)) o)
  | 6 => do fixed (i / 1024) 0; .ok (.free (readTgt t) (fin 64 (i / 16 % 64)) (fin 16 (i % 16)))
  | 7 => do fixed (i / 4) 0; let v ← readFin 3 (i % 4); .ok (.xstat (readTgt t) v)
  | _ => .error .unassigned

/-- Group 0xB of the opcode map (R83): column `c`, target field `t`, bits [14:0] `i`. -/
def decodeGroupB (c t i : Nat) : Except BadWord Instr :=
  match c with
  | 0 => do fixed (i % 128) 0; .ok (.chopen (readTgt t) (fin 256 (i / 128)))
  | 1 => do fixed (i / 16384) 0; fixed (i % 16) 0; let p ← readPred (i / 16 % 4); .ok (.push (readTgt t) (fin 256 (i / 64 % 256)) p)
  | 2 => do fixed (i / 16384) 0; fixed (i / 2 % 32) 0; .ok (.pop (readTgt t) (fin 256 (i / 64 % 256)) (bitAt i 0))
  | 3 => do fixed (i % 128) 0; .ok (.pushb (readTgt t) (fin 256 (i / 128)))
  | 4 => do fixed (i % 128) 0; .ok (.popb (readTgt t) (fin 256 (i / 128)))
  | 5 => do fixed (i / 16384) 0; fixed (i % 64) 0; .ok (.peek (readTgt t) (fin 256 (i / 64 % 256)))
  | 6 => do fixed (i / 512) 0; .ok (.chend (readTgt t) (bitAt i 8) (fin 256 (i % 256)))
  | 7 => do fixed (i / 4) 0; .ok (.chstat (readTgt t) (fin 4 (i % 4)))
  | 8 => do fixed (i / 4 % 32) 0; let v ← readVar1 i; .ok (.chgrow (readTgt t) (fin 256 (i / 128)) v)
  | 9 => do fixed (i % 128) 0; .ok (.chdef (readTgt t) (fin 256 (i / 128)))
  | 10 => do fixed i 0; .ok (.chfree (readTgt t))
  | _ => .error .unassigned

/-- Group 0xC of the opcode map (R83): column `c`, target field `t`, bits [14:0] `i`. -/
def decodeGroupC (c t i : Nat) : Except BadWord Instr :=
  match c with
  | 0 => do fixed (i / 128 % 4) 0; .ok (.matom (readMHead t i) (fin 4 (i / 16 % 4)) (fin 16 (i % 16)))
  | 1 => do fixed (i / 128 % 4) 0; fixed (i / 2 % 8) 0; .ok (.mcas (readMHead t i) (fin 4 (i / 16 % 4)) (bitAt i 0))
  | 2 => do fixed (i / 128 % 4) 0; fixed (i / 2 % 8) 0; .ok (.mtas (readMHead t i) (fin 4 (i / 16 % 4)) (bitAt i 0))
  | 3 => do let o ← readOrder i; let v ← readMredOp (i % 4); .ok (.mred (readTgt t) (fin 256 (i / 128)) o v)
  | 4 => do fixed (i / 128 % 4) 0; fixed (i / 4 % 4) 0; .ok (.mcnt (readMHead t i) (fin 4 (i / 16 % 4)) (fin 4 (i % 4)))
  | 5 => do fixed (i / 4 % 32) 0; let v ← readVar1 i; .ok (.framem (readTgt t) (fin 256 (i / 128)) v)
  | _ => .error .unassigned

/-- Group 0xD of the opcode map (R83): column `c`, target field `t`, bits [14:0] `i`. -/
def decodeGroupD (c t i : Nat) : Except BadWord Instr :=
  match c with
  | 0 => do let o ← readOrder i; let v ← readVar1 i; .ok (.launch (readTgt t) (fin 256 (i / 128)) o v)
  | 1 => do fixed (i / 16) 0; let ix ← readFin 8 (i % 16); .ok (.nodeq (readTgt t) ix)
  | 2 => do fixed (i / 2) 0; .ok (.yieldN (readTgt t) (bitAt i 0))
  | 3 => do fixed (i / 8) 0; let ix ← readFin 6 (i % 8); .ok (.pwrq (readTgt t) ix)
  | _ => .error .unassigned

/-- Group 0xE of the opcode map (R83): column `c`, target field `t`, bits [14:0] `i`. -/
def decodeGroupE (c t i : Nat) : Except BadWord Instr :=
  match c with
  | 0 => .ok (.trap (readTgt t) (BitVec.ofNat 15 i))
  | 1 => do fixed i 0; .ok (.rte (readTgt t))
  | 2 => do fixed (i / 4096) 0; .ok (.csrrd (readTgt t) (BitVec.ofNat 12 (i % 4096)))
  | 3 => do fixed (i / 4096) 0; .ok (.csrwr (readTgt t) (BitVec.ofNat 12 (i % 4096)))
  | 4 => do fixed (i / 128 % 4) 0; fixed (i / 4 % 4) 0; let e ← readTlbExt (i % 4); .ok (.tlbi (readMHead t i) (fin 4 (i / 16 % 4)) e)
  | 5 => do fixed (i / 64) 0; .ok (.wfe (readTgt t) (BitVec.ofNat 6 (i % 64)))
  | 6 => do fixed (i % 128) 0; .ok (.jmpb (readTgt t) (fin 256 (i / 128)))
  | 7 => do fixed (i % 128) 0; .ok (.callb (readTgt t) (fin 256 (i / 128)))
  | 8 => do fixed i 0; .ok (.retb (readTgt t))
  | 9 => do fixed (i / 128) 0; fixed (i / 32 % 2) 0; let s ← readScope (i / 4 % 8); let v ← readVar1 i; .ok (.tqpost (readTgt t) (bitAt i 6) s v)
  | 10 => do fixed (i / 64) 0; fixed (i % 4) 0; let s ← readScope (i / 4 % 8); .ok (.tqack (readTgt t) (bitAt i 5) s)
  | 12 => do fixed (i / 32 % 2) 0; let s ← readScope (i / 4 % 8); .ok (.sigchk (readTgt t) (fin 256 (i / 128)) (bitAt i 6) s (fin 4 (i % 4)))
  | 13 => do fixed i 0; .ok (.fwswap (readTgt t))
  | _ => .error .unassigned

/-- Group 0xF of the opcode map (R83): column `c`, target field `t`, bits [14:0] `i`. -/
def decodeGroupF (c t i : Nat) : Except BadWord Instr :=
  match c with
  | 0 => do fixed i 0; .ok (.mcread (readTgt t))
  | 1 => do fixed (i / 4) 0; let v ← readVar1 i; .ok (.ecntr (readTgt t) v)
  | 2 => do fixed (i / 4 % 32) 0; let v ← readVar1 i; .ok (.einj (readTgt t) (fin 256 (i / 128)) v)
  | 3 => do fixed i 0; .ok (.binset (readTgt t))
  | 4 => do fixed i 0; .ok (.retest (readTgt t))
  | 5 => do fixed i 0; .ok (.bypass (readTgt t))
  | 6 => do fixed i 0; .ok (.flddrain (readTgt t))
  | 7 => do fixed i 0; .ok (.fldadmit (readTgt t))
  | _ => .error .unassigned

/-- The instruction of opcode `16 g + c` (R83). -/
def decodeFields (g c t i : Nat) : Except BadWord Instr :=
  match g with
  | 0 => decodeGroup0 c t i
  | 1 => decodeGroup1 c t i
  | 2 => decodeGroup2 c t i
  | 3 => decodeGroup3 c t i
  | 4 => decodeGroup4 c t i
  | 5 => decodeGroup5 c t i
  | 6 => decodeGroup6 c t i
  | 7 => decodeGroup7 c t i
  | 8 => decodeGroup8 c t i
  | 9 => decodeGroup9 c t i
  | 10 => decodeGroupA c t i
  | 11 => decodeGroupB c t i
  | 12 => decodeGroupC c t i
  | 13 => decodeGroupD c t i
  | 14 => decodeGroupE c t i
  | 15 => decodeGroupF c t i
  | _ => .error .unassigned

/-- Decoding of a configuration word (R76, R83): opcode in [31:24], t0 in [23:15], the rest in [14:0]. -/
def decodeWord (w : Nat) : Except BadWord Instr :=
  decodeFields (w / 2 ^ 28) (w / 2 ^ 24 % 16) (w / 2 ^ 15 % 512) (w % 2 ^ 15)

/-- The four little-endian bytes of an instruction word (R7, R65). -/
def wordBytes (w : Nat) : List Byte :=
  [BitVec.ofNat 8 w, BitVec.ofNat 8 (w / 256), BitVec.ofNat 8 (w / 65536), BitVec.ofNat 8 (w / 16777216)]

/-- A little-endian number read from bytes (R7). -/
def natOfBytes : List Byte → Nat
  | [] => 0
  | b :: bs => b.toNat + 256 * natOfBytes bs

/-- Decoding of an instruction from its bytes, with the bytes that follow it. -/
def decodeBytes : List Byte → Except BadWord (Instr × List Byte)
  | b0 :: b1 :: b2 :: b3 :: rest => (decodeWord (natOfBytes [b0, b1, b2, b3])).map (·, rest)
  | _ => .error .unassigned

/-- What the decoder reads from an instruction whose bits are `w`, of `nbits` bits: every word of the opcode
table has 32; the events have none. -/
def decodeTableWord (nbits w : Nat) : Option Instr :=
  if nbits = 32 then
    match decodeBytes (wordBytes w) with
    | .ok (i, _) => some i
    | .error _ => none
  else none

/-! ### The encoder -/

def slotCode : Slot → Nat
  | .a => 0
  | .b => 1
  | .c => 2
  | .p => 3

def tgtCode : Tgt → Nat
  | none => 511
  | some t => slotCode t.slot * 128 + t.index.val

def predCode : Pred → Nat
  | .always => 0
  | .ifTrue => 1
  | .ifFalse => 2

def boolCode (b : Bool) : Nat := if b then 1 else 0

def headCode (h : DHead) : Nat := tgtCode h.t1 * 64 + predCode h.pred * 16

def mheadCode (m : MHead) : Nat := m.seq.val * 512 + boolCode m.unord * 64

def widthCode : Width → Nat
  | .w32 => 0
  | .w16 => 1
  | .w8 => 2
  | .w4 => 3

def rndCode : Rnd → Nat
  | .rne => 0
  | .rtz => 1
  | .rup => 2
  | .rdn => 3

def condCode : Cond → Nat
  | .eq => 0
  | .ne => 1
  | .lt => 2
  | .le => 3
  | .gt => 4
  | .ge => 5

def logOpCode : LogOp → Nat
  | .and => 0
  | .or => 1
  | .xor => 2
  | .andn => 3

def scbFmtCode : ScbFmt → Nat
  | .i8 => 0
  | .i4 => 1
  | .i16 => 2
  | .n8 => 3
  | .q4n => 4

def scopeCode : Scope → Nat
  | .elem => 0
  | .region => 1
  | .field => 2
  | .dev => 3
  | .sys => 4

def orderCode (o : Order) : Nat := boolCode o.acq * 64 + boolCode o.rel * 32 + scopeCode o.scope * 4

def spaceCode : Space → Nat
  | .g => 0
  | .s => 1
  | .w => 2

def sizeCode : Size → Nat
  | .w32 => 0
  | .w16 => 1
  | .w8 => 2

def extCode : Ext → Nat
  | .line => 0
  | .sblk => 1
  | .page => 2
  | .all => 3

def cntRelCode : CntRel → Nat
  | .none => 0
  | .dev => 1
  | .sys => 2

def mmaSrcCode : MmaSrc → Nat
  | .bob => 0
  | .strm => 1
  | .skew => 2

def redOpCode : RedOp → Nat
  | .add => 0
  | .max => 1
  | .min => 2
  | .amax => 3

def scatOpCode : ScatOp → Nat
  | .write => 0
  | .fadd => 1
  | .add => 2

def mredOpCode : MredOp → Nat
  | .add => 0
  | .max => 1
  | .min => 2

def tlbExtCode : TlbExt → Nat
  | .page => 0
  | .large => 1
  | .all => 2

/-- A word from its opcode, its target field and its bits [14:0] (R76). -/
def word (op t i : Nat) : Nat := op * 2 ^ 24 + t * 2 ^ 15 + i

/-- The configuration word of an instruction (R76 to R83); none for an event, which has no word. -/
def encode (i : Instr) : Option Nat :=
  match i with
  | .mov h => some (word 0x01 (tgtCode h.t0) (headCode h))
  | .fank t k c => some (word 0x02 (tgtCode t) (k.val * 128 + c.val))
  | .steer t t1 => some (word 0x03 (tgtCode t) (tgtCode t1 * 64))
  | .merge t t1 => some (word 0x04 (tgtCode t) (tgtCode t1 * 64))
  | .gate h => some (word 0x05 (tgtCode h.t0) (headCode h))
  | .mark t c k => some (word 0x06 (tgtCode t) (c.val * 8 + k.val))
  | .rankq t k => some (word 0x07 (tgtCode t) (k.val))
  | .strip t k => some (word 0x08 (tgtCode t) (k.val))
  | .count t k => some (word 0x09 (tgtCode t) (k.val))
  | .getw t w => some (word 0x0A (tgtCode t) (w.val))
  | .putw t w => some (word 0x0B (tgtCode t) (w.val))
  | .const t k n => some (word 0x0C (tgtCode t) (k.val * 128 + n.val))
  | .nextb t ix => some (word 0x0D (tgtCode t) (ix.val))
  | .halt t => some (word 0x0E (tgtCode t) (0))
  | .drop p => some (word 0x0F 511 (32704 + predCode p * 16))
  | .add h s n w => some (word 0x10 (tgtCode h.t0) (headCode h + boolCode s * 8 + boolCode n * 4 + widthCode w))
  | .sub h s n w => some (word 0x11 (tgtCode h.t0) (headCode h + boolCode s * 8 + boolCode n * 4 + widthCode w))
  | .addi t ix => some (word 0x12 (tgtCode t) (ix.toNat))
  | .mul h s n w => some (word 0x13 (tgtCode h.t0) (headCode h + boolCode s * 8 + boolCode n * 4 + widthCode w))
  | .mulh h n w => some (word 0x14 (tgtCode h.t0) (headCode h + boolCode n * 4 + widthCode w))
  | .mad h s n w => some (word 0x15 (tgtCode h.t0) (headCode h + boolCode s * 8 + boolCode n * 4 + widthCode w))
  | .div h s n => some (word 0x16 (tgtCode h.t0) (headCode h + boolCode s * 8 + boolCode n * 4))
  | .rem h n => some (word 0x17 (tgtCode h.t0) (headCode h + boolCode n * 4))
  | .min h n w => some (word 0x18 (tgtCode h.t0) (headCode h + boolCode n * 4 + widthCode w))
  | .max h n w => some (word 0x19 (tgtCode h.t0) (headCode h + boolCode n * 4 + widthCode w))
  | .abs h s w => some (word 0x1A (tgtCode h.t0) (headCode h + boolCode s * 8 + widthCode w))
  | .neg h s w => some (word 0x1B (tgtCode h.t0) (headCode h + boolCode s * 8 + widthCode w))
  | .clamp h n w => some (word 0x1C (tgtCode h.t0) (headCode h + boolCode n * 4 + widthCode w))
  | .addc h s => some (word 0x1D (tgtCode h.t0) (headCode h + boolCode s))
  | .muli t ix => some (word 0x1E (tgtCode t) (ix.toNat))
  | .dot4 h s n w => some (word 0x1F (tgtCode h.t0) (headCode h + boolCode s * 8 + boolCode n * 4 + widthCode w))
  | .and h => some (word 0x20 (tgtCode h.t0) (headCode h))
  | .or h => some (word 0x21 (tgtCode h.t0) (headCode h))
  | .xor h => some (word 0x22 (tgtCode h.t0) (headCode h))
  | .andn h => some (word 0x23 (tgtCode h.t0) (headCode h))
  | .shl h n w => some (word 0x24 (tgtCode h.t0) (headCode h + boolCode n * 4 + widthCode w))
  | .shr h n w => some (word 0x25 (tgtCode h.t0) (headCode h + boolCode n * 4 + widthCode w))
  | .rot h w => some (word 0x26 (tgtCode h.t0) (headCode h + widthCode w))
  | .clz h w => some (word 0x27 (tgtCode h.t0) (headCode h + widthCode w))
  | .popc h w => some (word 0x28 (tgtCode h.t0) (headCode h + widthCode w))
  | .bfx h n => some (word 0x29 (tgtCode h.t0) (headCode h + boolCode n * 4))
  | .bfi h => some (word 0x2A (tgtCode h.t0) (headCode h))
  | .cmp h c n => some (word 0x2B (tgtCode h.t0) (headCode h + condCode c * 2 + boolCode n))
  | .cmpi t c n v => some (word 0x2C (tgtCode t) (condCode c * 4096 + boolCode n * 2048 + v.toNat))
  | .sel h => some (word 0x2D (tgtCode h.t0) (headCode h))
  | .logi t ox v => some (word 0x2E (tgtCode t) (logOpCode ox * 8192 + v.toNat))
  | .tstb h => some (word 0x2F (tgtCode h.t0) (headCode h))
  | .fadd h r => some (word 0x30 (tgtCode h.t0) (headCode h + rndCode r))
  | .fsub h r => some (word 0x31 (tgtCode h.t0) (headCode h + rndCode r))
  | .fmul h r => some (word 0x32 (tgtCode h.t0) (headCode h + rndCode r))
  | .ffma h r => some (word 0x33 (tgtCode h.t0) (headCode h + rndCode r))
  | .fmin h => some (word 0x34 (tgtCode h.t0) (headCode h))
  | .fmax h => some (word 0x35 (tgtCode h.t0) (headCode h))
  | .fneg h => some (word 0x36 (tgtCode h.t0) (headCode h))
  | .fcmp h c => some (word 0x37 (tgtCode h.t0) (headCode h + condCode c))
  | .fdiv h r => some (word 0x38 (tgtCode h.t0) (headCode h + rndCode r))
  | .fsqrt h r => some (word 0x39 (tgtCode h.t0) (headCode h + rndCode r))
  | .frsqe h => some (word 0x3A (tgtCode h.t0) (headCode h))
  | .frcpe h => some (word 0x3B (tgtCode h.t0) (headCode h))
  | .fclass h => some (word 0x3C (tgtCode h.t0) (headCode h))
  | .fexp2e h => some (word 0x3D (tgtCode h.t0) (headCode h))
  | .flog2e h => some (word 0x3E (tgtCode h.t0) (headCode h))
  | .fscl h r => some (word 0x3F (tgtCode h.t0) (headCode h + rndCode r))
  | .cvtif h n r => some (word 0x40 (tgtCode h.t0) (headCode h + boolCode n * 4 + rndCode r))
  | .cvtfi h n r => some (word 0x41 (tgtCode h.t0) (headCode h + boolCode n * 4 + rndCode r))
  | .cvtfh h s f r => some (word 0x42 (tgtCode h.t0) (headCode h + boolCode s * 8 + boolCode f * 4 + rndCode r))
  | .cvthf h f l => some (word 0x43 (tgtCode h.t0) (headCode h + boolCode f * 4 + l.val))
  | .cvtf8 h l f n => some (word 0x44 (tgtCode h.t0) (headCode h + l.val * 4 + boolCode f * 2 + boolCode n))
  | .cvt8f h l f => some (word 0x45 (tgtCode h.t0) (headCode h + l.val * 4 + boolCode f * 2))
  | .ldi t ix => some (word 0x46 (tgtCode t) (ix.toNat))
  | .ldhi t ix => some (word 0x47 (tgtCode t) (ix.toNat))
  | .pack h s n w => some (word 0x48 (tgtCode h.t0) (headCode h + boolCode s * 8 + boolCode n * 4 + widthCode w))
  | .unpk h hx n w => some (word 0x49 (tgtCode h.t0) (headCode h + boolCode hx * 8 + boolCode n * 4 + widthCode w))
  | .q4e h l => some (word 0x4A (tgtCode h.t0) (headCode h + l.val))
  | .q4d h l => some (word 0x4B (tgtCode h.t0) (headCode h + l.val))
  | .scb h x => some (word 0x4C (tgtCode h.t0) (headCode h + scbFmtCode x))
  | .scd h => some (word 0x4D (tgtCode h.t0) (headCode h))
  | .desc h => some (word 0x4E (tgtCode h.t0) (headCode h))
  | .lds t k => some (word 0x50 (tgtCode t) (k.val * 128))
  | .sts t k => some (word 0x51 (tgtCode t) (k.val * 128))
  | .ldb t k v => some (word 0x52 (tgtCode t) (k.val * 128 + boolCode v))
  | .stb t k v => some (word 0x53 (tgtCode t) (k.val * 128 + boolCode v))
  | .agen t k a w => some (word 0x54 (tgtCode t) (k.val * 128 + boolCode a * 2 + boolCode w))
  | .agcfg t k o v => some (word 0x55 (tgtCode t) (k.val * 128 + orderCode o + boolCode v))
  | .ld m sp b x z => some (word 0x56 (tgtCode m.t) (mheadCode m + spaceCode sp * 128 + b.val * 16 + boolCode x * 4 + sizeCode z))
  | .st m sp b z => some (word 0x57 (tgtCode m.t) (mheadCode m + spaceCode sp * 128 + b.val * 16 + sizeCode z))
  | .ldx m sp b x z => some (word 0x58 (tgtCode m.t) (mheadCode m + spaceCode sp * 128 + b.val * 16 + boolCode x * 4 + sizeCode z))
  | .pref m b e => some (word 0x59 (tgtCode m.t) (mheadCode m + b.val * 16 + extCode e))
  | .atom m sp b ox => some (word 0x60 (tgtCode m.t) (mheadCode m + spaceCode sp * 128 + b.val * 16 + ox.val))
  | .cas m sp b => some (word 0x61 (tgtCode m.t) (mheadCode m + spaceCode sp * 128 + b.val * 16))
  | .tas m sp b => some (word 0x62 (tgtCode m.t) (mheadCode m + spaceCode sp * 128 + b.val * 16))
  | .fence t q => some (word 0x63 (tgtCode t) (q.val * 512))
  | .phase t q s => some (word 0x64 (tgtCode t) (q.val * 512 + scopeCode s))
  | .bar t k o => some (word 0x65 (tgtCode t) (k.val * 128 + orderCode o))
  | .arrv t k e s => some (word 0x66 (tgtCode t) (k.val * 128 + boolCode e * 32 + scopeCode s * 4))
  | .bwait t k a s => some (word 0x67 (tgtCode t) (k.val * 128 + boolCode a * 64 + scopeCode s * 4))
  | .waitge m b => some (word 0x68 (tgtCode m.t) (mheadCode m + b.val * 16))
  | .cntadd m b l => some (word 0x69 (tgtCode m.t) (mheadCode m + b.val * 16 + cntRelCode l))
  | .osend t p => some (word 0x6A (tgtCode t) (32704 + predCode p * 16))
  | .orecv h => some (word 0x6B (tgtCode h.t0) (headCode h))
  | .split t k => some (word 0x70 (tgtCode t) (k.val * 128))
  | .bobdef t k v => some (word 0x71 (tgtCode t) (k.val * 128 + boolCode v))
  | .bwf t b n => some (word 0x72 (tgtCode t) (b.val * 1024 + n.val))
  | .bwe t b n => some (word 0x73 (tgtCode t) (b.val * 1024 + n.val))
  | .badv t b hx k => some (word 0x74 (tgtCode t) (b.val * 1024 + boolCode hx * 512 + k.val))
  | .tstat t ix => some (word 0x75 (tgtCode t) (ix.val))
  | .tset t ix => some (word 0x76 (tgtCode t) (ix.val))
  | .cflush m e => some (word 0x77 (tgtCode m.t) (mheadCode m + extCode e))
  | .cwb m e => some (word 0x78 (tgtCode m.t) (mheadCode m + extCode e))
  | .cinv m sp e => some (word 0x79 (tgtCode m.t) (mheadCode m + spaceCode sp * 128 + extCode e))
  | .pin m l => some (word 0x7A (tgtCode m.t) (mheadCode m + boolCode l))
  | .unpin m l => some (word 0x7B (tgtCode m.t) (mheadCode m + boolCode l))
  | .mapw t k o v1 v0 => some (word 0x7C (tgtCode t) (k.val * 128 + orderCode o + boolCode v1 * 2 + boolCode v0))
  | .unmapw t k o v => some (word 0x7D (tgtCode t) (k.val * 128 + orderCode o + boolCode v))
  | .fuse t k y => some (word 0x80 (tgtCode t) (k.val * 128 + y.val))
  | .unfuse t y => some (word 0x81 (tgtCode t) (y.val))
  | .wload t k s y => some (word 0x82 (tgtCode t) (k.val * 128 + boolCode s * 4 + y.val))
  | .wswap t r y => some (word 0x83 (tgtCode t) (r.val * 4 + y.val))
  | .mma t k mx s y => some (word 0x84 (tgtCode t) (k.val * 128 + mx.val * 16 + mmaSrcCode s * 4 + y.val))
  | .mmao t k mx s y => some (word 0x85 (tgtCode t) (k.val * 128 + mx.val * 16 + mmaSrcCode s * 4 + y.val))
  | .accz t k => some (word 0x86 (tgtCode t) (k.val * 128))
  | .accrd h w r => some (word 0x87 (tgtCode h.t0) (headCode h + boolCode w * 4 + rndCode r))
  | .accdr t k e y => some (word 0x88 (tgtCode t) (k.val * 128 + boolCode e * 4 + y.val))
  | .accsv t k e => some (word 0x89 (tgtCode t) (k.val * 128 + boolCode e * 4))
  | .accrs t k => some (word 0x8A (tgtCode t) (k.val * 128))
  | .edly t k y => some (word 0x8B (tgtCode t) (k.val * 128 + y.val))
  | .skewc t c d s => some (word 0x8C (tgtCode t) (boolCode c * 16 + d.val * 4 + s.val))
  | .seaq t ix y => some (word 0x8D (tgtCode t) (ix.val * 4 + y.val))
  | .vadd t k b => some (word 0x90 (tgtCode t) (k.val * 128 + boolCode b))
  | .vsub t k b => some (word 0x91 (tgtCode t) (k.val * 128 + boolCode b))
  | .vmul t k b => some (word 0x92 (tgtCode t) (k.val * 128 + boolCode b))
  | .vfma t k x b => some (word 0x93 (tgtCode t) (k.val * 128 + boolCode x * 2 + boolCode b))
  | .vmin t k b => some (word 0x94 (tgtCode t) (k.val * 128 + boolCode b))
  | .vmax t k b => some (word 0x95 (tgtCode t) (k.val * 128 + boolCode b))
  | .vcmp t k c b => some (word 0x96 (tgtCode t) (k.val * 128 + condCode c * 16 + boolCode b))
  | .vsel t k x b => some (word 0x97 (tgtCode t) (k.val * 128 + boolCode x * 2 + boolCode b))
  | .vcvt t k q c => some (word 0x98 (tgtCode t) (k.val * 128 + boolCode q * 2 + boolCode c))
  | .vred t k hx r mx ox => some (word 0x99 (tgtCode t) (k.val * 128 + hx.val * 16 + redOpCode r * 4 + boolCode mx * 2 + boolCode ox))
  | .vexp2 t k => some (word 0x9A (tgtCode t) (k.val * 128))
  | .vrsq t k => some (word 0x9B (tgtCode t) (k.val * 128))
  | .vrcp t k => some (word 0x9C (tgtCode t) (k.val * 128))
  | .vperm t k ix gr => some (word 0x9D (tgtCode t) (k.val * 128 + boolCode ix * 4 + gr.val))
  | .vbcst t k ix f => some (word 0x9E (tgtCode t) (k.val * 128 + ix.val * 2 + boolCode f))
  | .vqnt t k q => some (word 0x9F (tgtCode t) (k.val * 128 + boolCode q * 2))
  | .copy t k o v => some (word 0xA0 (tgtCode t) (k.val * 128 + orderCode o + boolCode v))
  | .gath t k o => some (word 0xA1 (tgtCode t) (k.val * 128 + orderCode o))
  | .scat t k o v => some (word 0xA2 (tgtCode t) (k.val * 128 + orderCode o + scatOpCode v))
  | .mcast t k o v => some (word 0xA3 (tgtCode t) (k.val * 128 + orderCode o + boolCode v))
  | .xconv t k o v => some (word 0xA4 (tgtCode t) (k.val * 128 + orderCode o + boolCode v))
  | .relay t k o => some (word 0xA5 (tgtCode t) (k.val * 128 + orderCode o))
  | .free t n tag => some (word 0xA6 (tgtCode t) (n.val * 16 + tag.val))
  | .xstat t v => some (word 0xA7 (tgtCode t) (v.val))
  | .chopen t k => some (word 0xB0 (tgtCode t) (k.val * 128))
  | .push t e p => some (word 0xB1 (tgtCode t) (e.val * 64 + predCode p * 16))
  | .pop t e r => some (word 0xB2 (tgtCode t) (e.val * 64 + boolCode r))
  | .pushb t k => some (word 0xB3 (tgtCode t) (k.val * 128))
  | .popb t k => some (word 0xB4 (tgtCode t) (k.val * 128))
  | .peek t e => some (word 0xB5 (tgtCode t) (e.val * 64))
  | .chend t f e => some (word 0xB6 (tgtCode t) (boolCode f * 256 + e.val))
  | .chstat t v => some (word 0xB7 (tgtCode t) (v.val))
  | .chgrow t k v => some (word 0xB8 (tgtCode t) (k.val * 128 + boolCode v))
  | .chdef t k => some (word 0xB9 (tgtCode t) (k.val * 128))
  | .chfree t => some (word 0xBA (tgtCode t) (0))
  | .matom m b ox => some (word 0xC0 (tgtCode m.t) (mheadCode m + b.val * 16 + ox.val))
  | .mcas m b f => some (word 0xC1 (tgtCode m.t) (mheadCode m + b.val * 16 + boolCode f))
  | .mtas m b c => some (word 0xC2 (tgtCode m.t) (mheadCode m + b.val * 16 + boolCode c))
  | .mred t k o v => some (word 0xC3 (tgtCode t) (k.val * 128 + orderCode o + mredOpCode v))
  | .mcnt m b ox => some (word 0xC4 (tgtCode m.t) (mheadCode m + b.val * 16 + ox.val))
  | .framem t k v => some (word 0xC5 (tgtCode t) (k.val * 128 + boolCode v))
  | .launch t k o v => some (word 0xD0 (tgtCode t) (k.val * 128 + orderCode o + boolCode v))
  | .nodeq t ix => some (word 0xD1 (tgtCode t) (ix.val))
  | .yieldN t f => some (word 0xD2 (tgtCode t) (boolCode f))
  | .pwrq t ix => some (word 0xD3 (tgtCode t) (ix.val))
  | .trap t c => some (word 0xE0 (tgtCode t) (c.toNat))
  | .rte t => some (word 0xE1 (tgtCode t) (0))
  | .csrrd t c => some (word 0xE2 (tgtCode t) (c.toNat))
  | .csrwr t c => some (word 0xE3 (tgtCode t) (c.toNat))
  | .tlbi m b e => some (word 0xE4 (tgtCode m.t) (mheadCode m + b.val * 16 + tlbExtCode e))
  | .wfe t mx => some (word 0xE5 (tgtCode t) (mx.toNat))
  | .jmpb t k => some (word 0xE6 (tgtCode t) (k.val * 128))
  | .callb t k => some (word 0xE7 (tgtCode t) (k.val * 128))
  | .retb t => some (word 0xE8 (tgtCode t) (0))
  | .tqpost t a s v => some (word 0xE9 (tgtCode t) (boolCode a * 64 + scopeCode s * 4 + boolCode v))
  | .tqack t e s => some (word 0xEA (tgtCode t) (boolCode e * 32 + scopeCode s * 4))
  | .sigchk t k a s v => some (word 0xEC (tgtCode t) (k.val * 128 + boolCode a * 64 + scopeCode s * 4 + v.val))
  | .fwswap t => some (word 0xED (tgtCode t) (0))
  | .mcread t => some (word 0xF0 (tgtCode t) (0))
  | .ecntr t v => some (word 0xF1 (tgtCode t) (boolCode v))
  | .einj t k v => some (word 0xF2 (tgtCode t) (k.val * 128 + boolCode v))
  | .binset t => some (word 0xF3 (tgtCode t) (0))
  | .retest t => some (word 0xF4 (tgtCode t) (0))
  | .bypass t => some (word 0xF5 (tgtCode t) (0))
  | .flddrain t => some (word 0xF6 (tgtCode t) (0))
  | .fldadmit t => some (word 0xF7 (tgtCode t) (0))
  | .lwRecWrite _ _ _ => none
  | .launchRecordCheck _ => none
  | .tqBaseWrite _ => none
  | .tqCfgWrite _ => none
  | .tqHeadWrite _ => none
  | .tqAckWrite _ => none
  | .tqFatalClear => none
  | .trapRecordPost => none
  | .placementPass => none
  | .blockLoad _ => none
  | .blockEnd _ => none
  | .phaseBoundary _ => none
  | .commitBoundary _ => none
  | .nodeComplete _ => none
  | .machineCheck _ => none
  | .nodeRetireChecks _ => none
  | .marginalUnit _ => none
  | .preemption _ => none
  | .restore _ => none
  | .ageTick => none
  | .deadlockDetect => none
  | .channelRefill _ => none
  | .chuBaseWrite _ => none
  | .chuCfgWrite _ => none
  | .chuDefine _ => none
  | .chuFree _ => none
  | .chuSnapshot _ => none
  | .chuClose _ => none
  | .xlRootWrite _ => none
  | .xlFtdescWrite _ => none
  | .xlUnmap _ => none
  | .xlMigrate _ => none
  | .xlInvalidate _ => none
  | .xlHostPin _ => none
  | .xlHostUnpin _ => none
  | .dspCfgWrite _ => none
  | .pwrBudgetWrite _ _ => none
  | .dspPreempt => none
  | .dspHold => none
  | .dspRelease => none
  | .dspReopen => none
  | .hlCfgWrite _ => none
  | .hlCdataRead => none
  | .hlRetireFrame => none
  | .hlRetirePch => none
  | .hlRetireStack => none
  | .hlMarkLayer => none
  | .hlClearLayer => none
  | .layerAutoMark _ _ => none
  | .ceThreshold _ => none
  | .fieldDrained _ => none
  | .retestDone _ _ _ => none
  | .binChangeDone _ => none
  | .bypassApply => none
  | .shuttleCommandStart _ => none
  | .shuttleTilePermit _ => none
  | .shuttleComplete _ => none
  | .sigchkComplete => none
  | .timerMatch _ => none
  | .fwWatchdog _ => none
  | .sliceExpiry _ => none
  | .registerWrite _ _ _ _ => none
  | .hostWrite _ _ _ => none
  | .hostRead _ _ _ => none
  | .descriptorViewWrite _ _ _ _ => none
  | .hpDbellWrite _ _ => none
  | .hostRequestTimeout _ => none
  | .peerDataFlit _ _ => none
  | .peerHeaderFlit _ _ => none
  | .peerAckFlit _ _ => none
  | .peerCreditFlit _ => none
  | .relayAckTimeout _ => none
  | .peerPortDown _ => none
  | .prRetrain _ => none
  | .mgAttest => none
  | .moduleReset _ => none
  | .bootImageVerify => none
  | .hbmTrain _ => none
  | .sramTest _ _ => none
  | .binLoadRetest _ => none
  | .firmwareInstall => none
  | .linkTrain _ => none
  | .coldPlateLimit _ => none
  | .hbmStackLost _ => none
  | .twoCopyDisagree _ => none
  | .powerBucketTick _ => none
  | .peerPortUp _ => none
  | .peerFlitCrcFail _ => none
  | .hostLinkChange _ _ _ _ => none
  | .memorySoftError _ => none

end Sys2Proof
end

