-- ==== Sys2Proof/Config.lean ====
section
/-! DEFINITION. What the device's build fixes and what the manual leaves free: opaque constants, of which no value can
be proved. Each is named in the assumption log. -/

namespace Sys2Proof.Config

/-- The free choice of what acts next among all that may (R4, R26, R45, R169, R228, R320), by sweep (log 2). -/
opaque schedule : Nat → Nat

/-- The microseconds that pass in a sweep (log 4): time runs, and the manual fixes no rate against the model's steps. -/
opaque usTick : Nat → Nat

/-- Bytes that the manual leaves undefined, by free-value index: scratch at placement, and others that the log names. -/
opaque freeLine : Nat → BitVec 512

/-- The entry that a full TLB gives up (R198), by free-value index (log 43). -/
opaque tlbVictim : Nat → Nat

/-- Whether a request finds its memory-side unit's operation queue full (R362, R365), by free-value index (log 77). -/
opaque unitQueueFull : Nat → Bool

/-- The residue that a memory-side unit predicts of an operation that an injection suppresses (R368, R458), by free-value index:
the manual does not say of which of its adders and comparators (log 77). -/
opaque unitResidue : Nat → Nat

/-- How many of the machine checks that come from outside one after another are of one cycle (R438), by sweep (log 82). -/
opaque sameCycle : Nat → Nat

/-- Whether a stage of bring-up or a test of the hardware passes (R449, R472; log 6). -/
opaque passes : Nat → Bool

/-- What a test of the hardware finds, by free-value index (R449, R472; log 6): marked layers as bank and layer, failing
cells as physical column and row, other failing units. -/
opaque testLayers : Nat → List (Nat × Nat)
opaque testCells : Nat → List (Nat × Nat)
opaque testOthers : Nat → Nat

/-- What a boot image, by its signed bytes, says of a field: its bin, its removed rows and columns (R473); the manual
does not say where the image holds them (log 6). -/
opaque bootBin : List Byte → Nat → BitVec 2
opaque bootRows : List Byte → Nat → List Nat
opaque bootCols : List Byte → Nat → List Nat

/-- The SZ that counts the slots of a bobbin that is not defined (R217), by bobbin (log 13): the manual counts slots there and
gives them no size. -/
opaque undefSz : Nat → BitVec 12

/-- Ed448 verification of a signature over a message under a public key (R433, R473); the manual names the function
and does not define it (log 10). -/
opaque ed448Verify : List Byte → List Byte → List Byte → Bool

/-- The Ed448 signature of a message under the module's own attestation key (R474; log 10). -/
opaque ed448Sign : List Byte → List Byte

/-- SHAKE256 of a message to a number of bytes (R433, R473; log 10). -/
opaque shake256 : Nat → List Byte → List Byte

/-- The module's four fused key hashes and its revocation fuses (R433, R473; log 10). -/
opaque keyHash : Nat → List Byte
opaque keyRevoked : Nat → Bool

/-- The module's fused identity (R474; log 10). -/
opaque moduleId : List Byte

end Sys2Proof.Config
end

