-- ==== Sys2Proof/Machine/Numbers.lean ====
section
/-! DEFINITION. Number formats (03_numbers.md): exact values, rounding, the element formats, scale bytes, Q4N, W64 and
the events that converters count. -/

namespace Sys2Proof.Machine

/-! ### Exact values -/

/-- An exact value: not a number, an infinity, or (-1)^neg * num / den * 2^exp. A zero keeps its sign (R122). -/
inductive Num where
  | nan
  | inf (neg : Bool)
  | fin (neg : Bool) (num den : Nat) (exp : Int)
  deriving DecidableEq, Repr

/-- The events that converters count (R114). -/
structure Ev where
  sat : Nat := 0
  nan : Nat := 0
  flush : Nat := 0
  subst : Nat := 0
  fmt : Nat := 0
  deriving DecidableEq, Repr

def Ev.none : Ev := {}

def Ev.add (x y : Ev) : Ev :=
  { sat := x.sat + y.sat, nan := x.nan + y.nan, flush := x.flush + y.flush, subst := x.subst + y.subst,
    fmt := x.fmt + y.fmt }

/-- Counts of 32 bits that saturate (R294). -/
def Ev.cap (x : Ev) : Ev :=
  let c (n : Nat) : Nat := min n (2 ^ 32 - 1)
  { sat := c x.sat, nan := c x.nan, flush := c x.flush, subst := c x.subst, fmt := c x.fmt }

def Ev.sum (l : List Ev) : Ev := l.foldl Ev.add {}

def Num.zero : Num := .fin false 0 1 0

def Num.ofInt (v : Int) : Num := .fin (decide (v < 0)) v.natAbs 1 0

def Num.isNan : Num → Bool
  | .nan => true
  | _ => false

def Num.isInf : Num → Bool
  | .inf _ => true
  | _ => false

def Num.isFinite : Num → Bool
  | .fin .. => true
  | _ => false

def Num.isZero : Num → Bool
  | .fin _ 0 _ _ => true
  | _ => false

def Num.isNeg : Num → Bool
  | .nan => false
  | .inf s => s
  | .fin s _ _ _ => s

def Num.neg : Num → Num
  | .nan => .nan
  | .inf s => .inf (!s)
  | .fin s n d e => .fin (!s) n d e

def Num.abs : Num → Num
  | .nan => .nan
  | .inf _ => .inf false
  | .fin _ n d e => .fin false n d e

/-- Multiplication by a power of two; special values stay special (R100). -/
def Num.scale (x : Num) (k : Int) : Num :=
  match x with
  | .fin s n d e => .fin s n d (e + k)
  | y => y

def Num.mul (x y : Num) : Num :=
  match x, y with
  | .nan, _ => .nan
  | _, .nan => .nan
  | .inf s, .inf t => .inf (s != t)
  | .inf s, .fin t n _ _ => if n = 0 then .nan else .inf (s != t)
  | .fin s n _ _, .inf t => if n = 0 then .nan else .inf (s != t)
  | .fin s n d e, .fin t n' d' e' => .fin (s != t) (n * n') (d * d') (e + e')

/-- Division with the special cases of R155. -/
def Num.div (x y : Num) : Num :=
  match x, y with
  | .nan, _ => .nan
  | _, .nan => .nan
  | .inf _, .inf _ => .nan
  | .inf s, .fin t _ _ _ => .inf (s != t)
  | .fin s _ _ _, .inf t => .fin (s != t) 0 1 0
  | .fin s n d e, .fin t n' d' e' =>
    if n' = 0 then (if n = 0 then .nan else .inf (s != t))
    else .fin (s != t) (n * d') (d * n') (e - e')

/-- The signed numerator of a finite value over den * 2^-exp. -/
def signed (neg : Bool) (n : Nat) : Int := if neg then - (n : Int) else (n : Int)

/-- Exact addition; a zero result takes the sign of R122, `down` being `.rdn`. -/
def Num.add (down : Bool) (x y : Num) : Num :=
  match x, y with
  | .nan, _ => .nan
  | _, .nan => .nan
  | .inf s, .inf t => if s = t then .inf s else .nan
  | .inf s, .fin .. => .inf s
  | .fin .., .inf t => .inf t
  | .fin s n d e, .fin t n' d' e' =>
    if n = 0 ∧ n' = 0 then .fin (if s = t then s else down) 0 1 0
    else if n = 0 then .fin t n' d' e'
    else if n' = 0 then .fin s n d e
    else
      let m := min e e'
      let v := signed s (n * d' * 2 ^ (e - m).toNat) + signed t (n' * d * 2 ^ (e' - m).toNat)
      if v = 0 then .fin down 0 1 0 else .fin (decide (v < 0)) v.natAbs (d * d') m

/-- Comparison of two finite values by their exact difference: -1, 0 or 1. -/
def cmpFin (s : Bool) (n d : Nat) (e : Int) (t : Bool) (n' d' : Nat) (e' : Int) : Ordering :=
  let m := min e e'
  compare (signed s (n * d' * 2 ^ (e - m).toNat)) (signed t (n' * d * 2 ^ (e' - m).toNat))

/-- Order of two values that are not NaN, with -0 = +0. -/
def Num.cmp (x y : Num) : Ordering :=
  match x, y with
  | .nan, _ => .eq
  | _, .nan => .eq
  | .inf s, .inf t => if s = t then .eq else if s then .lt else .gt
  | .inf s, .fin .. => if s then .lt else .gt
  | .fin .., .inf t => if t then .gt else .lt
  | .fin s n d e, .fin t n' d' e' => cmpFin s n d e t n' d' e'

def Num.lt (x y : Num) : Bool := x.cmp y == .lt
def Num.le (x y : Num) : Bool := x.cmp y != .gt

/-! ### Roots, logarithms and powers -/

/-- One digit of the integer square root: `r` so far, `b` the next power of two. -/
def isqrtGo (n : Nat) : Nat → Nat → Nat
  | 0, r => r
  | k + 1, r =>
    let r' := r + 2 ^ k
    if r' * r' ≤ n then isqrtGo n k r' else isqrtGo n k r

/-- The floor of the square root. -/
def isqrt (n : Nat) : Nat := isqrtGo n (Nat.log2 n / 2 + 1) 0

/-- The floor of log2 of a positive value num / den * 2^exp. -/
def floorLog2 (num den : Nat) (exp : Int) : Int :=
  let l : Int := (Nat.log2 num : Int) - (Nat.log2 den : Int)
  let fits : Bool := if 0 ≤ l then decide (den * 2 ^ l.toNat ≤ num) else decide (den ≤ num * 2 ^ (-l).toNat)
  (if fits then l else l - 1) + exp

/-- An inexact value known to lie strictly between root * 2^e and (root + 1) * 2^e is written as the odd half
between them; an exact one as itself. Every rounding of fewer bits than the root's has the same result. -/
def sticky (exact : Bool) (root : Nat) (e : Int) : Num :=
  if exact then .fin false root 1 e else .fin false (2 * root + 1) 1 (e - 1)

/-- The square root of a value, to 128 bits with a sticky bit (R155). -/
def Num.sqrt (x : Num) : Num :=
  match x with
  | .nan => .nan
  | .inf s => if s then .nan else .inf false
  | .fin s n d e =>
    if n = 0 then .fin s 0 1 0
    else if s then .nan
    else
      let e2 : Int := e - (if e % 2 = 0 then 0 else 1)
      let n2 := n * (if e % 2 = 0 then 1 else 2)
      let v := n2 * 2 ^ 256 / d
      let r := isqrt v
      sticky (r * r * d == n2 * 2 ^ 256) r (e2 / 2 - 128)

/-- 1 / √x, with the special values of R159 for the exact operation. -/
def Num.rsqrt (x : Num) : Num :=
  match x with
  | .nan => .nan
  | .inf s => if s then .nan else .fin false 0 1 0
  | .fin s n _ _ =>
    if n = 0 then .inf s
    else if s then .nan
    else (Num.div (.fin false 1 1 0) x).sqrt

/-- 1 / x. -/
def Num.recip (x : Num) : Num := Num.div (.fin false 1 1 0) x

/-- Working precision of the exponential, in bits. -/
def expBits : Nat := 256

/-- The product of 2^(2^-(i+1)) over the bits set in a fraction `f` of `k` bits, most significant first; `root` is
2^(2^-i) scaled by 2^expBits, `acc` the product so far. -/
def exp2Go (f : Nat) : Nat → Nat → Nat → Nat
  | 0, _, acc => acc
  | k + 1, root, acc =>
    let r := isqrt (root * 2 ^ expBits)
    exp2Go f k r (if f / 2 ^ k % 2 = 1 then acc * r / 2 ^ expBits else acc)

/-- 2^x (R159): exact for an integer x, else to `expBits` bits with a sticky bit. An exponent outside the range of
every format of the device (beyond ±2^12) is brought to it. -/
def Num.exp2 (x : Num) : Num :=
  match x with
  | .nan => .nan
  | .inf s => if s then .fin false 0 1 0 else .inf false
  | .fin s n _ e =>
    if n = 0 then .fin false 1 1 0
    else if 12 ≤ (Nat.log2 n : Int) + e then .fin false 1 1 (if s then -4096 else 4096)
    else
      let k := (-e).toNat
      let v : Int := signed s (n * 2 ^ e.toNat)
      let i : Int := v.fdiv (2 ^ k : Nat)
      let f : Nat := (v - i * (2 ^ k : Nat)).toNat
      if f = 0 then .fin false 1 1 i
      else sticky false (exp2Go f k (2 * 2 ^ expBits) (2 ^ expBits)) (i - expBits)

/-- `k` bits of log2 of y / 2^256, 1 ≤ y / 2^256 < 2, by repeated squaring. -/
def log2Go : Nat → Nat → Nat → Nat
  | 0, _, acc => acc
  | k + 1, y, acc =>
    let z := y * y / 2 ^ 256
    if 2 ^ 257 ≤ z then log2Go k (z / 2) (2 * acc + 1) else log2Go k z (2 * acc)

/-- log2 x (R159): exact for a power of two, else to 96 fraction bits with a sticky bit. -/
def Num.log2 (x : Num) : Num :=
  match x with
  | .nan => .nan
  | .inf s => if s then .nan else .inf false
  | .fin s n d e =>
    if n = 0 then .inf true
    else if s then .nan
    else
      let l := floorLog2 n d e
      let y := n * 2 ^ (256 + (e - l).toNat) / (d * 2 ^ (l - e).toNat)
      if y = 2 ^ 256 ∧ n * 2 ^ (256 + (e - l).toNat) % (d * 2 ^ (l - e).toNat) = 0 then Num.ofInt l
      else
        let v : Int := 2 * (l * (2 ^ 96 : Nat) + (log2Go 96 y 0 : Nat)) + 1
        .fin (decide (v < 0)) v.natAbs 1 (-97)

/-! ### Rounding -/

/-- Whether a quotient with remainder `rem` of `den` is rounded away from zero (R105). -/
def roundsUp (r : Rnd) (neg : Bool) (quo rem den : Nat) : Bool :=
  match r with
  | .rne => decide (den < 2 * rem) || (2 * rem == den && quo % 2 == 1)
  | .rtz => false
  | .rup => !neg && rem != 0
  | .rdn => neg && rem != 0

/-- num / den * 2^exp rounded to an integer magnitude. -/
def roundNat (r : Rnd) (neg : Bool) (num den : Nat) (exp : Int) : Nat :=
  let n := num * 2 ^ exp.toNat
  let d := den * 2 ^ (-exp).toNat
  let q := n / d
  if roundsUp r neg q (n % d) d then q + 1 else q

/-- A binary floating-point format (R103, R118). -/
structure FloatFmt where
  ebits : Nat
  fbits : Nat
  bias : Nat
  /-- E4M3 has no infinities and one NaN code. -/
  noInf : Bool
  deriving DecidableEq, Repr

def fmtFp32 : FloatFmt := { ebits := 8, fbits := 23, bias := 127, noInf := false }
def fmtBf16 : FloatFmt := { ebits := 8, fbits := 7, bias := 127, noInf := false }
def fmtFp16 : FloatFmt := { ebits := 5, fbits := 10, bias := 15, noInf := false }
def fmtE5m2 : FloatFmt := { ebits := 5, fbits := 2, bias := 15, noInf := false }
def fmtE4m3 : FloatFmt := { ebits := 4, fbits := 3, bias := 7, noInf := true }
def fmtW64 : FloatFmt := { ebits := 11, fbits := 52, bias := 1023, noInf := false }

/-- The sign bit's weight. -/
def FloatFmt.signBit (f : FloatFmt) : Nat := 2 ^ (f.ebits + f.fbits)

/-- The code of +infinity; of the NaN in E4M3. -/
def FloatFmt.infCode (f : FloatFmt) : Nat := if f.noInf then 2 ^ (f.ebits + f.fbits) - 1 else (2 ^ f.ebits - 1) * 2 ^ f.fbits

/-- The largest finite magnitude's code. -/
def FloatFmt.maxCode (f : FloatFmt) : Nat := f.infCode - 1

/-- The canonical NaN (R103). -/
def FloatFmt.nanCode (f : FloatFmt) : Nat := if f.noInf then f.infCode else f.infCode + 2 ^ (f.fbits - 1)

def FloatFmt.withSign (f : FloatFmt) (neg : Bool) (c : Nat) : Nat := if neg then f.signBit + c else c

/-- The exact value of a code. -/
def FloatFmt.decode (f : FloatFmt) (c : Nat) : Num :=
  let neg := c / f.signBit % 2 == 1
  let m := c % f.signBit
  let frac := m % 2 ^ f.fbits
  let ex := m / 2 ^ f.fbits
  let isSpecial : Bool := if f.noInf then m == f.infCode else ex == 2 ^ f.ebits - 1
  if isSpecial then (if f.noInf then .nan else if frac = 0 then .inf neg else .nan)
  else if ex = 0 then .fin neg frac 1 (1 - f.bias - f.fbits)
  else .fin neg (2 ^ f.fbits + frac) 1 ((ex : Int) - f.bias - f.fbits)

/-- The magnitude code of a positive value rounded with the exponent unbounded above (R105): a code beyond
`maxCode` is an overflow. -/
def FloatFmt.magnitude (f : FloatFmt) (r : Rnd) (neg : Bool) (num den : Nat) (exp : Int) : Nat :=
  let qmin : Int := 1 - f.bias - f.fbits
  let l := floorLog2 num den exp
  let q : Int := max (l - f.fbits) qmin
  let s := if l + 2 < q then roundNat r neg 1 1 (-2) else roundNat r neg num den (exp - q)
  s + (q - qmin).toNat * 2 ^ f.fbits

/-- What an overflow gives (R105): infinity (true) or the largest finite magnitude. -/
def overflowsToInf (r : Rnd) (neg : Bool) : Bool :=
  match r with
  | .rne => true
  | .rtz => false
  | .rup => !neg
  | .rdn => neg

/-- Conversion of an exact value to a format by R104 to R106, with its events (R114). -/
def FloatFmt.convert (f : FloatFmt) (r : Rnd) (sat : Bool) (x : Num) : Nat × Ev :=
  match x with
  | .nan => (f.nanCode, { nan := 1 })
  | .inf s =>
    if sat then (f.withSign s f.maxCode, { sat := 1 })
    else if f.noInf then (f.nanCode, { nan := 1 })
    else (f.withSign s f.infCode, {})
  | .fin s n d e =>
    if n = 0 then (f.withSign s 0, {})
    else
      let m := f.magnitude r s n d e
      if m = 0 then (f.withSign s 0, { flush := 1 })
      else if m ≤ f.maxCode then (f.withSign s m, {})
      else if overflowsToInf r s then
        if sat then (f.withSign s f.maxCode, { sat := 1 })
        else if f.noInf then (f.nanCode, { nan := 1 })
        else (f.withSign s f.infCode, {})
      else (f.withSign s f.maxCode, {})

/-- Rounding with no saturation and no count: the result of one arithmetic operation (R121). -/
def FloatFmt.round (f : FloatFmt) (r : Rnd) (x : Num) : Nat := (f.convert r false x).1

/-- The range of an integer format of `w` bits (R107). -/
def intLo (w : Nat) (uns : Bool) : Int := if uns then 0 else - (2 ^ (w - 1) : Nat)
def intHi (w : Nat) (uns : Bool) : Int := if uns then (2 ^ w : Nat) - 1 else (2 ^ (w - 1) : Nat) - 1

def clampInt (v lo hi : Int) : Int := max lo (min v hi)

/-- The low `w` bits of an integer (two's complement). -/
def wrapInt (w : Nat) (v : Int) : Nat := (v % (2 ^ w : Nat)).toNat

/-- A value rounded to an integer and clamped to a range (R108). -/
def toInt (r : Rnd) (lo hi : Int) (x : Num) : Int × Ev :=
  match x with
  | .nan => (0, { nan := 1 })
  | .inf s => (if s then lo else hi, { sat := 1 })
  | .fin s n d e =>
    if n = 0 then (0, {})
    else if 128 ≤ floorLog2 n d e then (if s then lo else hi, { sat := 1 })
    else
      let v := if floorLog2 n d e < -2 then signed s (roundNat r s 1 1 (-2)) else signed s (roundNat r s n d e)
      if v < lo then (lo, { sat := 1 }) else if hi < v then (hi, { sat := 1 }) else (v, {})

/-! ### Format codes and scales -/

/-- The format codes of R98; codes that the table does not list are reserved. -/
inductive Fmt where
  | raw | fp32 | bf16 | fp16 | e4m3 | e5m2 | int32 | int16 | int8 | int4 | int2 | q4n | nat8 | w64 | planes | subst
  deriving DecidableEq, Repr

def fmtOfCode (c : Nat) : Option Fmt :=
  match c with
  | 0x00 => some .raw
  | 0x01 => some .fp32
  | 0x02 => some .bf16
  | 0x03 => some .fp16
  | 0x04 => some .e4m3
  | 0x05 => some .e5m2
  | 0x06 => some .int32
  | 0x07 => some .int16
  | 0x08 => some .int8
  | 0x09 => some .int4
  | 0x0A => some .int2
  | 0x0B => some .q4n
  | 0x0C => some .nat8
  | 0x0D => some .w64
  | 0x0E => some .planes
  | 0x7E => some .subst
  | _ => none

def Fmt.code : Fmt → Nat
  | .raw => 0x00
  | .fp32 => 0x01
  | .bf16 => 0x02
  | .fp16 => 0x03
  | .e4m3 => 0x04
  | .e5m2 => 0x05
  | .int32 => 0x06
  | .int16 => 0x07
  | .int8 => 0x08
  | .int4 => 0x09
  | .int2 => 0x0A
  | .q4n => 0x0B
  | .nat8 => 0x0C
  | .w64 => 0x0D
  | .planes => 0x0E
  | .subst => 0x7E

/-- Element width in bits (R98); 32 for the formats that have none (R291). -/
def Fmt.width : Fmt → Nat
  | .raw | .subst | .fp32 | .int32 => 32
  | .bf16 | .fp16 | .int16 => 16
  | .e4m3 | .e5m2 | .int8 | .nat8 => 8
  | .int4 | .q4n => 4
  | .int2 => 2
  | .w64 => 64
  | .planes => 8

/-- Elements per 64-byte block. -/
def Fmt.count (f : Fmt) : Nat := 512 / f.width

def Fmt.floatFmt : Fmt → Option FloatFmt
  | .fp32 => some fmtFp32
  | .bf16 => some fmtBf16
  | .fp16 => some fmtFp16
  | .e4m3 => some fmtE4m3
  | .e5m2 => some fmtE5m2
  | .w64 => some fmtW64
  | _ => none

/-- The formats whose scale byte is UE5M3 (R98). -/
def Fmt.isScaledInt : Fmt → Bool
  | .int32 | .int16 | .int8 | .int4 | .int2 | .q4n | .nat8 => true
  | _ => false

/-- The integer formats (R107), Q4N not among them. -/
def Fmt.isInt : Fmt → Bool
  | .int32 | .int16 | .int8 | .int4 | .int2 | .nat8 => true
  | _ => false

/-- The value of a UE5M3 byte other than 0xFF (R101). -/
def ue5m3 (b : Nat) : Num :=
  if b / 8 % 32 = 0 then .fin false (b % 8) 1 (-17)
  else .fin false (8 + b % 8) 1 ((b / 8 % 32 : Nat) - 18)

/-- A byte read as a two's-complement integer (R100). -/
def signedByte (b : Nat) : Int := if b % 256 < 128 then (b % 256 : Nat) else (b % 256 : Nat) - 256

/-- The codebook of Q4N (R109), by code. -/
def q4Code (c : Nat) : Num :=
  let m := match (if c % 16 < 8 then 15 - c % 16 else c % 16) with
    | 15 => 0x3F80
    | 14 => 0x3F35
    | 13 => 0x3F0B
    | 12 => 0x3ED5
    | 11 => 0x3E9F
    | 10 => 0x3E5D
    | 9 => 0x3E02
    | _ => 0x3D2C
  fmtBf16.decode (if c % 16 < 8 then 0x8000 + m else m)

/-- The element bits of index `k` and width `w` in a block or word (R99). -/
def elemBits (data w k : Nat) : Nat := data / 2 ^ (w * k) % 2 ^ w

/-- A block or word from its elements of width `w`, in ascending index. -/
def packElems (w : Nat) : List Nat → Nat
  | [] => 0
  | x :: xs => x % 2 ^ w + 2 ^ w * packElems w xs

def signExtend (w v : Nat) : Int := if v % 2 ^ w < 2 ^ (w - 1) then (v % 2 ^ w : Nat) else (v % 2 ^ w : Nat) - (2 ^ w : Nat)

/-- The decoded value of one element (R100, R101, R107, R110); `g` is the Q4N super-scale. A zero of the integer
and Q4N formats is +0 (R122). -/
def decodeElem (f : Fmt) (scale : Nat) (g : Num) (bits : Nat) : Num :=
  match f with
  | .fp32 => (fmtFp32.decode bits).scale (signedByte scale)
  | .bf16 => (fmtBf16.decode bits).scale (signedByte scale)
  | .fp16 => (fmtFp16.decode bits).scale (signedByte scale)
  | .e4m3 => (fmtE4m3.decode bits).scale (signedByte scale)
  | .e5m2 => (fmtE5m2.decode bits).scale (signedByte scale)
  | .w64 => fmtW64.decode bits
  | .nat8 => let x := (Num.ofInt bits).mul (ue5m3 scale); if x.isZero then .zero else x
  | .int32 | .int16 | .int8 | .int4 | .int2 =>
    let x := (Num.ofInt (signExtend f.width bits)).mul (ue5m3 scale)
    if x.isZero then .zero else x
  | .q4n =>
    let x := ((q4Code bits).mul (ue5m3 scale)).mul g
    if x.isZero then .zero else x
  | .raw | .planes | .subst => .zero

/-- How a unit reads a block (R112). -/
inductive Source where
  | zeros | subst | as (f : Fmt) (scale : Nat)
  deriving DecidableEq, Repr

/-- R112: the treatment of a block with descriptor `d`, a named format and an accepted set. A RAW block takes
scale 0 for the float formats and 1.0 for the UE5M3 ones; a poisoned block is read as SUBST (R113). -/
def sourceFormat (d : Desc) (psn : Bool) (named : Option Fmt) (accepts : Fmt → Bool) : Source × Ev :=
  let code := d.toNat % 256
  let scale := d.toNat / 256
  if psn then (.subst, {})
  else
    match fmtOfCode code with
    | none => (.zeros, { fmt := 1 })
    | some .subst => (.subst, { subst := 1 })
    | some .raw =>
      match named with
      | none => (.zeros, { fmt := 1 })
      | some f => (.as f (if f.isScaledInt then 0x78 else 0), {})
    | some f =>
      if !accepts f then (.zeros, { fmt := 1 })
      else if f == .w64 && scale != 0 then (.zeros, { fmt := 1 })
      else if f.isScaledInt && scale == 255 then (.subst, { subst := 1 })
      else (.as f scale, {})

/-- The elements of a block under a treatment, `n` being the count for the ones read as zeros. -/
def blockElems (src : Source) (g : Num) (n : Nat) (data : Bits512) : List Num :=
  match src with
  | .as f scale => (List.range f.count).map (fun k => decodeElem f scale g (elemBits data.toNat f.width k))
  | _ => List.replicate n .zero

/-- The distance of a value from a code's product, as a nonnegative exact value. -/
def q4Dist (x g : Num) (c : Nat) : Num := (Num.add false x ((q4Code c).mul g).neg).abs

/-- The better of two codes for x (R111): nearer; else the smaller magnitude; else code 8. -/
def q4Better (x g : Num) (c best : Nat) : Nat :=
  match (q4Dist x g c).cmp (q4Dist x g best) with
  | .lt => c
  | .gt => best
  | .eq =>
    match (q4Code c).abs.cmp (q4Code best).abs with
    | .lt => c
    | .gt => best
    | .eq => if c = 8 then 8 else best

/-- The Q4N code of x under the combined scale g = B × G (R111). -/
def q4Encode (x g : Num) : Nat × Ev :=
  match x with
  | .nan => (8, { nan := 1 })
  | _ =>
    if g.isZero then (8, {})
    else if (g.abs).lt x.abs then ((if x.isNeg == g.isNeg then 15 else 0), { sat := 1 })
    else ((List.range 16).foldl (fun best c => q4Better x g c best) 8, {})

/-- One element converted to a destination format (R105 to R108, R111): mode, saturation (for floats), output scale
byte and super-scale. The second value holds the events. -/
def encodeElem (f : Fmt) (r : Rnd) (sat : Bool) (scale : Nat) (g : Num) (x : Num) : Nat × Ev :=
  match f.floatFmt with
  | some ff => ff.convert r sat (x.scale (if f == .w64 then 0 else - signedByte scale))
  | none =>
    match f with
    | .q4n => q4Encode x ((ue5m3 scale).mul g)
    | .int32 | .int16 | .int8 | .int4 | .int2 | .nat8 =>
      if x.isNan then (0, { nan := 1 })
      else if scale = 0 then (0, {})
      else
        let uns := f == .nat8
        let (v, ev) := toInt r (intLo f.width uns) (intHi f.width uns) (x.div (ue5m3 scale))
        (wrapInt f.width v, ev)
    | _ => (0, {})

/-- A saturating destination by R106: the default of the format, or the suffixes. -/
def satDefault (f : Fmt) (sat nsat : Bool) : Bool :=
  match f with
  | .e4m3 | .e5m2 => !nsat
  | .fp32 | .bf16 | .fp16 | .w64 => sat
  | _ => true

/-! ### FP32 operations (R121, R155 to R159) -/

def f32 (w : Word) : Num := fmtFp32.decode w.toNat

def toF32 (r : Rnd) (x : Num) : Word := BitVec.ofNat 32 (fmtFp32.round r x)

def isDown (r : Rnd) : Bool := r == .rdn

def fAdd (r : Rnd) (a b : Word) : Word := toF32 r (Num.add (isDown r) (f32 a) (f32 b))
def fSub (r : Rnd) (a b : Word) : Word := toF32 r (Num.add (isDown r) (f32 a) (f32 b).neg)
def fMul (r : Rnd) (a b : Word) : Word := toF32 r ((f32 a).mul (f32 b))
def fFma (r : Rnd) (a b c : Word) : Word := toF32 r (Num.add (isDown r) ((f32 a).mul (f32 b)) (f32 c))
def fDiv (r : Rnd) (a b : Word) : Word := toF32 r ((f32 a).div (f32 b))
def fSqrt (r : Rnd) (a : Word) : Word := toF32 r (f32 a).sqrt

/-- FSCL: round(a * 2^b), as if computed unbounded (R156). -/
def fScl (r : Rnd) (a b : Word) : Word := toF32 r ((f32 a).scale b.toInt)

def fNan : Word := 0x7FC00000#32

/-- The smaller of two values, -0 below +0 (R157). -/
def numLess (x y : Num) : Bool := x.lt y || (x.cmp y == .eq && x.isNeg && !y.isNeg)

/-- FMIN and FMAX (R157). -/
def fMinMax (isMax : Bool) (a b : Word) : Word :=
  match (f32 a).isNan, (f32 b).isNan with
  | true, true => fNan
  | true, false => b
  | false, true => a
  | false, false => if numLess (f32 a) (f32 b) != isMax then a else b

def fNeg (a : Word) : Word := if (f32 a).isNan then fNan else a ^^^ 0x80000000#32

/-- A condition on an order (R133). -/
def condHolds (c : Cond) (o : Ordering) : Bool :=
  match c with
  | .eq => o == .eq
  | .ne => o != .eq
  | .lt => o == .lt
  | .le => o != .gt
  | .gt => o == .gt
  | .ge => o != .lt

/-- FCMP (R158): with a NaN only `.ne` holds. -/
def fCmp (c : Cond) (a b : Word) : Bool :=
  if (f32 a).isNan || (f32 b).isNan then c == .ne else condHolds c ((f32 a).cmp (f32 b))

/-- FCLASS (R158). -/
def fClass (a : Word) : Word :=
  let ex := a.toNat / 2 ^ 23 % 256
  let fr := a.toNat % 2 ^ 23
  let neg := a.msb
  let bit : Nat :=
    if ex = 255 then
      (if fr = 0 then (if neg then 0 else 7) else if fr / 2 ^ 22 = 0 then 8 else 9)
    else if ex = 0 then
      (if fr = 0 then (if neg then 3 else 4) else if neg then 2 else 5)
    else if neg then 1 else 6
  BitVec.ofNat 32 (2 ^ bit)

/-- est (R159): rounded with `.rne`, bits [14:0] cleared; infinities, zeros and NaNs as they are. -/
def fEst (x : Num) : Word :=
  if x.isFinite then toF32 .rne x &&& 0xFFFF8000#32 else toF32 .rne x

/-- FP32 of an exact value with the sign of a zero made + (R122, the sea). -/
def plusZero (x : Num) : Num := if x.isZero then .zero else x

/-! ### W64 (R118, R119) -/

def w64 (v : Dword) : Num := fmtW64.decode v.toNat

/-- A value rounded to W64; every zero is +0 (R122). -/
def toW64 (x : Num) : Dword :=
  let c := fmtW64.round .rne x
  BitVec.ofNat 64 (if c % 2 ^ 63 = 0 then 0 else c)

/-- A W64 add, with the flush event of R119. -/
def w64Add (x : Dword) (y : Num) : Dword × Ev :=
  let s := Num.add false (w64 x) y
  let r := toW64 s
  (r, if !s.isZero && s.isFinite && r == 0 then { flush := 1 } else {})

/-! ### Residues (R22, R23) -/

/-- The residue modulo 7 of a number. -/
def residue7 (v : Nat) : Fin 8 := Fin.ofNat 8 (v % 7)

end Sys2Proof.Machine
end

