-- ==== Sys2Proof/Machine/Lanes.lean ====
section
/-! DEFINITION. The 32-bit results of the scalar elements (04_elements.md): lanes, logic, shifts, comparisons and
conversions, as functions of words. -/

namespace Sys2Proof.Machine

/-! ### Lanes (R133, R148) -/

/-- Bits of a lane. -/
def laneBits : Width → Nat
  | .w32 => 32
  | .w16 => 16
  | .w8 => 8
  | .w4 => 4

/-- The lanes of a word, lane 0 first, as raw fields. -/
def lanesRaw (w : Nat) (x : Word) : List Nat := (List.range (32 / w)).map (elemBits x.toNat w)

/-- A lane as a number under UNS. -/
def laneVal (w : Nat) (uns : Bool) (v : Nat) : Int := if uns then (v : Int) else signExtend w v

def ofLanes (w : Nat) (l : List Nat) : Word := BitVec.ofNat 32 (packElems w l)

/-- A result narrowed to a lane: clamped with SAT, wrapped without (R148). -/
def narrow (sat uns : Bool) (w : Nat) (v : Int) : Nat :=
  wrapInt w (if sat then clampInt v (intLo w uns) (intHi w uns) else v)

/-- R148: an exact function of three lanes, lane by lane. -/
def intOp (f : Nat → Int → Int → Int → Int) (sat uns : Bool) (width : Width) (a b c : Word) : Word :=
  let w := laneBits width
  ofLanes w ((List.range (32 / w)).map (fun j =>
    narrow sat uns w (f w (laneVal w uns (elemBits a.toNat w j)) (laneVal w uns (elemBits b.toNat w j))
      (laneVal w uns (elemBits c.toNat w j)))))

/-- The exact functions of R148. -/
def exactAdd (_ : Nat) (x y _ : Int) : Int := x + y
def exactSub (_ : Nat) (x y _ : Int) : Int := x - y
def exactMul (_ : Nat) (x y _ : Int) : Int := x * y
def exactMulh (w : Nat) (x y _ : Int) : Int := (x * y).fdiv (2 ^ w : Nat)
def exactMad (_ : Nat) (x y z : Int) : Int := x * y + z
def exactMin (_ : Nat) (x y _ : Int) : Int := min x y
def exactMax (_ : Nat) (x y _ : Int) : Int := max x y
def exactAbs (_ : Nat) (x _ _ : Int) : Int := (x.natAbs : Int)
def exactNeg (_ : Nat) (x _ _ : Int) : Int := -x
def exactClamp (_ : Nat) (x y z : Int) : Int := max y (min x z)

/-- DIV (R149); the second value is 1 for a zero divisor. -/
def divOp (sat uns : Bool) (a b : Word) : Word × Nat :=
  let x := laneVal 32 uns a.toNat
  let y := laneVal 32 uns b.toNat
  if y = 0 then (if uns then 0xFFFFFFFF#32 else if 0 ≤ x then 0x7FFFFFFF#32 else 0x80000000#32, 1)
  else (BitVec.ofNat 32 (narrow sat uns 32 (x.tdiv y)), 0)

/-- REM (R149). -/
def remOp (uns : Bool) (a b : Word) : Word × Nat :=
  let x := laneVal 32 uns a.toNat
  let y := laneVal 32 uns b.toNat
  if y = 0 then (a, 1) else (BitVec.ofNat 32 (wrapInt 32 (x.tmod y)), 0)

/-- ADDC (R150). -/
def addcOp (s : Bool) (a b c : Word) : Word :=
  let u := a.toNat + b.toNat + c.toNat % 2
  if s then (if 2 ^ 32 ≤ u then 1#32 else 0#32) else BitVec.ofNat 32 u

/-- The signed 15-bit immediate (R76). -/
def imm15 (v : BitVec 15) : Word := v.signExtend 32

/-- DOT4 (R152). -/
def dot4Op (sat uns : Bool) (width : Width) (a b c : Word) : Word :=
  let w := laneBits width
  let s := ((List.range (32 / w)).map (fun j =>
    laneVal w uns (elemBits a.toNat w j) * laneVal w uns (elemBits b.toNat w j))).sum
  BitVec.ofNat 32 (narrow sat uns 32 (laneVal 32 uns c.toNat + s))

/-! ### Logic, shifts, comparisons (R153, R154) -/

/-- A function of raw lanes. -/
def laneMap2 (width : Width) (f : Nat → Nat → Nat → Nat) (a b : Word) : Word :=
  let w := laneBits width
  ofLanes w ((List.range (32 / w)).map (fun j => f w (elemBits a.toNat w j) (elemBits b.toNat w j)))

def shlLane (w x n : Nat) : Nat := if w ≤ n then 0 else x * 2 ^ n % 2 ^ w

def shrLane (uns : Bool) (w x n : Nat) : Nat :=
  wrapInt w ((laneVal w uns x).fdiv (2 ^ min n w : Nat))

def rotLane (w x n : Nat) : Nat :=
  let k := n % w
  (x * 2 ^ k % 2 ^ w) + x / 2 ^ (w - k)

def clzLane (w x _ : Nat) : Nat := if x = 0 then w else w - 1 - Nat.log2 x

def popLane (w x _ : Nat) : Nat := ((List.range w).map (fun k => x / 2 ^ k % 2)).sum

/-- The position and length of a bit field: b[4:0] and b[12:8] + 1 (R154). -/
def fieldLo (b : Word) : Nat := b.toNat % 32
def fieldLen (b : Word) : Nat := b.toNat / 256 % 32 + 1

def bfxOp (uns : Bool) (a b : Word) : Word :=
  let v := a.toNat / 2 ^ fieldLo b % 2 ^ fieldLen b
  BitVec.ofNat 32 (wrapInt 32 (if uns then (v : Int) else signExtend (fieldLen b) v))

def bfiOp (a b c : Word) : Word :=
  let lo := fieldLo c
  let len := fieldLen c
  let mask : Word := BitVec.ofNat 32 ((2 ^ len - 1) * 2 ^ lo)
  (a &&& ~~~mask) ||| (BitVec.ofNat 32 (b.toNat % 2 ^ len * 2 ^ lo) &&& mask)

/-- The order of two words under UNS. -/
def wordOrder (uns : Bool) (a b : Word) : Ordering :=
  compare (laneVal 32 uns a.toNat) (laneVal 32 uns b.toNat)

def boolWord (b : Bool) : Word := if b then 1#32 else 0#32

def cmpOp (c : Cond) (uns : Bool) (a b : Word) : Word := boolWord (condHolds c (wordOrder uns a b))

/-- CMPI's 11-bit immediate under UNS. -/
def imm11 (uns : Bool) (v : BitVec 11) : Word := if uns then v.zeroExtend 32 else v.signExtend 32

def selOp (a b c : Word) : Word := if c = 0 then b else a

def logiOp (op : LogOp) (a : Word) (v : BitVec 13) : Word :=
  let u : Word := v.zeroExtend 32
  match op with
  | .and => a &&& u
  | .or => a ||| u
  | .xor => a ^^^ u
  | .andn => a &&& ~~~u

def tstbOp (a b : Word) : Word := boolWord (a.toNat / 2 ^ (b.toNat % 32) % 2 == 1)

/-! ### Conversions (R160 to R167) -/

def cvtif (uns : Bool) (r : Rnd) (a : Word) : Word := toF32 r (Num.ofInt (laneVal 32 uns a.toNat))

def cvtfi (uns : Bool) (r : Rnd) (a : Word) : Word × Ev :=
  let (v, ev) := toInt r (intLo 32 uns) (intHi 32 uns) (f32 a)
  (BitVec.ofNat 32 (wrapInt 32 v), ev)

/-- The 16-bit format of CVTFH and CVTHF. -/
def halfFmt (f16 : Bool) : FloatFmt := if f16 then fmtFp16 else fmtBf16

def cvtfh (sat f16 : Bool) (r : Rnd) (a b : Word) : Word × Ev :=
  let (x, e) := (halfFmt f16).convert r sat (f32 a)
  let (y, e') := (halfFmt f16).convert r sat (f32 b)
  (BitVec.ofNat 32 (x + y * 65536), e.add e')

def cvthf (f16 : Bool) (l : Nat) (a : Word) : Word :=
  toF32 .rne ((halfFmt f16).decode (elemBits a.toNat 16 l))

/-- The 8-bit format of CVTF8 and CVT8F. -/
def byteFmt (e5m2 : Bool) : FloatFmt := if e5m2 then fmtE5m2 else fmtE4m3

/-- A word with field `l` of width `w` replaced. -/
def putField (w l : Nat) (x : Word) (v : Nat) : Word :=
  let mask : Word := BitVec.ofNat 32 ((2 ^ w - 1) * 2 ^ (w * l))
  (x &&& ~~~mask) ||| BitVec.ofNat 32 (v % 2 ^ w * 2 ^ (w * l))

def cvtf8 (l : Nat) (e5m2 nsat : Bool) (a b : Word) : Word × Ev :=
  let (x, e) := (byteFmt e5m2).convert .rne (!nsat) (f32 a)
  (putField 8 l b x, e)

def cvt8f (l : Nat) (e5m2 : Bool) (a : Word) : Word :=
  toF32 .rne ((byteFmt e5m2).decode (elemBits a.toNat 8 l))

/-- LDHI (R163). -/
def ldhiOp (v : BitVec 15) (a : Word) : Word := BitVec.ofNat 32 (v.toNat * 2 ^ 17 + a.toNat % 2 ^ 17)

/-- PACK (R164): the lanes of width 2w of a, then of b, narrowed to w. -/
def packOp (sat uns : Bool) (width : Width) (a b : Word) : Word × Ev :=
  let w := laneBits width
  let src := lanesRaw (2 * w) a ++ lanesRaw (2 * w) b
  let vals := src.map (laneVal (2 * w) uns)
  let outside := vals.countP (fun v => decide (v < intLo w uns) || decide (intHi w uns < v))
  (ofLanes w (vals.map (narrow sat uns w)), if sat then { sat := outside } else {})

/-- UNPK (R164). -/
def unpkOp (hi uns : Bool) (width : Width) (a : Word) : Word :=
  let w := laneBits width
  let n := 16 / w
  ofLanes (2 * w) ((List.range n).map (fun j =>
    wrapInt (2 * w) (laneVal w uns (elemBits a.toNat w (j + if hi then n else 0)))))

/-- Q4E (R165). -/
def q4eOp (l : Nat) (a b c : Word) : Word × Ev :=
  let (code, ev) := if (f32 b).isFinite then q4Encode (f32 a) (f32 b) else (8, { nan := 1 })
  (putField 4 l c code, ev)

/-- Q4D (R165). A zero result has the exclusive OR of the signs, as of any product (R122; assumption log 72). -/
def q4dOp (l : Nat) (a b : Word) : Word := toF32 .rne ((q4Code (elemBits a.toNat 4 l)).mul (f32 b))

/-- The bound Q of a SCB target (R166). -/
def scbBound : ScbFmt → Nat
  | .i8 => 127
  | .i4 => 7
  | .i16 => 32767
  | .n8 => 255
  | .q4n => 1

/-- The smallest UE5M3 byte S in 1 to 0xFE with x / S ≤ q; 0xFE with a saturation where there is none. -/
def smallestScale (q : Nat) (x : Num) : Nat × Ev :=
  match (List.range 254).find? (fun k => x.le ((ue5m3 (k + 1)).mul (Num.ofInt q))) with
  | some k => (k + 1, {})
  | none => (0xFE, { sat := 1 })

/-- SCB (R166). -/
def scbByte (q : Nat) (x : Num) : Nat × Ev :=
  match x with
  | .nan => (0xFF, { nan := 1 })
  | .inf _ => (0xFF, { nan := 1 })
  | .fin .. => if x.isZero then (0, {}) else smallestScale q x.abs

def scbOp (f : ScbFmt) (a : Word) : Word × Ev :=
  let (b, ev) := scbByte (scbBound f) (f32 a)
  (BitVec.ofNat 32 b, ev)

/-- SCD (R166). -/
def scdOp (a : Word) : Word := if a.toNat % 256 = 255 then fNan else toF32 .rne (ue5m3 (a.toNat % 256))

/-- DESC (R167). -/
def descOp (a b : Word) : Word := BitVec.ofNat 32 (b.toNat % 256 * 256 + a.toNat % 256)

end Sys2Proof.Machine
end

