-- ==== Sys2Proof/Machine/State.lean ====
section
/-! DEFINITION. The state of a DH9-384: every piece of state the manual gives the device, as plain data, and the state
right after reset. -/

namespace Sys2Proof.Machine

/-! ### Tokens (R22, R23) -/

/-- A token: scalar (data in [31:0], no descriptor) or vector; `par` holds the two descriptor parity bits of R23. -/
structure Token where
  vec : Bool
  data : Bits512
  desc : Desc
  par : BitVec 2
  res : Fin 8
  psn : Bool
  rank : Fin 8
  isMk : Bool
  deriving DecidableEq, Repr

/-! ### Memory -/

/-- A 64-byte block with its descriptor and its poison state (R95, R205). -/
structure Line where
  data : Bits512
  desc : Desc
  psn : Bool
  deriving DecidableEq, Repr

/-- The block an unlisted address reads as: zero bytes under descriptor 0x0000 (assumption log 7). -/
def Line.zero : Line := { data := 0, desc := 0, psn := false }

/-- A byte-addressed store in canonical form: cells by strictly rising address with none equal to 0, the value an
unlisted address reads as; descriptors by block number with none equal to 0; the poisoned blocks, rising. -/
structure Store where
  cells : List Host.Cell
  descs : List (Nat × Desc)
  psn : List Nat
  deriving DecidableEq, Repr

def Store.empty : Store := { cells := [], descs := [], psn := [] }

/-- The staged bytes of one block (R56, R177): byte mask, bytes, and the descriptor of a whole-block write. -/
structure Staged where
  mask : BitVec 64
  data : Bits512
  desc : Option Desc
  deriving DecidableEq, Repr

/-- A carry word and its poison bit (R145). -/
structure Carry where
  val : Word
  psn : Bool
  deriving DecidableEq, Repr

def Carry.zero : Carry := { val := 0, psn := false }

/-! ### The state of one instruction's unit (R123 and the engine chapters) -/

/-- The address generator of a stream instruction (R212 to R215, R217, R237). -/
structure Gen where
  c0 : Nat
  c1 : Nat
  c2 : Nat
  c3 : Nat
  /-- A run is in progress. -/
  active : Bool
  /-- The run was started by a poisoned offset: it walks and accesses nothing. -/
  dead : Bool
  /-- The run's offset. -/
  ofs : Dword
  /-- The base in force. -/
  base : Dword
  /-- The generator has emitted a token in this block (R213). -/
  emitted : Bool
  /-- AUTO's one run has been started (R212). -/
  autoDone : Bool
  runs : Word
  issued : Dword
  /-- The held marker (R212, R217). -/
  held : Option (Fin 8)
  /-- A record is posted for the current iteration: it waits for the acknowledgement (R239). -/
  stopped : Bool
  /-- LDB and STB with VARIANT 01: the slot being moved and the blocks done in it. -/
  slot : Option Nat
  done : Nat
  /-- Blocks moved in this run, and whether the companion token of this place has left (R217). -/
  pos : Nat
  lead : Bool
  deriving DecidableEq, Repr

def Gen.init (base : Dword) : Gen :=
  { c0 := 0, c1 := 0, c2 := 0, c3 := 0, active := false, dead := false, ofs := 0, base := base, emitted := false,
    autoDone := false, runs := 0, issued := 0, held := none, stopped := false, slot := none, done := 0, pos := 0,
    lead := false }

/-- What a POPB has popped into a slot (R353, R359). -/
structure PopFill where
  slot : Nat
  /-- The instruction, and the blocks of the slot it has popped. -/
  unit : Nat
  blocks : Nat
  /-- Tokens popped since the last commit of its pointer, a marker among them; whether a popped marker ended the fill. -/
  fresh : Nat
  marked : Bool
  deriving DecidableEq, Repr

/-- A defined bobbin (R184). -/
structure Bobbin where
  base : Nat
  nslot : Nat
  tbase : Nat
  sz : Nat
  head : Nat
  tail : Nat
  /-- Draining slots whose consumer has finished and that wait for an older one (R190). -/
  finished : List Nat
  /-- For each slot filled by a POPB: what it has popped into it (R353, R359). -/
  pops : List PopFill := []
  /-- For each slot filled by a generator: its instruction and the generator at the slot's first iteration (R396). -/
  fills : List (Nat × Nat × Gen)
  /-- For each slot filled by the shuttle: the command's ticket, its branch and the tile (R309, R323). -/
  tickets : List (Nat × Nat × Nat × Nat)
  deriving DecidableEq, Repr

/-- An issued and unfinished firing: its operands, the phase count or value it waits for, and its stage: 0 while `.rel`
holds it back unstarted (R61), from 1 on while its access or operation is outstanding. `ready` holds the tokens of one that has
completed behind an earlier one of its instruction (R168). -/
structure Pend where
  a : Token
  b : Token
  c : Token
  phase : Nat
  val : Dword
  step : Nat
  ready : Option (List (Target × Token)) := none
  deriving DecidableEq, Repr

/-- The sea's state of one instruction (R244, R247, R264, R270). -/
structure SeaUnit where
  /-- The row counter MR. -/
  mr : BitVec 16
  /-- The west-edge buffer: elements received and not yet entered, each with its poison (R247). -/
  edge : List (Num × Bool)
  /-- The bobbin slot being consumed, and the blocks of it taken. -/
  slot : Option (Nat × Nat)
  taken : Nat
  /-- Slots wholly taken whose elements have not all entered: bobbin, slot, elements that must still enter. -/
  owed : List (Nat × Nat × Nat)
  /-- Rows accepted in this block (R440). -/
  rows : Nat
  /-- Blocks of a WLOAD or ACCRS received so far, oldest first; `blocks` of a WLOAD carry its poison. -/
  blocks : List Line
  /-- A WLOAD's load is in progress. -/
  loading : Bool
  /-- ACCSV's blocks still to be staged, by scratch offset. -/
  save : List (Nat × Line)
  /-- Of the oldest bobbin slot held: the elements that have entered the array. -/
  entered : Nat
  /-- After a reset: the slots to be read again behind the one in hand, and the elements to pass over, which have entered (R190,
  R258). -/
  again : List (Nat × Nat)
  skip : Nat
  /-- An ACCDR's output rows that wait for room on the skew circuit (R254). -/
  rowsOut : List (List Token)
  deriving DecidableEq, Repr

def SeaUnit.init : SeaUnit :=
  { mr := 0, edge := [], slot := none, taken := 0, owed := [], rows := 0, blocks := [], loading := false, save := [],
    entered := 0, again := [], skip := 0, rowsOut := [] }

/-- The vector engine's state of one instruction (R275, R286 to R290, R294). -/
structure VeUnit where
  /-- VCVT with CONT: the output elements not yet emitted, as bits, each with its poison. -/
  part : List (Nat × Bool)
  /-- VQNT: the elements of the block under construction. -/
  vals : List (Num × Bool)
  /-- The stored super-scale token, and the position in its run (R287). -/
  super : Option Token
  pos : Nat
  /-- VRED's group: its accumulators, the elements each holds, and the group's poison. -/
  acc : List Num
  cnt : Nat
  psn : Bool
  /-- The five event sums of the tile (R294). -/
  ev : Ev
  /-- Drain events of output rows whose tokens this converter has still to consume (R295): tokens left, events. -/
  rowEv : List (Nat × Ev)
  deriving DecidableEq, Repr

def VeUnit.init : VeUnit :=
  { part := [], vals := [], super := none, pos := 0, acc := [], cnt := 0, psn := false, ev := {}, rowEv := [] }

/-- The state of the unit that holds one instruction. -/
structure ElemSt where
  qa : List Token
  qb : List Token
  qc : List Token
  qp : List Token
  /-- The output stage: one token at most for each target (R123). -/
  stage : List (Target × Token)
  /-- Later tokens of the last firing, each with its target (R25). -/
  out : List (Target × Token)
  blk : Bool
  /-- Firings since the block's start (R225). -/
  fired : Nat
  /-- Markers of rank COMMIT or above joined since the block's start (R477). -/
  commits : Nat
  /-- An exit that has consumed a marker of rank TERM or above (R13). -/
  term : Bool
  mcnt : BitVec 12
  mpend : Bool
  ccnt : Word
  cidx : Fin 16
  /-- Barrier arrivals since the block's start (R231). -/
  arrived : Nat
  /-- A POP without a trigger that has yielded the end marker (R347). -/
  ended : Bool
  gen : Gen
  /-- Issued and unfinished firings, oldest first. -/
  pend : List Pend
  sea : SeaUnit
  ve : VeUnit
  deriving DecidableEq, Repr

def ElemSt.init (base : Dword) : ElemSt :=
  { qa := [], qb := [], qc := [], qp := [], stage := [], out := [], blk := false, fired := 0, commits := 0, term := false, mcnt := 0,
    mpend := false, ccnt := 0, cidx := 0, arrived := 0, ended := false, gen := Gen.init base, pend := [], sea := SeaUnit.init,
    ve := VeUnit.init }

/-! ### Windows: a loaded block (R65 to R72) -/

structure Window where
  /-- Header words 0 to 2 (R66). -/
  h0 : Word
  h1 : Word
  h2 : Word
  code : List Word
  /-- Placement halfwords, dx in [7:0] and dy in [15:8] (R68). -/
  place : List (BitVec 16)
  pool : List Word
  /-- The trailer (R72): SCRATCH, PERSIST, T2, then the endpoint words. -/
  scratch : Word
  persist : Word
  t2 : Word
  ends : List Word
  /-- The block's VA (R439) and when it was loaded (R421), in µs. -/
  va : Dword
  loadedUs : Nat
  units : List ElemSt
  deriving DecidableEq, Repr

/-! ### Executing contexts: a node, or a core's firmware -/

/-- The node's memory side: carry words, snapshot, stage, scratch, bobbins (05_banks.md). -/
structure CtxMem where
  /-- Carry words other than an unpoisoned zero, by number. -/
  carry : List (Nat × Carry)
  /-- Their values at the start of the current block (R146). -/
  carryAtStart : List (Nat × Carry)
  /-- The values PUTW has recorded in this block (R147). -/
  puts : List (Nat × Carry)
  /-- Staged carry words (R56). -/
  carryStage : List (Nat × Carry)
  /-- Snapshot values by block VA, and by scratch block offset (R57, R177). -/
  snapG : List (Nat × Line)
  snapS : List (Nat × Line)
  /-- Snapshot values of the carry area's four blocks, 16 words each (R57, R177). -/
  snapW : List (Nat × List Carry)
  /-- Staged bytes by block VA, and by scratch block offset. -/
  stageG : List (Nat × Staged)
  stageS : List (Nat × Staged)
  /-- The entries of the region ways: global superblocks, scratch superblocks, and the carry words' one (R177). They stay until
  a boundary empties the ways (R183). -/
  entG : List Nat
  entS : List Nat
  entW : Bool
  /-- Wr (R177). -/
  wr : Nat
  scratch : Store
  /-- Scratch offsets below this one hold contents of this placement (R182). -/
  filled : Nat
  /-- Defined bobbins by number, and the tile table's entries other than empty (R184, R185). -/
  bobbins : List (Nat × Bobbin)
  tiles : List (Nat × BitVec 2)
  deriving DecidableEq, Repr

def CtxMem.init : CtxMem :=
  { carry := [], carryAtStart := [], puts := [], carryStage := [], snapG := [], snapS := [], snapW := [], stageG := [],
    stageS := [], entG := [], entS := [], entW := false, wr := 1, scratch := Store.empty, filled := 0, bobbins := [], tiles := [] }

/-- What ends the phase (R29), and what follows it. -/
inductive Cause where
  /-- PHASE, CNTADD, CFLUSH or CHOPEN at an instruction of the block. -/
  | program (idx : Nat)
  /-- UNFUSE of an array, at an instruction of the block (R263). -/
  | unfuse (array : Nat)
  /-- The n-th COMMIT boundary (R477). -/
  | commit (n : Nat)
  /-- A boundary that hardware inserts (R29, R178, R246). -/
  | inserted
  /-- Pre-emption, and the end of a node, a re-placement, a move, an unfuse at a block load. -/
  | preempt
  | blockEnd
  | nodeEnd
  deriving DecidableEq, Repr

/-- A boundary in progress (R30). -/
structure Boundary where
  scope : Scope
  cause : Cause
  /-- The test of R31 has been made, when it was asked for. -/
  checked : Bool
  /-- The test has failed: the load fails once the region is quiescent (R21, R31). -/
  fails : Bool := false
  /-- The host ports through which the boundary, at `.sys`, has written lines and not yet read (R468). -/
  hosts : List Nat := []
  deriving DecidableEq, Repr

/-- One entry of the replay log (R34, R443): kind (opcode), instruction index, address, operands, values returned. -/
structure LogEntry where
  kind : Nat
  block : Nat
  idx : Nat
  addr : Dword
  args : List Dword
  ret : List Dword
  deriving DecidableEq, Repr

/-- What JMPB, CALLB and RETB record (R426). -/
inductive Jump where
  | jmp (va : Dword) (index : Nat)
  | call (va : Dword) (index : Nat)
  | ret
  deriving DecidableEq, Repr

/-- The draft position (R12, R143, R426). -/
structure DraftSt where
  va : Dword
  block : Nat
  /-- NEXTB's record: the instruction's index and the block's. -/
  nextb : Option (Nat × Nat)
  halt : Bool
  /-- JMPB, CALLB or RETB, by instruction index. -/
  jump : Option (Nat × Jump)
  /-- The call stack, innermost first: draft VA and return index. -/
  stack : List (Dword × Nat)
  deriving DecidableEq, Repr

def DraftSt.init (va : Dword) : DraftSt := { va := va, block := 0, nextb := none, halt := false, jump := none, stack := [] }

/-- A weight set (R244, R245): P, per tile the exponent and the integer weights' planes, poison, USED. The tile list
is by ly·w + lx; a tile holds its planes as one number of 256 bits each. -/
structure WeightSet where
  p : Nat
  tiles : List (Int × List Nat)
  psn : Bool
  used : Bool
  deriving DecidableEq, Repr

/-- An array of the sea (R242, R244). -/
structure SeaArray where
  fused : Bool
  x0 : Nat
  y0 : Nat
  w : Nat
  h : Nat
  set0 : WeightSet
  set1 : WeightSet
  /-- ACTIVE: set 1 when true. -/
  active : Bool
  /-- A pending swap and its rank (R265). -/
  swap : Option Nat
  /-- A load into the inactive set is in progress. -/
  loading : Bool
  wadd : Nat
  sadd : Nat
  /-- The drain VEs by index (R262). -/
  drains : List Nat
  /-- The destination array of the skew circuit that this array feeds (R254). -/
  skew : Option Nat
  /-- What the skew circuit that ends here holds, oldest first: a row's tokens, or one marker. -/
  skewIn : List (List Token)
  deriving DecidableEq, Repr

def WeightSet.init : WeightSet := { p := 1, tiles := [], psn := false, used := false }

def SeaArray.init : SeaArray :=
  { fused := false, x0 := 0, y0 := 0, w := 0, h := 0, set0 := WeightSet.init, set1 := WeightSet.init, active := false,
    swap := none, loading := false, wadd := 0, sadd := 0, drains := [], skew := none, skewIn := [] }

/-- An accumulator row that is not CLEAR with zeros (R244, R248, R249): its values by column other than +0. -/
structure AccRow where
  vals : List (Nat × Dword)
  psn : Bool
  opened : Bool
  /-- The owning array; `none` after ACCRS. -/
  owner : Option Nat
  deriving DecidableEq, Repr

def AccRow.clear : AccRow := { vals := [], psn := false, opened := false, owner := none }

/-- The sea's state of a node's region. -/
structure SeaSt where
  arrays : List SeaArray
  acc : List (Nat × AccRow)
  deriving DecidableEq, Repr

def SeaSt.init : SeaSt := { arrays := List.replicate 4 SeaArray.init, acc := [] }

/-- A channel endpoint binding of a node (R342, R348, R349). -/
structure Endpoint where
  chid : Nat
  /-- Producer (push) end. -/
  push : Bool
  /-- A pending CHEND, and its FIN. -/
  ending : Bool
  fin : Bool
  /-- The node held it when it was last saved (R397). -/
  held : Bool := true
  deriving DecidableEq, Repr

/-- A scratch window (R194). -/
structure ScrWin where
  va : Dword
  ofs : Nat
  len : Nat
  wr : Bool
  frames : List Nat
  deriving DecidableEq, Repr

/-- What of a context a checkpoint records (R30 step 4, R127, R190, R246). -/
structure Ckpt where
  win : Option Window
  carry : List (Nat × Carry)
  carryAtStart : List (Nat × Carry)
  puts : List (Nat × Carry)
  wr : Nat
  bobbins : List (Nat × Bobbin)
  tiles : List (Nat × BitVec 2)
  draft : DraftSt
  sea : SeaSt
  /-- Where the shuttle's commands stood: ticket, next source tile, next tile of each branch (R323). -/
  cmds : List (Nat × Nat × List Nat)
  /-- COMMIT boundaries of the block, with the one that took the checkpoint (R477); `.dev` barrier generations (R232); the
  endpoint bindings. -/
  commits : Nat
  barBase : List (Nat × Nat)
  ends : List Endpoint
  /-- Held commands of ended blocks that start as step 6 of the checkpoint's boundary, and whether it was at `.sys` (R30). -/
  orphans : List (Window × Nat)
  sys : Bool
  deriving DecidableEq, Repr

/-- An executing context. -/
structure Ctx where
  mem : CtxMem
  /-- Phases ended, and phases ended at `.sys` (R29, R61). -/
  phase : Nat
  sysPhase : Nat
  /-- A boundary in progress, and how many COMMIT boundaries of this block have been taken (R477). -/
  boundary : Option Boundary
  commitsDone : Nat
  ckpt : Option Ckpt
  log : List LogEntry
  /-- Log entries that re-execution has still to answer (R34). -/
  replay : List LogEntry
  draft : DraftSt
  sea : SeaSt
  /-- The node's sixteen event counts (R452), by number, other than zero. -/
  counts : List (Nat × Word)
  /-- Credit tags other than zero (R310). -/
  credits : List (Nat × BitVec 16)
  /-- Commands completed with a non-zero status (R318). -/
  errCmds : Word
  ends : List Endpoint
  /-- Pins: frame, LOCK, and the superblock that it has locked (R193). -/
  pins : List (Nat × Bool × Option Nat)
  windows : List ScrWin
  /-- `.dev` barrier generations at the block's start, by barrier id (R232). -/
  barBase : List (Nat × Nat)
  /-- Commands of ended blocks that `.rel` still holds (R30 step 6, R61): the block's window and the instruction. -/
  orphans : List (Window × Nat)
  /-- After a rollback: the held commands of the checkpoint's boundary start again, answered from the log; at `.sys` when true. -/
  startAgain : Option Bool
  deriving DecidableEq, Repr

def Ctx.init (va : Dword) : Ctx :=
  { mem := CtxMem.init, phase := 0, sysPhase := 0, boundary := none, commitsDone := 0, ckpt := none, log := [],
    replay := [], draft := DraftSt.init va, sea := SeaSt.init, counts := [], credits := [], errCmds := 0, ends := [],
    pins := [], windows := [], barBase := [], orphans := [], startAgain := none }

/-! ### Nodes and the pending-launch store (R38, R379) -/

/-- A launch record's fields (R38). -/
structure LaunchRec where
  draft : Dword
  pers : Bool
  pre : Bool
  id : Word
  preds : BitVec 16
  children : Byte
  cls : BitVec 2
  prio : BitVec 3
  succ : Dword
  group : BitVec 16
  succCount : BitVec 16
  barCount : Word
  tiles : Dword
  save : Dword
  counter : Dword
  saveBytes : Word
  deriving DecidableEq, Repr

/-- Where a held node stands (R379). -/
inductive NodeState where
  | waiting | ready | placed | preempted
  deriving DecidableEq, Repr

/-- A placed node's executor (R10, R16): a region with its rectangle, or a core. -/
inductive Executor where
  | region (x y w h : Nat)
  | core (c : Nat)
  deriving DecidableEq, Repr

/-- Why a node is being moved (R395, R399, R448, R460). -/
inductive Move where
  | none | preempt (force : Bool) | replace | kindMove
  deriving DecidableEq, Repr

structure Node where
  id : Nat
  lrec : LaunchRec
  st : NodeState
  /-- Remaining predecessors (R40). -/
  preds : Nat
  age : Nat
  /-- The pass of the dispatcher in which the node entered the pool (R382). -/
  entered : Nat
  /-- The reserved rectangle and the reservation's order (R384). -/
  reserve : Option (Nat × Nat × Nat × Nat)
  reserveOrder : Nat
  held : Bool
  exec : Option Executor
  /-- The class 10 node's executor kind once placed: region when true. -/
  kind : Option Bool
  accepted : Word
  launchRefused : Word
  moves : Word
  /-- Machine checks since the last checkpoint (R444), and per unit since launch (R445). -/
  checks : Nat
  unitChecks : List (Nat × Nat)
  throttled : Word
  /-- The KIND of the save image in force (R397). -/
  image : Option Nat
  /-- The node's sources are closed; the KIND of a save that failed, the node staying resident (R395, R401). -/
  closed : Bool
  saveFailed : Option Nat
  moving : Move
  /-- The health unit has asked for the move: the node enters the pool with age 255 (R383, R448, R460). -/
  ousted : Bool
  /-- Frames pinned for the tile list and the save area (R42, R200). -/
  tilePins : List Nat
  /-- Completion: 0 running, 1 boundary done, 2 counter added, then the next successor entry (R41). -/
  completing : Option Nat
  /-- A block load waits for an endpoint or a fetch (R75, R342). -/
  loading : Bool
  /-- SCRATCH of the block for which a core has admitted the node, until that block is in place (R409). -/
  admitted : Nat
  /-- The blocks that a fetch in progress has read, by VA: it resumes behind them (R75). -/
  fetched : List (Dword × Line)
  ctx : Ctx
  win : Option Window
  deriving DecidableEq, Repr

/-! ### Host launch windows (R44 to R47) -/

structure LaunchWin where
  latch : List Byte
  partWritten : Bool
  /-- The committed record under check (BUSY). -/
  committed : Option (List Byte)
  /-- Writes held while BUSY: offset and bytes. -/
  held : List (Nat × List Byte)
  cause : BitVec 4
  refusedBit : Bool
  acceptedBit : Bool
  accepted : Word
  refused : Word
  deriving DecidableEq, Repr

def LaunchWin.init : LaunchWin :=
  { latch := List.replicate 64 0, partWritten := false, committed := none, held := [], cause := 0, refusedBit := false,
    acceptedBit := false, accepted := 0, refused := 0 }

/-! ### The trap queue (R48 to R55) -/

/-- Who posted a record and waits for its acknowledgement (R53, R236, R239), or until it is taken (R50). That a generator is named by
its context and unit index, without the block, is the model's choice (assumption log 70). -/
inductive Poster where
  | none
  | gen (c : CtxId) (idx : Nat)
  | boundary (c : CtxId)
  | fetch (c : CtxId)
  | succ (node : Nat)
  | counter (node : Nat)
  | tiles (node : Nat)
  | cmd (ticket : Nat)
  | tqpost (c : CtxId) (idx : Nat)
  /-- Acts that end once the arbiter has taken their record (R50): a launch window's refusal with its cause, the end of a node
  that has failed, a save that has failed, a core's crash, a deadlock's report. -/
  | launch (port : Fin 2) (cause : Nat)
  | retire (node : Nat)
  | save (node : Nat)
  | crash (core : Nat)
  | deadlock (ch : Nat)
  deriving DecidableEq, Repr

/-- A record before its stamp and CRC (R49). -/
structure TrapRec where
  kind : Nat
  field : Nat
  src : Nat
  x : Nat
  y : Nat
  node : Word
  /-- Payload bytes at record offsets, as (offset, width in bytes, value). -/
  payload : List (Nat × Nat × Nat)
  poster : Poster
  deriving DecidableEq, Repr

structure TrapQueue where
  base : BitVec 23
  en : Bool
  log2n : BitVec 5
  headErr : Bool
  cfgErr : Bool
  badAck : Bool
  head : Word
  tail : Word
  fatal : Bool
  fatalMore : Byte
  dropped : Word
  stamp : Dword
  /-- Records waiting for space, in arrival order. -/
  posters : List TrapRec
  /-- Stamps of unacknowledged replayable records and who waits for them. -/
  outstanding : List (Dword × Poster)
  deriving DecidableEq, Repr

def TrapQueue.init : TrapQueue :=
  { base := 0, en := false, log2n := 8, headErr := false, cfgErr := false, badAck := false, head := 0, tail := 0,
    fatal := false, fatalMore := 0, dropped := 0, stamp := 0, posters := [], outstanding := [] }

/-! ### Translation, frames and the memories (R196 to R205) -/

/-- A leaf held in a TLB (R198): the page it was walked for or the first of its large page, its entry, whether it is large. -/
structure TlbEntry where
  page : Nat
  entry : Dword
  large : Bool
  deriving DecidableEq, Repr

/-- The translation block's operation in progress, as its GO took it (R202). -/
structure XlJob where
  op : Nat
  npg : Nat
  page : Nat
  target : Nat
  deriving DecidableEq, Repr

structure Xlate where
  root : BitVec 23
  en : Bool
  opva : BitVec 39
  opfn : BitVec 23
  npg : BitVec 16
  op : BitVec 3
  job : XlJob
  busy : Bool
  rej : Bool
  failpg : BitVec 16
  result : BitVec 4
  ftsel : BitVec 23
  /-- The valid leaves held in the fields' TLBs (R198), and in the micro-TLBs of memory ports, by site or core (R198, R408). -/
  tlb : List (List TlbEntry)
  micro : List (Nat × List TlbEntry)
  deriving DecidableEq, Repr

def Xlate.init : Xlate :=
  { root := 0, en := false, opva := 0, opfn := 0, npg := 0, op := 0, job := { op := 0, npg := 0, page := 0, target := 0 }, busy := false, rej := false, failpg := 0,
    result := 0, ftsel := 0, tlb := [[], [], [], []], micro := [] }

/-- A frame-table entry (R199). -/
structure Frame where
  defdesc : Desc
  ms : Bool
  state : BitVec 2
  pins : BitVec 12
  ce : Word
  deriving DecidableEq, Repr

def Frame.init : Frame := { defdesc := 0, ms := false, state := 0, pins := 0, ce := 0 }

/-- A corrupted symbol of a stored line, not yet read (R204, R205, R366). -/
structure Soft where
  block : Nat
  err : SoftErr
  deriving DecidableEq, Repr

/-- A superblock held in a home way: its name, and which of its four lines are valid (R173). -/
structure HomeWay where
  sb : Nat
  valid : BitVec 4
  deriving DecidableEq, Repr

/-- A WAITGE that waits at a counter (R230): the number of its wait, its context and instruction, the line and the offset of the counter, its target, and
the first value at or above it that the counter has taken. -/
structure Waiter where
  id : Nat
  c : CtxId
  idx : Nat
  key : Nat
  ofs : Nat
  target : Nat
  seen : Option Nat
  deriving DecidableEq, Repr

structure Mem where
  /-- HBM and the two hosts' memories (TGT 01 and 10), by address. -/
  hbm : Store
  host0 : Store
  host1 : Store
  /-- The home ways' entries by set, the most recently used first (R172, R173); a valid line that is not dirty holds what its
  backing store holds. -/
  ways : List (Nat × List HomeWay)
  /-- Dirty lines of the home ways, and dirty blocks of the units' buffers, by line key (R173, R362). -/
  dirty : List (Nat × Line)
  /-- The blocks in the memory-side units' buffers by unit, the most recently operated first (R362); one that is not dirty holds
  what `hbm` holds. -/
  buffers : List (Nat × List Nat)
  /-- Frame-table entries other than a normal one with zero fields, by frame number. -/
  frames : List (Nat × Frame)
  /-- Locked superblocks, one entry for each LOCK pin (R193). -/
  locked : List Nat
  /-- Marked-bad layers of the banks, six bits each (R205). -/
  marks : List (Nat × BitVec 6)
  soft : List Soft
  /-- Memory-side units' pseudo-channels and stacks that are off (R451, R455). -/
  unitsOff : List Nat
  stacksOff : List Nat
  /-- Stacks that have stopped answering (R455). -/
  stacksLost : List Nat
  /-- Frame-table frames that have moved: the frame, and the retired frame that holds it (R451). -/
  tables : List (Nat × Nat)
  /-- WAITGEs to be notified of each change of their counters (R230, R363). -/
  waits : List Waiter
  waitId : Nat
  deriving DecidableEq, Repr

def Mem.init : Mem :=
  { hbm := Store.empty, host0 := Store.empty, host1 := Store.empty, ways := [], dirty := [], buffers := [], frames := [], locked := [], marks := [],
    soft := [], unitsOff := [], stacksOff := [], stacksLost := [], tables := [], waits := [], waitId := 0 }

/-! ### The channel unit (R328 to R336) -/

structure Chan where
  rbase : Word
  esz : Bool
  log2r : BitVec 5
  soft : Word
  ceil : Word
  spill : Dword
  chead : Word
  ctail : Word
  thead : Word
  ttail : Word
  rt : Word
  prod : Word
  cons : Word
  grows : BitVec 16
  state : BitVec 8
  /-- The entry's CRC does not match it (R341). -/
  bad : Bool
  /-- Tokens, by their number, whose spill slot had no translation when it was to be written or read (R340). -/
  lost : List Nat
  /-- The pinned frames of the spill area (R350). -/
  frames : List Nat
  deriving DecidableEq, Repr

def Chan.free : Chan :=
  { rbase := 0, esz := false, log2r := 0, soft := 0, ceil := 0, spill := 0, chead := 0, ctail := 0, thead := 0,
    ttail := 0, rt := 0, prod := 0xFFFFFFFF#32, cons := 0xFFFFFFFF#32, grows := 0, state := 0, bad := false, lost := [], frames := [] }

/-- The channel unit's operation in progress, as its GO took it (R332, R333). -/
structure ChuJob where
  op : Nat
  chid : Nat
  va : Dword
  deriving DecidableEq, Repr

structure ChanUnit where
  base : BitVec 21
  en : Bool
  dint : Byte
  opva : BitVec 49
  op : BitVec 3
  chid : BitVec 12
  job : ChuJob
  busy : Bool
  rej : Bool
  result : BitVec 4
  grows : Word
  deadlk : Word
  cfgErr : Bool
  failed : Bool
  loadErr : Bool
  /-- Entries other than FREE, by channel. -/
  table : List (Nat × Chan)
  /-- The pool's lines and the tag store (R175, R330). -/
  pool : Store
  tags : List (Nat × Byte)
  /-- The detector's last probe, in µs, and the sets it saw: channels, and what of them and their nodes could change; and
  the sets reported, with what ends the report's force (R357, R358). -/
  lastProbe : Nat
  probes : List (List Nat × List Nat)
  reported : List (List Nat × List Nat)
  deriving DecidableEq, Repr

def ChanUnit.init : ChanUnit :=
  { base := 0, en := false, dint := 0x28, opva := 0, op := 0, chid := 0, job := { op := 0, chid := 0, va := 0 }, busy := false, rej := false, result := 0,
    grows := 0, deadlk := 0, cfgErr := false, failed := false, loadErr := false, table := [], pool := Store.empty,
    tags := [], lastProbe := 0, probes := [], reported := [] }

/-! ### The dispatcher and power (R379 to R404) -/

/-- A node that has ended, with its counts (R452). -/
structure Ended where
  id : Nat
  counts : List (Nat × Word)
  deriving DecidableEq, Repr

/-- A `.dev` barrier entry (R232): group, id, arrivals by node. -/
structure DevBar where
  group : Nat
  id : Nat
  arrivals : List (Nat × Nat)
  deriving DecidableEq, Repr

structure Dispatcher where
  nodes : List Node
  recent : List Ended
  ageTick : Byte
  autoPre : Bool
  preNode : Word
  /-- The operation in progress and its node, as its GO took them (R404). -/
  opRun : BitVec 3
  opNode : Word
  op : BitVec 3
  busy : Bool
  result : BitVec 4
  lrefused : Word
  relDrop : Word
  preempts : Word
  saveFail : Word
  cfgErr : Bool
  rej : Bool
  bars : List DevBar
  /-- Nodes of a barrier group that have ended, by group, while the others have not (R232). -/
  barEnded : List (Nat × Nat)
  /-- Orders entries into the pool and reservations (R382, R384). -/
  serial : Nat
  lastAge : Nat
  /-- A fatal event with FCODE 1 has stopped the dispatcher (R455). -/
  frozen : Bool
  deriving DecidableEq, Repr

def Dispatcher.init : Dispatcher :=
  { nodes := [], recent := [], ageTick := 4, autoPre := true, preNode := 0, opRun := 0, opNode := 0, op := 0, busy := false, result := 0,
    lrefused := 0, relDrop := 0, preempts := 0, saveFail := 0, cfgErr := false, rej := false, bars := [], barEnded := [], serial := 0,
    lastAge := 0, frozen := false }

/-- Power (R391 to R393, R403): budgets, depth, throttle counts, and the bucket levels in units of 1 pJ / 2,366,400, in
which the drain of a cycle is whole at every bin's clock. -/
structure Power where
  fbud : List (BitVec 16)
  mbud : BitVec 16
  depth : BitVec 16
  fthr : List Word
  mthr : Word
  flevel : List Nat
  mlevel : Nat
  /-- Blocks read from or written to HBM since the module bucket's last step. -/
  moved : Nat
  deriving DecidableEq, Repr

def Power.init : Power :=
  { fbud := [420, 420, 420, 420], mbud := 650, depth := 64, fthr := [0, 0, 0, 0], mthr := 0, flevel := [0, 0, 0, 0],
    mlevel := 0, moved := 0 }

/-! ### Control cores (R407 to R434) -/

/-- A trap bank (R418, R420). -/
structure TrapBank where
  cause : Byte
  epc : Dword
  info : Word
  ret : Word
  deriving DecidableEq, Repr

def TrapBank.init : TrapBank := { cause := 0, epc := 0, info := 0, ret := 0 }

/-- A core's firmware window at one level, with the draft position that loads it; of a frozen window, what its block
keeps apart from the handler's: carry words now, staged and at its start, PUTW's records, a boundary in progress, COMMIT
boundaries. -/
structure FwWin where
  win : Option Window
  draft : DraftSt
  carry : List (Nat × Carry)
  carryStage : List (Nat × Carry)
  start : List (Nat × Carry)
  puts : List (Nat × Carry)
  boundary : Option Boundary
  commits : Nat
  /-- The block has taken its WDOG trap (R421). -/
  late : Bool
  /-- An RTE of its block has marked it for return (R423). -/
  marked : Bool := false
  /-- The blocks that the fetch in progress has read, by VA (R75). -/
  fetched : List (Dword × Line) := []
  deriving DecidableEq, Repr

def FwWin.init : FwWin :=
  { win := none, draft := DraftSt.init 0, carry := [], carryStage := [], start := [], puts := [], boundary := none, commits := 0,
    late := false }

structure Core where
  /-- The firmware context: carry, stage, scratch, counts (R414). -/
  ctx : Ctx
  f0 : FwWin
  h1 : FwWin
  h2 : FwWin
  /-- Resident nodes in order of admission; the one whose turn it is; the slice's start in µs (R409, R410). -/
  resident : List Nat
  turn : Nat
  sliceStart : Nat
  level : BitVec 2
  tb0 : TrapBank
  tb1 : TrapBank
  tvec : Dword
  evt : BitVec 6
  tcmp : Word
  wdog : BitVec 16
  keep : List (Nat × Word)
  slice : BitVec 16
  crash : Word
  fwver : Word
  /-- The register of the last CSR access and the halves it latched (R417). -/
  csrLatch : Option (Nat × Dword)
  swapPending : Bool
  yielded : Bool
  deriving DecidableEq, Repr

def Core.init : Core :=
  { ctx := Ctx.init 0, f0 := FwWin.init, h1 := FwWin.init, h2 := FwWin.init, resident := [], turn := 0, sliceStart := 0,
    level := 0, tb0 := TrapBank.init, tb1 := TrapBank.init, tvec := 0, evt := 0, tcmp := 0xFFFFFFFF#32, wdog := 0,
    keep := [], slice := 0x32, crash := 0, fwver := 0, csrLatch := none, swapPending := false,
    yielded := false }

/-- A running SIGCHK (R433). -/
structure SigRun where
  core : Nat
  c : CtxId
  idx : Nat
  va : Dword
  len : Nat
  key : Nat
  /-- With `.acq`, and what lines that have changed since the start held then (R61). -/
  acq : Bool
  kept : List (Nat × Line)
  deriving DecidableEq, Repr

/-- Firmware banks, staged image, bank swap (R432 to R434). -/
structure Firmware where
  /-- The active and the staged bank's bytes by offset. -/
  active : Store
  staged : Store
  /-- The staged bank holds a verified image, and its version. -/
  stagedOk : Bool
  stgver : Word
  /-- Which flash image (0 A, 1 B) the banks come from, and the swap in progress: cores still to switch. -/
  swapping : Bool
  toSwitch : List Nat
  sig : Option SigRun
  deriving DecidableEq, Repr

def Firmware.init : Firmware :=
  { active := Store.empty, staged := Store.empty, stagedOk := false, stgver := 0, swapping := false, toSwitch := [],
    sig := none }

/-! ### The health unit (R436 to R460) -/

/-- An entry of the log (R439), as the bytes of a kind 0x03 payload with the record's node and source. -/
structure HealthRec where
  kind : Nat
  src : Nat
  field : Nat
  x : Nat
  y : Nat
  node : Word
  seq : Word
  payload : List (Nat × Nat × Nat)
  deriving DecidableEq, Repr

/-- A field's health state (R446, R454). -/
structure FieldSt where
  state : BitVec 3
  pass : Bool
  bin : BitVec 2
  /-- Removed physical rows and columns of cells (R241, R450), rising. -/
  rows : List Nat
  cols : List Nat
  /-- Marginal units (R445). -/
  marginal : List UnitName
  deriving DecidableEq, Repr

def FieldSt.init : FieldSt := { state := 0, pass := true, bin := 0, rows := [], cols := [], marginal := [] }

/-- An armed injection (R458). -/
structure Inject where
  tkind : Nat
  lane : Nat
  layer : Nat
  x : Nat
  y : Nat
  /-- Operations still to be counted, the firing one included. -/
  left : Nat
  /-- The node, or 0xFFFF_FFFF for any. -/
  node : Word
  deriving DecidableEq, Repr

/-- A health operation in progress (R445, R455, R459, R460): the instruction that waits for it, if one does; its opcode,
field, cell and argument. -/
structure HlWait where
  who : Option (CtxId × Nat)
  op : Nat
  field : Nat
  x : Nat
  y : Nat
  arg : Nat
  deriving DecidableEq, Repr

structure Health where
  autoByp : Bool
  autoBin : Bool
  test : Bool
  seq : Word
  log : List HealthRec
  badSel : Bool
  layer2 : Bool
  retired : Bool
  injFired : Bool
  fields : List FieldSt
  op : BitVec 3
  busy : Bool
  rej : Bool
  result : BitVec 4
  arg : Dword
  /-- The operation in progress and its argument, as its GO took them (R451). -/
  opRun : BitVec 3
  argRun : Dword
  ceThr : Word
  sel : Word
  cnode : Word
  /-- Counters other than zero: by class and number (R453). -/
  fieldCounts : List (Nat × Word)
  devCounts : List (Nat × Word)
  bankCounts : List (Nat × Word)
  unitCounts : List (Nat × Word)
  /-- Symbols of a bank's layer corrected since reset or since its mark was last cleared (R451), by 8 b + layer. -/
  layerCounts : List (Nat × Nat)
  inj : List Inject
  wait : List HlWait
  deriving DecidableEq, Repr

def Health.init : Health :=
  { autoByp := true, autoBin := true, test := false, seq := 0, log := [], badSel := false, layer2 := false, retired := false,
    injFired := false, fields := List.replicate 4 FieldSt.init, op := 0, busy := false, rej := false, result := 0, arg := 0, opRun := 0, argRun := 0,
    ceThr := 64, sel := 0, cnode := 0, fieldCounts := [], devCounts := [], bankCounts := [], unitCounts := [], layerCounts := [], inj := [],
    wait := [] }

/-! ### Shuttles and relays (R302 to R325, R469, R470) -/

/-- A destination branch of a command (R305, R307). -/
structure Branch where
  /-- DK: 0 global, 1 own bobbin, 2 another node's bobbin. -/
  dk : Nat
  dst : Dword
  node : Nat
  bob : Nat
  credit : Bool
  tag : Nat
  /-- The branch is no longer served (SLOT, R308). -/
  off : Bool
  /-- The next tile to deliver; its space has been taken; the slot taken for it. -/
  next : Nat
  got : Bool
  slot : Option Nat
  deriving DecidableEq, Repr

/-- A shuttle command. -/
structure Cmd where
  ticket : Nat
  ctx : CtxId
  block : Nat
  idx : Nat
  /-- Opcode and VARIANT. -/
  op : Nat
  variant : Nat
  order : Order
  field : Nat
  /-- Held by `.rel` until the phase count passes this one (R61). -/
  waitPhase : Option Nat
  started : Bool
  /-- SK 01: the source is bobbin `src`; its next tile, and the slot of the tile in hand. -/
  srcBob : Bool
  src : Dword
  srcTile : Nat
  slot : Option Nat
  branches : List Branch
  rb : Nat
  tr : Nat
  nrow : Nat
  sstr : Dword
  dstr : Dword
  cnt : Dword
  add : Nat
  /-- X10 to X12. -/
  x10 : Word
  x11 : Word
  x12 : Word
  /-- The tile in hand has its permit; rows of it that have moved. -/
  permit : Bool
  row : Nat
  /-- The blocks of the index list that have been read, the last first: the VA, and the line if it has a translation. Each is read
  once (R313). -/
  index : List (Dword × Option Line)
  /-- Under `.acq`: what lines that have changed since the command started held then, by line key (R61, R319). -/
  kept : List (Nat × Line)
  status : Byte
  ev : Ev
  /-- Stage 5 has been done. -/
  counted : Bool
  /-- The place among completions once complete (R303, stage 6). -/
  doneAt : Option Nat
  toks : List Token
  /-- A RELAY: its header has left; the chain has acknowledged. -/
  opened : Bool
  acked : Bool
  /-- The time in µs at which a RELAY's last flit so far left (R470; assumption log 20). -/
  sentUs : Nat
  /-- The tile in hand is poisoned by a second mismatch (R436). -/
  bad : Bool
  /-- Moves whose events have been counted and, of SCAT and RELAY, whose blocks have been written or sent: a source that is read
  again after a reset passes over them (R323). In blocks of the source from the first row on. -/
  hi : Nat
  deriving DecidableEq, Repr

/-- A transfer received from a peer (R469, R470). -/
structure Relay where
  port : Nat
  /-- The port that it is forwarded through and the hops left; the next device has acknowledged. -/
  fport : Nat
  hops : Nat
  nextAck : Bool
  /-- A block or the chain has been refused: the transfer is never acknowledged (R317). -/
  refused : Bool
  ticket : Dword
  nrow : Nat
  rb : Nat
  pcnt : Dword
  padd : Byte
  va : BitVec 55
  got : Nat
  deriving DecidableEq, Repr

structure Shuttle where
  cmds : List Cmd
  relays : List Relay
  /-- Tickets given, and commands completed. -/
  ticket : Nat
  done : Nat
  /-- By field, the command whose tile its shuttle serves or served last, and whether it still does (R302). -/
  turn : List (Nat × Nat × Bool)
  deriving DecidableEq, Repr

def Shuttle.init : Shuttle := { cmds := [], relays := [], ticket := 0, done := 0, turn := [] }

/-! ### Links, management and boot (R462 to R475) -/

structure HostPort where
  tqEn : Bool
  fatalEn : Bool
  apBase : BitVec 3
  linkUp : Bool
  width : BitVec 5
  rate : BitVec 4
  err : Word
  /-- Requests on this port that will time out or return an error (R468). -/
  failing : Nat
  deriving DecidableEq, Repr

def HostPort.init : HostPort :=
  { tqEn := false, fatalEn := false, apBase := 0, linkUp := false, width := 0, rate := 0, err := 0, failing := 0 }

/-- A flit that a peer port puts out (R469). -/
inductive PeerOut where
  | data (p : Fin 8) (f : Flit)
  | header (p : Fin 8) (h : HeaderFlit)
  | ack (p : Fin 8) (ticket : Dword)
  | credit (p : Fin 8)
  deriving DecidableEq, Repr

structure PeerPort where
  en : Bool
  up : Bool
  training : Bool
  replays : BitVec 16
  credits : Nat
  /-- Flits to be forwarded and acknowledgements that wait for a credit, oldest first (R469, R470). -/
  outq : List PeerOut
  deriving DecidableEq, Repr

def PeerPort.init : PeerPort := { en := true, up := false, training := false, replays := 0, credits := 512, outq := [] }

structure Mgmt where
  slot : BitVec 4
  stage : BitVec 4
  temp : Word
  power : BitVec 16
  atResult : BitVec 4
  atBusy : Bool
  atpa : Dword
  nonce : Dword
  /-- The module flash's two images, bytes by offset (R472). -/
  imageA : Store
  imageB : Store
  /-- The measurement of the booted image (R473). -/
  measure : List Byte
  /-- The module is held in reset. -/
  off : Bool
  /-- Boot has failed and stopped (R472). -/
  halted : Bool
  deriving DecidableEq, Repr

def Mgmt.init : Mgmt :=
  { slot := 0, stage := 0, temp := 0, power := 0, atResult := 0, atBusy := false, atpa := 0, nonce := 0,
    imageA := Store.empty, imageB := Store.empty, measure := List.replicate 64 0, off := false, halted := false }

/-! ### The model's own bookkeeping -/

/-- One thing to do next: let the unit of an instruction act, or take an event. -/
inductive Job where
  | fire (c : CtxId) (idx : Nat)
  | event (i : Instr)
  deriving DecidableEq, Repr

/-- What the device sends out: read replies and interrupts to a host port (R465, R466), flits to a peer. -/
inductive HostOut where
  | readReply (port : Fin 2) (data : List Byte)
  | msix (port : Fin 2) (vector : Nat)
  deriving DecidableEq, Repr

/-- The model's own fields (assumption log 2, 3): the agenda, the sweep and free-value counters, inputs not yet taken,
the unit in focus, the contexts that the step found quiescent, outputs, and the time in µs (CC_TIME). -/
structure Run where
  agenda : List Job
  sweep : Nat
  free : Nat
  inputs : List Instr
  focus : Option (CtxId × Nat)
  still : List CtxId
  toHost : List HostOut
  toPeer : List PeerOut
  time : Nat
  deriving DecidableEq, Repr

def Run.init : Run :=
  { agenda := [], sweep := 0, free := 0, inputs := [], focus := none, still := [], toHost := [], toPeer := [], time := 0 }

/-! ### The machine -/

structure State where
  run : Run
  lw0 : LaunchWin
  lw1 : LaunchWin
  tq : TrapQueue
  xl : Xlate
  mem : Mem
  chu : ChanUnit
  dsp : Dispatcher
  pwr : Power
  cores : List Core
  fw : Firmware
  hl : Health
  sh : Shuttle
  hp0 : HostPort
  hp1 : HostPort
  pr : List PeerPort
  mg : Mgmt
  deriving DecidableEq, Repr

/-- Why the machine stops. The manual lets no instruction stop it; the one reason is the model's own. -/
inductive Fault where
  /-- `exec` was asked for an instruction word while no unit is in focus: no run of `step` reaches it. Raised by the
  meanings of instruction words. Safe: the machine stops where the hardware has no such situation. -/
  | noUnit
  deriving DecidableEq, Repr

/-- Why an instruction has no meaning. -/
inductive Refusal where
  /-- The instruction of this mnemonic has no meaning in the model. Raised by `exec`'s refused arms. Safe. -/
  | notModelled (mnemonic : String)
  deriving DecidableEq, Repr

/-- The machine right after reset: nothing held, nothing placed, every register at the value its rule gives, and at
the value the assumption log names where the rule gives none. -/
def State.reset : State :=
  { run := Run.init, lw0 := LaunchWin.init, lw1 := LaunchWin.init, tq := TrapQueue.init, xl := Xlate.init,
    mem := Mem.init, chu := ChanUnit.init, dsp := Dispatcher.init, pwr := Power.init,
    cores := List.replicate 16 Core.init, fw := Firmware.init, hl := Health.init, sh := Shuttle.init,
    hp0 := HostPort.init, hp1 := HostPort.init, pr := List.replicate 8 PeerPort.init, mg := Mgmt.init }

end Sys2Proof.Machine
end

