-- ==== Sys2Proof/Machine/Maps.lean ====
section
/-! DEFINITION. Sparse maps and byte stores in their one canonical form, and the operations that keep it. -/

namespace Sys2Proof.Machine

/-! ### Maps from Nat with a default -/

/-- What a key reads as: its entry, or the default. -/
def mapGet {α : Type} (d : α) : List (Nat × α) → Nat → α
  | [], _ => d
  | (k', v) :: m, k => if k' = k then v else if k < k' then d else mapGet d m k

/-- The entry of a key, if it is listed. -/
def mapFind {α : Type} : List (Nat × α) → Nat → Option α
  | [], _ => none
  | (k', v) :: m, k => if k' = k then some v else if k < k' then none else mapFind m k

/-- A key's entry removed. -/
def mapErase {α : Type} : List (Nat × α) → Nat → List (Nat × α)
  | [], _ => []
  | (k', v) :: m, k => if k' = k then m else if k < k' then (k', v) :: m else (k', v) :: mapErase m k

/-- A key's entry written, in its place. -/
def mapPut {α : Type} : List (Nat × α) → Nat → α → List (Nat × α)
  | [], k, v => [(k, v)]
  | (k', v') :: m, k, v =>
    if k < k' then (k, v) :: (k', v') :: m else if k = k' then (k, v) :: m else (k', v') :: mapPut m k v

/-- A write that keeps the form: the default is not listed. -/
def mapSet {α : Type} [DecidableEq α] (d : α) (m : List (Nat × α)) (k : Nat) (v : α) : List (Nat × α) :=
  if v = d then mapErase m k else mapPut m k v

/-- Keys strictly rising from above `lo`, no entry equal to the default. -/
def mapWfFrom {α : Type} [DecidableEq α] (d : α) : Option Nat → List (Nat × α) → Bool
  | _, [] => true
  | lo, (k, v) :: m => (match lo with | none => true | some l => decide (l < k)) && decide (v ≠ d) && mapWfFrom d (some k) m

/-- The canonical form. -/
def mapWf {α : Type} [DecidableEq α] (d : α) (m : List (Nat × α)) : Bool := mapWfFrom d none m

/-! ### Sets of Nat, rising -/

def setHas (l : List Nat) (k : Nat) : Bool := l.elem k

def setInsert : List Nat → Nat → List Nat
  | [], k => [k]
  | x :: xs, k => if k < x then k :: x :: xs else if k = x then x :: xs else x :: setInsert xs k

def setErase (l : List Nat) (k : Nat) : List Nat := l.filter (· != k)

/-- Strictly rising. -/
def setWf : List Nat → Bool
  | [] => true
  | [_] => true
  | x :: y :: xs => decide (x < y) && setWf (y :: xs)

/-! ### Byte stores -/

/-- The canonical form of a memory (assumption log 7): bytes, descriptors and poisoned blocks. -/
def Store.wf (m : Store) : Bool := mapWf (0 : BitVec 8) m.cells && mapWf (0 : Desc) m.descs && setWf m.psn

/-- The byte at an address; an unlisted one reads as 0. -/
def Store.readByte (m : Store) (a : Nat) : Byte := mapGet 0 m.cells a

def Store.writeByte (m : Store) (a : Nat) (v : Byte) : Store := { m with cells := mapSet 0 m.cells a v }

/-- `n` bytes from an address, in ascending order. -/
def Store.readBytes (m : Store) (a n : Nat) : List Byte := (List.range n).map (fun i => m.readByte (a + i))

/-- Bytes written from an address on. -/
def Store.writeBytes (m : Store) (a : Nat) : List Byte → Store
  | [] => m
  | b :: bs => Store.writeBytes (m.writeByte a b) (a + 1) bs

/-- A little-endian number of bytes. -/
def leNat : List Byte → Nat
  | [] => 0
  | b :: bs => b.toNat + 256 * leNat bs

/-- The `n` little-endian bytes of a number. -/
def leBytes : Nat → Nat → List Byte
  | 0, _ => []
  | n + 1, v => BitVec.ofNat 8 v :: leBytes n (v / 256)

/-- The bytes listed between two addresses as a number scaled to the first one. -/
def cellsNat (lo : Nat) : List Host.Cell → Nat
  | [] => 0
  | (a, b) :: m => if a < lo then cellsNat lo m else if a < lo + 64 then b.toNat * 256 ^ (a - lo) + cellsNat lo m else 0

/-- The block numbered `n`: the 64 bytes from 64 n, its descriptor and its poison. -/
def Store.readLine (m : Store) (n : Nat) : Line :=
  { data := BitVec.ofNat 512 (cellsNat (64 * n) m.cells), desc := mapGet 0 m.descs n, psn := setHas m.psn n }

/-- The cells of a block's bytes other than 0. -/
def lineCells (lo : Nat) (d : Bits512) : List Host.Cell :=
  ((List.range 64).map (fun i => (lo + i, BitVec.ofNat 8 (d.toNat / 256 ^ i)))).filter (fun c => c.2 != 0)

/-- A whole block written with its descriptor; its poison is cleared or set. -/
def Store.writeLine (m : Store) (n : Nat) (l : Line) : Store :=
  { cells := m.cells.filter (fun c => decide (c.1 < 64 * n)) ++ lineCells (64 * n) l.data
      ++ m.cells.filter (fun c => decide (64 * n + 64 ≤ c.1)),
    descs := mapSet 0 m.descs n l.desc,
    psn := if l.psn then setInsert m.psn n else setErase m.psn n }

/-! ### Bytes of a block -/

/-- Byte `i` of a block. -/
def lineByte (d : Bits512) (i : Nat) : Byte := BitVec.ofNat 8 (d.toNat / 256 ^ i)

/-- `n` bytes of a block from byte `i`, as a number. -/
def lineNat (d : Bits512) (i n : Nat) : Nat := d.toNat / 256 ^ i % 256 ^ n

/-- The bit mask of `n` bytes from byte `i`. -/
def byteBits (i n : Nat) : Bits512 := BitVec.ofNat 512 ((256 ^ n - 1) * 256 ^ i)

/-- A block with `n` bytes from byte `i` replaced by those of `v`. -/
def putNat (d : Bits512) (i n v : Nat) : Bits512 :=
  (d &&& ~~~byteBits i n) ||| BitVec.ofNat 512 (v % 256 ^ n * 256 ^ i)

/-- The 512-bit mask of a 64-bit byte mask. -/
def maskBits (m : BitVec 64) : Bits512 :=
  BitVec.ofNat 512 ((List.range 64).map (fun i => if m.getLsbD i then 255 * 256 ^ i else 0)).sum

/-- The byte mask of `n` bytes from byte `i`. -/
def byteMask (i n : Nat) : BitVec 64 := BitVec.ofNat 64 ((2 ^ n - 1) * 2 ^ i)

def bytesNat (bs : List Byte) : Nat := leNat bs

/-- A block from its bytes, the missing ones zero. -/
def lineOfBytes (bs : List Byte) : Bits512 := BitVec.ofNat 512 (leNat bs)

/-- The bytes of a block. -/
def lineBytes (d : Bits512) : List Byte := leBytes 64 d.toNat

/-! ### CRC-32 (R74) -/

/-- One bit step of the CRC. -/
def crcBit (c : Word) : Word := if c.getLsbD 0 then (c >>> 1) ^^^ 0xEDB88320#32 else c >>> 1

def crcByte (c : Word) (b : Byte) : Word :=
  let x := c ^^^ b.zeroExtend 32
  crcBit (crcBit (crcBit (crcBit (crcBit (crcBit (crcBit (crcBit x)))))))

/-- CRC-32 of bytes, with the conventions of R74. -/
def crc32 (bs : List Byte) : Word := (bs.foldl crcByte 0xFFFFFFFF#32) ^^^ 0xFFFFFFFF#32

/-! ### Bit fields -/

/-- Bits [hi:lo] of a number. -/
def bits (v hi lo : Nat) : Nat := v / 2 ^ lo % 2 ^ (hi + 1 - lo)

def bit (v k : Nat) : Bool := v / 2 ^ k % 2 == 1

def b2n (b : Bool) : Nat := if b then 1 else 0

/-- A word's field. -/
def wbits (w : Word) (hi lo : Nat) : Nat := bits w.toNat hi lo

def wbit (w : Word) (k : Nat) : Bool := bit w.toNat k

/-- An element of a list, with a default. -/
def nth {α : Type} (d : α) : List α → Nat → α
  | [], _ => d
  | x :: _, 0 => x
  | _ :: xs, n + 1 => nth d xs n

/-- A list with one element changed; a place outside it changes nothing. -/
def modNth {α : Type} (f : α → α) : List α → Nat → List α
  | [], _ => []
  | x :: xs, 0 => f x :: xs
  | x :: xs, n + 1 => x :: modNth f xs n

end Sys2Proof.Machine
end

