-- ==== Sys2Proof/Machine/Access.lean ====
section
/-! DEFINITION. The accessors of the state: contexts, windows and units, tokens, counts, and the trap records posted. -/

namespace Sys2Proof.Machine

/-! ### Contexts, windows and units -/

def isFirmware : CtxId → Bool
  | .node _ => false
  | .fw _ _ => true

def getNode (s : State) (id : Nat) : Option Node := s.dsp.nodes.find? (fun n => n.id == id)

def updNode (s : State) (id : Nat) (f : Node → Node) : State :=
  { s with dsp := { s.dsp with nodes := s.dsp.nodes.map (fun n => if n.id = id then f n else n) } }

def getCore (s : State) (c : Nat) : Core := nth Core.init s.cores c

def updCore (s : State) (c : Nat) (f : Core → Core) : State := { s with cores := modNth f s.cores c }

/-- A core's firmware window at a level (R408, R420). -/
def coreWin (k : Core) (level : Nat) : FwWin :=
  match level with
  | 0 => k.f0
  | 1 => k.h1
  | _ => k.h2

def setCoreWin (k : Core) (level : Nat) (w : FwWin) : Core :=
  match level with
  | 0 => { k with f0 := w }
  | 1 => { k with h1 := w }
  | _ => { k with h2 := w }

def getCtx (s : State) (c : CtxId) : Option Ctx :=
  match c with
  | .node id => (getNode s id).map (·.ctx)
  | .fw k _ => some (getCore s k.val).ctx

def updCtx (s : State) (c : CtxId) (f : Ctx → Ctx) : State :=
  match c with
  | .node id => updNode s id (fun n => { n with ctx := f n.ctx })
  | .fw k _ => updCore s k.val (fun co => { co with ctx := f co.ctx })

def getWin (s : State) (c : CtxId) : Option Window :=
  match c with
  | .node id => (getNode s id).bind (·.win)
  | .fw k l => (coreWin (getCore s k.val) l.val).win

def updWin (s : State) (c : CtxId) (f : Window → Window) : State :=
  match c with
  | .node id => updNode s id (fun n => { n with win := n.win.map f })
  | .fw k l => updCore s k.val (fun co =>
      let w := coreWin co l.val
      setCoreWin co l.val { w with win := w.win.map f })

/-- The draft position that a window's blocks move: the node's, or the firmware level's own. -/
def getDraft (s : State) (c : CtxId) : DraftSt :=
  match c with
  | .node id => ((getNode s id).map (·.ctx.draft)).getD (DraftSt.init 0)
  | .fw k l => (coreWin (getCore s k.val) l.val).draft

def updDraft (s : State) (c : CtxId) (f : DraftSt → DraftSt) : State :=
  match c with
  | .node id => updNode s id (fun n => { n with ctx := { n.ctx with draft := f n.ctx.draft } })
  | .fw k l => updCore s k.val (fun co =>
      let w := coreWin co l.val
      setCoreWin co l.val { w with draft := f w.draft })

def updUnit (s : State) (c : CtxId) (i : Nat) (f : ElemSt → ElemSt) : State :=
  updWin s c (fun w => { w with units := modNth f w.units i })

/-- The node id of a context, 0xFFFF_FFFF for firmware (R414). -/
def ctxNode : CtxId → Word
  | .node id => BitVec.ofNat 32 id
  | .fw _ _ => 0xFFFFFFFF#32

/-! ### Block header, trailer and placement fields (R66, R68, R72) -/

def winTmp (w : Window) : Bool := wbit w.h0 15
def winWs (w : Window) : Nat := wbits w.h0 23 16
def winHs (w : Window) : Nat := wbits w.h0 31 24
def winNins (w : Window) : Nat := w.code.length
def winNext (w : Window) : Nat := wbits w.h1 31 24
def winCommit (w : Window) : Nat := wbits w.h1 22 19
def winTerm (w : Window) : Nat := wbits w.h1 18 16
def winCh (w : Window) : Nat := wbits w.h1 15 8
def winCw (w : Window) : Nat := wbits w.h1 7 0
def winSplit (w : Window) : Nat := wbits w.h2 19 16
def winNve (w : Window) : Nat := wbits w.t2 23 16
def winAccRows (w : Window) : Nat := wbits w.t2 15 0
def winScratch (w : Window) : Nat := w.scratch.toNat

def winDx (w : Window) (i : Nat) : Nat := (nth 0 w.place i).toNat % 256
def winDy (w : Window) (i : Nat) : Nat := (nth 0 w.place i).toNat / 256

/-- The hop count between two instructions' sites (R82); 0 in a temporal block. -/
def winHops (w : Window) (i j : Nat) : Nat :=
  let d (a b : Nat) : Nat := (a - b) + (b - a)
  if winTmp w then 0 else d (winDx w i) (winDx w j) + d (winDy w i) (winDy w j)

def poolWord (w : Window) (k : Nat) : Word := nth 0 w.pool k

/-! ### Tokens (R22, R23) -/

def evenParity (v : Nat) : Bool := ((List.range 8).map (fun k => v / 2 ^ k % 2)).sum % 2 == 1

/-- The two parity bits of a descriptor (R23). -/
def descPar (d : Desc) : BitVec 2 :=
  BitVec.ofNat 2 (b2n (evenParity (d.toNat % 256)) + 2 * b2n (evenParity (d.toNat / 256)))

/-- A scalar data token. -/
def scalarTok (v : Word) (psn : Bool) : Token :=
  { vec := false, data := v.zeroExtend 512, desc := 0, par := 0, res := residue7 v.toNat, psn := psn, rank := 0,
    isMk := false }

/-- A vector data token. -/
def vectorTok (v : Bits512) (d : Desc) (psn : Bool) : Token :=
  { vec := true, data := v, desc := d, par := descPar d, res := residue7 v.toNat, psn := psn, rank := 0, isMk := false }

/-- A marker: data zero, residue 0, poison 0. -/
def markerTok (r : Nat) : Token :=
  { vec := false, data := 0, desc := 0, par := 0, res := 0, psn := false, rank := Fin.ofNat 8 r, isMk := true }

/-- The 32 data bits of a scalar token. -/
def Token.word (t : Token) : Word := t.data.setWidth 32

/-- The token's residue and parity agree with its data (R23, R24). -/
def Token.sound (t : Token) : Bool := t.res == residue7 t.data.toNat

def Token.parityOk (t : Token) : Bool := !t.vec || t.isMk || t.par == descPar t.desc

/-- A true predicate: not poisoned and data not zero (R78). -/
def Token.isTrue (t : Token) : Bool := !t.psn && t.data != 0

/-- The SUBST block of R113. -/
def substDesc : Desc := 0x007E
def substLine : Line := { data := 0, desc := substDesc, psn := false }

/-! ### Queues -/

def slotQueue (u : ElemSt) : Slot → List Token
  | .a => u.qa
  | .b => u.qb
  | .c => u.qc
  | .p => u.qp

def setQueue (u : ElemSt) (sl : Slot) (q : List Token) : ElemSt :=
  match sl with
  | .a => { u with qa := q }
  | .b => { u with qb := q }
  | .c => { u with qc := q }
  | .p => { u with qp := q }

def popSlot (u : ElemSt) (sl : Slot) : ElemSt := setQueue u sl (slotQueue u sl).tail

def popSlots (u : ElemSt) (l : List Slot) : ElemSt := l.foldl popSlot u

/-- The circuit to a target takes one more token: four in the target's queue and one in each latch on the way (R25, R124); none
on the way from an instruction to its own slots (R125). -/
def hasRoom (w : Window) (i : Nat) (t : Target) : Bool :=
  match w.units[t.index.val]? with
  | none => true
  | some u => decide ((slotQueue u t.slot).length < 4 + winHops w i t.index.val)

def pushTok (w : Window) (t : Target) (tok : Token) : Window :=
  { w with units := modNth (fun u => setQueue u t.slot (slotQueue u t.slot ++ [tok])) w.units t.index.val }

/-- The output stage of a target is empty. -/
def stageFree (stage : List (Target × Token)) (t : Target) : Bool := !stage.any (fun p => p.1 == t)

/-- The tokens of an output stage that their circuits take; the others stay (R124). -/
def drainStage (w : Window) (i : Nat) : List (Target × Token) → Window × List (Target × Token)
  | [] => (w, [])
  | (t, tok) :: l =>
    if hasRoom w i t then drainStage (pushTok w t tok) i l
    else
      let (w1, l1) := drainStage w i l
      (w1, (t, tok) :: l1)

/-- Tokens sent in order through the output stage `stage`, and on while their circuits take them: the window, what stands in
the stage, and the rest, held by the unit (R25, R124). -/
def sendToks (w : Window) (i : Nat) (stage : List (Target × Token)) :
    List (Target × Token) → Window × List (Target × Token) × List (Target × Token)
  | [] => (w, stage, [])
  | (t, tok) :: l =>
    if !stageFree stage t then (w, stage, (t, tok) :: l)
    else if hasRoom w i t then sendToks (pushTok w t tok) i stage l
    else sendToks w i (stage ++ [(t, tok)]) l

/-- What unit `i` still holds, put back. -/
def keepToks (r : Window × List (Target × Token) × List (Target × Token)) (i : Nat) : Window :=
  { r.1 with units := modNth (fun v => { v with stage := r.2.1, out := r.2.2 }) r.1.units i }

/-- The stage of a unit. -/
def unitStage (w : Window) (i : Nat) : List (Target × Token) := ((w.units[i]?).map (·.stage)).getD []

/-- The tokens of a firing of unit `i` sent. -/
def emitToks (w : Window) (i : Nat) (l : List (Target × Token)) : Window := keepToks (sendToks w i (unitStage w i) l) i

/-- What unit `i` holds offered again: the output stage, then the later tokens. -/
def pumpOut (w : Window) (i : Nat) : Window :=
  match w.units[i]? with
  | none => w
  | some u =>
    let (w1, stage) := drainStage w i u.stage
    keepToks (sendToks w1 i stage u.out) i

/-- Unit `i` has a token that it can move on, or holds later tokens back: it fires only once neither is so. -/
def mustPump (w : Window) (i : Nat) (u : ElemSt) : Bool := !u.out.isEmpty || u.stage.any (fun p => hasRoom w i p.1)

/-! ### Counts (R452) -/

def cntMachine : Nat := 0
def cntDiverge : Nat := 1
def cntPoison : Nat := 2
def cntMismatch : Nat := 3
def cntSat : Nat := 4
def cntNan : Nat := 5
def cntFlush : Nat := 6
def cntSubst : Nat := 7
def cntFmt : Nat := 8
def cntDivZero : Nat := 9
def cntRefused : Nat := 10
def cntInserted : Nat := 11
def cntShuttle : Nat := 12
def cntWindows : Nat := 13
def cntMoves : Nat := 14

/-- A 32-bit count raised, wrapping. -/
def bumpWord (m : List (Nat × Word)) (k n : Nat) : List (Nat × Word) :=
  mapSet 0 m k (mapGet 0 m k + BitVec.ofNat 32 n)

def addCount (s : State) (c : CtxId) (k n : Nat) : State :=
  if n = 0 then s else updCtx s c (fun x => { x with counts := bumpWord x.counts k n })

def addEv (s : State) (c : CtxId) (e : Ev) : State :=
  addCount (addCount (addCount (addCount (addCount s c cntSat e.sat) c cntNan e.nan) c cntFlush e.flush) c cntSubst
    e.subst) c cntFmt e.fmt

def addDev (s : State) (k n : Nat) : State :=
  { s with hl := { s.hl with devCounts := bumpWord s.hl.devCounts k n } }

/-- Field counters are numbered 8 f + k. -/
def addField (s : State) (f k n : Nat) : State :=
  { s with hl := { s.hl with fieldCounts := bumpWord s.hl.fieldCounts (8 * f + k) n } }

/-- Bank counters are numbered 16 b + k. -/
def addBank (s : State) (b k n : Nat) : State :=
  { s with hl := { s.hl with bankCounts := bumpWord s.hl.bankCounts (16 * b + k) n } }

/-- Memory-side unit counters are numbered 8 u + k. -/
def addUnit (s : State) (u k n : Nat) : State :=
  { s with hl := { s.hl with unitCounts := bumpWord s.hl.unitCounts (8 * u + k) n } }

/-! ### Free values -/

/-- The index of the next free value, and the state with it taken (log 3). -/
def takeFree (s : State) : Nat × State := (s.run.free, { s with run := { s.run with free := s.run.free + 1 } })

/-! ### Jobs -/

/-- A job put before all others: it is part of what the present step brings about. -/
def nextJob (s : State) (j : Job) : State := { s with run := { s.run with agenda := j :: s.run.agenda } }

def queueJob (s : State) (j : Job) : State := { s with run := { s.run with agenda := s.run.agenda ++ [j] } }

/-! ### Trap records (R48 to R53) -/

/-- A record handed to the trap arbiter. -/
def postRec (s : State) (r : TrapRec) : State := { s with tq := { s.tq with posters := s.tq.posters ++ [r] } }

/-- Its poster waits: the record is not yet taken, or not yet acknowledged (R50, R53). -/
def posterWaits (s : State) (p : Poster) : Bool :=
  s.tq.posters.any (fun r => r.poster == p) || s.tq.outstanding.any (fun o => o.2 == p)

def tqFull (s : State) : Bool :=
  !s.tq.en || s.tq.tail.toNat == (s.tq.head + BitVec.ofNat 32 (2 ^ s.tq.log2n.toNat - 1)).toNat

/-- TQ_STATUS.STALLED: a poster waits for space (R55). A record of kind 0x03 or 0x0F never waits for it (R50). -/
def tqStalled (s : State) : Bool := tqFull s && s.tq.posters.any (fun r => r.kind != 0x03 && r.kind != 0x0F)

/-- STAGE 7, READY: until then a host's writes are ignored (R472). -/
def ready (s : State) : Bool := s.mg.stage == 7

/-- A host's write of a register: ignored until READY (R472). -/
def hostSets (f : State → State) (s : State) : Host.Outcome State Fault Refusal := .next (if ready s then f s else s)

/-! ### The health unit's log (R439, R441) -/

def updHl (s : State) (f : Health → Health) : State := { s with hl := f s.hl }

/-- A record entered in the log under the next sequence number, and posted as kind 0x03. -/
def healthRecord (s : State) (src field x y : Nat) (node : Word) (payload : List (Nat × Nat × Nat)) : State :=
  let seq := s.hl.seq + 1
  let pay := payload ++ [(0x34, 4, seq.toNat)]
  let r : HealthRec := { kind := 3, src := src, field := field, x := x, y := y, node := node, seq := seq, payload := pay }
  let s1 := updHl s (fun h => { h with seq := seq, log := (h.log ++ [r]).drop (h.log.length + 1 - 64) })
  postRec s1 { kind := 3, field := field, src := src, x := x, y := y, node := node, payload := pay, poster := .none }

/-- An informational record: SRC 9, NOI, its INFO in L0 and L1. -/
def postInfo (s : State) (code l0 l1 : Nat) : State :=
  healthRecord s 9 0 0 0 0xFFFFFFFF#32
    [(0x10, 8, 128), (0x1A, 1, 255), (0x1B, 1, code), (0x20, 4, l0), (0x24, 4, l1)]

/-! ### Checks and injections (R437, R458) -/

/-- A context's unit acts. -/
def firesIn (c : CtxId) (j : Job) : Bool :=
  match j with
  | .fire d _ => d == c
  | .event _ => false

/-- A machine check raised inside a step: it is acted on before anything else but what its context's other units do in the same
cycle (R411, R438). -/
def raiseCheck (s : State) (k : Check) : State :=
  let l := s.run.agenda
  { s with run := { s.run with agenda := l.takeWhile (firesIn k.ctx) ++ .event (.machineCheck k) :: l.dropWhile (firesIn k.ctx) } }

/-- `n` operations of a unit counted against every armed injection there: the first that fires, and those still armed. -/
def injectHit (l : List Inject) (tkind x y : Nat) (node : Word) (n : Nat) : Option Inject × List Inject :=
  match l with
  | [] => (none, [])
  | j :: js =>
    let (h, js') := injectHit js tkind x y node n
    if j.tkind = tkind ∧ j.x = x ∧ j.y = y ∧ (j.node = node ∨ j.node = 0xFFFFFFFF#32) then
      if j.left ≤ n then (some j, js') else (h, { j with left := j.left - n } :: js')
    else (h, j :: js')

/-- The injections of a unit's `n` operations: what fires, and the state with the counts moved on. -/
def injectAt (s : State) (tkind x y : Nat) (node : Word) (n : Nat) : Option Inject × State :=
  if s.hl.inj.isEmpty then (none, s)
  else
    let (h, l) := injectHit s.hl.inj tkind x y node n
    (h, { s with hl := { s.hl with inj := l, injFired := s.hl.injFired || h.isSome } })

/-! ### Where a context runs -/

/-- The north-west site of a node's region. -/
def nodeOrigin (n : Node) : Nat × Nat :=
  match n.exec with
  | some (.region x y _ _) => (x, y)
  | _ => (0, 0)

/-- The field of a site (R5): four fields of 64 by 48 sites. -/
def siteField (x y : Nat) : Nat := x / 64 + 2 * (y / 48)

/-- The core a context runs on. -/
def ctxCore (s : State) (c : CtxId) : Option Nat :=
  match c with
  | .fw k _ => some k.val
  | .node id =>
    match (getNode s id).bind (·.exec) with
    | some (.core k) => some k
    | _ => none

/-- The field a context's instruction runs in. -/
def ctxField (s : State) (c : CtxId) (i : Nat) : Nat :=
  match ctxCore s c with
  | some k => k / 4
  | none =>
    match c with
    | .node id =>
      match getNode s id with
      | some n =>
        match n.win with
        | some w => siteField ((nodeOrigin n).1 + winDx w i) ((nodeOrigin n).2 + winDy w i)
        | none => 0
      | none => 0
    | .fw _ _ => 0

/-- The memory port through which a unit accesses memory: its site's, by row and column, or its core's (R198, R408). -/
def portOf (s : State) (c : CtxId) (i : Nat) : Nat :=
  match ctxCore s c with
  | some k => 12288 + k
  | none =>
    match c with
    | .node id =>
      match getNode s id with
      | some n => ((nodeOrigin n).2 + (n.win.map (winDy · i)).getD 0) * 128 + (nodeOrigin n).1 + (n.win.map (winDx · i)).getD 0
      | none => 0
    | .fw _ _ => 0

end Sys2Proof.Machine
end

