-- ==== Sys2Proof/Machine/Striping.lean ====
section
/-! DEFINITION. The striping code of the banks (R204, R205): codewords of six symbols over GF(2^8), their checks, and what the
banks' decoder makes of a received codeword. -/

namespace Sys2Proof.Machine

/-! ### GF(2^8) with x^8 + x^4 + x^3 + x^2 + 1 (R204) -/

/-- Multiplication by α = 0x02. -/
def gfDouble (a : Nat) : Nat := if a < 128 then 2 * a else Nat.xor (2 * a) 0x11D

/-- The product of two elements, by the low `n` bits of the second. -/
def gfMulBits : Nat → Nat → Nat → Nat
  | 0, _, _ => 0
  | n + 1, a, b => Nat.xor (if b % 2 = 1 then a else 0) (gfMulBits n (gfDouble a) (b / 2))

def gfMul (a b : Nat) : Nat := gfMulBits 8 a b

/-- α to the power `n`. -/
def gfAlpha : Nat → Nat
  | 0 => 1
  | n + 1 => gfDouble (gfAlpha n)

/-- The inverse of a non-zero element: its 254th power. -/
def gfInv (a : Nat) : Nat :=
  (List.range 7).foldl (fun (acc, p) _ => let q := gfMul p p; (gfMul acc q, q)) (1, a) |>.1

/-- The two sums of R204 over the symbols c0 to c5, or over a part of them under their own numbers: both 0 for a codeword. -/
def syndrome (c : List (Nat × Nat)) : Nat × Nat :=
  c.foldl (fun (s, t) (j, v) => (Nat.xor s v, Nat.xor t (gfMul v (gfAlpha j)))) (0, 0)

/-- The values of two symbols `i` and `j` that make both sums 0 with the sums `s` of the other symbols. -/
def solveTwo (i j : Nat) (s : Nat × Nat) : Nat × Nat :=
  let vj := gfMul (Nat.xor s.2 (gfMul s.1 (gfAlpha i))) (gfInv (Nat.xor (gfAlpha i) (gfAlpha j)))
  (Nat.xor s.1 vj, vj)

/-- The six symbols that store four data bytes (R204). -/
def stripe (d : List Nat) : List Nat :=
  let (c4, c5) := solveTwo 4 5 (syndrome (d.zipIdx.map (fun (v, j) => (j, v))))
  d ++ [c4, c5]

/-! ### Decoding (R205) -/

/-- What the decoder makes of a codeword: its data bytes as they stand, corrected in one symbol (with its layer), recovered
through marked layers, or that it is uncorrectable. -/
inductive Decoded where
  | clean (d : List Nat)
  | corrected (d : List Nat) (layer : Nat)
  | recovered (d : List Nat)
  | bad
  deriving DecidableEq, Repr

/-- A symbol of a codeword replaced. -/
def setSym (c : List Nat) (j v : Nat) : List Nat := c.zipIdx.map (fun (x, i) => if i = j then v else x)

/-- No layer marked: the one symbol whose change makes a codeword is corrected; where there is none the word is detected (two
or more errors, of which R205 leaves the outcome open; assumption log 11). -/
def decodeNone (c : List Nat) : Decoded :=
  let (s, t) := syndrome (c.zipIdx.map (fun (v, j) => (j, v)))
  if s = 0 ∧ t = 0 then .clean (c.take 4)
  else
    match (List.range 6).find? (fun j => s != 0 && gfMul s (gfAlpha j) == t) with
    | some j => .corrected ((setSym c j (Nat.xor (c.getD j 0) s)).take 4) j
    | none => .bad

/-- The marked symbols erased and computed from the others: one marked layer leaves a check, by which `errs` errors in the
unmarked symbols are found; two leave none (R205). -/
def decodeStripe (marks : List Nat) (errs : Nat) (c : List Nat) : Decoded :=
  let rest := (c.zipIdx.map (fun (v, j) => (j, v))).filter (fun p => !marks.elem p.1)
  match marks with
  | [] => decodeNone c
  | [i] => if errs = 0 then .recovered ((setSym c i (syndrome rest).1).take 4) else .bad
  | i :: j :: _ =>
    let (vi, vj) := solveTwo i j (syndrome rest)
    .recovered ((setSym (setSym c i vi) j vj).take 4)

/-! ### Lines -/

/-- The 68 bytes of a line's 17 codewords: its bytes, then the descriptor's, the poison byte and a zero byte (R204). -/
def stripeBytes (l : Line) : List Nat :=
  (List.range 64).map (fun i => l.data.toNat / 256 ^ i % 256) ++
    [l.desc.toNat % 256, l.desc.toNat / 256, if l.psn then 0xFF else 0, 0]

/-- Codeword `i` of a line. -/
def codeword (l : Line) (i : Nat) : List Nat := stripe (((stripeBytes l).drop (4 * i)).take 4)

/-- The data bytes of a decoded codeword. -/
def Decoded.bytes (d : Decoded) : List Nat :=
  match d with
  | .clean b => b
  | .corrected b _ => b
  | .recovered b => b
  | .bad => [0, 0, 0, 0]

/-- The line of 17 decoded codewords; a poison byte other than 0x00 is a poisoned line (assumption log 11). -/
def lineOfStripes (ds : List Decoded) : Line :=
  let b := ds.flatMap Decoded.bytes
  let num (l : List Nat) : Nat := l.foldr (fun x acc => x + 256 * acc) 0
  { data := BitVec.ofNat 512 (num (b.take 64)), desc := BitVec.ofNat 16 (num ((b.drop 64).take 2)),
    psn := b.getD 66 0 != 0 }

end Sys2Proof.Machine
end

