-- ==== Sys2Proof/Machine/Memory.lean ====
section
/-! DEFINITION. Global memory, translation, frames, and a context's view of memory: snapshot, stage, scratch and carry
words (05_banks.md, R56 to R59, R363). -/

namespace Sys2Proof.Machine

/-! ### Lines of memory

A line key is 2^60 times the target (0 HBM, 1 and 2 the hosts, 3 the channel pool) plus the block number. -/

def lineKey (tgt addr : Nat) : Nat := tgt * 2 ^ 60 + addr / 64

def keyTgt (k : Nat) : Nat := k / 2 ^ 60
def keyBlock (k : Nat) : Nat := k % 2 ^ 60

/-- The frame number PA[38:16] of an HBM line. -/
def keyFrame (k : Nat) : Nat := keyBlock k / 1024

def getFrame (s : State) (f : Nat) : Frame := mapGet Frame.init s.mem.frames f

def setFrame (s : State) (f : Nat) (v : Frame) : State :=
  { s with mem := { s.mem with frames := mapSet Frame.init s.mem.frames f v } }

/-- Frames that exist: 786,240 of each stack (R199). -/
def frameExists (f : Nat) : Bool := decide (f % 2 ^ 20 < 786240) && decide (f < 2 ^ 23)

/-- A physical address inside HBM proper, the frame tables left out. -/
def paExists (pa : Nat) : Bool := decide (pa < 2 ^ 39) && frameExists (pa / 65536)

/-- Retired frames, frames of a pseudo-channel or stack taken out of service (R451, R455). -/
def frameGone (s : State) (f : Nat) : Bool := (getFrame s f).state == 3

/-- A line of a memory-side frame (R363). -/
def isMs (s : State) (k : Nat) : Bool := keyTgt k == 0 && (getFrame s (keyFrame k)).ms

/-- The memory-side unit of a frame (R361). -/
def unitOf (k : Nat) : Nat :=
  let pa := keyBlock k * 64
  128 * (pa / 2 ^ 36 % 8) + (Nat.xor (pa / 2 ^ 16 % 128) (pa / 2 ^ 23 % 128))

/-- The bank of a superblock of the channel pool (R175): pool banks are the sites with (sx + sy) mod 3 = 0, row by row. -/
def poolBank (sb : Nat) : Nat :=
  let p := sb % 4096
  let g := p / 128
  let r := p % 128
  if r < 43 then 384 * g + 3 * r else if r < 85 then 384 * g + 128 + (3 * (r - 43) + 2) else 384 * g + 256 + (3 * (r - 85) + 1)

/-- The bank that holds a line on the die: its home bank (R174), or its pool bank (R175). -/
def homeBank (k : Nat) : Nat :=
  if keyTgt k = 3 then poolBank (keyBlock k / 4)
  else
    let s := keyBlock k / 4 % 2 ^ 31
    Nat.xor (Nat.xor s (s / 2 ^ 14)) (s / 2 ^ 28) % 12288

def backing (s : State) (k : Nat) : Store :=
  match keyTgt k with
  | 0 => s.mem.hbm
  | 1 => s.mem.host0
  | 2 => s.mem.host1
  | _ => s.chu.pool

def setBacking (s : State) (k : Nat) (m : Store) : State :=
  match keyTgt k with
  | 0 => { s with mem := { s.mem with hbm := m } }
  | 1 => { s with mem := { s.mem with host0 := m } }
  | 2 => { s with mem := { s.mem with host1 := m } }
  | _ => { s with chu := { s.chu with pool := m } }

/-- A stack that answers no more: lost, or switched off (R451, R455). -/
def stackGone (s : State) (k : Nat) : Bool := setHas s.mem.stacksLost k || setHas s.mem.stacksOff k

/-- The coherent value of a line (R176): its dirty copy in the home ways, else its backing store. A line of a lost
stack reads as poisoned (R455). -/
def peekLine (s : State) (k : Nat) : Line :=
  if keyTgt k = 0 ∧ stackGone s (keyBlock k / 2 ^ 30) then { Line.zero with psn := true }
  else
    match mapFind s.mem.dirty k with
    | some l => l
    | none => (backing s k).readLine (keyBlock k)

/-- One request to a host fails (R468): it was to time out, or the port's link is down, which HP_ERR counts. -/
def hostFails (h : HostPort) : Bool × HostPort :=
  if h.failing ≠ 0 then (true, { h with failing := h.failing - 1 })
  else if h.linkUp then (false, h)
  else (true, { h with err := h.err + 1 })

/-- A line's request on a host port; HBM and the pool never fail. -/
def hostRequest (s : State) (k : Nat) : Bool × State :=
  match keyTgt k with
  | 1 =>
    let (f, h) := hostFails s.hp0
    (f, { s with hp0 := h })
  | 2 =>
    let (f, h) := hostFails s.hp1
    (f, { s with hp1 := h })
  | _ => (false, s)

/-! ### Soft errors (R204, R205, R366) -/

/-- Marked layers of a bank. -/
def bankMarks (s : State) (b : Nat) : BitVec 6 := mapGet 0 s.mem.marks b

def markList (m : BitVec 6) : List Nat := (List.range 6).filter (fun i => m.getLsbD i)

def markCount (m : BitVec 6) : Nat := (markList m).length

/-- The corrupted symbols of a line in the banks: codeword, layer, flip. -/
def softOf (s : State) (k : Nat) : List (Nat × Nat × Byte) :=
  s.mem.soft.filterMap (fun e => if e.block = k then
    match e.err with
    | .sram _ cw ly f => some (cw.val, ly.val, f)
    | _ => none
  else none)

def isSram (e : Soft) : Bool :=
  match e.err with
  | .sram .. => true
  | _ => false

def isHbm (e : Soft) : Bool :=
  match e.err with
  | .hbm .. => true
  | _ => false

/-- A line's errors gone: those in the banks, those in HBM, or both. -/
def dropSoft (s : State) (k : Nat) (sram hbm : Bool) : State :=
  { s with mem := { s.mem with soft := s.mem.soft.filter (fun e => e.block != k || !((isSram e && sram) || (isHbm e && hbm))) } }

def clearSoft (s : State) (k : Nat) : State := dropSoft s k true true

/-- Corrected errors counted in a line's frame; the frame's count may reach HL_CETHR (R441, CODE 0x45). -/
def addCe (s : State) (k n : Nat) : State :=
  if keyTgt k = 0 then
    let f := getFrame s (keyFrame k)
    let ce := min (f.ce.toNat + n) (2 ^ 32 - 1)
    let s1 := setFrame s (keyFrame k) { f with ce := BitVec.ofNat 32 ce }
    if f.ce.toNat < s.hl.ceThr.toNat ∧ s.hl.ceThr.toNat ≤ ce then queueJob s1 (.event (.ceThreshold (keyFrame k))) else s1
  else s

/-- A corrected symbol of a bank's layer; at the 256th the health unit marks the layer (R451). -/
def addSymbol (s : State) (b : Nat) (ly : Fin 6) : State :=
  let n := mapGet 0 s.hl.layerCounts (8 * b + ly.val) + 1
  let s1 := addBank s b (4 + ly.val) 1
  let s2 := { s1 with hl := { s1.hl with layerCounts := mapSet 0 s1.hl.layerCounts (8 * b + ly.val) n } }
  if n = 256 then queueJob s2 (.event (.layerAutoMark (Fin.ofNat 12288 b) ly)) else s2

/-- A codeword of a line with its corrupted symbols, as the decoder of a bank with marks `m` takes it (R205). -/
def decodeWith (m : BitVec 6) (errs : List (Nat × Nat × Byte)) (l : Line) (cw : Nat) : Decoded :=
  let here := errs.filter (fun e => e.1 == cw)
  let c := here.foldl (fun c e => setSym c e.2.1 (Nat.xor (c.getD e.2.1 0) e.2.2.toNat)) (codeword l cw)
  decodeStripe (markList m) (here.filter (fun e => !m.getLsbD e.2.1)).length c

/-- The counts of a read of bank `b` raised: codewords recovered through a marked layer, corrected codewords and the layers
of their symbols (R453). -/
def countDecoded (s : State) (k b : Nat) (ds : List Decoded) : State :=
  let lys := ds.filterMap (fun d => match d with | .corrected _ j => some j | _ => none)
  let rec_ := (ds.filter (fun d => match d with | .recovered _ => true | _ => false)).length
  let s1 := if rec_ = 0 then s else addBank s b 1 rec_
  if lys.isEmpty then s1
  else addCe (lys.foldl (fun t j => addSymbol t b (Fin.ofNat 6 j)) (addBank s1 b 0 lys.length)) k lys.length

/-- What bank `b`'s decoder returns of a line with the corrupted symbols `errs` (R205), the counts raised. An uncorrectable
codeword makes the line poisoned, its other content unchanged. -/
def decodeAt (s : State) (k b : Nat) (errs : List (Nat × Nat × Byte)) (l : Line) : Line × State :=
  let m := bankMarks s b
  if errs.isEmpty && m == 0 then (l, s)
  else
    let ds := (List.range 17).map (decodeWith m errs l)
    if ds.elem .bad then ({ l with psn := true }, addBank s b 2 1)
    else (if errs.isEmpty then l else lineOfStripes ds, countDecoded s k b ds)

/-! ### Home ways (R172 to R176) -/

/-- Blocks moved to or from HBM (R392). -/
def noteHbm (s : State) (n : Nat) : State := { s with pwr := { s.pwr with moved := s.pwr.moved + n } }

/-- A superblock's name: target and address / 256. -/
def sbOf (k : Nat) : Nat := keyTgt k * 2 ^ 60 + keyBlock k / 4

/-- A pool bank (R175): three of its home ways serve as L2. -/
def isPoolBank (b : Nat) : Bool := (b % 128 + b / 128) % 3 == 0

/-- The home set of a line: 64 for each bank; and its ways. -/
def homeSet (k : Nat) : Nat := homeBank k * 64 + keyBlock k / 4 % 64

def homeWays (k : Nat) : Nat := if isPoolBank (homeBank k) then 3 else 4

def getWays (s : State) (set : Nat) : List HomeWay := mapGet [] s.mem.ways set

def setWays (s : State) (set : Nat) (l : List HomeWay) : State :=
  { s with mem := { s.mem with ways := mapSet [] s.mem.ways set l } }

/-- The line's bit in its superblock's entry. -/
def lineBit (k : Nat) : BitVec 4 := BitVec.ofNat 4 (2 ^ (keyBlock k % 4))

/-- A line is valid in its home ways. -/
def resident (s : State) (k : Nat) : Bool :=
  (getWays s (homeSet k)).any (fun w => w.sb == sbOf k && w.valid &&& lineBit k != 0)

/-- The lines of a superblock. -/
def sbLines (sb : Nat) : List Nat := (List.range 4).map (fun j => sb / 2 ^ 60 * 2 ^ 60 + sb % 2 ^ 60 * 4 + j)

/-- A dirty line in its home ways, or a dirty block in its unit's buffer. -/
def setDirty (s : State) (k : Nat) (l : Line) : State := { s with mem := { s.mem with dirty := mapPut s.mem.dirty k l } }

/-- The dirty line of the home ways; a memory-side frame's block lies in none (R363). -/
def dirtyWay (s : State) (k : Nat) : Option Line := if isMs s k then none else mapFind s.mem.dirty k

/-- A dirty line written back to its backing store, as its bank returns it; it stays valid and clean (R176, R191). A failed
write to a host is lost (R468). A memory-side frame's block is its unit's, and stays in its buffer (R192, R363). -/
def writeBack (s : State) (k : Nat) : State :=
  match dirtyWay s k with
  | none => s
  | some l =>
    let (l1, s0) := decodeAt { s with mem := { s.mem with dirty := mapErase s.mem.dirty k } } k (homeBank k) (softOf s k) l
    match hostRequest (dropSoft s0 k true true) k with
    | (true, s1) => s1
    | (false, s1) => noteHbm (setBacking s1 k ((backing s1 k).writeLine (keyBlock k) l1)) (if keyTgt k = 0 then 1 else 0)

/-- A superblock evicted: its dirty lines written back in one group, its clean ones dropped (R173). -/
def evictSb (s : State) (set sb : Nat) : State :=
  let s1 := (sbLines sb).foldl (fun t k => dropSoft (writeBack t k) k true false) s
  setWays s1 set ((getWays s1 set).filter (fun w => w.sb != sb))

/-- The least recently used entry that is not locked (R173, R193). -/
def victim (s : State) (l : List HomeWay) : Option Nat :=
  (l.reverse.find? (fun w => !s.mem.locked.elem w.sb)).map (·.sb)

/-- A line entered in its home ways, valid and the most recently used; where its set is full the least recently used entry
goes. -/
def enterWay (s : State) (k : Nat) : State :=
  let set := homeSet k
  let ws := getWays s set
  match ws.find? (fun w => w.sb == sbOf k) with
  | some w => setWays s set ({ w with valid := w.valid ||| lineBit k } :: ws.filter (fun v => v.sb != sbOf k))
  | none =>
    let s1 := if ws.length < homeWays k then s
      else match victim s ws with
        | some sb => evictSb s set sb
        | none => s
    setWays s1 set ({ sb := sbOf k, valid := lineBit k } :: getWays s1 set)

/-- A dirty block of a unit's buffer written back to its pseudo-channel, over what stood there (R362). -/
def drainBlock (s : State) (k : Nat) : State :=
  match mapFind s.mem.dirty k with
  | none => s
  | some l =>
    let s1 := dropSoft { s with mem := { s.mem with dirty := mapErase s.mem.dirty k } } k false true
    noteHbm (setBacking s1 k ((backing s1 k).writeLine (keyBlock k) l)) 1

/-- A block taken into its unit's buffer, where it is the most recently operated; the 33rd is evicted (R362). -/
def enterBuffer (s : State) (k : Nat) : State :=
  let l := mapGet [] s.mem.buffers (unitOf k)
  let rest := l.filter (fun x => x != k)
  let s1 := if l.elem k then s else noteHbm s 1
  let s2 := match rest[31]? with
    | some v => drainBlock s1 v
    | none => s1
  { s2 with mem := { s2.mem with buffers := mapSet [] s2.mem.buffers (unitOf k) ((k :: rest).take 32) } }

/-- A line's old value kept in a list of kept lines, unless one is kept already. -/
def keepOnce (k : Nat) (l : Line) (m : List (Nat × Line)) : List (Nat × Line) :=
  match mapFind m k with
  | some _ => m
  | none => mapPut m k l

/-- A command that reads only what was committed before it started, and that has not completed (R61). -/
def acquires (x : Cmd) : Bool := x.order.acq && x.started && x.doneAt.isNone

/-- Commands of the shuttle that keep a line as it was. -/
def keepCmds (s : State) (k : Nat) (l : Line) : State :=
  if s.sh.cmds.any acquires then
    { s with sh := { s.sh with cmds := s.sh.cmds.map (fun x => if acquires x then { x with kept := keepOnce k l x.kept } else x) } }
  else s

/-- A SIGCHK that keeps a line as it was. -/
def keepSig (s : State) (k : Nat) (l : Line) : State :=
  match s.fw.sig with
  | some r => if r.acq then { s with fw := { s.fw with sig := some { r with kept := keepOnce k l r.kept } } } else s
  | none => s

/-- A line is about to change: commands under `.acq` keep what it held (R61, R313, R319). -/
def keepOld (s : State) (k : Nat) : State := keepSig (keepCmds s k (peekLine s k)) k (peekLine s k)

/-- What a waiter sees of a line's new value: the first value that meets its target. -/
def Waiter.see (w : Waiter) (k : Nat) (l : Line) : Waiter :=
  let v := lineNat l.data w.ofs 8
  if w.key = k ∧ w.seen.isNone ∧ !l.psn ∧ w.target ≤ v then { w with seen := some v } else w

/-- A counter's home bank or unit notifies the ports of each change (R230, R363). -/
def tellWaiters (s : State) (k : Nat) (l : Line) : State := { s with mem := { s.mem with waits := s.mem.waits.map (fun w => w.see k l) } }

/-- A line written: in its home ways, dirty; in the pool; or in the buffer of a memory-side frame's unit, dirty. -/
def storeLine (s : State) (k : Nat) (l : Line) : State :=
  if isMs s k then setDirty (enterBuffer s k) k l
  else if keyTgt k == 3 then setBacking s k ((backing s k).writeLine (keyBlock k) l)
  else setDirty (enterWay s k) k l

/-- A line's committed value changed: what must know of it is told, and the line is stored. -/
def pokeLine (s : State) (k : Nat) (l : Line) : State := storeLine (tellWaiters (keepOld s k) k l) k l


/-- A block as HBM's on-die code returns it (R366): with an error it corrects, counted; or one it does not, poisoned. The
poison of a memory-side block stands in its unit's buffer. -/
def hbmRead (s : State) (k : Nat) : Line × State :=
  let l := peekLine s k
  let has (c : Bool) : Bool := s.mem.soft.any (fun e => e.block == k && match e.err with | .hbm _ x => x == c | _ => false)
  if has false then
    let s1 := addUnit (dropSoft s k false true) (unitOf k) 2 1
    ({ l with psn := true },
      if isMs s1 k then setDirty s1 k { l with psn := true }
      else setBacking s1 k ((backing s1 k).writeLine (keyBlock k) { l with psn := true }))
  else if has true then (l, addUnit (addCe (dropSoft s k false true) k 1) (unitOf k) 1 1)
  else (l, s)

/-- A line filled into its home ways from HBM or a host (R173). A failed read of a host's memory is poisoned, and fills
nothing (R468). -/
def fillWay (s : State) (k : Nat) : Line × State :=
  match hostRequest s k with
  | (true, s1) => ({ Line.zero with psn := true }, s1)
  | (false, s1) =>
    let (l, s2) := if keyTgt k = 0 then hbmRead (noteHbm s1 1) k else (peekLine s1 k, s1)
    (l, enterWay s2 k)

/-- A codeword of a line with the corrupted symbols `errs` in bank `b` is uncorrectable (R205). -/
def uncorrectable (s : State) (b : Nat) (errs : List (Nat × Nat × Byte)) (l : Line) : Bool :=
  ((List.range 17).map (decodeWith (bankMarks s b) errs l)).elem .bad

/-- A line read where it stands in a bank, with its errors; a corrected line is written back corrected, and the stored content
of an uncorrectable one stays (R205). -/
def bankRead (s : State) (k : Nat) : Line × State :=
  let l := peekLine s k
  let errs := softOf s k
  let (l1, s1) := decodeAt s k (homeBank k) errs l
  if errs.isEmpty || uncorrectable s (homeBank k) errs l then (l1, s1)
  else
    let s2 := dropSoft s1 k true false
    (l1, if keyTgt k == 3 then setBacking s2 k ((backing s2 k).writeLine (keyBlock k) l1)
      else if l1 = l then s2
      else setDirty s2 k l1)

/-- The line as a read at its point of coherence returns it: at the unit of a memory-side frame, in its home ways, where it is
filled if it is absent, or in the pool. -/
def readLine (s : State) (k : Nat) : Line × State :=
  if isMs s k then
    let (l, s1) := if (mapGet [] s.mem.buffers (unitOf k)).elem k then (peekLine s k, s) else hbmRead s k
    (l, enterBuffer s1 k)
  else if keyTgt k == 3 then bankRead s k
  else if resident s k then bankRead (enterWay s k) k
  else fillWay s k

/-- The home-way lines of a range dropped, and the errors in them; the entries left without a line go. A locked superblock's
stay (R191) unless `all`. -/
def dropWays (s : State) (all : Bool) (k n : Nat) : State :=
  let inRange (x : Nat) : Bool := decide (k ≤ x) && decide (x < k + n)
  let kept (w : HomeWay) : HomeWay :=
    if !all && s.mem.locked.elem w.sb then w
    else { w with valid := (sbLines w.sb).foldl (fun v x => if inRange x then v &&& ~~~(lineBit x) else v) w.valid }
  { s with mem := { s.mem with
    ways := s.mem.ways.filterMap (fun p =>
      let l := (p.2.map kept).filter (fun w => w.valid != 0)
      if l.isEmpty then none else some (p.1, l))
    soft := s.mem.soft.filter (fun e => !(isSram e && inRange e.block && (all || !s.mem.locked.elem (sbOf e.block)))) } }

/-- A SUBST descriptor: its format code; it may hold any scale byte (R102). -/
def isSubst (d : Desc) : Bool := d.toNat % 256 == 0x7E

/-- A masked write merged into a line (R96, R97, R205): a whole block replaces it and its poison; a part of a SUBST
block leaves the bytes not written zero under RAW; the descriptor changes only with a descriptor. -/
def mergeLine (old : Line) (mask : BitVec 64) (data : Bits512) (desc : Option Desc) : Line :=
  let m := maskBits mask
  let was := if isSubst old.desc then 0 else old.data
  let merged := (was &&& ~~~m) ||| (data &&& m)
  { data := merged,
    desc := match desc with
      | some d => d
      | none => if isSubst old.desc then 0 else old.desc,
    psn := old.psn && mask != BitVec.allOnes 64 }

/-- A write of a line at its point of coherence; an earlier corruption of a line wholly replaced is gone. -/
def writeLine (s : State) (k : Nat) (mask : BitVec 64) (data : Bits512) (desc : Option Desc) : State :=
  if mask = BitVec.allOnes 64 then pokeLine (clearSoft s k) k (mergeLine (peekLine s k) mask data desc)
  else
    let (l, s1) := readLine s k
    pokeLine s1 k (mergeLine l mask data desc)

/-! ### Translation (R196 to R198, R414) -/

/-- Where an address leads. -/
inductive Place where
  /-- A byte of HBM or of a host's memory: target and address; the page may be written. -/
  | at (tgt addr : Nat) (writable : Bool)
  /-- A byte of the active firmware bank, read only (R414); from 2^22 on, of the staged bank that becomes it (R434). -/
  | bank (off : Nat)
  /-- No valid translation, with the cause of R198. -/
  | fail (cause : Nat)
  deriving DecidableEq, Repr

/-- Bits [63:55] equal bit 54 (R38). -/
def canonical (va : Dword) : Bool := va.toNat / 2 ^ 54 == 0 || va.toNat / 2 ^ 54 == 1023

/-- The node id of an access that no node's port or command makes. -/
def noUnitNode : Word := 0xFFFFFFFF#32

/-- A request that arrives at a unit: whether it finds the operation queue full is a matter of cycles (R365), so a free value
says whether the unit counts a stall (R362, assumption log 77). It takes effect at once, so no request stands in the queue. -/
def unitArrive (s : State) (u : Nat) : State :=
  let (n, s1) := takeFree s
  addUnit (addUnit s1 u 4 (b2n (Config.unitQueueFull n))) u 0 1

/-- An operation of the unit of a memory-side line, counted (R362); true when an injected residue mismatch suppresses it (R368,
R458). -/
def unitOp (s : State) (node : Word) (k : Nat) : Bool × State :=
  let u := unitOf k
  match injectAt (unitArrive s u) 5 (u % 128) (u / 128) node 1 with
  | (some _, s1) => (true, addUnit s1 u 3 1)
  | (none, s1) => (false, s1)

/-- An access to a line by an engine, a host or a peer. At a memory-side frame it is an operation of the unit, performed once
more after a mismatch; false after a second one, which the health unit counts and tells (R368, R441). -/
def unitTry (s : State) (node : Word) (k : Nat) : Bool × State :=
  if !isMs s k then (true, s)
  else
    match unitOp s node k with
    | (false, s1) => (true, s1)
    | (true, s1) =>
      match unitOp s1 node k with
      | (false, s2) => (true, s2)
      | (true, s2) => (false, postInfo (addDev s2 13 1) 0x46 6 (unitOf k))

/-- A line read by an engine, a host or a peer: poison after a second mismatch. -/
def unitRead (s : State) (node : Word) (k : Nat) : Line × State :=
  match unitTry s node k with
  | (true, s1) => readLine s1 k
  | (false, s1) => ({ Line.zero with psn := true }, s1)

/-- A write of a line by an engine, a host or a peer: nothing is written after a second mismatch. -/
def unitWrite (s : State) (node : Word) (k : Nat) (go : State → State) : State :=
  match unitTry s node k with
  | (true, s1) => go s1
  | (false, s1) => s1

/-- A table entry at a physical address; none when it reads as poison. -/
def readEntry (s : State) (pa : Nat) : Option Nat × State :=
  let (l, s1) := unitRead s noUnitNode (lineKey 0 pa)
  (if l.psn then none else some (lineNat l.data (pa % 64) 8), s1)

/-- Result of a walk: a leaf entry with its level's page size in bits, or a cause. -/
inductive Walk where
  | leaf (entry size : Nat)
  | bad (cause : Nat)
  deriving DecidableEq, Repr

def entryReserved (e : Nat) : Bool := bits e 15 5 != 0 || bits e 4 3 == 3
def entryFn (e : Nat) : Nat := bits e 63 16
def entryTgt (e : Nat) : Nat := bits e 4 3

/-- A pointer or leaf's HBM address lies in the frames. -/
def fnExists (e : Nat) : Bool := entryTgt e != 0 || (decide (entryFn e < 2 ^ 23) && frameExists (entryFn e))

/-- The walk of R196 from a table at frame `fn`, `level` 1 to 3, with the causes of R198. -/
def walkFrom (va : Nat) : Nat → Nat → Nat → State → Walk × State
  | 0, _, _, s => (.bad 3, s)
  | k + 1, level, fn, s =>
    let idx := if level = 1 then bits va 54 42 else if level = 2 then bits va 41 29 else bits va 28 16
    match readEntry s (fn * 65536 + idx * 8) with
    | (none, s1) => (.bad 5, s1)
    | (some e, s1) =>
      if !bit e 0 then (.bad 1, s1)
      else if entryReserved e || !fnExists e then (.bad 3, s1)
      else if bit e 1 then
        if level = 1 then (.bad 3, s1)
        else if level = 2 then (if entryFn e % 2 ^ 13 = 0 then (.leaf e 29, s1) else (.bad 3, s1))
        else (.leaf e 16, s1)
      else if level = 3 || entryTgt e != 0 then (.bad 3, s1)
      else walkFrom va k (level + 1) (entryFn e) s1

/-- A leaf entry for a page of 64 KiB: a large page's leaf moved to the page. -/
def pageEntry (va e size : Nat) : Nat :=
  if size = 16 then e else e + bits va 28 16 * 65536

/-- Entries of a TLB: 8,192 of a field's, 16 of a port's micro-TLB (R198, R408). -/
def tlbSize : Nat := 8192
def microSize : Nat := 16

/-- The entry of a TLB that covers a page. -/
def tlbFind (l : List TlbEntry) (page : Nat) : Option TlbEntry :=
  l.find? (fun t => if t.large then t.page == page / 2 ^ 13 * 2 ^ 13 else t.page == page)

/-- A leaf kept in a TLB; in a full one it takes the place of a freely chosen entry (the manual names none; log 43). -/
def tlbKeep (size i : Nat) (l : List TlbEntry) (t : TlbEntry) : List TlbEntry :=
  if l.length < size then t :: l else t :: l.eraseIdx (Config.tlbVictim i % size)

/-- The leaf entry for a page, out of a TLB entry. -/
def tlbPage (t : TlbEntry) (page : Nat) : Nat := t.entry.toNat + (if t.large then page % 2 ^ 13 * 65536 else 0)

/-- Where a walk is looked up and kept: the field, and the port whose micro-TLB comes first. -/
structure TlbAt where
  field : Nat
  port : Option Nat
  deriving DecidableEq, Repr

/-- A leaf in the micro-TLB of the port, if it has one, or in the field's. -/
def tlbLook (s : State) (w : TlbAt) (page : Nat) : Option TlbEntry :=
  match w.port.bind (fun p => tlbFind (mapGet [] s.xl.micro p) page) with
  | some t => some t
  | none => tlbFind (nth [] s.xl.tlb w.field) page

/-- A leaf kept in the field's TLB, and one kept in the port's. -/
def keepField (s : State) (w : TlbAt) (t : TlbEntry) : State :=
  let (i, s1) := takeFree s
  { s1 with xl := { s1.xl with tlb := modNth (fun l => tlbKeep tlbSize i l t) s1.xl.tlb w.field } }

def keepMicro (s : State) (w : TlbAt) (t : TlbEntry) : State :=
  match w.port with
  | none => s
  | some p =>
    let (i, s1) := takeFree s
    { s1 with xl := { s1.xl with micro := mapSet [] s1.xl.micro p (tlbKeep microSize i (mapGet [] s1.xl.micro p) t) } }

/-- A leaf found in a field's TLB is kept in the port's too. -/
def tlbHit (s : State) (w : TlbAt) (page : Nat) (t : TlbEntry) : State :=
  if (w.port.map (fun p => (tlbFind (mapGet [] s.xl.micro p) page).isNone)).getD false then keepMicro s w t else s

/-- The leaf of a canonical VA's page: from a TLB, or walked and kept there (R198). A page of a large page beyond the frames
has none. -/
def leafAtTlb (w : TlbAt) (s : State) (va : Dword) : Walk × State :=
  let page := bits va.toNat 54 16
  let leaf (e : Nat) (s : State) : Walk × State := if fnExists e then (.leaf e 16, s) else (.bad 3, s)
  if !s.xl.en then (.bad 6, s)
  else if !canonical va then (.bad 1, s)
  else
    match tlbLook s w page with
    | some t => leaf (tlbPage t page) (tlbHit s w page t)
    | none =>
      match walkFrom va.toNat 3 1 s.xl.root.toNat s with
      | (.leaf e size, s1) =>
        let t : TlbEntry := { page := if size = 16 then page else page / 2 ^ 13 * 2 ^ 13, entry := BitVec.ofNat 64 e, large := size != 16 }
        leaf (pageEntry va.toNat e size) (keepMicro (keepField s1 w t) w t)
      | (.bad c, s1) => (.bad c, s1)

/-- Translation of a global VA through the TLBs at `w`, for a write when `wr` (R198). -/
def translateAt (w : TlbAt) (s : State) (va : Dword) (wr : Bool) : Place × State :=
  match leafAtTlb w s va with
  | (.bad c, s1) => (.fail c, s1)
  | (.leaf e _, s1) =>
    let addr := entryFn e * 65536 + va.toNat % 65536
    if wr && !bit e 2 then (.fail 2, s1)
    else if entryTgt e == 0 && frameGone s1 (entryFn e) then (.fail 4, s1)
    else (.at (entryTgt e) addr (bit e 2), s1)

/-- Translation for a unit of the device that is no port: the manual does not say through which field's TLB; the model takes
field 0's (assumption log 43). -/
def translate (s : State) (va : Dword) (wr : Bool) : Place × State := translateAt { field := 0, port := none } s va wr

/-- The TLBs of an access of context `c`: those of the unit in focus, if one is; else of the context's field. -/
def tlbOf (s : State) (c : CtxId) : TlbAt :=
  match s.run.focus with
  | some (c1, i) => { field := ctxField s c1 i, port := some (portOf s c1 i) }
  | none => { field := ctxField s c 0, port := none }

/-- A firmware address (R414): physical, in the active bank, or nothing. -/
def fwPlace (va : Dword) (wr : Bool) : Place :=
  let a := va.toNat
  if a / 2 ^ 55 ≠ 0 then .fail 1
  else if a / 2 ^ 39 = 0 then (if paExists a then .at 0 a true else .fail 1)
  else if a / 2 ^ 22 = 2 ^ 33 - 1 then (if wr then .fail 2 else .bank (a % 2 ^ 22))
  else .fail 1

/-- A core that has switched to the new bank before the swap's end (R434). -/
def hasSwitched (s : State) (k : Nat) : Bool := s.fw.swapping && !s.fw.toSwitch.elem k

/-- The bank that a core fetches from. -/
def coreBank (s : State) (k : Nat) : Store := if hasSwitched s k then s.fw.staged else s.fw.active

/-- Where an address of a context leads. -/
def resolve (s : State) (c : CtxId) (va : Dword) (wr : Bool) : Place × State :=
  match c with
  | .node _ => translateAt (tlbOf s c) s va wr
  | .fw k _ =>
    match fwPlace va wr with
    | .bank o => (.bank (if hasSwitched s k.val then o + 2 ^ 22 else o), s)
    | p => (p, s)

/-- The line that a place lies in; the bytes of a firmware bank change under no line's key. -/
def placeKey : Place → Nat
  | .at tgt a _ => lineKey tgt a
  | _ => 2 ^ 64

/-- The line at a place. -/
def placeLine (s : State) (p : Place) : Line × State :=
  match p with
  | .at t a _ => readLine s (lineKey t a)
  | .bank o => ((if o < 2 ^ 22 then s.fw.active.readLine (o / 64) else s.fw.staged.readLine ((o - 2 ^ 22) / 64)), s)
  | .fail _ => ({ Line.zero with psn := true }, s)

/-- The line at a place as an engine, a host or a peer reads it. -/
def unitLine (s : State) (node : Word) (p : Place) : Line × State :=
  match p with
  | .at t a _ => unitRead s node (lineKey t a)
  | p => placeLine s p

/-- The check of an injection at a memory-side unit that an access of a node's port or boundary meets (R368, R440): the observed
residue is the predicted one plus 1 (R458). -/
def unitOpCheck (s : State) (c : CtxId) (idx : Option Nat) (k r : Nat) : Check :=
  let u := unitOf k
  let pa := keyBlock k * 64
  { ctx := c, src := 6, field := Fin.ofNat 4 (ctxField s c (idx.getD 0)), x := u % 128, y := u / 128, idx := idx, lane := 255,
    code := 0x01, exp := Fin.ofNat 16 (r % 7), obs := Fin.ofNat 16 ((r + 1) % 7), l0 := BitVec.ofNat 32 pa, l1 := BitVec.ofNat 32 (pa / 2 ^ 32),
    l2 := mapGet 0 s.hl.unitCounts (8 * u), l3 := 0, loc := 0, inj := true }

/-- An access of a node's port, or of its boundary when `idx` is none: false when its unit's residues do not match, and a
machine check of the node is raised (R368). -/
def portOp (s : State) (c : CtxId) (idx : Option Nat) (k : Nat) : Bool × State :=
  if !isMs s k then (true, s)
  else
    match unitOp s (ctxNode c) k with
    | (false, s1) => (true, s1)
    | (true, s1) =>
      let (n, s2) := takeFree s1
      (false, raiseCheck s2 (unitOpCheck s2 c idx k (Config.unitResidue n)))

/-- The line at a place as the port of the unit in focus reads it; none when a machine check suppresses the read. -/
def portLine (s : State) (c : CtxId) (p : Place) : Option Line × State :=
  match p with
  | .at t a _ =>
    match portOp s c (s.run.focus.map (·.2)) (lineKey t a) with
    | (true, s1) => let (l, s2) := readLine s1 (lineKey t a); (some l, s2)
    | (false, s1) => (none, s1)
  | p => let (l, s1) := placeLine s p; (some l, s1)

def placeMs (s : State) (p : Place) : Bool :=
  match p with
  | .at t a _ => isMs s (lineKey t a)
  | _ => false

/-! ### A context's ways (R177, R178, R412) -/

/-- The footprint's banks: WS × HS for a region, one for a core. -/
def footBanks (s : State) (c : CtxId) : Nat :=
  match ctxCore s c with
  | some _ => 1
  | none => match getWin s c with
    | some w => max 1 (winWs w * winHs w)
    | none => 1

/-- Bank and set of a global superblock and of a scratch unit of 256 bytes (R177). -/
def globalSlot (b sb : Nat) : Nat × Nat := (sb % b, sb / b % 64)
def scratchSlot (b u : Nat) : Nat × Nat := (u % b, u / b % 64)

def dedupNat (l : List Nat) : List Nat := l.foldl setInsert []

/-- The superblock of a global block's VA, and of a scratch offset. -/
def sbG (blk : Nat) : Nat := blk / 256 % 2 ^ 47
def sbS (ofs : Nat) : Nat := ofs / 256

/-- Entries in use in one set: global superblocks, scratch superblocks and the carry words' entry. -/
def setUse (m : CtxMem) (b : Nat) (bs : Nat × Nat) : Nat :=
  (m.entG.filter (fun x => globalSlot b x == bs)).length + (m.entS.filter (fun x => scratchSlot b x == bs)).length
    + (if m.entW && bs == (0, 0) then 1 else 0)

def holdsG (m : CtxMem) (blk : Nat) : Bool := m.entG.elem (sbG blk)

def holdsS (m : CtxMem) (ofs : Nat) : Bool := m.entS.elem (sbS ofs)

/-- An entry can be had for a global block, a scratch block or the carry words (R178). -/
def roomG (s : State) (c : CtxId) (m : CtxMem) (blk : Nat) : Bool :=
  holdsG m blk || decide (setUse m (footBanks s c) (globalSlot (footBanks s c) (sbG blk)) < m.wr)

def roomS (s : State) (c : CtxId) (m : CtxMem) (ofs : Nat) : Bool :=
  holdsS m ofs || decide (setUse m (footBanks s c) (scratchSlot (footBanks s c) (sbS ofs)) < m.wr)

def roomW (s : State) (c : CtxId) (m : CtxMem) : Bool :=
  m.entW || decide (setUse m (footBanks s c) (0, 0) < m.wr)

/-- The region ways hold an entry (R183). -/
def waysUsed (m : CtxMem) : Bool := !(m.entG.isEmpty && m.entS.isEmpty && !m.entW)

/-- The region ways emptied, as a boundary leaves them. -/
def emptyWays (m : CtxMem) : CtxMem := { m with entG := [], entS := [], entW := false }

/-! ### Boundaries asked for (R29) -/

/-- A boundary begins; one already in progress stays. -/
def askBoundary (s : State) (c : CtxId) (sc : Scope) (cause : Cause) : State :=
  updCtx s c (fun x => match x.boundary with
    | some _ => x
    | none => { x with boundary := some { scope := sc, cause := cause, checked := false } })

/-- An inserted boundary (R178): counted when it begins (R452). -/
def insertBoundary (s : State) (c : CtxId) : State :=
  match (getCtx s c).bind (·.boundary) with
  | some _ => s
  | none => addCount (askBoundary s c .dev .inserted) c cntInserted 1

/-! ### Errors in a region part (R172, R205) -/

/-- The corrupted symbols of a block of a context's region part. -/
def regionErrs (s : State) (c : CtxId) (part : RegionPart) (blk : Nat) : List (Nat × Nat × Byte) :=
  s.mem.soft.filterMap (fun e => match e.err with
    | .region c1 p1 b cw ly f => if c1 = c ∧ p1 = part ∧ b = blk then some (cw.val, ly.val, f) else none
    | _ => none)

def dropRegion (s : State) (c : CtxId) (part : RegionPart) (blk : Nat) : State :=
  { s with mem := { s.mem with soft := s.mem.soft.filter (fun e => match e.err with
    | .region c1 p1 b _ _ _ => !(c1 == c && p1 == part && b == blk)
    | _ => true) } }

/-- The footprint bank of a block (R177, R180), as the bank of its site. A core's store lies in no bank. -/
def partBank (s : State) (c : CtxId) (part : RegionPart) (blk : Nat) : Option Nat :=
  match c with
  | .fw _ _ => none
  | .node id =>
    match getNode s id with
    | some n => match n.exec with
      | some (.region x y _ _) =>
        let w := ((getWin s c).map winWs).getD 1
        let b := match part with
          | .snapG | .stageG => sbG blk % footBanks s c
          | .carry => 0
          | _ => sbS blk % footBanks s c
        some ((y + b / max 1 w) * 128 + x + b % max 1 w)
      | _ => none
    | none => none

/-- The line of 16 carry words: a poisoned word makes no codeword of it uncorrectable, so its poison is not the line's. -/
def carryLine (m : CtxMem) (blk : Nat) : Line :=
  { Line.zero with data := BitVec.ofNat 512 ((List.range 16).foldr (fun j acc =>
      (mapGet Carry.zero m.carry (16 * blk + j)).val.toNat + acc * 2 ^ 32) 0) }

/-- Carry words as a decoded line gives them. -/
def setCarryLine (m : CtxMem) (blk : Nat) (l : Line) : CtxMem :=
  { m with carry := (List.range 16).foldl (fun cs j =>
      let was := mapGet Carry.zero cs (16 * blk + j)
      mapSet Carry.zero cs (16 * blk + j) (if l.psn then { val := 0, psn := true }
        else { was with val := BitVec.ofNat 32 (l.data.toNat / 2 ^ (32 * j)) })) m.carry }

/-- The line that a part holds. -/
def partLine (m : CtxMem) (part : RegionPart) (blk : Nat) : Option Line :=
  match part with
  | .scratch => some (m.scratch.readLine (blk / 64))
  | .snapG => mapFind m.snapG blk
  | .snapS => mapFind m.snapS blk
  | .stageG => (mapFind m.stageG blk).map (fun x => { data := x.data, desc := x.desc.getD 0, psn := false })
  | .stageS => (mapFind m.stageS blk).map (fun x => { data := x.data, desc := x.desc.getD 0, psn := false })
  | .carry => some (carryLine m blk)

/-- Staged bytes as a decoded line gives them; an uncorrectable one becomes SUBST (R113). -/
def restage (x : Staged) (l : Line) : Staged :=
  if l.psn then { mask := BitVec.allOnes 64, data := 0, desc := some substDesc }
  else { x with data := l.data, desc := x.desc.map (fun _ => l.desc) }

def setPartLine (m : CtxMem) (part : RegionPart) (blk : Nat) (l : Line) : CtxMem :=
  match part with
  | .scratch => { m with scratch := m.scratch.writeLine (blk / 64) l }
  | .snapG => { m with snapG := mapPut m.snapG blk l }
  | .snapS => { m with snapS := mapPut m.snapS blk l }
  | .stageG => { m with stageG := m.stageG.map (fun p => if p.1 = blk then (p.1, restage p.2 l) else p) }
  | .stageS => { m with stageS := m.stageS.map (fun p => if p.1 = blk then (p.1, restage p.2 l) else p) }
  | .carry => setCarryLine m blk l

/-- A block of a region part about to be read: what the bank's decoder returns of it stands there from then on (R205). A
region's line has no frame, so no CE count. -/
def settlePart (c : CtxId) (part : RegionPart) (s : State) (blk : Nat) : State :=
  let errs := regionErrs s c part blk
  let b := partBank s c part blk
  let marks := (b.map (bankMarks s)).getD 0
  if errs.isEmpty && marks == 0 then s
  else
    match (getCtx s c).bind (fun x => partLine x.mem part blk) with
    | none => dropRegion s c part blk
    | some l =>
      let (l1, s1) := decodeAt s (lineKey 3 0) (b.getD 0) errs l
      let s2 := dropRegion s1 c part blk
      if errs.isEmpty then s2 else updCtx s2 c (fun x => { x with mem := setPartLine x.mem part blk l1 })

/-- A global block of a context's region ways, and a block of its scratch, about to be read. -/
def settleG (s : State) (c : CtxId) (blk : Nat) : State := settlePart c .stageG (settlePart c .snapG s blk) blk

def settleS (s : State) (c : CtxId) (blk : Nat) : State :=
  settlePart c .stageS (settlePart c .snapS (settlePart c .scratch s blk) blk) blk

/-- What a boundary commits about to be read: the staged bytes, and the scratch under them. -/
def settleStage (s : State) (c : CtxId) : State :=
  match getCtx s c with
  | none => s
  | some x =>
    (x.mem.stageS.map (·.1)).foldl (fun t b => settlePart c .stageS (settlePart c .scratch t b) b)
      ((x.mem.stageG.map (·.1)).foldl (settlePart c .stageG) s)

/-- The carry words about to be read. -/
def settleCarry (s : State) (c : CtxId) : State := (List.range 4).foldl (settlePart c .carry) s

/-! ### Reads and staged writes of a context (R56, R57, R214) -/

/-- A block's staged bytes over a line. -/
def overlay (l : Line) (st : Option Staged) : Line :=
  match st with
  | none => l
  | some x => mergeLine l x.mask x.data x.desc

/-- Bytes of a block, with the poison they carry: none when every byte is the node's own staged one. -/
def blockBytes (l : Line) (st : Option Staged) (i n : Nat) : Nat × Bool :=
  let o := overlay l st
  let own := match st with
    | none => false
    | some x => byteMask i n &&& x.mask == byteMask i n
  if o.psn && !own then (0, true) else (lineNat o.data i n, false)

/-- What a block read of a context gives: the line with the node's staged bytes over it; that an inserted boundary or a
rollback comes first; or a failed translation. -/
inductive ReadRes where
  | line (l : Line) (st : Option Staged) (s : State)
  | full (s : State)
  | fail (cause : Nat) (s : State)

/-- A read of a global block (R57), or a streaming one (R214): its page is translated at each access (R215, R221); a memory-side
block never enters the snapshot. -/
def readG (s : State) (c : CtxId) (va : Dword) (streaming : Bool) : ReadRes :=
  let s := settleG s c (va.toNat / 64 * 64)
  match getCtx s c with
  | none => .fail 1 s
  | some x =>
    let blk := va.toNat / 64 * 64
    let st := mapFind x.mem.stageG blk
    match resolve s c va false with
    | (.fail cause, s1) => .fail cause s1
    | (p, s1) =>
      match (if streaming then none else mapFind x.mem.snapG blk) with
      | some l => .line l st s1
      | none =>
        if streaming || placeMs s1 p then
          match portLine s1 c p with
          | (some l, s2) => .line l st s2
          | (none, s2) => .full s2
        else if roomG s1 c x.mem blk then
          let (l, s2) := placeLine s1 p
          .line l st (updCtx s2 c (fun y => { y with mem := { y.mem with snapG := mapPut y.mem.snapG blk l, entG := setInsert y.mem.entG (sbG blk) } }))
        else .full (insertBoundary s1 c)

/-- A read of a scratch block (R57, R180). -/
def readS (s : State) (c : CtxId) (ofs : Nat) (streaming : Bool) : ReadRes :=
  let s := settleS s c (ofs / 64 * 64)
  match getCtx s c with
  | none => .fail 1 s
  | some x =>
    let blk := ofs / 64 * 64
    let st := mapFind x.mem.stageS blk
    match (if streaming then none else mapFind x.mem.snapS blk) with
    | some l => .line l st s
    | none =>
      let l := x.mem.scratch.readLine (blk / 64)
      if streaming then .line l st s
      else if roomS s c x.mem blk then
        .line l st (updCtx s c (fun y => { y with mem := { y.mem with snapS := mapPut y.mem.snapS blk l, entS := setInsert y.mem.entS (sbS blk) } }))
      else .full (insertBoundary s c)

/-- Staged bytes merged with those staged before (R97 included). -/
def mergeStaged (old : Option Staged) (mask : BitVec 64) (data : Bits512) (desc : Option Desc) : Staged :=
  match old with
  | none => { mask := mask, data := data &&& maskBits mask, desc := desc }
  | some o =>
    let m := maskBits mask
    let was := if (o.desc.map isSubst).getD false then 0 else o.data
    { mask := o.mask ||| mask, data := (was &&& ~~~m) ||| (data &&& m),
      desc := match desc with
        | some d => some d
        | none => if (o.desc.map isSubst).getD false then some 0 else o.desc }

/-- The stored block that a write of all of it replaces: its errors are gone (R205). -/
def renewPart (s : State) (c : CtxId) (part : RegionPart) (blk : Nat) (mask : BitVec 64) : State :=
  if s.mem.soft.isEmpty || mask != BitVec.allOnes 64 then s else dropRegion s c part blk

/-- A staged write to a global block; `none` when an inserted boundary comes first. -/
def stageG (s : State) (c : CtxId) (va : Dword) (mask : BitVec 64) (data : Bits512) (desc : Option Desc) :
    Bool × State :=
  match getCtx s c with
  | none => (true, s)
  | some x =>
    let blk := va.toNat / 64 * 64
    if roomG s c x.mem blk then
      (true, updCtx (renewPart s c .stageG blk mask) c (fun y => { y with mem := { y.mem with
        stageG := mapPut y.mem.stageG blk (mergeStaged (mapFind y.mem.stageG blk) mask data desc)
        entG := setInsert y.mem.entG (sbG blk) } }))
    else (false, insertBoundary s c)

def stageS (s : State) (c : CtxId) (ofs : Nat) (mask : BitVec 64) (data : Bits512) (desc : Option Desc) :
    Bool × State :=
  match getCtx s c with
  | none => (true, s)
  | some x =>
    let blk := ofs / 64 * 64
    if roomS s c x.mem blk then
      (true, updCtx (renewPart s c .stageS blk mask) c (fun y => { y with mem := { y.mem with
        stageS := mapPut y.mem.stageS blk (mergeStaged (mapFind y.mem.stageS blk) mask data desc)
        entS := setInsert y.mem.entS (sbS blk) } }))
    else (false, insertBoundary s c)

/-- A staged carry word (R56). -/
def stageW (s : State) (c : CtxId) (n : Nat) (v : Carry) : Bool × State :=
  match getCtx s c with
  | none => (true, s)
  | some x =>
    if roomW s c x.mem then
      (true, updCtx s c (fun y => { y with mem := { y.mem with carryStage := mapPut y.mem.carryStage n v, entW := true } }))
    else (false, insertBoundary s c)

/-- A carry word as staged, else as committed (R56, R145). -/
def carryWord (x : CtxMem) (n : Nat) : Carry := (mapFind x.carryStage n).getD (mapGet Carry.zero x.carry n)

/-- The 16 committed words of a block of the carry area. -/
def carryBlock (x : CtxMem) (b : Nat) : List Carry := (List.range 16).map (fun j => mapGet Carry.zero x.carry (16 * b + j))

/-- A read of carry word `n` under R57, or a streaming one (R214): its staged value, else its block's in the snapshot, which it
enters; none when an inserted boundary comes first (R177, R178). -/
def readW (s : State) (c : CtxId) (n : Nat) (streaming : Bool) : Option Carry × State :=
  let s := settlePart c .carry s (n / 16)
  match getCtx s c with
  | none => (some Carry.zero, s)
  | some x =>
    let word (l : List Carry) : Carry := (mapFind x.mem.carryStage n).getD (nth Carry.zero l (n % 16))
    match (if streaming then none else mapFind x.mem.snapW (n / 16)) with
    | some l => (some (word l), s)
    | none =>
      let l := carryBlock x.mem (n / 16)
      if streaming then (some (word l), s)
      else if roomW s c x.mem then
        (some (word l), updCtx s c (fun y => { y with mem := { y.mem with snapW := mapPut y.mem.snapW (n / 16) l, entW := true } }))
      else (none, insertBoundary s c)

/-- SCRATCH of the block in place (R181). -/
def scratchSize (s : State) (c : CtxId) : Nat :=
  match getWin s c with
  | some w => winScratch w
  | none => 0

/-- The global VA of an address token and a carry base (R209); none when the base is poisoned. -/
def carryVa (x : CtxMem) (bsel : Nat) (a : Word) : Option Dword :=
  let lo := mapGet Carry.zero x.carryAtStart (56 + 2 * bsel)
  let hi := mapGet Carry.zero x.carryAtStart (57 + 2 * bsel)
  if lo.psn || hi.psn then none
  else some (BitVec.ofNat 64 (hi.val.toNat % 2 ^ 23 * 2 ^ 32 + lo.val.toNat + a.toNat))

end Sys2Proof.Machine
end

