-- ==== Sys2Proof/Machine/Ops.lean ====
section
/-! DEFINITION. The named operations that every instruction is written over: the firing of an instruction (R25, R28,
R78), the sequence chain (R225), machine checks and rollback (R33, R437), and the firmware's traps: taking one (R420)
and returning from one (R423). -/

namespace Sys2Proof.Machine

/-! ### The instruction in focus -/

/-- The unit in focus: its context, its index, and what they hold. -/
structure Env where
  c : CtxId
  i : Nat
  ctx : Ctx
  win : Window
  u : ElemSt

def envAt (s : State) (c : CtxId) (i : Nat) : Option Env :=
  match getCtx s c, getWin s c with
  | some x, some w => (w.units[i]?).map (fun u => { c := c, i := i, ctx := x, win := w, u := u })
  | _, _ => none

def focusEnv (s : State) : Option Env :=
  match s.run.focus with
  | some (c, i) => envAt s c i
  | none => none

/-- The instruction of a configuration word, if it is one. -/
def instrOf (w : Word) : Option Instr :=
  match decodeBytes (wordBytes w.toNat) with
  | .ok (i, _) => some i
  | .error _ => none

def winInstr (w : Window) (i : Nat) : Option Instr := (w.code[i]?).bind instrOf

/-! ### Operands and targets -/

structure Operands where
  a : Token
  b : Token
  c : Token
  p : Token

def zeroTok : Token := scalarTok 0 false

def headOf (u : ElemSt) (sl : Slot) : Token := ((slotQueue u sl).head?).getD zeroTok

def operands (u : ElemSt) : Operands :=
  { a := headOf u .a, b := headOf u .b, c := headOf u .c, p := headOf u .p }

def tgt1 (t : Tgt) : List Target := t.toList

def headTgts (h : DHead) : List Target := h.t0.toList ++ h.t1.toList

/-- One token to every target (R25). -/
def toAll (l : List Target) (t : Token) : List (Target × Token) := l.map (fun x => (x, t))

/-- A sequence of tokens, each to every target, in order. -/
def seqAll (l : List Target) (ts : List Token) : List (Target × Token) := ts.flatMap (toAll l)

/-! ### Firing -/

/-- What a firing does. -/
inductive Act where
  /-- It may not fire yet; the state may hold a boundary that was asked for. -/
  | wait (s : State)
  /-- It fires: its effects, and its tokens in order. -/
  | emit (s : State) (out : List (Target × Token))
  /-- It issues and does not complete yet. -/
  | hold (s : State) (p : Pend)
  /-- Its check fails: the result is suppressed (R437). -/
  | trap (s : State) (k : Check)

/-- How an instruction fires. -/
structure Firing where
  /-- The slots it takes operands from, slot p of a predicate left out. -/
  slots : List Slot
  /-- The slots of the marker join (R28). -/
  joins : List Slot
  tgts : List Target
  /-- Further targets, which only a marker reaches. -/
  markTgts : List Target := []
  pred : Pred := .always
  /-- A memory instruction (R70), or an engine command (R79): neither issues while a boundary is in progress. -/
  mem : Bool := false
  cmd : Bool := false
  /-- The effect on data. -/
  body : State → Env → Operands → Act
  /-- The effect of a joined marker of rank `r`; by default it passes. -/
  onMark : State → Env → Nat → Act
  /-- What becomes of an issued and unfinished firing. -/
  resume : State → Env → Pend → Act
  /-- It takes no operands while an earlier firing is held. -/
  serial : Bool := true
  /-- Its engine answers nothing: it waits, whatever its operands (R334). -/
  shut : State → Bool := fun _ => false

def passMark (tgts : List Target) (s : State) (_ : Env) (r : Nat) : Act := .emit s (toAll tgts (markerTok r))

def noResume (s : State) (_ : Env) (_ : Pend) : Act := .wait s

def predSlots (p : Pred) : List Slot :=
  match p with
  | .always => []
  | _ => [.p]

/-- The firing after it: its operands taken, its count raised, its tokens sent. -/
def finish (s : State) (e : Env) (sl : List Slot) (out : List (Target × Token)) : State :=
  updWin s e.c (fun w =>
    emitToks { w with units := modNth (fun u => { popSlots u sl with fired := u.fired + 1 }) w.units e.i } e.i out)

/-- The firing issued and held. -/
def finishHold (s : State) (e : Env) (sl : List Slot) (p : Pend) : State :=
  updUnit s e.c e.i (fun u => { popSlots u sl with fired := u.fired + 1, pend := u.pend ++ [p] })

/-- The oldest held firing completed: its tokens sent, behind those that its unit still holds (R168). -/
def finishResume (s : State) (e : Env) (out : List (Target × Token)) : State :=
  if e.u.out.isEmpty then
    updWin s e.c (fun w =>
      emitToks { w with units := modNth (fun u => { u with pend := u.pend.tail }) w.units e.i } e.i out)
  else updUnit s e.c e.i (fun u => { u with pend := u.pend.tail, out := u.out ++ out })

/-- Every target can accept one more token: its output stage is empty (R25, R124). -/
def roomFor (e : Env) (tgts : List Target) : Bool := tgts.all (stageFree e.u.stage)

/-- A memory instruction or command may not issue while a boundary is in progress (R227). -/
def issueBlocked (e : Env) : Bool := e.ctx.boundary.isSome

/-- A node whose sources the dispatcher has closed: its generators, its pops and its bobbins' fills stop (R395). -/
def sourcesClosed (s : State) (c : CtxId) : Bool :=
  match c with
  | .node id => ((getNode s id).map (·.closed)).getD false
  | .fw _ _ => false

/-! ### Machine checks (R24, R437 to R440) -/

/-- Opcodes of memory instructions (R70): M format, and K format of groups 0x5 and 0xC, as far as they are assigned (R83). -/
def isPortOp (op : Nat) : Bool :=
  (decide (0x50 ≤ op) && decide (op ≤ 0x59)) || (decide (0xC0 ≤ op) && decide (op ≤ 0xC5)) || [0x60, 0x61, 0x62, 0x63, 0x64, 0x68, 0x69, 0x77, 0x78, 0x79, 0x7A, 0x7B, 0xE4].elem op

/-- The site of a unit, or a core's number (R49). -/
def unitSite (s : State) (e : Env) : Nat × Nat :=
  match ctxCore s e.c with
  | some k => (k, 0)
  | none =>
    match e.c with
    | .node id =>
      match getNode s id with
      | some n => ((nodeOrigin n).1 + winDx e.win e.i, (nodeOrigin n).2 + winDy e.win e.i)
      | none => (0, 0)
    | .fw _ _ => (0, 0)

/-- The source code of a unit that checks the tokens of an instruction, or whose generator faults (R49): by its opcode's group;
on a control core always 8, with X the core (R49 does not say which of 3 and 8 a core's generator is; assumption log 75). -/
def checkSrc (s : State) (e : Env) : Nat :=
  match ctxCore s e.c with
  | some _ => 8
  | none =>
    let op := ((e.win.code[e.i]?).getD 0).toNat / 2 ^ 24
    if op / 16 = 9 then 2 else if isPortOp op then 3 else 0

/-- A generator's word: LDS, STS, LDB, STB, AGEN (R210). -/
def isStreamOp (w : Word) : Bool := decide (0x50 ≤ w.toNat / 2 ^ 24) && decide (w.toNat / 2 ^ 24 ≤ 0x54)

/-- The check raised by a unit on a token or result (R439, R440). -/
def unitCheck (s : State) (e : Env) (code : Byte) (expd obs : Nat) (inj : Bool) : Check :=
  let src := checkSrc s e
  let (x, y) := unitSite s e
  let (x, y) := if src = 2 then (x / 2, y / 2) else (x, y)
  let (l0, l1, l2, l3) : Nat × Nat × Nat × Nat :=
    match src with
    | 0 => (e.u.fired, e.u.ccnt.toNat, e.u.mcnt.toNat, e.u.cidx.val)
    | 3 => if isStreamOp ((e.win.code[e.i]?).getD 0) then (e.u.gen.c0, e.u.gen.c1, e.u.gen.c2, e.u.gen.c3) else (e.u.fired, 0, 0, 0)
    | 8 => (e.u.fired, (match e.c with | .node _ => 0 | .fw _ l => l.val + 1), 0, 0)
    | _ => (e.u.fired, 0, 0, 0)
  { ctx := e.c, src := Fin.ofNat 16 src, field := Fin.ofNat 4 (ctxField s e.c e.i), x := x, y := y, idx := some e.i,
    lane := 255, code := code, exp := Fin.ofNat 16 expd, obs := Fin.ofNat 16 obs, l0 := BitVec.ofNat 32 l0,
    l1 := BitVec.ofNat 32 l1, l2 := BitVec.ofNat 32 l2, l3 := BitVec.ofNat 32 l3,
    loc := if src = 8 then 0 else if src = 2 then BitVec.ofNat 32 (winDy e.win e.i / 2 * 256 + winDx e.win e.i / 2)
           else BitVec.ofNat 32 (winDy e.win e.i * 256 + winDx e.win e.i), inj := inj }

/-- The check a consumer makes of a token it would take (R23, R24): none when the token is sound. -/
def tokenCheck (s : State) (e : Env) (t : Token) : Option Check :=
  if !t.sound then some (unitCheck s e 0x01 t.res.val (residue7 t.data.toNat).val false)
  else if !t.parityOk then some (unitCheck s e 0x06 0 0 false)
  else none

/-! ### Injections (R458) -/

/-- The TKIND that counts the firings of an opcode: 0 for those of R128, 7 for those of R129, 4 for a port's
accesses, which FENCE and PHASE do not make. -/
def injectKind (op : Nat) : Option Nat :=
  if op / 16 = 1 ∨ op = 0x06 ∨ op = 0x09 ∨ op = 0x0C then some 0
  else if op / 16 = 2 ∨ op = 0x03 ∨ op = 0x04 ∨ op = 0x0D ∨ op = 0x0E then some 7
  else if op / 16 = 3 then
    (if op = 0x34 ∨ op = 0x35 ∨ op = 0x36 ∨ op = 0x37 ∨ op = 0x3C then some 7 else some 0)
  else if op / 16 = 4 then
    (if op = 0x47 ∨ op = 0x48 ∨ op = 0x49 ∨ op = 0x4E then some 7 else some 0)
  else if isPortOp op && op != 0x63 && op != 0x64 then some 4
  else none

/-- An injection fired by a firing whose result is `out` (R437, R458). -/
def firingInjection (s : State) (e : Env) (out : List (Target × Token)) : Option Check × State :=
  match injectKind (((e.win.code[e.i]?).getD 0).toNat / 2 ^ 24), ctxCore s e.c with
  | some k, none =>
    let (x, y) := unitSite s e
    let r := match out with
      | (_, t) :: _ => t.res.val
      | [] => 0
    match injectAt s k x y (ctxNode e.c) 1 with
    | (some _, s1) => (some (if k = 7 then unitCheck s e 0x03 0 0 true else unitCheck s e 0x01 r ((r + 1) % 7) true), s1)
    | (none, s1) => (none, s1)
  | _, _ => (none, s)

/-! ### The sequence chain (R225, R226, R227) -/

/-- Ordered memory instructions: their seq, and whether they divide the chain into segments. -/
def orderedSeq (i : Instr) : Option (Nat × Bool) :=
  let plain (m : MHead) : Option (Nat × Bool) := if m.unord then none else some (m.seq.val, false)
  match i with
  | .ld m .. | .st m .. | .ldx m .. | .pref m .. | .atom m .. | .cas m .. | .tas m .. | .waitge m .. | .cntadd m ..
  | .cflush m .. | .cwb m .. | .cinv m .. | .pin m .. | .unpin m .. | .matom m .. | .mcas m .. | .mtas m .. | .mcnt m ..
  | .tlbi m .. => plain m
  | .fence _ q => some (q.val, true)
  | .phase _ q _ => some (q.val, true)
  | _ => none

/-- Operations whose k-th firings reach memory in seq order (R222). -/
def isAtomicOp (i : Instr) : Bool :=
  match i with
  | .atom .. | .cas .. | .tas .. | .cntadd .. | .matom .. | .mcas .. | .mtas .. | .mcnt .. => true
  | _ => false

/-- A member of the chain: seq, divider, atomic, firings issued, and completed with every earlier one of the instruction. -/
structure ChainMem where
  seq : Nat
  divides : Bool
  atomic : Bool
  issued : Nat
  done : Nat

def chainOf (w : Window) : List ChainMem :=
  (w.code.zip w.units).filterMap (fun (word, u) =>
    match instrOf word with
    | none => none
    | some i => (orderedSeq i).map (fun (q, d) =>
        { seq := q, divides := d, atomic := isAtomicOp i, issued := u.fired,
          done := u.fired - (u.pend.dropWhile (fun p => p.ready.isSome)).length }))

/-- The seq of the FENCE or PHASE that begins the segment of a seq, if any. -/
def segStart (l : List ChainMem) (q : Nat) : Option Nat :=
  (l.filter (fun m => m.divides && decide (m.seq < q))).foldl
    (fun acc m => match acc with | none => some m.seq | some a => some (max a m.seq)) none

/-- The next firing of an ordered instruction may issue (R225, R222); a FENCE or PHASE waits for completions. -/
def chainReady (w : Window) (i : Instr) (fired : Nat) : Bool :=
  match orderedSeq i with
  | none => true
  | some (q, divides) =>
    let l := chainOf w
    let start := segStart l q
    let inSeg (m : ChainMem) : Bool :=
      !m.divides && decide (m.seq < q) && (match start with | none => true | some a => decide (a < m.seq))
    (l.filter inSeg).all (fun m =>
      (if divides || (isAtomicOp i && m.atomic) then decide (fired < m.done) else decide (fired < m.issued)))
    && (l.filter (fun m => m.divides && some m.seq == start)).all (fun m => decide (fired < m.done))

/-! ### The step of a firing -/

/-- What a joined marker of rank `r` leaves in a unit: an exit's end, and a memory instruction's count of markers of
rank COMMIT or above (R13, R477). -/
def markSeen (w : Window) (exit mem : Bool) (r : Nat) (u : ElemSt) : ElemSt :=
  { u with
    term := u.term || (exit && decide (winTerm w ≤ r)),
    commits := u.commits + (if mem && winCommit w != 15 && decide (winCommit w ≤ r) then 1 else 0) }

def noteMark (e : Env) (f : Firing) (r : Nat) (u : ElemSt) : ElemSt :=
  markSeen e.win (f.tgts.isEmpty && f.markTgts.isEmpty) (f.mem && !f.joins.isEmpty) r u

/-- The highest rank at the heads of the joined slots, and whether all agree (R28). -/
def joinRank (u : ElemSt) (sl : List Slot) : Nat × Bool :=
  let rs := sl.map (fun x => (headOf u x).rank.val)
  (rs.foldl max 0, rs.all (fun r => r == rs.headD 0))

/-- The slots of a marker join, the predicate's with them (R28, R78). -/
def Firing.joinSlots (f : Firing) : List Slot := f.joins ++ predSlots f.pred

/-- The slots a data firing takes. -/
def Firing.dataSlots (f : Firing) : List Slot := f.slots ++ predSlots f.pred

/-- A firing's effects, and what `go` makes of its tokens, unless an injection falls on it (R458). -/
def injectOr (s s1 : State) (e : Env) (out : List (Target × Token)) (go : State → State) : State :=
  if s.hl.inj.isEmpty then go s1
  else
    match firingInjection s e out with
    | (some k, s2) => raiseCheck s2 k
    | (none, _) => go (firingInjection s1 e out).2

/-- A data firing's effects and tokens, unless an injection falls on it (R458). -/
def emitFiring (s s1 : State) (e : Env) (sl : List Slot) (out : List (Target × Token)) : State :=
  injectOr s s1 e out (fun t => finish t e sl out)

/-- A firing that emits behind earlier ones of its unit that have not completed: its tokens follow theirs (R168). -/
def emitBehind (s s1 : State) (e : Env) (sl : List Slot) (o : Operands) (out : List (Target × Token)) : State :=
  injectOr s s1 e out fun t => finishHold t e sl { a := o.a, b := o.b, c := o.c, phase := 0, val := 0, step := 1, ready := some out }

/-- Whether the predicate lets a firing act (R78). -/
def predActive (p : Pred) (o : Operands) : Bool :=
  match p with
  | .always => true
  | .ifTrue => o.p.isTrue
  | .ifFalse => !o.p.isTrue

/-- A poisoned predicate counts (R78, R452). -/
def notePred (s : State) (e : Env) (p : Pred) : State :=
  addCount s e.c cntPoison (if p != .always && (operands e.u).p.psn then 1 else 0)

/-- A firing on data: predicated off it only takes its operands. -/
def fireData (s : State) (e : Env) (f : Firing) : State :=
  let all := f.dataSlots
  let o := operands e.u
  if !predActive f.pred o then finish (notePred s e f.pred) e all []
  else
    match f.body s e o with
    | .wait s1 => if e.ctx.boundary.isSome then s else s1
    | .emit s1 out =>
      if e.u.pend.isEmpty then emitFiring s (notePred s1 e f.pred) e all out else emitBehind s (notePred s1 e f.pred) e all o out
    | .hold s1 p => finishHold (notePred s1 e f.pred) e all p
    | .trap s1 k => raiseCheck s1 k

/-- A firing on a joined marker (R28). -/
def fireMark (s : State) (e : Env) (f : Firing) : State :=
  let joins := f.joinSlots
  let (r, same) := joinRank e.u joins
  let done (s1 : State) : State := updUnit (addCount s1 e.c cntMismatch (if same then 0 else 1)) e.c e.i (noteMark e f r)
  match f.onMark s e r with
  | .wait s1 => s1
  | .emit s1 out => finish (done s1) e joins out
  | .hold s1 p => finishHold (done s1) e joins p
  | .trap s1 k => raiseCheck s1 k

/-- The heads that a firing or join takes are checked (R23, R24). -/
def headCheck (s : State) (e : Env) (sl : List Slot) : Option Check :=
  sl.findSome? (fun x => tokenCheck s e (headOf e.u x))

/-- Every slot of a list holds a token. -/
def slotsFull (u : ElemSt) (sl : List Slot) : Bool := sl.all (fun x => !(slotQueue u x).isEmpty)

/-- What holds back an instruction whose operands have arrived: a boundary in progress (R227, R395), the chain (R225). -/
def mayIssue (s : State) (e : Env) (f : Firing) : Bool :=
  !f.shut s && !((f.mem || f.cmd) && issueBlocked e)
    && !(f.mem && !(match winInstr e.win e.i with | some i => chainReady e.win i e.u.fired | none => true))

/-- A new firing, when R25, R28, R70, R225 and R227 let it fire. -/
def fireNew (s : State) (e : Env) (f : Firing) : State :=
  if slotsFull e.u f.joinSlots && f.joinSlots.any (fun sl => (headOf e.u sl).isMk) then
    match headCheck s e f.joinSlots with
    | some k => raiseCheck s k
    | none =>
      if mayIssue s e f && f.joinSlots.all (fun sl => (headOf e.u sl).isMk) && roomFor e (f.tgts ++ f.markTgts)
          && e.u.pend.isEmpty then fireMark s e f
      else s
  else if slotsFull e.u f.dataSlots then
    match headCheck s e f.dataSlots with
    | some k => raiseCheck s k
    | none => if mayIssue s e f && roomFor e f.tgts then fireData s e f else s
  else s

/-- A window below the current trap level is frozen (R420). -/
def frozen (s : State) (c : CtxId) : Bool :=
  match c with
  | .node _ => false
  | .fw k l => decide (l.val < (getCore s k.val).level.toNat)

/-- The oldest firing in progress goes on; what follows where it still waits. An access held back is counted against the armed
injections when it completes (R458). -/
def resumeHeld (s : State) (e : Env) (f : Firing) (p : Pend) (ps : List Pend) (waits : State → State) : State :=
  match p.ready with
  | some out => finishResume s e out
  | none =>
    match f.resume s e p with
    | .emit s1 out => injectOr s s1 e out (fun t => finishResume t e out)
    | .hold s1 p1 => updUnit s1 e.c e.i (fun u => { u with pend := p1 :: ps })
    | .trap s1 k => raiseCheck s1 k
    | .wait s1 => waits s1

/-- One step of a unit's instruction: held tokens first, then a firing in progress, then a new firing. In a frozen window only a firing
under way goes on (R420). -/
def fireStep (s : State) (e : Env) (f : Firing) : State :=
  if e.u.blk then s
  else if frozen s e.c then
    match e.u.pend with
    | [] => s
    | p :: ps => resumeHeld s e f p ps id
  else if mustPump e.win e.i e.u then updWin s e.c (fun w => pumpOut w e.i)
  else
    match e.u.pend with
    | [] => fireNew s e f
    | p :: ps =>
      resumeHeld s e f p ps (fun s1 =>
        if f.serial then s1
        else
          match envAt s1 e.c e.i with
          | some e1 => fireNew s1 e1 f
          | none => s1)

/-- An instruction word's meaning: one step of the unit in focus; without one, the model's own stop. -/
def runUnit (s : State) (f : Env → Firing) : Host.Outcome State Fault Refusal :=
  match focusEnv s with
  | none => .fault .noUnit
  | some e => .next (fireStep s e (f e))

/-- A word found illegal only at its unit: it blocks the unit (R21). -/
def blockUnit (s : State) (e : Env) : State := updUnit s e.c e.i (fun u => { u with blk := true })

/-! ### Results -/

/-- A scalar result token (R131): poisoned when an operand was. -/
def result (l : List Target) (v : Word) (psn : Bool) : List (Target × Token) := toAll l (scalarTok v psn)

/-- A poisoned 0. -/
def poisonZero (l : List Target) : List (Target × Token) := result l 0 true

/-- A poisoned 0, counted (R224, R235). -/
def poisonAct (s : State) (c : CtxId) (l : List Target) : Act := .emit (addCount s c cntPoison 1) (poisonZero l)

/-! ### The replay log (R34, R443) -/

/-- What a logged operation is to do: answered from the log with the values returned, or performed live. -/
inductive Replay where
  | answered (ret : List Dword) (s : State)
  | live (s : State)

/-- An operand token as the log keeps it. -/
def tokArg (t : Token) : Dword := BitVec.ofNat 64 (t.word.toNat + b2n t.psn * 2 ^ 32)

/-- An operation equals a log entry (R34): address, operands and kind; of a command of the shuttle, which names no address, the
block and instruction (R322). -/
def sameEntry (r k : LogEntry) : Bool :=
  r.kind == k.kind && r.addr == k.addr && r.args == k.args && (k.kind / 16 != 0xA || (r.block == k.block && r.idx == k.idx))

/-- The replay abandoned (R34): the entries that have not answered leave the log, so that a later re-execution answers what this
one did (assumption log 74). -/
def abandonReplay (x : Ctx) : Ctx := { x with log := x.log.take (x.log.length - x.replay.length), replay := [] }

/-- The next log entry decides (R34): an equal operation is answered; another abandons the replay and counts. -/
def replayNext (s : State) (c : CtxId) (k : LogEntry) : Replay :=
  match getCtx s c with
  | none => .live s
  | some x =>
    if isFirmware c then .live s
    else
      match x.replay with
      | [] => .live s
      | r :: rs =>
        if sameEntry r k then .answered r.ret (updCtx s c (fun y => { y with replay := rs }))
        else .live (addCount (updCtx s c abandonReplay) c cntDiverge 1)

/-- The next log entry would answer the operation. -/
def nextAnswers (x : Ctx) (k : LogEntry) : Bool :=
  match x.replay with
  | [] => false
  | r :: _ => sameEntry r k

/-- The log is full: an operation that is to be logged inserts a boundary (R29, R443). -/
def logFull (e : Env) : Bool := !isFirmware e.c && decide (512 ≤ e.ctx.log.length)

def logAppend (s : State) (c : CtxId) (k : LogEntry) : State :=
  if isFirmware c then s else updCtx s c (fun x => { x with log := x.log ++ [k] })

/-- A logged operation: answered, held back by a full log, or performed and entered with its values. -/
def logged (s : State) (e : Env) (k : LogEntry) (answer : State → List Dword → Act)
    (live : State → (State → List Dword → State) → Act) : Act :=
  match replayNext s e.c k with
  | .answered ret s1 => answer s1 ret
  | .live s1 =>
    if logFull e then .wait (insertBoundary s e.c)
    else live s1 (fun s2 ret => logAppend s2 e.c { k with ret := ret })

/-! ### Rollback (R33, R190, R336, R394) -/

/-- Slot `d` places on from HEAD. -/
def headSlot (b : Bobbin) (d : Nat) : Nat := (b.head + d) % max 1 b.nslot

/-- The oldest draining slot: the first from HEAD on, round the bobbin, as draining slots lie behind HEAD (R190). -/
def oldestSlot (tiles : List (Nat × BitVec 2)) (b : Bobbin) : Option Nat :=
  ((List.range b.nslot).map (headSlot b)).find? (fun i => mapGet 0 tiles (b.tbase + i) == 3)

/-- Bobbin slots that the consumers of a window hold in draining. -/
def heldSlots (w : Window) : List (Nat × Nat) :=
  (w.code.zip w.units).flatMap (fun (x, u) =>
    u.sea.owed.map (fun o => (o.1, o.2.1)) ++ u.sea.slot.toList ++ u.sea.again ++
      (match instrOf x, u.gen.slot, u.pend with
      | some (.stb _ k true), some i, _ => [(wbits (poolWord w (k.val + 2)) 29 25, i)]
      | some (.pushb _ k), _, p :: _ => [(wbits (poolWord w k.val) 12 8, p.val.toNat / 2 ^ 32)]
      | _, _, _ => []))

/-- The slots at HEAD that a consumer holds, or has finished with, taken anew in their order (assumption log 17). -/
def retake (k : Nat) (held : List (Nat × Nat)) : Nat → List (Nat × BitVec 2) → Bobbin → List (Nat × BitVec 2) × Bobbin
  | 0, t, b => (t, b)
  | n + 1, t, b =>
    if mapGet 0 t (b.tbase + b.head) = 2 ∧ (held.elem (k, b.head) ∨ b.finished.elem b.head) then
      retake k held n (mapSet 0 t (b.tbase + b.head) 3) { b with head := (b.head + 1) % max 1 b.nslot }
    else (t, b)

/-- One bobbin reset (R190): draining slots become ready and HEAD moves back to the oldest; filling and ready slots
become empty and TAIL goes to where HEAD was. -/
def resetBobbin (tiles : List (Nat × BitVec 2)) (b : Bobbin) : List (Nat × BitVec 2) × Bobbin :=
  let tiles' := (List.range b.nslot).foldl (fun t i =>
    let was := mapGet 0 tiles (b.tbase + i)
    mapSet 0 t (b.tbase + i) (if was = 3 then 2 else 0)) tiles
  (tiles', { b with head := (oldestSlot tiles b).getD b.head, tail := b.head, fills := [], tickets := [], pops := [] })

/-- An act on each bobbin and its tile-table entries. -/
def mapBobbins (f : Nat → List (Nat × BitVec 2) → Bobbin → List (Nat × BitVec 2) × Bobbin) (m : CtxMem) : CtxMem :=
  let (t, bs) := m.bobbins.foldl (fun (t, bs) (k, b) =>
    let (t', b') := f k t b
    (t', bs ++ [(k, b')])) (m.tiles, [])
  { m with tiles := t, bobbins := bs }

def resetBobbins (m : CtxMem) : CtxMem := mapBobbins (fun _ t b => resetBobbin t b) m

/-- The consumers of a reset context take their slots anew, as it runs on (R190, assumption log 17). -/
def retakeBobbins (held : List (Nat × Nat)) (m : CtxMem) : CtxMem := mapBobbins (fun k t b => retake k held b.nslot t b) m

/-- The generator to which each instruction's fills go back (R396): of its filling and ready slots, the one first after
HEAD. -/
def rewindPoints (m : CtxMem) : List (Nat × Gen) :=
  m.bobbins.flatMap (fun (_, b) =>
    (List.range b.nslot).filterMap (fun d =>
      let i := (b.head + d) % max 1 b.nslot
      let st := mapGet 0 m.tiles (b.tbase + i)
      if st = 1 ∨ st = 2 then (b.fills.find? (fun f => f.1 == i)).map (·.2) else none))

/-- Of a bobbin's slots that a reset empties, in their order from HEAD, what POPBs have popped into them. -/
def emptiedPops (m : CtxMem) : List PopFill :=
  m.bobbins.flatMap (fun (_, b) =>
    (List.range b.nslot).filterMap (fun d =>
      let st := mapGet 0 m.tiles (b.tbase + headSlot b d)
      if st = 1 ∨ st = 2 then b.pops.find? (fun f => f.slot == headSlot b d) else none))

/-- Blocks of a slot that its POPB popped before the last commit of its pointer: they stand in the slot, and cannot be popped
again. -/
def keptBlocks (f : PopFill) : Nat := f.blocks - (f.fresh - (if f.marked && f.fresh != 0 then 1 else 0))

/-- A POPB's firing once its slot has been emptied: it takes the slot at TAIL and pops what is still to come, in the stages 2,
and 4 of a fill whose index has left already; `phase` 1 tells that a marker has ended the fill (assumption log 17). -/
def popAgain (told : Bool) (f : PopFill) (p : Pend) : Pend :=
  { p with step := if told then 4 else 2, val := BitVec.ofNat 64 (keptBlocks f), phase := if f.marked && f.fresh == 0 then 1 else 0 }

/-- A POPB whose slots a reset empties fills them again (R190, R359): those that were ready, then the one in hand. -/
def rewindPop (m : CtxMem) (i : Nat) (x : Word) (u : ElemSt) : ElemSt :=
  match instrOf x with
  | some (.popb _ _) =>
    let mine := (emptiedPops m).filter (fun f => f.unit == i)
    let inHand (p : Pend) : Option PopFill :=
      if p.step = 1 ∨ p.step = 3 then mine.find? (fun f => f.slot == p.val.toNat / 2 ^ 32) else none
    let held := u.pend.filterMap inHand
    let blank : Pend := { a := zeroTok, b := zeroTok, c := zeroTok, phase := 0, val := 0, step := 4 }
    { u with pend := (mine.filter (fun f => !held.elem f)).map (fun f => popAgain true f blank)
        ++ u.pend.map (fun p => match inHand p with
          | some f => popAgain (p.step == 3) f p
          | none => p) }
  | _ => u

/-- A west edge brought back to the first element of the row that it was forming (R258): of a bobbin source, the oldest slot in
hand is read again behind its elements that have entered. The elements of a row that tokens brought stand at the head of their
stream, as the tokens behind them do (assumption log 70). -/
def rewindEdge (x : Word) (u : ElemSt) : ElemSt :=
  let held := u.sea.owed.map (fun o => (o.1, o.2.1)) ++ u.sea.slot.toList ++ u.sea.again
  match instrOf x with
  | some (.mma _ _ _ .bob _) | some (.mmao _ _ _ .bob _) =>
    { u with sea := { u.sea with edge := [], owed := [], slot := held.head?, again := held.tail, taken := 0, skip := u.sea.entered } }
  | _ => u

/-- Generators rewound to the earliest slot that a reset empties, edges to the row that they form. -/
def rewindWin (m : CtxMem) (w : Window) : Window :=
  let w1 := (rewindPoints m).reverse.foldl (fun w (i, g) => { w with units := modNth (fun u => { u with gen := g }) w.units i }) w
  { w1 with units := (w1.code.zip w1.units).zipIdx.map (fun ((x, u), i) => rewindEdge x (rewindPop m i x u)) }

/-! ### Entries of the channel unit -/

/-- STATE (R331). -/
def chFree : Byte := 0
def chOpenSt : Byte := 1
def chClosed : Byte := 2
def chFailed : Byte := 3

/-- No node holds an end. -/
def noNode : Word := 0xFFFFFFFF#32

def getChan (s : State) (k : Nat) : Chan := mapGet Chan.free s.chu.table k

/-- Reports that a change of some channels ends (R358): those of sets that hold one. -/
def dropReports (s : State) (l : List Nat) : State :=
  if l.isEmpty then s else { s with chu := { s.chu with reported := s.chu.reported.filter (fun r => !r.1.any l.elem) } }

def setChan (s : State) (k : Nat) (c : Chan) : State :=
  let s1 := { s with chu := { s.chu with table := mapSet Chan.free s.chu.table k c } }
  if getChan s k = c then s1 else dropReports s1 [k]

/-- Every entry changed at once. -/
def mapChans (s : State) (f : Chan → Chan) : State :=
  dropReports { s with chu := { s.chu with table := s.chu.table.map (fun (k, c) => (k, f c)) } }
    ((s.chu.table.filter (fun p => f p.2 != p.2)).map (·.1))

/-- An entry before its use: a mismatch of its CRC fails the channel (R341). -/
def useChan (s : State) (k : Nat) : Chan × State :=
  let c := getChan s k
  if c.bad && c.state != chFree then
    let c1 := { c with state := chFailed, bad := false }
    let s1 := setChan s k c1
    (c1, addDev (addDev { s1 with chu := { s1.chu with failed := true } } 8 1) 9 1)
  else (c, s)

/-- Several entries before their use. -/
def checkChans (s : State) (l : List Nat) : State := l.foldl (fun s k => (useChan s k).2) s

/-- The channels of which a node holds an end. -/
def heldChans (s : State) (node : Word) : List Nat := (s.chu.table.filter (fun p => p.2.prod == node || p.2.cons == node)).map (·.1)

/-- The tentative pointers of a node's channel ends brought back to the committed ones (R336). -/
def revertChannels (s : State) (node : Word) : State :=
  mapChans (checkChans s (heldChans s node)) (fun ch =>
    let ch := if ch.prod = node then
        { ch with ttail := ch.ctail,
                  rt := if (ch.rt - ch.chead).toNat > (ch.ctail - ch.chead).toNat then ch.ctail else ch.rt } else ch
    if ch.cons = node then { ch with thead := ch.chead } else ch)

/-- Weight sets keep their planes over a rollback; USED, ACTIVE, the pending swap and the geometry come from the checkpoint
(R246, R258). -/
def restoreArray (now then_ : SeaArray) : SeaArray :=
  if now.fused && then_.fused then
    { then_ with set0 := { now.set0 with used := then_.set0.used }, set1 := { now.set1 with used := then_.set1.used } }
  else then_

def restoreSea (now then_ : SeaSt) : SeaSt :=
  { arrays := List.zipWith restoreArray now.arrays then_.arrays, acc := then_.acc }

/-- The state of a context at its last checkpoint (R33): stage discarded, snapshot kept, the log replayed. -/
def ckptCtx (x : Ctx) (k : Ckpt) : Ctx :=
  let m := { x.mem with carry := k.carry, carryAtStart := k.carryAtStart, puts := k.puts, carryStage := [], stageG := [],
                        stageS := [], wr := k.wr, bobbins := k.bobbins, tiles := k.tiles }
  { x with mem := retakeBobbins ((k.win.map heldSlots).getD []) (resetBobbins m), boundary := none, commitsDone := k.commits,
           replay := x.log, draft := k.draft, sea := restoreSea x.sea k.sea, barBase := k.barBase, ends := k.ends,
           orphans := k.orphans, startAgain := if k.orphans.isEmpty then none else some k.sys }

/-- The slots that a reset empties, by bobbin and slot: filling and ready ones. -/
def emptiedSlots (m : CtxMem) : List (Nat × Nat) :=
  m.bobbins.flatMap (fun (k, b) => (List.range b.nslot).filterMap (fun i =>
    let v := mapGet 0 m.tiles (b.tbase + i)
    if v = 1 ∨ v = 2 then some (k, i) else none))

/-- The tile to which a branch goes back: the earliest that a reset empties, else where it stood (R323). -/
def rewindTile (m : CtxMem) (ticket branch stood : Nat) : Nat :=
  (m.bobbins.flatMap (fun (k, b) => b.tickets.filterMap (fun (i, t, n, tile) =>
    if t = ticket ∧ n = branch ∧ (emptiedSlots m).elem (k, i) then some tile else none))).foldl min stood

/-- A branch leads to a bobbin of context `c`. -/
def branchTo (x : Cmd) (b : Branch) (c : CtxId) : Bool :=
  (b.dk == 1 && x.ctx == c) || (b.dk == 2 && c == .node b.node)

/-- A command whose source or branches lie in the bobbins of a context that is reset to `m`: it goes back to where it
stood at the checkpoint (R323). -/
def rewindCmd (c : CtxId) (m : CtxMem) (stood : List (Nat × Nat × List Nat)) (x : Cmd) : Cmd :=
  let here := (stood.find? (fun p => p.1 == x.ticket)).map (·.2)
  let touches := (x.srcBob && x.ctx == c) || x.branches.any (fun b => branchTo x b c)
  if !touches || x.doneAt.isSome then x
  else
    { x with
      permit := false, row := 0,
      srcTile := if x.srcBob && x.ctx == c then min x.srcTile ((here.map (·.1)).getD 0) else x.srcTile,
      slot := if x.srcBob && x.ctx == c then none else x.slot,
      branches := x.branches.zipIdx.map (fun (b, i) =>
        if branchTo x b c then
          { b with next := min b.next (rewindTile m x.ticket i (nth 0 ((here.map (·.2)).getD []) i)), got := false, slot := none }
        else b) }

def rewindCmds (s : State) (c : CtxId) (m : CtxMem) (stood : List (Nat × Nat × List Nat)) : State :=
  { s with sh := { s.sh with cmds := s.sh.cmds.map (rewindCmd c m stood) } }

/-- Where every command stands. -/
def cmdsStand (s : State) : List (Nat × Nat × List Nat) :=
  s.sh.cmds.map (fun x => (x.ticket, x.srcTile, x.branches.map (·.next)))

/-! ### OPEN rows from the kind 1 image (R394, R397) -/

/-- A block of a save area, none when it cannot be read. -/
def readSave (s : State) (va : Dword) : Option Line × State :=
  match translate s va false with
  | (.fail _, s1) => (none, s1)
  | (p, s1) =>
    let (l, s2) := unitLine s1 noUnitNode p
    (if l.psn then none else some l, s2)

/-- The W64 values of a block under R112, with its events: one of another format, or with a scale other than 0, gives +0 (R102). -/
def accBlock (l : Line) : List Dword × Ev :=
  match sourceFormat l.desc l.psn none (· == .w64) with
  | (.as _ _, ev) => ((List.range 8).map (fun i => BitVec.ofNat 64 (elemBits l.data.toNat 64 i)), ev)
  | (_, ev) => (List.replicate 8 0, ev)

/-- An accumulator row from its 64 blocks: SUBST blocks are a poisoned row's. -/
def rowValues (ls : List Line) : List (Nat × Dword) × Bool × Ev :=
  let r := ls.map (fun l => if isSubst l.desc then (List.replicate 8 0, {}) else accBlock l)
  (((r.flatMap (·.1)).zipIdx.filterMap (fun (v, k) => if v = 0 then none else some (k, v))), ls.any (fun l => isSubst l.desc),
   Ev.sum (r.map (·.2)))

/-- One OPEN row's values from section 1 of a save area; a block that cannot be read stands for a poisoned one (log 47). -/
def reloadRow (id : Nat) (save : Dword) (s : State) (r : Nat) : State :=
  let (ls, s1) := (List.range 64).foldl (fun (acc : List Line × State) j =>
    let (l, t) := readSave acc.2 (save + BitVec.ofNat 64 (256 + 4096 * r + 64 * j))
    (acc.1 ++ [l.getD substLine], t)) ([], s)
  let (vals, psn, ev) := rowValues ls
  updSeaAcc (addEv s1 (.node id) ev) r vals psn
where
  updSeaAcc (s : State) (r : Nat) (vals : List (Nat × Dword)) (psn : Bool) : State :=
    updCtx s (.node id) (fun x =>
      { x with sea := { x.sea with acc := x.sea.acc.map (fun (k, v) => (k, if k = r then { v with vals := vals, psn := psn } else v)) } })

/-- Step 3 of R394. -/
def reloadRows (s : State) (id : Nat) : State :=
  match getNode s id with
  | none => s
  | some n => ((n.ctx.sea.acc.filter (fun r => r.2.opened)).map (·.1)).foldl (reloadRow id n.lrec.save) s

/-- The WAITGEs of a context wait no more at their counters; those that go on look afresh. -/
def dropWaits (s : State) (c : CtxId) : State := { s with mem := { s.mem with waits := s.mem.waits.filter (fun w => w.c != c) } }

/-- A node rolled back to its checkpoint (R394), its sources open: all that stands in its region is discarded (R127), and the region as the
checkpoint found it put back (assumption log 70). -/
def rollbackNode (s : State) (id : Nat) : State :=
  match (getNode s id).bind (·.ctx.ckpt) with
  | none => revertChannels s (BitVec.ofNat 32 id)
  | some k =>
    let s1 := dropWaits (revertChannels s (BitVec.ofNat 32 id)) (.node id)
    let s2 := updNode s1 id (fun n =>
      let m := { n.ctx.mem with bobbins := k.bobbins, tiles := k.tiles }
      { n with ctx := ckptCtx n.ctx k, win := k.win.map (rewindWin m), loading := k.win.isNone, fetched := [], closed := false,
               completing := if n.completing = some 0 then none else n.completing })
    let s3 := nextJob (reloadRows s2 id) (.event (.phaseBoundary (.node id)))
    match getNode s id with
    | some n => rewindCmds s3 (.node id) { n.ctx.mem with bobbins := k.bobbins, tiles := k.tiles } k.cmds
    | none => s3

/-! ### Firmware traps (R420 to R425) -/

/-- A VA of the active bank in the firmware window (R414). -/
def bankVa (off : Nat) : Dword := BitVec.ofNat 64 (0x7FFFFFFFC00000 + off)

/-- ENTRY and TRAPD of the header of the image that a core runs, and VERSION of one (R432). -/
def imageEntry (s : State) (c : Nat) : Dword := bankVa (leNat ((coreBank s c).readBytes 0x0C 4))
def imageTrapd (s : State) (c : Nat) : Dword := bankVa (leNat ((coreBank s c).readBytes 0x10 4))
def imageVersion (m : Store) : Word := BitVec.ofNat 32 (leNat (m.readBytes 0x04 4))

/-- EPC (R418, R421): the block VA of the trapping window, NOI, the instruction index. -/
def trapEpc (va : Dword) (idx : Option Nat) : Dword :=
  (va &&& ~~~(0xFF#64)) ||| BitVec.ofNat 64 (match idx with | some i => i % 128 | none => 128)

/-- The node in window U of a core. -/
def coreUser (k : Core) : Option Nat := k.resident[k.turn]?

/-- The payload of a crash record (R425). -/
def crashPayload (k : Core) (epc : Dword) (cause : Byte) (info : Word) : List (Nat × Nat × Nat) :=
  [(0x10, 8, k.tb0.epc.toNat), (0x18, 8, k.tb1.epc.toNat), (0x20, 8, epc.toNat), (0x28, 1, k.tb0.cause.toNat),
   (0x29, 1, k.tb1.cause.toNat), (0x2A, 1, cause.toNat), (0x2B, 1, k.resident.length), (0x2C, 4, info.toNat)]

/-- Block 0 of a draft due in a window. -/
def dueWin (va : Dword) : FwWin := { FwWin.init with draft := DraftSt.init va }

/-- The firmware of a core cleared and its entry draft started at level 0 (R415, R424). -/
def restartFirmware (s : State) (c : Nat) : State :=
  let drop (s : State) : State := (List.range 3).foldl (fun s l => dropWaits s (.fw (Fin.ofNat 16 c) (Fin.ofNat 3 l))) s
  updCore (drop s) c (fun k =>
    { k with f0 := dueWin (imageEntry s c), h1 := FwWin.init, h2 := FwWin.init, level := 0,
             tb0 := TrapBank.init, tb1 := TrapBank.init,
             ctx := { k.ctx with boundary := none
                                 mem := emptyWays { k.ctx.mem with stageG := [], stageS := [], carryStage := [], snapG := []
                                                                   snapS := [], puts := [], carry := [], carryAtStart := []
                                                                   snapW := [] } } })

/-- A core's crash record waits to be taken: every window of the core stands stopped (R424). -/
def crashWaits (s : State) (c : Nat) : Bool := posterWaits s (.crash c)

/-- A crash of core `c` (R424), up to its record. -/
def coreCrash (s : State) (c : Nat) (epc : Dword) (cause : Byte) (info : Word) : State :=
  let k := getCore s c
  let node : Word := match coreUser k with
    | some id => BitVec.ofNat 32 id
    | none => 0xFFFFFFFF#32
  if crashWaits s c then s
  else postRec s { kind := 0x07, field := c / 4, src := 8, x := c, y := 0, node := node,
                   payload := crashPayload k epc cause info, poster := .crash c }

/-- Steps 3 to 6 of a crash, its record posted. -/
def crashOver (s : State) (c : Nat) : State :=
  let s2 := restartFirmware s c
  let s3 := match coreUser (getCore s c) with
    | some id => rollbackNode s2 id
    | none => s2
  updCore s3 c (fun k => { k with crash := k.crash + 1, tvec := imageTrapd s3 c })

/-- A window frozen by a trap: what its block has apart from the handler's is kept with it. -/
def freezeWin (x : Ctx) (w : FwWin) : FwWin :=
  { w with carry := x.mem.carry, carryStage := x.mem.carryStage, start := x.mem.carryAtStart, puts := x.mem.puts,
           boundary := x.boundary, commits := x.commitsDone }

/-- A draft that starts: its carry words are zero (R145), and nothing of a block stands. -/
def clearBlock (x : Ctx) : Ctx :=
  { x with boundary := none, commitsDone := 0
           mem := { x.mem with puts := [], carry := [], carryStage := [], carryAtStart := [], snapW := [] } }

/-- What a frozen window kept, in force. -/
def thawWin (x : Ctx) (w : FwWin) : Ctx :=
  { x with boundary := w.boundary, commitsDone := w.commits
           mem := { x.mem with carry := w.carry, carryStage := w.carryStage, carryAtStart := w.start, puts := w.puts, snapW := [] } }

/-- Taking a firmware trap in window `level` of core `c` (R420), its EPC given: the trap bank written, LEVEL raised,
block 0 of the draft at TVEC due in the next window; at level 2 a crash (R424). -/
def takeTrapAt (s : State) (c level : Nat) (cause : Byte) (epc : Dword) (info : Word) : State :=
  match level with
  | 0 => updCore s c (fun k => { k with tb0 := { cause := cause, epc := epc, info := info, ret := k.tb0.ret }, level := 1,
                                        f0 := freezeWin k.ctx k.f0, h1 := dueWin k.tvec, ctx := clearBlock k.ctx })
  | 1 => updCore s c (fun k => { k with tb1 := { cause := cause, epc := epc, info := info, ret := k.tb1.ret }, level := 2,
                                        h1 := freezeWin k.ctx k.h1, h2 := dueWin k.tvec, ctx := clearBlock k.ctx })
  | _ => coreCrash s c epc cause info

/-- A trap of a window's block: EPC holds the block's VA. -/
def takeTrap (s : State) (c level : Nat) (cause : Byte) (idx : Option Nat) (info : Word) : State :=
  let va := match (coreWin (getCore s c) level).win with
    | some w => w.va
    | none => 0
  takeTrapAt s c level cause (trapEpc va idx) info

/-- A waiting TRAP's unit, told the value; one that has been told already keeps what it was told. -/
def toldTrap (v : Word) (c : Word) (u : ElemSt) : ElemSt :=
  match instrOf c with
  | some (.trap ..) => { u with pend := u.pend.map (fun p => if p.step = 1 then { p with step := 2, val := v.zeroExtend 64 } else p) }
  | _ => u

/-- A TRAP that waits in a frozen window learns the value it emits (R422). -/
def answerTrap (v : Word) (w : FwWin) : FwWin :=
  { w with win := w.win.map (fun x => { x with units := List.zipWith (toldTrap v) x.code x.units }) }

/-- The return of a marked handler window (R422, R423): H(L) discarded, LEVEL lowered, the frozen window resumes. -/
def returnTrap (s : State) (c : Nat) : State :=
  updCore s c (fun k =>
    match k.level.toNat with
    | 0 => k
    | 1 => { k with h1 := FwWin.init, level := 0, f0 := answerTrap k.tb0.ret k.f0, ctx := thawWin k.ctx k.f0 }
    | _ => { k with h2 := FwWin.init, level := 1, h1 := answerTrap k.tb1.ret k.h1, ctx := thawWin k.ctx k.h1 })

end Sys2Proof.Machine
end

