-- ==== Sys2Proof/Machine/Flags.lean ====
section
/-! DEFINITION. The counts that instructions raise (R114, R132, R452): what takes the place of flags in this machine. -/

namespace Sys2Proof.Machine

/-- One poisoned predicate or decision operand (R78, R131). -/
def countPoison (s : State) (c : CtxId) (t : Token) : State := addCount s c cntPoison (b2n t.psn)

/-- A zero divisor counts unless an operand is poisoned (R149). -/
def countDivZero (s : State) (c : CtxId) (psn : Bool) (n : Nat) : State :=
  addCount s c cntDivZero (if psn then 0 else n)

/-- A marker mismatch (R28, R138). -/
def countMismatch (s : State) (c : CtxId) : State := addCount s c cntMismatch 1

/-- A conversion's events, added to the node's counts (R114, R132). -/
def countEvents (s : State) (c : CtxId) (e : Ev) : State := addEv s c e

end Sys2Proof.Machine
end

