-- ==== Sys2Proof/Machine/Operands.lean ====
section
/-! DEFINITION. The operand forms of the scalar elements: which slots an instruction takes, and how its result leaves
(R131, R134, R135, R148). -/

namespace Sys2Proof.Machine

/-- The operand of a slot. -/
def operandAt (o : Operands) (sl : Slot) : Token :=
  match sl with
  | .a => o.a
  | .b => o.b
  | .c => o.c
  | .p => o.p

/-- A result is poisoned when any consumed data token was (R131). -/
def slotsPsn (o : Operands) (sl : List Slot) : Bool := sl.any (fun x => (operandAt o x).psn)

/-- The operand slots that an instruction may take as data. -/
def slotsA : List Slot := [.a]
def slotsAB : List Slot := [.a, .b]
def slotsABC : List Slot := [.a, .b, .c]

/-- A predicated instruction that takes data from `sl` and gives one word with the events it counts. -/
def countedFiring (sl : List Slot) (h : DHead) (f : Word → Word → Word → Word × Ev) : Firing :=
  { slots := sl, joins := sl, tgts := headTgts h, pred := h.pred
    body := fun s e o =>
      let r := f o.a.word o.b.word o.c.word
      .emit (countEvents s e.c r.2) (result (headTgts h) r.1 (slotsPsn o sl))
    onMark := passMark (headTgts h)
    resume := noResume }

/-- A predicated instruction that takes data from `sl` and gives one word. -/
def wordFiring (sl : List Slot) (h : DHead) (f : Word → Word → Word → Word) : Firing :=
  { slots := sl, joins := sl, tgts := headTgts h, pred := h.pred
    body := fun s _ o => .emit s (result (headTgts h) (f o.a.word o.b.word o.c.word) (slotsPsn o sl))
    onMark := passMark (headTgts h)
    resume := noResume }

/-- DIV and REM: the second value tells a zero divisor (R149). -/
def divideFiring (h : DHead) (f : Word → Word → Word × Nat) : Firing :=
  { slots := slotsAB, joins := slotsAB, tgts := headTgts h, pred := h.pred
    body := fun s e o =>
      let r := f o.a.word o.b.word
      let psn := slotsPsn o slotsAB
      .emit (countDivZero s e.c psn r.2) (result (headTgts h) r.1 psn)
    onMark := passMark (headTgts h)
    resume := noResume }

/-- An I-format instruction that takes slot a. -/
def immFiring (t : Tgt) (f : Word → Word) : Firing :=
  { slots := slotsA, joins := slotsA, tgts := tgt1 t
    body := fun s _ o => .emit s (result (tgt1 t) (f o.a.word) o.a.psn)
    onMark := passMark (tgt1 t)
    resume := noResume }

/-- An instruction with slot a as its trigger, which gives a word and its poison (R135). -/
def triggerFiring (t : Tgt) (f : Env → Word × Bool) : Firing :=
  { slots := slotsA, joins := slotsA, tgts := tgt1 t
    body := fun s e _ => .emit s (result (tgt1 t) (f e).1 (f e).2)
    onMark := passMark (tgt1 t)
    resume := noResume }

/-- An instruction that emits the token it takes from slot a, unchanged (R128). -/
def passFiring (sl : List Slot) (tgts : List Target) (p : Pred) : Firing :=
  { slots := sl, joins := sl, tgts := tgts, pred := p
    body := fun s _ o => .emit s (toAll tgts o.a)
    onMark := passMark tgts
    resume := noResume }

end Sys2Proof.Machine
end

