-- ==== Sys2Proof/Machine/Flow.lean ====
section
/-! DEFINITION. Group 0x0: flow and draft control (R134 to R147). -/

namespace Sys2Proof.Machine

/-- MOV (R136). -/
def execMov (h : DHead) (s : State) : Host.Outcome State Fault Refusal :=
  runUnit s (fun _ => passFiring slotsA (headTgts h) h.pred)

/-- The targets of a word of FANK's list: bits [8:0] and [24:16]. -/
def listTargets (w : Word) : List Target :=
  (readTgt (w.toNat % 512)).toList ++ (readTgt (w.toNat / 2 ^ 16 % 512)).toList

/-- FANK's targets: t0 and those of the pool words kidx to kidx + c (R137). -/
def fankTargets (w : Window) (t : Tgt) (k : Fin 256) (c : Fin 8) : List Target :=
  tgt1 t ++ (List.range (c.val + 1)).flatMap (fun j => listTargets (poolWord w (k.val + j)))

/-- FANK (R137). -/
def execFank (t : Tgt) (k : Fin 256) (c : Fin 8) (s : State) : Host.Outcome State Fault Refusal :=
  runUnit s (fun e => passFiring slotsA (fankTargets e.win t k c) .always)

/-- STEER (R138): a true p sends a to t0, a false one to t1; markers of a and p are joined and go to both. -/
def execSteer (t0 t1 : Tgt) (s : State) : Host.Outcome State Fault Refusal :=
  runUnit s (fun _ =>
    { slots := [.a, .p], joins := [.a, .p], tgts := tgt1 t0 ++ tgt1 t1
      body := fun s e o => .emit (countPoison s e.c o.p) (toAll (if o.p.isTrue then tgt1 t0 else tgt1 t1) o.a)
      onMark := passMark (tgt1 t0 ++ tgt1 t1)
      resume := noResume })

/-- MERGE with data at the head of p: the slot it selects. -/
def mergeSlot (p : Token) : Slot := if p.isTrue then .a else .b

/-- MERGE (R138): it looks at p, then only at the slot that p selects. -/
def mergeFiring (tgts : List Target) (e : Env) : Firing :=
  let base : Firing :=
    { slots := [.p, .a, .b], joins := [.p, .a, .b], tgts := tgts, body := fun s _ _ => .wait s, onMark := passMark tgts
      resume := noResume }
  match e.u.qp.head? with
  | none => base
  | some p =>
    if p.isMk then base
    else
      let sl := mergeSlot p
      if (headOf e.u sl).isMk then
        { base with slots := [sl], joins := [sl], onMark := fun s e _ => .emit (countMismatch s e.c) [] }
      else
        { base with slots := [.p, sl], joins := []
                    body := fun s e o => .emit (countPoison s e.c o.p) (toAll tgts (operandAt o sl)) }

/-- MERGE (R138). -/
def execMerge (t0 t1 : Tgt) (s : State) : Host.Outcome State Fault Refusal :=
  runUnit s (mergeFiring (tgt1 t0 ++ tgt1 t1))

/-- GATE (R138): slot b is a trigger. -/
def execGate (h : DHead) (s : State) : Host.Outcome State Fault Refusal :=
  runUnit s (fun _ => passFiring slotsAB (headTgts h) h.pred)

/-- MARK (R139): the marker due is placed when the next token of slot a arrives. -/
def markBody (tgts : List Target) (c : Fin 4096) (k : Fin 8) (s : State) (e : Env) (o : Operands) : Act :=
  let due := if e.u.mpend then toAll tgts (markerTok k.val) else []
  let n := (e.u.mcnt.toNat + 1) % 4096
  let s1 := updUnit s e.c e.i (fun u =>
    if n = c.val then { u with mcnt := 0, mpend := true } else { u with mcnt := BitVec.ofNat 12 n, mpend := false })
  .emit s1 (due ++ toAll tgts o.a)

def markOnMark (tgts : List Target) (k : Fin 8) (s : State) (e : Env) (r : Nat) : Act :=
  let out := if e.u.mpend then max r k.val else r
  .emit (updUnit s e.c e.i (fun u => { u with mpend := false, mcnt := if k.val ≤ r then 0 else u.mcnt }))
    (toAll tgts (markerTok out))

def execMark (t : Tgt) (c : Fin 4096) (k : Fin 8) (s : State) : Host.Outcome State Fault Refusal :=
  runUnit s (fun _ =>
    { slots := slotsA, joins := slotsA, tgts := tgt1 t, body := markBody (tgt1 t) c k, onMark := markOnMark (tgt1 t) k
      resume := noResume })

/-- RANKQ (R140): 0 for a data token, the rank plus 1 for a marker of rank k or above. -/
def execRankq (t : Tgt) (k : Fin 8) (s : State) : Host.Outcome State Fault Refusal :=
  runUnit s (fun _ =>
    { slots := slotsA, joins := slotsA, tgts := tgt1 t
      body := fun s _ o => .emit s (result (tgt1 t) 0 o.a.psn)
      onMark := fun s _ r => .emit s (if k.val ≤ r then result (tgt1 t) (BitVec.ofNat 32 (r + 1)) false else [])
      resume := noResume })

/-- STRIP (R140): markers of rank k or below end here. -/
def execStrip (t : Tgt) (k : Fin 8) (s : State) : Host.Outcome State Fault Refusal :=
  runUnit s (fun _ =>
    { passFiring slotsA (tgt1 t) .always with
      onMark := fun s _ r => .emit s (if k.val < r then toAll (tgt1 t) (markerTok r) else []) })

/-- COUNT (R141): data tokens are counted; a marker of rank k or above is preceded by the count, which returns to 0. -/
def execCount (t : Tgt) (k : Fin 8) (s : State) : Host.Outcome State Fault Refusal :=
  runUnit s (fun _ =>
    { slots := slotsA, joins := slotsA, tgts := tgt1 t
      body := fun s e _ => .emit (updUnit s e.c e.i (fun u => { u with ccnt := u.ccnt + 1 })) []
      onMark := fun s e r =>
        if k.val ≤ r then
          .emit (updUnit s e.c e.i (fun u => { u with ccnt := 0 }))
            (result (tgt1 t) e.u.ccnt false ++ toAll (tgt1 t) (markerTok r))
        else .emit s (toAll (tgt1 t) (markerTok r))
      resume := noResume })

/-- GETW (R146): the value that Ww held when the block started. -/
def execGetw (t : Tgt) (w : Fin 64) (s : State) : Host.Outcome State Fault Refusal :=
  runUnit s (fun _ => triggerFiring t (fun e =>
    let v := mapGet Carry.zero e.ctx.mem.carryAtStart w.val
    (v.val, v.psn)))

/-- PUTW (R146): the block's final value for Ww recorded; a poisoned token records a poisoned 0 and counts. -/
def execPutw (t : Tgt) (w : Fin 64) (s : State) : Host.Outcome State Fault Refusal :=
  runUnit s (fun _ =>
    { passFiring slotsA (tgt1 t) .always with
      body := fun s e o =>
        let v : Carry := if o.a.psn then { val := 0, psn := true } else { val := o.a.word, psn := false }
        .emit (updCtx (countPoison s e.c o.a) e.c (fun x => { x with mem := { x.mem with puts := mapPut x.mem.puts w.val v } }))
          (toAll (tgt1 t) o.a) })

/-- CONST (R142): the pool words in turn; `n` is the count less one. -/
def execConst (t : Tgt) (k : Fin 256) (n : Fin 16) (s : State) : Host.Outcome State Fault Refusal :=
  runUnit s (fun _ =>
    { slots := slotsA, joins := slotsA, tgts := tgt1 t
      body := fun s e _ =>
        .emit (updUnit s e.c e.i (fun u => { u with cidx := Fin.ofNat 16 ((u.cidx.val + 1) % (n.val + 1)) }))
          (result (tgt1 t) (poolWord e.win (k.val + e.u.cidx.val)) false)
      onMark := fun s e r =>
        .emit (updUnit s e.c e.i (fun u => { u with cidx := 0 })) (toAll (tgt1 t) (markerTok r))
      resume := noResume })

/-- A NEXTB of instruction `idx` recorded: the highest instruction index decides, its last true firing (R12). -/
def recordNext (d : DraftSt) (idx block : Nat) : DraftSt :=
  match d.nextb with
  | some (j, _) => if j ≤ idx then { d with nextb := some (idx, block) } else d
  | none => { d with nextb := some (idx, block) }

/-- NEXTB and HALT: a true token records, every token passes (R143). -/
def decideFiring (t : Tgt) (f : Env → DraftSt → DraftSt) : Firing :=
  { passFiring slotsA (tgt1 t) .always with
    body := fun s e o =>
      let s1 := countPoison s e.c o.a
      .emit (if o.a.isTrue then updDraft s1 e.c (f e) else s1) (toAll (tgt1 t) o.a) }

def execNextb (t : Tgt) (i : Fin 256) (s : State) : Host.Outcome State Fault Refusal :=
  runUnit s (fun _ => decideFiring t (fun e d => recordNext d e.i i.val))

def execHalt (t : Tgt) (s : State) : Host.Outcome State Fault Refusal :=
  runUnit s (fun _ => decideFiring t (fun _ d => { d with halt := true }))

/-- DROP (R144): slot a consumed, nothing emitted. -/
def execDrop (p : Pred) (s : State) : Host.Outcome State Fault Refusal :=
  runUnit s (fun _ => passFiring slotsA [] p)

end Sys2Proof.Machine
end

