-- ==== Sys2Proof/Machine/Bobbins.lean ====
section
/-! DEFINITION. Bobbins and the tile table (R184, R185, R190), and the bytes of scratch as an engine reads and fills
them (R320). -/

namespace Sys2Proof.Machine

def getBob (m : CtxMem) (k : Nat) : Option Bobbin := mapFind m.bobbins k

def putBob (m : CtxMem) (k : Nat) (b : Bobbin) : CtxMem := { m with bobbins := mapPut m.bobbins k b }

/-- The state of a slot: 0 empty, 1 filling, 2 ready, 3 draining. -/
def slotState (m : CtxMem) (b : Bobbin) (i : Nat) : BitVec 2 := mapGet 0 m.tiles (b.tbase + i)

def setSlot (m : CtxMem) (b : Bobbin) (i : Nat) (v : BitVec 2) : CtxMem :=
  { m with tiles := mapSet 0 m.tiles (b.tbase + i) v }

/-- 64-byte blocks of a slot. -/
def slotBlocks (b : Bobbin) : Nat := (b.sz + 1) * 4

/-- The scratch offset of block `j` of slot `i`. -/
def slotOfs (b : Bobbin) (i j : Nat) : Nat := b.base + i * (b.sz + 1) * 256 + 64 * j

/-- A fill takes the slot at TAIL when it is empty. -/
def takeFill (m : CtxMem) (k : Nat) (b : Bobbin) : Option (Nat × CtxMem) :=
  if slotState m b b.tail = 0 then
    some (b.tail, putBob (setSlot m b b.tail 1) k
      { b with tail := (b.tail + 1) % max 1 b.nslot, fills := b.fills.filter (fun f => f.1 != b.tail),
               tickets := b.tickets.filter (fun f => f.1 != b.tail), pops := b.pops.filter (fun f => f.slot != b.tail) })
  else none

/-- A fill completes. -/
def endFill (m : CtxMem) (k i : Nat) : CtxMem :=
  match getBob m k with
  | none => m
  | some b => if slotState m b i = 1 then setSlot m b i 2 else m

/-- A consumer takes the slot at HEAD when it is ready. -/
def takeDrain (m : CtxMem) (k : Nat) (b : Bobbin) : Option (Nat × CtxMem) :=
  if slotState m b b.head = 2 then
    some (b.head, putBob (setSlot m b b.head 3) k { b with head := (b.head + 1) % max 1 b.nslot })
  else none

/-- Finished slots empty in slot order (R190). -/
def emptyFinished : Nat → CtxMem → Nat → Bobbin → CtxMem
  | 0, m, k, b => putBob m k b
  | n + 1, m, k, b =>
    match oldestSlot m.tiles b with
    | some i =>
      if b.finished.elem i then emptyFinished n (setSlot m b i 0) k { b with finished := b.finished.filter (· != i) }
      else putBob m k b
    | none => putBob m k b

/-- Finished slots of every bobbin emptied, as far as none older drains: after a slot has left its order (R188, R189). -/
def settleSlots (m : CtxMem) : CtxMem :=
  m.bobbins.foldl (fun m p => match getBob m p.1 with
    | some b => emptyFinished b.nslot m p.1 b
    | none => m) m

/-- A consumer finishes with a slot. -/
def endDrain (m : CtxMem) (k i : Nat) : CtxMem :=
  match getBob m k with
  | none => m
  | some b =>
    if slotState m b i = 3 then emptyFinished b.nslot m k { b with finished := setInsert b.finished i } else m

def updMem (s : State) (c : CtxId) (f : CtxMem → CtxMem) : State := updCtx s c (fun x => { x with mem := f x.mem })

/-- A block of a slot as an engine reads it (R320): committed scratch under the node's staged bytes. -/
def slotLine (m : CtxMem) (b : Bobbin) (i j : Nat) : Line :=
  let o := slotOfs b i j
  overlay (m.scratch.readLine (o / 64)) (mapFind m.stageS o)

/-- A block written into a slot, at once; a poisoned one as SUBST (R113). -/
def fillLine (m : CtxMem) (b : Bobbin) (i j : Nat) (l : Line) : CtxMem :=
  { m with scratch := m.scratch.writeLine (slotOfs b i j / 64) (if l.psn then substLine else l) }

/-- A block of a slot read for context `c`: past the block's SCRATCH it is poisoned and counts (R181). -/
def slotRead (s : State) (c : CtxId) (m : CtxMem) (b : Bobbin) (i j : Nat) : Line × State :=
  if slotOfs b i j < scratchSize s c then
    let s1 := settlePart c .stageS (settlePart c .scratch s (slotOfs b i j)) (slotOfs b i j)
    (slotLine (((getCtx s1 c).map (·.mem)).getD m) b i j, s1)
  else ({ Line.zero with psn := true }, addCount s c cntPoison 1)

/-- A block written into a slot of context `c`: past the block's SCRATCH it changes nothing and counts (R181). -/
def slotFill (s : State) (c : CtxId) (b : Bobbin) (i j : Nat) (l : Line) : State :=
  if slotOfs b i j < scratchSize s c then
    updMem (renewPart s c .scratch (slotOfs b i j) (BitVec.allOnes 64)) c (fun m => fillLine m b i j l)
  else addCount s c cntPoison 1

end Sys2Proof.Machine
end

