-- ==== Sys2Proof/Machine/Streams.lean ====
section
/-! DEFINITION. Group 0x5, the stream instructions: descriptors and address generators (R210 to R219), and their
translation faults (R236 to R239). -/

namespace Sys2Proof.Machine

/-! ### Descriptors (R210) -/

structure StreamDesc where
  base : Nat
  scratch : Bool
  ns : Bool
  auto : Bool
  reb : Bool
  size : Nat
  sx : Bool
  ssc : Bool
  bob : Nat
  counts : List Nat
  strides : List Dword
  sbase : Nat
  deriving DecidableEq, Repr

def streamDesc (w : Window) (k : Nat) : StreamDesc :=
  let p (j : Nat) : Word := poolWord w (k + j)
  let d1 := p 1
  let d2 := p 2
  let nd := wbits d1 26 25 + 1
  { base := (p 0).toNat + wbits d1 22 0 * 2 ^ 32,
    scratch := wbits d1 31 30 == 1, ns := wbit d1 29, auto := wbit d1 28, reb := wbit d1 27,
    size := match wbits d1 24 23 with
      | 0 => 1
      | 1 => 2
      | 2 => 4
      | _ => 64,
    sx := wbit d2 31, ssc := wbit d2 30, bob := wbits d2 29 25,
    counts := (List.range nd).map (fun d => wbits (p (3 + 2 * d)) 23 0 + 1),
    strides := (List.range nd).map (fun d => (p (4 + 2 * d)).signExtend 64),
    sbase := (p (3 + 2 * nd)).toNat + wbits (p (4 + 2 * nd)) 22 0 * 2 ^ 32 }

/-! ### The walk (R212) -/

def genCounters (g : Gen) : List Nat := [g.c0, g.c1, g.c2, g.c3]

def setCounters (g : Gen) (l : List Nat) : Gen := { g with c0 := nth 0 l 0, c1 := nth 0 l 1, c2 := nth 0 l 2, c3 := nth 0 l 3 }

/-- The address of the current iteration, modulo 2^64. -/
def genAddr (d : StreamDesc) (g : Gen) : Dword :=
  (List.zipWith (fun c st => BitVec.ofNat 64 c * st) (genCounters g) d.strides).foldl (· + ·) (g.base + g.ofs)

/-- The next counters, and the highest dimension that the current iteration finishes. -/
def genNext : List Nat → List Nat → Nat → List Nat × Option Nat
  | c :: cs, n :: ns, d =>
    if c + 1 < n then ((c + 1) :: cs, none)
    else
      let (cs', top) := genNext cs ns (d + 1)
      (0 :: cs', some (top.getD d))
  | cs, _, _ => (cs, none)

def genTop (d : StreamDesc) (g : Gen) : Option Nat := (genNext (genCounters g) d.counts 0).2

/-- The current iteration is the run's last. -/
def genLast (d : StreamDesc) (g : Gen) : Bool := genTop d g == some (d.counts.length - 1)

/-- The generator after its current iteration. Two points are the model's choice (assumption log 81): ISSUED counts the stream's own
accesses, not the companion super-scale reads (R237), and `emitted` shuts out a pair that would apply at once as soon as an iteration
has moved its block, so that a run of LDB or STB VARIANT 01 never mixes two bases (R213). -/
def genStep (d : StreamDesc) (g : Gen) : Gen :=
  let g1 := setCounters g (genNext (genCounters g) d.counts 0).1
  let g2 := { g1 with pos := g.pos + 1, lead := false, stopped := false, emitted := true
                      issued := if g.dead then g.issued else g.issued + 1 }
  if genLast d g then { g2 with active := false, dead := false, runs := g.runs + 1, pos := 0 } else g2

def genStart (g : Gen) (o : Token) : Gen :=
  { setCounters g [0, 0, 0, 0] with active := true, dead := o.psn, ofs := if o.psn then 0 else o.word.signExtend 64, pos := 0
                                    lead := false }

/-! ### Rebase pairs (R213) -/

/-- The pair at the head of slot b, as its base, rank and poison. -/
def headPair (u : ElemSt) : Option (Dword × Nat × Bool) :=
  match u.qb with
  | lo :: hi :: _ =>
    some (BitVec.ofNat 64 (lo.word.toNat + wbits hi.word 22 0 * 2 ^ 32), wbits hi.word 26 24, lo.psn || hi.psn)
  | _ => none

/-- The pair at the head taken: its base applies, unless it is poisoned or not a multiple of the element size. -/
def applyPair (d : StreamDesc) (u : ElemSt) : ElemSt × Nat :=
  match headPair u with
  | none => (u, 0)
  | some (b, _, psn) =>
    let u1 := { u with qb := u.qb.drop 2 }
    if psn || b.toNat % d.size != 0 then (u1, 1) else ({ u1 with gen := { u1.gen with base := b } }, 0)

/-- Pairs taken when a marker of rank `r` is emitted: one per marker. -/
def pairAtMarker (d : StreamDesc) (r : Nat) (u : ElemSt) : ElemSt × Nat :=
  match headPair u with
  | none => (u, 0)
  | some (_, k, _) => if d.reb && decide (k ≤ r) then applyPair d u else (u, 0)

/-! ### Sending -/

/-- Tokens sent by a generator, with no operand taken. -/
def sendFrom (s : State) (e : Env) (out : List (Target × Token)) : State :=
  updWin s e.c (fun w => emitToks w e.i out)

/-- The unit changed, and markers emitted after `toks`, each taking a pair where one is due. -/
def genEmit (s : State) (e : Env) (d : StreamDesc) (t : Tgt) (u : ElemSt) (toks : List Token) (mk : Option Nat) : State :=
  let (u1, n) := match mk with
    | some r => pairAtMarker d r u
    | none => (u, 0)
  let marks := match mk with
    | some r => [markerTok r]
    | none => []
  let s1 := addCount (updUnit s e.c e.i (fun _ => u1)) e.c cntPoison n
  sendFrom s1 e (seqAll (tgt1 t) (toks ++ marks))

/-! ### Translation faults (R236, R237) -/

def poster (e : Env) : Poster := .gen e.c e.i

/-- The record of a generator's fault: ACCESS 0 read, 1 write, 2 AGEN probe, 6 companion. -/
def genRecord (s : State) (e : Env) (va : Dword) (cause access : Nat) : TrapRec :=
  let g := e.u.gen
  let (x, y) := unitSite s e
  { kind := 0x01, field := ctxField s e.c e.i, src := checkSrc s e, x := x, y := y, node := ctxNode e.c,
    payload := [(0x10, 8, va.toNat), (0x18, 4, g.c0), (0x1C, 4, g.c1), (0x20, 4, g.c2), (0x24, 4, g.c3), (0x28, 1, cause),
                (0x29, 1, access), (0x2A, 1, e.ctx.draft.block), (0x2B, 1, e.i), (0x2C, 4, g.runs.toNat),
                (0x30, 8, g.issued.toNat)],
    poster := poster e }

/-- The generator stops at its current iteration; while its record is unacknowledged it posts no second one (R239). -/
def genFault (s : State) (e : Env) (va : Dword) (cause access : Nat) : State :=
  let s1 := updUnit s e.c e.i (fun u => { u with gen := { u.gen with stopped := true } })
  if posterWaits s (poster e) then s1 else postRec s1 (genRecord s e va cause access)

/-- A stopped generator waits for the acknowledgement of its own record. -/
def genWaits (s : State) (e : Env) : Bool := e.u.gen.stopped && posterWaits s (poster e)

/-! ### Accesses -/

/-- What an access gives: a value, that an inserted boundary comes first, or a failed translation. -/
inductive Got where
  | val (v : Nat) (psn : Bool) (s : State)
  | full (s : State)
  | fail (cause : Nat) (s : State)

def ofRead (r : ReadRes) (i n : Nat) : Got :=
  match r with
  | .line l st s1 => let (v, p) := blockBytes l st i n; .val v p s1
  | .full s1 => .full s1
  | .fail cause s1 => .fail cause s1

/-- `n` bytes inside one block; a scratch offset out of range reads as a poisoned 0 and counts (R181). -/
def readWithin (s : State) (c : CtxId) (scr : Bool) (a : Dword) (n : Nat) (streaming : Bool) : Got :=
  if scr then
    if a.toNat < scratchSize s c then ofRead (readS s c a.toNat streaming) (a.toNat % 64) n
    else .val 0 true (addCount s c cntPoison 1)
  else ofRead (readG s c a streaming) (a.toNat % 64) n

/-- `n` committed bytes inside one global block, without the node's staged ones and apart from its snapshot (R61). -/
def readCommitted (s : State) (c : CtxId) (va : Dword) (n : Nat) : Got :=
  match resolve s c va false with
  | (.fail cause, s1) => .fail cause s1
  | (p, s1) =>
    match portLine s1 c p with
    | (some l, s2) => .val (if l.psn then 0 else lineNat l.data (va.toNat % 64) n) l.psn s2
    | (none, s2) => .full s2

/-- `n` bytes from an address, over at most two blocks: an element that straddles them, at an offset that is no multiple of its
size, is the model's choice (assumption log 28). One access out of range counts once (R181). -/
def readSpan (s : State) (c : CtxId) (scr : Bool) (a : Dword) (n : Nat) (streaming : Bool) : Got :=
  let n0 := min n (64 - a.toNat % 64)
  match readWithin s c scr a n0 streaming with
  | .val v p s1 =>
    if n0 = n || (scr && decide (scratchSize s c ≤ a.toNat)) then .val v p s1
    else
      match readWithin s1 c scr (a + BitVec.ofNat 64 n0) (n - n0) streaming with
      | .val v' p' s2 => .val (v + v' * 256 ^ n0) (p || p') s2
      | r => r
  | r => r

/-- A whole block, as a vector token; poisoned where the block is (R113, R235). -/
inductive GotTok where
  | tok (t : Token) (s : State)
  | full (s : State)
  | fail (cause : Nat) (s : State)

/-- The companion words of a group (R217): their vector token, or a fault with the VA of the word that failed (R237). -/
inductive GotSuper where
  | tok (t : Token) (s : State)
  | full (s : State)
  | fail (va : Dword) (cause : Nat) (s : State)

def ofLine (r : ReadRes) : GotTok :=
  match r with
  | .line l st s1 =>
    let o := overlay l st
    .tok (vectorTok o.data o.desc o.psn) s1
  | .full s1 => .full s1
  | .fail cause s1 => .fail cause s1

def readBlock (s : State) (c : CtxId) (scr : Bool) (a : Dword) (streaming : Bool) : GotTok :=
  if scr then
    if a.toNat < scratchSize s c then ofLine (readS s c a.toNat streaming)
    else .tok (vectorTok 0 0 true) (addCount s c cntPoison 1)
  else ofLine (readG s c a streaming)

/-- Bytes staged at an address of a block; a scratch offset out of range is dropped and counts. -/
def stageAt (s : State) (c : CtxId) (scr : Bool) (a : Dword) (mask : BitVec 64) (data : Bits512) (desc : Option Desc) :
    Bool × State :=
  if scr then
    if a.toNat < scratchSize s c then stageS s c a.toNat mask data desc else (true, addCount s c cntPoison 1)
  else stageG s c a mask data desc

/-- A SUBST block staged over the block of an address (R113). -/
def stageSubst (s : State) (c : CtxId) (scr : Bool) (a : Dword) : Bool × State :=
  stageAt s c scr a (BitVec.allOnes 64) 0 (some substDesc)

/-- The low `n` bytes of a word staged at an aligned address. -/
def stageWordAt (s : State) (c : CtxId) (scr : Bool) (a : Dword) (n : Nat) (v : Word) : Bool × State :=
  let i := a.toNat % 64
  stageAt s c scr a (byteMask i n) (putNat 0 i n v.toNat) none

/-- The low `n` bytes of a word staged at any address, over at most two blocks (assumption log 28); a poisoned word stages SUBST
blocks. One access out of range counts once (R181). -/
def stageSpan (s : State) (c : CtxId) (scr : Bool) (a : Dword) (n : Nat) (tok : Token) : Bool × State :=
  let n0 := min n (64 - a.toNat % 64)
  let put (s : State) (a : Dword) (n : Nat) (v : Word) : Bool × State :=
    if tok.psn then stageSubst s c scr a else stageWordAt s c scr a n v
  match put s a n0 tok.word with
  | (true, s1) =>
    if n0 = n || (scr && decide (scratchSize s c ≤ a.toNat)) then (true, s1)
    else put s1 (a + BitVec.ofNat 64 n0) (n - n0) (tok.word >>> (8 * n0))
  | r => r

/-- The probe of a page: a failed translation has a cause (R198, R215). -/
def probe (s : State) (c : CtxId) (va : Dword) (wr : Bool) : Option Nat × State :=
  match resolve s c va wr with
  | (.fail cause, s1) => (some cause, s1)
  | (_, s1) => (none, s1)

/-! ### LDS, LDB and AGEN: one iteration -/

/-- A poisoned token of the instruction's kind (R212, R414). -/
def deadTok (vec : Bool) : Token := if vec then vectorTok 0 substDesc true else scalarTok 0 true

def elemVal (d : StreamDesc) (v : Nat) : Word :=
  BitVec.ofNat 32 (if d.sx then wrapInt 32 (signExtend (8 * d.size) v) else v)

/-- The element of an iteration of LDS (R216). -/
def ldsTok (s : State) (e : Env) (d : StreamDesc) (a : Dword) : GotTok :=
  match readSpan s e.c d.scratch a d.size d.ns with
  | .val v p s1 => .tok (if p then scalarTok 0 true else scalarTok (elemVal d v) false) s1
  | .full s1 => .full s1
  | .fail cause s1 => .fail cause s1

/-- The block of an iteration of LDB (R217). -/
def ldbTok (s : State) (e : Env) (d : StreamDesc) (a : Dword) : GotTok :=
  readBlock s e.c d.scratch (BitVec.ofNat 64 (a.toNat / 64 * 64)) d.ns

/-- The offset of an iteration of AGEN (R218). -/
def agenTok (va w : Bool) (s : State) (e : Env) (d : StreamDesc) (a : Dword) : GotTok :=
  let v := ((if va then a else a - e.u.gen.base).setWidth 32 : Word)
  if d.scratch then
    if a.toNat < scratchSize s e.c then .tok (scalarTok v false) s
    else .tok (scalarTok v true) (addCount s e.c cntPoison 1)
  else
    match probe s e.c a w with
    | (none, s1) => .tok (scalarTok v false) s1
    | (some cause, s1) => .fail cause s1

/-- Super-scales of the companion array that the group of 32 blocks from `pos` needs (R217). -/
def superCount (d : StreamDesc) (pos : Nat) : Nat := (min 32 (d.counts.foldl (· * ·) 1 - pos) + 1) / 2

/-- The companion's words, one after another. -/
def superWords (s : State) (e : Env) (d : StreamDesc) (pos : Nat) : Nat → List Nat → Bool → GotSuper
  | 0, acc, psn => .tok (vectorTok (BitVec.ofNat 512 (packElems 32 acc)) 0x0001 psn) s
  | n + 1, acc, psn =>
    let va := BitVec.ofNat 64 (d.sbase + 2 * pos + 4 * acc.length)
    match readSpan s e.c false va 4 d.ns with
    | .val v p s1 => superWords s1 e d pos n (acc ++ [v]) (psn || p)
    | .full s1 => .full s1
    | .fail cause s1 => .fail va cause s1

/-- One iteration that emits a token; `read` makes its access. -/
def genIterate (s : State) (e : Env) (d : StreamDesc) (t : Tgt) (vec : Bool) (access : Nat)
    (read : State → Env → StreamDesc → Dword → GotTok) : State :=
  let g := e.u.gen
  let a := genAddr d g
  let leading := d.ssc && decide (g.pos % 32 = 0) && !g.lead
  let after (s1 : State) (tok : Token) : State :=
    if leading then sendFrom (updUnit s1 e.c e.i (fun u => { u with gen := { u.gen with lead := true, stopped := false, emitted := true } })) e
      (toAll (tgt1 t) tok)
    else
      let last := genLast d g
      let keep := last && !d.auto
      let g1 := { genStep d g with held := if keep then some (Fin.ofNat 8 (d.counts.length - 1)) else none }
      genEmit s1 e d t { e.u with gen := g1 } [tok] (if keep then none else genTop d g)
  if !roomFor e (tgt1 t) || genWaits s e then s
  else if g.dead then after s (deadTok vec)
  else
    let fault (va : Dword) (cause acc : Nat) (s1 : State) : State :=
      if isFirmware e.c then after s1 (deadTok vec) else genFault s1 e va cause acc
    if leading then
      match superWords s e d g.pos (superCount d g.pos) [] false with
      | .tok tok s1 => after s1 tok
      | .full s1 => s1
      | .fail va cause s1 => fault va cause 6 s1
    else
      match read s e d a with
      | .tok tok s1 => after s1 tok
      | .full s1 => s1
      | .fail cause s1 => fault a cause access s1

/-! ### Runs -/

/-- The next token of slot a: a data token starts a run, after the held marker; a marker is lifted above the generator's
own (R212). -/
def genTake (s : State) (e : Env) (d : StreamDesc) (t : Tgt) : State :=
  match e.u.qa with
  | [] => s
  | tok :: _ =>
    match tokenCheck s e tok with
    | some k => raiseCheck s k
    | none =>
      if !roomFor e (tgt1 t) then s
      else
        let u := { popSlot e.u .a with fired := e.u.fired + 1 }
        let held := e.u.gen.held.map (·.val)
        if tok.isMk then
          let r := min (tok.rank.val + d.counts.length) 6
          let r := max r (held.getD 0)
          let u1 := markSeen e.win t.isNone true tok.rank.val { u with gen := { u.gen with held := none, emitted := true } }
          genEmit s e d t u1 [] (some r)
        else
          let (u1, n) := match held with
            | some r => pairAtMarker d r u
            | none => (u, 0)
          let u2 := { u1 with gen := genStart { u1.gen with held := none } tok }
          let s1 := addCount (updUnit s e.c e.i (fun _ => u2)) e.c cntPoison (n + b2n tok.psn)
          sendFrom s1 e (seqAll (tgt1 t) (held.map markerTok).toList)

/-- A generator's step: held tokens; a pair due before the first token; the run in progress; or a new one, which counts as a
firing where firings are runs (R225). In a frozen window only the run under way goes on (R420, assumption log 69). -/
def genRun (s : State) (e : Env) (d : StreamDesc) (runs : Bool) (iterate take : State) : State :=
  let u := e.u
  if u.blk then s
  else if mustPump e.win e.i u then updWin s e.c (fun w => pumpOut w e.i)
  else if issueBlocked e || sourcesClosed s e.c then s
  else if frozen s e.c then (if u.gen.active then iterate else s)
  else if d.reb && (u.qb.take 2).any (fun t => (tokenCheck s e t).isSome) then
    match (u.qb.take 2).findSome? (tokenCheck s e) with
    | some k => raiseCheck s k
    | none => s
  else if d.reb && !u.gen.emitted && (headPair u).isSome then
    let (u1, n) := applyPair d u
    addCount (updUnit s e.c e.i (fun _ => u1)) e.c cntPoison n
  else if u.gen.active then iterate
  else if d.auto then
    if u.gen.autoDone then s
    else updUnit s e.c e.i (fun v => { v with fired := v.fired + b2n runs, gen := { genStart v.gen (scalarTok 0 false) with autoDone := true } })
  else take

/-- The accesses of a step of the generator: an iteration, or the companion words of a group (R217). -/
def stepAccesses (s1 : State) (e : Env) (d : StreamDesc) : Nat :=
  match envAt s1 e.c e.i with
  | some e1 =>
    if e1.u.gen.issued != e.u.gen.issued then 1
    else if e1.u.gen.lead && !e.u.gen.lead then superCount d e.u.gen.pos else 0
  | none => 0

/-- The residue of the token that a step of the generator brings: of a load's data, else of the 0 of its completion. -/
def stepResidue (s : State) (e : Env) (d : StreamDesc) : Nat :=
  let res (g : GotTok) : Nat := match g with
    | .tok t _ => t.res.val
    | _ => 0
  let a := genAddr d e.u.gen
  match winInstr e.win e.i with
  | some (.lds ..) => res (ldsTok s e d a)
  | some (.agen _ _ va w) => res (agenTok va w s e d a)
  | some (.ldb ..) =>
    if d.ssc && decide (e.u.gen.pos % 32 = 0) && !e.u.gen.lead then
      match superWords s e d e.u.gen.pos (superCount d e.u.gen.pos) [] false with
      | .tok t _ => t.res.val
      | _ => 0
    else res (ldbTok s e d a)
  | _ => 0

/-- The accesses of a port counted against the armed injections (R458): the one that fires is suppressed, and observes the residue
of its token, plus 1. -/
def injectStream (s : State) (e : Env) (d : StreamDesc) (s1 : State) : State :=
  let n := stepAccesses s1 e d
  if n = 0 || (ctxCore s e.c).isSome then s1
  else
    let (x, y) := unitSite s e
    match injectAt s 4 x y (ctxNode e.c) n with
    | (some _, s2) => raiseCheck s2 (unitCheck s e 0x01 (stepResidue s e d) ((stepResidue s e d + 1) % 7) true)
    | (none, _) => (injectAt s1 4 x y (ctxNode e.c) n).2

/-- A stream instruction's step on the unit in focus. -/
def runStream (s : State) (k : Fin 256) (f : Env → StreamDesc → State) : Host.Outcome State Fault Refusal :=
  match focusEnv s with
  | none => .fault .noUnit
  | some e =>
    let d := streamDesc e.win k.val
    if s.hl.inj.isEmpty then .next (f e d) else .next (injectStream s e d (f e d))

/-- LDS (R216). -/
def execLds (t : Tgt) (k : Fin 256) (s : State) : Host.Outcome State Fault Refusal :=
  runStream s k (fun e d => genRun s e d true (genIterate s e d t false 0 ldsTok) (genTake s e d t))

/-- AGEN (R218). -/
def execAgen (t : Tgt) (k : Fin 256) (va w : Bool) (s : State) : Host.Outcome State Fault Refusal :=
  runStream s k (fun e d => genRun s e d true (genIterate s e d t false 2 (agenTok va w)) (genTake s e d t))

/-! ### LDB into a bobbin (R217, VARIANT 01) -/

/-- A poisoned slot token, where the bobbin is not defined: counted. -/
def noBobbin (s : State) (e : Env) (t : Tgt) (u : ElemSt) (mk : Option Nat) (d : StreamDesc) : State :=
  genEmit (addCount s e.c cntPoison 1) e d t u [scalarTok 0 true] mk

/-- The blocks of a slot that an undefined bobbin would take: a free size (assumption log 13). -/
def undefBlocks (k : Nat) : Nat := ((Config.undefSz k).toNat + 1) * 4

/-- The higher of two markers that stand at one place (R27). -/
def maxMark (a b : Option Nat) : Option Nat :=
  match a, b with
  | some x, some y => some (max x y)
  | some x, none => some x
  | none, y => y

/-- One block of a fill: a slot is taken when none is in hand, and becomes ready with its last block. With no such
bobbin, each slot that it would take gives a poisoned token (R217, log 13). -/
def fillIterate (s : State) (e : Env) (d : StreamDesc) (t : Tgt) : State :=
  let g := e.u.gen
  let m := e.ctx.mem
  let last := genLast d g
  let keep := last && !d.auto
  let mark := maxMark (g.held.map (·.val)) (genTop d g)
  if !roomFor e (tgt1 t) || genWaits s e then s
  else
    match getBob m d.bob with
    | none =>
      let full := last || decide (undefBlocks d.bob ≤ g.done + 1)
      let g1 := { genStep d g with slot := none, done := if full then 0 else g.done + 1
                                   held := if full && !keep then none else mark.map (Fin.ofNat 8) }
      if full then noBobbin s e t { e.u with gen := g1 } (if keep then none else mark) d
      else updUnit s e.c e.i (fun u => { u with gen := g1 })
    | some b =>
      match g.slot with
      | none =>
        match takeFill m d.bob b with
        | none => s
        | some (i, m1) =>
          let m2 := match getBob m1 d.bob with
            | some b1 => putBob m1 d.bob { b1 with fills := (i, e.i, g) :: b1.fills }
            | none => m1
          updUnit (updMem s e.c (fun _ => m2)) e.c e.i (fun u => { u with gen := { u.gen with slot := some i, done := 0 } })
      | some i =>
        let full := last || decide (slotBlocks b ≤ g.done + 1)
        let after (s1 : State) (l : Line) (psn : Bool) : State :=
          let s2 := slotFill s1 e.c b i g.done l
          let g1 := { genStep d g with slot := some i, done := g.done + 1, held := mark.map (Fin.ofNat 8) }
          if full then
            let s3 := updMem s2 e.c (fun m => endFill m d.bob i)
            let g2 := { g1 with slot := none, done := 0, held := if keep then mark.map (Fin.ofNat 8) else none }
            genEmit s3 e d t { e.u with gen := g2 } [scalarTok (BitVec.ofNat 32 i) psn] (if keep then none else mark)
          else updUnit s2 e.c e.i (fun u => { u with gen := g1 })
        if g.dead then after s substLine true
        else
          match ldbTok s e d (genAddr d g) with
          | .tok tok s1 => after s1 { data := tok.data, desc := tok.desc, psn := tok.psn } false
          | .full s1 => s1
          | .fail cause s1 =>
            if isFirmware e.c then after s1 substLine true else genFault s1 e (genAddr d g) cause 0

/-- LDB (R217). -/
def execLdb (t : Tgt) (k : Fin 256) (bob : Bool) (s : State) : Host.Outcome State Fault Refusal :=
  runStream s k (fun e d =>
    genRun s e d true (if bob then fillIterate s e d t else genIterate s e d t true 0 ldbTok) (genTake s e d t))

/-! ### STS and STB -/

/-- A marker on slot a of STS or STB passes to t0. -/
def storeMark (s : State) (e : Env) (d : StreamDesc) (t : Tgt) (tok : Token) : State :=
  let u := markSeen e.win t.isNone true tok.rank.val
    { popSlot e.u .a with fired := e.u.fired + 1, gen := { e.u.gen with emitted := true } }
  genEmit s e d t u [] (some tok.rank.val)

/-- One iteration of a store that `stage` performs; `none` leaves for a later step. -/
def storeIterate (s : State) (e : Env) (d : StreamDesc) (t : Tgt) (pops : Bool)
    (stage : State → Dword → Bool × State) : State :=
  let g := e.u.gen
  let a := genAddr d g
  let u := if pops then { popSlot e.u .a with fired := e.u.fired + 1 } else e.u
  let after (s1 : State) (psn : Bool) : State :=
    genEmit s1 e d t { u with gen := { genStep d g with active := false } } [scalarTok 0 psn] none
  if !roomFor e (tgt1 t) || genWaits s e then s
  else
    match (if d.scratch then (none, s) else probe s e.c a true) with
    | (some cause, s1) => if isFirmware e.c then after s1 true else genFault s1 e a cause 1
    | (none, s1) =>
      match stage s1 a with
      | (true, s2) => after s2 false
      | (false, s2) => s2

/-- A step of STS, or of STB with VARIANT 00, on the head of slot a. -/
def storeTake (s : State) (e : Env) (d : StreamDesc) (t : Tgt) (stage : Token → State → Dword → Bool × State) : State :=
  match e.u.qa with
  | [] => s
  | tok :: _ =>
    match tokenCheck s e tok with
    | some k => raiseCheck s k
    | none =>
      if tok.isMk then (if roomFor e (tgt1 t) then storeMark s e d t tok else s)
      else storeIterate s e d t true (stage tok)

/-- STS stages the low bytes of the token; a poisoned one a SUBST block (R216). -/
def stsStage (e : Env) (d : StreamDesc) (tok : Token) (s : State) (a : Dword) : Bool × State :=
  stageSpan s e.c d.scratch a d.size tok

/-- STB stages the block and its descriptor (R217). -/
def stbStage (e : Env) (d : StreamDesc) (tok : Token) (s : State) (a : Dword) : Bool × State :=
  if tok.psn then stageSubst s e.c d.scratch a
  else stageAt s e.c d.scratch a (BitVec.allOnes 64) tok.data (some tok.desc)

/-- STS (R216). -/
def execSts (t : Tgt) (k : Fin 256) (s : State) : Host.Outcome State Fault Refusal :=
  runStream s k (fun e d => genRun s e d false s (storeTake s e d t (stsStage e d)))

/-- One block of a slot that STB drains: staged, and the slot emptied after its last (R217). That an AUTO run which ends inside a slot
empties that slot is the model's choice (assumption log 81). -/
def drainIterate (s : State) (e : Env) (d : StreamDesc) (t : Tgt) : State :=
  let g := e.u.gen
  let a := genAddr d g
  match getBob e.ctx.mem d.bob, g.slot with
  | some b, some i =>
    let l := (slotRead s e.c e.ctx.mem b i g.done).1
    let counted (t : State) : State := (slotRead t e.c e.ctx.mem b i g.done).2
    let ends := decide (slotBlocks b ≤ g.done + 1) || (d.auto && genLast d g)
    let after (s1 : State) (psn : Bool) : State :=
      let g1 := genStep d g
      if ends then
        let s2 := updMem s1 e.c (fun m => endDrain m d.bob i)
        genEmit s2 e d t { e.u with gen := { g1 with slot := none, done := 0, active := d.auto && g1.active } }
          [scalarTok (BitVec.ofNat 32 i) psn] none
      else updUnit s1 e.c e.i (fun u => { u with gen := { g1 with done := g.done + 1, active := true } })
    if !roomFor e (tgt1 t) || genWaits s e then s
    else
      match (if d.scratch then (none, s) else probe s e.c a true) with
      | (some cause, s1) => if isFirmware e.c then after s1 true else genFault s1 e a cause 1
      | (none, s1) =>
        match (if l.psn then stageSubst s1 e.c d.scratch a
          else stageAt s1 e.c d.scratch a (BitVec.allOnes 64) l.data (some l.desc)) with
        | (true, s2) => after (counted s2) false
        | (false, s2) => s2
  | _, _ => updUnit s e.c e.i (fun u => { u with gen := { u.gen with active := false, slot := none, done := 0 } })

/-- The iterations of one slot passed over, or those left of the run. -/
def skipSlot (d : StreamDesc) : Nat → Gen → Gen
  | 0, g => g
  | n + 1, g => if genLast d g then genStep d g else skipSlot d n (genStep d g)

/-- STB with VARIANT 01 takes the slot at HEAD as a consumer, which is one firing (R225); an undefined bobbin gives a poisoned
token for each slot it would take (R217, log 13): for each trigger, or with AUTO for each slot of the run. -/
def drainTake (s : State) (e : Env) (d : StreamDesc) (t : Tgt) (pops : Bool) : State :=
  let u := { (if pops then popSlot e.u .a else e.u) with fired := e.u.fired + 1 }
  match getBob e.ctx.mem d.bob with
  | none =>
    let g := if pops then { u.gen with active := false } else { skipSlot d (undefBlocks d.bob) u.gen with issued := u.gen.issued }
    if roomFor e (tgt1 t) then noBobbin s e t { u with gen := { g with emitted := true } } none d else s
  | some b =>
    match takeDrain e.ctx.mem d.bob b with
    | none => s
    | some (i, m1) =>
      updUnit (updMem s e.c (fun _ => m1)) e.c e.i (fun _ =>
        { u with gen := { u.gen with active := true, slot := some i, done := 0 } })

def drainHead (s : State) (e : Env) (d : StreamDesc) (t : Tgt) : State :=
  match e.u.qa with
  | [] => s
  | tok :: _ =>
    match tokenCheck s e tok with
    | some k => raiseCheck s k
    | none =>
      if tok.isMk then (if roomFor e (tgt1 t) then storeMark s e d t tok else s)
      else drainTake s e d t true

/-- STB (R217). -/
def execStb (t : Tgt) (k : Fin 256) (bob : Bool) (s : State) : Host.Outcome State Fault Refusal :=
  runStream s k (fun e d =>
    if bob then
      genRun s e d false (if e.u.gen.slot.isSome then drainIterate s e d t else if frozen s e.c then s else drainTake s e d t false) (drainHead s e d t)
    else genRun s e d false s (storeTake s e d t (stbStage e d)))

end Sys2Proof.Machine
end

