-- ==== Sys2Proof/Machine/Ports.lean ====
section
/-! DEFINITION. Groups 0x5 and 0x6: scalar accesses, atomics, ordering, counters, barriers and ordering tokens (R209,
R219 to R235). -/

namespace Sys2Proof.Machine

/-! ### Addresses (R209, R220) -/

/-- A formed address of space g: none when it is poisoned, or has no translation because it is not canonical. -/
def formVa (e : Env) (bsel : Fin 4) (a : Token) : Option Dword :=
  if a.psn then none
  else
    match carryVa e.ctx.mem bsel.val a.word with
    | some va => if isFirmware e.c || canonical va then some va else none
    | none => none

/-- The address of an access in spaces g and s: a VA, or an offset. -/
def formAddr (e : Env) (sp : Space) (bsel : Fin 4) (a : Token) : Option Dword :=
  match sp with
  | .g => formVa e bsel a
  | _ => if a.psn then none else some (a.word.zeroExtend 64)

def sizeBytes : Size → Nat
  | .w32 => 4
  | .w16 => 2
  | .w8 => 1

/-- A firing on data slots of a memory instruction whose markers pass. -/
def memFiring (sl : List Slot) (t : Tgt) (body : State → Env → Operands → Act) : Firing :=
  { slots := sl, joins := sl, tgts := tgt1 t, mem := true, body := body, onMark := passMark (tgt1 t), resume := noResume }

/-- A poisoned 0, counted: no access (R221, R224, R235). -/
def badAccess (s : State) (e : Env) (t : Tgt) : Act := poisonAct s e.c (tgt1 t)

/-! ### LD, LDX, ST, PREF (R221) -/

def loadWord (sx : Bool) (sz : Size) (v : Nat) : Word :=
  BitVec.ofNat 32 (if sx then wrapInt 32 (signExtend (8 * sizeBytes sz) v) else v)

/-- A load's value, from spaces g and s. -/
def loadBody (t : Tgt) (sp : Space) (bsel : Fin 4) (sx : Bool) (sz : Size) (streaming : Bool) (s : State) (e : Env)
    (o : Operands) : Act :=
  match formAddr e sp bsel o.a with
  | none => badAccess s e t
  | some a =>
    if a.toNat % sizeBytes sz ≠ 0 then badAccess s e t
    else
      match sp with
      | .w =>
        if a.toNat < 256 then
          match readW s e.c (a.toNat / 4) streaming with
          | (some v, s1) => .emit s1 (result (tgt1 t) v.val v.psn)
          | (none, s1) => .wait s1
        else badAccess s e t
      | _ =>
        match readWithin s e.c (sp == .s) a (sizeBytes sz) streaming with
        | .val v p s1 => .emit s1 (if p then poisonZero (tgt1 t) else result (tgt1 t) (loadWord sx sz v) false)
        | .full s1 => .wait s1
        | .fail _ s1 => badAccess s1 e t

/-- LD: a read under R57. -/
def execLd (m : MHead) (sp : Space) (bsel : Fin 4) (sx : Bool) (sz : Size) (s : State) : Host.Outcome State Fault Refusal :=
  runUnit s (fun _ => memFiring slotsA m.t (loadBody m.t sp bsel sx sz false))

/-- LDX: a streaming read under R214. -/
def execLdx (m : MHead) (sp : Space) (bsel : Fin 4) (sx : Bool) (sz : Size) (s : State) : Host.Outcome State Fault Refusal :=
  runUnit s (fun _ => memFiring slotsA m.t (loadBody m.t sp bsel sx sz true))

/-- A store's effect: bytes staged; poisoned data stage a SUBST block, or a poisoned carry word. -/
def storeBody (t : Tgt) (sp : Space) (bsel : Fin 4) (sz : Size) (s : State) (e : Env) (o : Operands) : Act :=
  match formAddr e sp bsel o.a with
  | none => badAccess s e t
  | some a =>
    if a.toNat % sizeBytes sz ≠ 0 then badAccess s e t
    else
      let r := match sp with
        | .w =>
          if a.toNat < 256 then
            let v : Carry := if o.b.psn then { val := 0, psn := true } else { val := o.b.word, psn := false }
            match stageW s e.c (a.toNat / 4) v with
            | (true, s1) => (true, addCount s1 e.c cntPoison (b2n o.b.psn))
            | (false, s1) => (false, s1)
          else (true, addCount s e.c cntPoison 1)
        | _ =>
          if o.b.psn then stageSubst s e.c (sp == .s) a else stageWordAt s e.c (sp == .s) a (sizeBytes sz) o.b.word
      match r with
      | (true, s1) => .emit s1 (result (tgt1 t) 0 false)
      | (false, s1) => .wait s1

/-- ST. -/
def execSt (m : MHead) (sp : Space) (bsel : Fin 4) (sz : Size) (s : State) : Host.Outcome State Fault Refusal :=
  runUnit s (fun _ => memFiring slotsAB m.t (storeBody m.t sp bsel sz))

/-- Lines of an extent. -/
def extLines : Ext → Nat
  | .line => 1
  | .sblk => 4
  | _ => 1024

/-- The lines of an extent filled into their home ways where they are absent; a memory-side frame's are in none (R221). -/
def prefetch (x : Ext) (s : State) (tgt a : Nat) : State :=
  let n := extLines x
  let k := lineKey tgt (a / (64 * n) * (64 * n))
  (List.range n).foldl (fun t j => if isMs t (k + j) || resident t (k + j) then t else (readLine t (k + j)).2) s

/-- PREF (R221): a page without translation leaves it without effect. -/
def execPref (m : MHead) (bsel : Fin 4) (x : Ext) (s : State) : Host.Outcome State Fault Refusal :=
  runUnit s (fun _ => memFiring slotsA m.t (fun s e o =>
    match (if o.a.psn then none else carryVa e.ctx.mem bsel.val o.a.word) with
    | none => badAccess s e m.t
    | some va =>
      match resolve s e.c va false with
      | (.at tgt a _, s1) => .emit (prefetch x s1 tgt a) (result (tgt1 m.t) 0 false)
      | (_, s1) => .emit s1 (result (tgt1 m.t) 0 false)))

/-! ### Memory-side operations' checks (R363, R458) -/

/-- A line written at once for a node: an armed injection at its home bank may corrupt it (R458, TKIND 6); a memory-side line
lies in none (R363). -/
def nodeWrite (s : State) (c : CtxId) (k : Nat) (mask : BitVec 64) (data : Bits512) (desc : Option Desc) : State :=
  let s1 := writeLine s k mask data desc
  if s1.hl.inj.isEmpty || isMs s k then s1
  else
    let b := homeBank k
    match injectAt s1 6 (b % 128) (b / 128) (ctxNode c) 1 with
    | (some j, s2) =>
      { s2 with mem := { s2.mem with soft := s2.mem.soft ++ [{ block := k, err := .sram k 0 (Fin.ofNat 6 j.layer) 1 }] } }
    | (none, s2) => s2

/-! ### Atomics (R222 to R224, R229) -/

/-- What an atomic at a place gives: the old value of its `n` bytes, or nothing done. -/
inductive Atomic where
  | done (old : Nat) (s : State)
  | bad (s : State)
  | check (s : State)

/-- A read half that met a block poisoned already counts at its unit (R366). -/
def poisonedHalf (s s1 : State) (k : Nat) : State := if isMs s k && (peekLine s k).psn then addUnit s1 (unitOf k) 2 1 else s1

/-- An atomic on `n` bytes in global memory, at once on the committed value (R59); nothing is written where `f` gives no new
value. -/
def atomicMay (s : State) (e : Env) (va : Dword) (n : Nat) (f : Nat → Option Nat) : Atomic :=
  match resolve s e.c va true with
  | (.at tgt a _, s1) =>
    let k := lineKey tgt a
    let go (s2 : State) : Atomic :=
      let (l, s3) := readLine s2 k
      if l.psn then .bad (poisonedHalf s2 s3 k)
      else
        let old := lineNat l.data (a % 64) n
        .done old (match f old with
          | some v => nodeWrite s3 e.c k (byteMask (a % 64) n) (putNat 0 (a % 64) n v) none
          | none => s3)
    match portOp s1 e.c (some e.i) k with
    | (true, s2) => go s2
    | (false, s2) => .check s2
  | (_, s1) => .bad s1

/-- An atomic on `n` bytes in global memory that always writes (R223). -/
def atomicG (s : State) (e : Env) (va : Dword) (n : Nat) (f : Nat → Nat) : Atomic := atomicMay s e va n (fun old => some (f old))

/-- An atomic on a word of committed scratch. -/
def atomicS (s : State) (e : Env) (ofs : Nat) (n : Nat) (f : Nat → Nat) : Atomic :=
  if ofs < scratchSize s e.c then
    let s := settlePart e.c .scratch s (ofs / 64 * 64)
    let l := (((getCtx s e.c).map (·.mem)).getD e.ctx.mem).scratch.readLine (ofs / 64)
    if l.psn then .bad s
    else
      let old := lineNat l.data (ofs % 64) n
      let l1 := mergeLine l (byteMask (ofs % 64) n) (putNat 0 (ofs % 64) n (f old)) none
      .done old (updMem s e.c (fun m => { m with scratch := m.scratch.writeLine (ofs / 64) l1 }))
  else .bad s

def atomicAt (s : State) (e : Env) (sp : Space) (a : Dword) (n : Nat) (f : Nat → Nat) : Atomic :=
  match sp with
  | .g => atomicG s e a n f
  | _ => atomicS s e a.toNat n f

/-- ATOM's new value by AOP (R223). -/
def atomNew (op : Nat) (old b : Word) : Word :=
  match op with
  | 0 => old + b
  | 1 => old &&& b
  | 2 => old ||| b
  | 3 => old ^^^ b
  | 4 => if old.toInt ≤ b.toInt then old else b
  | 5 => if old.toInt ≤ b.toInt then b else old
  | 6 => if old.toNat ≤ b.toNat then old else b
  | 7 => if old.toNat ≤ b.toNat then b else old
  | 8 => b
  | 9 => fAdd .rne old b
  | 10 => fMinMax false old b
  | 11 => fMinMax true old b
  | _ => old

def logKey (e : Env) (kind : Nat) (addr : Dword) (args : List Word) : LogEntry :=
  { kind := kind, block := e.ctx.draft.block, idx := e.i, addr := addr, args := args.map (·.zeroExtend 64), ret := [] }

/-- The log's key of a firing: its address, if one is formed, and its operand tokens (R234). -/
def firingKey (e : Env) (kind : Nat) (addr : Option Dword) (used : List Slot) (o : Operands) : LogEntry :=
  { kind := kind, block := e.ctx.draft.block, idx := e.i, addr := addr.getD 0, args := used.map (fun sl => tokArg (operandAt o sl)), ret := [] }

/-- An atomic instruction of a 32-bit word: logged, and poisoned when it cannot be performed (R224, R234). -/
def atomicBody (kind : Nat) (t : Tgt) (sp : Space) (bsel : Fin 4) (used : List Slot) (f : Operands → Word → Word)
    (out : Operands → Word → Word) (s : State) (e : Env) (o : Operands) : Act :=
  logged s e (firingKey e kind (formAddr e sp bsel o.a) used o)
    (fun s1 ret => match ret with
      | [v] => .emit s1 (result (tgt1 t) (out o (v.setWidth 32)) false)
      | _ => .emit s1 (poisonZero (tgt1 t)))
    (fun s1 enter =>
      match formAddr e sp bsel o.a with
      | none => badAccess (enter s1 []) e t
      | some a =>
        if a.toNat % 4 ≠ 0 || slotsPsn o used then badAccess (enter s1 []) e t
        else
          match atomicAt s1 e sp a 4 (fun old => (f o (BitVec.ofNat 32 old)).toNat) with
          | .done old s2 =>
            .emit (enter s2 [BitVec.ofNat 64 old]) (result (tgt1 t) (out o (BitVec.ofNat 32 old)) false)
          | .bad s2 => badAccess (enter s2 []) e t
          | .check s2 => .wait s2)

/-- ATOM. -/
def execAtom (m : MHead) (sp : Space) (bsel : Fin 4) (op : Fin 16) (s : State) : Host.Outcome State Fault Refusal :=
  runUnit s (fun _ => memFiring slotsAB m.t
    (atomicBody 0x60 m.t sp bsel slotsAB (fun o old => atomNew op.val old o.b.word) (fun _ old => old)))

/-- CAS. -/
def execCas (m : MHead) (sp : Space) (bsel : Fin 4) (s : State) : Host.Outcome State Fault Refusal :=
  runUnit s (fun _ => memFiring slotsABC m.t
    (atomicBody 0x61 m.t sp bsel slotsABC (fun o old => if old = o.b.word then o.c.word else old) (fun _ old => old)))

/-- TAS: the bit is set, and its old value emitted. -/
def execTas (m : MHead) (sp : Space) (bsel : Fin 4) (s : State) : Host.Outcome State Fault Refusal :=
  runUnit s (fun _ => memFiring slotsAB m.t
    (atomicBody 0x62 m.t sp bsel slotsAB (fun o old => old ||| BitVec.ofNat 32 (2 ^ (o.b.word.toNat % 32)))
      (fun o old => boolWord (old.toNat / 2 ^ (o.b.word.toNat % 32) % 2 == 1))))

/-! ### FENCE and PHASE (R226, R227) -/

/-- FENCE: it issues when its segment has completed, and completes at once. -/
def execFence (t : Tgt) (_q : Fin 64) (s : State) : Host.Outcome State Fault Refusal :=
  runUnit s (fun _ => memFiring slotsA t (fun s _ _ => .emit s (result (tgt1 t) 0 false)))

/-- A firing that waits: its operands kept with the count it waits past. -/
def pendOf (o : Operands) (phase : Nat) (v : Dword) (step : Nat) : Pend :=
  { a := o.a, b := o.b, c := o.c, phase := phase, val := v, step := step }

/-- The count of boundaries that satisfy a scope: those at `.sys` for `.sys`, else all (R29, R61). -/
def relMark (x : Ctx) (sc : Scope) : Nat := if sc = .sys then x.sysPhase else x.phase

/-- A command held by `.rel` may start: its phase has committed, and no boundary is in progress (R61, R227). -/
def relOver (e : Env) (sc : Scope) (p : Pend) : Bool := e.ctx.boundary.isNone && decide (p.phase < relMark e.ctx sc)

/-- A boundary that an instruction of the block performs, and the firing held until it completes. -/
def holdForBoundary (s : State) (e : Env) (o : Operands) (sc : Scope) : Act :=
  .hold (askBoundary s e.c sc (.program e.i)) (pendOf o e.ctx.phase 0 1)

/-- PHASE: a boundary at its scope; 0 when it completes. -/
def execPhase (t : Tgt) (_q : Fin 64) (sc : Scope) (s : State) : Host.Outcome State Fault Refusal :=
  runUnit s (fun _ =>
    { memFiring slotsA t (fun s e o => holdForBoundary s e o sc) with
      resume := fun s e p => if p.phase < e.ctx.phase then .emit s (result (tgt1 t) 0 false) else .wait s })

/-! ### Counters (R229, R230) -/

/-- CNTADD's key in the log. -/
def cntKey (e : Env) (bsel : Fin 4) (o : Operands) : LogEntry := firingKey e 0x69 (formVa e bsel o.a) slotsAB o

/-- CNTADD answered from the log: it is not performed again. -/
def cntAnswer (t : Tgt) (s : State) (ret : List Dword) : Act :=
  match ret with
  | [v] => .emit s (result (tgt1 t) (v.setWidth 32) false)
  | _ => .emit s (poisonZero (tgt1 t))

/-- CNTADD's add, as an atomic of 64 bits, entered in the log; bits [31:0] of the old value leave. -/
def cntAdd (t : Tgt) (bsel : Fin 4) (s : State) (e : Env) (o : Operands) : Act :=
  let enter (s1 : State) (ret : List Dword) : State := logAppend s1 e.c { cntKey e bsel o with ret := ret }
  if logFull e then .wait (insertBoundary s e.c)
  else
    match formVa e bsel o.a with
    | none => badAccess (enter s []) e t
    | some va =>
      if va.toNat % 8 ≠ 0 || o.b.psn then badAccess (enter s []) e t
      else
        match atomicG s e va 8 (fun old => (old + o.b.word.toNat) % 2 ^ 64) with
        | .done old s2 => .emit (enter s2 [BitVec.ofNat 64 old]) (result (tgt1 t) (BitVec.ofNat 32 old) false)
        | .bad s2 => badAccess (enter s2 []) e t
        | .check s2 => .wait s2

/-- CNTADD answered from the log, or performed; with REL its boundary comes first. -/
def cntAddBody (t : Tgt) (bsel : Fin 4) (rel : CntRel) (s : State) (e : Env) (o : Operands) : Act :=
  let live (s1 : State) : Act :=
    match rel with
    | .none => cntAdd t bsel s1 e o
    | .dev => holdForBoundary s1 e o .dev
    | .sys => holdForBoundary s1 e o .sys
  match replayNext s e.c (cntKey e bsel o) with
  | .answered ret s1 => cntAnswer t s1 ret
  | .live s1 => live s1

/-- CNTADD. -/
def execCntadd (m : MHead) (bsel : Fin 4) (rel : CntRel) (s : State) : Host.Outcome State Fault Refusal :=
  runUnit s (fun _ =>
    { memFiring slotsAB m.t (cntAddBody m.t bsel rel) with
      resume := fun s e p =>
        if p.phase < e.ctx.phase then
          let o : Operands := { a := p.a, b := p.b, c := p.c, p := zeroTok }
          match replayNext s e.c (cntKey e bsel o) with
          | .answered ret s1 => cntAnswer m.t s1 ret
          | .live s1 => cntAdd m.t bsel s1 e o
        else .wait s })

/-- A WAITGE entered among those that wait at a line; its number. -/
def enterWait (s : State) (e : Env) (k ofs target : Nat) : State × Nat :=
  let n := s.mem.waitId
  ({ s with mem := { s.mem with waitId := n + 1, waits := s.mem.waits ++
      [{ id := n, c := e.c, idx := e.i, key := k, ofs := ofs, target := target, seen := none }] } }, n)

/-- WAITGE at its counter: it completes with the first value at or above its target that the counter takes from the firing on,
or when the counter cannot be read; else it waits there to be notified. -/
def waitgeLook (t : Tgt) (bsel : Fin 4) (s : State) (e : Env) (o : Operands) : Act :=
  match formVa e bsel o.a with
  | none => badAccess s e t
  | some va =>
    if va.toNat % 8 ≠ 0 || o.b.psn || o.c.psn then badAccess s e t
    else
      let target := o.c.word.toNat * 2 ^ 32 + o.b.word.toNat
      match resolve s e.c va false with
      | (.fail _, s1) => badAccess s1 e t
      | (p, s1) =>
        match portLine s1 e.c p with
        | (none, s2) => .wait s2
        | (some l, s2) =>
          let v := lineNat l.data (va.toNat % 64) 8
          if l.psn then badAccess s2 e t
          else if target ≤ v then .emit s2 (result (tgt1 t) (BitVec.ofNat 32 v) false)
          else
            let (s3, n) := enterWait s2 e (placeKey p) (va.toNat % 64) target
            .hold s3 (pendOf o 0 (BitVec.ofNat 64 n) 2)

/-- A WAITGE that has been notified completes; one that waits nowhere, after a rollback, looks afresh. -/
def waitgeResume (t : Tgt) (bsel : Fin 4) (s : State) (e : Env) (p : Pend) : Act :=
  match s.mem.waits.find? (fun w => w.id == p.val.toNat) with
  | none => waitgeLook t bsel s e { a := p.a, b := p.b, c := p.c, p := zeroTok }
  | some w =>
    match w.seen with
    | some v => .emit { s with mem := { s.mem with waits := s.mem.waits.erase w } } (result (tgt1 t) (BitVec.ofNat 32 v) false)
    | none => .wait s

/-- WAITGE. -/
def execWaitge (m : MHead) (bsel : Fin 4) (s : State) : Host.Outcome State Fault Refusal :=
  runUnit s (fun _ =>
    { memFiring slotsABC m.t (waitgeLook m.t bsel) with
      serial := false
      resume := waitgeResume m.t bsel })

/-! ### AGCFG (R219) -/

/-- The pair that carries a base and a rank. -/
def pairToks (t : Tgt) (b : Dword) (k : Nat) (psn : Bool) : List (Target × Token) :=
  seqAll (tgt1 t) [scalarTok (b.setWidth 32) psn, scalarTok (BitVec.ofNat 32 (b.toNat / 2 ^ 32 % 2 ^ 23 + k * 2 ^ 24)) psn]

def badPair (s : State) (e : Env) (t : Tgt) (k : Nat) : Act := .emit (addCount s e.c cntPoison 1) (pairToks t 0 k true)

/-- AGCFG's base: the operands themselves, or the 64-bit word read at that VA, logged (R234). A read under `.acq`
never sees the node's own staged bytes: with `.rel` those before it have committed (R61). That a poisoned line gives a poisoned
pair, and counts, is the model's choice (assumption log 79). -/
def agcfgAct (t : Tgt) (k : Fin 256) (od : Order) (ind : Bool) (s : State) (e : Env) (a b : Token) : Act :=
  let rank := wbits (poolWord e.win k.val) 2 0
  let va : Dword := BitVec.ofNat 64 (b.word.toNat % 2 ^ 23 * 2 ^ 32 + a.word.toNat)
  logged s e (firingKey e 0x55 (some va) slotsAB { a := a, b := b, c := zeroTok, p := zeroTok })
    (fun s1 ret => match ret with
      | [v] => .emit s1 (pairToks t v rank false)
      | _ => .emit s1 (pairToks t 0 rank true))
    (fun s1 enter =>
      if a.psn || b.psn then badPair (enter s1 []) e t rank
      else if !ind then .emit (enter s1 [va]) (pairToks t va rank false)
      else if va.toNat % 8 ≠ 0 then badPair (enter s1 []) e t rank
      else
        match (if od.acq then readCommitted s1 e.c va 8 else readWithin s1 e.c false va 8 true) with
        | .val v p s2 =>
          if p then badPair (enter s2 []) e t rank
          else .emit (enter s2 [BitVec.ofNat 64 v]) (pairToks t (BitVec.ofNat 64 v) rank false)
        | .full s2 => .wait s2
        | .fail _ s2 => badPair (enter s2 []) e t rank)

/-- AGCFG: with `.rel` it starts once the phase has committed. -/
def execAgcfg (t : Tgt) (k : Fin 256) (od : Order) (ind : Bool) (s : State) : Host.Outcome State Fault Refusal :=
  runUnit s (fun _ =>
    { memFiring slotsAB t (fun s e o =>
        if od.rel then .hold s (pendOf o (relMark e.ctx od.scope) 0 0) else agcfgAct t k od ind s e o.a o.b) with
      onMark := fun s _ _ => .emit s []
      resume := fun s e p =>
        if relOver e od.scope p then agcfgAct t k od ind s e p.a p.b else .wait s })

/-! ### Barriers (R231, R232) -/

def barId (e : Env) (k : Fin 256) : Nat := wbits (poolWord e.win k.val) 3 0

/-- `.field` acts as `.dev`. -/
def barDev (sc : Scope) : Bool := sc == .field || sc == .dev

/-- A party instruction of a barrier: its id and whether it is a `.dev` one. -/
def partyOf (w : Window) (i : Instr) : Option (Nat × Bool) :=
  match i with
  | .bar _ k o => some (wbits (poolWord w k.val) 3 0, barDev o.scope)
  | .arrv _ k _ sc => some (wbits (poolWord w k.val) 3 0, barDev sc)
  | _ => none

/-- The arrivals of each party instruction of the block for an id. -/
def partyCounts (w : Window) (id : Nat) (dev : Bool) : List Nat :=
  (w.code.zip w.units).filterMap (fun (x, u) =>
    match (instrOf x).bind (partyOf w) with
    | some (j, d) => if j = id ∧ d = dev then some u.arrived else none
    | none => none)

def minList : List Nat → Nat
  | [] => 0
  | x :: xs => xs.foldl min x

/-- The node's barrier group and count (R43); firmware has none. -/
def barGroup (s : State) (c : CtxId) : Nat × Nat :=
  match c with
  | .node id =>
    match getNode s id with
    | some n => (n.lrec.group.toNat, n.lrec.barCount.toNat)
    | none => (0, 0)
  | .fw _ _ => (0, 0)

def findBar (s : State) (group id : Nat) : Option DevBar := s.dsp.bars.find? (fun b => b.group == group && b.id == id)

/-- A `.dev` entry is held or can be had (R232). -/
def barRoom (s : State) (group id : Nat) : Bool := (findBar s group id).isSome || decide (s.dsp.bars.length < 1024)

/-- The node's arrivals for a `.dev` id: the generations before this block, and the least among its parties. -/
def nodeArrivals (s : State) (e : Env) (id : Nat) : Nat :=
  mapGet 0 e.ctx.barBase id + (match getWin s e.c with
    | some w => minList (partyCounts w id true)
    | none => 0)

/-- The tree's entry after a node's arrivals reach `n`. -/
def noteArrival (s : State) (c : CtxId) (group id n : Nat) : State :=
  match c with
  | .fw _ _ => s
  | .node nid =>
    let put (b : DevBar) : DevBar := { b with arrivals := mapPut b.arrivals nid (max n (mapGet 0 b.arrivals nid)) }
    let bars := match findBar s group id with
      | some _ => s.dsp.bars.map (fun b => if b.group = group ∧ b.id = id then put b else b)
      | none => s.dsp.bars ++ [put { group := group, id := id, arrivals := [] }]
    { s with dsp := { s.dsp with bars := bars } }

/-- A generation is complete: every party of the block, or enough nodes of the group, have arrived for it. -/
def genComplete (s : State) (e : Env) (id : Nat) (dev : Bool) (g : Nat) : Bool :=
  if dev then
    let (group, count) := barGroup s e.c
    decide (g = 0) || (match findBar s group id with
      | some b => decide (count ≤ (b.arrivals.filter (fun a => decide (g ≤ a.2))).length)
      | none => false)
  else
    match getWin s e.c with
    | some w => (partyCounts w id false).all (fun n => decide (g ≤ n))
    | none => false

/-- The next generation of a party instruction. -/
def nextGen (e : Env) (id : Nat) (dev : Bool) : Nat := (if dev then mapGet 0 e.ctx.barBase id else 0) + e.u.arrived + 1

def arrivalKey (e : Env) (op id g : Nat) : LogEntry := logKey e op (BitVec.ofNat 64 id) [BitVec.ofNat 32 g]

/-- An arrival: counted in the unit, and told to the tree; the generation arrived for. -/
def arrive (s : State) (e : Env) (id : Nat) (dev : Bool) : State × Nat :=
  let g := nextGen e id dev
  let s1 := updUnit s e.c e.i (fun u => { u with arrived := u.arrived + 1 })
  if dev then (noteArrival s1 e.c (barGroup s e.c).1 id (nodeArrivals s1 e id), g) else (s1, g)

/-- A party without a barrier group at `.dev` gives a poisoned 0 at once (R232). -/
def noGroup (s : State) (e : Env) (dev : Bool) : Bool := dev && decide ((barGroup s e.c).1 = 0)

/-- An arrival that the log answers, or that may be made and is entered (R232, R234); else `wait`. -/
def logArrival (s : State) (e : Env) (op id g : Nat) (dev : Bool) (go : State → Act) : Act :=
  match replayNext s e.c (arrivalKey e op id g) with
  | .answered _ s1 => go s1
  | .live s1 =>
    if dev && !barRoom s1 (barGroup s1 e.c).1 id then .wait s1
    else if logFull e then .wait (insertBoundary s1 e.c)
    else go (logAppend s1 e.c { arrivalKey e op id g with ret := [BitVec.ofNat 64 g] })

/-- BAR or ARRV arrives when it may; `next` goes on with its generation. -/
def arriveThen (s : State) (e : Env) (t : Tgt) (op : Nat) (k : Fin 256) (sc : Scope) (next : State → Nat → Act) : Act :=
  let id := barId e k
  let dev := barDev sc
  if noGroup s e dev then badAccess s e t
  else logArrival s e op id (nextGen e id dev) dev (fun s1 => let r := arrive s1 e id dev; next r.1 r.2)

def genOut (t : Tgt) (g : Nat) : List (Target × Token) := result (tgt1 t) (BitVec.ofNat 32 g) false

/-- BAR waits for its generation. -/
def barWait (t : Tgt) (k : Fin 256) (sc : Scope) (s : State) (e : Env) (g : Nat) (hold : State → Act) : Act :=
  if genComplete s e (barId e k) (barDev sc) g then .emit s (genOut t g) else hold s

/-- BAR: with `.rel` the arrival waits until the phase has committed (stage 0), then it waits for its generation. -/
def execBar (t : Tgt) (k : Fin 256) (od : Order) (s : State) : Host.Outcome State Fault Refusal :=
  runUnit s (fun _ =>
    { slots := slotsA, joins := slotsA, tgts := tgt1 t, cmd := true, onMark := passMark (tgt1 t), serial := false
      body := fun s e o =>
        if od.rel then .hold s (pendOf o (relMark e.ctx od.scope) 0 0)
        else arriveThen s e t 0x65 k od.scope (fun s1 g => .hold s1 (pendOf o 0 (BitVec.ofNat 64 g) 1))
      resume := fun s e p =>
        if p.step = 0 then
          if relOver e od.scope p then
            arriveThen s e t 0x65 k od.scope (fun s1 g => .hold s1 { p with val := BitVec.ofNat 64 g, step := 1 })
          else .wait s
        else barWait t k od.scope s e p.val.toNat (fun s1 => .wait s1) })

/-- ARRV: its generation leaves at once. -/
def execArrv (t : Tgt) (k : Fin 256) (rel : Bool) (sc : Scope) (s : State) : Host.Outcome State Fault Refusal :=
  runUnit s (fun _ =>
    { slots := slotsA, joins := slotsA, tgts := tgt1 t, cmd := true, onMark := passMark (tgt1 t), serial := false
      body := fun s e o =>
        if rel then .hold s (pendOf o (relMark e.ctx sc) 0 0)
        else arriveThen s e t 0x66 k sc (fun s1 g => .emit s1 (genOut t g))
      resume := fun s e p =>
        if relOver e sc p then arriveThen s e t 0x66 k sc (fun s1 g => .emit s1 (genOut t g)) else .wait s })

/-- BWAIT: the data is the generation it waits for. -/
def execBwait (t : Tgt) (k : Fin 256) (_acq : Bool) (sc : Scope) (s : State) : Host.Outcome State Fault Refusal :=
  runUnit s (fun _ =>
    { slots := slotsA, joins := slotsA, tgts := tgt1 t, cmd := true, onMark := passMark (tgt1 t), serial := false
      body := fun s e o =>
        if o.a.psn || noGroup s e (barDev sc) then badAccess s e t
        else barWait t k sc s e o.a.word.toNat (fun s1 => .hold s1 (pendOf o 0 (o.a.word.zeroExtend 64) 1))
      resume := fun s e p => barWait t k sc s e p.val.toNat (fun s1 => .wait s1) })

/-! ### Ordering tokens (R233) -/

/-- OSEND: a pulse carries neither data nor poison; markers end here. -/
def execOsend (t : Tgt) (p : Pred) (s : State) : Host.Outcome State Fault Refusal :=
  runUnit s (fun _ =>
    { slots := slotsA, joins := slotsA, tgts := tgt1 t, pred := p
      body := fun s _ _ => .emit s (toAll (tgt1 t) zeroTok)
      onMark := fun s _ _ => .emit s []
      resume := noResume })

/-- ORECV: a pulse lets the token of slot b pass; slot a takes no part in the join. -/
def execOrecv (h : DHead) (s : State) : Host.Outcome State Fault Refusal :=
  runUnit s (fun _ =>
    { slots := slotsAB, joins := [.b], tgts := headTgts h, pred := h.pred
      body := fun s _ o => .emit s (toAll (headTgts h) o.b)
      onMark := passMark (headTgts h)
      resume := noResume })

end Sys2Proof.Machine
end

