-- ==== Sys2Proof/Machine/Banks.lean ====
section
/-! DEFINITION. Group 0x7: the split, bobbins, cache maintenance, pins and scratch windows (R183 to R195). -/

namespace Sys2Proof.Machine

/-- A firing on the trigger of slot a whose markers pass. -/
def triggered (t : Tgt) (body : State → Env → Operands → Act) : Firing :=
  { slots := slotsA, joins := slotsA, tgts := tgt1 t, body := body, onMark := passMark (tgt1 t), resume := noResume }

/-- A status word sent to t0. -/
def status (t : Tgt) (s : State) (v : Nat) : Act := .emit s (result (tgt1 t) (BitVec.ofNat 32 v) false)

/-! ### SPLIT (R183) -/

/-- Scratch bytes of footprint bank `b` out of `n` banks, the carry area with bank 0 (R181). -/
def bankScratch (scratch n b : Nat) : Nat :=
  let u := (scratch + 255) / 256
  (if u ≤ b then 0 else (u - b + n - 1) / n) * 256 + (if b = 0 then 256 else 0)

/-- R181: every footprint bank holds its scratch beside `wr` region ways. -/
def scratchFits (scratch n wr : Nat) : Bool :=
  decide (wr ≤ 12) && (List.range n).all (fun b => decide (bankScratch scratch n b ≤ (12 - wr) * 16384))

/-- Ways of a core's store that a node's window takes (R409). -/
def scratchWays (scratch : Nat) : Nat := (scratch + 256 + 16383) / 16384

/-- Ways that a resident node holds: of the block that the core admitted it for, until that is in place, then of its block. -/
def residentWays (n : Node) : Nat :=
  n.ctx.mem.wr + scratchWays (match n.win with
    | some w => if n.loading then max n.admitted (winScratch w) else winScratch w
    | none => n.admitted)

/-- Ways of a core's store in use by its resident nodes: 56 in all belong to them (R408). -/
def coreWays (s : State) (c : Nat) : Nat :=
  ((getCore s c).resident.map (fun id => ((getNode s id).map residentWays).getD 0)).sum

/-- More ways can be had: R181 on a region, a free way on a core, four ways for firmware (R409, R414). -/
def canGrow (s : State) (e : Env) (n : Nat) : Bool :=
  if isFirmware e.c then decide (n ≤ 4)
  else
    match ctxCore s e.c with
    | some k => decide (coreWays s k + n ≤ 56 + e.ctx.mem.wr)
    | none => scratchFits (winScratch e.win) (footBanks s e.c) n

/-- SPLIT. -/
def execSplit (t : Tgt) (k : Fin 256) (s : State) : Host.Outcome State Fault Refusal :=
  runUnit s (fun _ =>
    { triggered t (fun s e _ =>
        let n := max (wbits (poolWord e.win k.val) 3 0) 1
        let wr := e.ctx.mem.wr
        if n < wr && waysUsed e.ctx.mem then status t s 1
        else if wr < n && !canGrow s e n then status t s 2
        else status t (updMem s e.c (fun m => { m with wr := n })) 0) with
      cmd := true })

/-! ### Bobbins (R186 to R189) -/

/-- A bobbin's words, as its number and its definition (R184). -/
def bobbinWords (w0 w1 : Word) : Nat × Bobbin :=
  (wbits w1 25 21, { base := w0.toNat, nslot := wbits w1 31 26 + 1, tbase := wbits w1 20 12, sz := wbits w1 11 0, head := 0,
                     tail := 0, finished := [], fills := [], tickets := [] })

/-- Two tile ranges share an entry. -/
def tilesMeet (a b : Bobbin) : Bool := decide (a.tbase < b.tbase + b.nslot) && decide (b.tbase < a.tbase + a.nslot)

/-- The status of R186. For a retirement BASE and SZ are ignored. R186 has no status for a BASE that R184 does not allow, one that
is no multiple of 256: none is given, and accesses take the block that holds each address (assumption log 73). -/
def bobdefStatus (s : State) (e : Env) (id : Nat) (b : Bobbin) (retire : Bool) : Nat :=
  let m := e.ctx.mem
  if (getBob m id).isSome != retire then 3
  else if 512 < b.tbase + b.nslot then 4
  else if m.bobbins.any (fun (k, x) => k != id && tilesMeet b x) then 5
  else if !retire && decide (scratchSize s e.c < b.base + b.nslot * (b.sz + 1) * 256) then 2
  else 0

def clearSlots (m : CtxMem) (b : Bobbin) : CtxMem := (List.range b.nslot).foldl (fun m i => setSlot m b i 0) m

def bobdefBody (t : Tgt) (k : Fin 256) (retire : Bool) (s : State) (e : Env) (_ : Operands) : Act :=
  let (id, b) := bobbinWords (poolWord e.win k.val) (poolWord e.win (k.val + 1))
  let st := bobdefStatus s e id b retire
  if st ≠ 0 then status t s st
  else if retire then
    match getBob e.ctx.mem id with
    | some x =>
      if (List.range x.nslot).all (fun i => slotState e.ctx.mem x i == 0) then
        status t (updMem s e.c (fun m => { m with bobbins := mapErase m.bobbins id })) 0
      else .wait s
    | none => status t s 3
  else status t (updMem s e.c (fun m => putBob (clearSlots m b) id b)) 0

def execBobdef (t : Tgt) (k : Fin 256) (retire : Bool) (s : State) : Host.Outcome State Fault Refusal :=
  runUnit s (fun _ => { triggered t (bobdefBody t k retire) with cmd := true })

/-- The trigger emitted unchanged once `n` slots from a pointer are in a state; an undefined bobbin poisons it. -/
def awaitSlots (t : Tgt) (b : Fin 32) (n : Fin 64) (from_ : Bobbin → Nat) (v : BitVec 2) : Firing :=
  triggered t (fun s e o =>
    match getBob e.ctx.mem b.val with
    | none => .emit (addCount s e.c cntPoison 1) (toAll (tgt1 t) { o.a with psn := true })
    | some x =>
      if (List.range (min (n.val + 1) x.nslot)).all (fun j =>
        slotState e.ctx.mem x ((from_ x + j) % max 1 x.nslot) == v) then .emit s (toAll (tgt1 t) o.a)
      else .wait s)

/-- BWF (R187). -/
def execBwf (t : Tgt) (b : Fin 32) (n : Fin 64) (s : State) : Host.Outcome State Fault Refusal :=
  runUnit s (fun _ => awaitSlots t b n (·.head) 2)

/-- BWE (R187). -/
def execBwe (t : Tgt) (b : Fin 32) (n : Fin 64) (s : State) : Host.Outcome State Fault Refusal :=
  runUnit s (fun _ => awaitSlots t b n (·.tail) 0)

/-- One advance of BADV; none while it must wait. -/
def badvOne (m : CtxMem) (k : Nat) (x : Bobbin) (tailSide : Bool) : Option CtxMem :=
  if tailSide then
    if slotState m x x.tail = 0 then
      let other {α : Type} (l : List (Nat × α)) := l.filter (fun f => f.1 != x.tail)
      some (putBob (setSlot m x x.tail 2) k
        { x with tail := (x.tail + 1) % max 1 x.nslot, fills := other x.fills, tickets := other x.tickets
                 pops := x.pops.filter (fun f => f.slot != x.tail) })
    else none
  else if slotState m x x.head = 2 ∨ slotState m x x.head = 3 then
    some (putBob (setSlot m x x.head 0) k { x with head := (x.head + 1) % max 1 x.nslot
                                                   finished := x.finished.filter (· != x.head) })
  else none

/-- As many advances as can be made; how many are left. -/
def badvMany (k : Nat) (tailSide : Bool) : Nat → CtxMem → CtxMem × Nat
  | 0, m => (m, 0)
  | n + 1, m =>
    match (getBob m k).bind (fun x => badvOne m k x tailSide) with
    | some m' => badvMany k tailSide n m'
    | none => (m, n + 1)

/-- BADV goes on with `n` advances (R188). -/
def badvGo (t : Tgt) (b : Fin 32) (tailSide : Bool) (s : State) (e : Env) (trig : Token) (n : Nat) (p : Pend) : Act :=
  match badvMany b.val tailSide n e.ctx.mem with
  | (m, 0) => .emit (updMem s e.c (fun _ => settleSlots m)) (toAll (tgt1 t) trig)
  | (m, k + 1) => .hold (updMem s e.c (fun _ => settleSlots m)) { p with val := BitVec.ofNat 64 (k + 1) }

/-- BADV (R188). -/
def execBadv (t : Tgt) (b : Fin 32) (tailSide : Bool) (k : Fin 64) (s : State) : Host.Outcome State Fault Refusal :=
  runUnit s (fun _ =>
    { triggered t (fun s e o =>
        match getBob e.ctx.mem b.val with
        | none => .emit (addCount s e.c cntPoison 1) (toAll (tgt1 t) { o.a with psn := true })
        | some x => badvGo t b tailSide s e o.a (min (k.val + 1) x.nslot) (pendOf o 0 0 1)) with
      resume := fun s e p => badvGo t b tailSide s e p.a p.val.toNat p })

/-- TSTAT (R189). -/
def execTstat (t : Tgt) (i : Fin 512) (s : State) : Host.Outcome State Fault Refusal :=
  runUnit s (fun _ => triggered t (fun s e _ => status t s (mapGet 0 e.ctx.mem.tiles i.val).toNat))

/-- The bobbin and slot that a unit's instruction fills or drains now. -/
def unitSlot (w : Window) (x : Word) (u : ElemSt) : Option (Nat × Nat) :=
  match u.sea.slot with
  | some p => some p
  | none =>
    match instrOf x, u.gen.slot, u.pend with
    | some (.ldb _ k true), some i, _ => some ((streamDesc w k.val).bob, i)
    | some (.stb _ k true), some i, _ => some ((streamDesc w k.val).bob, i)
    | some (.pushb _ k), _, p :: _ => some (wbits (poolWord w k.val) 12 8, p.val.toNat / 2 ^ 32)
    | some (.popb _ k), _, p :: _ => if p.step % 2 = 1 then some (wbits (poolWord w k.val) 12 8, p.val.toNat / 2 ^ 32) else none
    | _, _, _ => none

/-- A shuttle command fills or drains a slot of this context's bobbin. -/
def shuttleSlot (s : State) (c : CtxId) (bob slot : Nat) : Bool :=
  s.sh.cmds.any (fun x =>
    (x.ctx == c && x.srcBob && x.src.toNat == bob && x.slot == some slot)
      || x.branches.any (fun b => branchTo x b c && b.bob == bob && b.slot == some slot))

/-- A fill or consumer holds a tile-table entry. -/
def entryHeld (s : State) (e : Env) (i : Nat) : Bool :=
  e.ctx.mem.bobbins.any (fun (k, b) =>
    decide (b.tbase ≤ i) && decide (i < b.tbase + b.nslot)
      && ((e.win.code.zip e.win.units).any (fun (x, u) => unitSlot e.win x u == some (k, i - b.tbase)
          || u.sea.owed.any (fun o => (o.1, o.2.1) == (k, i - b.tbase)) || u.sea.again.elem (k, i - b.tbase))
        || shuttleSlot s e.c k (i - b.tbase)))

/-- A tile-table entry set: its slot is no finished one any more, and the slots that waited for it empty (R190). -/
def setTile (m : CtxMem) (i : Nat) (v : BitVec 2) : CtxMem :=
  let out (b : Bobbin) : Bobbin :=
    if b.tbase ≤ i ∧ i < b.tbase + b.nslot then { b with finished := b.finished.filter (· != i - b.tbase) } else b
  settleSlots { m with tiles := mapSet 0 m.tiles i v, bobbins := m.bobbins.map (fun p => (p.1, out p.2)) }

/-- TSET (R189). -/
def execTset (t : Tgt) (i : Fin 512) (s : State) : Host.Outcome State Fault Refusal :=
  runUnit s (fun _ => triggered t (fun s e o =>
    let old := (mapGet 0 e.ctx.mem.tiles i.val).toNat
    if o.a.psn then .emit (addCount s e.c cntPoison 1) (result (tgt1 t) (BitVec.ofNat 32 old) true)
    else if entryHeld s e i.val then .wait s
    else status t (updMem s e.c (fun m => setTile m i.val (o.a.word.setWidth 2))) old))

/-! ### Cache maintenance (R191, R192) -/

/-- Bytes of an extent. -/
def extBytes : Ext → Nat
  | .line => 64
  | .sblk => 256
  | _ => 65536

/-- Every line of an address's extent written back. -/
def writeBackRange (s : State) (tgt addr n : Nat) : State :=
  let k := lineKey tgt (addr / n * n)
  (s.mem.dirty.filter (fun d => decide (k ≤ d.1) && decide (d.1 < k + n / 64))).foldl (fun s d => writeBack s d.1) s

/-- The lines of an address's extent invalidated in their home ways, but for locked ones (R191). -/
def invalidateRange (s : State) (tgt addr n : Nat) : State := dropWays s false (lineKey tgt (addr / n * n)) (n / 64)

/-- What CWB and CFLUSH do to an extent: its dirty lines written back, and for CFLUSH its lines invalidated. -/
def cleanRange (flush : Bool) (s : State) (tgt addr n : Nat) : State :=
  if flush then invalidateRange (writeBackRange s tgt addr n) tgt addr n else writeBackRange s tgt addr n

/-- CWB and CFLUSH on an extent; a page that is not mapped is left alone. -/
def cleanBody (t : Tgt) (flush : Bool) (x : Ext) (s : State) (e : Env) (o : Operands) : Act :=
  match carryVa e.ctx.mem 0 o.a.word with
  | none => badAccess s e t
  | some va =>
    if o.a.psn then badAccess s e t
    else
      match resolve s e.c va false with
      | (.at tgt a _, s1) => .emit (cleanRange flush s1 tgt a (extBytes x)) (result (tgt1 t) 0 false)
      | (_, s1) => .emit s1 (result (tgt1 t) 0 false)

/-- CWB. -/
def execCwb (m : MHead) (x : Ext) (s : State) : Host.Outcome State Fault Refusal :=
  runUnit s (fun _ => memFiring slotsA m.t (cleanBody m.t false x))

/-- CFLUSH: with EXT 11 it ends the phase as PHASE `.dev` does. -/
def execCflush (m : MHead) (x : Ext) (s : State) : Host.Outcome State Fault Refusal :=
  runUnit s (fun _ =>
    { memFiring slotsA m.t (fun s e o => if x = .all then holdForBoundary s e o .dev else cleanBody m.t true x s e o) with
      resume := fun s e p => if p.phase < e.ctx.phase then .emit s (result (tgt1 m.t) 0 false) else .wait s })

/-- The node's staged bytes of a range of blocks discarded. -/
def dropStaged (l : List (Nat × Staged)) (lo n : Nat) : List (Nat × Staged) :=
  l.filter (fun p => decide (p.1 < lo) || decide (lo + n ≤ p.1))

/-- CINV. -/
def execCinv (m : MHead) (sp : Space) (x : Ext) (s : State) : Host.Outcome State Fault Refusal :=
  runUnit s (fun _ => memFiring slotsA m.t (fun s e o =>
    if x = .all then
      .emit (updMem s e.c (fun m => { m with stageG := [], stageS := [] })) (result (tgt1 m.t) 0 false)
    else
      match (if sp = .g then carryVa e.ctx.mem 0 o.a.word else some (o.a.word.zeroExtend 64)) with
      | none => badAccess s e m.t
      | some a =>
        if o.a.psn then badAccess s e m.t
        else
          let n := extBytes x
          let lo := a.toNat / n * n
          .emit (updMem s e.c (fun y => if sp = .g then { y with stageG := dropStaged y.stageG lo n }
            else { y with stageS := dropStaged y.stageS lo n })) (result (tgt1 m.t) 0 false)))

/-! ### Pins (R193) -/

/-- The frame of an HBM address. -/
def frameOf (addr : Nat) : Nat := addr / 65536

def pinFrame (s : State) (f : Nat) : State :=
  let x := getFrame s f
  setFrame s f { x with pins := x.pins + 1 }

def unpinFrame (s : State) (f : Nat) : State :=
  let x := getFrame s f
  if x.pins = 0 then s else setFrame s f { x with pins := x.pins - 1 }

/-- The superblock of an address (R173), as a lock names it. -/
def lockKey (tgt addr : Nat) : Nat := sbOf (lineKey tgt addr)

/-- The home set of a superblock. -/
def sbSet (sb : Nat) : Nat := homeSet ((sbLines sb).headD 0)

/-- A superblock can be locked: it is locked already, or its set has room for one more (R193). -/
def lockRoom (s : State) (sb : Nat) : Bool :=
  s.mem.locked.elem sb
    || decide (((dedupNat s.mem.locked).filter (fun x => sbSet x == sbSet sb)).length
      < homeWays ((sbLines sb).headD 0) - 1)

/-- A superblock's lines filled into its home ways where they are absent (R193, R221). -/
def fillLinesOf (s : State) (ks : List Nat) : State := ks.foldl (fun t k => if resident t k then t else (readLine t k).2) s

/-- The check of PIN, in order: a status other than 0 takes no pin; 5 takes the pin without the lock. -/
def pinStatus (s : State) (e : Env) (addr : Nat) : Nat :=
  let f := getFrame s (frameOf addr)
  if f.state ≠ 0 then 1 else if f.pins = 4095 then 2 else if 64 ≤ e.ctx.pins.length then 3 else 0

def logStatus (t : Tgt) (s : State) (e : Env) (k : LogEntry) (live : State → State × Nat) : Act :=
  logged s e k
    (fun s1 ret => match ret with
      | [v] => .emit s1 (result (tgt1 t) (v.setWidth 32) false)
      | _ => .emit s1 (poisonZero (tgt1 t)))
    (fun s1 enter =>
      let (s2, v) := live s1
      .emit (enter s2 [BitVec.ofNat 64 v]) (result (tgt1 t) (BitVec.ofNat 32 v) false))

/-- PIN of an HBM address. -/
def pinAt (s : State) (e : Env) (addr : Nat) (lock : Bool) : State × Nat :=
  let st := pinStatus s e addr
  if st ≠ 0 then (s, st)
  else
    let f := frameOf addr
    let sb := lockKey 0 addr
    let ok := lock && !(getFrame s f).ms && lockRoom s sb
    let s1 := updCtx (pinFrame s f) e.c (fun x => { x with pins := x.pins ++ [(f, lock, if ok then some sb else none)] })
    let s2 := if ok then
        let t := fillLinesOf s1 (sbLines sb)
        { t with mem := { t.mem with locked := t.mem.locked ++ [sb] } }
      else s1
    (s2, if lock && !ok then 5 else 0)

/-- The pin that UNPIN undoes: of the frame and kind, the superblock's own lock first. -/
def findPin (l : List (Nat × Bool × Option Nat)) (f : Nat) (lock : Bool) (sb : Nat) : Option (Nat × Bool × Option Nat) :=
  match l.find? (fun p => p.1 == f && p.2.1 == lock && p.2.2 == (if lock then some sb else none)) with
  | some p => some p
  | none => l.find? (fun p => p.1 == f && p.2.1 == lock)

/-- A held pin released. -/
def dropPin (s : State) (p : Nat × Bool × Option Nat) : State :=
  let s1 := unpinFrame s p.1
  match p.2.2 with
  | some sb => { s1 with mem := { s1.mem with locked := s1.mem.locked.erase sb } }
  | none => s1

def unpinAt (s : State) (e : Env) (addr : Nat) (lock : Bool) : State × Nat :=
  match findPin e.ctx.pins (frameOf addr) lock (lockKey 0 addr) with
  | none => (s, 3)
  | some p => (updCtx (dropPin s p) e.c (fun x => { x with pins := x.pins.erase p }), 0)

/-- PIN and UNPIN: a VA without a translation to a frame gives 4. A poisoned operand or base is logged as any other (R195). -/
def pinBody (op : Nat) (t : Tgt) (lock : Bool) (act : State → Env → Nat → Bool → State × Nat) (s : State) (e : Env)
    (o : Operands) : Act :=
  match o.a.psn, carryVa e.ctx.mem 0 o.a.word with
  | false, some va =>
    logStatus t s e (logKey e op va [boolWord lock]) (fun s1 =>
      match resolve s1 e.c va false with
      | (.at 0 a _, s2) => act s2 e a lock
      | (_, s2) => (s2, 4))
  | _, _ =>
    logged s e (firingKey e op none slotsA o) (fun s1 _ => .emit s1 (poisonZero (tgt1 t)))
      (fun s1 enter => badAccess (enter s1 []) e t)

/-- PIN. -/
def execPin (m : MHead) (lock : Bool) (s : State) : Host.Outcome State Fault Refusal :=
  runUnit s (fun _ => memFiring slotsA m.t (pinBody 0x7A m.t lock pinAt))

/-- UNPIN. -/
def execUnpin (m : MHead) (lock : Bool) (s : State) : Host.Outcome State Fault Refusal :=
  runUnit s (fun _ => memFiring slotsA m.t (pinBody 0x7B m.t lock unpinAt))

/-! ### Scratch windows (R194) -/

/-- An engine command's firing on a trigger: with `.rel` it starts once the phase has committed (R61). -/
def commandFiring (sl : List Slot) (t : Tgt) (od : Order) (act : State → Env → Operands → Act) : Firing :=
  { slots := sl, joins := sl, tgts := tgt1 t, cmd := true, onMark := passMark (tgt1 t)
    body := fun s e o => if od.rel then .hold s (pendOf o (relMark e.ctx od.scope) 0 0) else act s e o
    resume := fun s e p =>
      if relOver e od.scope p then act s e { a := p.a, b := p.b, c := p.c, p := zeroTok } else .wait s }

/-- The four pool words: VA, scratch offset, length. -/
def windowWords (w : Window) (k : Nat) : Dword × Nat × Nat :=
  (BitVec.ofNat 64 ((poolWord w k).toNat + (poolWord w (k + 1)).toNat * 2 ^ 32), (poolWord w (k + 2)).toNat,
    (poolWord w (k + 3)).toNat)

/-- The places of the pages of a range, or that one has no translation. -/
def rangePages (s : State) (c : CtxId) (wr : Bool) (page : Nat) : Nat → Option (List (Nat × Nat)) × State
  | 0 => (some [], s)
  | n + 1 =>
    match resolve s c (BitVec.ofNat 64 (page * 65536)) wr with
    | (.at tgt a _, s1) =>
      match rangePages s1 c wr (page + 1) n with
      | (some l, s2) => (some ((tgt, a) :: l), s2)
      | (none, s2) => (none, s2)
    | (_, s1) => (none, s1)

/-- A block of committed scratch as an engine reads it: past SCRATCH it reads as poison and counts (R181). -/
def scratchBlock (s : State) (c : CtxId) (n : Nat) : Line × State :=
  if 64 * n < scratchSize s c then
    let s1 := settlePart c .scratch s (64 * n)
    (((getCtx s1 c).map (fun x => x.mem.scratch.readLine n)).getD Line.zero, s1)
  else ({ Line.zero with psn := true }, addCount s c cntPoison 1)

/-- A block of scratch written by an engine: past SCRATCH it changes nothing and counts (R181). -/
def setScratchBlock (s : State) (c : CtxId) (n : Nat) (l : Line) : State :=
  if 64 * n < scratchSize s c then
    updMem (renewPart s c .scratch (64 * n) (BitVec.allOnes 64)) c
      (fun m => { m with scratch := m.scratch.writeLine n (if l.psn then substLine else l) })
  else addCount s c cntPoison 1

/-- Blocks copied from global memory to scratch, with descriptors; a poisoned one as SUBST (R113). -/
def loadWindow (c : CtxId) (s : State) (va : Dword) (ofs n : Nat) : State :=
  (List.range n).foldl (fun s j =>
    match resolve s c (va + BitVec.ofNat 64 (64 * j)) false with
    | (.fail _, s1) => s1
    | (p, s1) =>
      let (l, s2) := unitLine s1 (ctxNode c) p
      setScratchBlock s2 c (ofs / 64 + j) l) s

/-- Blocks of committed scratch written to global memory. -/
def storeWindow (c : CtxId) (s : State) (va : Dword) (ofs n : Nat) : State :=
  (List.range n).foldl (fun s j =>
    match resolve s c (va + BitVec.ofNat 64 (64 * j)) true with
    | (.at tgt a _, s1) =>
      let (l, s1) := scratchBlock s1 c (ofs / 64 + j)
      let l := if l.psn then substLine else l
      unitWrite s1 (ctxNode c) (lineKey tgt a) (fun t => nodeWrite t c (lineKey tgt a) (BitVec.allOnes 64) l.data (some l.desc))
    | (_, s1) => s1) s

/-- The frames that a window pins: those of its HBM pages. -/
def framesOf (l : List (Nat × Nat)) : List Nat := l.filterMap (fun p => if p.1 = 0 then some (frameOf p.2) else none)

/-- The frames of a window pinned in turn; none where one refuses (R194). -/
def pinFrames (s : State) : List Nat → Option State
  | [] => some s
  | f :: fs => if (getFrame s f).state != 0 || (getFrame s f).pins == 4095 then none else pinFrames (pinFrame s f) fs

/-- MAPW's checks in order (log 15 for words that are not multiples of 256). -/
def mapwDo (s : State) (e : Env) (va : Dword) (ofs len : Nat) (wr load : Bool) : State × Nat :=
  let held := e.ctx.windows
  if ofs % 256 ≠ 0 || len % 256 ≠ 0 || len = 0 || 2 ^ 22 < len || decide (e.win.persist.toNat < ofs + len) then (s, 4)
  else if 8 ≤ held.length || held.any (fun w => decide (w.ofs < ofs + len) && decide (ofs < w.ofs + w.len)) then (s, 3)
  else if va.toNat % 256 ≠ 0 || !(isFirmware e.c || canonical va) then (s, 2)
  else
    let first := va.toNat / 65536
    match rangePages s e.c wr first ((va.toNat + len - 1) / 65536 + 1 - first) with
    | (none, s1) => (s1, 2)
    | (some pages, s1) =>
      let frames := framesOf pages
      match pinFrames s1 frames with
      | none => (s1, 1)
      | some s2 =>
        let s3 := if load then loadWindow e.c s2 va ofs (len / 64) else s2
        (updCtx s3 e.c (fun x => { x with windows := x.windows ++ [{ va := va, ofs := ofs, len := len, wr := wr, frames := frames }] }), 0)

/-- MAPW's act, logged. -/
def mapwAct (t : Tgt) (k : Fin 256) (wr load : Bool) (s : State) (e : Env) : Act :=
  let (va, ofs, len) := windowWords e.win k.val
  logStatus t s e (logKey e 0x7C va [BitVec.ofNat 32 ofs, BitVec.ofNat 32 len, boolWord wr, boolWord load])
    (fun s1 => mapwDo s1 e va ofs len wr load)

/-- MAPW. -/
def execMapw (t : Tgt) (k : Fin 256) (od : Order) (wr load : Bool) (s : State) : Host.Outcome State Fault Refusal :=
  runUnit s (fun _ => commandFiring slotsA t od (fun s e _ => mapwAct t k wr load s e))

/-- UNMAPW's effect on the window at a scratch offset. -/
def unmapwDo (s : State) (e : Env) (ofs : Nat) (drop : Bool) : State × Nat :=
  match e.ctx.windows.find? (fun w => w.ofs == ofs) with
  | none => (s, 3)
  | some w =>
    let s1 := if !drop && w.wr then storeWindow e.c s w.va w.ofs (w.len / 64) else s
    let s2 := w.frames.foldl unpinFrame s1
    (updCtx s2 e.c (fun x => { x with windows := x.windows.erase w }), if !drop && !w.wr then 1 else 0)

/-- UNMAPW's act, logged. -/
def unmapwAct (t : Tgt) (k : Fin 256) (drop : Bool) (s : State) (e : Env) : Act :=
  let (va, ofs, len) := windowWords e.win k.val
  logStatus t s e (logKey e 0x7D va [BitVec.ofNat 32 ofs, BitVec.ofNat 32 len, boolWord drop]) (fun s1 => unmapwDo s1 e ofs drop)

/-- UNMAPW. -/
def execUnmapw (t : Tgt) (k : Fin 256) (od : Order) (drop : Bool) (s : State) : Host.Outcome State Fault Refusal :=
  runUnit s (fun _ => commandFiring slotsA t od (fun s e _ => unmapwAct t k drop s e))

end Sys2Proof.Machine
end

