-- ==== Sys2Proof/Machine/MemSide.lean ====
section
/-! DEFINITION. Group 0xC, the memory-side units' instructions (R369 to R377). -/

namespace Sys2Proof.Machine

/-! ### MATOM, MCAS, MTAS and MCNT (R370, R371) -/

/-- An operation of `size` bytes at a unit or home bank: its alignment, the slots it uses, the VA it acts at, whether it
may write, the new value of the bytes, if one is written, and the words it emits. -/
structure UnitOp where
  kind : Nat
  align : Nat
  size : Nat
  used : List Slot
  place : Dword → Operands → Dword
  writes : Bool
  new : Operands → Nat → Option Nat
  out : Operands → Nat → List Word
  /-- Tokens that it emits. -/
  count : Nat

def emitWords (t : Tgt) (l : List Word) : List (Target × Token) := seqAll (tgt1 t) (l.map (fun v => scalarTok v false))

/-- Poisoned zeros in place of the tokens. -/
def poisonWords (t : Tgt) (n : Nat) : List (Target × Token) := seqAll (tgt1 t) (List.replicate n (scalarTok 0 true))

def badUnit (s : State) (e : Env) (t : Tgt) (n : Nat) : Act := .emit (addCount s e.c cntPoison 1) (poisonWords t n)

/-- A read that takes its place in the block's order and writes nothing. -/
def atomicRead (s : State) (e : Env) (va : Dword) (n : Nat) : Atomic :=
  match resolve s e.c va false with
  | (.at tgt a _, s1) =>
    let k := lineKey tgt a
    let go (s2 : State) : Atomic :=
      let (l, s3) := readLine s2 k
      if l.psn then .bad (poisonedHalf s2 s3 k) else .done (lineNat l.data (a % 64) n) s3
    match portOp s1 e.c (some e.i) k with
    | (true, s2) => go s2
    | (false, s2) => .check s2
  | (.bank b, s1) =>
    let l := (placeLine s1 (.bank b)).1
    if l.psn then .bad s1 else .done (lineNat l.data (b % 64) n) s1
  | (_, s1) => .bad s1

def unitBody (t : Tgt) (bsel : Fin 4) (u : UnitOp) (s : State) (e : Env) (o : Operands) : Act :=
  let va := formVa e bsel o.a
  let at_ := va.map (fun v => u.place v o)
  logged s e (firingKey e u.kind at_ u.used o)
    (fun s1 ret => match ret with
      | [v] => .emit s1 (emitWords t (u.out o v.toNat))
      | _ => .emit s1 (poisonWords t u.count))
    (fun s1 enter =>
      match va with
      | none => badUnit (enter s1 []) e t u.count
      | some v =>
        if v.toNat % u.align ≠ 0 || slotsPsn o u.used then badUnit (enter s1 []) e t u.count
        else
          match (if u.writes then atomicMay s1 e (u.place v o) u.size (u.new o) else atomicRead s1 e (u.place v o) u.size) with
          | .done old s2 => .emit (enter s2 [BitVec.ofNat 64 old]) (emitWords t (u.out o old))
          | .bad s2 => badUnit (enter s2 []) e t u.count
          | .check s2 => .wait s2)

def samePlace (va : Dword) (_ : Operands) : Dword := va

/-- MATOM's operation on a 32-bit word. -/
def matom32 (op : Nat) : UnitOp :=
  { kind := 0xC0, align := 4, size := 4, used := slotsAB, place := samePlace, writes := true, count := 1
    new := fun o old => some (atomNew op (BitVec.ofNat 32 old) o.b.word).toNat
    out := fun _ old => [BitVec.ofNat 32 old] }

/-- The 64-bit operand c · 2^32 + b. -/
def wideOperand (o : Operands) : Nat := o.c.word.toNat * 2 ^ 32 + o.b.word.toNat

/-- MATOM's operation on a 64-bit word, AOP 12 to 15. -/
def matom64 (op : Nat) : UnitOp :=
  { kind := 0xC0, align := 8, size := 8, used := slotsABC, place := samePlace, writes := true, count := 2
    new := fun o old => some <| match op with
      | 12 => (old + wideOperand o) % 2 ^ 64
      | 13 => max old (wideOperand o)
      | 14 => min old (wideOperand o)
      | _ => wideOperand o
    out := fun _ old => [BitVec.ofNat 32 old, BitVec.ofNat 32 (old / 2 ^ 32)] }

/-- MATOM. -/
def execMatom (m : MHead) (bsel : Fin 4) (op : Fin 16) (s : State) : Host.Outcome State Fault Refusal :=
  let u := if op.val < 12 then matom32 op.val else matom64 op.val
  runUnit s (fun _ => memFiring u.used m.t (unitBody m.t bsel u))

/-- MCAS: the old value, or with FLAG whether it was equal; nothing is written unless it was. -/
def execMcas (m : MHead) (bsel : Fin 4) (flag : Bool) (s : State) : Host.Outcome State Fault Refusal :=
  runUnit s (fun _ => memFiring slotsABC m.t (unitBody m.t bsel
    { kind := 0xC1, align := 4, size := 4, used := slotsABC, place := samePlace, writes := true, count := 1
      new := fun o old => if old = o.b.word.toNat then some o.c.word.toNat else none
      out := fun o old => [if flag then boolWord (old == o.b.word.toNat) else BitVec.ofNat 32 old] }))

/-- MTAS: a bit of the bitmap from a, set or cleared; its old value. -/
def execMtas (m : MHead) (bsel : Fin 4) (clr : Bool) (s : State) : Host.Outcome State Fault Refusal :=
  runUnit s (fun _ => memFiring slotsAB m.t (unitBody m.t bsel
    { kind := 0xC2, align := 8, size := 1, used := slotsAB, writes := true, count := 1
      place := fun va o => va + BitVec.ofNat 64 (o.b.word.toNat / 8)
      new := fun o old =>
        let k := o.b.word.toNat % 8
        some (old - (old / 2 ^ k % 2) * 2 ^ k + (if clr then 0 else 2 ^ k))
      out := fun o old => [BitVec.ofNat 32 (old / 2 ^ (o.b.word.toNat % 8) % 2)] }))

/-- MCNT's new value of a counter. -/
def mcntNew (op : Nat) (o : Operands) (old : Nat) : Nat :=
  match op with
  | 0 => (BitVec.ofNat 64 old + o.b.word.signExtend 64).toNat
  | 2 => 0
  | _ => old

/-- MCNT: OP 0 emits the new value, the others the old one. -/
def execMcnt (m : MHead) (bsel : Fin 4) (op : Fin 4) (s : State) : Host.Outcome State Fault Refusal :=
  let used := if op.val = 0 then slotsAB else slotsA
  runUnit s (fun _ => memFiring used m.t (unitBody m.t bsel
    { kind := 0xC4, align := 8, size := 8, used := used, place := samePlace, writes := op.val == 0 || op.val == 2, count := 1
      new := fun o old => some (mcntNew op.val o old)
      out := fun o old => [BitVec.ofNat 32 (match op.val with
        | 0 => mcntNew 0 o old
        | 3 => old / 2 ^ 32
        | _ => old)] }))

/-! ### MRED (R372, R373) -/

structure MredWords where
  base : Nat
  nfmt : Option Fmt
  rnd : Rnd
  sat : Bool
  deriving DecidableEq, Repr

def mredWords (w : Window) (k : Nat) : MredWords :=
  let r2 := poolWord w (k + 2)
  { base := (poolWord w k).toNat + wbits (poolWord w (k + 1)) 22 0 * 2 ^ 32,
    nfmt := if wbits r2 7 0 = 0 then none else fmtOfCode (wbits r2 7 0),
    rnd := match wbits r2 9 8 with
      | 0 => .rne
      | 1 => .rtz
      | 2 => .rup
      | _ => .rdn,
    sat := wbit r2 10 }

/-- The formats that MRED reduces into. -/
def mredAccepts (f : Fmt) : Bool := [Fmt.fp32, .bf16, .fp16, .int32, .int16, .int8, .nat8].elem f

/-- The formats that a token of numbers can have. -/
def numberFmt (f : Fmt) : Bool := f != .w64 && f != .planes && f != .raw && f != .subst

/-- The maximum or minimum of R157 on exact values. -/
def mredMinMax (isMax : Bool) (x y : Num) : Num :=
  if x.isNan then y else if y.isNan then x else if numLess x y != isMax then x else y

def mredStep (op : MredOp) (r : Rnd) (x y : Num) : Num :=
  match op with
  | .add => Num.add (isDown r) x y
  | .max => mredMinMax true x y
  | .min => mredMinMax false x y

def bitIf (b : Bool) (k : Nat) : Nat := if b then 2 ^ k else 0

/-- The reduction of a token into a block: the block, unless nothing is written; the status; the events. -/
def mredLine (op : MredOp) (w : MredWords) (d : Line) (t : Token) : Option Bits512 × Nat × Ev :=
  if d.psn || t.psn then (none, 16, {})
  else
    match sourceFormat d.desc false w.nfmt mredAccepts with
    | (.as f scale, _) =>
      if !mredAccepts f then (none, 2, { fmt := 1 })
      else
        match sourceFormat t.desc false (some f) numberFmt with
        | (.as g gscale, _) =>
          if g.count ≠ f.count then (none, 2, { fmt := 1 })
          else
            let xs := blockElems (.as f scale) .zero f.count d.data
            let ys := blockElems (.as g gscale) .zero f.count t.data
            let r := (List.zipWith (mredStep op w.rnd) xs ys).map (encodeElem f w.rnd (satDefault f w.sat false) scale .zero)
            let ev := Ev.sum (r.map (·.2))
            (some (BitVec.ofNat 512 (packElems f.width (r.map (·.1)))), bitIf (ev.sat != 0) 2 + bitIf (ev.nan != 0) 3,
              { sat := ev.sat, nan := ev.nan })
        | (_, ev) => if t.desc.toNat % 256 = 0x7E then (none, 34, { subst := 1 }) else (none, 2, ev)
    | (_, _) => if t.desc.toNat % 256 = 0x7E then (none, 34, { subst := 1 }) else (none, 2, { fmt := 1 })

/-- MRED's act at a VA. -/
def mredAt (op : MredOp) (sys : Bool) (w : MredWords) (va : Dword) (o : Operands) (s : State) (e : Env)
    (done : State → Nat → Act) : Act :=
  let refused (s1 : State) : Act := done (addCount s1 e.c cntPoison 1) 1
  if o.a.psn || o.a.word.toNat % 64 ≠ 0 || !(isFirmware e.c || canonical va) then refused s
  else
    match resolve s e.c va true with
    | (.at tgt a _, s1) =>
      let k := lineKey tgt a
      match portOp s1 e.c (some e.i) k with
      | (false, s2) => .wait s2
      | (true, s2) =>
        let (d, s3) := readLine s2 k
        let (new, st, ev) := mredLine op w d o.b
        let s4 := match new with
          | some v =>
            let s4 := nodeWrite s3 e.c k (BitVec.allOnes 64) v (some d.desc)
            if sys then writeBack s4 k else s4
          | none => if d.psn then poisonedHalf s2 s3 k else s3
        done (addEv (addCount s4 e.c cntPoison (st / 16 % 2)) e.c ev) st
    | (_, s1) => refused s1

/-- MRED's operands as the log keeps them. -/
def mredKey (e : Env) (va : Dword) (o : Operands) : LogEntry :=
  { kind := 0xC3, block := e.ctx.draft.block, idx := e.i, addr := va,
    args := BitVec.ofNat 64 (b2n o.a.psn + 2 * b2n o.b.psn + 4 * o.b.desc.toNat)
      :: (List.range 8).map (fun j => BitVec.ofNat 64 (elemBits o.b.data.toNat 64 j)),
    ret := [] }

def mredVa (w : MredWords) (a : Token) : Dword := BitVec.ofNat 64 w.base + a.word.signExtend 64

def mredGo (t : Tgt) (od : Order) (op : MredOp) (k : Fin 256) (s : State) (e : Env) (o : Operands) : Act :=
  let w := mredWords e.win k.val
  let va := mredVa w o.a
  logged s e (mredKey e va o)
    (fun s1 ret => match ret with
      | [v] => status t s1 v.toNat
      | _ => .emit s1 (poisonZero (tgt1 t)))
    (fun s1 enter => mredAt op (od.scope == .sys) w va o s1 e (fun s2 st => status t (enter s2 [BitVec.ofNat 64 st]) st))

/-- MRED: answered from the log without a wait; with `.rel` it otherwise starts once the phase has committed. -/
def execMred (t : Tgt) (k : Fin 256) (od : Order) (op : MredOp) (s : State) : Host.Outcome State Fault Refusal :=
  runUnit s (fun _ =>
    { slots := slotsAB, joins := slotsAB, tgts := tgt1 t, mem := true, cmd := true, onMark := passMark (tgt1 t)
      body := fun s e o =>
        if !od.rel then mredGo t od op k s e o
        else if nextAnswers e.ctx (mredKey e (mredVa (mredWords e.win k.val) o.a) o) then mredGo t od op k s e o
        else .hold s (pendOf o (relMark e.ctx od.scope) 0 0)
      resume := fun s e p =>
        if relOver e od.scope p then mredGo t od op k s e { a := p.a, b := p.b, c := p.c, p := zeroTok }
        else .wait s })

/-! ### FRAMEM (R374 to R376) -/

/-- The frames of `n` pages of global VAs; none when one has no translation or is a host's. -/
def rangeFrames (s : State) (page : Nat) : Nat → Option (List Nat) × State
  | 0 => (some [], s)
  | n + 1 =>
    match translate s (BitVec.ofNat 64 (page * 65536)) false with
    | (.at 0 a _, s1) =>
      match rangeFrames s1 (page + 1) n with
      | (some l, s2) => (some (frameOf a :: l), s2)
      | (none, s2) => (none, s2)
    | (_, s1) => (none, s1)

/-- The entries of a TLB that cover none of `n` pages from `page` on. -/
def dropEntries (page n : Nat) (l : List TlbEntry) : List TlbEntry :=
  l.filter (fun t => decide (t.page + (if t.large then 2 ^ 13 else 1) ≤ page) || decide (page + n ≤ t.page))

/-- The TLB entries of a range of pages dropped. -/
def dropTlb (s : State) (page n : Nat) : State :=
  { s with xl := { s.xl with tlb := s.xl.tlb.map (dropEntries page n), micro := s.xl.micro.map (fun p => (p.1, dropEntries page n p.2)) } }

/-- The blocks of a frame gone from its unit's buffer. -/
def dropBuffer (s : State) (f : Nat) : State :=
  { s with mem := { s.mem with buffers := s.mem.buffers.filterMap (fun p =>
      let l := p.2.filter (fun x => keyFrame x != f)
      if l.isEmpty then none else some (p.1, l)) } }

/-- The buffered blocks of a memory-side frame written back to HBM and gone from the buffer. -/
def drainBuffer (s : State) (f : Nat) : State :=
  dropBuffer ((s.mem.dirty.filter (fun d => keyTgt d.1 == 0 && keyFrame d.1 == f && isMs s d.1)).foldl (fun t d => drainBlock t d.1) s) f

/-- One frame converted, its home-way lines written back and invalidated, its unit's buffered blocks drained. -/
def convertFrame (ms : Bool) (s : State) (f : Nat) : State :=
  let s1 := drainBuffer (dropWays (writeBackRange s 0 (f * 65536) 65536) true (f * 1024) 1024) f
  setFrame s1 f { getFrame s1 f with ms := ms }

/-- FRAMEM's checks in order, then every frame at once. -/
def framemDo (ms : Bool) (page n : Nat) (s : State) : State × Nat :=
  match rangeFrames s page n with
  | (none, s1) => (s1, 2)
  | (some l, s1) =>
    let todo := l.filter (fun f => (getFrame s1 f).ms != ms)
    if todo.any (fun f => (getFrame s1 f).state != 0) then (s1, 3)
    else if todo.any (fun f => (getFrame s1 f).pins != 0) then (s1, 1)
    else (dropTlb (todo.foldl (convertFrame ms) s1) page n, 0)

/-- FRAMEM. -/
def execFramem (t : Tgt) (k : Fin 256) (norm : Bool) (s : State) : Host.Outcome State Fault Refusal :=
  runUnit s (fun _ =>
    { triggered t (fun s e _ =>
        let p (j : Nat) : Word := poolWord e.win (k.val + j)
        let va := (p 0).toNat + wbits (p 1) 22 0 * 2 ^ 32
        let n := wbits (p 2) 15 0 + 1
        logStatus t s e (logKey e 0xC5 (BitVec.ofNat 64 va) [p 2, boolWord norm]) (fun s1 => framemDo (!norm) (va / 65536) n s1)) with
      mem := true
      cmd := true })

end Sys2Proof.Machine
end

