-- ==== Sys2Proof/Machine/Rings.lean ====
section
/-! DEFINITION. The channel unit (R328 to R344): a channel's entry, its ring and its spill, the moves of its tokens, and
its definition, release and image. -/

namespace Sys2Proof.Machine

/-! ### Entries -/

/-- RINGT (R329). -/
def ringTokens (c : Chan) : Nat := 2 ^ c.log2r.toNat / (if c.esz then 64 else 8)

/-- The difference of two pointers (R328). -/
def ptrDiff (a b : Word) : Nat := (a - b).toNat

/-! ### Slots (R330) -/

/-- The tag byte of a stored token. -/
def tagOf (t : Token) : Nat := b2n t.isMk + 2 * t.rank.val + 16 * b2n t.psn

/-- A poisoned data token of value 0. -/
def lostTok (vec : Bool) : Token := if vec then vectorTok 0 0 true else scalarTok 0 true

/-- The token of a slot's data and tag byte; a tag that no token has reads as a poisoned 0 (R339). -/
def tokOf (vec : Bool) (data : Bits512) (d : Desc) (tag : Nat) : Token :=
  let rank := bits tag 3 1
  if tag / 32 ≠ 0 ∨ rank = 7 ∨ (tag % 2 = 0 ∧ rank ≠ 0) then lostTok vec
  else if tag % 2 = 1 then markerTok rank
  else if vec then vectorTok data d (bit tag 4) else scalarTok (data.setWidth 32) (bit tag 4)

/-- A ring slot written. -/
def ringWrite (s : State) (c : Chan) (i : Nat) (t : Token) : State :=
  if c.esz then
    let a := c.rbase.toNat + 64 * i
    let s1 := writeLine s (lineKey 3 a) (BitVec.allOnes 64) t.data (some t.desc)
    { s1 with chu := { s1.chu with tags := mapSet 0 s1.chu.tags (a / 64) (BitVec.ofNat 8 (tagOf t)) } }
  else
    let a := c.rbase.toNat + 8 * i
    writeLine s (lineKey 3 a) (byteMask (a % 64) 8) (putNat 0 (a % 64) 8 (t.word.toNat + tagOf t * 2 ^ 32)) none

/-- A ring slot read; none where the banks return it uncorrectable. -/
def ringRead (s : State) (c : Chan) (i : Nat) : Option Token × State :=
  if c.esz then
    let a := c.rbase.toNat + 64 * i
    let (l, s1) := readLine s (lineKey 3 a)
    (if l.psn then none else some (tokOf true l.data l.desc (mapGet 0 s1.chu.tags (a / 64)).toNat), s1)
  else
    let a := c.rbase.toNat + 8 * i
    let (l, s1) := readLine s (lineKey 3 a)
    let v := lineNat l.data (a % 64) 8
    (if l.psn then none else some (tokOf false (BitVec.ofNat 512 (v % 2 ^ 32)) 0 (v / 2 ^ 32 % 256)), s1)

/-- `n` bytes written at a VA, when it has a writable translation. -/
def vaWrite (s : State) (va : Dword) (n v : Nat) (desc : Option Desc) : Option State × State :=
  match translate s va true with
  | (.at tgt a _, s1) =>
    (some (unitWrite s1 noUnitNode (lineKey tgt a) (fun t => writeLine t (lineKey tgt a) (byteMask (a % 64) n) (putNat 0 (a % 64) n v) desc)), s1)
  | (_, s1) => (none, s1)

/-- The VA of slot `i` of the spill, and of a vector slot's tag byte. -/
def spillVa (c : Chan) (i : Nat) : Dword := c.spill + BitVec.ofNat 64 ((if c.esz then 64 else 8) * i)
def spillTagVa (c : Chan) (i : Nat) : Dword := c.spill + BitVec.ofNat 64 (c.ceil.toNat * 64 + i)

/-- A spill slot written whole, or not at all: false when a page has no writable translation (R340). -/
def spillWrite (s : State) (c : Chan) (i : Nat) (t : Token) : Bool × State :=
  if c.esz then
    match probe1 s (spillTagVa c i) with
    | (false, s1) => (false, s1)
    | (true, s1) =>
      match vaWrite s1 (spillVa c i) 64 t.data.toNat (some t.desc) with
      | (some s2, _) =>
        match vaWrite s2 (spillTagVa c i) 1 (tagOf t) none with
        | (some s3, _) => (true, s3)
        | (none, s3) => (false, s3)
      | (none, s2) => (false, s2)
  else
    match vaWrite s (spillVa c i) 8 (t.word.toNat + tagOf t * 2 ^ 32) none with
    | (some s1, _) => (true, s1)
    | (none, s1) => (false, s1)
where
  probe1 (s : State) (va : Dword) : Bool × State :=
    match translate s va true with
    | (.at _ _ _, s1) => (true, s1)
    | (_, s1) => (false, s1)

/-- A line read at a global VA; none without a translation, or uncorrectable. -/
def vaLine (s : State) (va : Dword) : Option Line × State :=
  match translate s va false with
  | (.at tgt a w, s1) =>
    let (l, s2) := unitLine s1 noUnitNode (.at tgt a w)
    (if l.psn then none else some l, s2)
  | (_, s1) => (none, s1)

/-- A spill slot read. -/
def spillRead (s : State) (c : Chan) (i : Nat) : Option Token × State :=
  let va := spillVa c i
  match vaLine s va with
  | (none, s1) => (none, s1)
  | (some l, s1) =>
    if c.esz then
      let tv := spillTagVa c i
      match vaLine s1 tv with
      | (none, s2) => (none, s2)
      | (some tl, s2) => (some (tokOf true l.data l.desc (lineNat tl.data (tv.toNat % 64) 1)), s2)
    else
      let v := lineNat l.data (va.toNat % 64) 8
      (some (tokOf false (BitVec.ofNat 512 (v % 2 ^ 32)) 0 (v / 2 ^ 32 % 256)), s1)

/-! ### Pushing, refilling, popping (R335) -/

/-- Room for a push: the occupancy is below SOFT. -/
def pushRoom (c : Chan) : Bool := decide (ptrDiff c.ttail c.chead < c.soft.toNat)

def chPush (s : State) (k : Nat) (t : Token) : State :=
  let c := getChan s k
  let n := c.ttail.toNat
  if c.rt = c.ttail ∧ ptrDiff c.ttail c.chead < ringTokens c then
    setChan (ringWrite s c (n % max 1 (ringTokens c)) t) k
      { c with rt := c.rt + 1, ttail := c.ttail + 1, lost := setErase c.lost n }
  else
    let (ok, s1) := spillWrite s c (n % max 1 c.ceil.toNat) t
    setChan s1 k { c with ttail := c.ttail + 1, lost := if ok then setErase c.lost n else setInsert c.lost n }

/-- The refill's test. -/
def refillDue (c : Chan) : Bool := c.state != chFailed && c.rt != c.ttail && decide (ptrDiff c.rt c.chead < ringTokens c)

/-- One token moved from the spill to the ring. -/
def refillOne (s : State) (k : Nat) : State :=
  let c := getChan s k
  let n := c.rt.toNat
  if c.lost.elem n then setChan s k { c with rt := c.rt + 1 }
  else
    match spillRead s c (n % max 1 c.ceil.toNat) with
    | (some t, s1) => setChan (ringWrite s1 c (n % max 1 (ringTokens c)) t) k { c with rt := c.rt + 1 }
    | (none, s1) => setChan s1 k { c with rt := c.rt + 1, lost := setInsert c.lost n }

def refillLoop (k : Nat) : Nat → State → State
  | 0, s => s
  | n + 1, s => if refillDue (getChan s k) then refillLoop k n (refillOne s k) else s

/-- CHANNEL_REFILL runs whenever its test holds. -/
def execChannelRefill (ch : Fin 4096) (s : State) : Host.Outcome State Fault Refusal :=
  let (c, s1) := useChan s ch.val
  .next (if c.state = chFailed then s1 else refillLoop ch.val (ringTokens c) s1)

/-- The token at THEAD; none where its slot is lost (R340). -/
def headTok (s : State) (c : Chan) : Option Token × State :=
  let n := c.thead.toNat
  if c.lost.elem n then (none, s)
  else if ptrDiff c.thead c.chead < ptrDiff c.rt c.chead then ringRead s c (n % max 1 (ringTokens c))
  else spillRead s c (n % max 1 c.ceil.toNat)

/-! ### The image (R328, R334) -/

/-- The 60 bytes that the CRC covers. -/
def chanBody (c : Chan) : List Byte :=
  leBytes 4 c.rbase.toNat ++ leBytes 4 (c.log2r.toNat + 256 * b2n c.esz) ++ leBytes 4 c.soft.toNat ++ leBytes 4 c.ceil.toNat
    ++ leBytes 8 c.spill.toNat ++ leBytes 4 c.chead.toNat ++ leBytes 4 c.ctail.toNat ++ leBytes 4 c.thead.toNat
    ++ leBytes 4 c.ttail.toNat ++ leBytes 4 c.rt.toNat ++ leBytes 4 c.prod.toNat ++ leBytes 4 c.cons.toNat
    ++ leBytes 4 (c.state.toNat + c.grows.toNat * 2 ^ 16) ++ leBytes 4 0

def chanImage (c : Chan) : List Byte := chanBody c ++ leBytes 4 (crc32 (chanBody c)).toNat

/-- A 64-byte image written at a line, RAW (R96), to its backing store. -/
def putImage (s : State) (key : Nat) (bs : List Byte) : State :=
  unitWrite s noUnitNode key (fun t => writeBack (writeLine t key (BitVec.allOnes 64) (lineOfBytes bs) (some 0)) key)

/-- An entry's image written at its place in the table (R334). -/
def writeImage (s : State) (k : Nat) : State :=
  putImage s (lineKey 0 (s.chu.base.toNat * 2 ^ 18 + 64 * k)) (chanImage (getChan s k))

/-- The channel that an image describes, when R334 accepts it. -/
def imageChan (bs : List Byte) : Option Chan :=
  let f (o n : Nat) : Nat := leNat ((bs.drop o).take n)
  let w (o : Nat) : Word := BitVec.ofNat 32 (f o 4)
  if w 0x3C = crc32 (bs.take 60) ∧ bits (f 4 4) 31 9 = 0 ∧ bits (f 4 4) 7 5 = 0 ∧ f 0x34 4 = 1 ∧ f 0x38 4 = 0
      ∧ f 0x18 20 = 0 ∧ w 0x2C = noNode ∧ w 0x30 = noNode then
    some { Chan.free with rbase := w 0, esz := bit (f 4 4) 8, log2r := BitVec.ofNat 5 (f 4 4), soft := w 8, ceil := w 0x0C,
                          spill := BitVec.ofNat 64 (f 0x10 8), state := chOpenSt }
  else none

/-! ### Defining and freeing (R350) -/

/-- SB (R329); 0 when no token ever spills. -/
def spillBytes (c : Chan) : Nat :=
  let n := c.ceil.toNat
  if n ≤ ringTokens c then 0 else if c.esz then n * 64 + (n + 63) / 64 * 64 else n * 8

def ringMeets (a b : Chan) : Bool :=
  decide (a.rbase.toNat < b.rbase.toNat + 2 ^ b.log2r.toNat) && decide (b.rbase.toNat < a.rbase.toNat + 2 ^ a.log2r.toNat)

/-- The places of `n` pages from a page of a global VA, all writable. -/
def spillPages (s : State) (page : Nat) : Nat → Option (List (Nat × Nat)) × State
  | 0 => (some [], s)
  | n + 1 =>
    match translate s (BitVec.ofNat 64 (page * 65536)) true with
    | (.at tgt a _, s1) =>
      match spillPages s1 (page + 1) n with
      | (some l, s2) => (some ((tgt, a) :: l), s2)
      | (none, s2) => (none, s2)
    | (_, s1) => (none, s1)

/-- A channel defined, or the status of the first check that fails. The entries that are looked at, its own and those whose ring could
overlap, are checked before (R341). -/
def chDefine (s : State) (k : Nat) (c : Chan) : State × Nat :=
  let size := 2 ^ c.log2r.toNat
  let (old, s) := useChan s k
  if old.state ≠ chFree then (s, 1)
  else
  let s := checkChans s (s.chu.table.map (·.1))
  if 2 ^ 26 < c.rbase.toNat + size ∨ c.rbase.toNat % size ≠ 0 ∨ s.chu.table.any (fun x => x.2.state != chFree && ringMeets c x.2) then
    (s, 2)
  else if c.log2r.toNat < 12 ∨ 22 < c.log2r.toNat ∨ c.soft = 0 ∨ c.ceil.toNat < c.soft.toNat ∨ 2 ^ 28 < c.ceil.toNat then (s, 3)
  else if (ringTokens c < c.ceil.toNat ∧ c.spill = 0) ∨ c.spill.toNat % 64 ≠ 0 then (s, 4)
  else
    let sb := spillBytes c
    let first := c.spill.toNat / 65536
    let n := if sb = 0 then 0 else (c.spill.toNat + sb - 1) / 65536 + 1 - first
    match spillPages s first n with
    | (none, s1) => (s1, 4)
    | (some pages, s1) =>
      let frames := framesOf pages
      match pinFrames s1 frames with
      | none => (s1, 5)
      | some s2 => (writeImage (setChan s2 k { c with frames := frames }) k, 0)

/-- CHFREE's effect. -/
def chFreeDo (s : State) (k : Nat) : State × Nat :=
  let (c, s1) := useChan s k
  if c.state = chFree then (s1, 1)
  else if c.state ≠ chFailed ∧ (c.prod ≠ noNode ∨ c.cons ≠ noNode) then (s1, 7)
  else (writeImage (setChan (c.frames.foldl unpinFrame s1) k Chan.free) k, 0)

/-! ### Ends (R342, R343) -/

/-- The end of a channel that a node holds is released. -/
def releaseEnd (s : State) (k : Nat) (push : Bool) (node : Word) : State :=
  let c := getChan s k
  if push then (if c.prod = node then setChan s k { c with prod := noNode } else s)
  else if c.cons = node then setChan s k { c with cons := noNode } else s

/-- Every end that a node holds. -/
def releaseEnds (s : State) (node : Word) : State :=
  (s.chu.table.map (·.1)).foldl (fun s k => releaseEnd (releaseEnd s k true node) k false node) (checkChans s (heldChans s node))

/-- A node holds an end. -/
def holdsEnd (s : State) (node : Word) (k : Nat) (push : Bool) : Bool :=
  let c := getChan s k
  (if push then c.prod else c.cons) == node

/-- An endpoint can be attached now: R342's table. -/
def canAttach (s : State) (node : Word) (k : Nat) (push : Bool) : Bool :=
  let c := getChan s k
  let who := if push then c.prod else c.cons
  s.chu.en && (who == node || who == noNode) && (c.state == chOpenSt || (!push && c.state == chClosed))

/-- An end attached: a node that takes it goes on from the committed pointers (R343). -/
def attachEnd (s : State) (node : Word) (k : Nat) (push : Bool) : State :=
  let c := getChan s k
  setChan s k (if push then
      { c with prod := node, ttail := if c.prod = node then c.ttail else c.ctail,
               rt := if c.prod ≠ node ∧ ptrDiff c.ctail c.chead < ptrDiff c.rt c.chead then c.ctail else c.rt }
    else { c with cons := node, thead := if c.cons = node then c.thead else c.chead })

/-- An end of any channel is attached. -/
def anyAttached (s : State) : Bool := s.chu.table.any (fun x => x.2.prod != noNode || x.2.cons != noNode)

/-- A node's boundary commits its pointers (R336). -/
def commitPtrs (s : State) (node : Word) : State :=
  mapChans (checkChans s (heldChans s node)) (fun c =>
    let c := if c.prod = node then { c with ctail := c.ttail } else c
    if c.cons = node then
      { c with chead := c.thead, lost := c.lost.filter (fun n => decide (ptrDiff c.thead (BitVec.ofNat 32 n) = 0 ∨ 2 ^ 31 < ptrDiff c.thead (BitVec.ofNat 32 n))) }
    else c)

end Sys2Proof.Machine
end

