-- ==== Sys2Proof/Machine/ChanUnit.lean ====
section
/-! DEFINITION. The channel unit's registers and its host operations (R332 to R334). -/

namespace Sys2Proof.Machine

def updChu (s : State) (f : ChanUnit → ChanUnit) : State := { s with chu := f s.chu }

/-- CHU_BASE's write. -/
def chuBaseSet (v : Dword) (s : State) : State :=
  updChu s (fun u => if u.en then { u with cfgErr := true } else { u with base := (v >>> 18).setWidth 21 })

/-- CHU_BASE_WRITE. -/
def execChuBaseWrite (v : Dword) (s : State) : Host.Outcome State Fault Refusal := hostSets (chuBaseSet v) s

/-- One image found at enable (R334): defined as CHDEF does, or set FREE. -/
def loadImage (s : State) (k : Nat) : State :=
  let (l, s1) := unitRead s noUnitNode (lineKey 0 (s.chu.base.toNat * 2 ^ 18 + 64 * k))
  let bs := lineBytes l.data
  let refused (s2 : State) : State :=
    if lineNat l.data 0x34 1 ≠ 0 then updChu s2 (fun u => { u with loadErr := true }) else s2
  match imageChan bs with
  | none => refused s1
  | some c =>
    if l.psn then refused s1
    else
      match chDefine s1 k c with
      | (s2, 0) => s2
      | (s2, _) => refused s2

/-- The unit enabled: its table and its spill pins go, and all 4,096 images are read. -/
def chuEnable (s : State) : State :=
  let s1 := (s.chu.table.flatMap (fun x => x.2.frames)).foldl unpinFrame s
  (List.range 4096).foldl loadImage (updChu s1 (fun u => { u with en := true, table := [] }))

/-- CHU_CFG's write: one that would clear EN while an end is attached is ignored whole. -/
def chuCfgSet (v : Word) (s : State) : State :=
  let d := wbits v 23 16
  if !wbit v 31 && s.chu.en && anyAttached s then updChu s (fun u => { u with cfgErr := true })
  else
    let s1 := updChu s (fun u => if d = 0 then { u with cfgErr := true } else { u with dint := BitVec.ofNat 8 d })
    if wbit v 31 then (if s1.chu.en then s1 else chuEnable s1) else updChu s1 (fun u => { u with en := false })

/-- CHU_CFG_WRITE. -/
def execChuCfgWrite (v : Word) (s : State) : Host.Outcome State Fault Refusal := hostSets (chuCfgSet v) s

/-- The operation that a GO starts. -/
def chuJob (op : Nat) (ch : Fin 4096) : Instr :=
  match op with
  | 1 => .chuDefine ch
  | 2 => .chuFree ch
  | 3 => .chuSnapshot ch
  | _ => .chuClose ch

/-- CHU_OPCTL's write. A refused GO changes nothing else; the fields of a write without GO are those of the next operation
(R8). -/
def chuCtlSet (v : Word) (s : State) : State :=
  let op := wbits v 30 28
  let fields (u : ChanUnit) : ChanUnit := { u with op := BitVec.ofNat 3 op, chid := v.setWidth 12 }
  if !wbit v 31 then updChu s fields
  else if s.chu.busy || !s.chu.en || op = 0 || 5 ≤ op then updChu s (fun u => { u with rej := true })
  else queueJob (updChu s (fun u => { fields u with
      busy := true, job := { op := op, chid := v.toNat % 4096, va := u.opva.zeroExtend 64 <<< 6 } })) (.event (chuJob op (Fin.ofNat 4096 v.toNat)))

/-- An operation in progress on channel `ch` runs, writes RESULT and clears BUSY. -/
def chuRun (op : Nat) (ch : Fin 4096) (act : State → State × Nat) (s : State) : Host.Outcome State Fault Refusal :=
  if s.chu.busy ∧ s.chu.job.op = op ∧ s.chu.job.chid = ch.val then
    let (s1, r) := act s
    .next (updChu s1 (fun u => { u with busy := false, result := BitVec.ofNat 4 r }))
  else .next s

/-- The VA of CHU_OPVA, as the operation in progress took it. -/
def opVa (s : State) : Dword := s.chu.job.va

/-- CHU_DEFINE. -/
def execChuDefine (ch : Fin 4096) (s : State) : Host.Outcome State Fault Refusal :=
  chuRun 1 ch (fun s =>
    match translate s (opVa s) false with
    | (.at tgt a w, s1) =>
      let (l, s2) := unitLine s1 noUnitNode (.at tgt a w)
      (match l.psn, imageChan (lineBytes l.data) with
      | false, some c => chDefine s2 ch.val c
      | _, _ => (s2, 6))
    | (_, s1) => (s1, 8)) s

/-- CHU_FREE. -/
def execChuFree (ch : Fin 4096) (s : State) : Host.Outcome State Fault Refusal := chuRun 2 ch (fun s => chFreeDo s ch.val) s

/-- CHU_SNAPSHOT. -/
def execChuSnapshot (ch : Fin 4096) (s : State) : Host.Outcome State Fault Refusal :=
  chuRun 3 ch (fun s =>
    let (c, s1) := useChan s ch.val
    if c.state = chFree then (s1, 1)
    else
      match translate s1 (opVa s1) true with
      | (.at tgt a _, s2) => (putImage s2 (lineKey tgt a) (chanImage c), 0)
      | (_, s2) => (s2, 8)) s

/-- CHU_CLOSE. -/
def execChuClose (ch : Fin 4096) (s : State) : Host.Outcome State Fault Refusal :=
  chuRun 4 ch (fun s =>
    let (c, s1) := useChan s ch.val
    if c.state ≠ chOpenSt then (s1, 1) else (setChan s1 ch.val { c with state := chClosed, prod := noNode }, 0)) s

/-- CHU_STATUS's W1C bits, and CHU_OPSTAT's. -/
def chuStatusClear (v : Word) (s : State) : State :=
  updChu s (fun u => { u with cfgErr := u.cfgErr && !wbit v 3, failed := u.failed && !wbit v 2, loadErr := u.loadErr && !wbit v 1 })

def chuStatClear (v : Word) (s : State) : State := updChu s (fun u => { u with rej := u.rej && !wbit v 30 })

end Sys2Proof.Machine
end

