-- ==== Sys2Proof/Machine/Grid.lean ====
section
/-! DEFINITION. The logical grid of a region and the geometry of its arrays (R240, R241, R253, R254). -/

namespace Sys2Proof.Machine

/-- A rectangle of sites: x, y, width, height. -/
abbrev Rect := Nat × Nat × Nat × Nat

/-- The sites of field `f`: 64 by 48 from its corner (R5). -/
def fieldRect (f : Nat) : Rect := (f % 2 * 64, f / 2 * 48, 64, 48)

def rectsMeet (a b : Rect) : Bool :=
  decide (a.1 < b.1 + b.2.2.1) && decide (b.1 < a.1 + a.2.2.1) && decide (a.2.1 < b.2.1 + b.2.2.2)
    && decide (b.2.1 < a.2.1 + a.2.2.2)

/-- The fields that a rectangle touches. -/
def rectFields (r : Rect) : List Nat := (List.range 4).filter (fun f => rectsMeet r (fieldRect f))

/-- The health states of the fields that a rectangle touches. -/
def rectFieldSts (s : State) (r : Rect) : List FieldSt := (rectFields r).map (nth FieldSt.init s.hl.fields)

/-- The physical columns and rows of a rectangle's cells that are not removed, ascending (R240, R241). -/
def gridCols (s : State) (r : Rect) : List Nat :=
  let l := rectFieldSts s r
  ((List.range (2 * r.2.2.1)).map (2 * r.1 + ·)).filter (fun px => !l.any (fun f => f.cols.elem px))

def gridRows (s : State) (r : Rect) : List Nat :=
  let l := rectFieldSts s r
  ((List.range (2 * r.2.2.2)).map (2 * r.2.1 + ·)).filter (fun py => !l.any (fun f => f.rows.elem py))

/-- The rectangle granted to a context; a core has none. -/
def ctxRect (s : State) (c : CtxId) : Rect :=
  match c with
  | .node id =>
    match (getNode s id).bind (·.exec) with
    | some (.region x y w h) => (x, y, w, h)
    | _ => (0, 0, 0, 0)
  | .fw _ _ => (0, 0, 0, 0)

/-- The physical columns and rows of an array. -/
def arrCols (s : State) (c : CtxId) (a : SeaArray) : List Nat := ((gridCols s (ctxRect s c)).drop a.x0).take a.w

def arrRows (s : State) (c : CtxId) (a : SeaArray) : List Nat := ((gridRows s (ctxRect s c)).drop a.y0).take a.h

/-- A stitch boundary at `split` lies between two places. -/
def crosses (split a b : Nat) : Nat := b2n (decide (a < split) && decide (split ≤ b))

/-- Removed lines between place 0 and place `i` of a run. -/
def removedTo (l : List Nat) (i : Nat) : Nat := nth 0 l i - nth 0 l 0 - i

/-- BE and BS: removed lines and stitch boundaries between place 0 and place `i` (R253). -/
def lagTo (l : List Nat) (split i : Nat) : Nat := removedTo l i + crosses split (nth 0 l 0) (nth 0 l i)

/-- The stitches between the fields, in cells: columns 127 | 128 and rows 95 | 96. -/
def colSplit : Nat := 128
def rowSplit : Nat := 96

/-- WC(ly) and SC(lx) (R253). -/
def westCount (s : State) (c : CtxId) (a : SeaArray) (ly : Nat) : Nat := lagTo (arrRows s c a) rowSplit ly + a.wadd

def southCount (s : State) (c : CtxId) (a : SeaArray) (lx : Nat) : Nat :=
  lagTo (arrCols s c a) colSplit (a.w - 1) - lagTo (arrCols s c a) colSplit lx + a.sadd

/-- No counter exceeds 63 (R271). -/
def countersFit (s : State) (c : CtxId) (a : SeaArray) : Bool :=
  (List.range a.h).all (fun i => decide (westCount s c a i ≤ 63))
    && (List.range a.w).all (fun i => decide (southCount s c a i ≤ 63))

/-- DSK of the circuit from array `a` to array `b` (R254): each path's cells are the physical lines between its ends,
the removed ones and a stitch with them. -/
def skewDelay (s : State) (c : CtxId) (a b : SeaArray) : Nat :=
  let ca := arrCols s c a
  let ra := arrRows s c a
  let xb := nth 0 (arrCols s c b) 0
  let path (k : Nat) : Nat :=
    let xa := nth 0 ca k
    let ya := nth 0 ra (a.h - 1)
    let yb := nth 0 (arrRows s c b) k
    (xb - xa) + crosses colSplit xa xb + (yb - ya - 1) + crosses rowSplit ya yb
  2 + ((List.range a.w).map path).foldl max 0

end Sys2Proof.Machine
end

