-- ==== Sys2Proof/Machine/Launch.lean ====
section
/-! DEFINITION. Launching: the launch record and its checks (R38 to R40, R46), the host launch windows (R44 to R47), the
pending-launch store (R379 to R381), and group 0xD (R387 to R391). -/

namespace Sys2Proof.Machine

/-! ### The record (R38, R46) -/

def recNat (bs : List Byte) (o n : Nat) : Nat := leNat ((bs.drop o).take n)

def recWord (bs : List Byte) (o : Nat) : Word := BitVec.ofNat 32 (recNat bs o 4)

def recDword (bs : List Byte) (o : Nat) : Dword := BitVec.ofNat 64 (recNat bs o 8)

/-- The fields of 64 bytes. -/
def parseRec (bs : List Byte) : LaunchRec :=
  let w := recNat bs 0x0C 4
  let v := recNat bs 0x18 4
  { draft := BitVec.ofNat 64 (recNat bs 0 8 / 256 * 256), pers := bit (recNat bs 0 8) 1, pre := bit (recNat bs 0 8) 0,
    id := recWord bs 8, preds := BitVec.ofNat 16 (bits w 31 16), children := BitVec.ofNat 8 (bits w 15 8),
    cls := BitVec.ofNat 2 (bits w 4 3), prio := BitVec.ofNat 3 (bits w 2 0), succ := recDword bs 0x10,
    group := BitVec.ofNat 16 (bits v 31 16), succCount := BitVec.ofNat 16 (bits v 15 0), barCount := recWord bs 0x1C,
    tiles := recDword bs 0x20, save := recDword bs 0x28, counter := recDword bs 0x30, saveBytes := recWord bs 0x38 }

/-- A VA field: canonical and aligned. -/
def vaField (v : Dword) (align : Nat) : Bool := canonical v && v.toNat % align == 0

/-- The store's entries that are neither occupied nor reserved for children (R381). -/
def freeEntries (s : State) : Nat :=
  16384 - s.dsp.nodes.length
    - (s.dsp.nodes.map (fun n => if n.ctx.ckpt.isSome then n.lrec.children.toNat - n.accepted.toNat else 0)).sum

/-- The first check of R46 that a record fails, 0 for none; the store's room counts for a host's commit only. -/
def checkRec (s : State) (bs : List Byte) (host : Bool) : Nat :=
  let r := parseRec bs
  if recWord bs 0x3C ≠ crc32 (bs.take 60) then 1
  else if bits (recNat bs 0 8) 7 2 ≠ 0 ∨ bits (recNat bs 0x0C 4) 7 5 ≠ 0 then 2
  else if r.cls = 3 then 3
  else if r.id = noNodeId ∨ (getNode s r.id.toNat).isSome then 4
  else if !(canonical r.draft && vaField r.succ 4 && vaField r.tiles 16 && vaField r.save 64 && vaField r.counter 8) then 6
  else if host ∧ freeEntries s = 0 then 5
  else 0
where
  noNodeId : Word := 0xFFFFFFFF#32

/-- A node that holds a record and has not been placed. -/
def freshNode (id : Nat) (r : LaunchRec) : Node :=
  { id := id, lrec := r, st := .waiting, preds := r.preds.toNat, age := 0, entered := 0, reserve := none,
    reserveOrder := 0, held := false, exec := none, kind := none, accepted := 0, launchRefused := 0, moves := 0,
    checks := 0, unitChecks := [], throttled := 0, image := none, admitted := 0, closed := false, saveFailed := none, moving := .none, ousted := false,
    tilePins := [], completing := none, loading := false, fetched := [], ctx := Ctx.init r.draft, win := none }

/-- A node enters the ready pool (R40, R382). -/
def enterPool (s : State) (id : Nat) (st : NodeState) : State :=
  let s1 := updNode s id (fun n => { n with st := st, age := 0, entered := s.dsp.serial })
  { s1 with dsp := { s1.dsp with serial := s1.dsp.serial + 1 } }

/-- A record accepted into the store. -/
def acceptRec (s : State) (r : LaunchRec) : State :=
  let s1 := { s with dsp := { s.dsp with nodes := s.dsp.nodes ++ [freshNode r.id.toNat r] } }
  if r.preds = 0 then enterPool s1 r.id.toNat .ready else s1

/-! ### The host launch windows (R45 to R47, R51) -/

def getLw (s : State) (port : Fin 2) : LaunchWin := if port = 0 then s.lw0 else s.lw1

def updLw (s : State) (port : Fin 2) (f : LaunchWin → LaunchWin) : State :=
  if port = 0 then { s with lw0 := f s.lw0 } else { s with lw1 := f s.lw1 }

/-- Bytes written over a list from an offset on. -/
def overwrite (l : List Byte) (off : Nat) (data : List Byte) : List Byte :=
  l.zipIdx.map (fun (b, i) => if off ≤ i then (data[i - off]?).getD b else b)

/-- A write to the latch; one that covers the CRC commits the record. -/
def latchWrite (w : LaunchWin) (off : Nat) (data : List Byte) : LaunchWin :=
  let l := overwrite w.latch off data
  if off ≤ 0x3C ∧ 0x40 ≤ off + data.length then { w with latch := l, partWritten := false, committed := some l }
  else { w with latch := l, partWritten := w.partWritten || !data.isEmpty }

/-- Held writes taken in order until one commits. -/
def drainHeld (w : LaunchWin) : List (Nat × List Byte) → LaunchWin
  | [] => { w with held := [] }
  | (off, data) :: l => if w.committed.isSome then { w with held := (off, data) :: l } else drainHeld (latchWrite w off data) l

/-- The bytes of a write that fall on LW_REC; one that commits a record has it checked. While BUSY they are held in the
port's receive buffer. -/
def lwRecSet (port : Fin 2) (off : Nat) (data : List Byte) (s : State) : State :=
  let s1 := updLw s port (fun w =>
    if w.committed.isSome then { w with held := w.held ++ [(off, data)] } else latchWrite w off data)
  if (getLw s port).committed.isNone && (getLw s1 port).committed.isSome then queueJob s1 (.event (.launchRecordCheck port)) else s1

/-- LW_REC_WRITE. -/
def execLwRecWrite (port : Fin 2) (off : Fin 64) (data : List Byte) (s : State) : Host.Outcome State Fault Refusal :=
  hostSets (lwRecSet port off.val data) s

/-- The record of a refused launch (R51). -/
def refusedRec (port : Fin 2) (cause : Nat) (bs : List Byte) : TrapRec :=
  { kind := 0x05, field := 0, src := 10, x := 0, y := port.val, node := 0xFFFFFFFF#32,
    payload := [(0x10, 1, cause), (0x11, 1, port.val), (0x18, 8, recNat bs 0 8), (0x20, 8, recNat bs 8 8)], poster := .launch port cause }

/-- The window's record has been dealt with: BUSY clears, and what the receive buffer holds is taken. -/
def clearLw (s : State) (port : Fin 2) (f : LaunchWin → LaunchWin) : State :=
  let s1 := updLw s port (fun w => drainHeld { f w with committed := none } w.held)
  if (getLw s1 port).committed.isSome then queueJob s1 (.event (.launchRecordCheck port)) else s1

/-- A refusal, its record posted. -/
def refusedLw (s : State) (port : Fin 2) (cause : Nat) : State :=
  clearLw s port (fun w => { w with refusedBit := true, refused := w.refused + 1, cause := BitVec.ofNat 4 cause })

/-- LAUNCH_RECORD_CHECK: the committed record is accepted, and BUSY clears; or it is refused, once the refusal's record has been
posted (R50). -/
def execLaunchRecordCheck (port : Fin 2) (s : State) : Host.Outcome State Fault Refusal :=
  match (getLw s port).committed with
  | none => .next s
  | some bs =>
    let cause := checkRec s bs true
    .next (if cause = 0 then clearLw (acceptRec s (parseRec bs)) port (fun w => { w with acceptedBit := true, accepted := w.accepted + 1 })
      else addDev (postRec s (refusedRec port cause bs)) 8 (if cause = 1 then 1 else 0))

/-! ### LAUNCH (R387, R388) -/

/-- A LAUNCH issued and not yet answered stands in a window. -/
def launchesIn (w : Window) : Nat :=
  ((w.code.zip w.units).map (fun (x, u) => match instrOf x with
    | some (.launch ..) => u.pend.length
    | _ => 0)).sum

/-- Launches that count against max_children: those accepted and those in progress. -/
def launchedOf (n : Node) : Nat :=
  n.accepted.toNat + ((n.win.map launchesIn).getD 0)
    + (n.ctx.orphans.map (fun (w, i) => match winInstr w i with
        | some (.launch ..) => 1
        | _ => 0)).sum

/-- Reserved entries still unused (NODEQ item 3, DSP_RESV). -/
def unusedEntries (n : Node) : Nat := if n.ctx.ckpt.isSome then n.lrec.children.toNat - launchedOf n else 0

def refuseLaunch (s : State) (c : CtxId) : State :=
  let s1 := match c with
    | .node id => updNode s id (fun n => { n with launchRefused := n.launchRefused + 1 })
    | .fw _ _ => s
  addCount { s1 with dsp := { s1.dsp with lrefused := s1.dsp.lrefused + 1 } } c cntRefused 1

/-- The record at a VA, read whole; none where the read fails. -/
def readRec (s : State) (c : CtxId) (va : Dword) : Option (List Byte) × State :=
  match resolve s c va false with
  | (.fail _, s1) => (none, s1)
  | (p, s1) =>
    let (l, s2) := unitLine s1 (ctxNode c) p
    (if l.psn then none else some (lineBytes l.data), s2)

/-- The launch of the record at a VA, or its refusal: the status. -/
def launchAt (s : State) (c : CtxId) (va : Dword) (ok : Bool) : State × Nat :=
  if !ok || !canonical va || va.toNat % 64 ≠ 0 then (refuseLaunch s c, 7)
  else
    match readRec s c va with
    | (none, s1) => (refuseLaunch s1 c, 7)
    | (some bs, s1) =>
      let st := checkRec s1 bs false
      if st ≠ 0 then (addDev (refuseLaunch s1 c) 8 (if st = 1 then 1 else 0), st)
      else
        let s2 := acceptRec s1 (parseRec bs)
        (match c with
          | .node id => updNode s2 id (fun n => { n with accepted := n.accepted + 1 })
          | .fw _ _ => s2, 0)

/-- A node has no entry left for another child. -/
def launchFull (s : State) (c : CtxId) : Bool :=
  match c with
  | .node id => match getNode s id with
    | some n => decide (n.lrec.children.toNat ≤ launchedOf n)
    | none => true
  | .fw _ _ => true

/-- The record's VA, and whether the operand is sound. -/
def launchVa (w : Window) (k : Nat) (ofs : Bool) (a : Token) : Dword × Bool :=
  let base : Dword := BitVec.ofNat 64 ((poolWord w k).toNat + wbits (poolWord w (k + 1)) 22 0 * 2 ^ 32)
  if ofs then (base + a.word.signExtend 64, !a.psn) else (base, true)

def launchKey (e : Env) (va : Dword) (ok : Bool) : LogEntry := logKey e 0xD0 va [boolWord ok]

def launchGo (t : Tgt) (ofs : Bool) (k : Fin 256) (s : State) (e : Env) (a : Token) : Act :=
  let (va, ok) := launchVa e.win k.val ofs a
  logStatus t s e (launchKey e va ok) (fun s1 => launchAt s1 e.c va ok)

/-- LAUNCH: status 8 at issue; with `.rel` it otherwise starts once the phase has committed. -/
def execLaunch (t : Tgt) (k : Fin 256) (od : Order) (ofs : Bool) (s : State) : Host.Outcome State Fault Refusal :=
  runUnit s (fun _ =>
    { triggered t (fun s e o =>
        let (va, ok) := launchVa e.win k.val ofs o.a
        if nextAnswers e.ctx (launchKey e va ok) then launchGo t ofs k s e o.a
        else if launchFull s e.c then status t (refuseLaunch s e.c) 8
        else if od.rel then .hold s (pendOf o (relMark e.ctx od.scope) 0 0)
        else launchGo t ofs k s e o.a) with
      cmd := true
      resume := fun s e p => if relOver e od.scope p then launchGo t ofs k s e p.a else .wait s })

/-! ### NODEQ (R389) -/

/-- The fields that a context's executor touches. -/
def ctxFields (s : State) (c : CtxId) : List Nat :=
  match ctxCore s c with
  | some k => [k / 4]
  | none => match c with
    | .node id => match (getNode s id).bind (·.exec) with
      | some (.region x y w h) => (List.range 4).filter (fun f =>
          decide (x < f % 2 * 64 + 64) && decide (f % 2 * 64 < x + w) && decide (y < f / 2 * 48 + 48) && decide (f / 2 * 48 < y + h))
      | _ => [0]
    | .fw _ _ => [0]

def fieldBin (s : State) (f : Nat) : Nat := (nth FieldSt.init s.hl.fields f).bin.toNat

/-- Where the executor stands (item 5). -/
def placeWordOf (s : State) (c : CtxId) : Nat :=
  match ctxCore s c with
  | some k => k
  | none => match c with
    | .node id => match (getNode s id).bind (·.exec) with
      | some (.region x y w h) => h * 2 ^ 24 + w * 2 ^ 16 + y * 2 ^ 8 + x
      | _ => 0
    | .fw _ _ => 0

/-- The fields touched and the bin (item 6). -/
def fieldsWord (s : State) (c : CtxId) : Nat :=
  let l := ctxFields s c
  (l.map (fun f => 2 ^ (4 + f))).sum + fieldBin s (l.headD 0)

/-- The word of an item that speaks of the node. -/
def nodeItem (n : Node) (core : Bool) (i : Nat) : Nat :=
  match i with
  | 0 => n.lrec.id.toNat
  | 1 => b2n core * 2 ^ 8 + n.lrec.cls.toNat * 8 + n.lrec.prio.toNat
  | 3 => n.accepted.toNat % 2 ^ 16 * 2 ^ 16 + unusedEntries n
  | 4 => n.launchRefused.toNat
  | _ => n.moves.toNat

/-- NODEQ. Firmware is no node: what it reads of one is a free value. -/
def execNodeq (t : Tgt) (i : Fin 8) (s : State) : Host.Outcome State Fault Refusal :=
  runUnit s (fun _ => triggered t (fun s e _ =>
    match i.val with
    | 2 => status t s (getDraft s e.c).block
    | 5 => status t s (placeWordOf s e.c)
    | 6 => status t s (fieldsWord s e.c)
    | v =>
      match e.c with
      | .node id => match getNode s id with
        | some n => status t s (nodeItem n (ctxCore s e.c).isSome v)
        | none => status t s 0
      | .fw _ _ =>
        let (f, s1) := takeFree s
        status t s1 (Config.freeLine f).toNat))

/-! ### YIELD (R390) -/

/-- A node that waits for an executor. -/
def inPool (n : Node) : Bool := n.st == .ready || n.st == .preempted

/-- A node of the same or higher priority waits unplaced. -/
def rivalWaits (s : State) (n : Node) : Bool := s.dsp.nodes.any (fun m => m.id != n.id && inPool m && decide (n.lrec.prio.toNat ≤ m.lrec.prio.toNat))

/-- A pre-emption asked for: where the node is to be moved at a block's end anyway, a refused one leaves that standing. -/
def preemptMove (n : Node) : Move := .preempt (n.moving == .replace)

/-- YIELD: on a core the slice ends with the block; a spatial node is pre-empted and learns of it after the restore. -/
def execYieldN (t : Tgt) (force : Bool) (s : State) : Host.Outcome State Fault Refusal :=
  runUnit s (fun _ =>
    { triggered t (fun s e o =>
        match e.c with
        | .fw _ _ => status t s 2
        | .node id =>
          match getNode s id, ctxCore s e.c with
          | _, some k => status t (updCore s k (fun c => { c with yielded := true })) 2
          | none, none => status t s 1
          | some n, none =>
            if !force && !rivalWaits s n then status t s 0
            else if !n.lrec.pre || (n.moving != .none && n.moving != .replace) then status t s 1
            else .hold (updNode s id (fun n => { n with moving := preemptMove n })) (pendOf o 0 0 1)) with
      resume := fun s _ p => if p.step = 3 then status t s p.val.toNat else .wait s })

/-- What the YIELDs in a window that wait for a pre-emption are told. -/
def answerYield (w : Window) (v : Nat) : Window :=
  { w with units := List.zipWith (fun x u => match instrOf x with
      | some (.yieldN ..) => { u with pend := u.pend.map (fun p => { p with step := 3, val := BitVec.ofNat 64 v }) }
      | _ => u) w.code w.units }

/-! ### PWRQ (R391) -/

/-- Units of a bucket level in a pJ. -/
def pwrUnit : Nat := 2366400

/-- A level in nJ, saturating. -/
def levelNj (v : Nat) : Nat := min (2 ^ 32 - 1) (v / (1000 * pwrUnit))

/-- The clock of a bin, in MHz (R447). -/
def binClock (b : Nat) : Nat :=
  match b with
  | 0 => 1700
  | 1 => 1600
  | 2 => 1450
  | _ => 1200

def pwrItem (s : State) (c : CtxId) (i : Nat) : Nat :=
  let l := ctxFields s c
  match i with
  | 0 => levelNj ((l.map (fun f => nth 0 s.pwr.flevel f)).foldl max 0)
  | 1 => match c with
    | .node id => ((getNode s id).map (fun n => n.throttled.toNat)).getD 0
    | .fw _ _ => 0
  | 2 => (nth (0 : BitVec 16) s.pwr.fbud (l.headD 0)).toNat
  | 3 => levelNj s.pwr.mlevel
  | 4 => s.pwr.mthr.toNat
  | _ => binClock (fieldBin s (l.headD 0))

/-- PWRQ. -/
def execPwrq (t : Tgt) (i : Fin 6) (s : State) : Host.Outcome State Fault Refusal :=
  runUnit s (fun _ => triggered t (fun s e _ => status t s (pwrItem s e.c i.val)))

end Sys2Proof.Machine
end

