-- ==== Sys2Proof/Machine/Traps.lean ====
section
/-! DEFINITION. The trap queue (R48 to R55): its registers, the records that the arbiter writes, and acknowledgement. -/

namespace Sys2Proof.Machine

/-! ### Records (R49) -/

/-- The bytes of a record with its stamp, the CRC last. -/
def recBytes (r : TrapRec) (stamp : Dword) : List Byte :=
  let head := leBytes 1 r.kind ++ leBytes 1 (r.src % 16 + r.field % 4 * 16) ++ leBytes 1 r.x ++ leBytes 1 r.y
    ++ leBytes 4 r.node.toNat ++ leBytes 8 stamp.toNat ++ List.replicate 44 0
  let b := r.payload.foldl (fun l p => overwrite l p.1 (leBytes p.2.1 p.2.2)) head
  b ++ leBytes 4 (crc32 b).toNat

/-- Kinds of the table of R50. -/
def listedKind (k : Nat) : Bool := (decide (1 ≤ k) && decide (k ≤ 7)) || k == 0x0F

/-- N of the ring. -/
def ringSlots (q : TrapQueue) : Nat := 2 ^ q.log2n.toNat

/-- A record written to a slot at `.sys`. -/
def writeRec (s : State) (slot : Nat) (r : TrapRec) : State :=
  let s1 := putImage s (lineKey 0 (s.tq.base.toNat * 65536 + 64 * slot)) (recBytes r s.tq.stamp)
  { s1 with tq := { s1.tq with stamp := s1.tq.stamp + 1 } }

/-- An interrupt on the ports that enable it (R465). -/
def raiseVec (s : State) (v : Nat) : State :=
  let on (h : HostPort) : Bool := if v = 0 then h.tqEn else h.fatalEn
  let out := (if on s.hp0 then [HostOut.msix 0 v] else []) ++ (if on s.hp1 then [HostOut.msix 1 v] else [])
  { s with run := { s.run with toHost := s.run.toHost ++ out } }

/-- A TQPOST that waits for its record learns what became of it: stage 2 posted, with the stamp; stage 3 not written. -/
def tellPoster (s : State) (p : Poster) (step : Nat) (v : Dword) : State :=
  match p with
  | .tqpost c i => updUnit s c i (fun u => { u with pend := u.pend.map (fun q => { q with step := step, val := v }) })
  | _ => s

/-! ### The arbiter (R50, R52, R54) -/

/-- The record taken next: the oldest, but while the queue is full the oldest that does not wait for room. -/
def pickRec (full : Bool) : List TrapRec → Option (TrapRec × List TrapRec)
  | [] => none
  | r :: l =>
    if !full || r.kind == 0x03 || r.kind == 0x0F then some (r, l)
    else (pickRec full l).map (fun (x, rest) => (x, r :: rest))

/-- A fatal record: into the fatal slot, or counted. -/
def postFatal (s : State) (r : TrapRec) : State :=
  if s.tq.fatal then
    tellPoster { s with tq := { s.tq with fatalMore := BitVec.ofNat 8 (min 255 (s.tq.fatalMore.toNat + 1)) } } r.poster 3 0
  else
    let s1 := writeRec s (ringSlots s.tq - 1) r
    tellPoster (raiseVec { s1 with tq := { s1.tq with fatal := true } } 1) r.poster 2 s.tq.stamp

/-- An ordinary record, with room for it: the tail advances once the record is written. -/
def postOrdinary (s : State) (r : TrapRec) : State :=
  let q := s.tq
  let s1 := writeRec s (q.tail.toNat % max 1 (ringSlots q - 1)) r
  let wait := if r.kind = 0x01 then [(q.stamp, r.poster)] else []
  tellPoster (raiseVec { s1 with tq := { s1.tq with tail := q.tail + 1, outstanding := q.outstanding ++ wait } } 0)
    r.poster 2 q.stamp

/-- The arbiter takes one record: the record, and the state with it written, sent to the fatal slot, or dropped. -/
def arbitrate (s : State) : Option (TrapRec × State) :=
  match pickRec (tqFull s) s.tq.posters with
  | none => none
  | some (r, l) =>
    let s1 := { s with tq := { s.tq with posters := l } }
    some (r, if r.kind = 0x0F then postFatal s1 r
      else if tqFull s then tellPoster { s1 with tq := { s1.tq with dropped := s1.tq.dropped + 1 } } r.poster 3 0
      else postOrdinary s1 r)

/-! ### Registers (R53 to R55) -/

/-- TQ_BASE's write. -/
def tqBaseSet (v : Dword) (s : State) : State :=
  if s.tq.en then { s with tq := { s.tq with cfgErr := true } }
  else { s with tq := { s.tq with base := (v >>> 16).setWidth 23 } }

/-- TQ_BASE_WRITE. -/
def execTqBaseWrite (v : Dword) (s : State) : Host.Outcome State Fault Refusal := hostSets (tqBaseSet v) s

/-- TQ_CFG's write. -/
def tqCfgSet (v : Word) (s : State) : State :=
  let q := s.tq
  let n := wbits v 4 0
  let bad := if q.en then n ≠ q.log2n.toNat else n < 8 ∨ 16 < n
  let q1 := { q with en := wbit v 31, cfgErr := q.cfgErr || decide bad,
                     log2n := if q.en ∨ bad then q.log2n else BitVec.ofNat 5 n }
  { s with tq := if !q.en && wbit v 31 then { q1 with head := 0, tail := 0 } else q1 }

/-- TQ_CFG_WRITE. -/
def execTqCfgWrite (v : Word) (s : State) : Host.Outcome State Fault Refusal := hostSets (tqCfgSet v) s

/-- TQ_HEAD's write: neither backwards nor past TQ_TAIL. -/
def tqHeadSet (v : Word) (s : State) : State :=
  let q := s.tq
  { s with tq := if (v - q.head).toNat ≤ (q.tail - q.head).toNat then { q with head := v } else { q with headErr := true } }

/-- TQ_HEAD_WRITE. -/
def execTqHeadWrite (v : Word) (s : State) : Host.Outcome State Fault Refusal := hostSets (tqHeadSet v) s

/-- An acknowledgement (R53): whether it resumed an outstanding record. -/
def tqAckDo (stamp : Dword) (s : State) : Bool × State :=
  if s.tq.outstanding.any (fun o => o.1 == stamp) then
    (true, { s with tq := { s.tq with outstanding := s.tq.outstanding.filter (fun o => o.1 != stamp) } })
  else (false, { s with tq := { s.tq with badAck := true } })

/-- TQ_ACK_WRITE. -/
def execTqAckWrite (stamp : Dword) (s : State) : Host.Outcome State Fault Refusal := hostSets (fun s => (tqAckDo stamp s).2) s

def tqFatalFree (s : State) : State := { s with tq := { s.tq with fatal := false, fatalMore := 0 } }

/-- TQ_FATAL_CLEAR. -/
def execTqFatalClear (s : State) : Host.Outcome State Fault Refusal := hostSets tqFatalFree s

/-- TQ_STATUS's W1C bits. -/
def tqStatusClear (v : Word) (s : State) : State :=
  let q := s.tq
  { s with tq := { q with headErr := q.headErr && !wbit v 4, cfgErr := q.cfgErr && !wbit v 3, badAck := q.badAck && !wbit v 2 } }

end Sys2Proof.Machine
end

