-- ==== Sys2Proof/Machine/Records.lean ====
section
/-! DEFINITION. The health unit's fatal records and counters (R452, R453, R455), and the end of a node that fails (R21). -/

namespace Sys2Proof.Machine

/-- A fatal record (R455). -/
def postFatalCode (s : State) (fcode info : Nat) : State :=
  addDev (postRec s { kind := 0x0F, field := 0, src := 9, x := 0, y := 0, node := 0xFFFFFFFF#32,
                      payload := [(0x10, 1, fcode), (0x18, 8, info)], poster := .none }) 14 1

/-! ### Counters (R452, R453) -/

/-- What a selector names. -/
inductive CounterId where
  | node (id k : Nat)
  | field (n : Nat)
  | bank (n : Nat)
  | mask (bank : Nat)
  | unit (n : Nat)
  | dev (n : Nat)
  | core (c k : Nat)
  deriving DecidableEq, Repr

/-- The counts of a node that is held or among those that ended last. -/
def nodeCounts (s : State) (id : Nat) : Option (List (Nat × Word)) :=
  match getNode s id with
  | some n => some n.ctx.counts
  | none => ((s.dsp.recent.reverse).find? (fun e => e.id == id)).map (·.counts)

/-- The counter that a selector and a node id name. -/
def selectCounter (s : State) (sel node : Word) : Option CounterId :=
  let i := wbits sel 27 8
  let k := wbits sel 7 0
  match wbits sel 31 28 with
  | 0 => if i = 0 ∧ k < 16 ∧ (nodeCounts s node.toNat).isSome then some (.node node.toNat k) else none
  | 1 => if i < 4 ∧ k < 6 then some (.field (8 * i + k)) else none
  | 2 => if 12288 ≤ i ∨ 9 < k then none else if k = 3 then some (.mask i) else some (.bank (16 * i + k))
  | 3 => if i < 1024 ∧ k < 5 then some (.unit (8 * i + k)) else none
  | 4 => if i = 0 ∧ k < 15 then some (.dev k) else none
  | 5 => if i < 16 ∧ k < 16 then some (.core i k) else none
  | _ => none

def counterValue (s : State) : CounterId → Word
  | .node id k => mapGet 0 ((nodeCounts s id).getD []) k
  | .field n => mapGet 0 s.hl.fieldCounts n
  | .bank n => mapGet 0 s.hl.bankCounts n
  | .mask b => (bankMarks s b).zeroExtend 32
  | .unit n => mapGet 0 s.hl.unitCounts n
  | .dev n => mapGet 0 s.hl.devCounts n
  | .core c k => mapGet 0 (getCore s c).ctx.counts k

/-- A counter set to 0; a bank's layer mask is never cleared. -/
def counterClear (s : State) : CounterId → State
  | .node id k =>
    let clear (m : List (Nat × Word)) : List (Nat × Word) := mapErase m k
    match getNode s id with
    | some _ => updCtx s (.node id) (fun x => { x with counts := clear x.counts })
    | none => { s with dsp := { s.dsp with recent := s.dsp.recent.map (fun e => if e.id = id then { e with counts := clear e.counts } else e) } }
  | .field n => updHl s (fun h => { h with fieldCounts := mapErase h.fieldCounts n })
  | .bank n => updHl s (fun h => { h with bankCounts := mapErase h.bankCounts n })
  | .mask _ => s
  | .unit n => updHl s (fun h => { h with unitCounts := mapErase h.unitCounts n })
  | .dev n => updHl s (fun h => { h with devCounts := mapErase h.devCounts n })
  | .core c k => updCore s c (fun co => { co with ctx := { co.ctx with counts := mapErase co.ctx.counts k } })

/-- BADSEL. -/
def badSelector (s : State) : State := updHl s (fun h => { h with badSel := true })

/-! ### The node whose turn it is on a core (R410) -/

/-- The residents in order after place `i`, and that place itself only when it is the only one. -/
def turnOrder (l : List Nat) (i : Nat) : List Nat :=
  match l.drop (i + 1) ++ l.take i with
  | [] => l
  | r => r

def prioOf (s : State) (id : Nat) : Nat := ((getNode s id).map (fun n => n.lrec.prio.toNat)).getD 0

/-- The first of the highest priority. -/
def firstHighest (s : State) (l : List Nat) : Option Nat :=
  let top := (l.map (prioOf s)).foldl max 0
  l.find? (fun id => prioOf s id == top)

/-- A core takes the next node: a new slice begins. -/
def nextTurn (s : State) (c : Nat) : State :=
  let k := getCore s c
  match firstHighest s (turnOrder k.resident k.turn) with
  | some id => updCore s c (fun k => { k with turn := k.resident.idxOf id, sliceStart := s.run.time, yielded := false })
  | none => updCore s c (fun k => { k with turn := 0, sliceStart := s.run.time, yielded := false })

/-- A node leaves a core. -/
def dropResident (s : State) (c id : Nat) : State :=
  let k := getCore s c
  let i := k.resident.idxOf id
  if i = k.turn then
    let next := firstHighest s ((turnOrder k.resident i).filter (· != id))
    updCore s c (fun k =>
      let l := k.resident.filter (· != id)
      { k with resident := l, turn := (next.map l.idxOf).getD 0, sliceStart := s.run.time, yielded := false })
  else updCore s c (fun k => { k with resident := k.resident.filter (· != id), turn := if i < k.turn then k.turn - 1 else k.turn })

/-! ### Leaving the store (R21, R41, R195, R343, R380) -/

/-- The executor is free. -/
def releaseExecutor (s : State) (id : Nat) : State :=
  match (getNode s id).bind (·.exec) with
  | some (.core c) => updNode (dropResident s c id) id (fun n => { n with exec := none })
  | _ => updNode s id (fun n => { n with exec := none })

/-- A node's pins, windows and tile pins dropped without write-back, each window counted (R195). -/
def dropPins (s : State) (id : Nat) : State :=
  match getNode s id with
  | none => s
  | some n =>
    let s1 := n.ctx.pins.foldl dropPin s
    let s2 := (n.ctx.windows.flatMap (·.frames)).foldl unpinFrame s1
    let s3 := n.tilePins.foldl unpinFrame s2
    let s4 := addCount s3 (.node id) cntWindows n.ctx.windows.length
    updNode s4 id (fun n => { n with tilePins := [], ctx := { n.ctx with pins := [], windows := [] } })

/-- A node of a barrier group has ended: the group's entries free with its last node (R43, R232). -/
def freeBars (s : State) (r : LaunchRec) : State :=
  let g := r.group.toNat
  let ended := mapGet 0 s.dsp.barEnded g + 1
  if g = 0 then s
  else if ended < r.barCount.toNat then { s with dsp := { s.dsp with barEnded := mapPut s.dsp.barEnded g ended } }
  else { s with dsp := { s.dsp with barEnded := mapErase s.dsp.barEnded g, bars := s.dsp.bars.filter (fun b => b.group != g) } }

/-- DSP_PRECTL's result, BUSY cleared. -/
def dspResult (s : State) (v : Nat) : State :=
  { s with dsp := { s.dsp with result := BitVec.ofNat 4 v, busy := false } }

/-- An operation of DSP_PRECTL in progress. -/
def dspDoing (s : State) (op : Nat) : Bool := s.dsp.busy && s.dsp.opRun.toNat == op

/-- The result of OP 1 when it waits for this node. -/
def answerPre (s : State) (id v : Nat) : State :=
  if dspDoing s 1 && s.dsp.opNode.toNat == id then dspResult s v else s

/-- The store entry and the child reservation freed; the counts are kept among the last 256. An OP 1 that waits for the node finds
no such node (R404). -/
def freeEntry (s : State) (id : Nat) : State :=
  match getNode s id with
  | none => s
  | some n =>
    let recent := s.dsp.recent ++ [{ id := id, counts := n.ctx.counts }]
    let s1 := answerPre s id 1
    freeBars { s1 with dsp := { s1.dsp with nodes := s1.dsp.nodes.filter (fun m => m.id != id), recent := recent.drop (recent.length - 256) } } n.lrec

/-- Commands that a phase's end would have started never start. -/
def dropHeldCmds (s : State) (id : Nat) : State :=
  { s with sh := { s.sh with cmds := s.sh.cmds.filter (fun x => !(x.ctx == .node id && !x.started)) } }

/-- Step 3 of R21: a node retired as failed. -/
def retireFailed (s : State) (id : Nat) : State :=
  let node : Word := BitVec.ofNat 32 id
  let s1 := dropWaits (releaseEnds (revertChannels s node) node) (.node id)
  freeEntry (releaseExecutor (dropPins (dropHeldCmds s1 id) id) id) id

/-! ### What follows a record (R50) -/

/-- A poster that stalled until its record was taken goes on. An operation that waits at a failed save runs. -/
def afterRecord (s : State) (p : Poster) : State :=
  match p with
  | .launch port cause => refusedLw s port cause
  | .retire id => retireFailed s id
  | .crash c => crashOver s c
  | .save id =>
    if s.dsp.opNode.toNat = id ∧ dspDoing s 1 then queueJob s (.event .dspPreempt)
    else if s.dsp.opNode.toNat = id ∧ dspDoing s 4 then queueJob s (.event .dspReopen)
    else s
  | _ => s

/-- TRAP_RECORD_POST: the arbiter takes one record, and its poster goes on. -/
def execTrapRecordPost (s : State) : Host.Outcome State Fault Refusal :=
  match arbitrate s with
  | none => .next s
  | some (r, s1) => .next (afterRecord s1 r.poster)

end Sys2Proof.Machine
end

