-- ==== Sys2Proof/Machine/SeaRows.lean ====
section
/-! DEFINITION. What the sea computes: the west edge (R117, R247), cell passes (R119, R243), accumulator rows (R248 to
R250) and drains (R251). -/

namespace Sys2Proof.Machine

/-! ### Arrays and accumulator rows of a context -/

def getArr (x : Ctx) (n : Nat) : SeaArray := nth SeaArray.init x.sea.arrays n

def updSea (s : State) (c : CtxId) (f : SeaSt → SeaSt) : State := updCtx s c (fun x => { x with sea := f x.sea })

def updArr (s : State) (c : CtxId) (n : Nat) (f : SeaArray → SeaArray) : State :=
  updSea s c (fun y => { y with arrays := modNth f y.arrays n })

def getAcc (x : Ctx) (r : Nat) : AccRow := mapGet AccRow.clear x.sea.acc r

def setAcc (s : State) (c : CtxId) (r : Nat) (v : AccRow) : State :=
  updSea s c (fun y => { y with acc := mapSet AccRow.clear y.acc r v })

/-- An accumulation of the region is open (R249). -/
def accOpen (x : Ctx) : Bool := x.sea.acc.any (fun r => r.2.opened)

/-- The active set, and the other. -/
def activeSet (a : SeaArray) : WeightSet := if a.active then a.set1 else a.set0
def idleSet (a : SeaArray) : WeightSet := if a.active then a.set0 else a.set1

def setActive (a : SeaArray) (v : WeightSet) : SeaArray := if a.active then { a with set1 := v } else { a with set0 := v }
def setIdle (a : SeaArray) (v : WeightSet) : SeaArray := if a.active then { a with set0 := v } else { a with set1 := v }

/-- Accumulator rows that an output row of an array spans (R248). -/
def rowSpan (a : SeaArray) : Nat := (a.w + 31) / 32

/-! ### The west edge -/

/-- Formats that the edge accepts (R247). -/
def edgeAccepts : Fmt → Bool
  | .fp32 | .bf16 | .fp16 | .e4m3 | .e5m2 | .int32 | .int16 | .int8 | .int4 | .int2 | .nat8 => true
  | _ => false

/-- The elements of a block at the edge under the named format, with its events. -/
def edgeElems (afmt : Fmt) (data : Bits512) (d : Desc) (psn : Bool) : List Num × Ev :=
  let (src, ev) := sourceFormat d psn (some afmt) edgeAccepts
  (blockElems src .zero afmt.count data, ev)

/-- One lane of a pick, with its event (R117). -/
def edgeLane (xe : Int) (x : Num) : Int × Ev :=
  match x with
  | .nan => (0, { nan := 1 })
  | .inf s => (if s then -32768 else 32767, { sat := 1 })
  | .fin s n d e =>
    let v := signed s (roundNat .rne s n d (e - xe))
    if v = 32768 then (32767, { sat := 1 }) else (v, {})

/-- The largest exponent of a pick's finite non-zero elements. -/
def pickExp (l : List Num) : Option Int :=
  l.foldl (fun acc x => match x with
    | .fin _ n d e =>
      if n = 0 then acc
      else match acc with
        | none => some (floorLog2 n d e)
        | some b => some (max b (floorLog2 n d e))
    | _ => acc) none

/-- R117: the lanes of a pick, its exponent and its events. -/
def chunkLanes (l : List Num) : List Int × Int × Ev :=
  let xe := (pickExp l).getD 0 - 14
  let r := l.map (edgeLane xe)
  (r.map (·.1), xe, Ev.sum (r.map (·.2)))

/-! ### Passes -/

/-- Bit (k, n) of a plane (R115). -/
def planeBit (plane k n : Nat) : Bool := plane / 2 ^ (16 * k + n) % 2 == 1

/-- Lane `k`'s exact part of pass `j` for output column `n`. -/
def lanePart (p : Nat) (planes : List Nat) (j k n : Nat) (a : Int) : Int :=
  ((List.range 4).map (fun q =>
    let i := 4 * j + q
    if decide (i < p) && planeBit (nth 0 planes i) k n then (if i + 1 = p then -1 else 1) * a * (2 ^ i : Nat)
    else 0)).sum

/-- The exact integer of a cell's pass (R119). -/
def cellSum (p : Nat) (planes : List Nat) (lanes : List Int) (j n : Nat) : Int :=
  (lanes.zipIdx.map (fun (a, k) => lanePart p planes j k n a)).sum

/-- R119: a pass through one cell. -/
def cellPass (psum : Dword × Ev) (p : Nat) (tile : Int × List Nat) (lanes : List Int) (xe : Int) (j n : Nat) : Dword × Ev :=
  let (v, ev) := w64Add psum.1 ((Num.ofInt (cellSum p tile.2 lanes j n)).scale (tile.1 + xe))
  (v, psum.2.add ev)

/-- The tile of a set at (lx, ly). -/
def tileAt (a : SeaArray) (w : WeightSet) (lx ly : Nat) : Int × List Nat := nth (0, []) w.tiles (ly * a.w + lx)

/-- The result of pass `j` for output `n`: the rows of cells in ascending order, from +0 (R243). -/
def passResult (a : SeaArray) (w : WeightSet) (picks : List (List Int × Int)) (j n : Nat) : Dword × Ev :=
  picks.zipIdx.foldl (fun acc (p, ly) => cellPass acc w.p (tileAt a w (n / 16) ly) p.1 p.2 j (n % 16)) (0, {})

/-- NP of a set (R243). -/
def passCount (w : WeightSet) : Nat := (w.p + 3) / 4

/-- A row's picks: 16 elements for each logical row. -/
def rowPicks : Nat → List Num → List (List Int × Int × Ev)
  | 0, _ => []
  | h + 1, l => chunkLanes (l.take 16) :: rowPicks h (l.drop 16)

/-- All pass results of a row: for each pass its outputs, with the events of the edge and of the cells. -/
def rowPasses (a : SeaArray) (w : WeightSet) (elems : List Num) : List (List Dword) × Ev :=
  let picks := rowPicks a.h elems
  let lanes := picks.map (fun p => (p.1, p.2.1))
  let res := (List.range (passCount w)).map (fun j => (List.range (16 * a.w)).map (fun n => passResult a w lanes j n))
  (res.map (fun l => l.map (·.1)), (Ev.sum (picks.map (·.2.2))).add (Ev.sum ((res.flatMap id).map (·.2))))

/-! ### Accumulator rows -/

/-- One pass's values added into columns from 0 on (R250). -/
def addVals (vals : List (Nat × Dword)) (l : List Dword) : List (Nat × Dword) :=
  l.zipIdx.foldl (fun m (v, n) => mapSet 0 m n (w64Add (mapGet 0 m n) (w64 v)).1) vals

/-- An accumulator row after the passes of one activation row of array `n`; whether another array owned it (R249). -/
def accAdd (n : Nat) (psn : Bool) (passes : List (List Dword)) (r : AccRow) : AccRow × Bool :=
  let other := r.opened && (match r.owner with | some o => o != n | none => false)
  ({ vals := passes.foldl addVals r.vals, psn := r.psn || psn || other, opened := true, owner := some n }, other)

/-- The passes of a row added into the accumulator rows from `base` on, 512 columns each. -/
def accAddRows (s : State) (c : CtxId) (n : Nat) (psn : Bool) : Nat → Nat → List (List Dword) → State
  | 0, _, _ => s
  | k + 1, base, passes =>
    match getCtx s c with
    | none => s
    | some x =>
      let (r, other) := accAdd n psn (passes.map (·.take 512)) (getAcc x base)
      accAddRows (addCount (setAcc s c base r) c cntPoison (b2n other)) c n psn k (base + 1) (passes.map (·.drop 512))

/-- MMAO's sums (R250). -/
def sumPasses (passes : List (List Dword)) : List Dword :=
  match passes with
  | [] => []
  | p :: _ => (List.range p.length).map (fun n => passes.foldl (fun acc l => (w64Add acc (w64 (nth 0 l n))).1) 0)

/-! ### Drains (R251) -/

structure DrainFmt where
  dst : Bool
  nsat : Bool
  rnd : Rnd
  scale : Nat
  fmt : Fmt
  deriving DecidableEq, Repr

def rndOf (n : Nat) : Rnd :=
  match n with
  | 0 => .rne
  | 1 => .rtz
  | 2 => .rup
  | _ => .rdn

/-- The fields of a conversion word. -/
def drainFmt (w : Word) : DrainFmt :=
  { dst := wbit w 19, nsat := wbit w 18, rnd := rndOf (wbits w 17 16), scale := wbits w 15 8,
    fmt := (fmtOfCode (wbits w 7 0)).getD .raw }

def drainDesc (d : DrainFmt) : Desc := BitVec.ofNat 16 (d.fmt.code + 256 * d.scale)

/-- One value converted; zeros are +0 (R120, R122). W64 is copied. -/
def drainElem (d : DrainFmt) (v : Dword) : Nat × Ev :=
  if d.fmt = .w64 then (v.toNat, {})
  else
    let (b, ev) := encodeElem d.fmt d.rnd (satDefault d.fmt false d.nsat) d.scale .zero (w64 v)
    match d.fmt.floatFmt with
    | some f => (if b % f.signBit = 0 then 0 else b, ev)
    | none => (b, ev)

/-- Values, each with its poison, in tokens of `n`. -/
def chunks {α : Type} : Nat → Nat → List α → List (List α)
  | 0, _, _ => []
  | _, _, [] => []
  | k + 1, n, l => l.take n :: chunks k n (l.drop n)

def drainToken (d : DrainFmt) (l : List (Nat × Bool)) : Token :=
  vectorTok (BitVec.ofNat 512 (packElems d.fmt.width (l.map (·.1)))) (drainDesc d) (l.any (·.2))

/-- The tokens of an output row: full blocks with DST 0, one for each column group with DST 1. -/
def drainTokens (d : DrainFmt) (vals : List (Dword × Bool)) : List Token × Ev :=
  let r := vals.map (fun v => (drainElem d v.1, v.2))
  ((chunks vals.length (if d.dst then 16 else d.fmt.count) (r.map (fun x => (x.1.1, x.2)))).map (drainToken d),
    Ev.sum (r.map (fun x => x.1.2)))

/-- An instruction is a converter that claims the drain events of an array. -/
def claims (w : Window) (i n : Nat) : Bool :=
  let count (k : Fin 256) : Bool := let c := poolWord w (k.val + 1); wbit c 31 && wbits c 30 29 == n
  match winInstr w i with
  | some (.vcvt _ k _ _) => count k
  | some (.vqnt _ k _) => count k
  | _ => false

/-- The converter that a drain of array `n` feeds on slot a, when it claims the array (R295). -/
def claimant (w : Window) (i n : Nat) : Option Nat :=
  let of (t : Tgt) : Option Nat := t.bind (fun x => if x.slot == .a && claims w x.index.val n then some x.index.val else none)
  match winInstr w i with
  | some (.mmao t ..) => of t
  | some (.accdr t ..) => of t
  | _ => none

/-- An output row drained: its tokens to t0 or for the skew circuit, its events kept for the converter that it feeds, or counted. -/
def drainRow (s : State) (e : Env) (n : Nat) (d : DrainFmt) (vals : List (Dword × Bool)) : State × List Token :=
  let (toks, ev) := drainTokens d vals
  match (if d.dst then none else claimant e.win e.i n) with
  | some j => (updUnit s e.c j (fun u => { u with ve := { u.ve with rowEv := u.ve.rowEv ++ [(toks.length, ev)] } }), toks)
  | none => (countEvents s e.c ev, toks)

/-- A row, or a marker, enters the skew circuit that starts at array `n`; none where there is none (R254). -/
def enterCircuit (s : State) (c : CtxId) (n : Nat) (toks : List Token) : Option State :=
  match (getCtx s c).bind (fun x => (getArr x n).skew) with
  | some b => some (updArr s c b (fun a => { a with skewIn := a.skewIn ++ [toks] }))
  | none => none

/-- Data rows that a circuit to array `n` holds. -/
def circuitRows (x : Ctx) (n : Nat) : Nat := ((getArr x n).skewIn.filter (fun l => !l.any (·.isMk))).length

/-- The circuit that array `n` feeds takes one more row (R254). -/
def circuitRoom (x : Ctx) (n : Nat) : Bool :=
  match (getArr x n).skew with
  | some b => decide (circuitRows x b < 4)
  | none => true

/-- A drain of array `n` stalls on its circuit: the array's west edge stops accepting rows (R254). -/
def drainStalled (w : Window) (n : Nat) : Bool :=
  (w.code.zip w.units).any (fun (x, u) => !u.sea.rowsOut.isEmpty && (match instrOf x with
    | some (.accdr _ _ _ y) => y.val == n
    | _ => false))

end Sys2Proof.Machine
end

