-- ==== Sys2Proof/Machine/Vector.lean ====
section
/-! DEFINITION. Group 0x9, the vector engines (R278 to R295). -/

namespace Sys2Proof.Machine

/-! ### The operation word (R282) and operands (R278, R279) -/

structure Vop where
  sat : Bool
  nsat : Bool
  rnd : Rnd
  nfmt : Option Fmt
  scale : Nat
  ofmt : Fmt
  deriving DecidableEq, Repr

def vopOf (w : Word) : Vop :=
  { sat := wbit w 27, nsat := wbit w 26, rnd := rndOf (wbits w 25 24),
    nfmt := if wbits w 23 16 = 0 then none else fmtOfCode (wbits w 23 16), scale := wbits w 15 8,
    ofmt := (fmtOfCode (wbits w 7 0)).getD .raw }

/-- The element count that a block of no numbers has (R278). -/
def emptyCount (nfmt : Option Fmt) : Nat := (nfmt.map Fmt.count).getD 16

/-- A vector operand: its elements and events. -/
def veElems (nfmt : Option Fmt) (t : Token) : List Num × Ev :=
  let (src, ev) := sourceFormat t.desc t.psn nfmt edgeAccepts
  (blockElems src .zero (emptyCount nfmt) t.data, ev)

/-- A scalar that stands for every element: its 32 bits as one FP32 value (R279). -/
def broadcast (n : Nat) (t : Token) : List Num := List.replicate n (f32 t.word)

/-- Tokens of `f.count` elements each, with a zero tail (R280). -/
def outTokens (f : Fmt) (scale : Nat) (l : List (Nat × Bool)) : List Token :=
  (chunks l.length f.count l).map (fun c =>
    vectorTok (BitVec.ofNat 512 (packElems f.width (c.map (·.1)))) (BitVec.ofNat 16 (f.code + 256 * scale)) (c.any (·.2)))

/-- A result element (R281). -/
def veResult (v : Vop) (x : Num) : Nat := (encodeElem v.ofmt v.rnd (satDefault v.ofmt v.sat v.nsat) v.scale .zero x).1

/-! ### Injections on a VE (R458) -/

/-- Opcodes whose lanes run on two copies (R297). -/
def veTwoCopy (op : Nat) : Bool := [0x94, 0x95, 0x96, 0x97, 0x9D, 0x9E].elem op

/-- A firing of `g` groups counted against the armed injections of its VE. That EXP is the residue of the firing's first output
token, and 0 where it has none, is the model's choice (assumption log 75). -/
def veInject (s : State) (e : Env) (elems : Nat) (two : Bool) (out : List (Target × Token)) (act : State → Act) : Act :=
  if s.hl.inj.isEmpty then act s
  else
    let (x, y) := unitSite s e
    match injectAt s 3 (x / 2) (y / 2) (ctxNode e.c) ((elems + 15) / 16) with
    | (none, s1) => act s1
    | (some j, s1) =>
      let r := match out with
        | (_, t) :: _ => t.res.val
        | [] => 0
      let k := unitCheck s e (if two then 0x04 else 0x01) (if two then 0 else r) (if two then 0 else (r + 1) % 7) true
      .trap s1 { k with lane := j.lane, l1 := BitVec.ofNat 32 (j.left - 1) }

/-! ### Element-wise instructions (R284, R285) -/

/-- VMIN and VMAX (R157). -/
def numMinMax (isMax : Bool) (x y : Num) : Num :=
  match x.isNan, y.isNan with
  | true, true => .nan
  | true, false => y
  | false, true => x
  | false, false => if numLess x y != isMax then x else y

/-- VCMP (R158). -/
def numCmp (c : Cond) (x y : Num) : Num :=
  if (if x.isNan || y.isNan then c == .ne else condHolds c (x.cmp y)) then .fin false 1 1 0 else .zero

def numSel (x y z : Num) : Num := if z.isNan || z.isZero then y else x

/-- The operands of an element-wise firing over `sl`; scalars where `sc` says so. -/
def veOperands (v : Vop) (l : List (Token × Bool)) : List (List Num) × Ev :=
  match l with
  | [] => ([], {})
  | (a, _) :: rest =>
    let (xa, ev) := veElems v.nfmt a
    rest.foldl (fun (acc : List (List Num) × Ev) (t, scalar) =>
      if scalar then (acc.1 ++ [broadcast xa.length t], acc.2)
      else
        let (x, ev) := veElems v.nfmt t
        (acc.1 ++ [x], acc.2.add ev)) ([xa], ev)

/-- The result of an element-wise firing: poisoned zeros where the operands differ in E. -/
def veMap (v : Vop) (ops : List (List Num)) (psn : Bool) (f : Num → Num → Num → Num) : List (Nat × Bool) × Bool :=
  let a := ops.headD []
  let b := nth a ops 1
  let c := nth a ops 2
  if ops.any (fun l => l.length != a.length) then (List.replicate a.length (0, true), true)
  else (a.zipIdx.map (fun (x, i) => (veResult v (f x (nth .zero b i) (nth .zero c i)), psn)), false)

/-- An element-wise instruction over slots `sl`, some of them scalar; vector operands that are poisoned count (R113). -/
def lanesFiring (t : Tgt) (k : Fin 256) (sl : List (Slot × Bool)) (two : Bool) (f : Vop → Num → Num → Num → Num)
    (read : Slot → Token → Token := fun _ tok => tok) : Firing :=
  let slots := sl.map (·.1)
  { slots := slots, joins := slots, tgts := tgt1 t, onMark := passMark (tgt1 t), resume := noResume
    body := fun s e o =>
      let v := vopOf (poolWord e.win k.val)
      let toks := sl.map (fun x => (operandAt o x.1, x.2))
      let (ops, ev) := veOperands v (sl.map (fun x => (read x.1 (operandAt o x.1), x.2)))
      let (r, differ) := veMap v ops (slotsPsn o slots) (f v)
      let out := seqAll (tgt1 t) (outTokens v.ofmt v.scale r)
      let n := (toks.filter (fun x => x.1.psn && !x.2)).length + b2n differ
      veInject s e r.length two out (fun s1 => .emit (countEvents (addCount s1 e.c cntPoison n) e.c ev) out) }

/-- VADD (R284). -/
def execVadd (t : Tgt) (k : Fin 256) (bb : Bool) (s : State) : Host.Outcome State Fault Refusal :=
  runUnit s (fun _ => lanesFiring t k [(.a, false), (.b, bb)] false (fun v x y _ => Num.add (isDown v.rnd) x y))

/-- VSUB. -/
def execVsub (t : Tgt) (k : Fin 256) (bb : Bool) (s : State) : Host.Outcome State Fault Refusal :=
  runUnit s (fun _ => lanesFiring t k [(.a, false), (.b, bb)] false (fun v x y _ => Num.add (isDown v.rnd) x y.neg))

/-- VMUL. -/
def execVmul (t : Tgt) (k : Fin 256) (bb : Bool) (s : State) : Host.Outcome State Fault Refusal :=
  runUnit s (fun _ => lanesFiring t k [(.a, false), (.b, bb)] false (fun _ x y _ => x.mul y))

/-- VFMA. -/
def execVfma (t : Tgt) (k : Fin 256) (bc bb : Bool) (s : State) : Host.Outcome State Fault Refusal :=
  runUnit s (fun _ => lanesFiring t k [(.a, false), (.b, bb), (.c, bc)] false (fun v x y z => Num.add (isDown v.rnd) (x.mul y) z))

/-- VMIN. -/
def execVmin (t : Tgt) (k : Fin 256) (bb : Bool) (s : State) : Host.Outcome State Fault Refusal :=
  runUnit s (fun _ => lanesFiring t k [(.a, false), (.b, bb)] true (fun _ x y _ => numMinMax false x y))

/-- VMAX. -/
def execVmax (t : Tgt) (k : Fin 256) (bb : Bool) (s : State) : Host.Outcome State Fault Refusal :=
  runUnit s (fun _ => lanesFiring t k [(.a, false), (.b, bb)] true (fun _ x y _ => numMinMax true x y))

/-- VCMP. -/
def execVcmp (t : Tgt) (k : Fin 256) (c : Cond) (bb : Bool) (s : State) : Host.Outcome State Fault Refusal :=
  runUnit s (fun _ => lanesFiring t k [(.a, false), (.b, bb)] true (fun _ x y _ => numCmp c x y))

/-- A poisoned scalar on VSEL's slot c selects b (R298). -/
def selRead (sl : Slot) (tok : Token) : Token := if sl == .c && tok.psn && !tok.vec then scalarTok 0 true else tok

/-- VSEL. -/
def execVsel (t : Tgt) (k : Fin 256) (bc bb : Bool) (s : State) : Host.Outcome State Fault Refusal :=
  runUnit s (fun _ => lanesFiring t k [(.a, false), (.b, bb), (.c, bc)] true (fun _ x y z => numSel x y z) selRead)

/-- VEXP2 (R285). -/
def execVexp2 (t : Tgt) (k : Fin 256) (s : State) : Host.Outcome State Fault Refusal :=
  runUnit s (fun _ => lanesFiring t k [(.a, false)] false (fun _ x _ _ => x.exp2))

/-- VRSQ. -/
def execVrsq (t : Tgt) (k : Fin 256) (s : State) : Host.Outcome State Fault Refusal :=
  runUnit s (fun _ => lanesFiring t k [(.a, false)] false (fun _ x _ _ => x.rsqrt))

/-- VRCP. -/
def execVrcp (t : Tgt) (k : Fin 256) (s : State) : Host.Outcome State Fault Refusal :=
  runUnit s (fun _ => lanesFiring t k [(.a, false)] false (fun _ x _ _ => x.recip))

/-! ### Conversion (R286 to R288, R293 to R295) -/

/-- The count word of a `vconv` pair. -/
structure CountCfg where
  cdr : Bool
  carr : Nat
  crank : Nat
  ctgt : Option Target

def countCfg (w : Word) : CountCfg :=
  { cdr := wbit w 31, carr := wbits w 30 29, crank := wbits w 11 9, ctgt := readTgt (wbits w 8 0) }

/-- The counts leave as tokens, not straight to the node's counts (R294). -/
def CountCfg.emits (g : CountCfg) : Bool := g.ctgt.isSome && g.crank != 7

def updVe (s : State) (e : Env) (f : VeUnit → VeUnit) : State := updUnit s e.c e.i (fun u => { u with ve := f u.ve })

/-- A tile's events enter its sums, which saturate (R294). -/
def tileEvents (s : State) (e : Env) (ev : Ev) : State := updVe s e (fun v => { v with ev := (v.ev.add ev).cap })

/-- With CDR, a token consumed may be its row's last: the row's drain events (R295). -/
def rowEvents (s : State) (e : Env) (g : CountCfg) : Ev × State :=
  if !g.cdr then ({}, s)
  else
    match e.u.ve.rowEv with
    | [] => ({}, s)
    | (n, ev) :: rest =>
      if n ≤ 1 then (ev, updVe s e (fun v => { v with rowEv := rest }))
      else ({}, updVe s e (fun v => { v with rowEv := (n - 1, ev) :: rest }))

/-- The five count tokens (R294). -/
def countToks (ev : Ev) : List Token :=
  [ev.cap.sat, ev.cap.nan, ev.cap.flush, ev.cap.subst, ev.cap.fmt].map (fun n => scalarTok (BitVec.ofNat 32 n) false)

/-- At a marker of rank CRANK or above the counts leave to CTGT, the marker behind them, or go to the node's counts; the sums
become zero. -/
def countMark (s : State) (e : Env) (g : CountCfg) (r : Nat) (ev : Ev) : State × List (Target × Token) :=
  if decide (g.crank ≤ r) then
    let s1 := updVe s e (fun v => { v with ev := {} })
    let sum := (e.u.ve.ev.add ev).cap
    if g.emits then (s1, seqAll g.ctgt.toList (countToks sum ++ [markerTok r])) else (countEvents s1 e.c sum, [])
  else (tileEvents s e ev, [])

/-- The super-scale of the block at position `p` of a QS stream: none where it reads as SUBST (R110, R287). -/
def superScale (v : VeUnit) : Option Num :=
  match v.super with
  | some t =>
    if t.psn || t.desc != 0x0001 then none
    else
      let j := v.pos - (v.pos + 32) / 33
      let g := fmtFp32.decode (elemBits t.data.toNat 32 (j / 2 % 16))
      if g.isFinite then some g else none
  | none => none

/-- Formats that a converter accepts (R286). -/
def convAccepts (qs : Bool) (f : Fmt) : Bool := edgeAccepts f || (qs && f == .q4n)

/-- A converter's operand: its elements, its poison and its events. -/
def convElems (v : Vop) (qs : Bool) (u : VeUnit) (t : Token) : List Num × Bool × Ev :=
  let sup := if qs then superScale u else some .zero
  let bad := qs && (match u.super with | some x => x.psn | none => false)
  match sup with
  | none => (List.replicate (emptyCount v.nfmt) .zero, t.psn || bad, if t.psn then {} else { subst := 1 })
  | some g =>
    let (src, ev) := sourceFormat t.desc t.psn v.nfmt (convAccepts qs)
    (blockElems src g (emptyCount v.nfmt) t.data, t.psn, ev)

/-- A token at a super-scale position of a QS stream. -/
def atSuper (qs : Bool) (u : VeUnit) : Bool := qs && u.pos % 33 == 0

/-- The whole blocks of a list, and what is left. -/
def wholeBlocks {α : Type} (n : Nat) (l : List α) : List α × List α :=
  let k := l.length / max 1 n * n
  (l.take k, l.drop k)

/-- VCVT's elements in OFMT, with their events. -/
def cvtElems (v : Vop) (l : List Num) (psn : Bool) : List (Nat × Bool) × Ev :=
  let r := l.map (encodeElem v.ofmt v.rnd (satDefault v.ofmt v.sat v.nsat) v.scale .zero)
  (r.map (fun x => (x.1, psn)), Ev.sum (r.map (·.2)))

/-- The bound of VQNT's scale for a target (R288). -/
def quantBound : Fmt → Nat
  | .int16 => 32767
  | .int8 => 127
  | .int4 => 7
  | .nat8 => 255
  | _ => 1

/-- The largest finite magnitude of the elements. -/
def amaxOf (l : List Num) : Num :=
  l.foldl (fun acc x => if x.isFinite && acc.lt x.abs then x.abs else acc) .zero

/-- The power-of-two scale of a float block (R288). -/
def floatScale (f : FloatFmt) (x : Num) : Int :=
  match x with
  | .fin _ n d e =>
    if n = 0 then 0
    else
      let top := f.decode f.maxCode
      let s := floorLog2 n d e - (match top with | .fin _ m _ q => (Nat.log2 m : Int) + q | _ => 0)
      clampInt (if (x.scale (-s)).le top then s else s + 1) (-128) 127
  | _ => 0

/-- The scale byte of a quantised block. -/
def quantScale (f : Fmt) (l : List Num) : Nat :=
  match f.floatFmt with
  | some ff => wrapInt 8 (floatScale ff (amaxOf l))
  | none => (scbByte (quantBound f) (amaxOf l)).1

/-- A quantised block from its elements, the zero tail among them. -/
def quantBlock (v : Vop) (l : List (Num × Bool)) : Token × Ev :=
  let xs := l ++ List.replicate (v.ofmt.count - l.length) (.zero, false)
  let sc := quantScale v.ofmt (xs.map (·.1))
  let r := xs.map (fun x => encodeElem v.ofmt v.rnd (satDefault v.ofmt false v.nsat) sc (.fin false 1 1 0) x.1)
  (vectorTok (BitVec.ofNat 512 (packElems v.ofmt.width (r.map (·.1)))) (BitVec.ofNat 16 (v.ofmt.code + 256 * sc)) (l.any (·.2)),
    Ev.sum (r.map (·.2)))

/-- A converter's firing on a data token: what it emits and keeps is `conv`'s. -/
def convertFiring (t : Tgt) (k : Fin 256) (qs : Bool) (conv : Vop → VeUnit → List Num → Bool → List Token × VeUnit × Ev)
    (close : Vop → VeUnit → List Token × VeUnit × Ev) (w : Window) : Firing :=
  let v := vopOf (poolWord w k.val)
  let g := countCfg (poolWord w (k.val + 1))
  { slots := slotsA, joins := slotsA, tgts := tgt1 t, resume := noResume
    markTgts := if g.emits then g.ctgt.toList else []
    body := fun s e o =>
      let (rev, s0) := rowEvents s e g
      if atSuper qs e.u.ve then
        .emit (tileEvents (updVe s0 e (fun u => { u with super := some o.a, pos := u.pos + 1 })) e rev) []
      else
        let (l, psn, ev) := convElems v qs e.u.ve o.a
        let (toks, u1, ev1) := conv v e.u.ve l psn
        let s1 := updVe (addCount s0 e.c cntPoison (b2n o.a.psn)) e (fun u => { u1 with rowEv := u.rowEv, pos := if qs then u1.pos + 1 else u1.pos })
        let out := seqAll (tgt1 t) toks
        veInject s1 e l.length false out (fun s2 => .emit (tileEvents s2 e ((ev.add ev1).add rev)) out)
    onMark := fun s e r =>
      let (toks, u1, ev) := close v e.u.ve
      let (s1, cts) := countMark (updVe s e (fun _ => { u1 with super := none, pos := 0 })) e g r ev
      .emit s1 (seqAll (tgt1 t) (toks ++ [markerTok r]) ++ cts) }

def vcvtConv (cont : Bool) (v : Vop) (u : VeUnit) (l : List Num) (psn : Bool) : List Token × VeUnit × Ev :=
  let (r, ev) := cvtElems v l psn
  if cont then
    let (now, left) := wholeBlocks v.ofmt.count (u.part ++ r)
    (outTokens v.ofmt v.scale now, { u with part := left }, ev)
  else (outTokens v.ofmt v.scale r, u, ev)

def vcvtClose (v : Vop) (u : VeUnit) : List Token × VeUnit × Ev := (outTokens v.ofmt v.scale u.part, { u with part := [] }, {})

/-- VCVT (R286). -/
def execVcvt (t : Tgt) (k : Fin 256) (qs cont : Bool) (s : State) : Host.Outcome State Fault Refusal :=
  runUnit s (fun e => convertFiring t k qs (vcvtConv cont) vcvtClose e.win)

/-- Blocks quantised one after another. -/
def quantBlocks (v : Vop) (l : List (Num × Bool)) : List Token × Ev :=
  let r := (chunks l.length v.ofmt.count l).map (quantBlock v)
  (r.map (·.1), Ev.sum (r.map (·.2)))

def vqntConv (v : Vop) (u : VeUnit) (l : List Num) (psn : Bool) : List Token × VeUnit × Ev :=
  let (now, left) := wholeBlocks v.ofmt.count (u.vals ++ l.map (fun x => (x, psn)))
  let (toks, ev) := quantBlocks v now
  (toks, { u with vals := left }, ev)

def vqntClose (v : Vop) (u : VeUnit) : List Token × VeUnit × Ev :=
  let (toks, ev) := quantBlocks v u.vals
  (toks, { u with vals := [] }, ev)

/-- VQNT (R288). -/
def execVqnt (t : Tgt) (k : Fin 256) (qs : Bool) (s : State) : Host.Outcome State Fault Refusal :=
  runUnit s (fun e => convertFiring t k qs vqntConv vqntClose e.win)

/-! ### Reduction (R289, R290) -/

/-- One element taken into an accumulator; the first stands for itself. -/
def redStep (op : RedOp) (acc : Option Num) (x : Num) : Num :=
  let y := match op with | .amax => x.abs | _ => x
  match acc with
  | none => y
  | some a =>
    match op with
    | .add => Num.add false a y
    | .max => numMinMax true a y
    | .min => numMinMax false a y
    | .amax => numMinMax true a y

/-- An empty group's value. -/
def redEmpty : RedOp → Num
  | .add => .zero
  | .max => .inf true
  | .min => .inf false
  | .amax => .zero

/-- The value that a group gives: an exact zero of `.add` that is not made of -0 alone takes the mode's sign. -/
def redValue (op : RedOp) (r : Rnd) (x : Num) : Num :=
  if op = .add ∧ x.isZero ∧ !x.isNeg then .fin (isDown r) 0 1 0 else x

/-- Elements that one accumulator of a group can take (R290). -/
def redLimit : Nat := 2 ^ 40

def redAll (op : RedOp) (acc : List Num) (l : List Num) : List Num :=
  match l with
  | [] => acc
  | x :: xs => [xs.foldl (fun a y => redStep op (some a) y) (redStep op acc.head? x)]

/-- The elements of a column group's block of no numbers: E of NFMT, or 16 with NFMT 0 (R278); also 16 where that E is above 64,
which the manual leaves open (assumption log 18). -/
def colCount (nfmt : Option Fmt) : Nat := if 64 < emptyCount nfmt then 16 else emptyCount nfmt

/-- The group's results (R289); an empty column group's number of results is the model's choice (assumption log 18). -/
def redResults (v : Vop) (op : RedOp) (cols vec : Bool) (u : VeUnit) : List Token :=
  let enc (x : Num) : Nat := veResult v x
  if cols then
    let l := if u.acc.isEmpty then List.replicate (colCount v.nfmt) (redEmpty op) else u.acc.map (redValue op v.rnd)
    outTokens v.ofmt v.scale (l.map (fun x => (enc x, u.psn)))
  else
    let x := match u.acc.head? with
      | some y => redValue op v.rnd y
      | none => redEmpty op
    if vec then outTokens v.ofmt v.scale (List.replicate v.ofmt.count (enc x, u.psn))
    else [scalarTok (BitVec.ofNat 32 (enc x)) u.psn]

def redReset (u : VeUnit) : VeUnit := { u with acc := [], cnt := 0, psn := false }

/-- A token's elements taken into the group; a full accumulator closes it (R290). -/
def redTake (v : Vop) (op : RedOp) (cols vec : Bool) (u : VeUnit) (l : List Num) (psn : Bool) : List Token × VeUnit × Nat × Nat :=
  if cols then
    if !u.acc.isEmpty && u.acc.length != l.length then ([], { u with psn := true }, 1, 0)
    else
      let acc := if u.acc.isEmpty then l.map (redStep op none) else List.zipWith (fun a x => redStep op (some a) x) u.acc l
      let u1 := { u with acc := acc, cnt := u.cnt + 1, psn := u.psn || psn }
      if redLimit ≤ u1.cnt then (redResults v op cols vec u1, redReset u1, 0, 1) else ([], u1, 0, 0)
  else
    let room := redLimit - u.cnt
    if l.length < room then
      ([], { u with acc := redAll op u.acc l, cnt := u.cnt + l.length, psn := u.psn || psn }, 0, 0)
    else
      let u1 := { u with acc := redAll op u.acc (l.take room), psn := u.psn || psn }
      let rest := l.drop room
      (redResults v op cols vec u1,
        { redReset u1 with acc := redAll op [] rest, cnt := rest.length, psn := psn && !rest.isEmpty }, 0, 1)

/-- The elements of a VRED's token. In a column group a block of more than 64 elements is a format error (R289), and reads, as a
SUBST or ZEROS block does, as +0 in the elements of NFMT. -/
def redElems (v : Vop) (cols : Bool) (t : Token) : List Num × Ev :=
  if !cols then veElems v.nfmt t
  else
    let zeros : List Num := List.replicate (colCount v.nfmt) .zero
    match sourceFormat t.desc t.psn v.nfmt edgeAccepts with
    | (.as f scale, ev) =>
      if 64 < f.count then (zeros, { fmt := 1 }) else (blockElems (.as f scale) .zero 0 t.data, ev)
    | (_, ev) => (zeros, ev)

/-- VRED. -/
def execVred (t : Tgt) (k : Fin 256) (rk : Fin 8) (op : RedOp) (cols vec : Bool) (s : State) : Host.Outcome State Fault Refusal :=
  runUnit s (fun _ =>
    { slots := slotsA, joins := slotsA, tgts := tgt1 t, resume := noResume
      body := fun s e o =>
        let v := vopOf (poolWord e.win k.val)
        let (l, ev) := redElems v cols o.a
        let (toks, u1, n, m) := redTake v op cols vec e.u.ve l o.a.psn
        let out := seqAll (tgt1 t) toks
        let s1 := updVe (addCount (addCount s e.c cntPoison (n + b2n o.a.psn)) e.c cntMismatch m) e (fun _ => u1)
        veInject s1 e l.length (op != .add) out (fun s2 => .emit (countEvents s2 e.c ev) out)
      onMark := fun s e r =>
        if r < rk.val then .emit s []
        else
          let toks := redResults (vopOf (poolWord e.win k.val)) op cols vec e.u.ve
          .emit (updVe s e redReset) (seqAll (tgt1 t) (toks ++ [markerTok r])) })

/-! ### Permutation and broadcast (R291, R292) -/

/-- The element width that permutation takes from a descriptor. -/
def permWidth (d : Desc) : Nat :=
  match fmtOfCode (d.toNat % 256) with
  | some .raw | some .subst | some .w64 | none => 32
  | some .planes | some .int4 | some .int2 | some .q4n => 8
  | some f => f.width

def unitWidth (g : Nat) (d : Desc) : Nat :=
  match g with
  | 0 => permWidth d
  | 1 => 8
  | 2 => 16
  | _ => 32

/-- Output unit `n` is unit idx[n], or zero. -/
def permute (w : Nat) (data : Bits512) (idx : Nat → Nat) : Bits512 :=
  BitVec.ofNat 512 (packElems w ((List.range (512 / w)).map (fun n =>
    if idx n < 512 / w then elemBits data.toNat w (idx n) else 0)))

/-- VPERM. -/
def execVperm (t : Tgt) (k : Fin 256) (pool : Bool) (g : Fin 4) (s : State) : Host.Outcome State Fault Refusal :=
  let sl := if pool then slotsA else slotsAB
  runUnit s (fun _ =>
    { slots := sl, joins := sl, tgts := tgt1 t, onMark := passMark (tgt1 t), resume := noResume
      body := fun s e o =>
        let w := unitWidth g.val o.a.desc
        let idx (n : Nat) : Nat :=
          if pool then (poolWord e.win (k.val + n / 4)).toNat / 256 ^ (n % 4) % 256 else elemBits o.b.data.toNat 8 n
        let out := toAll (tgt1 t) (vectorTok (permute w o.a.data idx) o.a.desc (slotsPsn o sl))
        veInject s e (512 / w) true out (fun s1 => .emit s1 out) })

/-- VBCST. -/
def execVbcst (t : Tgt) (k : Fin 256) (i : Fin 64) (fromv : Bool) (s : State) : Host.Outcome State Fault Refusal :=
  runUnit s (fun _ =>
    { slots := slotsA, joins := slotsA, tgts := tgt1 t, onMark := passMark (tgt1 t), resume := noResume
      body := fun s e o =>
        let w := if fromv then permWidth o.a.desc else 32
        let data := if fromv then permute w o.a.data (fun _ => i.val) else BitVec.ofNat 512 (packElems 32 (List.replicate 16 o.a.word.toNat))
        let desc := if fromv then o.a.desc else (poolWord e.win k.val).setWidth 16
        let out := toAll (tgt1 t) (vectorTok data desc o.a.psn)
        veInject s e (512 / w) true out (fun s1 => .emit s1 out) })

end Sys2Proof.Machine
end

