-- ==== Sys2Proof/Machine/Shuttle.lean ====
section
/-! DEFINITION. Group 0xA, the shuttle (R302 to R325): the issue of its commands, and the events that start them, move
their tiles and complete them. A command moves one block at a time, XCONV one row or one band of tiles. -/

namespace Sys2Proof.Machine

/-! ### Descriptors (R305) -/

/-- A branch from the words that X2 and X3 stand for. -/
def branchOf (x2 x3 : Word) : Branch :=
  let dk := wbits x3 31 30
  { dk := dk, dst := if dk = 0 then BitVec.ofNat 64 (x2.toNat + wbits x3 22 0 * 2 ^ 32) else 0,
    node := if dk = 2 then x2.toNat else 0,
    bob := if dk = 1 then wbits x2 4 0 else if dk = 2 then wbits x3 4 0 else 0, credit := wbit x3 29, tag := wbits x3 28 25,
    off := false, next := 0, got := false, slot := none }

/-- A 55-bit address of two words. -/
def wordsVa (lo hi : Word) : Dword := BitVec.ofNat 64 (lo.toNat + wbits hi 22 0 * 2 ^ 32)

/-- Opcodes of the shuttle. -/
def opCopy : Nat := 0xA0
def opGath : Nat := 0xA1
def opScat : Nat := 0xA2
def opMcast : Nat := 0xA3
def opXconv : Nat := 0xA4
def opRelay : Nat := 0xA5

/-- The branches of a descriptor: MCAST has NB, every other command one. -/
def branchesOf (op : Nat) (w : Window) (k : Nat) : List Branch :=
  let p (j : Nat) : Word := poolWord w (k + j)
  branchOf (p 2) (p 3) ::
    (if op = opMcast then (List.range (wbits (p 10) 2 0)).map (fun b => branchOf (p (11 + 2 * b)) (p (12 + 2 * b))) else [])

/-- A command as its descriptor gives it. -/
def cmdOf (s : State) (e : Env) (op variant k : Nat) (od : Order) : Cmd :=
  let p (j : Nat) : Word := poolWord e.win (k + j)
  let bob := wbits (p 1) 31 30 == 1
  { ticket := s.sh.ticket, ctx := e.c, block := e.ctx.draft.block, idx := e.i, op := op, variant := variant, order := od,
    field := ctxField s e.c e.i, waitPhase := if od.rel then some (relMark e.ctx od.scope) else none, started := !od.rel,
    srcBob := bob, src := if bob then (p 0 &&& 31).zeroExtend 64 else wordsVa (p 0) (p 1), srcTile := 0, slot := none,
    branches := branchesOf op e.win k, rb := wbits (p 4) 31 16 + 1, tr := wbits (p 4) 15 0 + 1,
    nrow := wbits (p 5) 23 0 + 1, sstr := (p 6).signExtend 64, dstr := (p 7).signExtend 64, cnt := wordsVa (p 8) (p 9),
    add := wbits (p 9) 31 24, x10 := p 10, x11 := p 11, x12 := p 12, permit := false, row := 0, index := [], kept := [], status := 0,
    ev := {}, counted := false, doneAt := none, toks := [], opened := false, acked := false, sentUs := 0,
    bad := false, hi := 0 }

/-! ### Conversion words (R316) -/

structure XconvFmt where
  nfmt : Fmt
  planes : Nat
  nsat : Bool
  sat : Bool
  rnd : Rnd
  scale : Nat
  ofmt : Fmt
  deriving DecidableEq, Repr

def xconvFmt (w : Word) : XconvFmt :=
  { nfmt := (fmtOfCode (wbits w 31 24)).getD .raw, planes := wbits w 23 20 + 1, nsat := wbit w 19, sat := wbit w 18,
    rnd := rndOf (wbits w 17 16), scale := wbits w 15 8, ofmt := (fmtOfCode (wbits w 7 0)).getD .raw }

/-! ### Shape of a command -/

/-- Permit tiles of a command. -/
def Cmd.tiles (x : Cmd) : Nat := (x.nrow + x.tr - 1) / x.tr

def Cmd.tileRows (x : Cmd) (i : Nat) : Nat := min x.tr (x.nrow - i * x.tr)

/-- XCONV with `.planes`. -/
def Cmd.isPlanes (x : Cmd) : Bool := x.op == opXconv && x.variant == 1

/-- Blocks that one row gives at a destination. -/
def Cmd.rowOut (x : Cmd) : Nat :=
  if x.op = opXconv then
    let f := xconvFmt x.x10
    (x.rb * f.nfmt.count * f.ofmt.width + 511) / 512
  else x.rb

/-- PLANES blocks of one band. -/
def Cmd.bandOut (x : Cmd) : Nat :=
  let f := xconvFmt x.x10
  x.rb * f.nfmt.count / 16 * ((f.planes + 1) / 2)

/-- Blocks that tile `i` gives at a destination. -/
def Cmd.tileOut (x : Cmd) (i : Nat) : Nat := if x.isPlanes then x.bandOut else x.tileRows i * x.rowOut

/-- Moves that a tile takes: blocks, rows of an XCONV, or one band. -/
def Cmd.moves (x : Cmd) (i : Nat) : Nat :=
  if x.isPlanes then 1 else if x.op = opXconv then x.tileRows i else x.tileRows i * x.rb

/-! ### Status bits (R304) -/

def stRefused : Byte := 0x01
def stSrcXl : Byte := 0x02
def stDstXl : Byte := 0x04
def stIndex : Byte := 0x08
def stPoison : Byte := 0x10
def stFormat : Byte := 0x20
def stSlot : Byte := 0x40
def stPeer : Byte := 0x80

def Cmd.has (x : Cmd) (b : Byte) : Bool := x.status &&& b != 0

def Cmd.mark (x : Cmd) (b : Byte) : Cmd := { x with status := x.status ||| b }

/-- The tile in hand: the earliest that the source or a served branch still needs. -/
def Cmd.current (x : Cmd) : Nat :=
  let l := (x.branches.filter (fun b => !b.off)).map (·.next) ++ (if x.srcBob then [x.srcTile] else [])
  l.foldl min x.tiles

/-- Nothing is left to move. -/
def Cmd.moved (x : Cmd) : Bool := x.has stRefused || x.has stPeer || decide (x.tiles ≤ x.current)

/-! ### Issue (R303, R306, R312, R322) -/

/-- A VA that the command forms is canonical and aligned. -/
def vaOk (c : CtxId) (va : Dword) (align : Nat) : Bool := (isFirmware c || canonical va) && va.toNat % align == 0

/-- The rows of a global range lie within 2^55 bytes. -/
def spanOk (x : Cmd) (va : Dword) : Bool := decide (va.toNat % 2 ^ 55 + x.nrow * x.rb * 64 ≤ 2 ^ 55)

/-- A VA as a signed number. -/
def vaInt (va : Dword) : Int := va.toInt

/-- Every VA of `n` bytes is canonical. -/
def bytesOk (c : CtxId) (va : Int) (n : Nat) : Bool := isFirmware c || (decide (-(2 ^ 54 : Int) ≤ va) && decide (va + n ≤ 2 ^ 54))

/-- Every VA of `n` rows of `blocks` blocks at a distance is canonical (R306): as rows lie at equal distances, the first and the last
row tell. -/
def rowsOk (c : CtxId) (va str : Dword) (n blocks : Nat) : Bool :=
  let row (k : Nat) : Int := vaInt va + k * str.toInt
  bytesOk c (row 0) (64 * blocks) && bytesOk c (row (n - 1)) (64 * blocks)

/-- A list of `n` words at a VA: aligned, and every entry's VA canonical (R306). -/
def entriesOk (c : CtxId) (va : Dword) (n : Nat) : Bool := vaOk c va 4 && bytesOk c (vaInt va) (4 * n)

/-- The rows of a command's global source; those of GATH stand where its indexes name them. -/
def srcRowsOk (x : Cmd) : Bool := x.op == opGath || rowsOk x.ctx x.src x.sstr x.nrow x.rb

/-- The rows of a global branch; those of SCAT stand where its indexes name them, and PLANES blocks one after another. -/
def dstRowsOk (x : Cmd) (b : Branch) : Bool :=
  if x.op = opScat then true
  else if x.isPlanes then rowsOk x.ctx b.dst 0 1 (x.tiles * x.bandOut)
  else rowsOk x.ctx b.dst x.dstr x.nrow x.rowOut

/-- A bobbin branch's bobbin exists at issue; a node held and not placed passes. -/
def branchOk (s : State) (x : Cmd) (b : Branch) : Bool :=
  match b.dk with
  | 0 => vaOk x.ctx b.dst 64 && spanOk x b.dst && dstRowsOk x b
  | 1 => ((getCtx s x.ctx).bind (fun y => getBob y.mem b.bob)).isSome
  | _ =>
    match getNode s b.node with
    | some n => n.exec.isNone || (getBob n.ctx.mem b.bob).isSome
    | none => false

/-- The run-time checks of R306 and R311. XCONV's entries are those that all of its blocks would take (assumption log 73). -/
def cmdOk (s : State) (x : Cmd) : Bool :=
  (if x.srcBob then ((getCtx s x.ctx).bind (fun y => getBob y.mem x.src.toNat)).isSome
    else vaOk x.ctx x.src 64 && spanOk x x.src && srcRowsOk x)
    && x.branches.all (branchOk s x)
    && (x.cnt == 0 || vaOk x.ctx x.cnt 8)
    && (!(x.op == opGath || x.op == opScat) || entriesOk x.ctx (wordsVa x.x10 x.x11) x.nrow)
    && (x.op != opXconv || entriesOk x.ctx (wordsVa x.x11 x.x12) ((x.nrow * x.rb + 1) / 2))
    && (x.op != opRelay || vaOk x.ctx (wordsVa x.x11 x.x12) 8)

/-- The `.ofs` operands: signed byte offsets added to global addresses (R312). -/
def addOffsets (x : Cmd) (a b : Token) : Cmd :=
  { x with src := if x.srcBob then x.src else x.src + a.word.signExtend 64,
           branches := x.branches.zipIdx.map (fun (br, i) =>
             if i = 0 ∧ br.dk = 0 ∧ x.op = opCopy then { br with dst := br.dst + b.word.signExtend 64 } else br) }

/-- Commands of a context that have not completed. -/
def outstanding (s : State) (c : CtxId) : Nat := (s.sh.cmds.filter (fun x => x.ctx == c && x.doneAt.isNone)).length

/-- Commands that a field's shuttle holds. -/
def fieldCmds (s : State) (f : Nat) : Nat := (s.sh.cmds.filter (fun x => x.field == f && x.doneAt.isNone)).length

def enterCmd (s : State) (x : Cmd) : State := { s with sh := { s.sh with cmds := s.sh.cmds ++ [x], ticket := s.sh.ticket + 1 } }

/-- The issue of a command; with `ofs`, slots a and b are offsets. -/
def issueCmd (op variant : Nat) (k : Fin 256) (od : Order) (ofs : Bool) (s : State) (e : Env) (o : Operands) : Act :=
  let x := cmdOf s e op variant k.val od
  if 32 ≤ outstanding s e.c || 512 ≤ fieldCmds s x.field then .wait s
  else
    let held (s1 : State) (ticket : Nat) : Act := .hold s1 (pendOf o 0 (BitVec.ofNat 64 ticket) 1)
    logged s e { kind := op, block := e.ctx.draft.block, idx := e.i, addr := BitVec.ofNat 64 e.i, args := [tokArg o.a, tokArg o.b], ret := [] }
      (fun s1 ret => match ret with
        | [t] => held s1 t.toNat
        | _ => .emit s1 [])
      (fun s1 enter =>
        let bad := ofs && (o.a.psn || (op == opCopy && o.b.psn))
        let x1 := if ofs then addOffsets x o.a o.b else x
        let x2 := if bad then (x1.mark stRefused).mark stPoison else if cmdOk s1 x1 then x1 else x1.mark stRefused
        held (enter (enterCmd (addCount s1 e.c cntPoison (b2n bad)) x2) [BitVec.ofNat 64 x2.ticket]) x2.ticket)

/-- The oldest held firing, once its command has completed: tokens leave in firing order (R77, R168). -/
def oldestDone (s : State) (l : List Pend) : Option (Pend × Cmd) :=
  match l with
  | [] => none
  | p :: _ => (s.sh.cmds.find? (fun x => x.ticket == p.val.toNat && x.doneAt.isSome)).map (fun x => (p, x))

/-- A completed command's tokens leave (R303, stage 6). -/
def emitDone (s : State) (e : Env) (t : Tgt) (p : Pend) (x : Cmd) : State :=
  sendFrom (updUnit s e.c e.i (fun u => { u with pend := u.pend.erase p })) e (seqAll (tgt1 t) x.toks)

/-- A shuttle instruction's step: tokens of a completed command, else a new firing, which a frozen window does not begin (R420); a
marker waits for them all (R321). -/
def shuttleStep (t : Tgt) (f : Firing) (s : State) (e : Env) : State :=
  match oldestDone s e.u.pend with
  | some (p, x) => emitDone s e t p x
  | none => if frozen s e.c then s else fireNew s e f

def shuttleFiring (sl : List Slot) (t : Tgt) (body : State → Env → Operands → Act) : Firing :=
  { slots := sl, joins := sl, tgts := tgt1 t, cmd := true, body := body, onMark := passMark (tgt1 t), resume := noResume }

def runShuttle (s : State) (sl : List Slot) (t : Tgt) (body : State → Env → Operands → Act) : Host.Outcome State Fault Refusal :=
  runSeaLike s (shuttleStep t (shuttleFiring sl t body))
where
  runSeaLike (s : State) (f : State → Env → State) : Host.Outcome State Fault Refusal :=
    match focusEnv s with
    | none => .fault .noUnit
    | some e =>
      .next (if e.u.blk then s
        else if mustPump e.win e.i e.u then (if frozen s e.c then s else updWin s e.c (fun w => pumpOut w e.i))
        else f s e)

/-- COPY (R312). -/
def execCopy (t : Tgt) (k : Fin 256) (od : Order) (ofs : Bool) (s : State) : Host.Outcome State Fault Refusal :=
  runShuttle s (if ofs then slotsAB else slotsA) t (issueCmd opCopy (b2n ofs) k od ofs)

/-- GATH (R313). -/
def execGath (t : Tgt) (k : Fin 256) (od : Order) (s : State) : Host.Outcome State Fault Refusal :=
  runShuttle s slotsA t (issueCmd opGath 0 k od false)

def scatVariant : ScatOp → Nat
  | .write => 0
  | .fadd => 1
  | .add => 2

/-- SCAT (R314). -/
def execScat (t : Tgt) (k : Fin 256) (od : Order) (op : ScatOp) (s : State) : Host.Outcome State Fault Refusal :=
  runShuttle s slotsA t (issueCmd opScat (scatVariant op) k od false)

/-- MCAST (R315). -/
def execMcast (t : Tgt) (k : Fin 256) (od : Order) (ofs : Bool) (s : State) : Host.Outcome State Fault Refusal :=
  runShuttle s slotsA t (issueCmd opMcast (b2n ofs) k od ofs)

/-- XCONV (R316). -/
def execXconv (t : Tgt) (k : Fin 256) (od : Order) (planes : Bool) (s : State) : Host.Outcome State Fault Refusal :=
  runShuttle s slotsA t (issueCmd opXconv (b2n planes) k od false)

/-- RELAY (R317). -/
def execRelay (t : Tgt) (k : Fin 256) (od : Order) (s : State) : Host.Outcome State Fault Refusal :=
  runShuttle s slotsA t (issueCmd opRelay 0 k od false)

/-! ### FREE and XSTAT (R310, R318) -/

def addCredit (s : State) (c : CtxId) (tag n : Nat) : State :=
  updCtx s c (fun x =>
    let v := BitVec.ofNat 16 (min 65535 ((mapGet 0 x.credits tag).toNat + n))
    { x with credits := mapSet 0 x.credits tag v })

/-- FREE. -/
def execFree (t : Tgt) (n : Fin 64) (tag : Fin 16) (s : State) : Host.Outcome State Fault Refusal :=
  runUnit s (fun _ => triggered t (fun s e o =>
    let done (s1 : State) : Act := .emit s1 (toAll (tgt1 t) o.a)
    logged s e { kind := 0xA6, block := e.ctx.draft.block, idx := e.i, addr := BitVec.ofNat 64 e.i, args := [tokArg o.a], ret := [] }
      (fun s1 _ => done s1) (fun s1 enter => done (enter (addCredit s1 e.c tag.val (n.val + 1)) []))))

/-- XSTAT. -/
def execXstat (t : Tgt) (v : Fin 3) (s : State) : Host.Outcome State Fault Refusal :=
  runUnit s (fun _ => triggered t (fun s e o =>
    if o.a.psn then poisonAct s e.c (tgt1 t)
    else
      match v.val with
      | 0 => status t s (mapGet 0 e.ctx.credits (o.a.word.toNat % 16)).toNat
      | 1 => status t s (outstanding s e.c)
      | _ => status t s e.ctx.errCmds.toNat))

/-! ### Commands in the shuttle -/

def getCmd (s : State) (ticket : Nat) : Option Cmd := s.sh.cmds.find? (fun x => x.ticket == ticket)

/-- A command's new state; what it keeps under `.acq` is the shuttle's own, which writes of the step may have added to. -/
def putCmd (s : State) (x : Cmd) : State :=
  { s with sh := { s.sh with cmds := s.sh.cmds.map (fun y => if y.ticket = x.ticket then { x with kept := y.kept } else y) } }

/-- SHUTTLE_COMMAND_START: a `.rel` command starts once its phase has committed, and while no boundary is in progress (R61, R227,
R303). -/
def execShuttleCommandStart (ticket : Nat) (s : State) : Host.Outcome State Fault Refusal :=
  match getCmd s ticket with
  | none => .next s
  | some x =>
    let ready := match x.waitPhase, getCtx s x.ctx with
      | some n, some c => c.boundary.isNone && decide (n < relMark c x.order.scope)
      | _, _ => true
    .next (if ready then putCmd s { x with started := true } else s)

/-- A context that is placed: a node on an executor, or firmware. -/
def isPlaced (s : State) (c : CtxId) : Bool :=
  match c with
  | .node id =>
    match getNode s id with
    | some n => n.exec.isSome && n.st == .placed
    | none => false
  | .fw _ _ => true

/-- The context whose bobbins a branch fills. -/
def branchCtx (x : Cmd) (b : Branch) : CtxId := if b.dk = 2 then .node b.node else x.ctx

/-! ### Permits (R307, R308, R311) -/

/-- What a branch answers for the tile in hand. -/
inductive Space4Tile where
  | wait
  | dead
  | taken (b : Branch) (s : State)

/-- The space of bobbin branch `n` for tile `i`, taken. -/
def takeBob (s : State) (x : Cmd) (n i : Nat) (b : Branch) : Space4Tile :=
  let c := branchCtx x b
  match getCtx s c with
  | none => .dead
  | some y =>
    if !isPlaced s c || sourcesClosed s c then .wait
    else
      match getBob y.mem b.bob with
      | none => .dead
      | some z =>
        if slotBlocks z < x.tileOut i then .dead
        else
          match takeFill y.mem b.bob z with
          | none => .wait
          | some (sl, m1) =>
            let m2 := match getBob m1 b.bob with
              | some z1 => putBob m1 b.bob { z1 with tickets := (sl, x.ticket, n, i) :: z1.tickets }
              | none => m1
            .taken { b with got := true, slot := some sl } (updMem s c (fun _ => m2))

def takeSpace (s : State) (x : Cmd) (n i : Nat) (b : Branch) : Space4Tile :=
  if b.off || b.got || b.next != i then .taken b s
  else if b.dk ≠ 0 then takeBob s x n i b
  else if !b.credit then .taken { b with got := true } s
  else
    match getCtx s x.ctx with
    | none => .taken { b with got := true } s
    | some y =>
      let v := mapGet 0 y.credits b.tag
      if v = 0 then .wait
      else .taken { b with got := true } (updCtx s x.ctx (fun y => { y with credits := mapSet 0 y.credits b.tag (v - 1) }))

/-- Every branch's space at once; `none` while one waits. The flag tells that a branch died. -/
def takeAll (s : State) (x : Cmd) (i : Nat) : Nat → List Branch → Option (State × List Branch × Bool)
  | _, [] => some (s, [], false)
  | n, b :: bs =>
    match takeSpace s x n i b with
    | .wait => none
    | .dead => (takeAll s x i (n + 1) bs).map (fun r => (r.1, { b with off := true } :: r.2.1, true))
    | .taken b1 s1 => (takeAll s1 x i (n + 1) bs).map (fun r => (r.1, b1 :: r.2.1, r.2.2))

/-- What the source answers for tile `i`. -/
inductive SrcSpace where
  | wait
  | gone
  | taken (slot : Option Nat) (s : State)

def takeSource (s : State) (x : Cmd) (i : Nat) : SrcSpace :=
  if !x.srcBob || x.slot.isSome || x.srcTile != i then .taken x.slot s
  else if !isPlaced s x.ctx then .wait
  else
    match getCtx s x.ctx with
    | none => .gone
    | some y =>
      match getBob y.mem x.src.toNat with
      | none => .gone
      | some z =>
        match takeDrain y.mem x.src.toNat z with
        | none => .wait
        | some (sl, m1) => .taken (some sl) (updMem s x.ctx (fun _ => m1))

/-- The joint permit of tile `i`. -/
def takePermit (s : State) (x : Cmd) (i : Nat) : State :=
  match takeSource s x i with
  | .wait => s
  | .gone => putCmd s (x.mark stRefused)
  | .taken sl s1 =>
    match takeAll s1 x i 0 x.branches with
    | none => s
    | some (s2, bs, died) =>
      let x1 := { x with slot := sl, branches := bs, permit := true, row := 0 }
      putCmd s2 (if died then x1.mark stSlot else x1)

/-! ### Moving (R304, R312 to R317, R319, R326) -/

/-- What a command under `.acq` keeps of a line (R61). -/
def keptLine (s : State) (x : Cmd) (k : Nat) : Option Line := (getCmd s x.ticket).bind (fun y => mapFind y.kept k)

/-- A global block as the shuttle reads it: under `.acq` as it was when the command started (R319). -/
def readBlk (s : State) (x : Cmd) (va : Dword) : Line × Byte × State :=
  match resolve s x.ctx va false with
  | (.fail _, s1) => (substLine, stSrcXl, s1)
  | (p, s1) =>
    match keptLine s1 x (placeKey p) with
    | some l => (l, 0, s1)
    | none =>
      let (l, s2) := unitLine s1 (ctxNode x.ctx) p
      (l, 0, s2)

/-- Block `j` of row `r` of tile `i`, with the status it sets. A bobbin's tile that has left its slot for good has no
stated value (log 19). -/
def readSrc (s : State) (x : Cmd) (i r j : Nat) (base : Dword) : Line × Byte × State :=
  if !x.srcBob then readBlk s x (base + BitVec.ofNat 64 (64 * j))
  else
    match (if x.srcTile = i then x.slot else none), getCtx s x.ctx with
    | some sl, some y =>
      match getBob y.mem x.src.toNat with
      | some z =>
        let n := (r - i * x.tr) * x.rb + j
        if slotBlocks z ≤ n then (Line.zero, stSlot, s)
        else
          let (l, s1) := slotRead s x.ctx y.mem z sl n
          (l, 0, s1)
      | none => (Line.zero, stSlot, s)
    | _, _ =>
      let (n, s1) := takeFree s
      ({ Line.zero with data := Config.freeLine n }, 0, s1)

/-- A poisoned source block goes on as SUBST; it counts (R326). So does a block of a tile that a second mismatch has poisoned,
which was counted then (R436). -/
def soundBlk (s : State) (x : Cmd) (l : Line) : Line × Byte × State :=
  if x.bad then (substLine, stPoison, s)
  else if l.psn then (substLine, stPoison, addCount s x.ctx cntPoison 1)
  else (l, 0, s)

/-- A block written at a global address; at `.sys` also to its backing store. -/
def writeBlk (s : State) (x : Cmd) (va : Dword) (l : Line) : Byte × State :=
  match resolve s x.ctx va true with
  | (.at tgt a _, s1) =>
    let k := lineKey tgt a
    (0, unitWrite s1 (ctxNode x.ctx) k (fun t =>
      let s2 := nodeWrite t x.ctx k (BitVec.allOnes 64) l.data (some l.desc)
      if x.order.scope = .sys then writeBack s2 k else s2))
  | (_, s1) => (stDstXl, s1)

/-- A block written on one branch: at `va`, or block `n` of its slot. -/
def writeBranch (s : State) (x : Cmd) (b : Branch) (va : Dword) (n : Nat) (l : Line) : Byte × State :=
  if b.dk = 0 then writeBlk s x va l
  else
    match b.slot with
    | none => (0, s)
    | some sl => (0, match (getCtx s (branchCtx x b)).bind (fun y => getBob y.mem b.bob) with
      | some z => slotFill s (branchCtx x b) z sl n l
      | none => s)

/-- A block written on every branch that tile `i` goes to; `va` gives the address from a branch's base. -/
def writeAll (s : State) (x : Cmd) (i : Nat) (va : Dword → Dword) (n : Nat) (l : Line) : List Branch → Byte × State
  | [] => (0, s)
  | b :: bs =>
    let (st, s1) := if b.off || b.next != i then (0, s) else writeBranch s x b (va b.dst) n l
    let (st', s2) := writeAll s1 x i va n l bs
    (st ||| st', s2)

/-- A block of the index list, read once (R313): the line, unless it has no translation; the command that has read it. -/
def indexBlock (s : State) (x : Cmd) (blk : Dword) : Option Line × Cmd × State :=
  match x.index.find? (fun p => p.1 == blk) with
  | some (_, l) => (l, x, s)
  | none =>
    let (l, st, s1) := readBlk s x blk
    let v := if st = 0 then some l else none
    (v, { x with index := (blk, v) :: x.index }, s1)

/-- An entry of the index list: its value, or none; the status it sets; the command with the list's block read. -/
def readIndex (s : State) (x : Cmd) (r : Nat) : Option Nat × Byte × Cmd × State :=
  let a := wordsVa x.x10 x.x11 + BitVec.ofNat 64 (4 * r)
  match indexBlock s x (BitVec.ofNat 64 (a.toNat / 64 * 64)) with
  | (none, x1, s1) => (none, stIndex, x1, s1)
  | (some l, x1, s1) =>
    if l.psn then (none, stIndex ||| stPoison, x1, s1)
    else
      let v := lineNat l.data (a.toNat % 64) 4
      if x.x12.toNat ≤ v then (none, stIndex, x1, s1) else (some v, 0, x1, s1)

/-- The 16 words of a block combined with the old ones (R314). -/
def addWords (fadd : Bool) (old new : Bits512) : Bits512 :=
  BitVec.ofNat 512 (packElems 32 ((List.range 16).map (fun i =>
    let a : Word := BitVec.ofNat 32 (elemBits old.toNat 32 i)
    let b : Word := BitVec.ofNat 32 (elemBits new.toNat 32 i)
    (if fadd then fAdd .rne a b else a + b).toNat)))

/-- SCAT's add of a source block into a destination block, as one atomic. A read half that is uncorrectable counts (R59, R366). -/
def addBlk (s : State) (x : Cmd) (va : Dword) (l : Line) : Byte × State :=
  let fmt := l.desc.toNat % 256
  if x.bad then (stPoison, s)
  else if l.psn then (stPoison, addCount s x.ctx cntPoison 1)
  else if fmt = 0x7E then (stFormat, addCount s x.ctx cntSubst 1)
  else if fmt ≠ 0 ∧ fmt ≠ (if x.variant = 1 then 0x01 else 0x06) then (stFormat, addCount s x.ctx cntFmt 1)
  else
    match resolve s x.ctx va true with
    | (.at tgt a _, s1) =>
      let k := lineKey tgt a
      let (old, s2) := unitRead s1 (ctxNode x.ctx) k
      if old.psn then (stPoison, addCount (poisonedHalf s1 s2 k) x.ctx cntPoison 1)
      else
        let s3 := nodeWrite s2 x.ctx k (BitVec.allOnes 64) (addWords (x.variant == 1) old.data l.data) (some old.desc)
        (0, if x.order.scope = .sys then writeBack s3 k else s3)
    | (_, s1) => (stDstXl, s1)

/-- Row strides. -/
def rowVa (base str : Dword) (r : Nat) : Dword := base + str * BitVec.ofNat 64 r

/-- COPY, MCAST and GATH: one block of row `r` read and written on every branch. -/
def moveCopy (s : State) (x : Cmd) (i r j : Nat) (src : Option Dword) : Cmd × State :=
  let n := (r - i * x.tr) * x.rb + j
  let (l, st, s1) := match src with
    | some base => readSrc s x i r j base
    | none => (substLine, 0, s)
  let (l1, st1, s2) := soundBlk s1 x l
  let (st2, s3) := writeAll s2 x i (fun base => rowVa base x.dstr r + BitVec.ofNat 64 (64 * j)) n l1 x.branches
  (x.mark (st ||| st1 ||| st2), s3)

/-- Block `j` of row `r` has not been moved before a reset of the source. -/
def Cmd.fresh (x : Cmd) (r j : Nat) : Bool := decide (x.hi ≤ r * x.rb + j)

/-- Block `j` of row `r` moved. -/
def Cmd.moveTo (x : Cmd) (r j : Nat) : Cmd := { x with hi := max x.hi (r * x.rb + j + 1) }

/-- GATH: the row that the index names; an index without one gives a SUBST row, counted once. -/
def moveGath (s : State) (x : Cmd) (i r j : Nat) : Cmd × State :=
  let (v, st, x1, s1) := readIndex s x r
  let s2 := addCount s1 x.ctx cntSubst (if v.isNone && j == 0 && x.fresh r j then 1 else 0)
  moveCopy s2 ((x1.mark st).moveTo r j) i r j (v.map (fun n => rowVa x.src x.sstr n))

/-- SCAT: the row written at, or added to, the one that the index names; a block that was moved before a reset is not moved again
(R323). -/
def moveScat (s : State) (x : Cmd) (i r j : Nat) : Cmd × State :=
  if !x.fresh r j then (x, s) else
  let (v, st, x1, s1) := readIndex s x r
  let x2 := (x1.mark st).moveTo r j
  match v, x.branches with
  | some n, b :: _ =>
    let va := rowVa b.dst x.dstr n + BitVec.ofNat 64 (64 * j)
    let (l, st1, s2) := readSrc s1 x i r j (rowVa x.src x.sstr r)
    if x.variant = 0 then
      let (l1, st2, s3) := soundBlk s2 x l
      let (st3, s4) := writeBlk s3 x va l1
      (x2.mark (st1 ||| st2 ||| st3), s4)
    else
      let (st2, s3) := addBlk s2 x va l
      (x2.mark (st1 ||| st2), s3)
  | _, _ => (x2, addCount s1 x.ctx cntSubst (if j = 0 then 1 else 0))

/-! ### XCONV (R116, R316) -/

/-- The super-scale of source block `n`: none where its blocks read as SUBST. -/
def xconvSuper (s : State) (x : Cmd) (n : Nat) : Option Num × Byte × State :=
  let base := wordsVa x.x11 x.x12
  if base = 0 then (none, 0, s)
  else
    let a := base + BitVec.ofNat 64 (4 * (n / 2))
    match readBlk s x (BitVec.ofNat 64 (a.toNat / 64 * 64)) with
    | (l, st, s1) =>
      if st ≠ 0 then (none, st, s1)
      else if l.psn then (none, stPoison, s1)
      else
        let g := fmtFp32.decode (lineNat l.data (a.toNat % 64) 4)
        (if g.isFinite then some g else none, 0, s1)

/-- The elements of a source block, each with its poison, its events and status. -/
def xconvBlock (s : State) (x : Cmd) (i r j : Nat) : List (Num × Bool) × Ev × Byte × State :=
  let f := xconvFmt x.x10
  let n := f.nfmt.count
  let (l, st, s1) := readSrc s x i r j (rowVa x.src x.sstr r)
  let zeros (p : Bool) : List (Num × Bool) := List.replicate n (.zero, p)
  if x.bad then (zeros true, {}, st ||| stPoison, s1)
  else if l.psn then (zeros true, {}, st ||| stPoison, addCount s1 x.ctx cntPoison 1)
  else
    match sourceFormat l.desc false (some f.nfmt) (convAccepts true) with
    | (.as q scale, ev) =>
      if q.count ≠ n then (zeros false, { fmt := 1 }, st ||| stFormat, s1)
      else if q = .q4n then
        match xconvSuper s1 x (r * x.rb + j) with
        | (some g, st1, s2) => ((blockElems (.as q scale) g n l.data).map (·, false), ev, st ||| st1, s2)
        | (none, st1, s2) => (zeros false, { subst := 1 }, st ||| st1 ||| stFormat, s2)
      else ((blockElems (.as q scale) .zero n l.data).map (·, false), ev, st, s1)
    | (_, ev) => (zeros false, ev, st ||| stFormat, s1)

/-- The elements of the blocks `j`, `j + 1`, … of row `r`. -/
def xconvRow (s : State) (x : Cmd) (i r : Nat) : Nat → Nat → List (Num × Bool) × Ev × Byte × State
  | 0, _ => ([], {}, 0, s)
  | k + 1, j =>
    let (l, ev, st, s1) := xconvBlock s x i r j
    let (l', ev', st', s2) := xconvRow s1 x i r k (j + 1)
    (l ++ l', ev.add ev', st ||| st', s2)

/-- Lines written one after another from block `n` of the tile on. -/
def writeLines (s : State) (x : Cmd) (i : Nat) (va : Dword → Nat → Dword) : Nat → Nat → List Line → Byte × State
  | _, _, [] => (0, s)
  | n, g, l :: ls =>
    let (st, s1) := writeAll s x i (fun base => va base g) n l x.branches
    let (st', s2) := writeLines s1 x i va (n + 1) (g + 1) ls
    (st ||| st', s2)

/-- Converted elements in blocks; a block with a poisoned element is SUBST. -/
def packLines (f : Fmt) (desc : Desc) (l : List (Nat × Bool)) : List Line :=
  (chunks l.length f.count l).map (fun c =>
    if c.any (·.2) then substLine
    else { data := BitVec.ofNat 512 (packElems f.width (c.map (·.1))), desc := desc, psn := false })

/-- One row converted (VARIANT 00). -/
def moveXconv (s : State) (x : Cmd) (i r : Nat) : Cmd × State :=
  let f := xconvFmt x.x10
  let (l, ev, st, s1) := xconvRow s x i r x.rb 0
  let res := l.map (fun v => (encodeElem f.ofmt f.rnd (satDefault f.ofmt f.sat f.nsat) f.scale .zero v.1, v.2))
  let lines := packLines f.ofmt (BitVec.ofNat 16 (f.ofmt.code + 256 * f.scale)) (res.map (fun v => (v.1.1, v.2)))
  let (st1, s2) := writeLines s1 x i (fun base g => rowVa base x.dstr r + BitVec.ofNat 64 (64 * g))
    ((r - i * x.tr) * x.rowOut) 0 lines
  let x1 := (x.mark (st ||| st1)).moveTo r (x.rb - 1)
  (if x.fresh r 0 then { x1 with ev := (x.ev.add ev).add (Ev.sum (res.map (fun v => v.1.2))) } else x1, s2)

/-- A weight times 2^-E, rounded. -/
def quantWeight (e : Int) (x : Num) : Int :=
  match x with
  | .fin s n d q => signed s (roundNat .rne s n d (q - e))
  | _ => 0

/-- Every finite weight fits P planes at exponent `e`. -/
def weightsFit (p : Nat) (e : Int) (l : List Num) : Bool :=
  l.all (fun x => decide (intLo p false ≤ quantWeight e x) && decide (quantWeight e x ≤ intHi p false))

/-- The exponent of a tile (R116): 127 where no integer in the range makes every weight fit (assumption log 72). -/
def tileExp (p : Nat) (l : List Num) : Int :=
  if l.all (fun x => x.isNan || x.isZero) then 0
  else ((List.range 256).find? (fun (k : Nat) => weightsFit p ((k : Int) - 128) l)).map (fun (k : Nat) => (k : Int) - 128) |>.getD 127

/-- One weight in P bits, with its event. -/
def planeWeight (p : Nat) (e : Int) (x : Num) : Int × Ev :=
  match x with
  | .nan => (0, { nan := 1 })
  | .inf s => (if s then intLo p false else intHi p false, { sat := 1 })
  | .fin .. =>
    let q := quantWeight e x
    let c := clampInt q (intLo p false) (intHi p false)
    (c, if c ≠ q then { sat := 1 } else if q = 0 ∧ !x.isZero then { flush := 1 } else {})

/-- The PLANES blocks of a tile of 256 weights, row k of column n at 16 k + n. -/
def tileLines (p : Nat) (l : List (Num × Bool)) : List Line × Ev :=
  let e := tileExp p (l.map (·.1))
  let r := l.map (fun x => planeWeight p e x.1)
  let plane (b : Nat) : Nat := if p ≤ b then 0 else
    (r.zipIdx.map (fun (x, k) => if wrapInt p x.1 / 2 ^ b % 2 = 1 then 2 ^ k else 0)).sum
  let bad := l.any (·.2)
  ((List.range ((p + 1) / 2)).map (fun j =>
    if bad then substLine
    else { data := BitVec.ofNat 512 (plane (2 * j) + plane (2 * j + 1) * 2 ^ 256), desc := BitVec.ofNat 16 (0x0E + 256 * wrapInt 8 e),
           psn := false }), Ev.sum (r.map (·.2)))

/-- The rows of a band. -/
def bandRows (s : State) (x : Cmd) (i : Nat) : Nat → Nat → List (List (Num × Bool)) × Ev × Byte × State
  | 0, _ => ([], {}, 0, s)
  | k + 1, r =>
    let (l, ev, st, s1) := xconvRow s x i r x.rb 0
    let (ls, ev', st', s2) := bandRows s1 x i k (r + 1)
    (l :: ls, ev.add ev', st ||| st', s2)

/-- A band of 16 rows formed into tiles (VARIANT 01). -/
def movePlanes (s : State) (x : Cmd) (i : Nat) : Cmd × State :=
  let f := xconvFmt x.x10
  let (rows, ev, st, s1) := bandRows s x i (x.tileRows i) (i * x.tr)
  let tiles := (List.range (x.rb * f.nfmt.count / 16)).map (fun lx =>
    tileLines f.planes (rows.flatMap (fun row => (row.drop (16 * lx)).take 16)))
  let lines := tiles.flatMap (·.1)
  let (st1, s2) := writeLines s1 x i (fun base g => base + BitVec.ofNat 64 (64 * (i * x.bandOut + g))) 0 0 lines
  let x1 := (x.mark (st ||| st1)).moveTo (i * x.tr + x.tileRows i - 1) (x.rb - 1)
  (if x.fresh (i * x.tr) 0 then { x1 with ev := (x.ev.add ev).add (Ev.sum (tiles.map (·.2))) } else x1, s2)

/-! ### RELAY's sending side (R317, R469) -/

def relayPort (x : Cmd) : Fin 8 := Fin.ofNat 8 (wbits x.x10 2 0)

def getPeer (s : State) (p : Nat) : PeerPort := nth PeerPort.init s.pr p

def updPeer (s : State) (p : Nat) (f : PeerPort → PeerPort) : State := { s with pr := modNth f s.pr p }

def toPeer (s : State) (o : PeerOut) : State := { s with run := { s.run with toPeer := s.run.toPeer ++ [o] } }

/-- A flit sent: it takes one credit, or waits behind the port's others for one. -/
def sendFlit (s : State) (p : Fin 8) (o : PeerOut) : State :=
  if (getPeer s p.val).credits = 0 then updPeer s p.val (fun q => { q with outq := q.outq ++ [o] })
  else toPeer (updPeer s p.val (fun q => { q with credits := q.credits - 1 })) o

/-- The destination address of the first branch. -/
def headDst (x : Cmd) : Dword :=
  match x.branches with
  | b :: _ => b.dst
  | [] => 0

def relayHeader (x : Cmd) : HeaderFlit :=
  { ticket := BitVec.ofNat 64 x.ticket, nrow := x.nrow, rb := x.rb, pcnt := wordsVa x.x11 x.x12, padd := BitVec.ofNat 8 (wbits x.x12 31 24),
    va := (headDst x).setWidth 55, fport := Fin.ofNat 8 (wbits x.x10 10 8), hops := Fin.ofNat 8 (wbits x.x10 6 4) }

/-- One block of a RELAY sent; a port that is down sets PEER. A block that was sent before a reset is not sent again (R323). -/
def moveRelay (s : State) (x : Cmd) (i r j : Nat) : Option (Cmd × State) :=
  let p := relayPort x
  if !x.fresh r j then some (x, s)
  else if !(getPeer s p.val).up then some (x.mark stPeer, s)
  else if (getPeer s p.val).credits = 0 then none
  else
    let (l, st, s1) := readSrc s x i r j (rowVa x.src x.sstr r)
    let (l1, st1, s2) := soundBlk s1 x l
    let dst := headDst x
    some ({ (x.mark (st ||| st1)).moveTo r j with sentUs := s.run.time },
      sendFlit s2 p (.data p { data := l1.data, desc := l1.desc, poison := false,
                               va := (rowVa dst x.dstr r + BitVec.ofNat 64 (64 * j)).setWidth 55,
                               fport := Fin.ofNat 8 (wbits x.x10 10 8), hops := Fin.ofNat 8 (wbits x.x10 6 4) }))

/-! ### SHUTTLE_TILE_PERMIT -/

/-- Tile `i` has moved: its slots become ready, the source's empties, every branch goes on to the next. -/
def endTile (s : State) (x : Cmd) (i : Nat) : State :=
  let s1 := x.branches.foldl (fun s b =>
    match b.slot with
    | some sl => if b.off || b.next != i then s else updMem s (branchCtx x b) (fun m => endFill m b.bob sl)
    | none => s) s
  let s2 := match x.slot with
    | some sl => if x.srcTile = i then updMem s1 x.ctx (fun m => endDrain m x.src.toNat sl) else s1
    | none => s1
  let mine := x.srcBob && x.srcTile == i
  putCmd s2 { x with permit := false, row := 0, bad := false, srcTile := if mine then i + 1 else x.srcTile, slot := if mine then none else x.slot,
                     branches := x.branches.map (fun b =>
                       if b.off || b.next != i then b else { b with next := i + 1, got := false, slot := none }) }

/-- One move of the tile in hand; none while a RELAY has no flit credit. -/
def moveOne (s : State) (x : Cmd) (i : Nat) : Option (Cmd × State) :=
  let r := i * x.tr + x.row / x.rb
  let j := x.row % x.rb
  if x.isPlanes then some (movePlanes s x i)
  else if x.op = opXconv then some (moveXconv s x i (i * x.tr + x.row))
  else if x.op = opGath then some (moveGath s x i r j)
  else if x.op = opScat then some (moveScat s x i r j)
  else if x.op = opRelay then moveRelay s x i r j
  else some (moveCopy s x i r j (some (rowVa x.src x.sstr r)))

/-- A port carries one transfer's blocks at a time, as they name no transfer (assumption log 20). -/
def relayBusy (s : State) (x : Cmd) : Bool :=
  s.sh.cmds.any (fun y => y.op == opRelay && y.ticket != x.ticket && y.opened && !y.moved && relayPort y == relayPort x)

/-- A RELAY's header leaves before its first block (R469). -/
def openRelay (s : State) (x : Cmd) : State :=
  let p := relayPort x
  if !(getPeer s p.val).up then putCmd s (x.mark stPeer)
  else if relayBusy s x then s
  else if (getPeer s p.val).credits = 0 then s
  else putCmd (sendFlit s p (.header p (relayHeader x))) { x with opened := true, sentUs := s.run.time }

/-- The tickets of a field's commands that hold a permit. -/
def permitHolders (s : State) (f : Nat) : List Nat :=
  (s.sh.cmds.filter (fun x => x.field == f && x.permit && x.doneAt.isNone && !x.moved)).map (·.ticket)

/-- The command whose tile a field's shuttle serves (R302): the one in service as long as it holds its permit, else the next
holder in ascending tickets, round the ring. -/
def served (s : State) (f : Nat) : Option Nat :=
  let l := permitHolders s f
  let least (l : List Nat) : Option Nat := l.foldl (fun acc t => match acc with
    | none => some t
    | some u => some (min t u)) none
  match s.sh.turn.find? (fun p => p.1 == f) with
  | some (_, t, on) => if on && l.elem t then some t else (least (l.filter (fun u => decide (t < u)))).orElse (fun _ => least l)
  | none => least l

/-- A field's shuttle takes a tile into service, or has ended it. -/
def setTurn (s : State) (f t : Nat) (on : Bool) : State :=
  { s with sh := { s.sh with turn := (f, t, on) :: s.sh.turn.filter (fun p => p.1 != f) } }

/-- A command's next move: its permit, or a block, row or band under the permit it holds, while its tile is served. -/
def advanceCmd (s : State) (x : Cmd) : State :=
  let i := x.current
  if x.op = opRelay ∧ !x.opened then openRelay s x
  else if !x.permit then takePermit s x i
  else if served s x.field ≠ some x.ticket then s
  else
    match moveOne s x i with
    | none => s
    | some (x1, s1) =>
      if x.moves i ≤ x.row + 1 then setTurn (endTile s1 x1 i) x.field x.ticket false
      else setTurn (putCmd s1 { x1 with row := x1.row + 1 }) x.field x.ticket true

/-- SHUTTLE_TILE_PERMIT. -/
def execShuttleTilePermit (ticket : Nat) (s : State) : Host.Outcome State Fault Refusal :=
  match getCmd s ticket with
  | none => .next s
  | some x => .next (if x.started && x.doneAt.isNone && !x.moved then advanceCmd s x else s)

/-! ### SHUTTLE_COMPLETE (R303, stages 4 to 6) -/

/-- The record of a counter that has no translation (R237). -/
def counterRecord (x : Cmd) (cause : Nat) : TrapRec :=
  { kind := 0x01, field := x.field, src := 4, x := 0, y := 0, node := ctxNode x.ctx,
    payload := [(0x10, 8, x.cnt.toNat), (0x28, 1, cause), (0x29, 1, 9), (0x2A, 1, x.block % 256), (0x2B, 1, x.idx)],
    poster := .cmd x.ticket }

/-- ADD added to a 64-bit counter at a line; nothing where its read half is uncorrectable (R59). -/
def counterAdd (s : State) (c : CtxId) (k a n : Nat) (sys : Bool) : State :=
  let (l, s1) := unitRead s (ctxNode c) k
  if l.psn then addCount (poisonedHalf s s1 k) c cntPoison 1
  else
    let v := (lineNat l.data (a % 64) 8 + n) % 2 ^ 64
    let s2 := nodeWrite s1 c k (byteMask (a % 64) 8) (putNat 0 (a % 64) 8 v) none
    if sys then writeBack s2 k else s2

/-- Stage 5: true once the command may go on. -/
def countCmd (s : State) (x : Cmd) : Bool × State :=
  if x.counted || x.cnt == 0 then (true, s)
  else if posterWaits s (.cmd x.ticket) then (false, s)
  else
    match resolve s x.ctx x.cnt true with
    | (.at tgt a _, s1) =>
      (true, counterAdd s1 x.ctx (lineKey tgt a) a x.add (x.order.scope == .sys))
    | (.fail cause, s1) =>
      (false, postRec s1 (counterRecord x cause))
    | (_, s1) => (true, addCount s1 x.ctx cntPoison 1)

/-- Stage 6: the command's tokens stand ready. -/
def finishCmd (s : State) (x : Cmd) : State :=
  let toks := (if x.op = opXconv then countToks x.ev else []) ++ [scalarTok (x.status.zeroExtend 32) false]
  let s1 := addCount (updCtx s x.ctx (fun y => { y with errCmds := y.errCmds + boolWord (x.status != 0) })) x.ctx cntShuttle
    (b2n (x.status != 0))
  let s2 := putCmd s1 { x with counted := true, doneAt := some s.sh.done, toks := toks }
  { s2 with sh := { s2.sh with done := s2.sh.done + 1 } }

/-- Stage 4 has been reached: every tile moved, and a RELAY acknowledged. -/
def cmdReady (x : Cmd) : Bool :=
  x.started && x.doneAt.isNone && x.moved && (x.op != opRelay || x.acked || x.has stPeer || x.has stRefused)

/-- SHUTTLE_COMPLETE. -/
def execShuttleComplete (ticket : Nat) (s : State) : Host.Outcome State Fault Refusal :=
  match getCmd s ticket with
  | none => .next s
  | some x =>
    if !cmdReady x then .next s
    else
      match countCmd s x with
      | (true, s1) => .next (finishCmd s1 x)
      | (false, s1) => .next s1

/-- Completed commands whose tokens nothing still waits for. -/
def cmdWanted (s : State) (x : Cmd) : Bool :=
  let refs (l : List LogEntry) : Bool := l.any (fun k => k.kind / 16 == 0xA && k.ret == [BitVec.ofNat 64 x.ticket])
  let pends (w : Window) : Bool := w.units.any (fun u => u.pend.any (fun p => p.val.toNat == x.ticket))
  x.doneAt.isNone || (match getCtx s x.ctx with
    | some y => refs y.log || refs y.replay || ((y.ckpt.bind (·.win)).map pends).getD false
    | none => false) || ((getWin s x.ctx).map pends).getD false

def purgeCmds (s : State) : State := { s with sh := { s.sh with cmds := s.sh.cmds.filter (cmdWanted s) } }

end Sys2Proof.Machine
end

