-- ==== Sys2Proof/Machine/Links.lean ====
section
/-! DEFINITION. The outside: the hosts' apertures and links (R462 to R468), the peer ports and what they carry (R469 to
R471). -/

namespace Sys2Proof.Machine

def getHp (s : State) (port : Fin 2) : HostPort := if port = 0 then s.hp0 else s.hp1

def updHp (s : State) (port : Fin 2) (f : HostPort → HostPort) : State :=
  if port = 0 then { s with hp0 := f s.hp0 } else { s with hp1 := f s.hp1 }

def toHost (s : State) (o : HostOut) : State := { s with run := { s.run with toHost := s.run.toHost ++ [o] } }

/-! ### The aperture (R462, R464, R466) -/

/-- The device address behind an aperture offset; none at or beyond 48 GiB, or in a frame-table frame. -/
def apertureAddr (s : State) (port : Fin 2) (off : Nat) : Option Nat :=
  let pa := (getHp s port).apBase.toNat * 2 ^ 36 + off
  if off < 48 * 2 ^ 30 ∧ paExists pa then some pa else none

/-- One block's part of a host write: byte `i` of the block at `pa` on; at `.sys`. A whole block takes its frame's
DEFDESC. -/
def hostPut (s : State) (pa i : Nat) (bs : List Byte) : State :=
  let k := lineKey 0 pa
  let n := bs.length
  let desc := if n = 64 then some (getFrame s (keyFrame k)).defdesc else none
  unitWrite s noUnitNode k (fun t => writeBack (writeLine t k (byteMask i n) (putNat 0 i n (leNat bs)) desc) k)

/-- A host write, block by block. -/
def hostPutAll (port : Fin 2) : Nat → Nat → List Byte → State → State
  | 0, _, _, s => s
  | _, _, [], s => s
  | k + 1, off, bs, s =>
    let i := off % 64
    let here := bs.take (64 - i)
    let s1 := match apertureAddr s port off with
      | some pa => hostPut s pa i here
      | none => s
    hostPutAll port k (off + here.length) (bs.drop here.length) s1

/-- HOST_WRITE. -/
def execHostWrite (port : Fin 2) (off : BitVec 36) (data : List Byte) (s : State) : Host.Outcome State Fault Refusal :=
  hostSets (hostPutAll port data.length off.toNat data) s

/-- Bytes `i` to `i + n − 1` of a block as a host reads them; a poisoned block's are free. -/
def hostGet (s : State) (pa i n : Nat) : List Byte × State :=
  let (l, s1) := unitRead s noUnitNode (lineKey 0 pa)
  if l.psn then
    let (f, s2) := takeFree s1
    (((lineBytes (Config.freeLine f)).drop i).take n, s2)
  else (((lineBytes l.data).drop i).take n, s1)

def hostGetAll (port : Fin 2) : Nat → Nat → Nat → State → List Byte × State
  | 0, _, _, s => ([], s)
  | k + 1, off, n, s =>
    if n = 0 then ([], s)
    else
      let i := off % 64
      let m := min n (64 - i)
      let (l, s1) := match apertureAddr s port off with
        | some pa => hostGet s pa i m
        | none => (List.replicate m 0, s)
      let (rest, s2) := hostGetAll port k (off + m) (n - m) s1
      (l ++ rest, s2)

/-- HOST_READ. -/
def execHostRead (port : Fin 2) (off : BitVec 36) (len : Nat) (s : State) : Host.Outcome State Fault Refusal :=
  let (l, s1) := hostGetAll port len off.toNat len s
  .next (toHost s1 (.readReply port l))

/-- DESCRIPTOR_VIEW_WRITE (R467): a 2-byte aligned write; the block's bytes and poison stay. -/
def execDescriptorViewWrite (port : Fin 2) (off : BitVec 31) (width : Nat) (v : Desc) (s : State) : Host.Outcome State Fault Refusal :=
  if !ready s || width != 2 || off.toNat % 2 != 0 then .next s
  else
    match apertureAddr s port (off.toNat / 2 * 64) with
    | none => .next s
    | some pa =>
      let k := lineKey 0 pa
      .next (unitWrite s noUnitNode k (fun t =>
        let (l, s1) := readLine t k
        writeBack (pokeLine s1 k { l with desc := v }) k))

/-- A read of BAR 4 (R467): the descriptor of an aperture block; zero for another width, and beyond the aperture. The opcode table
has no row for it: it is the reply that a read of the state would get. -/
def descriptorViewRead (port : Fin 2) (off : BitVec 31) (width : Nat) (s : State) : Nat × State :=
  if width != 2 || off.toNat % 2 != 0 then (0, s)
  else
    match apertureAddr s port (off.toNat / 2 * 64) with
    | none => (0, s)
    | some pa =>
      let (l, s1) := unitRead s noUnitNode (lineKey 0 pa)
      (l.desc.toNat, s1)

/-! ### Host links (R462, R464, R468) -/

/-- A core's doorbell rung. -/
def ringCore (v : Word) (s : State) : State := updCore s (wbits v 3 0) (fun k => { k with evt := k.evt ||| 4 })

/-- HP_DBELL_WRITE. -/
def execHpDbellWrite (_port : Fin 2) (v : Word) (s : State) : Host.Outcome State Fault Refusal :=
  hostSets (ringCore v) s

/-- HOST_REQUEST_TIMEOUT: it counts, and the next request on the port is the one that fails. -/
def execHostRequestTimeout (port : Fin 2) (s : State) : Host.Outcome State Fault Refusal :=
  .next (updHp s port (fun h => { h with err := h.err + 1, failing := h.failing + 1 }))

/-- HOST_LINK_CHANGE. -/
def execHostLinkChange (port : Fin 2) (up : Bool) (rate : BitVec 4) (width : BitVec 5) (s : State) : Host.Outcome State Fault Refusal :=
  .next (updHp s port (fun h => { h with linkUp := up, rate := rate, width := width }))

/-! ### Peer ports (R469 to R471) -/

/-- A port goes down: what waits to leave through it is lost, its RELAYs that wait for more complete with PEER, and no transfer
through it is acknowledged. -/
def portDown (s : State) (p : Nat) (training : Bool) : State :=
  let s1 := updPeer s p (fun q => { q with up := false, training := training, outq := [] })
  let cut (x : Cmd) : Cmd := if x.op = opRelay ∧ x.started ∧ x.doneAt.isNone ∧ !x.acked ∧ (relayPort x).val = p then x.mark stPeer else x
  let lost (r : Relay) : Relay := if r.hops ≠ 0 ∧ r.fport = p ∧ !r.nextAck then { r with refused := true } else r
  { s1 with sh := { s1.sh with cmds := s1.sh.cmds.map cut, relays := (s1.sh.relays.filter (fun r => r.port != p)).map lost } }

/-- PEER_PORT_DOWN. -/
def execPeerPortDown (p : Fin 8) (s : State) : Host.Outcome State Fault Refusal := .next (portDown s p.val false)

/-- PR_RETRAIN: the port goes down and trains, unless EN is 0. -/
def retrainPort (s : State) (p : Nat) : State := portDown s p (getPeer s p).en

def execPrRetrain (p : Fin 8) (s : State) : Host.Outcome State Fault Refusal := hostSets (fun s => retrainPort s p.val) s

/-- PEER_PORT_UP: training ends, with all 512 credits granted. -/
def execPeerPortUp (p : Fin 8) (s : State) : Host.Outcome State Fault Refusal :=
  .next (updPeer s p.val (fun q => if q.training && q.en then { q with up := true, training := false, credits := 512 } else q))

/-- PR_CTL's write: EN, then RETRAIN. -/
def prCtlSet (p : Nat) (v : Word) (s : State) : State :=
  let en := wbit v 0
  let was := (getPeer s p).en
  let s1 := updPeer s p (fun q => { q with en := en })
  let s2 := if !en then portDown s1 p false else if !was then portDown s1 p true else s1
  if wbit v 1 then retrainPort s2 p else s2

/-- PEER_FLIT_CRC_FAIL: the flit is replayed by the link. -/
def execPeerFlitCrcFail (p : Fin 8) (s : State) : Host.Outcome State Fault Refusal :=
  .next (updPeer s p.val (fun q => { q with replays := q.replays + 1 }))

/-- PEER_CREDIT_FLIT: the credit goes to the flit that has waited longest for one. -/
def execPeerCreditFlit (p : Fin 8) (s : State) : Host.Outcome State Fault Refusal :=
  .next (match (getPeer s p.val).outq with
    | [] => updPeer s p.val (fun q => { q with credits := min 512 (q.credits + 1) })
    | o :: l => toPeer (updPeer s p.val (fun q => { q with outq := l })) o)

/-- A received transfer's counter add: false where its VA has no writable translation. -/
def relayCount (s : State) (r : Relay) : Bool × State :=
  if r.pcnt = 0 then (true, s)
  else
    match translate s r.pcnt true with
    | (.at tgt a _, s1) =>
      let k := lineKey tgt a
      let (l, s2) := unitRead s1 noUnitNode k
      if l.psn then (true, poisonedHalf s1 s2 k)
      else
        let v := (lineNat l.data (a % 64) 8 + r.padd.toNat) % 2 ^ 64
        (true, writeBack (writeLine s2 k (byteMask (a % 64) 8) (putNat 0 (a % 64) 8 v) none) k)
    | (_, s1) => (false, s1)

def relayWhole (r : Relay) : Bool := decide (r.nrow * r.rb ≤ r.got)

/-- A transfer acknowledged to the previous device once its rows stand, its counter is added and the next device has
acknowledged; then it is forgotten. -/
def ackRelay (s : State) (r : Relay) : State :=
  if relayWhole r ∧ !r.refused ∧ (r.hops = 0 ∨ r.nextAck) then
    sendFlit { s with sh := { s.sh with relays := s.sh.relays.erase r } } (Fin.ofNat 8 r.port) (.ack (Fin.ofNat 8 r.port) r.ticket)
  else s

/-- The first relay that meets a test, replaced; the relay and the state. -/
def changeRelay (test : Relay → Bool) (f : Relay → Relay) : List Relay → Option Relay × List Relay
  | [] => (none, [])
  | r :: l =>
    if test r then (some (f r), f r :: l)
    else
      let (x, l1) := changeRelay test f l
      (x, r :: l1)

def putRelays (s : State) (l : List Relay) : State := { s with sh := { s.sh with relays := l } }

/-- A flit forwarded through a port that is up, in the order of arrival; false where the port is down. -/
def forward (s : State) (hops fport : Fin 8) (o : Fin 8 → Fin 8 → PeerOut) : Bool × State :=
  if hops = 0 then (true, s)
  else if (getPeer s fport.val).up then (true, sendFlit s fport (o fport (Fin.ofNat 8 (hops.val - 1))))
  else (false, s)

/-- A received block written at `.sys`; false where its VA has no writable translation. -/
def relayWrite (s : State) (f : Flit) : Bool × State :=
  match translate s (f.va.signExtend 64) true with
  | (.at tgt a _, s1) =>
    let k := lineKey tgt a
    let l := if f.poison then substLine else { data := f.data, desc := f.desc, psn := false }
    (true, unitWrite s1 noUnitNode k (fun t => writeBack (writeLine t k (BitVec.allOnes 64) l.data (some l.desc)) k))
  | (_, s1) => (false, s1)

/-- PEER_DATA_FLIT (R470). A device that refuses a block, or has refused one of the transfer, passes no row on (R317). It belongs to the port's oldest transfer that lacks blocks, of its path (assumption log 20). -/
def execPeerDataFlit (p : Fin 8) (f : Flit) (s : State) : Host.Outcome State Fault Refusal :=
  if !(getPeer s p.val).up then .next s
  else
    let mine (r : Relay) : Bool := r.port == p.val && r.hops == f.hops.val && (f.hops == 0 || r.fport == f.fport.val) && !relayWhole r
    let (written, s1) := relayWrite (toPeer s (.credit p)) f
    let stop : Bool := !written || (s.sh.relays.find? mine).any (·.refused)
    let (sent, s2) := if stop then (true, s1) else forward s1 f.hops f.fport (fun q h => .data q { f with hops := h })
    match changeRelay mine (fun r => { r with got := r.got + 1, refused := r.refused || !sent || !written }) s2.sh.relays with
    | (none, _) => .next s2
    | (some r, l) =>
      let s3 := putRelays s2 l
      if relayWhole r ∧ !r.refused then
        match relayCount s3 r with
        | (true, s4) => .next (ackRelay s4 r)
        | (false, s4) => .next (putRelays s4 (changeRelay (· == r) (fun r => { r with refused := true }) s4.sh.relays).2)
      else .next s3

/-- PEER_HEADER_FLIT: a transfer opens. -/
def execPeerHeaderFlit (p : Fin 8) (h : HeaderFlit) (s : State) : Host.Outcome State Fault Refusal :=
  if !(getPeer s p.val).up then .next s
  else
    let (sent, s1) := forward (toPeer s (.credit p)) h.hops h.fport (fun q n => .header q { h with hops := n })
    let r : Relay := { port := p.val, fport := h.fport.val, hops := h.hops.val, nextAck := false, refused := !sent,
                       ticket := h.ticket, nrow := h.nrow, rb := h.rb, pcnt := h.pcnt, padd := h.padd, va := h.va, got := 0 }
    .next (putRelays s1 (s1.sh.relays ++ [r]))

/-- This device's RELAY that an acknowledgement completes. -/
def ackedCmd (s : State) (p : Fin 8) (ticket : Dword) : Option Cmd :=
  s.sh.cmds.find? (fun x => x.op == opRelay && x.opened && !x.acked && x.doneAt.isNone && relayPort x == p && BitVec.ofNat 64 x.ticket == ticket)

/-- PEER_ACK_FLIT: it completes a RELAY of this device, or goes back along the chain. -/
def execPeerAckFlit (p : Fin 8) (ticket : Dword) (s : State) : Host.Outcome State Fault Refusal :=
  if !(getPeer s p.val).up then .next s
  else
    let s1 := toPeer s (.credit p)
    match ackedCmd s p ticket with
    | some x => .next (putCmd s1 { x with acked := true })
    | none =>
      match changeRelay (fun r => r.hops != 0 && r.fport == p.val && r.ticket == ticket && !r.nextAck) (fun r => { r with nextAck := true })
          s.sh.relays with
      | (some r, l) => .next (ackRelay (putRelays s1 l) r)
      | (none, _) => .next s1

/-- A RELAY without its acknowledgement for 10 ms since its last flit left (R470; assumption log 20). -/
def ackOverdue (s : State) (x : Cmd) : Bool := decide (10000 ≤ s.run.time - x.sentUs)

/-- RELAY_ACK_TIMEOUT. -/
def execRelayAckTimeout (ticket : Nat) (s : State) : Host.Outcome State Fault Refusal :=
  match getCmd s ticket with
  | some x => .next (if x.op = opRelay ∧ x.opened ∧ !x.acked ∧ x.doneAt.isNone ∧ ackOverdue s x then putCmd s (x.mark stPeer) else s)
  | none => .next s

/-! ### Flits as bytes (R469) -/

/-- The 80 bytes of a flit: 64 of payload, the descriptor, the tag, KIND, the destination VA, FPORT and HOPS, and the CRC-32 of
all that. -/
def flitBytes (payload : List Byte) (desc : Desc) (tag : Byte) (kind va fport hops : Nat) : List Byte :=
  let body := payload.take 64 ++ List.replicate (64 - payload.length) 0 ++ leBytes 2 desc.toNat ++ [tag] ++ leBytes 1 kind ++ leBytes 7 va
    ++ leBytes 1 (fport * 8 + hops)
  body ++ leBytes 4 (crc32 body).toNat

/-- A flit as its port puts it out. The widths of a header's fields, and that an acknowledgement carries its ticket where a header
does, are the model's choice (assumption log 20). -/
def outBytes (o : PeerOut) : List Byte :=
  match o with
  | .data _ f => flitBytes (lineBytes f.data) f.desc (if f.poison then 0x10 else 0) 0 f.va.toNat f.fport.val f.hops.val
  | .ack _ ticket => flitBytes (leBytes 8 ticket.toNat) 0 0 1 0 0 0
  | .credit _ => flitBytes [] 0 0 2 0 0 0
  | .header _ h => flitBytes (leBytes 8 h.ticket.toNat ++ leBytes 4 h.nrow ++ leBytes 4 h.rb ++ leBytes 8 h.pcnt.toNat ++ leBytes 1 h.padd.toNat)
      0 0 3 h.va.toNat h.fport.val h.hops.val

/-- A flit's CRC is right: one whose CRC fails is replayed by its link (PEER_FLIT_CRC_FAIL). -/
def flitSound (bs : List Byte) : Bool := bs.length == 80 && bs.drop 76 == leBytes 4 (crc32 (bs.take 76)).toNat

end Sys2Proof.Machine
end

