-- ==== Sys2Proof/Machine/Pages.lean ====
section
/-! DEFINITION. The translation block (R201 to R203): its registers, unmapping, migration, shootdown and host pins. -/

namespace Sys2Proof.Machine

def updXl (s : State) (f : Xlate → Xlate) : State := { s with xl := f s.xl }

/-- XL_ROOT's write: while EN is 1 only one that clears EN is taken. -/
def xlRootSet (v : Dword) (s : State) : State :=
  if s.xl.en && v.getLsbD 0 then s
  else updXl s (fun x => { x with root := (v >>> 16).setWidth 23, en := v.getLsbD 0 })

/-- XL_ROOT_WRITE. -/
def execXlRootWrite (v : Dword) (s : State) : Host.Outcome State Fault Refusal := hostSets (xlRootSet v) s

/-- XL_FTDESC's write. -/
def xlFtdescSet (v : Word) (s : State) : State :=
  let f := s.xl.ftsel.toNat
  if frameExists f then setFrame s f { getFrame s f with defdesc := v.setWidth 16 } else s

/-- XL_FTDESC_WRITE. -/
def execXlFtdescWrite (v : Word) (s : State) : Host.Outcome State Fault Refusal := hostSets (xlFtdescSet v) s

/-- XL_FTDATA: bytes 0x00 to 0x07 of the selected entry. -/
def xlFtdata (s : State) : Dword :=
  let n := s.xl.ftsel.toNat
  if frameExists n then
    let f := getFrame s n
    BitVec.ofNat 64 (f.defdesc.toNat + (f.pins.toNat + f.state.toNat * 2 ^ 12 + b2n f.ms * 2 ^ 14) * 2 ^ 16 + f.ce.toNat * 2 ^ 32)
  else 0

/-- The operation that a GO starts. -/
def xlJob (op : Nat) (n : BitVec 16) : Instr :=
  match op with
  | 1 => .xlUnmap n
  | 2 => .xlMigrate n
  | 3 => .xlInvalidate n
  | 4 => .xlHostPin n
  | _ => .xlHostUnpin n

/-- XL_OPCTL's write. A refused GO changes nothing else; the fields of a write without GO are those of the next operation
(R8): one in progress keeps its own. -/
def xlCtlSet (v : Word) (s : State) : State :=
  let op := wbits v 2 0
  let npg : BitVec 16 := BitVec.ofNat 16 (wbits v 23 8)
  let fields (x : Xlate) : Xlate := { x with op := BitVec.ofNat 3 op, npg := npg }
  if !wbit v 31 then updXl s fields
  else if s.xl.busy || op = 0 || 6 ≤ op || (op = 2 && npg != 0) then updXl s (fun x => { x with rej := true })
  else queueJob (updXl s (fun x => { fields x with
      busy := true, job := { op := op, npg := npg.toNat, page := x.opva.toNat, target := x.opfn.toNat } })) (.event (xlJob op npg))

/-! ### Leaves -/

/-- What the walk of a page finds: no valid entry, a malformed one, or a leaf with its place, entry and page size. -/
inductive Leaf where
  | invalid
  | malformed
  | leaf (pa entry size : Nat)
  deriving DecidableEq, Repr

/-- The walk of R196, which keeps the place of the leaf. -/
def findLeaf (page : Nat) : Nat → Nat → Nat → State → Leaf × State
  | 0, _, _, s => (.malformed, s)
  | k + 1, level, fn, s =>
    let va := page * 65536
    let idx := if level = 1 then bits va 54 42 else if level = 2 then bits va 41 29 else bits va 28 16
    let pa := fn * 65536 + idx * 8
    match readEntry s pa with
    | (none, s1) => (.malformed, s1)
    | (some e, s1) =>
      if !bit e 0 then (.invalid, s1)
      else if entryReserved e || !fnExists e then (.malformed, s1)
      else if bit e 1 then
        if level = 1 ∨ (level = 2 ∧ (entryFn e % 2 ^ 13 ≠ 0 ∨ !fnExists (pageEntry va e 29))) then (.malformed, s1)
        else (.leaf pa e (if level = 2 then 29 else 16), s1)
      else if level = 3 || entryTgt e != 0 then (.malformed, s1)
      else findLeaf page k (level + 1) (entryFn e) s1

def leafAt (s : State) (page : Nat) : Leaf × State := findLeaf page 3 1 s.xl.root.toNat s

/-- The frame that a page's leaf names; none for a host's. -/
def leafFrame (page e size : Nat) : Option Nat :=
  if entryTgt e = 0 then some (entryFn (pageEntry (page * 65536) e size)) else none

/-- An operation in progress on `n` + 1 pages runs: RESULT and FAILPG written, BUSY cleared. With EN 0 those that walk
the tables give 6. -/
def xlRun (op : Nat) (n : BitVec 16) (act : State → Nat → Nat → State × Nat × Nat) (s : State) : Host.Outcome State Fault Refusal :=
  if s.xl.busy ∧ s.xl.job.op = op ∧ s.xl.job.npg = n.toNat then
    let (s1, r, f) := if op ≠ 3 ∧ !s.xl.en then (s, 6, 0) else act s s.xl.job.page (n.toNat + 1)
    .next (updXl s1 (fun x => { x with busy := false, result := BitVec.ofNat 4 r, failpg := BitVec.ofNat 16 f }))
  else .next s

/-- Page `j` of a range, within 2^55 bytes. -/
def pageAt (first j : Nat) : Nat := (first + j) % 2 ^ 39

/-! ### Unmap (R202) -/

/-- The STATE of frames set. -/
def setFrames (v : BitVec 2) (s : State) (l : List Nat) : State :=
  l.foldl (fun t f => setFrame t f { getFrame t f with state := v }) s

/-- The leaves of a range of `total` pages from page `first` on, checked, each frame becoming unmapping as it is taken: the
leaves to clear and the frames taken, the result and the page index of the first failure. -/
def unmapScan (first total : Nat) : Nat → Nat → List Nat × List Nat → State → (List Nat × List Nat × Nat × Nat) × State
  | 0, _, (ls, fs), s => ((ls, fs, 0, 0), s)
  | k + 1, j, (ls, fs), s =>
    let page := pageAt first j
    match leafAt s page with
    | (.invalid, s1) => unmapScan first total k (j + 1) (ls, fs) s1
    | (.malformed, s1) => ((ls, fs, 5, j), s1)
    | (.leaf pa e size, s1) =>
      let base := page / 2 ^ 13 * 2 ^ 13
      if size = 29 ∧ !(first ≤ base ∧ base + 2 ^ 13 ≤ first + total) then ((ls, fs, 4, j), s1)
      else
        match leafFrame page e size with
        | none => unmapScan first total k (j + 1) (setInsert ls pa, fs) s1
        | some f =>
          if (getFrame s1 f).state == 0 && (getFrame s1 f).pins == 0 then
            unmapScan first total k (j + 1) (setInsert ls pa, f :: fs) (setFrames 1 s1 [f])
          else ((ls, fs, 1, j), s1)

/-- V of a leaf cleared by an atomic write. -/
def clearLeaf (s : State) (pa : Nat) : State :=
  match readEntry s pa with
  | (some e, s1) => unitWrite s1 noUnitNode (lineKey 0 pa) (fun t => writeLine t (lineKey 0 pa) (byteMask (pa % 64) 8) (putNat 0 (pa % 64) 8 (e / 2 * 2)) none)
  | (none, s1) => s1

/-- XL_UNMAP. -/
def execXlUnmap (npg : BitVec 16) (s : State) : Host.Outcome State Fault Refusal :=
  xlRun 1 npg (fun s first n =>
    match unmapScan first n n 0 ([], []) s with
    | ((ls, fs, 0, _), s1) => (setFrames 0 (dropTlb (ls.foldl clearLeaf s1) first n) fs, 0, 0)
    | ((_, fs, r, f), s1) => (setFrames 0 s1 fs, r, f)) s

/-! ### Migration -/

/-- A frame's blocks copied to another, with their descriptors; a poisoned block is written as SUBST (R113). The source's
home-way lines are written back and invalidated; a memory-side frame's blocks are its unit's. -/
def copyFrame (s : State) (src dst : Nat) : State :=
  let s0 := dropBuffer (drainBuffer (dropWays (writeBackRange s 0 (src * 65536) 65536) true (src * 1024) 1024) src) dst
  (List.range 1024).foldl (fun s j =>
    let (l, s0) := hbmRead (noteHbm s 2) (lineKey 0 (src * 65536 + 64 * j))
    let s1 := drainBlock s0 (lineKey 0 (src * 65536 + 64 * j))
    let k := lineKey 0 (dst * 65536 + 64 * j)
    let s2 := { clearSoft s1 k with mem := { (clearSoft s1 k).mem with dirty := mapErase s1.mem.dirty k } }
    setBacking s2 k ((backing s2 k).writeLine (keyBlock k) (if l.psn then substLine else l))) (dropWays s0 true (dst * 1024) 1024)

/-- A key of a frame's line, once the frame has moved. -/
def movedKey (src dst k : Nat) : Nat :=
  if keyTgt k = 0 ∧ keyFrame k = src then lineKey 0 (dst * 65536 + 64 * (keyBlock k % 1024)) else k

/-- Those who watch a frame's lines watch them where they have moved: waiting WAITGEs, and what commands under `.acq` keep. -/
def moveWatch (s : State) (src dst : Nat) : State :=
  let kept (l : List (Nat × Line)) : List (Nat × Line) := l.foldl (fun m p => keepOnce (movedKey src dst p.1) p.2 m) l
  { s with mem := { s.mem with waits := s.mem.waits.map (fun w => { w with key := movedKey src dst w.key }) }
           sh := { s.sh with cmds := s.sh.cmds.map (fun x => { x with kept := kept x.kept }) } }

/-- Migration of one page, or its first failing check. -/
def migrateDo (s : State) (page : Nat) : State × Nat :=
  match leafAt s page with
  | (.invalid, s1) => (s1, 2)
  | (.malformed, s1) => (s1, 5)
  | (.leaf pa e size, s1) =>
    if size = 29 then (s1, 4)
    else
      match leafFrame page e size with
      | none => (s1, 2)
      | some f =>
        let src := getFrame s1 f
        let g := s1.xl.job.target
        let dst := getFrame s1 g
        if src.state ≠ 0 ∨ src.pins ≠ 0 then (s1, 1)
        else if !frameExists g || g == f || dst.state != 0 || dst.pins != 0 || dst.ms != src.ms then (s1, 3)
        else
          let s2 := moveWatch (copyFrame s1 f g) f g
          let s3 := unitWrite s2 noUnitNode (lineKey 0 pa) (fun t => writeLine t (lineKey 0 pa) (byteMask (pa % 64) 8) (putNat 0 (pa % 64) 8 (e % 65536 + g * 65536)) none)
          (dropTlb s3 page 1, 0)

/-- XL_MIGRATE. -/
def execXlMigrate (npg : BitVec 16) (s : State) : Host.Outcome State Fault Refusal :=
  xlRun 2 npg (fun s first _ =>
    let (s1, r) := migrateDo s first
    (s1, r, 0)) s

/-- XL_INVALIDATE. -/
def execXlInvalidate (npg : BitVec 16) (s : State) : Host.Outcome State Fault Refusal :=
  xlRun 3 npg (fun s first n => (dropTlb s first n, 0, 0)) s

/-! ### Host pins -/

/-- Every page's frame changed by `act`, which may refuse; the result and the page index of the first failure, the frames changed
before it put back by `undo`. -/
def pinScan (act : State → Nat → Option State) (undo : State → Nat → State) (first : Nat) : Nat → Nat → List Nat → State → State × Nat × Nat
  | 0, _, _, s => (s, 0, 0)
  | k + 1, j, done, s =>
    let page := pageAt first j
    let back (s1 : State) (r : Nat) : State × Nat × Nat := (done.foldl undo s1, r, j)
    match leafAt s page with
    | (.leaf _ e size, s1) =>
      match leafFrame page e size with
      | none => back s1 2
      | some f => match act s1 f with
        | some s2 => pinScan act undo first k (j + 1) (f :: done) s2
        | none => back s1 1
    | (_, s1) => back s1 2

/-- All or nothing: on failure the frames that it has changed are as they were. -/
def pinRange (act : State → Nat → Option State) (undo : State → Nat → State) (s : State) (first n : Nat) : State × Nat × Nat :=
  pinScan act undo first n 0 [] s

def hostPin (s : State) (f : Nat) : Option State :=
  let x := getFrame s f
  if x.state ≠ 0 ∨ x.pins = 4095 then none else some (pinFrame s f)

def hostUnpin (s : State) (f : Nat) : Option State := if (getFrame s f).pins = 0 then none else some (unpinFrame s f)

/-- XL_HOST_PIN. -/
def execXlHostPin (npg : BitVec 16) (s : State) : Host.Outcome State Fault Refusal := xlRun 4 npg (pinRange hostPin unpinFrame) s

/-- XL_HOST_UNPIN. -/
def execXlHostUnpin (npg : BitVec 16) (s : State) : Host.Outcome State Fault Refusal := xlRun 5 npg (pinRange hostUnpin pinFrame) s

/-- XL_OPSTAT's W1C bit. -/
def xlStatClear (v : Word) (s : State) : State := updXl s (fun x => { x with rej := x.rej && !wbit v 30 })

end Sys2Proof.Machine
end

