-- ==== Sys2Proof/Machine/Power.lean ====
section
/-! DEFINITION. The dispatcher's configuration and the power buckets (R391 to R393, R403). -/

namespace Sys2Proof.Machine

def updDsp (s : State) (f : Dispatcher → Dispatcher) : State := { s with dsp := f s.dsp }

/-- DSP_CFG's write: AGETICK 0 is refused, with the whole write. -/
def dspCfgSet (v : Word) (s : State) : State :=
  updDsp s (fun d => if wbits v 23 16 = 0 then { d with cfgErr := true }
    else { d with ageTick := BitVec.ofNat 8 (wbits v 23 16), autoPre := wbit v 0 })

/-- DSP_CFG_WRITE. -/
def execDspCfgWrite (v : Word) (s : State) : Host.Outcome State Fault Refusal := hostSets (dspCfgSet v) s

def budgetSum (p : Power) : Nat := (p.fbud.map (·.toNat)).sum + p.mbud.toNat

/-- The registers after a write of a budget or of the depth. -/
def budgetWritten (r : PwrReg) (v : Word) (p : Power) : Power :=
  match r with
  | .field f => { p with fbud := modNth (fun _ => v.setWidth 16) p.fbud f.val }
  | .module => { p with mbud := v.setWidth 16 }
  | .depth => { p with depth := v.setWidth 16 }

/-- A write of a budget or of the depth: refused when the depth is 0 or the budgets pass 2,330 W. -/
def pwrSet (r : PwrReg) (v : Word) (s : State) : State :=
  let p := budgetWritten r v s.pwr
  if p.depth = 0 ∨ 2330 < budgetSum p then updDsp s (fun d => { d with cfgErr := true }) else { s with pwr := p }

/-- PWR_BUDGET_WRITE. -/
def execPwrBudgetWrite (r : PwrReg) (v : Word) (s : State) : Host.Outcome State Fault Refusal := hostSets (pwrSet r v) s

/-! ### Buckets (R392) -/

/-- PWR_DEPTH in units of the levels. -/
def depthLevel (s : State) : Nat := s.pwr.depth.toNat * 1000000 * pwrUnit

def fieldThrottled (s : State) (f : Nat) : Bool := decide (depthLevel s < nth 0 s.pwr.flevel f)

def moduleThrottled (s : State) : Bool := decide (depthLevel s < s.pwr.mlevel)

/-- Energy in pJ put into a field's bucket. -/
def addEnergy (s : State) (f pj : Nat) : State :=
  { s with pwr := { s.pwr with flevel := modNth (· + pj * pwrUnit) s.pwr.flevel f } }

/-- A cycle of a field's clock: a throttled one is counted for the field and its placed nodes, and the bucket drains. -/
def fieldTick (s : State) (f : Nat) : State :=
  let drain := (nth 0 s.pwr.fbud f).toNat * 1000000 * pwrUnit / binClock (fieldBin s f)
  let s1 := if fieldThrottled s f then
      updDsp { s with pwr := { s.pwr with fthr := modNth (· + 1) s.pwr.fthr f } } (fun d =>
        { d with nodes := d.nodes.map (fun n =>
          if n.exec.isSome && (ctxFields s (.node n.id)).elem f then { n with throttled := n.throttled + 1 } else n) })
    else s
  { s1 with pwr := { s1.pwr with flevel := modNth (· - drain) s1.pwr.flevel f } }

/-- A nanosecond of the module's bucket: it drains, and takes the energy of the blocks that have moved to and from HBM since the
last one. -/
def moduleTick (s : State) : State :=
  let p := s.pwr
  let mthr := if moduleThrottled s then p.mthr + 1 else p.mthr
  { s with pwr := { p with mthr := mthr, moved := 0
                           mlevel := p.mlevel - p.mbud.toNat * 1000 * pwrUnit + p.moved * 1280 * pwrUnit } }

/-- POWER_BUCKET_TICK. -/
def execPowerBucketTick (b : Bucket) (s : State) : Host.Outcome State Fault Refusal :=
  .next (match b with
    | .field f => fieldTick s f.val
    | .module => moduleTick s)

end Sys2Proof.Machine
end

