-- ==== Sys2Proof/Machine/Regs.lean ====
section
/-! DEFINITION. The registers: each word by its CSR number (R416), as hosts (R44, R463) and control cores (R417, R418) read
and write them. -/

namespace Sys2Proof.Machine

/-! ### The health unit's registers (R454) -/

/-- HL_CFG's write; clearing TEST disarms every injection. -/
def hlCfgSet (v : Word) (s : State) : State :=
  updHl s (fun h => { h with autoByp := wbit v 2, autoBin := wbit v 1, test := wbit v 0, inj := if wbit v 0 then h.inj else [] })

/-- HL_CFG_WRITE. -/
def execHlCfgWrite (v : Word) (s : State) : Host.Outcome State Fault Refusal := hostSets (hlCfgSet v) s

/-- The operation that HL_OPCTL's GO starts. -/
def hlJob (op : Nat) : Instr :=
  match op with
  | 1 => .hlRetireFrame
  | 2 => .hlRetirePch
  | 3 => .hlRetireStack
  | 4 => .hlMarkLayer
  | _ => .hlClearLayer

/-- HL_OPCTL's write. A refused GO changes nothing else; OP of a write without GO is that of the next operation (R8). -/
def hlCtlSet (v : Word) (s : State) : State :=
  let op := wbits v 2 0
  if !wbit v 31 then updHl s (fun h => { h with op := BitVec.ofNat 3 op })
  else if s.hl.busy || op = 0 || 6 ≤ op then updHl s (fun h => { h with rej := true })
  else queueJob (updHl s (fun h => { h with op := BitVec.ofNat 3 op, opRun := BitVec.ofNat 3 op, argRun := h.arg, busy := true })) (.event (hlJob op))

def hlStatusClear (v : Word) (s : State) : State :=
  updHl s (fun h => { h with badSel := h.badSel && !wbit v 3, layer2 := h.layer2 && !wbit v 2
                             retired := h.retired && !wbit v 1, injFired := h.injFired && !wbit v 0 })

/-- HL_FSTATE. -/
def fieldWord (s : State) (f : Nat) : Nat :=
  let x := nth FieldSt.init s.hl.fields f
  x.rows.length * 2 ^ 12 + x.cols.length * 2 ^ 8 + x.bin.toNat * 2 ^ 4 + b2n x.pass * 8 + x.state.toNat

/-- HL_CDATA's read: a selector that names nothing reads 0 and sets BADSEL. -/
def readCdata (s : State) : Word × State :=
  match selectCounter s s.hl.sel s.hl.cnode with
  | some k => (counterValue s k, s)
  | none => (0, badSelector s)

/-- HL_CDATA_READ. -/
def execHlCdataRead (s : State) : Host.Outcome State Fault Refusal := hostSets (fun s => (readCdata s).2) s

/-! ### The dispatcher's operations (R404) -/

def dspJob (op : Nat) : Instr :=
  match op with
  | 1 => .dspPreempt
  | 2 => .dspHold
  | 3 => .dspRelease
  | _ => .dspReopen

/-- DSP_PRECTL's write. A GO takes OP and DSP_PRENODE; OP of a write without GO is that of the next operation (R8). -/
def dspCtlSet (v : Word) (s : State) : State :=
  let op := wbits v 2 0
  if !wbit v 31 then updDsp s (fun d => { d with op := BitVec.ofNat 3 op })
  else if s.dsp.busy || op = 0 || 5 ≤ op then updDsp s (fun d => { d with rej := true })
  else queueJob (updDsp s (fun d => { d with op := BitVec.ofNat 3 op, opRun := BitVec.ofNat 3 op, opNode := d.preNode, busy := true })) (.event (dspJob op))

/-! ### Management (R471) -/

/-- MG_ATTEST's write. -/
def attestSet (v : Word) (s : State) : State :=
  if !wbit v 31 then s
  else if s.mg.atBusy then { s with mg := { s.mg with atResult := 2 } }
  else queueJob { s with mg := { s.mg with atBusy := true } } (.event .mgAttest)

/-- A sensor read: what it measures is free (assumption log 21). -/
def readSensor (s : State) : Word × State :=
  let (f, s1) := takeFree s
  ((Config.freeLine f).setWidth 32, s1)

/-! ### Words by number -/

/-- The low numbers of the 64-bit registers. -/
def isWide (n : Nat) : Bool :=
  [0x005, 0x00D, 0x014, 0x01C, 0x100, 0x106, 0x200, 0x202, 0x20A, 0x300, 0x304, 0x50A, 0x604, 0x606].elem n

/-- A device's 64-bit register by its low number. -/
def readWide (s : State) (n : Nat) : Dword :=
  match n with
  | 0x100 => s.tq.base.zeroExtend 64 <<< 16
  | 0x200 => (s.xl.root.zeroExtend 64 <<< 16) ||| BitVec.ofNat 64 (b2n s.xl.en)
  | 0x202 => s.xl.opva.zeroExtend 64 <<< 16
  | 0x20A => xlFtdata s
  | 0x300 => s.chu.base.zeroExtend 64 <<< 18
  | 0x304 => s.chu.opva.zeroExtend 64 <<< 6
  | 0x50A => s.hl.arg
  | 0x604 => s.mg.atpa
  | 0x606 => s.mg.nonce
  | _ => 0

def writeWide (s : State) (n : Nat) (v : Dword) : State :=
  match n with
  | 0x100 => tqBaseSet v s
  | 0x106 => (tqAckDo v s).2
  | 0x200 => xlRootSet v s
  | 0x202 => updXl s (fun x => { x with opva := (v >>> 16).setWidth 39 })
  | 0x300 => chuBaseSet v s
  | 0x304 => updChu s (fun x => { x with opva := (v >>> 6).setWidth 49 })
  | 0x50A => updHl s (fun h => { h with arg := v })
  | 0x604 => { s with mg := { s.mg with atpa := v } }
  | 0x606 => { s with mg := { s.mg with nonce := v } }
  | _ => s

/-- A register of 32 bits: the trap queue's and the translation block's. -/
def readLow (s : State) (n : Nat) : Nat :=
  let q := s.tq
  let x := s.xl
  match n with
  | 0x102 => b2n q.en * 2 ^ 31 + q.log2n.toNat
  | 0x103 => b2n q.headErr * 16 + b2n q.cfgErr * 8 + b2n q.badAck * 4 + b2n (tqStalled s) * 2 + b2n (q.head != q.tail)
  | 0x104 => q.head.toNat
  | 0x105 => q.tail.toNat
  | 0x108 => q.fatalMore.toNat * 256 + b2n q.fatal
  | 0x109 => q.dropped.toNat
  | 0x204 => x.opfn.toNat
  | 0x205 => x.npg.toNat * 256 + x.op.toNat
  | 0x206 => b2n x.busy * 2 ^ 31 + b2n x.rej * 2 ^ 30 + x.failpg.toNat * 2 ^ 12 + x.result.toNat
  | 0x208 => x.ftsel.toNat
  | _ => 0

/-- The channel unit's, the dispatcher's and the power registers. -/
def readMid (s : State) (n : Nat) : Nat :=
  let u := s.chu
  let d := s.dsp
  match n with
  | 0x302 => b2n u.en * 2 ^ 31 + u.dint.toNat * 2 ^ 16
  | 0x306 => u.op.toNat * 2 ^ 28 + u.chid.toNat
  | 0x307 => b2n u.busy * 2 ^ 31 + b2n u.rej * 2 ^ 30 + u.result.toNat
  | 0x308 => u.grows.toNat
  | 0x309 => u.deadlk.toNat
  | 0x30A => b2n u.cfgErr * 8 + b2n u.failed * 4 + b2n u.loadErr * 2
  | 0x400 => d.ageTick.toNat * 2 ^ 16 + b2n d.autoPre
  | 0x402 => d.preNode.toNat
  | 0x403 => b2n d.busy * 2 ^ 30 + d.result.toNat * 16 + d.op.toNat
  | 0x404 => d.nodes.length
  | 0x405 => (d.nodes.map unusedEntries).sum
  | 0x406 => d.lrefused.toNat
  | 0x407 => d.relDrop.toNat
  | 0x408 => d.preempts.toNat
  | 0x409 => d.saveFail.toNat
  | 0x40A => b2n d.cfgErr * 2 + b2n d.rej
  | 0x414 => s.pwr.mbud.toNat
  | 0x415 => s.pwr.depth.toNat
  | 0x416 => s.pwr.mthr.toNat
  | _ =>
    if 0x410 ≤ n ∧ n < 0x414 then (nth (0 : BitVec 16) s.pwr.fbud (n - 0x410)).toNat
    else if 0x418 ≤ n ∧ n < 0x41C then (nth (0 : Word) s.pwr.fthr (n - 0x418)).toNat
    else 0

/-- The health unit's and the management registers. -/
def readHigh (s : State) (n : Nat) : Nat :=
  let h := s.hl
  match n with
  | 0x500 => b2n h.autoByp * 4 + b2n h.autoBin * 2 + b2n h.test
  | 0x501 => h.seq.toNat
  | 0x502 => b2n h.badSel * 8 + b2n h.layer2 * 4 + b2n h.retired * 2 + b2n h.injFired
  | 0x508 => h.op.toNat
  | 0x509 => b2n h.busy * 2 ^ 31 + b2n h.rej * 2 ^ 30 + h.result.toNat
  | 0x50C => h.ceThr.toNat
  | 0x50D => h.sel.toNat
  | 0x50E => h.cnode.toNat
  | 0x600 => s.mg.slot.toNat * 16 + s.mg.stage.toNat
  | 0x603 => b2n s.mg.atBusy * 2 ^ 30 + s.mg.atResult.toNat
  | _ =>
    if 0x504 ≤ n ∧ n < 0x508 then fieldWord s (n - 0x504)
    else if 0x610 ≤ n ∧ n < 0x618 then b2n (getPeer s (n - 0x610)).en
    else if 0x618 ≤ n ∧ n < 0x620 then
      let p := getPeer s (n - 0x618)
      p.replays.toNat * 2 ^ 16 + b2n p.training * 4 + b2n p.up * 2
    else 0

/-- The device's word of a number from 0x100 on. -/
def readWord (s : State) (n : Nat) : Word × State :=
  if isWide n then ((readWide s n).setWidth 32, s)
  else if 0 < n ∧ isWide (n - 1) then ((readWide s (n - 1) >>> 32).setWidth 32, s)
  else if n = 0x50F then readCdata s
  else if n = 0x601 then
    let (v, s1) := readSensor s
    (v, { s1 with mg := { s1.mg with temp := v } })
  else if n = 0x602 then
    let (v, s1) := readSensor s
    let w : BitVec 16 := v.setWidth 16
    (w.zeroExtend 32, { s1 with mg := { s1.mg with power := w } })
  else (BitVec.ofNat 32 (if n < 0x300 then readLow s n else if n < 0x500 then readMid s n else readHigh s n), s)

/-- A write of a 32-bit register: the trap queue's and the translation block's. -/
def writeLow (n : Nat) (v : Word) (s : State) : State :=
  match n with
  | 0x102 => tqCfgSet v s
  | 0x103 => tqStatusClear v s
  | 0x104 => tqHeadSet v s
  | 0x108 => if wbit v 0 then tqFatalFree s else s
  | 0x204 => updXl s (fun x => { x with opfn := v.setWidth 23 })
  | 0x205 => xlCtlSet v s
  | 0x206 => xlStatClear v s
  | 0x208 => updXl s (fun x => { x with ftsel := v.setWidth 23 })
  | 0x20C => xlFtdescSet v s
  | _ => s

def writeMid (n : Nat) (v : Word) (s : State) : State :=
  match n with
  | 0x302 => chuCfgSet v s
  | 0x306 => chuCtlSet v s
  | 0x307 => chuStatClear v s
  | 0x30A => chuStatusClear v s
  | 0x400 => dspCfgSet v s
  | 0x402 => updDsp s (fun d => { d with preNode := v })
  | 0x403 => dspCtlSet v s
  | 0x40A => updDsp s (fun d => { d with cfgErr := d.cfgErr && !wbit v 1, rej := d.rej && !wbit v 0 })
  | 0x414 => pwrSet .module v s
  | 0x415 => pwrSet .depth v s
  | _ => if 0x410 ≤ n ∧ n < 0x414 then pwrSet (.field (Fin.ofNat 4 (n - 0x410))) v s else s

def writeHigh (n : Nat) (v : Word) (s : State) : State :=
  match n with
  | 0x500 => hlCfgSet v s
  | 0x502 => hlStatusClear v s
  | 0x508 => hlCtlSet v s
  | 0x509 => updHl s (fun h => { h with rej := h.rej && !wbit v 30 })
  | 0x50C => updHl s (fun h => { h with ceThr := v })
  | 0x50D => updHl s (fun h => { h with sel := v })
  | 0x50E => updHl s (fun h => { h with cnode := v })
  | 0x603 => attestSet v s
  | _ => if 0x610 ≤ n ∧ n < 0x618 then prCtlSet (n - 0x610) v s else s

def writeNarrow (n : Nat) (v : Word) (s : State) : State :=
  if n < 0x300 then writeLow n v s else if n < 0x500 then writeMid n v s else writeHigh n v s

def joinWords (lo hi : Word) : Dword := BitVec.ofNat 64 (lo.toNat + hi.toNat * 2 ^ 32)

/-- A host's 32-bit write; half of a 64-bit register keeps the other half's current value (assumption log 22). -/
def writeHalf (n : Nat) (v : Word) (s : State) : State :=
  if isWide n then writeWide s n (joinWords v ((readWide s n >>> 32).setWidth 32))
  else if 0 < n ∧ isWide (n - 1) then writeWide s (n - 1) (joinWords ((readWide s (n - 1)).setWidth 32) v)
  else writeNarrow n v s

/-! ### BAR 0 (R44, R463, R464) -/

/-- The number of the word at a BAR 0 offset, outside the launch window and the port's own registers. -/
def barNumber (off : Nat) : Option Nat :=
  let o := off % 0x1000 / 4
  match off / 0x1000 with
  | 0 => if 0x100 ≤ off ∧ off < 0x140 then some (0x100 + (off - 0x100) / 4) else none
  | 1 => if o < 0x10 then some (0x200 + o) else none
  | 2 => if o < 0x10 then some (0x300 + o) else none
  | 3 => if o < 0x20 then some (0x400 + o) else none
  | 4 => if o < 0x100 then some (0x500 + o) else none
  | 5 => if o < 0x100 then some (0x600 + o) else none
  | _ => none

/-- A 32-bit write of a host port's own register, HP_APBASE's half aside. -/
def portWrite (port : Fin 2) (off : Nat) (v : Word) (s : State) : State :=
  match off with
  | 0x040 => updLw s port (fun w => { w with refusedBit := w.refusedBit && !wbit v 3, acceptedBit := w.acceptedBit && !wbit v 2 })
  | 0x6000 => updHp s port (fun h => { h with fatalEn := wbit v 1, tqEn := wbit v 0 })
  | 0x6004 => ringCore v s
  | 0x600C => updHp s port (fun h => { h with apBase := (v >>> 4).setWidth 3 })
  | _ => s

/-- A 32-bit write at a BAR 0 offset. -/
def barWrite (port : Fin 2) (off : Nat) (v : Word) (s : State) : State :=
  match barNumber off with
  | some n => writeHalf n v s
  | none => portWrite port off v s

/-- A write at a BAR 0 offset of 4 or 8 aligned bytes; another alignment is ignored (assumption log 22). -/
def barSet (port : Fin 2) (off : Nat) (wide : Bool) (v : Dword) (s : State) : State :=
  if off % (if wide then 8 else 4) ≠ 0 then s
  else if off < 0x40 then lwRecSet port off (leBytes (if wide then 8 else 4) v.toNat) s
  else if !wide then barWrite port off (v.setWidth 32) s
  else
    match barNumber off with
    | some n =>
      if isWide n then writeWide s n v
      else barWrite port (off + 4) ((v >>> 32).setWidth 32) (barWrite port off (v.setWidth 32) s)
    | none => barWrite port (off + 4) ((v >>> 32).setWidth 32) (barWrite port off (v.setWidth 32) s)

/-- REGISTER_WRITE: until READY a host's writes are ignored (R472). -/
def execRegisterWrite (port : Fin 2) (off : BitVec 15) (wide : Bool) (v : Dword) (s : State) : Host.Outcome State Fault Refusal :=
  hostSets (barSet port off.toNat wide v) s

/-- A 32-bit read of a host port's own register. -/
def portRead (port : Fin 2) (off : Nat) (s : State) : Nat :=
  let w := getLw s port
  let h := getHp s port
  match off with
  | 0x040 => w.cause.toNat * 16 + b2n w.refusedBit * 8 + b2n w.acceptedBit * 4 + b2n w.partWritten * 2 + b2n w.committed.isSome
  | 0x044 => freeEntries s
  | 0x048 => w.accepted.toNat
  | 0x04C => w.refused.toNat
  | 0x6000 => b2n h.fatalEn * 2 + b2n h.tqEn
  | 0x600C => h.apBase.toNat * 16
  | 0x6010 => h.width.toNat * 256 + h.rate.toNat * 16 + b2n h.linkUp
  | 0x6014 => h.err.toNat
  | _ => 0

/-- The word at a BAR 0 offset; until READY only MG_BOOT reads (R472). -/
def barWord (port : Fin 2) (off : Nat) (s : State) : Word × State :=
  if !ready s && off != 0x5000 then (0, s)
  else
    match barNumber off with
    | some n => readWord s n
    | none => (BitVec.ofNat 32 (portRead port off s), s)

/-- A host's read of BAR 0, of 4 or 8 aligned bytes, the lower word first; another alignment reads zero (assumption log 22). The
opcode table has no row for it: it is the reply that a read of the state would get. -/
def barRead (port : Fin 2) (off : Nat) (wide : Bool) (s : State) : Dword × State :=
  if off % (if wide then 8 else 4) ≠ 0 then (0, s)
  else
    let (lo, s1) := barWord port off s
    if wide then
      let (hi, s2) := barWord port (off + 4) s1
      (joinWords lo hi, s2)
    else (lo.zeroExtend 64, s1)

/-! ### The core's own registers (R418) -/

/-- EVT_PEND. -/
def evtPend (s : State) (c : Nat) : Word :=
  let k := getCore s c
  (k.evt.zeroExtend 32 &&& 0x34#32) ||| BitVec.ofNat 32 (b2n s.tq.fatal * 8 + b2n (tqStalled s) * 2 + b2n (s.tq.head != s.tq.tail))

/-- A word of the core's own registers; none at an unassigned number. -/
def ccRead (s : State) (c n : Nat) : Option Word :=
  let k := getCore s c
  match n with
  | 0x000 => some (BitVec.ofNat 32 (c / 4 * 16 + c))
  | 0x001 => some (BitVec.ofNat 32 (b2n k.swapPending * 512 + k.resident.length * 16 + k.level.toNat))
  | 0x004 => some (k.tb0.cause.zeroExtend 32)
  | 0x005 => some (k.tb0.epc.setWidth 32)
  | 0x006 => some ((k.tb0.epc >>> 32).setWidth 32)
  | 0x007 => some k.tb0.info
  | 0x008 => some k.tb0.ret
  | 0x00C => some (k.tb1.cause.zeroExtend 32)
  | 0x00D => some (k.tb1.epc.setWidth 32)
  | 0x00E => some ((k.tb1.epc >>> 32).setWidth 32)
  | 0x00F => some k.tb1.info
  | 0x010 => some k.tb1.ret
  | 0x014 => some (k.tvec.setWidth 32)
  | 0x015 => some ((k.tvec >>> 32).setWidth 32)
  | 0x018 => some (evtPend s c)
  | 0x01C => some (BitVec.ofNat 32 s.run.time)
  | 0x01D => some (BitVec.ofNat 32 (s.run.time / 2 ^ 32))
  | 0x01E => some k.tcmp
  | 0x01F => some (k.wdog.zeroExtend 32)
  | 0x040 => some (k.slice.zeroExtend 32)
  | 0x041 => some k.crash
  | 0x042 => some k.fwver
  | 0x043 => some s.fw.stgver
  | _ => if 0x020 ≤ n ∧ n < 0x040 then some (mapGet 0 k.keep (n - 0x020)) else none

/-- A write of the core's own 32-bit register; a read-only one ignores it. -/
def ccWrite (s : State) (c n : Nat) (v : Word) : State :=
  match n with
  | 0x008 => updCore s c (fun k => { k with tb0 := { k.tb0 with ret := v } })
  | 0x010 => updCore s c (fun k => { k with tb1 := { k.tb1 with ret := v } })
  | 0x018 => updCore s c (fun k => { k with evt := k.evt &&& ~~~((v.setWidth 6) &&& 0x34#6) })
  | 0x01E => updCore s c (fun k => { k with tcmp := v, evt := if v = BitVec.ofNat 32 s.run.time then k.evt ||| 0x10 else k.evt })
  | 0x01F => updCore s c (fun k => { k with wdog := v.setWidth 16 })
  | 0x040 => if v.setWidth 16 = 0#16 then s else updCore s c (fun k => { k with slice := v.setWidth 16 })
  | _ => if 0x020 ≤ n ∧ n < 0x040 then updCore s c (fun k => { k with keep := mapSet 0 k.keep (n - 0x020) v }) else s

/-! ### CSR accesses (R416, R417) -/

/-- Numbers whose access traps. -/
def csrTraps (s : State) (c n : Nat) : Bool := decide (0x700 ≤ n) || (decide (n < 0x100) && (ccRead s c n).isNone)

/-- The current word of a number that does not trap. -/
def csrWord (s : State) (c n : Nat) : Word × State :=
  if n < 0x100 then ((ccRead s c n).getD 0, s) else readWord s n

def setLatch (s : State) (c : Nat) (l : Option (Nat × Dword)) : State := updCore s c (fun k => { k with csrLatch := l })

/-- A read: the low word of a 64-bit register latches its high word, which a read that directly follows returns. The latch
is kept under 2 n for a read and 2 n + 1 for a write of the low number n. -/
def csrRead (s : State) (c n : Nat) : Word × State :=
  if isWide n then
    let (v, s1) := csrWord s c n
    let (hi, s2) := csrWord s1 c (n + 1)
    (v, setLatch s2 c (some (2 * n, hi.zeroExtend 64)))
  else
    let (v, s1) := csrWord s c n
    match (getCore s c).csrLatch with
    | some (k, hi) => (if 0 < n ∧ isWide (n - 1) ∧ k = 2 * (n - 1) then hi.setWidth 32 else v, setLatch s1 c none)
    | none => (v, setLatch s1 c none)

/-- All 64 bits of a register written. -/
def csrWriteWide (s : State) (c n : Nat) (v : Dword) : State :=
  if n = 0x014 then updCore s c (fun k => { k with tvec := v }) else if n < 0x100 then s else writeWide s n v

/-- A write: the low word of a 64-bit register is latched only; the high word writes all 64 bits. -/
def csrWrite (s : State) (c n : Nat) (v : Word) : State :=
  if isWide n then setLatch s c (some (2 * n + 1, v.zeroExtend 64))
  else if 0 < n ∧ isWide (n - 1) then
    let lo : Word := match (getCore s c).csrLatch with
      | some (k, l) => if k = 2 * (n - 1) + 1 then l.setWidth 32 else (csrWord s c (n - 1)).1
      | none => (csrWord s c (n - 1)).1
    csrWriteWide (setLatch s c none) c (n - 1) (joinWords lo v)
  else if n < 0x100 then ccWrite (setLatch s c none) c n v
  else writeNarrow n v (setLatch s c none)

end Sys2Proof.Machine
end

