-- ==== Sys2Proof/Machine/Cores.lean ====
section
/-! DEFINITION. Group 0xE, the control cores (R419 to R434), and the events of a core's clock. -/

namespace Sys2Proof.Machine

/-! ### Firmware's own words -/

/-- A privileged word outside firmware is illegal: its unit is blocked (R21, R84). -/
def privileged (act : Fin 16 → Fin 3 → State → Env → Operands → Act) (s : State) (e : Env) (o : Operands) : Act :=
  match e.c with
  | .fw k l => act k l s e o
  | .node _ => .wait (blockUnit s e)

/-- A poisoned operand: nothing is done and nothing is counted (R419). -/
def poisonedNothing (t : Tgt) : List (Target × Token) := poisonZero (tgt1 t)

/-- TRAP (R422): it emits TB_RET once its trap has returned. -/
def execTrap (t : Tgt) (c : BitVec 15) (s : State) : Host.Outcome State Fault Refusal :=
  runUnit s (fun _ =>
    { triggered t (privileged (fun k l s e o => .hold (takeTrap s k.val l.val 0x01 (some e.i) (c.zeroExtend 32)) (pendOf o 0 0 1))) with
      resume := fun s _ p => if p.step = 2 then status t s p.val.toNat else .wait s })

/-- RTE (R423): the handler's window returns when its block ends; at level 0 it takes a trap. -/
def execRte (t : Tgt) (s : State) : Host.Outcome State Fault Refusal :=
  runUnit s (fun _ => triggered t (privileged (fun k l s e o =>
    let s1 := if l = 0 then takeTrap s k.val 0 0x06 (some e.i) 0
      else updCore s k.val (fun c => setCoreWin c l.val { coreWin c l.val with marked := true })
    .emit s1 (toAll (tgt1 t) o.a))))

/-- CSRRD: what an access that traps emits is not stated (assumption log 24). -/
def execCsrrd (t : Tgt) (n : BitVec 12) (s : State) : Host.Outcome State Fault Refusal :=
  runUnit s (fun _ => triggered t (privileged (fun k l s e _ =>
    if csrTraps s k.val n.toNat then
      let (f, s1) := takeFree (setLatch s k.val none)
      .emit (takeTrap s1 k.val l.val 0x02 (some e.i) (n.zeroExtend 32)) (result (tgt1 t) ((Config.freeLine f).setWidth 32) false)
    else
      let (v, s1) := csrRead s k.val n.toNat
      .emit s1 (result (tgt1 t) v false))))

/-- CSRWR. -/
def execCsrwr (t : Tgt) (n : BitVec 12) (s : State) : Host.Outcome State Fault Refusal :=
  runUnit s (fun _ => triggered t (privileged (fun k l s e o =>
    if o.a.psn then .emit s (poisonedNothing t)
    else if csrTraps s k.val n.toNat then
      .emit (takeTrap (setLatch s k.val none) k.val l.val 0x02 (some e.i) (n.zeroExtend 32)) (result (tgt1 t) 0 false)
    else .emit (csrWrite s k.val n.toNat o.a.word) (result (tgt1 t) 0 false))))

/-- TLBI (R431): the VA is a global one, formed as R209 states: a poisoned base counts, a poisoned operand does not (R419). -/
def execTlbi (m : MHead) (bsel : Fin 4) (x : TlbExt) (s : State) : Host.Outcome State Fault Refusal :=
  runUnit s (fun _ => memFiring slotsA m.t (privileged (fun _ _ s e o =>
    match o.a.psn, carryVa e.ctx.mem bsel.val o.a.word with
    | false, some va =>
      let page := bits va.toNat 54 16
      let s1 := match x with
        | .page => dropTlb s page 1
        | .large => dropTlb s (page / 2 ^ 13 * 2 ^ 13) (2 ^ 13)
        | .all => dropTlb s 0 (2 ^ 39)
      .emit s1 (result (tgt1 m.t) 0 false)
    | psn, _ => .emit (addCount s e.c cntPoison (b2n !psn)) (poisonedNothing m.t))))

/-- WFE (R428): it waits for an event of its mask and clears nothing. -/
def execWfe (t : Tgt) (m : BitVec 6) (s : State) : Host.Outcome State Fault Refusal :=
  let look (k : Fin 16) (s : State) (wait : Act) : Act :=
    let v := evtPend s k.val &&& m.zeroExtend 32
    if v = 0 then wait else .emit s (result (tgt1 t) v false)
  runUnit s (fun _ =>
    { triggered t (privileged (fun k _ s _ o => look k s (.hold s (pendOf o 0 0 1)))) with
      resume := fun s e _ => match e.c with
        | .fw k _ => look k s (.wait s)
        | .node _ => .wait s })

/-! ### JMPB, CALLB, RETB (R426) -/

/-- J0 and J1: a draft table VA and a block index. -/
def jumpWords (w : Window) (k : Nat) : Dword × Nat :=
  let j := poolWord w (k + 1)
  (BitVec.ofNat 64 ((poolWord w k).toNat + wbits j 22 0 * 2 ^ 32), wbits j 31 24)

/-- The last of these to fire is the one recorded (R411, R427). -/
def jumpFiring (t : Tgt) (j : Env → Jump) : Firing :=
  triggered t (fun s e _ => .emit (updDraft s e.c (fun d => { d with jump := some (e.i, j e) })) (result (tgt1 t) 0 false))

/-- JMPB. -/
def execJmpb (t : Tgt) (k : Fin 256) (s : State) : Host.Outcome State Fault Refusal :=
  runUnit s (fun _ => jumpFiring t (fun e => .jmp (jumpWords e.win k.val).1 (jumpWords e.win k.val).2))

/-- CALLB. -/
def execCallb (t : Tgt) (k : Fin 256) (s : State) : Host.Outcome State Fault Refusal :=
  runUnit s (fun _ => jumpFiring t (fun e => .call (jumpWords e.win k.val).1 (jumpWords e.win k.val).2))

/-- RETB. -/
def execRetb (t : Tgt) (s : State) : Host.Outcome State Fault Refusal := runUnit s (fun _ => jumpFiring t (fun _ => .ret))

/-! ### TQPOST and TQACK (R429, R430) -/

def pairOut (t : Tgt) (a b : Nat) : List (Target × Token) :=
  seqAll (tgt1 t) [scalarTok (BitVec.ofNat 32 a) false, scalarTok (BitVec.ofNat 32 b) false]

/-- The record that 64 bytes describe. -/
def postedRec (k : Nat) (p : Poster) (d : Bits512) : TrapRec :=
  { kind := lineNat d 0 1, field := k / 4, src := 8, x := k, y := 0, node := BitVec.ofNat 32 (lineNat d 4 4),
    payload := (List.range 5).map (fun j => (0x10 + 8 * j, 8, lineNat d (0x10 + 8 * j) 8)), poster := p }

/-- The arbiter takes a `.nw` record at once, or the queue is full. -/
def postNow (t : Tgt) (s : State) (r : TrapRec) : Act :=
  if r.kind = 0x0F then
    .emit (postFatal s r) (if s.tq.fatal then pairOut t 4 0 else pairOut t 0 s.tq.stamp.toNat)
  else if tqFull s then .emit s (pairOut t 1 0)
  else .emit (postOrdinary s r) (pairOut t 0 s.tq.stamp.toNat)

def tqpostAct (t : Tgt) (nw : Bool) (k : Fin 16) (s : State) (e : Env) (o : Operands) : Act :=
  let pa := o.b.word.toNat * 2 ^ 32 + o.a.word.toNat
  if o.a.psn || o.b.psn then .emit s (poisonedNothing t)
  else if pa % 64 ≠ 0 || !paExists pa then .emit s (pairOut t 3 0)
  else
    let (l, s1) := unitRead s noUnitNode (lineKey 0 pa)
    if l.psn then .emit s1 (pairOut t 3 0)
    else if !listedKind (lineNat l.data 0 1) then .emit s1 (pairOut t 2 0)
    else if nw then postNow t s1 (postedRec k.val .none l.data)
    else .hold (postRec s1 (postedRec k.val (.tqpost e.c e.i) l.data)) (pendOf o 0 0 1)

/-- TQPOST: stage 2 of its wait tells the stamp, stage 3 that nothing was written. -/
def execTqpost (t : Tgt) (_acq : Bool) (_sc : Scope) (nw : Bool) (s : State) : Host.Outcome State Fault Refusal :=
  runUnit s (fun _ =>
    { triggered t (privileged (fun k _ s e o => tqpostAct t nw k s e o)) with
      slots := slotsAB
      joins := slotsAB
      cmd := true
      resume := fun s _ p => if p.step = 2 then .emit s (pairOut t 0 p.val.toNat) else if p.step = 3 then .emit s (pairOut t 4 0) else .wait s })

/-- TQACK: with `.rel` it waits for the firmware's phase. -/
def execTqack (t : Tgt) (rel : Bool) (sc : Scope) (s : State) : Host.Outcome State Fault Refusal :=
  runUnit s (fun _ => commandFiring slotsAB t { acq := false, rel := rel, scope := sc } (privileged (fun _ _ s _ o =>
    if o.a.psn || o.b.psn then .emit s (poisonedNothing t)
    else
      let (ok, s1) := tqAckDo (joinWords o.a.word o.b.word) s
      status t s1 (if ok then 0 else 1))))

/-! ### Signed firmware (R432 to R434) -/

/-- SIGCHK starts: the staged bank is being written. -/
def execSigchk (t : Tgt) (k : Fin 256) (acq : Bool) (_sc : Scope) (key : Fin 4) (s : State) : Host.Outcome State Fault Refusal :=
  runUnit s (fun _ =>
    { triggered t (privileged (fun c _ s e o =>
        let p (j : Nat) : Word := poolWord e.win (k.val + j)
        if s.fw.swapping || s.fw.sig.isSome then status t s 5
        else
          let run : SigRun := { core := c.val, c := e.c, idx := e.i, va := BitVec.ofNat 64 ((p 0).toNat + wbits (p 1) 6 0 * 2 ^ 32)
                                len := (p 2).toNat, key := key.val, acq := acq, kept := [] }
          .hold (queueJob { s with fw := { s.fw with sig := some run, stagedOk := false, stgver := 0 } } (.event .sigchkComplete))
            (pendOf o 0 0 1))) with
      cmd := true
      resume := fun s _ p => if p.step = 2 then status t s p.val.toNat else .wait s })

/-- The bytes of an image copied to a bank, 64 at a time; none when a read is poisoned or lies outside HBM. Under
`.acq` a line that has changed since the start is taken as it was (R61). -/
def copyImage (kept : List (Nat × Line)) (pa : Nat) : Nat → Nat → Store → State → Option Store × State
  | 0, _, m, s => (some m, s)
  | k + 1, j, m, s =>
    let a := pa + 64 * j
    if !paExists a then (none, s)
    else
      let (l, s1) := match mapFind kept (lineKey 0 a) with
        | some l => (l, s)
        | none => unitRead s noUnitNode (lineKey 0 a)
      if l.psn then (none, s1)
      else copyImage kept pa k (j + 1) (if j < 2 ^ 16 then m.writeLine j { l with desc := 0 } else m) s1

/-- The header of an image of `len` bytes that names a key slot (R432); the bytes that no field takes are zero in its first
256 bytes (assumption log 23). -/
def headerGood (m : Store) (len key : Nat) : Bool :=
  let n (o w : Nat) : Nat := leNat (m.readBytes o w)
  let inside (o : Nat) : Bool := n o 4 % 256 == 0 && decide (n o 4 + 128 < n 8 4)
  n 0 2 == 0xD9F1 && n 2 1 == 1 && n 3 1 == 0 && decide (1 ≤ n 4 4) && n 8 4 == len && len % 256 == 0 && decide (512 ≤ len)
    && decide (len ≤ 2 ^ 22) && inside 0x0C && inside 0x10 && n 0x14 1 == key && (m.readBytes 0x15 235).all (· == 0)

/-- The signature of an image's bytes 0 to LEN − 129, and the zero bytes after it. -/
def signatureGood (m : Store) (len key : Nat) : Bool :=
  !Config.keyRevoked key && Config.ed448Verify (Config.keyHash key) (m.readBytes 0 (len - 128)) (m.readBytes (len - 128) 114)
    && (m.readBytes (len - 14) 14).all (· == 0)

/-- The first failing status of a copied image. -/
def sigStatus (m : Store) (len key : Nat) (fwver : Word) : Nat :=
  if !headerGood m len key then 2
  else if !signatureGood m len key then 1
  else if (imageVersion m).toNat ≤ fwver.toNat then 3
  else 0

/-- The waiting SIGCHK learns its status. -/
def tellUnit (s : State) (c : CtxId) (i : Nat) (v : Nat) : State :=
  updUnit s c i (fun u => { u with pend := u.pend.map (fun p => { p with step := 2, val := BitVec.ofNat 64 v }) })

/-- SIGCHK_COMPLETE: the copy is made and checked. -/
def execSigchkComplete (s : State) : Host.Outcome State Fault Refusal :=
  match s.fw.sig with
  | none => .next s
  | some r =>
    match copyImage r.kept r.va.toNat ((r.len + 63) / 64) 0 Store.empty s with
    | (none, s1) => .next (tellUnit { s1 with fw := { s1.fw with sig := none, staged := Store.empty } } r.c r.idx 4)
    | (some m, s1) =>
      let st := sigStatus m r.len r.key (getCore s1 r.core).fwver
      let fw := { s1.fw with sig := none, staged := m, stagedOk := decide (st = 0), stgver := if st = 0 then imageVersion m else 0 }
      .next (tellUnit { s1 with fw := fw } r.c r.idx st)

/-- FWSWAP: on 0 every core is to switch. -/
def execFwswap (t : Tgt) (s : State) : Host.Outcome State Fault Refusal :=
  runUnit s (fun _ =>
    { triggered t (privileged (fun _ l s _ _ =>
        if s.fw.swapping then status t s 3
        else if l ≠ 0 then status t s 2
        else if !s.fw.stagedOk then status t s 1
        else
          status t { s with fw := { s.fw with swapping := true, toSwitch := List.range 16 }
                            cores := s.cores.map (fun k => { k with swapPending := true }) } 0)) with
      cmd := true })

/-- The swap ends when no core is left to switch: the banks change places, and the staged one is invalid. -/
def endSwap (s : State) : State :=
  if s.fw.swapping && s.fw.toSwitch.isEmpty then
    { s with fw := { s.fw with active := s.fw.staged, staged := s.fw.active, stagedOk := false, stgver := 0, swapping := false } }
  else s

/-- A core switches (R434): its F0 restarts at ENTRY of the new bank, a draft's start (R145). -/
def switchCore (s : State) (c : Nat) : State :=
  let s1 := { s with fw := { s.fw with toSwitch := s.fw.toSwitch.filter (· != c) } }
  let m := coreBank s1 c
  let s2 := updCore s1 c (fun k =>
    { k with f0 := dueWin (imageEntry s1 c), ctx := clearBlock k.ctx, tvec := imageTrapd s1 c, fwver := imageVersion m,
             evt := k.evt ||| 0x20, swapPending := false })
  endSwap s2

/-- The restart after a machine check in firmware (R415); a core that is to switch does so then (R434). -/
def restartChecked (s : State) (c : Nat) : State :=
  let s1 := restartFirmware s c
  if (getCore s1 c).swapPending then switchCore s1 c else s1

/-! ### Events of a core's clock -/

/-- TIMER_MATCH. -/
def execTimerMatch (c : Fin 16) (s : State) : Host.Outcome State Fault Refusal :=
  .next (if BitVec.ofNat 32 s.run.time = (getCore s c.val).tcmp then updCore s c.val (fun k => { k with evt := k.evt ||| 0x10 }) else s)

/-- µs since the current firmware window's block was loaded. -/
def fwElapsed (s : State) (c : Nat) : Option Nat :=
  let k := getCore s c
  (coreWin k k.level.toNat).win.map (fun w => s.run.time - w.loadedUs)

/-- The block in the window at LEVEL has run FW_WDOG µs since it loaded, the time that it stood frozen with them, and has not taken
its trap (R421). -/
def wdogDue (s : State) (c : Nat) : Bool :=
  let k := getCore s c
  k.wdog != 0 && !(coreWin k k.level.toNat).late && decide (k.wdog.toNat ≤ (fwElapsed s c).getD 0) && !crashWaits s c

/-- FW_WATCHDOG. -/
def execFwWatchdog (c : Fin 16) (s : State) : Host.Outcome State Fault Refusal :=
  let k := getCore s c.val
  match fwElapsed s c.val with
  | none => .next s
  | some n =>
    .next (if !wdogDue s c.val then s
      else
        takeTrap (updCore s c.val (fun k => setCoreWin k k.level.toNat { coreWin k k.level.toNat with late := true })) c.val
          k.level.toNat 0x05 none (BitVec.ofNat 32 n))

/-- SLICE_EXPIRY: the slice is over at the block's end. -/
def execSliceExpiry (c : Fin 16) (s : State) : Host.Outcome State Fault Refusal :=
  let k := getCore s c.val
  .next (if k.slice.toNat ≤ s.run.time - k.sliceStart then updCore s c.val (fun k => { k with yielded := true }) else s)

end Sys2Proof.Machine
end

