-- ==== Sys2Proof/Machine/Channels.lean ====
section
/-! DEFINITION. Group 0xB, the instructions of channels (R345 to R355). -/

namespace Sys2Proof.Machine

/-! ### Ends -/

/-- The binding of an endpoint. -/
def endAt (e : Env) (ep : Nat) : Option Endpoint := e.ctx.ends[ep]?

/-- While the channel unit is off, every instruction of the group waits (R334). -/
def chuOff (s : State) : Bool := !s.chu.en

/-- The node holds the push end of an OPEN channel; otherwise a push is discarded (R331, R346). -/
def pushLive (e : Env) (c : Chan) : Bool := !isFirmware e.c && c.prod == ctxNode e.c && c.state == chOpenSt

def popMine (e : Env) (c : Chan) : Bool := !isFirmware e.c && c.cons == ctxNode e.c

/-- A token pushed on an endpoint, or discarded; it waits while the channel is full. -/
def pushTo (s : State) (e : Env) (ep : Nat) (t : Token) (go : State → Act) : Act :=
  if !s.chu.en then .wait s
  else
    let gone (s1 : State) : Act := go (addCount s1 e.c cntPoison (b2n (!t.isMk)))
    match endAt e ep with
    | none => gone s
    | some b =>
      let (c, s1) := useChan s b.chid
      if !pushLive e c then gone s1
      else if pushRoom c then go (chPush s1 b.chid t)
      else .wait s1

/-- PUSH (R346). -/
def execPush (t : Tgt) (ep : Fin 256) (p : Pred) (s : State) : Host.Outcome State Fault Refusal :=
  runUnit s (fun _ =>
    { slots := slotsA, joins := slotsA, tgts := tgt1 t, pred := p, shut := chuOff
      body := fun s e o => pushTo s e ep.val o.a (fun s1 => .emit s1 (result (tgt1 t) 0 false))
      onMark := fun s e r => pushTo s e ep.val (markerTok r) (fun s1 => .emit s1 (toAll (tgt1 t) (markerTok r)))
      resume := noResume })

/-! ### POP and PEEK (R337, R347) -/

/-- What a pop finds. -/
inductive Popped where
  | wait (s : State)
  /-- The marker of rank 6 instead of a token. -/
  | ends (s : State)
  | tok (t : Token) (s : State)

/-- The token at THEAD, taken when `take`: a FAILED channel is as one closed and empty. -/
def popFrom (s : State) (e : Env) (ep : Nat) (take : Bool) : Popped :=
  if !s.chu.en || sourcesClosed s e.c then .wait s
  else
    match endAt e ep with
    | none => .ends s
    | some b =>
      let (c, s1) := useChan s b.chid
      if !popMine e c then .ends s1
      else if c.state = chFailed then .ends (addCount s1 e.c cntPoison 1)
      else if c.thead = c.ctail then (if c.state = chOpenSt then .wait s1 else .ends s1)
      else
        let (t, s2) := headTok s1 c
        let s3 := if take then setChan s2 b.chid { getChan s2 b.chid with thead := c.thead + 1 } else s2
        match t with
        | some t => .tok t s3
        | none => .tok (lostTok c.esz) (addCount s3 e.c cntPoison (b2n take))

/-- POP with a trigger and PEEK. -/
def popTrig (t : Tgt) (ep : Nat) (take : Bool) : Firing :=
  { triggered t (fun s e _ =>
      match popFrom s e ep take with
      | .wait s1 => .wait s1
      | .ends s1 => .emit s1 (toAll (tgt1 t) (markerTok 6))
      | .tok x s1 => .emit s1 (toAll (tgt1 t) x)) with
    shut := chuOff }

/-- POP without a trigger: after the marker of rank 6 it fires no more in the block. -/
def popFree (t : Tgt) (ep : Nat) : Firing :=
  { slots := [], joins := [], tgts := tgt1 t, shut := chuOff
    body := fun s e _ =>
      if e.u.ended then .wait s
      else
        match popFrom s e ep true with
        | .wait s1 => .wait s1
        | .ends s1 => .emit (updUnit s1 e.c e.i (fun u => { u with ended := true })) (toAll (tgt1 t) (markerTok 6))
        | .tok x s1 => .emit s1 (toAll (tgt1 t) x)
    onMark := passMark (tgt1 t)
    resume := noResume }

/-- POP. -/
def execPop (t : Tgt) (ep : Fin 256) (trig : Bool) (s : State) : Host.Outcome State Fault Refusal :=
  runUnit s (fun _ => if trig then popTrig t ep.val true else popFree t ep.val)

/-- PEEK. -/
def execPeek (t : Tgt) (ep : Fin 256) (s : State) : Host.Outcome State Fault Refusal :=
  runUnit s (fun _ => popTrig t ep.val false)

/-! ### PUSHB and POPB (R353) -/

/-- The bobbin and endpoint of a pool word. -/
def chepWord (w : Window) (k : Nat) : Nat × Nat := (wbits (poolWord w k) 12 8, wbits (poolWord w k) 7 0)

/-- A channel of scalar tokens, or no such bobbin: the poisoned index of the slot that the trigger would have taken, 0 where there is
none; counted. -/
def badSlot (s : State) (e : Env) (t : Tgt) (i : Nat) : Act :=
  .emit (addCount s e.c cntPoison 1) (result (tgt1 t) (BitVec.ofNat 32 i) true)

/-- The endpoint's channel carries scalar tokens. An end that the node no longer holds has no channel (R337). -/
def scalarEnd (s : State) (e : Env) (ep : Nat) : Bool × State :=
  match endAt e ep with
  | some b =>
    let (c, s1) := useChan s b.chid
    ((if b.push then c.prod else c.cons) == ctxNode e.c && !isFirmware e.c && !c.esz, s1)
  | none => (false, s)

def indexToks (t : Tgt) (i : Nat) : List (Target × Token) := result (tgt1 t) (BitVec.ofNat 32 i) false

/-- The slot in hand and the blocks done, as the firing in progress keeps them. -/
def slotHold (o : Operands) (i : Nat) : Pend := pendOf o 0 (BitVec.ofNat 64 (i * 2 ^ 32)) 1

def holdSlot (p : Pend) : Nat := p.val.toNat / 2 ^ 32
def holdDone (p : Pend) : Nat := p.val.toNat % 2 ^ 32

/-- The next block of the slot pushed; the slot empties after its last. -/
def pushbGo (t : Tgt) (k : Nat) (s : State) (e : Env) (p : Pend) : Act :=
  let (bob, ep) := chepWord e.win k
  match getBob e.ctx.mem bob with
  | none => badSlot s e t 0
  | some b =>
    let l := (slotRead s e.c e.ctx.mem b (holdSlot p) (holdDone p)).1
    pushTo s e ep (vectorTok l.data l.desc l.psn) (fun s1 =>
      let s1 := (slotRead s1 e.c e.ctx.mem b (holdSlot p) (holdDone p)).2
      if slotBlocks b ≤ holdDone p + 1 then
        .emit (updMem s1 e.c (fun m => endDrain m bob (holdSlot p))) (indexToks t (holdSlot p))
      else .hold s1 { p with val := p.val + 1 })

/-- PUSHB. -/
def execPushb (t : Tgt) (k : Fin 256) (s : State) : Host.Outcome State Fault Refusal :=
  runUnit s (fun _ =>
    { triggered t (fun s e o =>
        let (bob, ep) := chepWord e.win k.val
        match getBob e.ctx.mem bob with
        | none => badSlot s e t 0
        | some b =>
          match scalarEnd s e ep with
          | (true, s1) => badSlot s1 e t b.head
          | (false, s1) =>
            match takeDrain e.ctx.mem bob b with
            | none => .wait s1
            | some (i, m) => .hold (updMem s1 e.c (fun _ => m)) (slotHold o i)) with
      cmd := true
      shut := chuOff
      resume := fun s e p => pushbGo t k.val s e p })

/-- What a POPB has popped into a slot, noted with its bobbin: one token more, a block of the slot or its marker. -/
def notePop (k slot unit : Nat) (marker : Bool) (m : CtxMem) : CtxMem :=
  match getBob m k with
  | none => m
  | some b =>
    let f := (b.pops.find? (fun f => f.slot == slot)).getD { slot := slot, unit := unit, blocks := 0, fresh := 0, marked := false }
    putBob m k { b with pops := { f with blocks := f.blocks + b2n (!marker), fresh := f.fresh + 1, marked := marker }
                                  :: b.pops.filter (fun f => f.slot != slot) }

/-- A slot taken for a fill that a reset has undone, with the blocks that stand in it. -/
def notePopped (k slot unit done : Nat) (marked : Bool) (m : CtxMem) : CtxMem :=
  match getBob m k with
  | none => m
  | some b => putBob m k { b with pops := { slot := slot, unit := unit, blocks := done, fresh := 0, marked := marked }
                                            :: b.pops.filter (fun f => f.slot != slot) }

/-- The next token popped into the slot; a marker ends the fill. In stages 2 and 4 it takes its slot anew first; in stages 3 and 4
its index has left already. -/
def popbGo (t : Tgt) (k : Nat) (s : State) (e : Env) (p : Pend) : Act :=
  let (bob, ep) := chepWord e.win k
  match getBob e.ctx.mem bob with
  | none => badSlot s e t 0
  | some b =>
    let told : Bool := decide (3 ≤ p.step)
    let leaves (i : Nat) (l : List (Target × Token)) : List (Target × Token) := if told then [] else indexToks t i ++ l
    let ready (i : Nat) (m : CtxMem) : CtxMem := endFill m bob i
    if p.step % 2 = 0 then
      if sourcesClosed s e.c then .wait s
      else
        match takeFill e.ctx.mem bob b with
        | none => .wait s
        | some (i, m) =>
          let full : Bool := p.phase == 1 || decide (slotBlocks b ≤ holdDone p)
          let s1 := updMem s e.c (fun _ => notePopped bob i e.i (holdDone p) (p.phase == 1) m)
          if full then .emit (updMem s1 e.c (ready i)) (leaves i [])
          else .hold s1 { p with step := p.step - 1, val := BitVec.ofNat 64 (i * 2 ^ 32 + holdDone p) }
    else
      let i := holdSlot p
      let popped (s1 : State) (mk : Bool) : State := updMem s1 e.c (notePop bob i e.i mk)
      let marked (s1 : State) (r : Nat) : Act := .emit (updMem s1 e.c (ready i)) (leaves i (toAll (tgt1 t) (markerTok r)))
      match popFrom s e ep true with
      | .wait s1 => .wait s1
      | .ends s1 => marked s1 6
      | .tok x s1 =>
        if x.isMk then marked (popped s1 true) x.rank.val
        else
          let s2 := popped (slotFill s1 e.c b i (holdDone p) { data := x.data, desc := x.desc, psn := x.psn }) false
          if slotBlocks b ≤ holdDone p + 1 then .emit (updMem s2 e.c (ready i)) (leaves i [])
          else .hold s2 { p with val := p.val + 1 }

/-- POPB. -/
def execPopb (t : Tgt) (k : Fin 256) (s : State) : Host.Outcome State Fault Refusal :=
  runUnit s (fun _ =>
    { triggered t (fun s e o =>
        let (bob, ep) := chepWord e.win k.val
        match getBob e.ctx.mem bob with
        | none => badSlot s e t 0
        | some b =>
          match scalarEnd s e ep with
          | (true, s1) => badSlot s1 e t b.tail
          | (false, s1) =>
            match takeFill e.ctx.mem bob b with
            | none => .wait s1
            | some (i, m) => .hold (updMem s1 e.c (fun _ => m)) (slotHold o i)) with
      cmd := true
      shut := chuOff
      resume := fun s e p => popbGo t k.val s e p })

/-! ### CHEND (R348) -/

/-- The end of a binding is held by the node. -/
def endHeld (s : State) (e : Env) (b : Endpoint) : Bool :=
  !isFirmware e.c && (if b.push then (getChan s b.chid).prod else (getChan s b.chid).cons) == ctxNode e.c

/-- CHEND. -/
def execChend (t : Tgt) (fin : Bool) (ep : Fin 256) (s : State) : Host.Outcome State Fault Refusal :=
  runUnit s (fun _ =>
    { triggered t (fun s e _ =>
        match endAt e ep.val with
        | none => status t s 1
        | some b =>
          let (_, s1) := useChan s b.chid
          if b.ending || !endHeld s1 e b then status t s1 1
          else
            status t (updCtx s1 e.c (fun x => { x with ends := modNth (fun b => { b with ending := true, fin := fin }) x.ends ep.val })) 0) with
      shut := chuOff })

/-! ### Operations of the channel unit (R349 to R352) -/

/-- An engine command of the channel unit on the data of slot a; a poisoned operand gives a poisoned `bad`. -/
def chanFiring (t : Tgt) (bad : Nat) (act : State → Env → Word → Act) : Firing :=
  { slots := slotsA, joins := slotsA, tgts := tgt1 t, cmd := true, onMark := passMark (tgt1 t), resume := noResume, shut := chuOff
    body := fun s e o =>
      if o.a.psn then .emit (addCount s e.c cntPoison 1) (result (tgt1 t) (BitVec.ofNat 32 bad) true)
      else act s e o.a.word }

/-- A channel number on slot a. -/
def chanNum (a : Word) : Nat := a.toNat % 4096

/-- The endpoint of CHOPEN and CHGROW. -/
def epWord (w : Window) (k : Fin 256) : Nat := wbits (poolWord w k.val) 7 0

/-- The channel unit's part of CHOPEN. -/
def chopenDo (s : State) (e : Env) (ep k : Nat) : State × Nat :=
  match endAt e ep with
  | none => (s, 1)
  | some b =>
    let (c, s1) := useChan (checkChans s [b.chid]) k
    let who := if b.push then c.prod else c.cons
    if c.state = chFree ∨ c.state = chFailed then (s1, 1)
    else if who ≠ noNode ∧ who ≠ ctxNode e.c then (s1, 2)
    else if b.push ∧ c.state = chClosed then (s1, 3)
    else if c.esz ≠ (getChan s1 b.chid).esz then (s1, 4)
    else (attachEnd (releaseEnd s1 b.chid b.push (ctxNode e.c)) (ctxNode e.c) k b.push, 0)

/-- EP names the channel for the rest of the block. -/
def bindEnd (s : State) (c : CtxId) (ep k : Nat) : State :=
  updCtx s c (fun x => { x with ends := modNth (fun b => { b with chid := k, ending := false, fin := false }) x.ends ep })

/-- CHOPEN's log entry. -/
def chopenKey (e : Env) (ep : Nat) (a : Word) : LogEntry := logKey e 0xB0 (BitVec.ofNat 64 ep) [a]

/-- A CHOPEN that the log answers binds EP as its logged status says (R355). -/
def chopenAnswer (t : Tgt) (s : State) (e : Env) (ep k : Nat) (ret : List Dword) : Act :=
  match ret with
  | [v] => status t (if v = 0 then bindEnd s e.c ep k else s) v.toNat
  | _ => status t s 1

/-- CHOPEN after its boundary. -/
def chopenGo (t : Tgt) (ep : Nat) (s : State) (e : Env) (a : Token) : Act :=
  if a.psn then .emit (addCount s e.c cntPoison 1) (result (tgt1 t) 4 true)
  else
    let k := chanNum a.word
    match replayNext s e.c (chopenKey e ep a.word) with
    | .answered ret s1 => chopenAnswer t s1 e ep k ret
    | .live s1 =>
      let (s2, v) := chopenDo s1 e ep k
      let s3 := if v = 0 then bindEnd s2 e.c ep k else s2
      status t (logAppend s3 e.c { chopenKey e ep a.word with ret := [BitVec.ofNat 64 v] }) v

/-- CHOPEN (R349): a boundary at `.dev`, then the channel unit's act. -/
def execChopen (t : Tgt) (k : Fin 256) (s : State) : Host.Outcome State Fault Refusal :=
  runUnit s (fun _ =>
    { slots := slotsA, joins := slotsA, tgts := tgt1 t, cmd := true, onMark := passMark (tgt1 t), shut := chuOff
      body := fun s e o =>
        if o.a.psn then holdForBoundary s e o .dev
        else
          let ep := epWord e.win k
          match replayNext s e.c (chopenKey e ep o.a.word) with
          | .answered ret s1 => chopenAnswer t s1 e ep (chanNum o.a.word) ret
          | .live s1 => holdForBoundary s1 e o .dev
      resume := fun s e p => if p.phase < e.ctx.phase && s.chu.en then chopenGo t (epWord e.win k) s e p.a else .wait s })

/-- CHGROW's effect: the new SOFT. -/
def chgrowDo (s : State) (e : Env) (ep : Nat) (add : Bool) (n : Word) : State × Nat :=
  match endAt e ep with
  | none => (s, 0)
  | some b =>
    let (c, s1) := useChan s b.chid
    let v := min c.ceil.toNat (max 1 (n.toNat + (if add then c.soft.toNat else 0)))
    (setChan s1 b.chid { c with soft := BitVec.ofNat 32 v }, v)

/-- CHGROW (R351). -/
def execChgrow (t : Tgt) (k : Fin 256) (add : Bool) (s : State) : Host.Outcome State Fault Refusal :=
  runUnit s (fun _ => chanFiring t 0 (fun s e a =>
    let ep := epWord e.win k
    logStatus t s e (logKey e 0xB8 (BitVec.ofNat 64 ep) [a, boolWord add]) (fun s1 => chgrowDo s1 e ep add a)))

/-- The channel that CHDEF's six words describe. -/
def chdefChan (w : Window) (k : Nat) : Chan :=
  let p (j : Nat) : Word := poolWord w (k + j)
  { Chan.free with rbase := p 0, esz := wbit (p 1) 8, log2r := BitVec.ofNat 5 (p 1).toNat, soft := p 2, ceil := p 3,
                   spill := BitVec.ofNat 64 ((p 4).toNat + wbits (p 5) 22 0 * 2 ^ 32), state := chOpenSt }

/-- CHDEF (R350). -/
def execChdef (t : Tgt) (k : Fin 256) (s : State) : Host.Outcome State Fault Refusal :=
  runUnit s (fun _ => chanFiring t 1 (fun s e a =>
    logStatus t s e (logKey e 0xB9 (BitVec.ofNat 64 k.val) [a]) (fun s1 =>
      let (_, s2) := useChan s1 (chanNum a)
      chDefine s2 (chanNum a) (chdefChan e.win k.val))))

/-- CHFREE (R350). -/
def execChfree (t : Tgt) (s : State) : Host.Outcome State Fault Refusal :=
  runUnit s (fun _ => chanFiring t 1 (fun s e a =>
    logStatus t s e (logKey e 0xBA 0 [a]) (fun s1 => chFreeDo s1 (chanNum a))))

/-- CHSTAT's word (R352). -/
def chstatWord (v : Nat) (c : Chan) : Nat :=
  match v with
  | 0 => if c.state = chFree then 0 else ptrDiff c.ctail c.chead
  | 1 => if c.state = chFree then 0 else c.soft.toNat
  | 2 => if c.state = chFree then 0 else c.grows.toNat
  | _ => c.state.toNat * 2 ^ 24 + b2n (c.prod != noNode) * 2 ^ 23 + b2n (c.cons != noNode) * 2 ^ 22
      + b2n (c.rt != c.ttail) * 2 ^ 21 + min (ptrDiff c.ttail c.chead) (2 ^ 21 - 1)

/-- CHSTAT (R352). -/
def execChstat (t : Tgt) (v : Fin 4) (s : State) : Host.Outcome State Fault Refusal :=
  runUnit s (fun _ => chanFiring t 0 (fun s _ a =>
    let (c, s1) := useChan s (chanNum a)
    status t s1 (chstatWord v.val c)))

end Sys2Proof.Machine
end

