-- ==== Sys2Proof/Machine/Health.lean ====
section
/-! DEFINITION. The health unit: machine checks and marginal units (R436 to R445), fields (R446 to R450), retirement
(R451), and group 0xF (R456 to R460). -/

namespace Sys2Proof.Machine

/-! ### Machine checks (R437 to R440, R444) -/

/-- The unit that a check was made at (R445). -/
def checkUnit (k : Check) : Option UnitName :=
  match k.src.val with
  | 0 | 3 => some (.site (Fin.ofNat 128 k.x) (Fin.ofNat 96 k.y))
  | 1 => some (.cell (Fin.ofNat 256 k.x) (Fin.ofNat 192 k.y))
  | 2 => some (.ve (Fin.ofNat 64 k.x) (Fin.ofNat 48 k.y))
  | 6 => some (.memUnit (Fin.ofNat 1024 (128 * k.y + k.x)))
  | 8 => some (.core (Fin.ofNat 16 k.x))
  | _ => none

/-- The number under which a node's checks at a unit are counted. -/
def unitKey : UnitName → Nat
  | .site x y => x.val + 256 * y.val
  | .cell x y => 2 ^ 16 + x.val + 256 * y.val
  | .ve x y => 2 ^ 17 + x.val + 256 * y.val
  | .core c => 2 ^ 18 + c.val
  | .memUnit u => 2 ^ 19 + u.val

/-- The field that a unit is counted with. -/
def unitField : UnitName → Nat
  | .site x y => siteField x.val y.val
  | .cell x y => siteField (x.val / 2) (y.val / 2)
  | .ve x y => siteField (2 * x.val) (2 * y.val)
  | .core c => c.val / 4
  | .memUnit _ => 0

/-- SRC, X and Y of a unit's own records. -/
def unitPlace : UnitName → Nat × Nat × Nat
  | .site x y => (0, x.val, y.val)
  | .cell x y => (1, x.val, y.val)
  | .ve x y => (2, x.val, y.val)
  | .core c => (8, c.val, 0)
  | .memUnit u => (6, u.val % 128, u.val / 128)

def getField (s : State) (f : Nat) : FieldSt := nth FieldSt.init s.hl.fields f

def updField (s : State) (f : Nat) (g : FieldSt → FieldSt) : State := updHl s (fun h => { h with fields := modNth g h.fields f })

/-- The payload of a check's record (R439); `m` is the node's machine checks and `marg` whether the unit became marginal. -/
def checkPayload (s : State) (k : Check) (m : Nat) (marg : Bool) : List (Nat × Nat × Nat) :=
  let w := getWin s k.ctx
  let va : Dword := (w.map (·.va)).getD 0
  let op := match w, k.idx with
    | some x, some i => ((x.code[i]?).getD 0).toNat / 2 ^ 24
    | _, _ => 0
  [(0x10, 8, (trapEpc va k.idx).toNat), (0x18, 1, op), (0x19, 1, (getDraft s k.ctx).block), (0x1A, 1, k.lane), (0x1B, 1, k.code.toNat),
   (0x1C, 1, k.exp.val * 16 + k.obs.val), (0x1D, 1, b2n marg * 2 + b2n k.inj), (0x1E, 2, min 65535 m), (0x20, 4, k.l0.toNat),
   (0x24, 4, k.l1.toNat), (0x28, 4, k.l2.toNat), (0x2C, 4, k.l3.toNat), (0x30, 4, k.loc.toNat)]

/-- Step 3 and step 4 of R437: the record, and the counts of the context, the field and the device. -/
def countCheck (s : State) (k : Check) (marg : Bool) : State :=
  let s1 := addDev (addDev (addField (addCount s k.ctx cntMachine 1) k.field.val 0 1) 0 1) 1 (b2n k.inj)
  let m := ((getCtx s1 k.ctx).map (fun x => (mapGet 0 x.counts cntMachine).toNat)).getD 0
  healthRecord s1 k.src.val k.field.val k.x k.y (ctxNode k.ctx) (checkPayload s k m marg)

/-- A node's third check at a unit that is not marginal yet; an injected one does not count. -/
def makesMarginal (s : State) (n : Node) (k : Check) : Option UnitName :=
  match k.inj, checkUnit k with
  | false, some u =>
    if mapGet 0 n.unitChecks (unitKey u) = 2 ∧ !(getField s (unitField u)).marginal.elem u then some u else none
  | _, _ => none

/-- The residue mismatches that a check at a memory-side unit stands for, counted there (R362); an injected one was counted when
it fired. -/
def countResidue (s : State) (k : Check) (n : Nat) : State := if k.src = 6 ∧ !k.inj then addUnit s (128 * k.y + k.x) 3 n else s

/-- One check of a node recorded and counted; the unit that it makes marginal. -/
def noteCheck (id : Nat) (s : State) (k : Check) : Option UnitName × State :=
  let marg := (getNode s id).bind (fun n => makesMarginal s n k)
  let s1 := countCheck (countResidue s k 1) k marg.isSome
  (marg, updNode s1 id (fun n =>
    { n with checks := n.checks + 1,
             unitChecks := match k.inj, checkUnit k with
               | false, some u => mapPut n.unitChecks (unitKey u) (mapGet 0 n.unitChecks (unitKey u) + 1)
               | _, _ => n.unitChecks }))

/-- Checks recorded one after another; the units that they make marginal. -/
def noteChecks (id : Nat) : List Check → State → List UnitName × State
  | [], s => ([], s)
  | k :: l, s =>
    let (u, s1) := noteCheck id s k
    let (us, s2) := noteChecks id l s1
    (u.toList ++ us, s2)

/-- The order of the records of one cycle: ascending SRC, then Y, then X (R438). -/
def checkKey (k : Check) : Nat := k.src.val * 2 ^ 32 + k.y * 2 ^ 16 + k.x

def insertCheck (k : Check) : List Check → List Check
  | [] => [k]
  | j :: l => if checkKey k < checkKey j then k :: j :: l else j :: insertCheck k l

/-- The checks of a node in one cycle: records and counts, one rollback, counted in the first one's field, then the limits. -/
def nodeChecks (s : State) (id : Nat) (n : Node) (f : Nat) (l : List Check) : State :=
  let (us, s1) := noteChecks id l s
  let s2 := addField (rollbackNode s1 id) f 1 1
  let s3 := us.foldr (fun u t => nextJob t (.event (.marginalUnit u))) s2
  if 8 ≤ n.checks + l.length then nextJob s3 (.event (.nodeRetireChecks id)) else s3

/-- The command that a check of the shuttle falls on: its tile is moved afresh, poisoned. -/
def poisonTile (s : State) (k : Check) : State :=
  match s.sh.cmds.find? (fun x => x.ctx == k.ctx && some x.idx == k.idx && x.started && x.doneAt.isNone) with
  | some x => putCmd s { x with bad := true, row := 0 }
  | none => s

/-- The token at a channel's head poisoned where it stands. -/
def poisonHead (s : State) (ch : Nat) : State :=
  let c := getChan s ch
  let n := c.thead.toNat
  match headTok s c with
  | (some t, s1) =>
    if ptrDiff c.thead c.chead < ptrDiff c.rt c.chead then ringWrite s1 c (n % max 1 (ringTokens c)) { t with psn := true }
    else (spillWrite s1 c (n % max 1 c.ceil.toNat) { t with psn := true }).2
  | (none, s1) => s1

/-- The token that a check of the channel unit falls on (assumption log 25): the one a PUSH holds, or the one at the head of
the channel that the instruction pops. -/
def poisonToken (s : State) (k : Check) : State :=
  match k.idx, getWin s k.ctx with
  | some i, some w =>
    let chan (ep : Nat) : Nat := wbits (nth 0 w.ends ep) 11 0
    let mark (q : List Token) : List Token := match q with
      | t :: l => { t with psn := t.psn || !t.isMk } :: l
      | [] => []
    match winInstr w i with
    | some (.push ..) => updUnit s k.ctx i (fun u => { u with qa := mark u.qa })
    | some (.pop _ ep _) | some (.peek _ ep) => poisonHead s (chan ep.val)
    | some (.popb _ p) => poisonHead s (chan (chepWord w p.val).2)
    | _ => s
  | _, _ => s

/-- A check at a memory-side unit whose operation the shuttle asked for: the instruction it names is one of group 0xA (R368). -/
def shuttleAsked (s : State) (k : Check) : Bool :=
  match k.idx, getWin s k.ctx with
  | some i, some w => ((w.code[i]?).getD 0).toNat / 2 ^ 28 == 10
  | _, _ => false

/-- The unit index that the record of a second mismatch names. -/
def mismatchUnit (k : Check) : Nat := if k.src = 4 then k.field.val else if k.src = 6 then 128 * k.y + k.x else 0

/-- A second mismatch of the shuttle, the channel unit (R436) or of a memory-side unit at a shuttle's operation (R368): counted
and told, and the node goes on. -/
def secondMismatch (s : State) (k : Check) : State :=
  let s1 := addDev (addCount (countResidue s k 2) k.ctx cntPoison 1) 13 1
  postInfo (if k.src = 5 then poisonToken s1 k else poisonTile s1 k) 0x46 k.src.val (mismatchUnit k)

/-- FCODE 1 (R455): nothing is placed or restored any more. -/
def centralFault (s : State) (block : Dword) : State :=
  let s1 := postFatalCode s 1 block.toNat
  { s1 with dsp := { s1.dsp with frozen := true } }

/-- A check that poisons a tile or a token, and rolls nothing back (R368, R436). -/
def isSecond (s : State) (k : Check) : Bool := k.src = 4 ∨ k.src = 5 ∨ (k.src = 6 ∧ shuttleAsked s k)

/-- A check of a unit that reports for the whole device (R436). -/
def isCentral (k : Check) : Bool := k.src = 7 ∨ k.src = 9

/-- The next job is a check that rolls a context back. -/
def checkOf (s : State) (c : CtxId) (j : Job) : Option Check :=
  match j with
  | .event (.machineCheck k) => if k.ctx = c ∧ !isSecond s k ∧ !isCentral k then some k else none
  | _ => none

/-- The checks of a context that stand at the head of the agenda: those of the same cycle. -/
def leadingChecks (s : State) (c : CtxId) : List Job → List Check × List Job
  | [] => ([], [])
  | j :: l =>
    match checkOf s c j with
    | some k => ((k :: (leadingChecks s c l).1), (leadingChecks s c l).2)
    | none => ([], j :: l)

/-- Those checks, taken from the agenda (R438). -/
def takeChecks (s : State) (c : CtxId) : List Check × State :=
  let (l, js) := leadingChecks s c s.run.agenda
  (l, { s with run := { s.run with agenda := js } })

/-- MACHINE_CHECK. -/
def execMachineCheck (k : Check) (s : State) : Host.Outcome State Fault Refusal :=
  .next (if isSecond s k then secondMismatch s k
    else if isCentral k then centralFault s (BitVec.ofNat 64 k.src.val)
    else
      match k.ctx with
      | .node id => match getNode s id with
        | some n =>
          let (l, s1) := takeChecks s k.ctx
          nodeChecks s1 id n k.field.val (l.foldr insertCheck [k])
        | none => s
      | .fw c _ => restartChecked (countCheck (countResidue s k 1) k false) c.val)

/-- NODE_RETIRE_CHECKS. -/
def execNodeRetireChecks (id : Nat) (s : State) : Host.Outcome State Fault Refusal :=
  match getNode s id with
  | none => .next s
  | some n =>
    if n.checks < 8 then .next s
    else .next (updHl (addDev (retireFailed (postInfo s 0x43 id 0) id) 2 1) (fun h => { h with retired := true }))

/-- TWO_COPY_DISAGREE. -/
def execTwoCopyDisagree (block : Dword) (s : State) : Host.Outcome State Fault Refusal := .next (centralFault s block)

/-! ### Drains, bins, retests (R446 to R449, R459) -/

/-- A node stands on a field: its region touches it, or it is resident on one of its cores. -/
def onField (s : State) (f : Nat) (n : Node) : Bool := n.exec.isSome && (ctxFields s (.node n.id)).elem f

/-- How the health unit moves a node (R448): a spatial node with PRE 1 is pre-empted, any other node moved at a block's
end (R395, R413). -/
def healthMove (n : Node) : Move :=
  match n.exec with
  | some (.region ..) => if n.lrec.pre then .preempt true else .replace
  | _ => .replace

/-- The health unit moves every node that meets a test; each gets age 255 as it goes (R383, R448, R460). -/
def moveNodes (s : State) (test : Node → Bool) : State :=
  { s with dsp := { s.dsp with nodes := s.dsp.nodes.map (fun n => if test n then { n with moving := healthMove n, ousted := true } else n) } }

/-- FLDDRAIN's act on an admitted field. -/
def startDrain (s : State) (f : Nat) : State := moveNodes (updField s f (fun x => { x with state := 1 })) (onField s f)

def addWait (s : State) (w : HlWait) : State := updHl s (fun h => { h with wait := h.wait ++ [w] })

/-- The first wait that meets a test, taken out. -/
def takeWait (s : State) (test : HlWait → Bool) : Option HlWait × State :=
  match s.hl.wait.find? test with
  | some w => (some w, updHl s (fun h => { h with wait := h.wait.erase w }))
  | none => (none, s)

def answerHl (s : State) (w : HlWait) (v : Nat) : State :=
  match w.who with
  | some (c, i) => tellUnit s c i v
  | none => s

/-- A bin change begins: PASS is cleared. `plan` is 0 for BINSET, 1 for a marginal unit, 2 for the cold plate. -/
def startBin (s : State) (f bin plan : Nat) (who : Option (CtxId × Nat)) : State :=
  addWait (updField s f (fun x => { x with pass := false })) { who := who, op := 0xF3, field := f, x := plan, y := 0, arg := bin }

/-- A retest begins. -/
def startTest (s : State) (f plan : Nat) (who : Option (CtxId × Nat)) : State :=
  addWait (updField s f (fun x => { x with state := 3 })) { who := who, op := 0xF4, field := f, x := plan, y := 0, arg := 0 }

def nextBin (s : State) (f : Nat) : Nat := min 3 ((getField s f).bin.toNat + 1)

/-- What waits for a field to be drained goes on: FLDDRAIN is answered, a plan takes its next step. -/
def drainedWait (f : Nat) (s : State) (w : HlWait) : State :=
  match w.arg with
  | 0 => answerHl s w 0
  | 1 => startBin (postInfo s 0x41 f (nextBin s f)) f (nextBin s f) 1 none
  | _ => startBin s f 3 2 none

/-- A field has become DRAINED. -/
def fieldIdle (s : State) (f : Nat) : State :=
  let mine (w : HlWait) : Bool := w.op == 0xF6 && w.field == f
  let l := s.hl.wait.filter mine
  l.foldl (drainedWait f) (updHl s (fun h => { h with wait := h.wait.filter (fun w => !mine w) }))

/-- FIELD_DRAINED. -/
def execFieldDrained (f : Fin 4) (s : State) : Host.Outcome State Fault Refusal :=
  if (getField s f.val).state = 1 ∧ !s.dsp.nodes.any (onField s f.val) then
    .next (fieldIdle (updField s f.val (fun x => { x with state := 2 })) f.val)
  else .next s

/-- A plan's wait: the marginal unit's 1, the cold plate's 2. -/
def ofPlan (f plan : Nat) (w : HlWait) : Bool :=
  w.field == f && ((w.op == 0xF6 && w.arg == plan) || ((w.op == 0xF3 || w.op == 0xF4) && w.x == plan))

/-- A plan begins: the field is drained first, unless it is. -/
def startPlan (s : State) (f plan : Nat) : State :=
  let w : HlWait := { who := none, op := 0xF6, field := f, x := 0, y := 0, arg := plan }
  match (getField s f).state.toNat with
  | 0 => addWait (startDrain s f) w
  | 2 => drainedWait f s w
  | _ => addWait s w

/-- The bin set on a drained field: a marginal unit's field is retested next; the cold plate's is readmitted. -/
def binSet (s : State) (w : HlWait) : State :=
  let f := w.field
  let s1 := addDev (addField (updField s f (fun x => { x with bin := BitVec.ofNat 2 w.arg, pass := false })) f 3 1) 4 1
  match w.x with
  | 1 => startTest s1 f 1 none
  | 2 => updField s1 f (fun x => { x with state := 0 })
  | _ => answerHl s1 w 0

/-- A bin change that finds its field back in service changes nothing (R447): BINSET answers 1, and a plan drains the field anew. -/
def binLate (s : State) (w : HlWait) : State := if w.x = 0 then answerHl s w 1 else startPlan s w.field w.x

/-- BIN_CHANGE_DONE: the bin changes only on a drained field (R447); while it is tested the change waits. -/
def execBinChangeDone (f : Fin 4) (s : State) : Host.Outcome State Fault Refusal :=
  match takeWait s (fun w => w.op == 0xF3 && w.field == f.val) with
  | (none, _) => .next s
  | (some w, s1) => .next (match (getField s f.val).state.toNat with
    | 2 => binSet s1 w
    | 3 => s
    | _ => binLate s1 w)

/-- A cell is out already. -/
def cellOut (x : FieldSt) (px py : Nat) : Bool := x.rows.elem py && x.cols.elem px

/-- The spares allow a cell's bypass. -/
def sparesFor (x : FieldSt) (px py : Nat) : Bool :=
  decide ((setInsert x.rows py).length ≤ 4) && decide ((setInsert x.cols px).length ≤ 4)

/-- A cell's row and column removed, and counted. -/
def removeCell (s : State) (f px py : Nat) : State :=
  addDev (addField (updField s f (fun x => { x with rows := setInsert x.rows py, cols := setInsert x.cols px })) f 2 1) 5 1

/-- Failing cells bypassed while the spares allow: how many, and the state. -/
def bypassAll (f : Nat) : List (Fin 256 × Fin 192) → Nat → State → Nat × State
  | [], n, s => (n, s)
  | (px, py) :: l, n, s =>
    let x := getField s f
    if cellOut x px.val py.val then bypassAll f l (n + 1) s
    else if sparesFor x px.val py.val then bypassAll f l (n + 1) (removeCell s f px.val py.val)
    else bypassAll f l n s

/-- What a retest that ends means for the plan that began it. -/
def testedWait (s : State) (f : Nat) (w : HlWait) (pass : Bool) (word : Nat) : State :=
  if w.x ≠ 1 then answerHl s w word
  else if pass then updField s f (fun x => { x with state := 0 })
  else if (getField s f).bin = 3 then postInfo s 0x42 f 0
  else startBin s f (nextBin s f) 1 none

/-- RETEST_DONE: failing cells are bypassed, and the field is DRAINED again. -/
def execRetestDone (f : Fin 4) (cells : List (Fin 256 × Fin 192)) (others : Nat) (s : State) : Host.Outcome State Fault Refusal :=
  if (getField s f.val).state ≠ 3 then .next s
  else
    let (n, s1) := bypassAll f.val cells 0 s
    let pass := n = cells.length ∧ others = 0
    let s2 := addDev (addField s1 f.val 4 1) 6 1
    let s3 := if pass then s2 else addDev (addField s2 f.val 5 1) 7 1
    let s4 := updField s3 f.val (fun x => { x with state := 2, pass := x.pass || decide pass })
    let word := b2n (decide pass) * 2 ^ 31 + min 255 cells.length * 2 ^ 16 + min 255 n * 2 ^ 8 + min 255 others
    let s5 := match takeWait s4 (fun w => w.op == 0xF4 && w.field == f.val) with
      | (some w, s5) => testedWait s5 f.val w (decide pass) word
      | (none, s5) => s5
    .next (if (getField s5 f.val).state = 2 then fieldIdle s5 f.val else s5)

/-! ### Bypass (R450, R460) -/

/-- The status of a bypass before anything moves. -/
def bypassStatus (s : State) (px py : Nat) : Nat :=
  let x := getField s (siteField (px / 2) (py / 2))
  if 191 < py then 3
  else if x.state = 3 then 4
  else if cellOut x px py then 1
  else if !sparesFor x px py then 2
  else 0

/-- A rectangle's grid would lose a row or column by a bypass. -/
def rectLoses (px py : Nat) (r : Rect) : Bool :=
  rectsMeet r (fieldRect (siteField (px / 2) (py / 2)))
    && ((decide (2 * r.1 ≤ px) && decide (px < 2 * (r.1 + r.2.2.1))) || (decide (2 * r.2.1 ≤ py) && decide (py < 2 * (r.2.1 + r.2.2.2))))

/-- A bypass beneath a node. -/
def bypassHits (px py : Nat) (n : Node) : Bool :=
  match n.exec with
  | some (.region x y w h) => rectLoses px py (x, y, w, h)
  | _ => false

/-- A bypass that may be made: the nodes above it leave first. -/
def startBypass (s : State) (px py : Nat) (who : Option (CtxId × Nat)) : State :=
  addWait (moveNodes s (bypassHits px py)) { who := who, op := 0xF5, field := siteField (px / 2) (py / 2), x := px, y := py, arg := 0 }

/-- A pending bypass over which no node stands. -/
def bypassReady (s : State) (w : HlWait) : Bool := w.op == 0xF5 && !s.dsp.nodes.any (bypassHits w.x w.y)

/-! ### Marginal units (R445) and the cold plate (R455, R475) -/

/-- A field's plan: it is drained and rebinned, and for a marginal unit retested. A field has one plan at a time: while one is under
way a marginal unit starts none, and the cold plate's takes the place of any other (assumption log 82). -/
def rebinField (s : State) (f plan : Nat) : State :=
  if plan = 1 then
    if s.hl.wait.any (fun w => ofPlan f 1 w || ofPlan f 2 w) then s else startPlan s f 1
  else startPlan (updHl s (fun h => { h with wait := h.wait.filter (fun w => !(ofPlan f 1 w || ofPlan f 2 w)) })) f plan

/-- A marginal site, VE or core, and a cell whose field has no spares left. -/
def handleSite (s : State) (f : Nat) : State := if s.hl.autoBin then rebinField s f 1 else s

/-- BYPASS_APPLY. A marginal cell that finds the spares spent is handled as a site (R445). -/
def execBypassApply (s : State) : Host.Outcome State Fault Refusal :=
  match takeWait s (bypassReady s) with
  | (none, _) => .next s
  | (some w, s1) =>
    let st := bypassStatus s1 w.x w.y
    .next (if st = 0 then answerHl (removeCell s1 w.field w.x w.y) w 0
      else if st = 2 ∧ w.who.isNone then handleSite s1 w.field
      else answerHl s1 w st)

/-- MARGINAL_UNIT. -/
def execMarginalUnit (u : UnitName) (s : State) : Host.Outcome State Fault Refusal :=
  let f := unitField u
  let (src, x, y) := unitPlace u
  let s1 := addDev (updField s f (fun z => { z with marginal := z.marginal ++ [u] })) 3 1
  let s2 := postInfo s1 0x40 src (y * 256 + x)
  .next (match u with
    | .memUnit _ => s2
    | .cell px py =>
      if !s2.hl.autoByp then s2
      else
        match bypassStatus s2 px.val py.val with
        | 0 => startBypass s2 px.val py.val none
        | 2 => handleSite s2 f
        | _ => s2
    | _ => handleSite s2 f)

/-- Above 65 °C at the outlet, or 110 °C at the hottest die, in 1/16 °C (R471, R475). -/
def tooHot (temp : Word) : Bool := decide (1040 < wbits temp 15 0) || decide (1760 < wbits temp 31 16)

/-- COLD_PLATE_LIMIT: a reading of the outlet and the hottest die; above a limit every field goes to bin 3. -/
def execColdPlateLimit (temp : Word) (s : State) : Host.Outcome State Fault Refusal :=
  let s1 := { s with mg := { s.mg with temp := temp } }
  .next (if tooHot temp then (List.range 4).foldl (fun s f => rebinField s f 2) (postFatalCode s1 3 temp.toNat) else s1)

/-- HBM_STACK_LOST. -/
def execHbmStackLost (stack : Fin 8) (s : State) : Host.Outcome State Fault Refusal :=
  let s1 := postFatalCode s 2 stack.val
  .next { s1 with mem := { s1.mem with stacksLost := setInsert s1.mem.stacksLost stack.val } }

/-! ### Retirement and layer marks (R451, R441) -/

/-- The operation in progress runs, writes RESULT and clears BUSY. -/
def hlRun (op : Nat) (act : State → Nat → State × Nat) (s : State) : Host.Outcome State Fault Refusal :=
  if s.hl.busy ∧ s.hl.opRun.toNat = op then
    let (s1, r) := act s s.hl.argRun.toNat
    .next (updHl s1 (fun h => { h with busy := false, result := BitVec.ofNat 4 r }))
  else .next s

/-- A frame retired: its lines are discarded and every TLB invalidated. -/
def retireFrame (s : State) (f : Nat) : State :=
  let s1 := { s with mem := { s.mem with dirty := s.mem.dirty.filter (fun d => !(keyTgt d.1 == 0 && keyFrame d.1 == f)) } }
  let s2 := dropTlb (dropBuffer (dropWays s1 true (f * 1024) 1024) f) 0 (2 ^ 39)
  addDev (setFrame s2 f { getFrame s2 f with state := 3 }) 10 1

/-- HL_RETIRE_FRAME. -/
def execHlRetireFrame (s : State) : Host.Outcome State Fault Refusal :=
  hlRun 1 (fun s a =>
    let f := a / 2 ^ 16
    if a % 2 ^ 16 ≠ 0 ∨ !frameExists f then (s, 4)
    else if (getFrame s f).state = 3 then (s, 5)
    else if (getFrame s f).pins ≠ 0 ∨ (getFrame s f).state ≠ 0 then (s, 1)
    else (retireFrame s f, 0)) s

/-- The memory-side unit of a frame number. -/
def frameUnit (f : Nat) : Nat := unitOf (f * 1024)

/-- A unit's addressable frames. -/
def unitFrames (u : Nat) : Nat := 6142 + (if Nat.xor (u % 128) 126 < 64 then 1 else 0)

/-- Retired frames. -/
def retiredFrames (s : State) : List Nat := (s.mem.frames.filter (fun x => x.2.state == 3)).map (·.1)

/-- Where a frame-table frame lies now. -/
def tableAt (s : State) (f : Nat) : Nat := (mapFind s.mem.tables f).getD f

/-- The frame-table frames of a stack that a unit holds: the stack's last 192 frames. -/
def tablesOf (s : State) (u : Nat) : List Nat :=
  ((List.range 192).map (fun j => u / 128 * 2 ^ 20 + 786240 + j)).filter (fun f => frameUnit (tableAt s f) == u)

/-- Retired frames of the stack's other units in service that hold no table frame, lowest first. -/
def tableRoom (s : State) (u : Nat) : List Nat :=
  (retiredFrames s).filter (fun f => f / 2 ^ 20 == u / 128 && frameUnit f != u && !s.mem.unitsOff.elem (frameUnit f)
    && !s.mem.tables.any (fun t => t.2 == f))

/-- HL_RETIRE_PCH. -/
def execHlRetirePch (s : State) : Host.Outcome State Fault Refusal :=
  hlRun 2 (fun s u =>
    if 1024 ≤ u then (s, 4)
    else if s.mem.unitsOff.elem u then (s, 5)
    else if ((retiredFrames s).filter (fun f => frameUnit f == u)).length < unitFrames u then (s, 2)
    else
      let ts := tablesOf s u
      let room := tableRoom s u
      if room.length < ts.length then (s, 3)
      else
        let tables := (ts.zip room).foldl (fun m p => mapPut m p.1 p.2) s.mem.tables
        (addDev { s with mem := { s.mem with tables := tables, unitsOff := setInsert s.mem.unitsOff u } } 11 1, 0)) s

/-- HL_RETIRE_STACK. -/
def execHlRetireStack (s : State) : Host.Outcome State Fault Refusal :=
  hlRun 3 (fun s k =>
    if 8 ≤ k then (s, 4)
    else if s.mem.stacksOff.elem k then (s, 5)
    else if (List.range 128).any (fun u => !s.mem.unitsOff.elem (128 * k + u)) then (s, 2)
    else (addDev { s with mem := { s.mem with stacksOff := setInsert s.mem.stacksOff k } } 12 1, 0)) s

/-- A layer marked bad; a bank's second mark is told. -/
def markLayer (s : State) (b l : Nat) : State :=
  let m := bankMarks s b ||| BitVec.ofNat 6 (2 ^ l)
  let s1 := { s with mem := { s.mem with marks := mapSet 0 s.mem.marks b m } }
  if markCount m = 2 then postInfo (updHl s1 (fun h => { h with layer2 := true })) 0x44 b m.toNat else s1

/-- OP 4 and 5: the bank and layer of an argument, in range. -/
def layerArg (a : Nat) : Option (Nat × Nat) :=
  let b := bits a 13 0
  let l := bits a 18 16
  if 12288 ≤ b ∨ 5 < l then none else some (b, l)

/-- HL_MARK_LAYER. -/
def execHlMarkLayer (s : State) : Host.Outcome State Fault Refusal :=
  hlRun 4 (fun s a =>
    match layerArg a with
    | none => (s, 4)
    | some (b, l) =>
      if (bankMarks s b).getLsbD l then (s, 5)
      else if 2 ≤ markCount (bankMarks s b) then (s, 2)
      else (markLayer s b l, 0)) s

/-- HL_CLEAR_LAYER: the layer's corrected symbols are counted afresh. -/
def execHlClearLayer (s : State) : Host.Outcome State Fault Refusal :=
  hlRun 5 (fun s a =>
    match layerArg a with
    | none => (s, 4)
    | some (b, l) =>
      if !(bankMarks s b).getLsbD l then (s, 2)
      else
        let s1 := { s with mem := { s.mem with marks := mapSet 0 s.mem.marks b (bankMarks s b &&& ~~~(BitVec.ofNat 6 (2 ^ l))) } }
        (updHl s1 (fun h => { h with layerCounts := mapErase h.layerCounts (8 * b + l) }), 0)) s

/-- LAYER_AUTO_MARK. -/
def execLayerAutoMark (bank : Fin 12288) (layer : Fin 6) (s : State) : Host.Outcome State Fault Refusal :=
  .next (if (bankMarks s bank.val).getLsbD layer.val || decide (2 ≤ markCount (bankMarks s bank.val)) then s
    else markLayer s bank.val layer.val)

/-- CE_THRESHOLD. -/
def execCeThreshold (frame : Nat) (s : State) : Host.Outcome State Fault Refusal := .next (postInfo s 0x45 frame (frame / 2 ^ 20))

/-- MEMORY_SOFT_ERROR: a symbol that an inversion by 0 leaves as it is, is not corrupted, nor one of a line that the banks do not
hold: a global line that is not valid in its home ways, a region part on a core. An entry of the channel unit then differs from its CRC
(R341); a FREE entry is written whole before it is used again. -/
def execMemorySoftError (e : SoftErr) (s : State) : Host.Outcome State Fault Refusal :=
  let (k, real) := match e with
    | .sram b _ _ f => (b, f != 0 && (keyTgt b == 3 || resident s b))
    | .region c part b _ _ f => (b, f != 0 && (partBank s c part b).isSome)
    | .hbm b _ => (b, true)
    | .channel _ => (0, false)
  .next (match e with
    | .channel ch =>
      let c := getChan s ch.val
      if c.state = chFree then s else setChan s ch.val { c with bad := true }
    | _ => if real then { s with mem := { s.mem with soft := s.mem.soft ++ [{ block := k, err := e }] } } else s)

/-! ### Group 0xF (R456 to R460) -/

/-- A privileged command of group 0xF on slot a. -/
def healthFiring (t : Tgt) (sl : List Slot) (bad : List (Target × Token)) (act : State → Env → Operands → Act) : Firing :=
  { triggered t (privileged (fun _ _ s e o => if slotsPsn o sl then .emit s bad else act s e o)) with
    slots := sl
    joins := sl
    cmd := true
    resume := fun s _ p => if p.step = 2 then status t s p.val.toNat else .wait s }

/-- The thirteen words of a log entry. -/
def recordWords (r : HealthRec) : List Word :=
  let b := r.payload.foldl (fun l p => overwrite l p.1 (leBytes p.2.1 p.2.2)) (List.replicate 64 0)
  [r.seq, BitVec.ofNat 32 (r.kind + (r.src % 16 + r.field % 4 * 16) * 2 ^ 8 + r.x % 256 * 2 ^ 16 + r.y % 256 * 2 ^ 24), r.node]
    ++ (List.range 10).map (fun j => recWord b (0x10 + 4 * j))

def findRecord (s : State) (seq : Word) : Option HealthRec :=
  if seq = 0 then s.hl.log.getLast? else s.hl.log.find? (fun r => r.seq == seq)

def noRecord (t : Tgt) : List (Target × Token) := seqAll (tgt1 t) (List.replicate 13 (scalarTok 0 true))

/-- MCREAD. -/
def execMcread (t : Tgt) (s : State) : Host.Outcome State Fault Refusal :=
  runUnit s (fun _ => healthFiring t slotsA (noRecord t) (fun s _ o =>
    match findRecord s o.a.word with
    | some r => .emit s (seqAll (tgt1 t) ((recordWords r).map (fun v => scalarTok v false)))
    | none => .emit s (noRecord t)))

/-- ECNTR: `.clr` clears in the step that reads. -/
def execEcntr (t : Tgt) (clr : Bool) (s : State) : Host.Outcome State Fault Refusal :=
  runUnit s (fun _ => healthFiring t slotsAB (poisonedNothing t) (fun s _ o =>
    match selectCounter s o.a.word o.b.word with
    | none => status t (badSelector s) 0
    | some k => .emit (if clr then counterClear s k else s) (result (tgt1 t) (counterValue s k) false)))

/-- The injection that three pool words describe. -/
def injectWords (i0 count node : Word) : Inject :=
  { tkind := wbits i0 31 28, lane := wbits i0 27 24, layer := wbits i0 23 20, x := wbits i0 7 0, y := wbits i0 15 8,
    left := count.toNat, node := node }

/-- The target exists, and LANE and LAYER are used or zero. -/
def injectOk (j : Inject) : Bool :=
  let inside (w h : Nat) : Bool := decide (j.x < w) && decide (j.y < h)
  let place := match j.tkind with
    | 0 | 4 | 6 | 7 => inside 128 96
    | 1 | 2 => inside 256 192
    | 3 => inside 64 48
    | 5 => inside 128 8
    | _ => false
  place && j.left != 0 && (j.lane == 0 || j.tkind == 1 || j.tkind == 3) && (if j.tkind = 6 then decide (j.layer ≤ 5) else j.layer == 0)

/-- EINJ. -/
def execEinj (t : Tgt) (k : Fin 256) (off : Bool) (s : State) : Host.Outcome State Fault Refusal :=
  runUnit s (fun _ => healthFiring t slotsA (poisonedNothing t) (fun s e _ =>
    if off then status t (updHl s (fun h => { h with inj := [] })) 0
    else
      let j := injectWords (poolWord e.win k.val) (poolWord e.win (k.val + 1)) (poolWord e.win (k.val + 2))
      if !s.hl.test then status t s 1
      else if !injectOk j then status t s 2
      else if 4 ≤ s.hl.inj.length then status t s 3
      else status t (updHl s (fun h => { h with inj := h.inj ++ [j] })) 0))

def operandField (o : Operands) : Nat := wbits o.a.word 1 0

/-- BINSET. -/
def execBinset (t : Tgt) (s : State) : Host.Outcome State Fault Refusal :=
  runUnit s (fun _ => healthFiring t slotsA (poisonedNothing t) (fun s e o =>
    let f := operandField o
    if (getField s f).state ≠ 2 then status t s 1
    else .hold (startBin s f (wbits o.a.word 5 4) 0 (some (e.c, e.i))) (pendOf o 0 0 1)))

/-- RETEST. -/
def execRetest (t : Tgt) (s : State) : Host.Outcome State Fault Refusal :=
  runUnit s (fun _ => healthFiring t slotsA (poisonedNothing t) (fun s e o =>
    let f := operandField o
    if (getField s f).state ≠ 2 then status t s 0x40000000
    else .hold (startTest s f 0 (some (e.c, e.i))) (pendOf o 0 0 1)))

/-- BYPASS. -/
def execBypass (t : Tgt) (s : State) : Host.Outcome State Fault Refusal :=
  runUnit s (fun _ => healthFiring t slotsA (poisonedNothing t) (fun s e o =>
    let px := wbits o.a.word 7 0
    let py := wbits o.a.word 15 8
    let st := bypassStatus s px py
    if st ≠ 0 then status t s st else .hold (startBypass s px py (some (e.c, e.i))) (pendOf o 0 0 1)))

/-- FLDDRAIN. -/
def execFlddrain (t : Tgt) (s : State) : Host.Outcome State Fault Refusal :=
  runUnit s (fun _ => healthFiring t slotsA (poisonedNothing t) (fun s e o =>
    let f := operandField o
    if (getField s f).state ≠ 0 then status t s 1
    else
      .hold (addWait (startDrain s f) { who := some (e.c, e.i), op := 0xF6, field := f, x := 0, y := 0, arg := 0 }) (pendOf o 0 0 1)))

/-- FLDADMIT. -/
def execFldadmit (t : Tgt) (s : State) : Host.Outcome State Fault Refusal :=
  runUnit s (fun _ => healthFiring t slotsA (poisonedNothing t) (fun s _ o =>
    let f := operandField o
    let x := getField s f
    if x.state ≠ 2 then status t s 1
    else if !x.pass then status t s 2
    else status t (updField s f (fun x => { x with state := 0 })) 0))

end Sys2Proof.Machine
end

