-- ==== Sys2Proof/Machine/Boot.lean ====
section
/-! DEFINITION. The module's reset (R1), bring-up in its stages (R472, R473) and the attestation report (R474). -/

namespace Sys2Proof.Machine

/-! ### Stages -/

def updMg (s : State) (f : Mgmt → Mgmt) : State := { s with mg := f s.mg }

/-- A stage has passed: the next one starts. -/
def toStage (s : State) (n : Nat) : State := updMg s (fun m => { m with stage := BitVec.ofNat 4 n })

/-- Bring-up fails and stops. -/
def bootFails (s : State) : State := updMg s (fun m => { m with stage := 15, halted := true })

/-- The work of stage `n` ends: with its effect, or in failure. A stage that is not in progress has no work. -/
def stageEnds (s : State) (n : Nat) (ok : Bool) (work : State → State) : State :=
  if s.mg.off || s.mg.stage.toNat ≠ n then s
  else if ok then toStage (work s) (n + 1)
  else bootFails s

/-- Reset held: every part off; the flash and the hosts keep what they hold. -/
def powerOff (s : State) : State :=
  let m := { Mgmt.init with imageA := s.mg.imageA, imageB := s.mg.imageB, off := true }
  let r := { Run.init with sweep := s.run.sweep, free := s.run.free, inputs := s.run.inputs, toHost := s.run.toHost, toPeer := s.run.toPeer }
  { State.reset with run := r, mg := m, mem := { Mem.init with host0 := s.mem.host0, host1 := s.mem.host1 } }

/-- MODULE_RESET: released, stage 1 begins. -/
def execModuleReset (hold : Bool) (s : State) : Host.Outcome State Fault Refusal :=
  .next (if hold then powerOff s else updMg s (fun m => { m with off := false, stage := if m.off then 1 else m.stage }))

/-! ### Stage 1: the images (R473) -/

def imageOf (s : State) (slot : Nat) : Store := if slot = 0 then s.mg.imageA else s.mg.imageB

def imageLenOf (m : Store) : Nat := leNat (m.readBytes 8 4)

/-- An image that verifies under the key slot that it names. -/
def imageGood (m : Store) : Bool :=
  let len := imageLenOf m
  let key := leNat (m.readBytes 0x14 1)
  decide (key < 4) && headerGood m len key && signatureGood m len key

/-- The slot in use: of the images that verify the one with the higher VERSION, A on a tie. -/
def bootSlot (s : State) : Option Nat :=
  match imageGood s.mg.imageA, imageGood s.mg.imageB with
  | false, false => none
  | true, false => some 0
  | false, true => some 1
  | true, true => some (b2n (decide ((imageVersion s.mg.imageA).toNat < (imageVersion s.mg.imageB).toNat)))

/-- BOOT_IMAGE_VERIFY: stage 1 begins, where the release of the reset has not begun it, and then ends (R472). -/
def execBootImageVerify (s : State) : Host.Outcome State Fault Refusal :=
  .next (if s.mg.off || 1 < s.mg.stage.toNat then s
    else if s.mg.stage = 0 then toStage s 1
    else
      match bootSlot s with
      | none => bootFails s
      | some k =>
        let m := imageOf s k
        updMg s (fun g => { g with stage := 2, slot := BitVec.ofNat 4 k, measure := Config.shake256 64 (m.readBytes 0 (imageLenOf m - 128)) }))

/-! ### Stages 2 to 6 -/

/-- HBM_TRAIN: the frame table's entries are set normal. -/
def execHbmTrain (ok : Bool) (s : State) : Host.Outcome State Fault Refusal :=
  .next (stageEnds s 2 ok (fun s =>
    (s.mem.frames.map (·.1)).foldl (fun s f => setFrame s f { getFrame s f with ms := false, state := 0, pins := 0 }) s))

/-- SRAM_TEST: layer marks set, every bank cleared. -/
def execSramTest (ok : Bool) (marks : List (Fin 12288 × Fin 6)) (s : State) : Host.Outcome State Fault Refusal :=
  .next (stageEnds s 3 ok (fun s =>
    let s1 := { s with mem := { s.mem with ways := [], dirty := [], soft := [], marks := [] }, chu := { s.chu with pool := Store.empty, tags := [] } }
    marks.foldl (fun s p => markLayer s p.1.val p.2.val) s1))

/-- The signed bytes of the image in use. -/
def bootBytes (s : State) : List Byte :=
  let m := imageOf s s.mg.slot.toNat
  m.readBytes 0 (imageLenOf m - 128)

/-- A field's removed rows or columns of the boot map: at most 4, each of the field (R450). -/
def bootMap (lo n : Nat) (l : List Nat) : List Nat := (((l.filter (fun p => decide (lo ≤ p) && decide (p < lo + n))).eraseDups).take 4).foldl setInsert []

/-- BIN_LOAD_RETEST: each field's bin and bypass map come from the image, and it passes its retest. -/
def execBinLoadRetest (ok : Bool) (s : State) : Host.Outcome State Fault Refusal :=
  .next (stageEnds s 4 ok (fun s =>
    let image := bootBytes s
    (List.range 4).foldl (fun s f =>
      let r := fieldRect f
      updField s f (fun x =>
        { x with state := 0, pass := true, bin := Config.bootBin image f
                 rows := bootMap (2 * r.2.1) (2 * r.2.2.2) (Config.bootRows image f)
                 cols := bootMap (2 * r.1) (2 * r.2.2.1) (Config.bootCols image f) })) s))

/-- A core's F0 starts at ENTRY. -/
def startCore (s : State) (c : Nat) : State :=
  updCore s c (fun k => { k with f0 := dueWin (imageEntry s c), tvec := imageTrapd s c, fwver := imageVersion s.fw.active })

/-- FIRMWARE_INSTALL. -/
def execFirmwareInstall (s : State) : Host.Outcome State Fault Refusal :=
  .next (stageEnds s 5 true (fun s =>
    let s1 := { s with fw := { s.fw with active := imageOf s s.mg.slot.toNat } }
    (List.range 16).foldl startCore s1))

/-- A host port's link trained: its rate and width are free. -/
def trainHost (s : State) (port : Fin 2) : State :=
  let (f, s1) := takeFree s
  let v := (Config.freeLine f).toNat
  updHp s1 port (fun h => { h with linkUp := true, rate := BitVec.ofNat 4 (1 + v % 6), width := BitVec.ofNat 5 (2 ^ (v / 8 % 5)) })

/-- LINK_TRAIN: then the module is READY. -/
def execLinkTrain (ok : Bool) (s : State) : Host.Outcome State Fault Refusal :=
  .next (stageEnds s 6 ok (fun s =>
    let s1 := trainHost (trainHost s 0) 1
    { s1 with pr := s1.pr.map (fun q => { q with up := q.en, training := false }) }))

/-! ### Attestation (R474) -/

/-- Bytes 0x00 to 0x8B. -/
def reportBody (s : State) : List Byte :=
  let head := leBytes 2 0xD9A7 ++ leBytes 1 1 ++ List.replicate 5 0 ++ leBytes 8 s.mg.nonce.toNat ++ (s.mg.measure ++ List.replicate 64 0).take 64
    ++ leBytes 4 (getCore s 0).fwver.toNat ++ leBytes 4 s.fw.stgver.toNat ++ (Config.moduleId ++ List.replicate 8 0).take 8
  head ++ List.replicate (0x8C - head.length) 0

def reportBytes (s : State) : List Byte :=
  let b := reportBody s
  b ++ (Config.ed448Sign b ++ List.replicate 114 0).take 114 ++ [0, 0]

/-- Four blocks written at `.sys`. -/
def putReport (s : State) (pa : Nat) (bs : List Byte) : State :=
  (List.range 4).foldl (fun s j => putImage s (lineKey 0 (pa + 64 * j)) ((bs.drop (64 * j)).take 64)) s

/-- MG_ATTEST: the report written, or its address refused. -/
def execMgAttest (s : State) : Host.Outcome State Fault Refusal :=
  let pa := s.mg.atpa.toNat
  .next (if !s.mg.atBusy then s
    else if pa % 256 = 0 ∧ paExists pa then updMg (putReport s pa (reportBytes s)) (fun m => { m with atBusy := false, atResult := 0 })
    else updMg s (fun m => { m with atBusy := false, atResult := 1 }))

end Sys2Proof.Machine
end

