-- ==== Sys2Proof/Machine/Checks.lean ====
section
/-! DEFINITION. What the checks of a block's load say of its instructions (R69, R70, R77, R80, R84, R85): the slots each
consumes, its targets, its memory port, its circuits, and the pairings across a block. -/

namespace Sys2Proof.Machine

/-! ### Fields of a configuration word -/

def wordOp (w : Word) : Nat := wbits w 31 24

/-- Opcodes of the D format with two targets (R83). -/
def twoTargets (op : Nat) : Bool :=
  [0x01, 0x03, 0x04, 0x05, 0x6A, 0x6B, 0x87].elem op || (op / 16 == 1 && op != 0x12 && op != 0x1E)
    || (op / 16 == 2 && op != 0x2C && op != 0x2E) || op / 16 == 3 || (op / 16 == 4 && op != 0x46 && op != 0x47)

/-- Opcodes with a predication field in mod[5:4] (R78). -/
def predOp (op : Nat) : Bool := (twoTargets op && op != 0x03 && op != 0x04) || op == 0x0F || op == 0xB1

/-- A word that no definition covers (R81, R83). -/
def unassignedWord (x : Word) : Bool :=
  match decodeBytes (wordBytes x.toNat) with
  | .error .unassigned => true
  | _ => false

/-- The targets of an instruction: its fields, and FANK's that its pool words name (R136). They are read from the word's own fields,
whatever its modifiers; an unassigned word has none (R81, R83). -/
def plainTargets (w : Window) (x : Word) : List Target :=
  if unassignedWord x then []
  else
    (readTgt (wbits x 23 15)).toList ++ (if twoTargets (wordOp x) then (readTgt (wbits x 14 6)).toList else [])
      ++ (if wordOp x = 0x02 then fankTargets w none (Fin.ofNat 256 (wbits x 14 7)) (Fin.ofNat 8 (wbits x 2 0)) else [])

/-- The target of a converter's count tokens (R293). -/
def countTarget (w : Window) (x : Word) : List Target :=
  if wordOp x = 0x98 ∨ wordOp x = 0x9F then (countCfg (poolWord w (wbits x 14 7 + 1))).ctgt.toList else []

/-- Every target field of an instruction (R77). -/
def targetsOf (w : Window) (x : Word) : List Target := plainTargets w x ++ countTarget w x

/-- Opcodes that consume slots a and b, and a, b and c. -/
def opAB (op : Nat) : Bool :=
  [0x05, 0x10, 0x11, 0x13, 0x14, 0x16, 0x17, 0x18, 0x19, 0x20, 0x21, 0x22, 0x23, 0x24, 0x25, 0x26, 0x29, 0x2B, 0x2F].elem op
  || [0x30, 0x31, 0x32, 0x34, 0x35, 0x37, 0x38, 0x3F, 0x42, 0x44, 0x48, 0x4B, 0x4E, 0x55, 0x57, 0x60, 0x62, 0x69, 0x6B].elem op
  || [0x87, 0x90, 0x91, 0x92, 0x94, 0x95, 0x96, 0xC2, 0xC3, 0xE9, 0xEA, 0xF1].elem op

def opABC (op : Nat) : Bool :=
  [0x15, 0x1C, 0x1D, 0x1F, 0x2A, 0x2D, 0x33, 0x4A, 0x61, 0x68, 0x93, 0x97, 0xC1].elem op

/-- The operand slots of a stream instruction: a unless AUTO, b with REB. STS and STB VARIANT 00 take data on a. -/
def streamSlots (d : StreamDesc) (data : Bool) : List Slot :=
  (if d.auto && !data then [] else [.a]) ++ (if d.reb then [.b] else [])

/-- The instruction of a word whose modifier or space is illegal: what it is with those bits zero. -/
def instrLike (x : Word) : Option Instr :=
  [0, 0x180, 0x3F, 0x7F, 0x1FF].findSome? (fun m => instrOf (x &&& ~~~(BitVec.ofNat 32 m)))

/-- The consumed slots of an instruction (R77), of a word with an illegal modifier as of its opcode's definition. -/
def slotsOf (w : Window) (x : Word) : List Slot :=
  let op := wordOp x
  let base : List Slot :=
    match instrLike x with
    | some (.steer ..) => [.a, .p]
    | some (.merge ..) => [.a, .b, .p]
    | some (.lds _ k) | some (.agen _ k _ _) | some (.ldb _ k _) => streamSlots (streamDesc w k.val) false
    | some (.sts _ k) => streamSlots (streamDesc w k.val) true
    | some (.stb _ k b) => streamSlots (streamDesc w k.val) (!b)
    | some (.pop _ _ trig) => if trig then [.a] else []
    | some (.mma _ _ _ src _) | some (.mmao _ _ _ src _) => if src = .skew then [] else [.a]
    | some (.copy _ _ _ ofs) => if ofs then slotsAB else slotsA
    | some (.vperm _ _ pool _) => if pool then slotsA else slotsAB
    | some (.matom _ _ o) => if o.val < 12 then slotsAB else slotsABC
    | some (.mcnt _ _ o) => if o.val = 0 then slotsAB else slotsA
    | _ => if unassignedWord x then [] else if opABC op then slotsABC else if opAB op then slotsAB else slotsA
  base ++ (if predOp op && !unassignedWord x && (wbits x 5 4 = 1 || wbits x 5 4 = 2) then [.p] else [])

/-- Slots that take part in the marker join of a memory instruction (R28, R213, R477). -/
def joinSlotsOf (w : Window) (x : Word) : List Slot :=
  match instrOf x with
  | some (.lds ..) | some (.agen ..) | some (.ldb ..) | some (.sts ..) | some (.stb ..) => (slotsOf w x).erase .b
  | _ => slotsOf w x

/-- A memory instruction (R70): M format, or K format of groups 0x5 and 0xC. -/
def isMemWord (x : Word) : Bool := isPortOp (wordOp x)

/-- An instruction that emits vector tokens; POP and PEEK by their channel's ESZ (R19). -/
def emitsVec (s : State) (w : Window) (x : Word) : Bool :=
  let chan (ep : Nat) : Bool := (getChan s (wbits (nth 0 w.ends ep) 11 0)).esz
  match instrOf x with
  | some (.ldb _ _ b) => !b
  | some (.mmao _ k _ _ _) => !(drainFmt (poolWord w (k.val + 1))).dst
  | some (.accdr _ k _ _) => !(drainFmt (poolWord w (k.val + 1))).dst
  | some (.vred _ _ _ _ _ vec) => vec
  | some (.pop _ ep _) | some (.peek _ ep) => chan ep.val
  | _ => wordOp x / 16 == 9

/-- A slot that takes vector tokens. -/
def takesVec (s : State) (w : Window) (x : Word) (sl : Slot) : Bool :=
  match instrOf x with
  | some (.stb _ _ b) => !b && sl == .a
  | some (.wload _ _ strm _) => strm && sl == .a
  | some (.mma _ _ _ src _) | some (.mmao _ _ _ src _) => src == .strm && sl == .a
  | some (.mred ..) => sl == .b
  | some (.push _ ep _) => sl == .a && (getChan s (wbits (nth 0 w.ends ep.val) 11 0)).esz
  | some (.vadd _ _ bb) | some (.vsub _ _ bb) | some (.vmul _ _ bb) | some (.vmin _ _ bb) | some (.vmax _ _ bb)
  | some (.vcmp _ _ _ bb) => sl == .a || (sl == .b && !bb)
  | some (.vfma _ _ bc bb) | some (.vsel _ _ bc bb) => sl == .a || (sl == .b && !bb) || (sl == .c && !bc)
  | some (.vbcst _ _ _ fromv) => fromv && sl == .a
  | _ => wordOp x / 16 == 9

/-! ### Check 4 (R77, R80, and the pairings) -/

/-- Every target field of the block: producer, slot and index. -/
def allTargets (w : Window) : List (Nat × Target) :=
  w.code.zipIdx.flatMap (fun (x, i) => (targetsOf w x).map (fun t => (i, t)))

/-- A violation's index: the higher one involved. -/
def highest (l : List Nat) : Option Nat := l.foldl (fun acc x => match acc with
  | none => some x
  | some y => some (max x y)) none

/-- Consumed slots without exactly one producer. -/
def badProducers (w : Window) : List Nat :=
  let ts := allTargets w
  w.code.zipIdx.flatMap (fun (x, i) =>
    (slotsOf w x).flatMap (fun sl =>
      let ps := ts.filter (fun p => p.2.slot == sl && p.2.index.val == i)
      if ps.length = 1 then [] else [max i ((highest (ps.map (·.1))).getD 0)]))

/-- Of each key that two or more hold, the highest index that holds it. -/
def badPairs (l : List (Nat × Nat)) : List Nat :=
  (l.filter (fun p => l.any (fun q => q.1 == p.1 && decide (q.2 < p.2)) && !l.any (fun q => q.1 == p.1 && decide (p.2 < q.2)))).map (·.2)

/-- The keys of a block's words by index. They are read from the words' own fields: a word that is illegal otherwise, which
check 7 finds later, takes its place in check 4. -/
def keyed (w : Window) (f : Word → Option Nat) : List (Nat × Nat) :=
  w.code.zipIdx.filterMap (fun (x, i) => (f x).map (fun k => (k, i)))

/-- Opcodes of the M format (R83). -/
def isMOp (op : Nat) : Bool :=
  [0x56, 0x57, 0x58, 0x59, 0x60, 0x61, 0x62, 0x63, 0x64, 0x68, 0x69, 0x77, 0x78, 0x79, 0x7A, 0x7B, 0xC0, 0xC1, 0xC2, 0xC4, 0xE4].elem op

/-- The seq of an ordered M-format word (R80). -/
def seqKey (x : Word) : Option Nat := if isMOp (wordOp x) && !wbit x 6 then some (wbits x 14 9) else none

/-- The word that a PUTW records (R147). -/
def putwKey (x : Word) : Option Nat := if wordOp x = 0x0B then some (wbits x 5 0) else none

/-- The array of an MMA or MMAO (R266). -/
def mmaKey (x : Word) : Option Nat := if wordOp x = 0x84 ∨ wordOp x = 0x85 then some (wbits x 1 0) else none

/-- The endpoint of a POP or POPB, and of a PUSH or PUSHB (R347). -/
def endKey (w : Window) (elem blk : Nat) (x : Word) : Option Nat :=
  if wordOp x = elem then some (wbits x 14 6) else if wordOp x = blk then some (chepWord w (wbits x 14 7)).2 else none

def popKey (w : Window) : Word → Option Nat := endKey w 0xB2 0xB4

def pushKey (w : Window) : Word → Option Nat := endKey w 0xB1 0xB3

/-- The array that a converter with CDR claims (R295). -/
def claimKey (w : Window) (x : Word) : Option Nat :=
  let c := poolWord w (wbits x 14 7 + 1)
  if (wordOp x = 0x98 ∨ wordOp x = 0x9F) ∧ wbit c 31 then some (wbits c 30 29) else none

/-- The producers of a slot. -/
def producersOf (w : Window) (i : Nat) (sl : Slot) : List Nat :=
  (allTargets w).filterMap (fun p => if p.2.slot = sl ∧ p.2.index.val = i then some p.1 else none)

/-- A REB slot fed by another instruction than AGCFG (R213). -/
def badReb (w : Window) : List Nat :=
  w.code.zipIdx.flatMap (fun (x, i) =>
    if 0x50 ≤ wordOp x ∧ wordOp x ≤ 0x54 ∧ (streamDesc w (wbits x 14 7)).reb then
      ((producersOf w i .b).filter (fun p => wordOp (nth 0 w.code p) != 0x55)).map (max i)
    else [])

/-- A word that drains array `n` to tokens: an MMAO or ACCDR of it with DST 0. -/
def drainsTo (w : Window) (n : Nat) (x : Word) : Bool :=
  (wordOp x == 0x85 || wordOp x == 0x88) && wbits x 1 0 == n && !(drainFmt (poolWord w (wbits x 14 7 + 1))).dst

/-- A claiming converter not fed by the MMAO or ACCDR of its array with DST 0 (R295). -/
def badClaims (w : Window) : List Nat :=
  (keyed w (claimKey w)).flatMap (fun (n, i) =>
    ((producersOf w i .a).filter (fun p => !drainsTo w n (nth 0 w.code p))).map (max i))

/-- Check 4: the index that the record names, when a pairing fails. Where several fail, the manual does not say which the
record names: the first in the order of this list, and of one kind the first found by index (assumption log 71). -/
def pairingFault (w : Window) : Option Nat :=
  let first (l : List Nat) : Option Nat := l.head?
  (first (badProducers w)).or ((first (badPairs (keyed w seqKey))).or ((first (badPairs (keyed w putwKey))).or
    ((first (badReb w)).or ((first (badPairs (keyed w mmaKey))).or ((first (badClaims w)).or
      ((first (badPairs (keyed w (claimKey w)))).or ((first (badPairs (keyed w (popKey w)))).or
        (first (badPairs (keyed w (pushKey w)))))))))))

/-! ### Check 2 (R66, R68, R69, R72, R74, R242) -/

def isFuse (x : Word) : Bool := wordOp x == 0x80

def headerOk (w : Window) (nres : Nat) (padZero : Bool) : Bool :=
  let tmp := winTmp w
  let h0 := w.h0
  wbits h0 7 0 == 1
    && (if tmp then winWs w == 0 && winHs w == 0 && winCw w == 0 && !wbit w.h2 20 && winSplit w == 0
        else decide (1 ≤ winHs w) && decide (winHs w ≤ 96) && decide (1 ≤ winWs w) && decide (winWs w ≤ 128))
    && wbit w.h1 23 == (w.persist != 0)
    && (winCommit w == 15 || decide (winCommit w ≤ 6 ∧ winCommit w ≤ winTerm w)) && decide (winTerm w ≤ 6)
    && (if winCw w = 0 then winCh w == 0 else decide (1 ≤ winCh w ∧ winCh w ≤ 184)) && decide (winCw w ≤ 248)
    && wbits w.h2 31 21 == 0 && decide (winSplit w ≤ 12) && nres == 4 + w.ends.length && padZero
    && (!tmp || w.place.all (· == 0))

def trailerOk (w : Window) (t3 : Word) : Bool :=
  let ve := winCw w != 0 || w.code.any (fun x => wordOp x / 16 == 9)
  w.scratch.toNat % 256 == 0 && w.persist.toNat % 256 == 0 && decide (w.persist.toNat ≤ w.scratch.toNat)
    && wbits w.t2 31 24 == (w.code.filter isMemWord).length
    && (if ve then decide (1 ≤ winNve w) else winNve w == 0)
    && (winCw w != 0 || winAccRows w == 0)
    && wbits t3 31 8 == 0 && wbits t3 7 0 == w.ends.length && decide (w.ends.length ≤ 251)
    && w.ends.all (fun x => wbits x 31 13 == 0) && w.ends.eraseDups.length == w.ends.length
    && (winCw w == 0 || w.code.any isFuse || decide ((winCw w + 3) / 4 ≤ winNve w))

/-! ### Check 3 (R15, R84) -/

/-- Privileged opcodes (R84): "every opcode" of groups 0xE and 0xF is read to take in the unassigned ones, so that one in a node's
block fails check 3 with cause 5 and not check 7 with cause 1 (assumption log 71). -/
def isPrivOp (op : Nat) : Bool :=
  op == 0xC5 || op / 16 == 15 || (op / 16 == 14 && op != 0xE6 && op != 0xE7 && op != 0xE8)

/-- Opcodes and TMP against the executor: a region, a core, or the firmware. -/
def opcodesOk (w : Window) (onCore firmware : Bool) : Bool :=
  (onCore || !winTmp w) && (winTmp w || !w.code.any (fun x => wordOp x / 16 == 14))
    && (firmware || !w.code.any (fun x => isPrivOp (wordOp x)))

/-! ### Check 6: offsets, selvedge and circuits (R69, R70, R19, R82) -/

def onSelvedge (w : Window) (i : Nat) : Bool :=
  winDx w i == 0 || winDx w i + 1 == winWs w || winDy w i == 0 || winDy w i + 1 == winHs w

def offsetsOk (w : Window) : Bool :=
  w.code.zipIdx.all (fun (x, i) => decide (winDx w i < winWs w) && decide (winDy w i < winHs w) && (!isMemWord x || onSelvedge w i))
    && (w.place.take w.code.length).eraseDups.length == w.code.length

/-- The links of a circuit, each as its west or north site and its direction: 0 east, 1 west, 2 south, 3 north. -/
def circuitLinks (x0 y0 x1 y1 : Nat) : List (Nat × Nat × Nat) :=
  (List.range (x1 - x0)).map (fun d => (x0 + d, y0, 0)) ++ (List.range (x0 - x1)).map (fun d => (x1 + d, y0, 1))
    ++ (List.range (y1 - y0)).map (fun d => (x1, y0 + d, 2)) ++ (List.range (y0 - y1)).map (fun d => (x1, y1 + d, 3))

/-- The networks that carry circuits: scalar tokens, vector tokens, the pulses of OSEND (R19, R233). -/
inductive Net where
  | scalar | vector | pulse
  deriving DecidableEq, Repr

/-- Circuits of one direction of a link. -/
def Net.room : Net → Nat
  | .scalar => 8
  | .vector => 4
  | .pulse => 16

/-- The circuits of an instruction on a network, by the instruction that each leads to: one to each target (R82). -/
def circuitsOf (s : State) (w : Window) (n : Net) (x : Word) : List Nat :=
  let main : Net := if wordOp x = 0x6A then .pulse else if emitsVec s w x then .vector else .scalar
  (if n = main then (plainTargets w x).map (fun t => t.index.val) else [])
    ++ (if n = .scalar then (countTarget w x).map (fun t => t.index.val) else [])

def blockLinks (s : State) (w : Window) (n : Net) : List (Nat × Nat × Nat) :=
  w.code.zipIdx.flatMap (fun (x, i) =>
    (circuitsOf s w n x).flatMap (fun j => circuitLinks (winDx w i) (winDy w i) (winDx w j) (winDy w j)))

/-- No direction of a link carries more circuits than it can. -/
def linksFit (l : List (Nat × Nat × Nat)) (n : Nat) : Bool :=
  l.eraseDups.all (fun x => decide ((l.filter (· == x)).length ≤ n))

def circuitsOk (s : State) (w : Window) : Bool := [Net.scalar, .vector, .pulse].all (fun n => linksFit (blockLinks s w n) n.room)

/-- Every vector instruction lies over a reserved VE (R276). -/
def vesOk (w : Window) : Bool :=
  w.code.zipIdx.all (fun (x, i) => wordOp x / 16 != 9
    || decide (winDy w i / 2 * ((winWs w + 1) / 2) + winDx w i / 2 < winNve w))

/-- A block that a control core can run: no cells and no VEs (R67), so no vector instruction either, TMP set or not (R276). -/
def coreBlock (w : Window) : Bool := winCw w == 0 && winNve w == 0

/-- A block as a core runs it: its placement table is ignored (R67), every hop count is 0 (R82), and check 7 takes its units by
index, as a core has no sites to order them by (assumption log 71). -/
def coreWindow (w : Window) : Window := { w with place := w.place.map (fun _ => 0) }

end Sys2Proof.Machine
end

