-- ==== Sys2Proof/Machine/Sea.lean ====
section
/-! DEFINITION. Group 0x8, the systolic sea (R261 to R273). A row is accepted, computed and delivered in one step, so no
accumulator operation falls between two of its passes (R255). -/

namespace Sys2Proof.Machine

/-- A unit that acts by its own rule on the unit in focus. -/
def runSea (s : State) (f : Env → State) : Host.Outcome State Fault Refusal :=
  match focusEnv s with
  | none => .fault .noUnit
  | some e =>
    .next (if e.u.blk then s else if mustPump e.win e.i e.u then updWin s e.c (fun w => pumpOut w e.i) else f e)

/-- The unit's sea state changed. -/
def updSeaUnit (s : State) (e : Env) (f : SeaUnit → SeaUnit) : State :=
  updUnit s e.c e.i (fun u => { u with sea := f u.sea })

/-- The token at slot a taken. -/
def takeA (s : State) (e : Env) : State := updUnit s e.c e.i (fun u => { popSlot u .a with fired := u.fired + 1 })

/-- A token at slot a met by an instruction whose array is not fused (R261). -/
def unfusedTake (s : State) (e : Env) (t : Tgt) (tok : Token) : State :=
  if !roomFor e (tgt1 t) then s
  else
    let s1 := updSeaUnit (takeA s e) e (fun v => { v with blocks := [], loading := false })
    if tok.isMk then
      sendFrom (updUnit s1 e.c e.i (markSeen e.win t.isNone false tok.rank.val)) e (toAll (tgt1 t) tok)
    else sendFrom (addCount s1 e.c cntPoison 1) e (poisonZero (tgt1 t))

/-- The head of slot a handed on, once it is sound (R24). -/
def withHead (s : State) (e : Env) (f : Token → State) : State :=
  match e.u.qa with
  | [] => s
  | tok :: _ =>
    match tokenCheck s e tok with
    | some k => raiseCheck s k
    | none => f tok

/-! ### FUSE and UNFUSE (R262, R263) -/

/-- The rectangle of a `rect` word: x, y, w, h. -/
def rectWord (w : Word) : Rect := (wbits w 7 0, wbits w 15 8, wbits w 23 16 + 1, wbits w 31 24 + 1)

def arrRect (a : SeaArray) : Rect := (a.x0, a.y0, a.w, a.h)

/-- The reserved VEs that drain for no array, ascending. -/
def freeDrains (x : Ctx) (nve : Nat) : List Nat :=
  (List.range nve).filter (fun v => !x.sea.arrays.any (fun a => a.drains.elem v))

/-- An array as FUSE leaves it. -/
def fusedArray (r : Rect) (drains : List Nat) : SeaArray :=
  { SeaArray.init with fused := true, x0 := r.1, y0 := r.2.1, w := r.2.2.1, h := r.2.2.2, drains := drains }

/-- FUSE's checks in order: a status, and the context's arrays after it. -/
def fuseDo (s : State) (c : CtxId) (x : Ctx) (nve n : Nat) (r : Rect) : State × Nat :=
  let need := (r.2.2.1 + 3) / 4
  let ves := freeDrains x nve
  if (getArr x n).fused then (s, 3)
  else if x.sea.arrays.any (fun a => a.fused && rectsMeet r (arrRect a)) then (s, 2)
  else if ves.length < need then (s, 4)
  else (updArr s c n (fun _ => fusedArray r (ves.take need)), 0)

/-- FUSE. -/
def execFuse (t : Tgt) (k : Fin 256) (y : Fin 4) (s : State) : Host.Outcome State Fault Refusal :=
  runUnit s (fun _ => triggered t (fun s e _ =>
    let (s1, v) := fuseDo s e.c e.ctx (winNve e.win) y.val (rectWord (poolWord e.win k.val))
    status t s1 v))

/-- The array of an instruction that feeds one. -/
def feeds (x : Word) (n : Nat) : Bool :=
  match instrOf x with
  | some (.wload _ _ _ y) | some (.mma _ _ _ _ y) | some (.mmao _ _ _ _ y) => y.val == n
  | _ => false

/-- What the instructions that feed an array still hold of it goes with the array: edges, blocks, bobbin slots, which empty. -/
def freeUnits (s : State) (c : CtxId) (n : Nat) : State :=
  match getWin s c with
  | none => s
  | some w =>
    (w.code.zip w.units).zipIdx.foldl (fun s ((x, u), i) =>
      if feeds x n then
        let held := u.sea.owed.map (fun o => (o.1, o.2.1)) ++ u.sea.slot.toList ++ u.sea.again
        let s1 := updMem s c (fun m => held.foldl (fun m p => endDrain m p.1 p.2) m)
        updUnit s1 c i (fun u => { u with sea := { SeaUnit.init with mr := u.sea.mr, rows := u.sea.rows } })
      else s) s

/-- An array freed: its cells, weights and drain VEs, the circuits that start or end at it, and what its instructions hold. -/
def freeArray (s : State) (c : CtxId) (n : Nat) : State :=
  updSea (freeUnits s c n) c (fun v =>
    let dest := (nth SeaArray.init v.arrays n).skew
    { v with arrays := v.arrays.zipIdx.map (fun (a, i) =>
      if i = n then SeaArray.init
      else
        let a1 := if some i = dest then { a with skewIn := [] } else a
        if a1.skew = some n then { a1 with skew := none } else a1) })

/-- No row, WLOAD block or drain of an array remains in it (R263): no load is in progress, no whole row waits at its edge, no drained
row for its circuit. -/
def arrayIdle (e : Env) (n : Nat) : Bool :=
  let a := getArr e.ctx n
  !a.loading && !drainStalled e.win n
    && (e.win.code.zip e.win.units).all (fun (x, u) => !feeds x n || decide (u.sea.edge.length < 16 * a.h))

/-- UNFUSE of array `n` has asked for its boundary: the array takes nothing more until it is freed (R255, R263). -/
def arrayLeaving (e : Env) (n : Nat) : Bool :=
  match e.ctx.boundary with
  | some b => b.cause == .unfuse n
  | none => false

/-- UNFUSE: once the array is idle, its boundary frees it. -/
def execUnfuse (t : Tgt) (y : Fin 4) (s : State) : Host.Outcome State Fault Refusal :=
  runUnit s (fun _ =>
    { triggered t (fun s e o =>
        if !(getArr e.ctx y.val).fused then status t s 3
        else if e.ctx.boundary.isSome || !arrayIdle e y.val then .wait s
        else .hold (addCount (askBoundary s e.c .dev (.unfuse y.val)) e.c cntInserted 1) (pendOf o e.ctx.phase 0 1)) with
      resume := fun s e p => if p.phase < e.ctx.phase then status t s 0 else .wait s })

/-! ### Weights (R245, R264) -/

/-- P and BOB of a `wload` word. -/
def wloadPlanes (w : Word) : Nat := wbits w 8 5 + 1
def wloadBob (w : Word) : Nat := wbits w 4 0

/-- A block of weights as it loads, E in its scale byte: a bad one as zero planes. A first block that is SUBST or a format error
gives the tile E = 0 (R115 gives none; assumption log 72). -/
def planeBlock (first : Option Line) (l : Line) : Line × Ev :=
  match sourceFormat l.desc l.psn (some .planes) (· == .planes) with
  | (.as _ scale, ev) =>
    match first with
    | none => ({ data := l.data, desc := BitVec.ofNat 16 (256 * scale), psn := false }, ev)
    | some f =>
      if f.psn || f.desc.toNat / 256 = scale then ({ data := l.data, desc := BitVec.ofNat 16 (256 * scale), psn := false }, ev)
      else ({ data := 0, desc := f.desc, psn := false }, { fmt := 1 })
  | (_, ev) => ({ data := 0, desc := 0, psn := l.psn }, ev)

/-- A tile from its blocks: E of the first, two planes a block; zero planes where a block was poisoned. -/
def tileOf (p : Nat) (l : List Line) : Int × List Nat :=
  if l.any (·.psn) then (0, [])
  else (signedByte ((l.head?.map (fun b => b.desc.toNat / 256)).getD 0),
    (l.flatMap (fun b => [b.data.toNat % 2 ^ 256, b.data.toNat / 2 ^ 256])).take p)

/-- The set that a load gives; blocks not received are zero planes. -/
def loadedSet (p n : Nat) (l : List Line) : WeightSet :=
  let nb := (p + 1) / 2
  { p := p, tiles := (List.range n).map (fun i => tileOf p ((l.drop (i * nb)).take nb)), psn := l.any (·.psn),
    used := false }

/-- A load completed: the idle set takes its planes. -/
def finishLoad (s : State) (e : Env) (n p : Nat) (l : List Line) : State :=
  updSeaUnit (updArr s e.c n (fun a => { setIdle a (loadedSet p (a.w * a.h) l) with loading := false })) e
    (fun v => { v with blocks := [], loading := false })

/-- One block received by WLOAD; the state it leaves, and whether the load is complete. -/
def loadBlock (s : State) (e : Env) (n p : Nat) (l : Line) : State × Bool :=
  let a := getArr e.ctx n
  let got := e.u.sea.blocks
  let nb := (p + 1) / 2
  let first := if got.length % nb = 0 then none else got[got.length / nb * nb]?
  let (b, ev) := planeBlock first l
  let s1 := countEvents (addCount s e.c cntPoison (b2n l.psn)) e.c ev
  let all := got ++ [b]
  if a.w * a.h * nb ≤ all.length then (finishLoad s1 e n p all, true)
  else (updSeaUnit (updArr s1 e.c n (fun a => { a with loading := true })) e (fun v => { v with blocks := all, loading := true }),
    false)

/-- A load may begin: no swap is pending, and a used set first has its boundary (R246). -/
def loadGate (s : State) (e : Env) (n : Nat) (go : State) : State :=
  let a := getArr e.ctx n
  if e.u.sea.loading then go
  else if a.swap.isSome then s
  else if (idleSet a).used then insertBoundary s e.c
  else go

/-- A block taken from the slot in hand; the slot is emptied after its last. -/
def slotTaken (s : State) (e : Env) (bob i : Nat) (b : Bobbin) : State :=
  if slotBlocks b ≤ e.u.sea.taken + 1 then
    updSeaUnit (updMem s e.c (fun m => endDrain m bob i)) e (fun v => { v with slot := none, taken := 0 })
  else updSeaUnit s e (fun v => { v with taken := v.taken + 1 })

/-- A trigger takes the slot at HEAD; a bobbin that is not defined gives a poisoned 0 (log 13). -/
def takeSlot (s : State) (e : Env) (t : Tgt) (bob : Nat) : State :=
  match getBob e.ctx.mem bob with
  | none => sendFrom (addCount (takeA s e) e.c cntPoison 1) e (poisonZero (tgt1 t))
  | some b =>
    match takeDrain e.ctx.mem bob b with
    | none => s
    | some (i, m1) => updSeaUnit (updMem (takeA s e) e.c (fun _ => m1)) e (fun v => { v with slot := some (bob, i), taken := 0 })

def emitLoaded (e : Env) (t : Tgt) (r : State × Bool) : State :=
  if r.2 then sendFrom r.1 e (result (tgt1 t) 0 false) else r.1

/-- A marker at WLOAD: it completes a load in progress (R264). -/
def wloadMark (s : State) (e : Env) (t : Tgt) (n p : Nat) (tok : Token) : State :=
  let s1 := updUnit (takeA s e) e.c e.i (markSeen e.win t.isNone false tok.rank.val)
  if e.u.sea.loading then
    sendFrom (finishLoad (addCount s1 e.c cntMismatch 1) e n p e.u.sea.blocks) e
      (result (tgt1 t) 0 false ++ toAll (tgt1 t) tok)
  else sendFrom s1 e (toAll (tgt1 t) tok)

def wloadStep (t : Tgt) (n : Nat) (p bob : Nat) (strm : Bool) (s : State) (e : Env) : State :=
  if !(getArr e.ctx n).fused then withHead s e (unfusedTake s e t)
  else if arrayLeaving e n || !roomFor e (tgt1 t) then s
  else
    match e.u.sea.slot, (e.u.sea.slot.bind (fun x => getBob e.ctx.mem x.1)) with
    | some (k, i), some b =>
      loadGate s e n
        (let (l, s1) := slotRead s e.c e.ctx.mem b i e.u.sea.taken
         let r := loadBlock s1 e n p l
         emitLoaded e t (slotTaken r.1 e k i b, r.2))
    | _, _ => withHead s e (fun tok =>
      if tok.isMk then wloadMark s e t n p tok
      else if strm then
        loadGate s e n (emitLoaded e t (loadBlock (takeA s e) e n p { data := tok.data, desc := tok.desc, psn := tok.psn }))
      else takeSlot s e t bob)

/-- WLOAD. -/
def execWload (t : Tgt) (k : Fin 256) (strm : Bool) (y : Fin 4) (s : State) : Host.Outcome State Fault Refusal :=
  runSea s (fun e =>
    let w := poolWord e.win k.val
    wloadStep t y.val (wloadPlanes w) (wloadBob w) strm s e)

/-- WSWAP (R265). -/
def execWswap (t : Tgt) (r : Fin 8) (y : Fin 4) (s : State) : Host.Outcome State Fault Refusal :=
  runUnit s (fun _ => triggered t (fun s e _ =>
    let a := getArr e.ctx y.val
    if !a.fused then poisonAct s e.c (tgt1 t)
    else if a.swap.isSome || arrayLeaving e y.val then .wait s
    else status t (updArr s e.c y.val (fun a => { a with swap := some r.val })) 0))

/-- A pending swap taken at a marker of rank `r`, unless a load is in progress (R265). -/
def swapAt (r : Nat) (a : SeaArray) : SeaArray :=
  match a.swap with
  | some k => if k ≤ r ∧ !a.loading then { a with active := !a.active, swap := none } else a
  | none => a

/-! ### MMA and MMAO (R247, R256, R266) -/

/-- What an MMA or MMAO is set to. -/
structure MmaCfg where
  t : Tgt
  arr : Nat
  mrank : Nat
  src : MmaSrc
  afmt : Fmt
  bob : Nat
  abase : Nat
  /-- The conversion word of an MMAO. -/
  drain : Option DrainFmt

def mmaCfg (t : Tgt) (k : Fin 256) (mrank : Fin 8) (src : MmaSrc) (y : Fin 4) (out : Bool) (w : Window) : MmaCfg :=
  let p := poolWord w k.val
  { t := t, arr := y.val, mrank := mrank.val, src := src, afmt := (fmtOfCode (wbits p 28 21)).getD .raw, bob := wbits p 20 16,
    abase := wbits p 15 0, drain := if out then some (drainFmt (poolWord w (k.val + 1))) else none }

/-- Owed slots after a row of `k` elements has entered: those wholly entered, and the rest. -/
def owedAfter (k : Nat) (l : List (Nat × Nat × Nat)) : List (Nat × Nat × Nat) × List (Nat × Nat × Nat) :=
  let l1 := l.map (fun o => (o.1, o.2.1, o.2.2 - k))
  (l1.filter (fun o => o.2.2 == 0), l1.filter (fun o => o.2.2 != 0))

/-- The row's outcome: its tokens, its values delivered. -/
def deliverRow (s : State) (e : Env) (g : MmaCfg) (psn : Bool) (passes : List (List Dword)) : State × List Token :=
  let a := getArr e.ctx g.arr
  let m := e.u.sea.mr.toNat
  match g.drain with
  | none =>
    let base := g.abase + m * rowSpan a
    if base + rowSpan a ≤ winAccRows e.win then
      (accAddRows s e.c g.arr psn (rowSpan a) base passes, [scalarTok (BitVec.ofNat 32 base) false])
    else (addCount s e.c cntPoison 1, [scalarTok (BitVec.ofNat 32 base) true])
  | some d =>
    let (s1, toks) := drainRow s e g.arr d ((sumPasses passes).map (fun v => (v, psn)))
    if !d.dst then (s1, toks)
    else
      match enterCircuit s1 e.c g.arr toks with
      | some s2 => (s2, [scalarTok (BitVec.ofNat 32 m) false])
      | none => (addCount s1 e.c cntPoison 1, [scalarTok (BitVec.ofNat 32 m) true])

/-- The machine check of a cell (R260, R439, R440): the residues of the pass's contribution of a lane, or of all. -/
def cellCheck (s : State) (e : Env) (n lx ly j : Nat) (lane : Nat) (picks : List (List Int × Int × Ev)) : Check :=
  let a := getArr e.ctx n
  let w := activeSet a
  let lanes := (nth ([], 0, {}) picks ly).1
  let part : Int := ((List.range 16).map (fun q =>
    cellSum w.p (tileAt a w lx ly).2 (lanes.zipIdx.map (fun (v, k) => if lane = 255 ∨ k = lane then v else 0)) j q)).sum
  let r := (part % 3).toNat
  { unitCheck s e 0x02 r ((r + 1) % 3) true with
    src := 1, x := nth 0 (arrCols s e.c a) lx, y := nth 0 (arrRows s e.c a) ly, lane := lane, l0 := BitVec.ofNat 32 j,
    l1 := BitVec.ofNat 32 ly, l2 := e.u.sea.mr.zeroExtend 32, l3 := BitVec.ofNat 32 (e.u.sea.rows + 1),
    loc := BitVec.ofNat 32 (n * 65536 + ly * 256 + lx) }

/-- The passes and adds of a row at its cells counted against the armed injections (R458): the first that fires. -/
def injectRow (s : State) (e : Env) (n : Nat) (picks : List (List Int × Int × Ev)) : Option Check × State :=
  let a := getArr e.ctx n
  let np := passCount (activeSet a)
  let cols := arrCols s e.c a
  let rows := arrRows s e.c a
  let cell (acc : Option Check × State) (lx ly : Nat) : Option Check × State :=
    match acc with
    | (some k, t) => (some k, t)
    | (none, t) =>
      match injectAt t 1 (nth 0 cols lx) (nth 0 rows ly) (ctxNode e.c) np with
      | (some i, t1) => (some (cellCheck s e n lx ly (i.left - 1) i.lane picks), t1)
      | (none, t1) =>
        match injectAt t1 2 (nth 0 cols lx) (nth 0 rows ly) (ctxNode e.c) (16 * np) with
        | (some i, t2) => (some (cellCheck s e n lx ly ((i.left - 1) / 16) 255 picks), t2)
        | (none, t2) => (none, t2)
  (List.range a.h).foldl (fun acc ly => (List.range a.w).foldl (fun acc lx => cell acc lx ly) acc) (none, s)

/-- A whole row enters the array. -/
def acceptRow (s : State) (e : Env) (g : MmaCfg) : State :=
  let a := getArr e.ctx g.arr
  let w := activeSet a
  let row := e.u.sea.edge.take (16 * a.h)
  let elems := row.map (·.1)
  let (hit, s0) := if s.hl.inj.isEmpty then (none, s) else injectRow s e g.arr (rowPicks a.h elems)
  match hit with
  | some k => raiseCheck s0 k
  | none =>
    let (passes, ev) := rowPasses a w elems
    let (gone, left) := owedAfter (16 * a.h) e.u.sea.owed
    let idle := left.isEmpty && e.u.sea.slot.isNone
    let entered := if idle then 0 else match ((e.u.sea.owed.map (·.2.2)).filter (fun k => decide (k ≤ 16 * a.h))).getLast? with
      | some o => 16 * a.h - o
      | none => e.u.sea.entered + 16 * a.h
    let s1 := updArr (countEvents s0 e.c ev) e.c g.arr (fun a => setActive a { activeSet a with used := true })
    let (s2, toks) := deliverRow s1 e g (row.any (·.2) || w.psn) passes
    let s3 := updMem s2 e.c (fun m => gone.foldl (fun m o => endDrain m o.1 o.2.1) m)
    let s4 := updSeaUnit s3 e (fun v =>
      { v with edge := v.edge.drop (16 * a.h), mr := v.mr + 1, rows := v.rows + 1, owed := left, entered := entered })
    sendFrom s4 e (seqAll (tgt1 g.t) toks)

/-- A marker of rank `r` enters the array (R256). -/
def enterMark (s : State) (e : Env) (g : MmaCfg) (r : Nat) : State :=
  let s1 := updArr s e.c g.arr (swapAt r)
  let s2 := match g.drain with
    | some d => if d.dst then (enterCircuit s1 e.c g.arr [markerTok r]).getD s1 else s1
    | none => s1
  let s3 := updUnit s2 e.c e.i (fun u =>
    markSeen e.win g.t.isNone false r { u with sea := { u.sea with mr := if g.mrank ≤ r then 0 else u.sea.mr } })
  sendFrom s3 e (toAll (tgt1 g.t) (markerTok r))

/-- Elements appended to the west-edge buffer. -/
def edgePut (s : State) (e : Env) (l : List (Num × Bool)) : State := updSeaUnit s e (fun v => { v with edge := v.edge ++ l })

/-- The capacity of the edge (R247). -/
def edgeCap (a : SeaArray) : Nat := max (64 * a.h) 256

/-- A block read at the edge, when all its elements fit; the first `skip` have entered before a reset. -/
def edgeBlock (s : State) (e : Env) (g : MmaCfg) (data : Bits512) (d : Desc) (psn : Bool) (skip : Nat) (go : State → State) : State :=
  let (all, ev) := edgeElems g.afmt data d psn
  let l := all.drop skip
  if edgeCap (getArr e.ctx g.arr) < e.u.sea.edge.length + l.length then s
  else
    go (edgePut (countEvents (addCount s e.c cntPoison (b2n psn)) e.c ev) e (l.map (fun x => (x, psn))))

/-- A partly formed row padded to a whole one at a marker (R256). -/
def padRow (s : State) (e : Env) (g : MmaCfg) : State :=
  edgePut (addCount s e.c cntMismatch 1) e
    (List.replicate (16 * (getArr e.ctx g.arr).h - e.u.sea.edge.length) (.zero, false))

/-- The next block of a bobbin slot at the edge; after its last the slot is owed its elements, and the next of those that are read
again is in hand. -/
def edgeSlot (s : State) (e : Env) (g : MmaCfg) (k i : Nat) (b : Bobbin) : State :=
  let l := (slotRead s e.c e.ctx.mem b i e.u.sea.taken).1
  let full := (edgeElems g.afmt l.data l.desc l.psn).1.length
  edgeBlock s e g l.data l.desc l.psn e.u.sea.skip (fun s1 =>
    updSeaUnit (slotRead s1 e.c e.ctx.mem b i e.u.sea.taken).2 e (fun v =>
      if slotBlocks b ≤ v.taken + 1 then
        { v with slot := v.again.head?, again := v.again.tail, taken := 0, skip := v.skip - full, owed := v.owed ++ [(k, i, v.edge.length)] }
      else { v with taken := v.taken + 1, skip := v.skip - full }))

/-- The head of slot a at an MMA or MMAO. -/
def mmaHead (s : State) (e : Env) (g : MmaCfg) : State :=
  withHead s e (fun tok =>
    if tok.isMk then
      if !e.u.sea.edge.isEmpty then padRow s e g
      else if roomFor e (tgt1 g.t) then enterMark (takeA s e) e g tok.rank.val
      else s
    else
      match g.src with
      | .bob => takeSlot s e g.t g.bob
      | _ => edgeBlock s e g tok.data tok.desc tok.psn 0 (fun s1 => takeA s1 e))

/-- Elements 0 to 15 of each token of a row from the skew circuit. -/
def skewRow (g : MmaCfg) (l : List Token) : List (Num × Bool) × Ev :=
  let r := l.map (fun tok => (edgeElems g.afmt tok.data tok.desc tok.psn, tok.psn))
  (r.flatMap (fun x => (x.1.1.take 16).map (fun v => (v, x.2))), Ev.sum (r.map (fun x => x.1.2)))

/-- The next row or marker of the skew circuit that ends at the array. -/
def mmaSkew (s : State) (e : Env) (g : MmaCfg) : State :=
  match (getArr e.ctx g.arr).skewIn with
  | [] => s
  | l :: rest =>
    let s1 := updArr s e.c g.arr (fun a => { a with skewIn := rest })
    match l.find? (·.isMk) with
    | some mk => if roomFor e (tgt1 g.t) then enterMark s1 e g mk.rank.val else s
    | none =>
      let (elems, ev) := skewRow g l
      edgePut (countEvents (addCount s1 e.c cntPoison (l.filter (·.psn)).length) e.c ev) e elems

/-- One step of an MMA or MMAO: a whole row enters, else the next elements are taken. That the edge takes no token while a whole
row waits to enter is the model's choice (assumption log 72). -/
def mmaStep (g : MmaCfg) (s : State) (e : Env) : State :=
  let a := getArr e.ctx g.arr
  if !a.fused then (if g.src = .skew then s else withHead s e (unfusedTake s e g.t))
  else if drainStalled e.win g.arr || arrayLeaving e g.arr then s
  else if 16 * a.h ≤ e.u.sea.edge.length then
    (if roomFor e (tgt1 g.t) && (g.drain.isNone || circuitRoom e.ctx g.arr) then acceptRow s e g else s)
  else
    match g.src with
    | .skew => mmaSkew s e g
    | _ =>
      match e.u.sea.slot, (e.u.sea.slot.bind (fun x => getBob e.ctx.mem x.1)) with
      | some (k, i), some b => edgeSlot s e g k i b
      | _, _ => mmaHead s e g

/-- MMA. -/
def execMma (t : Tgt) (k : Fin 256) (mrank : Fin 8) (src : MmaSrc) (y : Fin 4) (s : State) : Host.Outcome State Fault Refusal :=
  runSea s (fun e => mmaStep (mmaCfg t k mrank src y false e.win) s e)

/-- MMAO. -/
def execMmao (t : Tgt) (k : Fin 256) (mrank : Fin 8) (src : MmaSrc) (y : Fin 4) (s : State) : Host.Outcome State Fault Refusal :=
  runSea s (fun e => mmaStep (mmaCfg t k mrank src y true e.win) s e)

/-! ### Accumulator operations (R267 to R270) -/

/-- RBASE and the row count of an `accr` word. -/
def accRange (w : Word) : Nat × Nat := (wbits w 15 0, wbits w 31 16 + 1)

/-- Rows of a range at or beyond ACCROWS. -/
def accBeyond (w : Window) (r : Nat × Nat) : Nat := r.1 + r.2 - max r.1 (winAccRows w)

/-- The rows of a range below ACCROWS. -/
def accInside (w : Window) (r : Nat × Nat) : List Nat := (List.range r.2).filterMap (fun i =>
  if r.1 + i < winAccRows w then some i else none)

def clearRows (s : State) (c : CtxId) (l : List Nat) : State := l.foldl (fun s r => setAcc s c r AccRow.clear) s

/-- ACCZ. -/
def execAccz (t : Tgt) (k : Fin 256) (s : State) : Host.Outcome State Fault Refusal :=
  runUnit s (fun _ => triggered t (fun s e _ =>
    let r := accRange (poolWord e.win k.val)
    status t (addCount (clearRows s e.c ((accInside e.win r).map (r.1 + ·))) e.c cntPoison (accBeyond e.win r)) 0))

/-- The words that ACCRD emits for a value. -/
def accrdWords (w64b : Bool) (r : Rnd) (v : Dword) : List Word :=
  if w64b then [v.setWidth 32, (v >>> 32).setWidth 32]
  else
    let x := toF32 r (w64 v)
    [if x.toNat % 2 ^ 31 = 0 then 0 else x]

/-- ACCRD. -/
def execAccrd (h : DHead) (w64b : Bool) (r : Rnd) (s : State) : Host.Outcome State Fault Refusal :=
  runUnit s (fun _ =>
    { slots := slotsAB, joins := slotsAB, tgts := headTgts h, pred := h.pred, onMark := passMark (headTgts h), resume := noResume
      body := fun s e o =>
        let row := o.a.word.toNat
        let col := o.b.word.toNat
        let bad := o.a.psn || o.b.psn || decide (winAccRows e.win ≤ row) || decide (512 ≤ col)
        let acc := getAcc e.ctx row
        let psn := bad || acc.psn
        let v := if psn then 0 else mapGet 0 acc.vals col
        .emit (addCount s e.c cntPoison (b2n bad)) (seqAll (headTgts h) ((accrdWords w64b r v).map (scalarTok · psn))) })

/-- The values of an output row whose first accumulator row is `base`, each with its poison: poisoned +0 where a row lies beyond
ACCROWS, and everywhere when `a` is poisoned. -/
def accdrVals (e : Env) (a : SeaArray) (base : Nat) (psn : Bool) : List (Dword × Bool) :=
  (List.range (16 * a.w)).map (fun n =>
    if psn || decide (winAccRows e.win ≤ base + n / 512) then (0, true)
    else
      let r := getAcc e.ctx (base + n / 512)
      (mapGet 0 r.vals (n % 512), r.psn))

/-- The output rows of an ACCDR drained in order, each row of accumulators beyond ACCROWS counted. -/
def accdrRows (e : Env) (n : Nat) (d : DrainFmt) (o : Token) (rbase : Nat) (keep : Bool) :
    List Nat → State → List (List Token) → State × List (List Token)
  | [], s, rows => (s, rows)
  | i :: is, s, rows =>
    let a := getArr e.ctx n
    let base := rbase + o.word.toNat + i * rowSpan a
    let span := (List.range (rowSpan a)).map (base + ·)
    let inside := if o.psn then [] else span.filter (fun r => decide (r < winAccRows e.win))
    let s1 := addCount s e.c cntPoison (if o.psn then 0 else span.length - inside.length)
    let (s2, toks) := drainRow s1 e n d (accdrVals e a base o.psn)
    accdrRows e n d o rbase keep is (if keep then s2 else clearRows s2 e.c inside) (rows ++ [toks])

/-- Drained rows onto the circuit that starts at array `n`, while it has room; those that wait. -/
def accdrEnter (c : CtxId) (n : Nat) : List (List Token) → State → State × List (List Token)
  | [], s => (s, [])
  | r :: rs, s =>
    if ((getCtx s c).map (fun x => circuitRoom x n)).getD true then
      match enterCircuit s c n r with
      | some s1 => accdrEnter c n rs s1
      | none => (s, [])
    else (s, r :: rs)

/-- ACCDR with DST 1: `a` leaves behind its last group. -/
def accdrSkew (t : Tgt) (n : Nat) (s : State) (e : Env) (p : Pend) (rows : List (List Token)) : Act :=
  let (s1, left) := accdrEnter e.c n rows s
  let s2 := updSeaUnit s1 e (fun v => { v with rowsOut := left })
  if left.isEmpty then .emit s2 (toAll (tgt1 t) p.a) else .hold s2 p

/-- ACCDR. Every value is read when it fires, behind the drains that the array still holds (R255). With DST 1 and no circuit the
output is discarded. -/
def execAccdr (t : Tgt) (k : Fin 256) (keep : Bool) (y : Fin 4) (s : State) : Host.Outcome State Fault Refusal :=
  runUnit s (fun _ =>
    { triggered t (fun s e o =>
        let d := drainFmt (poolWord e.win (k.val + 1))
        let r := accRange (poolWord e.win k.val)
        if !(getArr e.ctx y.val).fused then poisonAct s e.c (tgt1 t)
        else if drainStalled e.win y.val || arrayLeaving e y.val then .wait s
        else
          let (s1, rows) := accdrRows e y.val d o.a r.1 keep (List.range r.2) (addCount s e.c cntPoison (b2n o.a.psn)) []
          if !d.dst then .emit s1 (seqAll (tgt1 t) rows.flatten)
          else if (getArr e.ctx y.val).skew.isNone then
            .emit (addCount s1 e.c cntPoison 1) (toAll (tgt1 t) { o.a with psn := true })
          else accdrSkew t y.val s1 e (pendOf o 0 0 1) rows) with
      resume := fun s e p => accdrSkew t y.val s e p e.u.sea.rowsOut })

/-- The W64 block `j` of an accumulator row; SUBST for a poisoned row (R270). -/
def accLine (r : AccRow) (j : Nat) : Line :=
  if r.psn then substLine
  else { data := BitVec.ofNat 512 (packElems 64 ((List.range 8).map (fun i => (mapGet 0 r.vals (8 * j + i)).toNat))),
         desc := 0x000D, psn := false }

/-- Blocks staged in scratch while entries can be had; those left. -/
def stageLines (c : CtxId) : List (Nat × Line) → State → State × List (Nat × Line)
  | [], s => (s, [])
  | (o, l) :: rest, s =>
    match stageAt s c true (BitVec.ofNat 64 o) (BitVec.allOnes 64) l.data (some l.desc) with
    | (true, s1) => stageLines c rest s1
    | (false, s1) => (s1, (o, l) :: rest)

/-- ACCSV's blocks staged; held while an inserted boundary comes first (R178). -/
def accsvGo (t : Tgt) (s : State) (e : Env) (p : Pend) (l : List (Nat × Line)) : Act :=
  let (s1, rest) := stageLines e.c l s
  let s2 := updSeaUnit s1 e (fun v => { v with save := rest })
  if rest.isEmpty then status t s2 0 else .hold s2 p

/-- ACCSV. -/
def execAccsv (t : Tgt) (k : Fin 256) (keep : Bool) (s : State) : Host.Outcome State Fault Refusal :=
  runUnit s (fun _ =>
    { triggered t (fun s e o =>
        let r := accRange (poolWord e.win k.val)
        let off := (poolWord e.win (k.val + 1)).toNat
        let rows := accInside e.win r
        let lines := rows.flatMap (fun i => (List.range 64).map (fun j =>
          (off + 4096 * i + 64 * j, accLine (getAcc e.ctx (r.1 + i)) j)))
        let s1 := addCount s e.c cntPoison (accBeyond e.win r)
        accsvGo t (if keep then s1 else clearRows s1 e.c (rows.map (r.1 + ·))) e (pendOf o 0 0 1) lines) with
      resume := fun s e p => accsvGo t s e p e.u.sea.save })

/-- The scratch blocks that ACCRS reads, in order, from the `n`-th on; those read so far, and whether all are. -/
def readLines (c : CtxId) : List Nat → State → List Line → State × List Line × Bool
  | [], s, acc => (s, acc, true)
  | o :: os, s, acc =>
    if o < scratchSize s c then
      match readS s c o false with
      | .line l st s1 =>
        let x := overlay l st
        readLines c os (addCount s1 c cntPoison (b2n x.psn)) (acc ++ [x])
      | .full s1 => (s1, acc, false)
      | .fail _ s1 => readLines c os s1 (acc ++ [{ Line.zero with psn := true }])
    else readLines c os (addCount s c cntPoison 1) (acc ++ [{ Line.zero with psn := true }])

/-- An accumulator row as ACCRS leaves it: OPEN, with no owner. -/
def accLoaded (l : List Line) : AccRow × Ev :=
  let r := l.map accBlock
  ({ vals := (r.flatMap (·.1)).zipIdx.foldl (fun m (v, n) => mapSet 0 m n v) [],
     psn := l.any (·.psn), opened := true, owner := none }, Ev.sum (r.map (·.2)))

/-- The rows loaded from the blocks read, 64 each. -/
def accrsRows (c : CtxId) : List Nat → List Line → State → State
  | [], _, s => s
  | r :: rs, l, s =>
    let (row, ev) := accLoaded (l.take 64)
    accrsRows c rs (l.drop 64) (countEvents (setAcc s c r row) c ev)

/-- ACCRS reads what it still needs; the rows load when all is there. -/
def accrsGo (t : Tgt) (k : Fin 256) (s : State) (e : Env) (p : Pend) (got : List Line) : Act :=
  let r := accRange (poolWord e.win k.val)
  let off := (poolWord e.win (k.val + 1)).toNat
  let rows := accInside e.win r
  let want := rows.flatMap (fun i => (List.range 64).map (fun j => off + 4096 * i + 64 * j))
  match readLines e.c (want.drop got.length) s got with
  | (s1, l, true) => status t (updSeaUnit (accrsRows e.c (rows.map (r.1 + ·)) l s1) e (fun v => { v with blocks := [] })) 0
  | (s1, l, false) => .hold (updSeaUnit s1 e (fun v => { v with blocks := l })) p

/-- ACCRS. -/
def execAccrs (t : Tgt) (k : Fin 256) (s : State) : Host.Outcome State Fault Refusal :=
  runUnit s (fun _ =>
    { triggered t (fun s e o =>
        accrsGo t k (addCount s e.c cntPoison (accBeyond e.win (accRange (poolWord e.win k.val)))) e (pendOf o 0 0 1) []) with
      resume := fun s e p => accrsGo t k s e p e.u.sea.blocks })

/-! ### EDLY, SKEWC, SEAQ (R271 to R273) -/

/-- EDLY. -/
def execEdly (t : Tgt) (k : Fin 256) (y : Fin 4) (s : State) : Host.Outcome State Fault Refusal :=
  runUnit s (fun _ => triggered t (fun s e _ =>
    let w := poolWord e.win k.val
    let a := getArr e.ctx y.val
    let a1 := { a with wadd := wbits w 5 0, sadd := wbits w 13 8 }
    if !a.fused then status t s 3
    else if arrayLeaving e y.val then .wait s
    else if !countersFit s e.c a1 then status t s 1
    else status t (updArr s e.c y.val (fun _ => a1)) 0))

/-- The status of SKEWC without CLR (R272). -/
def skewStatus (x : Ctx) (d b : Nat) : Nat :=
  let a := getArr x d
  let z := getArr x b
  if !a.fused || !z.fused then 1
  else if d = b || a.w != z.h || decide (z.x0 < a.x0 + a.w) || decide (z.y0 < a.y0 + a.h) then 2
  else if a.skew.isSome || x.sea.arrays.any (fun v => v.skew == some b) then 3
  else 0

/-- SKEWC: mod[1:0] the source array, mod[3:2] the destination. CLR waits until the circuit holds no row and no drain waits for
it. -/
def execSkewc (t : Tgt) (clr : Bool) (d src : Fin 4) (s : State) : Host.Outcome State Fault Refusal :=
  runUnit s (fun _ => triggered t (fun s e _ =>
    if clr then
      match (getArr e.ctx src.val).skew with
      | none => status t s 3
      | some b =>
        if !(getArr e.ctx b).skewIn.isEmpty || drainStalled e.win src.val || arrayLeaving e src.val || arrayLeaving e b then .wait s
        else status t (updArr s e.c src.val (fun a => { a with skew := none })) 0
    else if arrayLeaving e src.val || arrayLeaving e d.val then .wait s
    else
      let v := skewStatus e.ctx src.val d.val
      status t (if v = 0 then updArr s e.c src.val (fun a => { a with skew := some d.val }) else s) v))

/-- The word of SEAQ item 6. -/
def seaqState (a : SeaArray) : Nat :=
  if a.fused then
    2 ^ 31 + b2n a.set1.psn * 2 ^ 13 + b2n a.set0.psn * 2 ^ 12 + (a.set1.p - 1) * 256 + (a.set0.p - 1) * 16
      + b2n a.swap.isSome * 2 + b2n a.active
  else 0

/-- SEAQ's word for an index; none where it gives a poisoned 0. -/
def seaqWord (s : State) (e : Env) (a : SeaArray) (item i : Nat) : Option Nat :=
  let cols := arrCols s e.c a
  let rows := arrRows s e.c a
  if item = 6 then some (seaqState a)
  else if !a.fused then none
  else
    match item with
    | 0 => some (crosses colSplit (nth 0 cols 0) (nth 0 cols (a.w - 1)) * 2 ^ 12
        + crosses rowSplit (nth 0 rows 0) (nth 0 rows (a.h - 1)) * 256 + removedTo cols (a.w - 1) % 16 * 16
        + removedTo rows (a.h - 1) % 16)
    | 1 => some (a.sadd * 256 + a.wadd)
    | 2 => if i < a.h then some (westCount s e.c a i) else none
    | 3 => if i < a.w then some (southCount s e.c a i) else none
    | 4 => if i < a.h then some (nth 0 rows i) else none
    | 5 => if i < a.w then some (nth 0 cols i) else none
    | _ =>
      match a.skew with
      | some b => some (2 ^ 31 + b * 256 + skewDelay s e.c a (getArr e.ctx b) % 256)
      | none => some 0

/-- SEAQ. -/
def execSeaq (t : Tgt) (item : Fin 8) (y : Fin 4) (s : State) : Host.Outcome State Fault Refusal :=
  runUnit s (fun _ => triggered t (fun s e o =>
    match (if o.a.psn then none else seaqWord s e (getArr e.ctx y.val) item.val o.a.word.toNat) with
    | some v => status t s v
    | none => poisonAct s e.c (tgt1 t)))

end Sys2Proof.Machine
end

