-- ==== Sys2Proof/Machine/Image.lean ====
section
/-! DEFINITION. The save image (R397 to R399, R413): its sections, its header, its writing, and the record of a save that
fails (R401). -/

namespace Sys2Proof.Machine

/-! ### Lengths (R397, R413) -/

/-- Bytes rounded up to whole blocks. -/
def padBlock (n : Nat) : Nat := (n + 63) / 64 * 64

/-- Fused cells. -/
def fusedCells (x : Ctx) : Nat := ((x.sea.arrays.filter (·.fused)).map (fun a => a.w * a.h)).sum

/-- Instructions of group 0x9. -/
def vecCount (w : Window) : Nat := (w.code.filter (fun x => wordOp x / 16 == 9)).length

/-- The tokens in slot queues and latches: the consuming instruction, its slot, the place in the slot's order, the token (R396). -/
def queuedTokens (w : Window) : List (Nat × Nat × Nat × Token) :=
  w.units.zipIdx.flatMap (fun (u, i) =>
    [u.qa, u.qb, u.qc, u.qp].zipIdx.flatMap (fun (q, sl) => q.zipIdx.map (fun (t, k) => (i, sl, k, t))))

/-- NTOK. -/
def savedTokens (w : Window) : Nat := (queuedTokens w).length

/-- The counts that fix a spatial image's lengths: ACCROWS, NINS, NTOK, NCHE, NVI, F, PERSIST. -/
structure ImageDims where
  rows : Nat
  nins : Nat
  ntok : Nat
  nche : Nat
  nvi : Nat
  cells : Nat
  persist : Nat

/-- The eight sections' lengths of an image of a region's node, or of a core's. -/
def sectionLens (d : ImageDims) (core : Bool) : List Nat :=
  if core then [0, 256, 0, 1024, padBlock (576 + 8 * d.nche), 0, 0, d.persist]
  else [4096 * d.rows, 128 * d.nins, padBlock (4 + 80 * d.ntok), 1024, padBlock (576 + 8 * d.nche), 4096 * d.nvi,
        256 + padBlock d.rows + 1088 * d.cells, d.persist]

/-- LEN. -/
def imageLen (l : List Nat) : Nat := 256 + l.sum

/-- The dimensions of a node as it stands, `ntok` tokens among its kept state. -/
def dimsOf (w : Window) (x : Ctx) (ntok : Nat) : ImageDims :=
  { rows := winAccRows w, nins := winNins w, ntok := ntok, nche := w.ends.length, nvi := vecCount w, cells := fusedCells x,
    persist := w.persist.toNat }

/-- The bound of tokens: for every consumed slot 4 and the hops of its circuit (R399). -/
def tokenBound (w : Window) : Nat :=
  (w.code.zipIdx.map (fun (x, i) => ((slotsOf w x).map (fun sl =>
    4 + ((producersOf w i sl).map (fun p => winHops w p i)).foldl max 0)).sum)).sum

/-! ### Blocks -/

/-- A block of the bytes given, RAW (R96). -/
def rawBlock (d : Bits512) : Line := { data := d, desc := 0, psn := false }

/-- Blocks of a list of bytes. -/
def byteBlocks (bs : List Byte) : List Line := (chunks ((bs.length + 63) / 64) 64 bs).map (fun l => rawBlock (lineOfBytes l))

/-- `n` blocks whose bytes the layout does not fix: free values. -/
def openBlocks (s : State) : Nat → List Line × State
  | 0 => ([], s)
  | n + 1 =>
    let (i, s1) := takeFree s
    let (l, s2) := openBlocks s1 n
    (rawBlock (Config.freeLine i) :: l, s2)

/-- Bytes of records of `n` bytes each, one after another. -/
def recordBytes (n : Nat) (l : List (List Byte)) : List Byte := l.flatMap (fun r => (r ++ List.replicate n 0).take n)

/-! ### ELEM and TOKENS (R399); where in a record a field lies is the model's choice (assumption log 47) -/

/-- The stamp of the translation record that a generator has outstanding. -/
def genStamp (s : State) (c : CtxId) (i : Nat) : Option Dword := (s.tq.outstanding.find? (fun o => o.2 == .gen c i)).map (·.1)

/-- An ELEM record: MCNT, CIDX, the flags, CCNT, C0 to C3, RUNS, ISSUED, the base in force, the barrier arrivals, the stamp. -/
def elemRecord (x : Word) (u : ElemSt) (stamp : Option Dword) : List Byte :=
  let g := u.gen
  let rank := match g.held with
    | some r => 2 + 4 * r.val
    | none => 0
  let flags := b2n u.mpend + rank + 32 * b2n (wordOp x == 0xD2 && !u.pend.isEmpty) + 64 * b2n g.stopped
  leBytes 2 u.mcnt.toNat ++ leBytes 1 u.cidx.val ++ leBytes 1 flags ++ leBytes 4 u.ccnt.toNat
    ++ [g.c0, g.c1, g.c2, g.c3, g.runs.toNat, g.issued.toNat, g.base.toNat, u.arrived, (stamp.getD 0).toNat].flatMap (leBytes 8)

/-- A TOKENS record: instruction, slot, position, tag byte (R330), descriptor, data; byte 5 tells a vector token. -/
def tokenRecord (r : Nat × Nat × Nat × Token) : List Byte :=
  let t := r.2.2.2
  leBytes 1 r.1 ++ leBytes 1 r.2.1 ++ leBytes 2 r.2.2.1 ++ leBytes 1 (tagOf t) ++ leBytes 1 (b2n t.vec) ++ leBytes 2 t.desc.toNat
    ++ lineBytes t.data

def elemBlocks (s : State) (c : CtxId) (w : Window) (n : Nat) : List Line :=
  byteBlocks (recordBytes 128 (((w.code.zip w.units).zipIdx.map (fun (p, i) => elemRecord p.1 p.2 (genStamp s c i))).take n))

def tokenBlocks (w : Window) (n : Nat) : List Line :=
  let b := leBytes 4 n ++ recordBytes 80 (((queuedTokens w).take n).map tokenRecord)
  byteBlocks (b ++ List.replicate (padBlock b.length - b.length) 0)

/-- Section 1: the accumulator rows. -/
def accBlocks (x : Ctx) (rows : Nat) : List Line :=
  (List.range rows).flatMap (fun r => (List.range 64).map (accLine (getAcc x r)))

/-- Section 2 of a core's image (R413). -/
def draftBlocks (d : DraftSt) : List Line :=
  let call (p : Dword × Nat) : List Byte := leBytes 8 p.1.toNat ++ leBytes 8 p.2
  let calls := d.stack.reverse.flatMap call
  byteBlocks ((leBytes 8 d.va.toNat ++ leBytes 1 d.block ++ leBytes 1 d.stack.length ++ List.replicate 6 0 ++ calls
    ++ List.replicate 256 0).take 256)

/-- A bobbin's record: the words of its declaration (R184), HEAD, TAIL, whether it is defined; the places are the model's (log 47). -/
def bobbinRecord (m : CtxMem) (k : Nat) : List Byte :=
  match (m.bobbins.find? (fun p => p.1 == k)).map (·.2) with
  | none => []
  | some b =>
    leBytes 4 b.base ++ leBytes 4 ((b.nslot - 1) % 64 * 2 ^ 26 + k * 2 ^ 21 + b.tbase % 512 * 2 ^ 12 + b.sz % 4096)
      ++ [BitVec.ofNat 8 b.head, BitVec.ofNat 8 b.tail, 1]

/-- Section 4: carry words, their poison bits, Wr, the tile table and the bobbin records. -/
def carryBlocks (m : CtxMem) : List Line :=
  let word (n : Nat) : Carry := carryWord m n
  let words := byteBlocks ((List.range 64).flatMap (fun n => leBytes 4 (word n).val.toNat))
  let psn : Nat := ((List.range 64).map (fun n => b2n (word n).psn * 2 ^ n)).sum
  let mid := putNat (putNat 0 0 8 psn) 8 4 m.wr
  let tiles := byteBlocks (leBytes 128 ((List.range 512).map (fun n => (mapGet 0 m.tiles n).toNat * 4 ^ n)).sum)
  words ++ [rawBlock mid, rawBlock 0] ++ tiles ++ byteBlocks (recordBytes 16 ((List.range 32).map (bobbinRecord m)))

/-- An endpoint's record: the channel that it is bound to (R349), its end, and whether the node holds it (R342). -/
def endRecord (s : State) (node : Word) (e : Endpoint) : Nat :=
  e.chid % 4096 + b2n e.push * 2 ^ 12 + b2n (holdsEnd s node e.chid e.push) * 2 ^ 13

/-- A ticket's record: its number, the block, the instruction and its opcode; of a LAUNCH the number is 0. The places are the
model's (log 47). -/
def ticketRecords (s : State) (c : CtxId) (w : Window) (block : Nat) : List (List Byte) :=
  let one (ticket blk idx op : Nat) : List Byte := leBytes 8 ticket ++ leBytes 1 blk ++ leBytes 1 idx ++ leBytes 1 op
  (s.sh.cmds.filter (fun x => x.ctx == c)).map (fun x => one x.ticket x.block x.idx x.op)
    ++ ((w.code.zip w.units).zipIdx.filter (fun (p, _) => wordOp p.1 == 0xD0)).flatMap (fun (p, i) => p.2.pend.map (fun _ => one 0 block i 0xD0))

/-- Section 5: credit tags, tickets and endpoints. -/
def linkBlocks (s : State) (c : CtxId) (w : Window) (x : Ctx) : List Line :=
  let tags := (List.range 16).flatMap (fun n => leBytes 2 (mapGet 0 x.credits n).toNat)
  let n := w.ends.length
  let ends := recordBytes 8 (((x.ends.take n).map (fun e => leBytes 2 (endRecord s (ctxNode c) e))) ++ List.replicate (n - x.ends.length) [])
  let tickets := ((ticketRecords s c w x.draft.block).take 32) ++ List.replicate 32 []
  byteBlocks (tags ++ List.replicate 32 0) ++ byteBlocks (recordBytes 16 (tickets.take 32))
    ++ byteBlocks (ends ++ List.replicate (padBlock (576 + 8 * n) - 576 - 8 * n) 0)

/-- The state byte of an accumulator row. -/
def rowState (r : AccRow) : Byte :=
  BitVec.ofNat 8 (b2n r.opened * 8 + match r.owner with
    | some a => 4 + a % 4
    | none => 0)

/-- The 1,088 bytes of a fused cell: both sets' planes, then their exponents. -/
def cellBlocks (a : SeaArray) (i : Nat) : List Line :=
  let planes (w : WeightSet) : List Byte :=
    let l := ((nth (0, []) w.tiles i).2).take w.p
    (List.range 16).flatMap (fun k => leBytes 32 (nth 0 l k))
  let ex (w : WeightSet) : Byte := BitVec.ofInt 8 (nth (0, []) w.tiles i).1
  byteBlocks (planes a.set0 ++ planes a.set1 ++ [ex a.set0, ex a.set1] ++ List.replicate 62 0)

/-- An array's record: fused, ACTIVE, a pending swap, the sets' USED and poison bits; the swap's rank, the rectangle, P of the sets,
the two adds. The places are the model's (log 47). -/
def arrayRecord (a : SeaArray) : List Byte :=
  let flags := b2n a.fused + 2 * b2n a.active + 4 * b2n a.swap.isSome + 8 * b2n a.set0.used + 16 * b2n a.set1.used
    + 32 * b2n a.set0.psn + 64 * b2n a.set1.psn
  [flags, a.swap.getD 0, a.x0, a.y0, a.w, a.h, a.set0.p, a.set1.p].flatMap (leBytes 1) ++ leBytes 8 a.wadd ++ leBytes 8 a.sadd

/-- Section 7. -/
def seaBlocks (x : Ctx) (rows : Nat) : List Line :=
  let states := (List.range rows).map (fun r => rowState (getAcc x r))
  byteBlocks (recordBytes 64 (((x.sea.arrays.map arrayRecord) ++ List.replicate 4 []).take 4)) ++ byteBlocks (states ++ List.replicate (padBlock rows - rows) 0)
    ++ (x.sea.arrays.filter (·.fused)).flatMap (fun a => (List.range (a.w * a.h)).flatMap (cellBlocks a))

/-- Section 8: RAW, a poisoned block as SUBST. -/
def persistBlocks (m : CtxMem) (persist : Nat) : List Line :=
  (List.range (persist / 64)).map (fun n =>
    let l := m.scratch.readLine n
    if l.psn then substLine else { l with desc := 0 })

/-- Sections 1 to 8 of an image of KIND 2 or 3. The manual says nothing of the bytes of section 6: free values. -/
def bodyBlocks (s : State) (c : CtxId) (w : Window) (x : Ctx) (core : Bool) (d : ImageDims) : List Line × State :=
  let link := carryBlocks x.mem ++ linkBlocks s c w x
  if core then (draftBlocks x.draft ++ link ++ persistBlocks x.mem d.persist, s)
  else
    let (ve, s1) := openBlocks s (64 * d.nvi)
    (accBlocks x d.rows ++ elemBlocks s c w d.nins ++ tokenBlocks w d.ntok ++ link ++ ve ++ seaBlocks x d.rows
      ++ persistBlocks x.mem d.persist, s1)

/-! ### The header (R398) -/

/-- Offsets and lengths of the sections; a kind 1 image, and an empty section 2 to 8 of it, hold 0 and 0. -/
def sectionTable (kind : Nat) (lens : List Nat) : List Byte :=
  lens.zipIdx.flatMap (fun (n, i) =>
    leBytes 4 (if kind = 1 ∧ i ≠ 0 then 0 else 256 + (lens.take i).sum) ++ leBytes 4 (if kind = 1 ∧ i ≠ 0 then 0 else n))

/-- The 256 bytes of the header. -/
def headerBytes (id kind : Nat) (w : Window) (x : Ctx) (core : Bool) (d : ImageDims) (lens : List Nat) (body : List Byte) : List Byte :=
  let full : Bool := kind != 1
  let n (b : Bool) (v : Nat) : Nat := if b then v else 0
  let dr := x.draft
  let pos := dr.block % 256 + ((dr.nextb.map (·.2)).getD 0) % 256 * 2 ^ 8 + b2n dr.nextb.isSome * 2 ^ 16 + b2n dr.halt * 2 ^ 17
  let head := leBytes 2 0xD9A5 ++ leBytes 1 1 ++ leBytes 1 kind ++ leBytes 4 id ++ leBytes 4 (imageLen lens) ++ leBytes 4 pos
    ++ leBytes 4 (winWs w + winHs w * 2 ^ 8 + winCw w * 2 ^ 16 + winCh w * 2 ^ 24)
    ++ leBytes 4 (n (full && !core) d.nins + n full d.nche * 2 ^ 8 + n (full && !core) d.nvi * 2 ^ 16)
    ++ leBytes 4 (n (!core) d.rows + n (full && !core) d.cells * 2 ^ 16) ++ leBytes 4 (n (full && !core) d.ntok)
    ++ sectionTable kind lens ++ (List.range 16).flatMap (fun k => leBytes 4 (mapGet 0 x.counts k).toNat)
  let upTo := head ++ List.replicate (248 - head.length) 0 ++ leBytes 4 (crc32 body).toNat
  upTo ++ leBytes 4 (crc32 upTo).toNat

/-! ### Writing (R398, R401) -/

/-- A block written at `.sys`; else the CAUSE of R401. -/
def saveBlock (s : State) (va : Dword) (l : Line) : Option Nat × State :=
  match translate s va true with
  | (.at tgt a _, s1) => (none, unitWrite s1 noUnitNode (lineKey tgt a) (fun t => writeBack (writeLine t (lineKey tgt a) (BitVec.allOnes 64) l.data (some l.desc)) (lineKey tgt a)))
  | (.fail 4, s1) => (some 2, s1)
  | (_, s1) => (some 1, s1)

/-- Blocks written in order from an offset; the CAUSE and the offset of the first that fails. -/
def saveBlocks (save : Dword) (ofs : Nat) : List Line → State → Option (Nat × Nat) × State
  | [], s => (none, s)
  | l :: ls, s =>
    match saveBlock s (save + BitVec.ofNat 64 ofs) l with
    | (some c, s1) => (some (c, ofs), s1)
    | (none, s1) => saveBlocks save (ofs + 64) ls s1

/-- The section of an offset: 0 for the header. -/
def sectionAt (lens : List Nat) (ofs : Nat) : Nat :=
  if ofs < 256 then 0 else ((List.range 8).find? (fun i => decide (ofs < 256 + (lens.take (i + 1)).sum))).getD 7 + 1

/-- The record of kind 0x04, counted (R401, R403). -/
def postSave (s : State) (n : Node) (p : Poster) (cause kind sec : Nat) (va : Dword) (len done : Nat) : State :=
  let r : TrapRec :=
    { kind := 0x04, field := 0, src := 7, x := 0, y := 0, node := BitVec.ofNat 32 n.id,
      payload := [(0x10, 1, cause), (0x11, 1, kind), (0x12, 1, sec), (0x18, 8, va.toNat), (0x20, 4, len),
                  (0x24, 4, n.lrec.saveBytes.toNat), (0x28, 4, done)],
      poster := p }
  let s1 := postRec s r
  { s1 with dsp := { s1.dsp with saveFail := s1.dsp.saveFail + 1 } }

/-- An image written to a node's save area, its header last; false when a write failed and its record is posted. -/
def saveImage (s : State) (n : Node) (kind : Nat) (lens : List Nat) (body : List Line) (header : List Byte) : Bool × State :=
  let save := n.lrec.save
  let failed (r : Nat × Nat) (s1 : State) : Bool × State :=
    let done := if r.2 < 256 then (lens.sum + r.2) else r.2 - 256
    (false, postSave s1 n (.save n.id) r.1 kind (sectionAt lens r.2) (save + BitVec.ofNat 64 r.2) (imageLen lens) done)
  match saveBlocks save 256 body s with
  | (some r, s1) => failed r s1
  | (none, s1) =>
    match saveBlocks save 0 (byteBlocks header) s1 with
    | (some r, s2) => failed r s2
    | (none, s2) => (true, s2)

def blockBytesOf (l : List Line) : List Byte := l.flatMap (fun b => lineBytes b.data)

/-- The checkpoint of R32: an image of KIND 1. -/
def saveCheckpoint (s : State) (n : Node) (w : Window) : Bool × State :=
  let d := dimsOf w n.ctx 0
  let lens := [4096 * d.rows, 0, 0, 0, 0, 0, 0, 0]
  let body := accBlocks n.ctx d.rows
  saveImage s n 1 lens body (headerBytes n.id 1 w n.ctx false d lens (blockBytesOf body))

/-- The lengths of the image that a node would save as it stands. -/
def fullLens (n : Node) (w : Window) (core : Bool) (ntok : Nat) : List Nat := sectionLens (dimsOf w n.ctx ntok) core

/-- An image of KIND 2 or 3. -/
def saveFull (s : State) (n : Node) (w : Window) (kind : Nat) (core : Bool) (ntok : Nat) : Bool × State :=
  let d := dimsOf w n.ctx ntok
  let lens := sectionLens d core
  let (body, s1) := bodyBlocks s (.node n.id) w n.ctx core d
  saveImage s1 n kind lens body (headerBytes n.id kind w n.ctx core d lens (blockBytesOf body))

end Sys2Proof.Machine
end

