-- ==== Sys2Proof/Machine/Phase.lean ====
section
/-! DEFINITION. The boundary (R29 to R32, R179, R477), the end of a block (R13, R12, R426, R427), and the end of a node
(R41). -/

namespace Sys2Proof.Machine

/-! ### Load failures (R21, R51) -/

/-- A node's load has failed, and its record waits to be taken. -/
def retireWaits (s : State) (id : Nat) : Bool := posterWaits s (.retire id)

/-- A record of kind 0x06; once it is posted (R50) the node is retired as failed. -/
def failLoad (s : State) (id cause blk idx : Nat) (va : Dword) (word : Nat) : State :=
  let r : TrapRec :=
    { kind := 0x06, field := 0, src := 7, x := 0, y := 0, node := BitVec.ofNat 32 id,
      payload := [(0x10, 1, cause), (0x11, 1, blk % 256), (0x12, 1, idx), (0x18, 8, va.toNat), (0x20, 4, word)], poster := .retire id }
  if retireWaits s id then s else postRec s r

/-! ### Completions (R13, R30 step 1) -/

/-- An access of a memory instruction that has not completed; `waits` leaves out a WAITGE, which waits through a
pre-emption. The iteration at which a generator stands stopped has not been issued (R236). -/
def accessOpen (waits : Bool) (x : Word) (u : ElemSt) : Bool :=
  isMemWord x && u.pend.any (fun p => p.step != 0) && match instrOf x with
    | some (.waitge ..) => !waits
    | _ => true

/-- The instruction's own boundary is what it waits for. -/
def awaitsBoundary (x : Word) : Bool :=
  match instrOf x with
  | some (.phase ..) | some (.cntadd ..) | some (.cflush ..) => true
  | _ => false

/-- Every access issued in the phase has completed. -/
def accessesDone (waits : Bool) (w : Window) : Bool :=
  (w.code.zip w.units).all (fun (x, u) => !accessOpen waits x u || awaitsBoundary x)

/-! ### Commit (R30 step 2, R56, R179) -/

/-- The record of a fault of the dispatcher (R237). A source without coordinates (SRC 5, 7, 9) has X, Y and FIELD 0 in its
records: R49 gives it none (assumption log 75). -/
def dispatchFault (c : CtxId) (access blk cause : Nat) (va : Dword) (p : Poster) : TrapRec :=
  { kind := 0x01, field := 0, src := 7, x := 0, y := 0, node := ctxNode c,
    payload := [(0x10, 8, va.toNat), (0x28, 1, cause), (0x29, 1, access), (0x2A, 1, blk), (0x2B, 1, 255)], poster := p }

/-- A record posted unless the poster waits for one already. -/
def postOnce (s : State) (r : TrapRec) : State := if posterWaits s r.poster then s else postRec s r

/-- A line written through a host port at `.sys`: the boundary is to read on that port (R468). -/
def owesRead (s : State) (c : CtxId) (k : Nat) : State :=
  if keyTgt k = 1 ∨ keyTgt k = 2 then
    updCtx s c (fun x => { x with boundary := x.boundary.map (fun b => { b with hosts := setInsert b.hosts (keyTgt k) }) })
  else s

/-- The reads that follow the boundary's writes on the host ports: each may fail, as any request (R468). -/
def hostReads (s : State) (c : CtxId) : State :=
  match (getCtx s c).bind (·.boundary) with
  | none => s
  | some b =>
    if b.hosts.isEmpty then s
    else b.hosts.foldl (fun t p => (hostRequest t (lineKey p 0)).2) (updCtx s c (fun x => { x with boundary := some { b with hosts := [] } }))

/-- The staged global blocks committed one by one, and at `.sys` the host ports read; false when a block has no translation, or when
its unit's check rolls the node back (R368). The blocks commit in the order of the stage list, ascending in VA: the manual
defines none (R56, R177; assumption log 80). -/
def commitBlocks (c : CtxId) (sys : Bool) (blk : Nat) : List (Nat × Staged) → State → Bool × State
  | [], s => (true, hostReads s c)
  | (a, st) :: rest, s =>
    let va : Dword := BitVec.ofNat 64 a
    match resolve s c va true with
    | (.at tgt pa _, s1) =>
      let k := lineKey tgt pa
      match portOp s1 c none k with
      | (false, s2) => (false, s2)
      | (true, s2) =>
        let s3 := nodeWrite s2 c k st.mask st.data st.desc
        let s4 := if sys then owesRead (writeBack s3 k) c k else s3
        commitBlocks c sys blk rest (updMem s4 c (fun m => { m with stageG := mapErase m.stageG a }))
    | (.fail cause, s1) => (false, postOnce s1 (dispatchFault c 3 blk cause va (.boundary c)))
    | (_, s1) => (false, postOnce s1 (dispatchFault c 3 blk 2 va (.boundary c)))

/-- Scratch and carry words go to the region's banks. -/
def commitLocal (m : CtxMem) : CtxMem :=
  { m with scratch := m.stageS.foldl (fun st (a, x) =>
             st.writeLine (a / 64) (mergeLine (st.readLine (a / 64)) x.mask x.data x.desc)) m.scratch
           carry := m.carryStage.foldl (fun l (n, v) => mapSet Carry.zero l n v) m.carry
           stageS := [], carryStage := [] }

/-! ### Channels (R336, R343, R348) -/

/-- A marked end released, the channel closed first when FIN marks a push end. -/
def endChannel (node : Word) (s : State) (p : Endpoint) : State :=
  if p.ending then
    let c := getChan s p.chid
    let s1 := if p.fin && p.push && c.prod == node && c.state == chOpenSt then setChan s p.chid { c with state := chClosed } else s
    releaseEnd s1 p.chid p.push node
  else s

/-- What POPBs have popped into slots is committed. -/
def commitPops (m : CtxMem) : CtxMem :=
  { m with bobbins := m.bobbins.map (fun p => (p.1, { p.2 with pops := p.2.pops.map (fun f => { f with fresh := 0 }) })) }

/-- Step 3 of R30 for a node. -/
def commitChannels (s : State) (c : CtxId) : State :=
  match c with
  | .fw _ _ => s
  | .node id =>
    let node : Word := BitVec.ofNat 32 id
    let s1 := updMem (commitPtrs s node) c commitPops
    match getCtx s1 c with
    | none => s1
    | some x =>
      updCtx (x.ends.foldl (endChannel node) s1) c (fun y => { y with ends := y.ends.map (fun p => { p with ending := false, fin := false }) })

/-! ### The checkpoint (R30 step 4, R246) -/

/-- The active set is used at a checkpoint, the other one not. -/
def markSets (a : SeaArray) : SeaArray := setIdle (setActive a { activeSet a with used := true }) { idleSet a with used := false }

/-- What a checkpoint keeps of a context. -/
def checkpointOf (s : State) (x : Ctx) (w : Option Window) : Ckpt :=
  { win := w, carry := x.mem.carry, carryAtStart := x.mem.carryAtStart, puts := x.mem.puts, wr := x.mem.wr,
    bobbins := x.mem.bobbins, tiles := x.mem.tiles, draft := x.draft, sea := x.sea, cmds := cmdsStand s,
    commits := x.commitsDone, barBase := x.barBase, ends := x.ends, orphans := x.orphans, sys := false }

/-- The checkpoint of a boundary: the COMMIT boundary that takes it is counted, and its held commands start after it. -/
def boundaryCkpt (s : State) (x : Ctx) (w : Option Window) (b : Boundary) : Ckpt :=
  let k := checkpointOf s x w
  { k with sys := b.scope == .sys, commits := match b.cause with
      | .commit n => n
      | _ => k.commits }

/-- The kind 1 image, where rows are OPEN; then the checkpoint takes the place of the one before. False when the image
could not be written. -/
def takeCheckpoint (s : State) (c : CtxId) (b : Boundary) : Bool × State :=
  match c with
  | .fw _ _ => (true, s)
  | .node id =>
    match getNode s id with
    | none => (true, s)
    | some n =>
      let (ok, s1) := match n.win with
        | some w => if accOpen n.ctx then saveCheckpoint s n w else (true, s)
        | none => (true, s)
      if ok then
        (true, updNode s1 id (fun n =>
          let sea := { n.ctx.sea with arrays := n.ctx.sea.arrays.map (fun a => if a.fused then markSets a else a) }
          let x := { n.ctx with sea := sea }
          { n with checks := 0, saveFailed := none, ctx := { x with ckpt := some (boundaryCkpt s1 x n.win b) } }))
      else (false, updNode s1 id (fun n => { n with saveFailed := some 1 }))

/-! ### Commands that `.rel` held past their block (R30 step 6) -/

def actState : Act → State
  | .wait s => s
  | .emit s _ => s
  | .hold s _ => s
  | .trap s k => raiseCheck s k

/-- An arrival of an ended block at a `.dev` barrier (R232); none of it is left at `.region`. -/
def lateArrival (s : State) (e : Env) (t : Tgt) (op : Nat) (k : Fin 256) (sc : Scope) : Act :=
  let id := barId e k
  if !barDev sc then .emit s []
  else if noGroup s e true then badAccess s e t
  else
    let g := mapGet 0 e.ctx.barBase id + 1
    logArrival s e op id g true (fun s1 =>
      .emit (updCtx (noteArrival s1 e.c (barGroup s1 e.c).1 id g) e.c (fun x => { x with barBase := mapPut x.barBase id g })) (genOut t g))

/-- A command that `.rel` has held starts (R30 step 6, R61); `late` when its block has ended. -/
def startHeld (late : Bool) (s : State) (e : Env) (p : Pend) : Act :=
  let o : Operands := { a := p.a, b := p.b, c := p.c, p := zeroTok }
  match winInstr e.win e.i with
  | some (.launch t k _ ofs) => launchGo t ofs k s e p.a
  | some (.mred t k od op) => mredGo t od op k s e o
  | some (.mapw t k _ wr load) => mapwAct t k wr load s e
  | some (.unmapw t k _ drop) => unmapwAct t k drop s e
  | some (.agcfg t k od ind) => if late then .emit s [] else agcfgAct t k od ind s e p.a p.b
  | some (.tqack t ..) =>
    if o.a.psn || o.b.psn then .emit s (poisonedNothing t)
    else
      let (ok, s1) := tqAckDo (joinWords o.a.word o.b.word) s
      status t s1 (if ok then 0 else 1)
  | some (.bar t k od) =>
    if late then lateArrival s e t 0x65 k od.scope
    else arriveThen s e t 0x65 k od.scope (fun s1 g => .hold s1 { p with val := BitVec.ofNat 64 g, step := 1 })
  | some (.arrv t k _ sc) =>
    if late then lateArrival s e t 0x66 k sc else arriveThen s e t 0x66 k sc (fun s1 g => .emit s1 (genOut t g))
  | _ => .emit s []

/-- The held firings of one unit started in their order; those that must wait stay. The block has ended: tokens lead nowhere. -/
def startLate (c : CtxId) (w : Window) (i : Nat) (u : ElemSt) : List Pend → State → List Pend × State
  | [], s => ([], s)
  | p :: ps, s =>
    match getCtx s c with
    | none => ([], s)
    | some x =>
      match (if p.step = 0 then startHeld true s { c := c, i := i, ctx := x, win := w, u := u } p else .emit s []) with
      | .wait s1 => (p :: ps, s1)
      | a => startLate c w i u ps (actState a)

/-- The held commands of an ended block started; none is left when all could. -/
def startOrphan (c : CtxId) (s : State) (o : Window × Nat) : Option (Window × Nat) × State :=
  match o.1.units[o.2]? with
  | none => (none, s)
  | some u =>
    match startLate c o.1 o.2 u u.pend s with
    | ([], s1) => (none, s1)
    | (ps, s1) => (some ({ o.1 with units := modNth (fun u => { u with pend := ps }) o.1.units o.2 }, o.2), s1)

/-- Commands of the block that `.rel` still holds. -/
def heldCommands (w : Window) : List (Window × Nat) :=
  (w.code.zip w.units).zipIdx.filterMap (fun ((x, u), i) =>
    if u.pend.any (fun p => p.step == 0) then
      match instrOf x with
      | some (.launch ..) | some (.mred ..) | some (.mapw ..) | some (.unmapw ..) | some (.tqack ..) | some (.bar ..) | some (.arrv ..)
      | some (.agcfg ..) => some (w, i)
      | _ => none
    else none)

/-- The phases that a held command of an ended block waits past: its scope is the instruction's. -/
def orphanScope (o : Window × Nat) : Scope :=
  match winInstr o.1 o.2 with
  | some (.launch _ _ od _) | some (.mred _ _ od _) | some (.mapw _ _ od ..) | some (.unmapw _ _ od _) | some (.bar _ _ od)
  | some (.agcfg _ _ od _) => od.scope
  | some (.tqack _ _ sc) | some (.arrv _ _ _ sc) => sc
  | _ => .dev

/-- Step 6 of R30 for what no window holds any more; the shuttle's commands start by themselves. -/
def startOrphans (s : State) (c : CtxId) (sys : Bool) : State :=
  match getCtx s c with
  | none => s
  | some x =>
    let (go, stay) := x.orphans.partition (fun o => sys || orphanScope o != .sys)
    let (left, s1) := go.foldl (fun (acc : List (Window × Nat) × State) o =>
      let r := startOrphan c acc.2 o
      (acc.1 ++ r.1.toList, r.2)) ([], s)
    updCtx s1 c (fun x => { x with orphans := left ++ stay })

/-- The scope that holds back a unit's commands. -/
def heldScope (w : Window) (i : Nat) : Scope := orphanScope (w, i)

/-- One unit's held firings at a pre-emption's commit (R324, R388): what they emit is kept and delivered after the restore. -/
def startKept (c : CtxId) (s : State) (i : Nat) : State :=
  match envAt s c i with
  | none => s
  | some e =>
    e.u.pend.zipIdx.foldl (fun s (p, j) =>
      match envAt s c i with
      | none => s
      | some e1 =>
        if p.step ≠ 0 || p.ready.isSome || !decide (p.phase < relMark e1.ctx (heldScope e1.win i)) then s
        else
          let put (s1 : State) (q : Pend) : State := updUnit s1 c i (fun u => { u with pend := modNth (fun _ => q) u.pend j })
          match startHeld false s e1 p with
          | .wait s1 => s1
          | .emit s1 out => put s1 { p with step := 1, ready := some out }
          | .hold s1 q => put s1 q
          | .trap s1 k => raiseCheck s1 k) s

/-- Step 6 of R30 at a pre-emption, whose block goes on later. -/
def startKeptAll (s : State) (c : CtxId) : State :=
  match getWin s c with
  | some w => ((List.range w.units.length).filter (fun i => !(heldCommands w).all (fun h => h.2 != i))).foldl (startKept c) s
  | none => s

/-! ### The boundary (R30) -/

/-- A boundary that the program asks for while an accumulation is open (R31). -/
def insideAccumulation (x : Ctx) (b : Boundary) : Bool :=
  match b.cause with
  | .program _ | .commit _ => accOpen x
  | _ => false

def causeIdx : Cause → Nat
  | .program i => i
  | _ => 255

/-- Steps 5 and 6: the snapshot dropped, the log cleared, the held commands started. -/
def endBoundary (s : State) (c : CtxId) (b : Boundary) : State :=
  let sys := b.scope == .sys
  let n := match b.cause with
    | .commit n => some n
    | _ => none
  let s1 := updCtx s c (fun x =>
    { x with mem := emptyWays { x.mem with snapG := [], snapS := [], snapW := [] }, log := [], replay := [], phase := x.phase + 1,
             sysPhase := x.sysPhase + b2n sys, boundary := none, commitsDone := n.getD x.commitsDone })
  let s2 := startOrphans s1 c sys
  if b.cause == .preempt then startKeptAll s2 c else s2

/-- The steps of a boundary in order, once it may begin; false while it waits for a translation or a save. -/
def runBoundary (s : State) (c : CtxId) (b : Boundary) : Bool × State :=
  let s := settleStage s c
  match getCtx s c with
  | none => (true, s)
  | some x =>
    if posterWaits s (.boundary c) then (false, s)
    else
      match commitBlocks c (b.scope == .sys) x.draft.block x.mem.stageG s with
      | (false, s1) => (false, s1)
      | (true, s1) =>
        let s2 := commitChannels (updMem s1 c commitLocal) c
        let s3 := match b.cause with
          | .unfuse n => freeArray s2 c n
          | _ => s2
        match (if b.cause == .nodeEnd then (true, s3) else takeCheckpoint s3 c b) with
        | (false, s4) => (false, s4)
        | (true, s4) => (true, endBoundary s4 c b)

/-- A boundary asked for and, when it may begin, run: true when it is over. -/
def doBoundary (s : State) (c : CtxId) (sc : Scope) (cause : Cause) : Bool × State :=
  let hosts := (((getCtx s c).bind (·.boundary)).map (·.hosts)).getD []
  let b : Boundary := { scope := sc, cause := cause, checked := true, hosts := hosts }
  runBoundary (updCtx s c (fun x => { x with boundary := some b })) c b

/-- A boundary that another event carries out. -/
def eventBoundary : Cause → Bool
  | .preempt | .blockEnd | .nodeEnd => true
  | _ => false

/-- A running block fails: the sources close, the region drains its tokens to quiescence, then the node is retired (R21). -/
def drainThenFail (s : State) (c : CtxId) (b : Boundary) : State :=
  let s1 := updCtx s c (fun x => { x with boundary := some { b with fails := true } })
  match c with
  | .node id => updNode s1 id (fun n => { n with closed := true })
  | .fw _ _ => s

/-- The boundary that a frozen window's block had asked for: it goes on under what that block keeps, and the handler's is put back
(R420). -/
def frozenBoundary (s : State) (k : Nat) (l : Fin 3) (c : CtxId) : State :=
  let co := getCore s k
  let f := coreWin co l.val
  match f.boundary, f.win with
  | some b, some w =>
    if !accessesDone false w then s
    else
      let s1 := (runBoundary (updCore s k (fun co => { co with ctx := thawWin co.ctx f })) c b).2
      updCore s1 k (fun k1 =>
        setCoreWin { k1 with ctx := thawWin k1.ctx (freezeWin co.ctx FwWin.init) } l.val (freezeWin k1.ctx (coreWin k1 l.val)))
  | _, _ => s

/-- The boundary of a context that runs, and the held commands of a checkpoint's boundary after a rollback. -/
def runningBoundary (s : State) (c : CtxId) : State :=
  match getCtx s c, getWin s c with
  | some x, some w =>
    match x.boundary with
    | none =>
      match x.startAgain with
      | some sys => startOrphans (updCtx s c (fun x => { x with startAgain := none })) c sys
      | none => s
    | some b =>
      if eventBoundary b.cause || (match c with | .node id => ((getNode s id).bind (·.saveFailed)).isSome | .fw _ _ => false) then s
      else if b.fails then
        match c with
        | .node id => if s.run.still.elem c then failLoad s id 7 x.draft.block (causeIdx b.cause) w.va 0 else s
        | .fw _ _ => s
      else if !b.checked && insideAccumulation x b then drainThenFail s c b
      else
        let s1 := updCtx s c (fun x => { x with boundary := some { b with checked := true } })
        if accessesDone false w then (runBoundary s1 c b).2 else s1
  | _, _ => s

/-- PHASE_BOUNDARY: R31's test when the boundary is asked for, then R30 once every access has completed. -/
def execPhaseBoundary (c : CtxId) (s : State) : Host.Outcome State Fault Refusal :=
  .next (match c with
    | .node _ => runningBoundary s c
    | .fw k l => if frozen s c then frozenBoundary s k.val l c else runningBoundary s c)

/-- Markers of rank COMMIT or above that every counting memory instruction of a block has joined (R477). -/
def commitsJoined (w : Window) : Nat :=
  minList ((w.code.zip w.units).filterMap (fun (x, u) =>
    if isMemWord x && !(joinSlotsOf w x).isEmpty then some u.commits else none))

/-- A COMMIT boundary has fallen due. -/
def commitDue (s : State) (c : CtxId) : Bool :=
  match getCtx s c, getWin s c with
  | some x, some w => x.boundary.isNone && winCommit w != 15 && decide (x.commitsDone < commitsJoined w)
  | _, _ => false

/-- COMMIT_BOUNDARY. -/
def execCommitBoundary (c : CtxId) (s : State) : Host.Outcome State Fault Refusal :=
  .next (if commitDue s c then
      match getCtx s c with
      | some x => askBoundary s c .dev (.commit (x.commitsDone + 1))
      | none => s
    else s)

/-! ### The end of a block (R12, R13, R143, R147, R426, R427) -/

/-- An exit instruction targets no instruction of the block. -/
def exitUnits (w : Window) : List ElemSt :=
  (w.code.zip w.units).filterMap (fun (x, u) => if (targetsOf w x).isEmpty then some u else none)

/-- R13. -/
def blockDone (w : Window) : Bool :=
  !(exitUnits w).isEmpty && (exitUnits w).all (·.term) && (w.code.zip w.units).all (fun (x, u) => !accessOpen false x u)

/-- Where a draft goes on. -/
inductive Onward where
  | go (d : DraftSt)
  | over
  /-- The next load fails (R426): 0 the stack overflows, 1 it is empty. -/
  | stack (d : DraftSt) (info : Nat)

/-- A draft that reaches its end returns as RETB does while its stack holds an entry. -/
def unwind : List (Dword × Nat) → Onward
  | [] => .over
  | (va, k) :: st => if k = 255 then unwind st else .go { DraftSt.init va with block := k, stack := st }

/-- Index `k` of the draft at `va`; 0xFF ends it. -/
def goIndex (va : Dword) (k : Nat) (st : List (Dword × Nat)) : Onward :=
  if k = 255 then unwind st else .go { DraftSt.init va with block := k, stack := st }

/-- The draft position after a block whose NEXT is `next` (R427). -/
def onward (d : DraftSt) (next : Nat) : Onward :=
  let after := ((d.nextb.map (·.2)).getD next)
  if d.halt then .over
  else
    match d.jump with
    | some (_, .jmp va i) => goIndex va i d.stack
    | some (_, .call va i) => if 8 ≤ d.stack.length then .stack d 0 else goIndex va i ((d.va, after) :: d.stack)
    | some (_, .ret) => if d.stack.isEmpty then .stack d 1 else match d.stack with
      | (va, k) :: st => goIndex va k st
      | [] => .over
    | none => goIndex d.va after d.stack

/-- The generations of `.dev` barriers that a block has arrived for. -/
def barBaseAfter (x : Ctx) (w : Window) : List (Nat × Nat) :=
  (List.range 16).foldl (fun m id => mapSet 0 m id (mapGet 0 x.barBase id + minList (partyCounts w id true))) x.barBase

/-- WLOADs in progress complete, with the blocks they have received (R264). -/
def endLoads (w : Window) (s : State) (c : CtxId) : State :=
  (List.range w.units.length).foldl (fun s i =>
    match envAt s c i, winInstr w i with
    | some e, some (.wload _ k _ y) =>
      if e.u.sea.loading && (getArr e.ctx y.val).fused then
        finishLoad (addCount s c cntMismatch 1) e y.val (wloadPlanes (poolWord w k.val)) e.u.sea.blocks
      else s
    | _, _ => s) s

/-- Pending swaps take effect after the block's last marker (R265). -/
def endSwaps (s : State) (c : CtxId) : State :=
  updSea s c (fun v => { v with arrays := v.arrays.map (swapAt 7) })

/-- PUTW's values staged (R147); false while an entry is wanted, a boundary having been asked for. -/
def stagePuts (c : CtxId) : List (Nat × Carry) → State → Bool × State
  | [], s => (true, s)
  | (n, v) :: rest, s =>
    match stageW s c n v with
    | (true, s1) => stagePuts c rest (updMem s1 c (fun m => { m with puts := rest }))
    | (false, s1) => (false, s1)

/-- What every block's end does to its context, whoever runs it. -/
def leaveBlock (s : State) (c : CtxId) (w : Window) : State :=
  let s1 := endSwaps (endLoads w s c) c
  let ev := Ev.sum (w.units.map (fun u => u.ve.ev))
  updCtx (addEv s1 c ev) c (fun x => { x with orphans := x.orphans ++ heldCommands w, barBase := barBaseAfter x w, commitsDone := 0 })

/-- The next block is to be loaded. -/
def awaitLoad (s : State) (c : CtxId) : State := nextJob s (.event (.blockLoad c))

/-- The turn on a core passes on where R410 says so. -/
def passTurn (s : State) (k : Nat) : State :=
  let co := getCore s k
  if co.slice.toNat ≤ s.run.time - co.sliceStart ∨ co.yielded then nextTurn s k else s

/-- A node's block has ended. -/
def endNodeBlock (s : State) (id : Nat) (w : Window) : State :=
  let c : CtxId := .node id
  let s1 := leaveBlock s c w
  match onward (getDraft s1 c) (winNext w) with
  | .over =>
    let s2 := updNode (updDraft s1 c (fun d => { d with stack := [] })) id (fun n => { n with completing := some 0 })
    nextJob s2 (.event (.nodeComplete id))
  | .stack d _ => failLoad s1 id 4 d.block 255 w.va 0
  | .go d =>
    let s2 := updNode (updDraft s1 c (fun _ => d)) id (fun n => { n with loading := true })
    match ctxCore s2 c with
    | some k => awaitLoad (passTurn s2 k) c
    | none => awaitLoad s2 c

/-- A window at level 0 whose draft has ended: nothing more is loaded. -/
def idleWin : FwWin := { FwWin.init with draft := { DraftSt.init 0 with halt := true } }

/-- A firmware block has ended: a marked handler returns, a core that is to switch does, else the draft goes on. -/
def endFirmwareBlock (s : State) (k : Fin 16) (l : Fin 3) (w : Window) : State :=
  let c : CtxId := .fw k l
  let s1 := leaveBlock s c w
  let next (s : State) (d : DraftSt) : State :=
    awaitLoad (updCore s k.val (fun co => setCoreWin co l.val { FwWin.init with draft := d })) c
  if l ≠ 0 ∧ (coreWin (getCore s1 k.val) l.val).marked then returnTrap s1 k.val
  else if l = 0 ∧ (getCore s1 k.val).swapPending then switchCore s1 k.val
  else
    match onward (getDraft s1 c) (winNext w) with
    | .go d => next s1 d
    | .over => if l = 0 then updCore s1 k.val (fun co => { co with f0 := idleWin }) else returnTrap s1 k.val
    | .stack _ info =>
      takeTrap (updDraft s c (fun d => { d with halt := true })) k.val l.val 0x04 none (BitVec.ofNat 32 info)

/-- The window of the level at which a core's firmware runs, or of a node that runs. -/
def blockRuns (s : State) (c : CtxId) : Bool :=
  match c with
  | .node id => match getNode s id with
    | some n => n.st == .placed && !n.loading && n.completing.isNone && n.saveFailed.isNone && !retireWaits s id
        && !((ctxCore s c).any (crashWaits s))
    | none => false
  | .fw k l => l.val == (getCore s k.val).level.toNat && !crashWaits s k.val

/-- BLOCK_END. -/
def execBlockEnd (c : CtxId) (s : State) : Host.Outcome State Fault Refusal :=
  match getCtx s c, getWin s c with
  | some x, some w =>
    if !blockRuns s c || x.boundary.isSome || !blockDone w || commitDue s c then .next s
    else
      match stagePuts c x.mem.puts s with
      | (false, s1) => .next s1
      | (true, s1) =>
        .next (match c with
          | .node id => endNodeBlock s1 id w
          | .fw k l => endFirmwareBlock s1 k l w)
  | _, _ => .next s

/-! ### The end of a node (R40, R41, R195, R325, R343) -/

/-- One release. -/
def releaseOne (s : State) (id : Nat) : State :=
  let drop : State := { s with dsp := { s.dsp with relDrop := s.dsp.relDrop + 1 } }
  match getNode s id with
  | none => drop
  | some n =>
    if n.st ≠ .waiting ∨ n.preds = 0 then drop
    else
      let s1 := updNode s id (fun n => { n with preds := n.preds - 1 })
      if n.preds = 1 then enterPool s1 id .ready else s1

/-- Step 1: the `.sys` boundary, once every command of the node has completed; the rows that are OPEN are discarded. -/
def completeBoundary (s : State) (id : Nat) : State :=
  let c : CtxId := .node id
  match getNode s id with
  | none => s
  | some n =>
    let s0 := updSea s c (fun v => { v with acc := [] })
    match (if n.completing = some 0 then doBoundary s0 c .sys .nodeEnd else (true, s0)) with
    | (false, s1) => s1
    | (true, s1) => updNode s1 id (fun n => { n with completing := some 1 })

/-- Every command that the node issued has completed. -/
def commandsDone (s : State) (id : Nat) : Bool :=
  outstanding s (.node id) == 0 && (match getNode s id with
    | some n => n.ctx.orphans.isEmpty
    | none => true)

/-- Every command of the node that has been able to start has completed, its counter add included; the others start with the
final boundary's commit (R325, assumption log 57). -/
def startedDone (s : State) (id : Nat) : Bool :=
  s.sh.cmds.all (fun x => x.ctx != .node id || x.doneAt.isSome || (!x.started && (match x.waitPhase, getCtx s x.ctx with
    | some n, some c => decide (relMark c x.order.scope ≤ n)
    | _, _ => false)))

/-- The ends, pins and windows dropped, and the executor free. -/
def completeRelease (s : State) (id : Nat) : State :=
  let s1 := dropPins (releaseEnds s (BitVec.ofNat 32 id)) id
  updNode (releaseExecutor s1 id) id (fun n => { n with completing := some 2, win := none })

/-- The completion counter's add at `.sys`; it waits where there is no writable translation. -/
def completeCounter (s : State) (id : Nat) (n : Node) : State :=
  let go (s1 : State) : State := updNode s1 id (fun n => { n with completing := some 3 })
  let va := n.lrec.counter
  if va = 0 then go s
  else if posterWaits s (.counter id) then s
  else
    match translate s va true with
    | (.at tgt a _, s1) => go (counterAdd s1 (.node id) (lineKey tgt a) a 1 true)
    | (.fail cause, s1) => postRec s1 (dispatchFault (.node id) 8 255 cause va (.counter id))
    | (_, s1) => go s1

/-- Successor entry `i`, of 4 bytes. -/
def completeSuccessor (s : State) (id : Nat) (n : Node) (i : Nat) : State :=
  let go (s1 : State) : State := updNode s1 id (fun n => { n with completing := some (i + 4) })
  let va := n.lrec.succ + BitVec.ofNat 64 (4 * i)
  if posterWaits s (.succ id) then s
  else
    match translate s va false with
    | (.at tgt a w, s1) =>
      let (l, s2) := unitLine s1 (BitVec.ofNat 32 id) (.at tgt a w)
      if l.psn then go (addCount { s2 with dsp := { s2.dsp with relDrop := s2.dsp.relDrop + 1 } } (.node id) cntPoison 1)
      else go (releaseOne s2 (lineNat l.data (a % 64) 4))
    | (.fail cause, s1) => postRec s1 (dispatchFault (.node id) 4 255 cause va (.succ id))
    | (_, s1) => go s1

/-- The successors from entry `i` on, `k` at most, until one waits. -/
def completeSuccessors (id : Nat) : Nat → Nat → State → State
  | 0, _, s => freeEntry s id
  | k + 1, i, s =>
    match getNode s id with
    | none => s
    | some n =>
      let s1 := completeSuccessor s id n i
      if (getNode s1 id).bind (·.completing) = some (i + 4) then completeSuccessors id k (i + 1) s1 else s1

/-- NODE_COMPLETE: the steps of R41, as far as they go. `completing` is 0 before the boundary, 1 before the commands
have completed, 2 before the counter, 3 + i before successor entry i. -/
def execNodeComplete (id : Nat) (s : State) : Host.Outcome State Fault Refusal :=
  let at_ (k : Nat) (s : State) : Bool := decide ((getNode s id).bind (·.completing) = some k)
  let s0 := if at_ 0 s && startedDone s id then completeBoundary s id else s
  let s1 := if at_ 1 s0 then startOrphans s0 (.node id) true else s0
  let s2 := if at_ 1 s1 && commandsDone s1 id then completeRelease s1 id else s1
  let s3 := match getNode s2 id with
    | some n => if at_ 2 s2 then completeCounter s2 id n else s2
    | none => s2
  .next (match getNode s3 id with
    | some n => match n.completing with
      | some k => if 3 ≤ k then completeSuccessors id (n.lrec.succCount.toNat - (k - 3)) (k - 3) s3 else s3
      | none => s3
    | none => s3)

end Sys2Proof.Machine
end

