-- ==== Sys2Proof/Machine/Units.lean ====
section
/-! DEFINITION. Check 7 of a block's load (R85): what each unit checks of its own word and of the pool words that it reads
(R71, R77, R137, R206, R211, R219, R231, R274, R282, R301, R305, R316, R317, R327, R360, R378, R406, R435, R461). -/

namespace Sys2Proof.Machine

/-! ### The reach into the pool (R71) -/

/-- Pool words of a stream descriptor (R210). -/
def streamWords (w : Window) (k : Nat) : Nat :=
  3 + 2 * (wbits (poolWord w (k + 1)) 26 25 + 1) + 2 * wbits (poolWord w (k + 2)) 30 30

/-- Where an instruction reads the pool, and how many words. -/
def poolReach (w : Window) (i : Instr) : Nat × Nat :=
  match i with
  | .fank _ k c => (k.val, c.val + 1)
  | .const _ k n => (k.val, n.val + 1)
  | .lds _ k | .sts _ k | .ldb _ k _ | .stb _ k _ | .agen _ k _ _ => (k.val, streamWords w k.val)
  | .agcfg _ k _ _ | .bar _ k _ | .arrv _ k _ _ | .bwait _ k _ _ | .split _ k | .fuse _ k _ | .wload _ k _ _ | .mma _ k _ _ _
  | .accz _ k | .edly _ k _ | .vadd _ k _ | .vsub _ k _ | .vmul _ k _ | .vfma _ k _ _ | .vmin _ k _ | .vmax _ k _
  | .vcmp _ k _ _ | .vsel _ k _ _ | .vred _ k .. | .vexp2 _ k | .vrsq _ k | .vrcp _ k | .chopen _ k | .pushb _ k | .popb _ k
  | .chgrow _ k _ => (k.val, 1)
  | .bobdef _ k _ | .mmao _ k _ _ _ | .accdr _ k _ _ | .accsv _ k _ | .accrs _ k | .vcvt _ k _ _ | .vqnt _ k _ | .launch _ k _ _
  | .jmpb _ k | .callb _ k => (k.val, 2)
  | .mred _ k _ _ | .framem _ k _ | .sigchk _ k _ _ _ => (k.val, 3)
  | .mapw _ k .. | .unmapw _ k .. => (k.val, 4)
  | .chdef _ k => (k.val, 6)
  | .copy _ k _ _ => (k.val, 10)
  | .gath _ k _ | .scat _ k _ _ | .xconv _ k _ _ | .relay _ k _ => (k.val, 13)
  | .mcast _ k _ _ => (k.val, 11 + 2 * wbits (poolWord w (k.val + 10)) 2 0)
  | .vperm _ k pool _ => if pool then (k.val, 16) else (0, 0)
  | .vbcst _ k _ fromv => if fromv then (0, 0) else (k.val, 1)
  | .einj _ k off => if off then (0, 0) else (k.val, 3)
  | _ => (0, 0)

/-! ### Streams (R211, R219) -/

/-- A descriptor's case: the element sizes that its instruction may have, and what it allows. -/
structure StreamUse where
  block : Bool
  store : Bool
  noAuto : Bool
  sx : Bool
  ssc : Bool
  bob : Bool

def streamOk (w : Window) (k : Nat) (u : StreamUse) (anySize : Bool) : Bool :=
  let d := streamDesc w k
  let p (j : Nat) : Word := poolWord w (k + j)
  let sp := wbits (p 1) 31 30
  let nd := d.counts.length
  decide (sp < 2) && (sp == 0 || (!d.ns && !d.ssc && wbits (p 1) 22 0 == 0))
    && (anySize || (d.size == 64) == u.block)
    && d.base % d.size == 0 && d.strides.all (fun x => x.toNat % d.size == 0)
    && !(d.ns && u.store) && !(d.auto && u.noAuto) && !(d.sx && !u.sx) && !(d.ssc && !u.ssc) && (d.bob == 0 || u.bob)
    && wbits (p 2) 24 0 == 0 && (List.range nd).all (fun j => wbits (p (3 + 2 * j)) 31 24 == 0)
    && (!d.ssc || wbits (p (4 + 2 * nd)) 31 23 == 0)

/-- AGCFG's target is slot b of a generator with REB. -/
def agcfgTarget (w : Window) (t : Tgt) : Bool :=
  match t with
  | none => false
  | some x => x.slot == .b && (match winInstr w x.index.val with
    | some (.lds _ k) | some (.sts _ k) | some (.ldb _ k _) | some (.stb _ k _) | some (.agen _ k _ _) => (streamDesc w k.val).reb
    | _ => false)

/-! ### The sea (R274) -/

def rectInside (w : Window) (x : Word) : Bool :=
  let r := rectWord x
  decide (r.1 + r.2.2.1 ≤ winCw w) && decide (r.2.1 + r.2.2.2 ≤ winCh w)

/-- A format code is listed. -/
def fmtIs (c : Nat) (ok : Fmt → Bool) : Bool := ((fmtOfCode c).map ok).getD false

/-- A conversion word (R251). -/
def convWordOk (x : Word) : Bool :=
  let d := drainFmt x
  wbits x 31 20 == 0 && fmtIs (wbits x 7 0) (fun f => edgeAccepts f || f == .w64)
    && (!d.nsat || d.fmt == .e4m3 || d.fmt == .e5m2) && !(d.fmt.isInt && d.scale == 255)
    && (d.fmt != .w64 || (d.scale == 0 && !d.dst))

/-- An `mma` word. -/
def mmaWordOk (x : Word) (src : MmaSrc) : Bool :=
  wbits x 31 29 == 0 && fmtIs (wbits x 28 21) edgeAccepts && (src == .bob || wbits x 20 16 == 0)

/-- Group 0x8's configuration words. That ACCRS refuses an offset which is no multiple of 64, as ACCSV does (R274), is the model's
choice (assumption log 72). -/
def seaOk (w : Window) (i : Instr) : Bool :=
  let p (k : Fin 256) (j : Nat) : Word := poolWord w (k.val + j)
  match i with
  | .fuse _ k _ => rectInside w (p k 0)
  | .wload _ k strm _ => wbits (p k 0) 31 9 == 0 && !(strm && wbits (p k 0) 4 0 != 0)
  | .mma _ k _ src _ => mmaWordOk (p k 0) src
  | .mmao _ k _ src _ => mmaWordOk (p k 0) src && wbits (p k 0) 15 0 == 0 && convWordOk (p k 1)
  | .accdr _ k _ _ => convWordOk (p k 1)
  | .accsv _ k _ | .accrs _ k => wbits (p k 1) 5 0 == 0
  | .edly _ k _ => wbits (p k 0) 31 14 == 0 && wbits (p k 0) 7 6 == 0
  | _ => true

/-! ### Vector engines (R282, R293, R301) -/

def vectorOut (f : Fmt) : Bool := f == .fp32 || f == .bf16 || f == .fp16

/-- NFMT: none, or an element format. -/
def nfmtOk (x : Word) (q4 : Bool) : Bool :=
  wbits x 23 16 == 0 || fmtIs (wbits x 23 16) (fun f => edgeAccepts f || (q4 && f == .q4n))

def vopOk (x : Word) : Bool := wbits x 31 28 == 0 && fmtIs (wbits x 7 0) vectorOut && !wbit x 26 && nfmtOk x false

def nsatOk (nsat : Bool) (f : Fmt) : Bool := !nsat || f == .e4m3 || f == .e5m2

def vcvtOk (x : Word) (qs : Bool) : Bool :=
  let v := vopOf x
  wbits x 31 28 == 0 && fmtIs (wbits x 7 0) edgeAccepts && !(v.ofmt.isInt && v.scale == 255) && !(v.sat && v.nsat) && nsatOk v.nsat v.ofmt
    && (if qs then wbits x 23 16 == 0 || fmtIs (wbits x 23 16) (· == .q4n) else nfmtOk x false)

def vqntOut (f : Fmt) : Bool := [Fmt.int16, .int8, .int4, .nat8, .e4m3, .e5m2, .q4n].elem f

/-- VQNT's NFMT is as VCVT's, so with QS Q4N too. -/
def vqntOk (x : Word) (qs : Bool) : Bool :=
  let v := vopOf x
  wbits x 31 28 == 0 && fmtIs (wbits x 7 0) vqntOut && v.scale == 0 && !v.sat && nsatOk v.nsat v.ofmt && nfmtOk x qs

def countWordOk (x : Word) : Bool := wbits x 28 12 == 0

def vectorOk (w : Window) (i : Instr) : Bool :=
  let p (k : Fin 256) (j : Nat) : Word := poolWord w (k.val + j)
  match i with
  | .vadd _ k _ | .vsub _ k _ | .vmul _ k _ | .vfma _ k _ _ | .vmin _ k _ | .vmax _ k _ | .vcmp _ k _ _ | .vsel _ k _ _
  | .vexp2 _ k | .vrsq _ k | .vrcp _ k => vopOk (p k 0)
  | .vred _ k _ _ _ vec => vopOk (p k 0) && (vec || (vopOf (p k 0)).ofmt == .fp32)
  | .vcvt _ k qs _ => vcvtOk (p k 0) qs && countWordOk (p k 1)
  | .vqnt _ k qs => vqntOk (p k 0) qs && countWordOk (p k 1)
  | .vbcst _ k _ fromv => fromv || wbits (p k 0) 31 16 == 0
  | _ => true

/-! ### The shuttle (R305, R316, R317, R327) -/

/-- A destination's word pair, X2 and X3. -/
def branchWordsOk (x2 x3 : Word) : Bool :=
  let dk := wbits x3 31 30
  let cr := wbit x3 29
  decide (dk < 3) && (dk != 0 || wbits x2 5 0 == 0) && (!cr || dk == 0) && (cr || wbits x3 28 25 == 0) && wbits x3 24 23 == 0
    && (dk != 1 || wbits x3 22 0 == 0)

/-- X8 and X9, or X11 and X12 of a RELAY: a counter. -/
def counterWordsOk (lo hi : Word) : Bool := wbits lo 2 0 == 0 && !wbit hi 23

/-- X0 to X9. -/
def descOk (w : Window) (k : Nat) : Bool :=
  let p (j : Nat) : Word := poolWord w (k + j)
  let sk := wbits (p 1) 31 30
  decide (sk < 2) && (if sk = 0 then wbits (p 0) 5 0 == 0 else wbits (p 1) 22 0 == 0) && wbits (p 1) 29 23 == 0
    && branchWordsOk (p 2) (p 3) && wbits (p 5) 31 24 == 0 && wbits (p 6) 5 0 == 0 && wbits (p 7) 5 0 == 0
    && counterWordsOk (p 8) (p 9)

/-- A VA of two words, a multiple of 4. -/
def indexWordsOk (lo hi : Word) : Bool := wbits lo 1 0 == 0 && wbits hi 31 23 == 0

/-- XCONV's conversion word (R316). -/
def xconvWordOk (x : Word) (planes : Bool) : Bool :=
  let f := xconvFmt x
  fmtIs (wbits x 31 24) (fun g => edgeAccepts g || g == .q4n)
    && (if planes then f.ofmt == .planes && f.scale == 0 else fmtIs (wbits x 7 0) edgeAccepts && wbits x 23 20 == 0)
    && nsatOk f.nsat f.ofmt && !(f.sat && f.nsat) && !(f.ofmt.isInt && f.scale == 255)

def shuttleOk (w : Window) (i : Instr) : Bool :=
  let p (k : Fin 256) (j : Nat) : Word := poolWord w (k.val + j)
  let sk (k : Fin 256) : Nat := wbits (p k 1) 31 30
  let dk (k : Fin 256) : Nat := wbits (p k 3) 31 30
  match i with
  | .copy _ k _ _ => descOk w k.val
  | .gath _ k _ => descOk w k.val && sk k == 0 && indexWordsOk (p k 10) (p k 11) && p k 12 != 0
  | .scat _ k _ _ => descOk w k.val && dk k == 0 && !wbit (p k 3) 29 && indexWordsOk (p k 10) (p k 11) && p k 12 != 0
  | .mcast _ k _ _ =>
    let nb := wbits (p k 10) 2 0
    descOk w k.val && wbits (p k 10) 31 3 == 0 && nb != 0
      && (List.range nb).all (fun b => branchWordsOk (p k (11 + 2 * b)) (p k (12 + 2 * b)))
  | .xconv _ k _ planes =>
    let rb := wbits (p k 4) 31 16 + 1
    descOk w k.val && xconvWordOk (p k 10) planes && indexWordsOk (p k 11) (p k 12)
      && (!planes || (wbits (p k 4) 15 0 == 15 && (wbits (p k 5) 23 0 + 1) % 16 == 0 && rb * (xconvFmt (p k 10)).nfmt.count % 16 == 0))
  | .relay _ k _ =>
    descOk w k.val && dk k == 0 && wbits (p k 10) 31 11 == 0 && !wbit (p k 10) 7 && !wbit (p k 10) 3 && counterWordsOk (p k 11) (p k 12)
  | _ => true

/-! ### Channels (R345, R360) -/

/-- An endpoint index that names a listed end, of the sort wanted. -/
def epOk (w : Window) (ep : Nat) (want : Option Bool) : Bool :=
  decide (ep < w.ends.length) && ((want.map (fun p => wbit (nth 0 w.ends ep) 12 == p)).getD true)

def chanEsz (s : State) (w : Window) (ep : Nat) : Bool := (getChan s (wbits (nth 0 w.ends ep) 11 0)).esz

/-- A slot that carries scalar tokens: every one that takes no vector tokens, triggers and the slots of scalar elements
included. -/
def takesScalar (s : State) (w : Window) (x : Word) (sl : Slot) : Bool := !takesVec s w x sl

/-- The slot or targets of an endpoint instruction carry tokens of its channel's kind. -/
def kindsOk (s : State) (w : Window) (i : Nat) (ins : Instr) : Bool :=
  let out (ep : Nat) (t : Tgt) : Bool :=
    match t with
    | none => true
    | some x =>
      let word := nth 0 w.code x.index.val
      if chanEsz s w ep then !takesScalar s w word x.slot else !takesVec s w word x.slot
  match ins with
  | .push _ ep _ => (producersOf w i .a).all (fun p =>
      let x := nth 0 w.code p
      (emitsVec s w x && !(countTarget w x).any (fun t => t.slot == .a && t.index.val == i)) == chanEsz s w ep.val)
  | .pop t ep _ | .peek t ep => out ep.val t
  | _ => true

def channelOk (s : State) (w : Window) (idx : Nat) (i : Instr) : Bool :=
  let p (k : Fin 256) (j : Nat) : Word := poolWord w (k.val + j)
  match i with
  | .push _ ep _ => epOk w ep.val (some true) && kindsOk s w idx i
  | .pop _ ep _ => epOk w ep.val (some false) && kindsOk s w idx i
  | .peek _ ep => epOk w ep.val (some false) && kindsOk s w idx i
  | .chend _ fin ep => epOk w ep.val (if fin then some true else none)
  | .chopen _ k | .chgrow _ k _ => wbits (p k 0) 31 8 == 0 && epOk w (wbits (p k 0) 7 0) none
  | .pushb _ k => wbits (p k 0) 31 13 == 0 && epOk w (chepWord w k.val).2 (some true)
  | .popb _ k => wbits (p k 0) 31 13 == 0 && epOk w (chepWord w k.val).2 (some false)
  | .chdef _ k => wbits (p k 1) 31 9 == 0 && wbits (p k 1) 7 5 == 0 && wbits (p k 5) 31 23 == 0
  | _ => true

/-! ### The other groups -/

def otherOk (w : Window) (i : Instr) : Bool :=
  let p (k : Fin 256) (j : Nat) : Word := poolWord w (k.val + j)
  match i with
  | .fank _ k c => (List.range (c.val + 1)).all (fun j => wbits (p k j) 15 9 == 0 && wbits (p k j) 31 25 == 0)
  | .lds _ k => streamOk w k.val { block := false, store := false, noAuto := false, sx := true, ssc := false, bob := false } false
  | .sts _ k => streamOk w k.val { block := false, store := true, noAuto := true, sx := false, ssc := false, bob := false } false
  | .ldb _ k b => streamOk w k.val { block := true, store := false, noAuto := false, sx := false, ssc := !b, bob := b } false
  | .stb _ k b => streamOk w k.val { block := true, store := true, noAuto := !b, sx := false, ssc := false, bob := b } false
  | .agen _ k _ _ => streamOk w k.val { block := false, store := false, noAuto := false, sx := false, ssc := false, bob := false } true
  | .agcfg t k _ _ => wbits (p k 0) 31 3 == 0 && wbits (p k 0) 2 0 != 7 && agcfgTarget w t
  | .bar _ k _ | .arrv _ k _ _ | .bwait _ k _ _ => wbits (p k 0) 31 4 == 0
  | .osend t _ => match t with
    | some x => x.slot == .a && (match winInstr w x.index.val with | some (.orecv _) => true | _ => false)
    | none => false
  | .split _ k => wbits (p k 0) 31 4 == 0 && decide (wbits (p k 0) 3 0 ≤ 12)
  | .mred _ k _ _ =>
    wbits (p k 0) 5 0 == 0 && wbits (p k 1) 31 23 == 0 && wbits (p k 2) 31 11 == 0
      && (wbits (p k 2) 7 0 == 0 || fmtIs (wbits (p k 2) 7 0) mredAccepts)
  | .framem _ k _ => wbits (p k 0) 15 0 == 0 && wbits (p k 1) 31 23 == 0 && wbits (p k 2) 31 16 == 0
  | .launch _ k _ _ => wbits (p k 0) 5 0 == 0 && wbits (p k 1) 31 23 == 0
  | .jmpb _ k | .callb _ k => wbits (p k 0) 7 0 == 0 && !wbit (p k 1) 23
  | .sigchk _ k _ _ _ => wbits (p k 0) 7 0 == 0 && wbits (p k 1) 31 7 == 0
  | .einj _ k off => off || wbits (p k 0) 19 16 == 0
  | _ => true

/-- A target names an instruction of the block, and a slot that it consumes (R77). -/
def targetOk (w : Window) (t : Target) : Bool :=
  match w.code[t.index.val]? with
  | some x => (slotsOf w x).elem t.slot
  | none => false

/-- A unit accepts its own word. -/
def unitOk (s : State) (w : Window) (i : Nat) : Bool :=
  let x := nth 0 w.code i
  match instrOf x with
  | none => false
  | some ins =>
    let (k, n) := poolReach w ins
    ins.wellFormed && (targetsOf w x).all (targetOk w) && decide (k + n ≤ w.pool.length) && !(wordOp x / 16 == 8 && winCw w == 0)
      && seaOk w ins && vectorOk w ins && shuttleOk w ins && channelOk s w i ins && otherOk w ins

/-- Instruction `a` comes before `b`: row-major by site, then by index; on a core, whose placement table is all zero, by index. -/
def siteLe (w : Window) (a b : Nat) : Bool :=
  decide (winDy w a < winDy w b) || (winDy w a == winDy w b && (decide (winDx w a < winDx w b) || (winDx w a == winDx w b && decide (a ≤ b))))

def insertSite (w : Window) (i : Nat) : List Nat → List Nat
  | [] => [i]
  | j :: l => if siteLe w i j then i :: j :: l else j :: insertSite w i l

/-- Indices in row-major order of their sites. -/
def siteOrder (w : Window) : List Nat := (List.range w.code.length).foldr (insertSite w) []

/-- The first blocked unit. -/
def blockedUnit (s : State) (w : Window) : Option Nat := (siteOrder w).find? (fun i => !unitOk s w i)

end Sys2Proof.Machine
end

