-- ==== Sys2Proof/Machine/Load.lean ====
section
/-! DEFINITION. The load of a block (R12, R20, R65 to R75, R84, R85): the fetch of the draft table and of the image, the
checks in their order, and the block put in place, on a region, on a core, or in firmware. -/

namespace Sys2Proof.Machine

/-! ### Fetching (R75, R237) -/

/-- What a fetch or a check gives: a result; a wait for a translation; a failure with its cause of R51, instruction index,
block VA and word. -/
inductive LoadRes (α : Type) where
  | ok (v : α) (s : State)
  | wait (s : State)
  | fail (cause idx : Nat) (va : Dword) (word : Nat) (s : State)

/-- A block that the fetch in progress has read already (R75). -/
def fetchedLine (s : State) (c : CtxId) (va : Dword) : Option Line :=
  match c with
  | .node id => (getNode s id).bind (fun n => (n.fetched.find? (fun p => p.1 == va)).map (·.2))
  | .fw k l => ((coreWin (getCore s k.val) l.val).fetched.find? (fun p => p.1 == va)).map (·.2)

/-- The fetched blocks of a node or a firmware window changed. -/
def setFetched (s : State) (c : CtxId) (f : List (Dword × Line) → List (Dword × Line)) : State :=
  match c with
  | .node id => updNode s id (fun n => { n with fetched := f n.fetched })
  | .fw k l => updCore s k.val (fun co =>
      let w := coreWin co l.val
      setCoreWin co l.val { w with fetched := f w.fetched })

/-- One block of a fetch, at `.dev`: none when it reads as poison. -/
def fetchLine (s : State) (c : CtxId) (p : Place) (va : Dword) : Option Line × State :=
  let (l, s1) := unitLine s (ctxNode c) p
  if l.psn then (none, s1) else (some l, setFetched s1 c (fun m => (va, l) :: m))

/-- `n` lines from a VA. A poisoned one fails the load: with cause 4 for the draft table, cause 2 for an image. A page
without a translation is waited for with a record, and the fetch resumes at that line. -/
def fetchLines (c : CtxId) (table : Bool) (blk : Nat) (va : Dword) : Nat → State → LoadRes (List Line)
  | 0, s => .ok [] s
  | n + 1, s =>
    let more (l : Line) (s1 : State) : LoadRes (List Line) :=
      match fetchLines c table blk (va + 64) n s1 with
      | .ok ls s2 => .ok (l :: ls) s2
      | r => r
    match fetchedLine s c va with
    | some l => more l s
    | none =>
      match resolve s c va false with
      | (.fail cause, s1) => .wait (postOnce s1 (dispatchFault c 7 (if table then 255 else blk) cause va (.fetch c)))
      | (p, s1) =>
        match fetchLine s1 c p va with
        | (none, s2) => .fail (if table then 4 else 2) 255 (if table then 0 else va) 0 s2
        | (some l, s2) => more l s2

/-- Words of fetched lines. -/
def lineWords (l : List Line) : List Word :=
  l.flatMap (fun b => (List.range 16).map (fun j => BitVec.ofNat 32 (lineNat b.data (4 * j) 4)))

/-- The VA of a block by the draft table: check 1 (R12). -/
def fetchEntry (s : State) (c : CtxId) (d : DraftSt) : LoadRes Dword :=
  match fetchLines c true d.block d.va 1 s with
  | .wait s1 => .wait s1
  | .fail a b v w s1 => .fail a b v w s1
  | .ok l s1 =>
    let w := lineWords l
    let nb := wbits (nth 0 w 0) 7 0
    if wbits (nth 0 w 0) 31 8 ≠ 0 ∨ nth 0 w 1 ≠ 0 ∨ nb = 0 ∨ nb ≤ d.block then .fail 4 255 0 0 s1
    else
      let ofs := 8 + 8 * d.block
      match fetchLines c true d.block (d.va + BitVec.ofNat 64 (ofs / 64 * 64)) 1 s1 with
      | .wait s2 => .wait s2
      | .fail a b v w s2 => .fail a b v w s2
      | .ok m s2 =>
        let x := lineWords m
        let k := ofs % 64 / 4
        let va : Dword := BitVec.ofNat 64 ((nth 0 x k).toNat + (nth 0 x (k + 1)).toNat * 2 ^ 32)
        if va.toNat % 256 ≠ 0 ∨ (isFirmware c = false ∧ canonical va = false) then .fail 4 255 va 0 s2 else .ok va s2

/-! ### The image (R65 to R74) -/

/-- Words of the body, from header words 0 and 2. -/
def bodyWords (h0 h2 : Word) : Nat :=
  let n := wbits h0 14 8 + 1
  n + (n + 1) / 2 + wbits h2 7 0 + wbits h2 15 8

/-- A unit as its load leaves it: a stream's base is its descriptor's. -/
def loadedUnit (pool : List Word) (w : Word) : ElemSt :=
  match instrOf w with
  | some (.lds _ k) | some (.sts _ k) | some (.ldb _ k _) | some (.stb _ k _) | some (.agen _ k _ _) =>
    ElemSt.init (BitVec.ofNat 64 ((nth 0 pool k.val).toNat + wbits (nth 0 pool (k.val + 1)) 22 0 * 2 ^ 32))
  | _ => ElemSt.init 0

/-- The block that the words of an image describe, and its trailer's word 3. -/
def imageWindow (va : Dword) (w : List Word) : Window × Word :=
  let h0 := nth 0 w 0
  let h2 := nth 0 w 2
  let n := wbits h0 14 8 + 1
  let body := w.drop 4
  let halves := ((body.drop n).take ((n + 1) / 2)).flatMap (fun (x : Word) => [x.setWidth 16, (x >>> 16).setWidth 16])
  let pool := (body.drop (n + (n + 1) / 2)).take (wbits h2 7 0)
  let tr := (body.drop (n + (n + 1) / 2 + wbits h2 7 0)).take (wbits h2 15 8)
  ({ h0 := h0, h1 := nth 0 w 1, h2 := h2, code := body.take n, place := halves.take n, pool := pool, scratch := nth 0 tr 0,
     persist := nth 0 tr 1, t2 := nth 0 tr 2, ends := tr.drop 4, va := va, loadedUs := 0,
     units := (body.take n).map (loadedUnit pool) }, nth 0 tr 3)

/-- Check 2: the check word, then the fields. -/
def imageOk (w : List Word) (x : Window) (t3 : Word) : Bool :=
  let n := x.code.length
  let body := (w.drop 4).take (bodyWords x.h0 x.h2)
  let last := nth 0 (w.drop 4) (n + (n + 1) / 2 - 1)
  nth 0 w 3 == crc32 (body.flatMap (fun v => leBytes 4 v.toNat)) && decide (4 ≤ wbits x.h2 15 8)
    && headerOk x (wbits x.h2 15 8) (n % 2 == 0 || wbits last 31 16 == 0) && trailerOk x t3

/-- The fetch as far as it goes. -/
def fetchSome (s : State) (c : CtxId) (d : DraftSt) : LoadRes Window :=
  match fetchEntry s c d with
  | .wait s1 => .wait s1
  | .fail a b v w s1 => .fail a b v w s1
  | .ok va s1 =>
    match fetchLines c false d.block va 1 s1 with
    | .wait s2 => .wait s2
    | .fail a b _ w s2 => .fail a b va w s2
    | .ok l s2 =>
      let h := lineWords l
      match fetchLines c false d.block (va + 64) ((16 + 4 * bodyWords (nth 0 h 0) (nth 0 h 2) + 63) / 64 - 1) s2 with
      | .wait s3 => .wait s3
      | .fail a b _ w s3 => .fail a b va w s3
      | .ok ls s3 =>
        let w := h ++ lineWords ls
        let (x, t3) := imageWindow va w
        if imageOk w x t3 then .ok x s3
        else .fail 2 255 va 0 (if nth 0 w 3 = crc32 (((w.drop 4).take (bodyWords x.h0 x.h2)).flatMap (fun v => leBytes 4 v.toNat)) then s3
          else addDev s3 8 1)

/-- Checks 1 and 2 of the block of a draft position: the block, not yet in place. A fetch that ends keeps nothing for another. -/
def fetchBlock (s : State) (c : CtxId) (d : DraftSt) : LoadRes Window :=
  match fetchSome s c d with
  | .ok w s1 => .ok w (setFetched s1 c (fun _ => []))
  | .fail a b v w s1 => .fail a b v w (setFetched s1 c (fun _ => []))
  | .wait s1 => .wait s1

/-- Checks 3 and 4: the cause, the index and the word. -/
def blockFault (w : Window) (onCore firmware : Bool) : Option (Nat × Nat × Nat) :=
  if !opcodesOk w onCore firmware then some (5, 255, 0)
  else (pairingFault w).map (fun i => (1, i, (nth 0 w.code i).toNat))

/-- Check 7. -/
def unitFault (s : State) (w : Window) : Option (Nat × Nat × Nat) :=
  (blockedUnit s w).map (fun i => (1, i, (nth 0 w.code i).toNat))

/-! ### What a region and a core hold (R14, R16, R181, R276, R409) -/

/-- Wr that a load gives (R177). -/
def loadWr (wr : Nat) (w : Window) : Nat := max wr (max (winSplit w) 1)

/-- A block fits a rectangle of sites: footprint, logical cells, VEs, accumulator rows (assumption log 27), banks. -/
def rectHolds (s : State) (r : Rect) (w : Window) (wr : Nat) : Bool :=
  decide (winWs w ≤ r.2.2.1 ∧ winHs w ≤ r.2.2.2) && decide (winCw w ≤ (gridCols s r).length ∧ winCh w ≤ (gridRows s r).length)
    && (winNve w == 0 || (r.1 % 2 == 0 && r.2.1 % 2 == 0)) && decide (winNve w ≤ (winWs w + 1) / 2 * ((winHs w + 1) / 2))
    && decide (winAccRows w ≤ 8 * (winWs w * winHs w)) && scratchFits (winScratch w) (winWs w * winHs w) wr

/-- Ways that a block takes on a core. -/
def blockWays (w : Window) (wr : Nat) : Nat := wr + scratchWays (winScratch w)

/-- Ways of a core that the other residents leave. -/
def otherWays (s : State) (k : Nat) (n : Node) : Nat :=
  coreWays s k - (if n.exec = some (.core k) then residentWays n else 0)

/-! ### Endpoints (R342) -/

/-- The endpoints of a block's trailer, as channel and end. -/
def trailerEnds (w : Window) : List (Nat × Bool) := w.ends.map (fun e => (wbits e 11 0, wbit e 12))

/-- The endpoints that a node's block binds: its trailer's; of a block that is restored, the bindings in force (R349, R359),
but for ends that it had released when it was saved (R343, R348). -/
def blockEnds (x : Ctx) (w : Window) (restored : Bool) : List (Nat × Bool) :=
  if restored then (x.ends.filter (·.held)).map (fun e => (e.chid, e.push)) else trailerEnds w

/-- Every endpoint is held already or can be attached now (R342). -/
def endsReady (s : State) (node : Word) (l : List (Nat × Bool)) : Bool :=
  l.all (fun p => holdsEnd s node p.1 p.2 || canAttach s node p.1 p.2)

/-- The endpoints that a node does not hold attached. -/
def attachEnds (s : State) (node : Word) (l : List (Nat × Bool)) : State :=
  l.foldl (fun s p => if holdsEnd s node p.1 p.2 then s else attachEnd s node p.1 p.2) s

/-- The bindings of a block: its trailer's ends in order, each with the mark it had; a marked end that the trailer does
not list follows them. -/
def bindEnds (x : Ctx) (w : Window) : List Endpoint :=
  let l := trailerEnds w
  let was (p : Nat × Bool) : Endpoint :=
    (x.ends.find? (fun e => e.chid == p.1 && e.push == p.2)).getD { chid := p.1, push := p.2, ending := false, fin := false }
  l.map was ++ x.ends.filter (fun e => e.ending && !l.elem (e.chid, e.push))

/-- A block's endpoints attached and bound; those of a restored block stay bound as they were. -/
def attachAll (s : State) (id : Nat) (w : Window) (restored : Bool) : State :=
  match getNode s id with
  | none => s
  | some n =>
    updCtx (attachEnds s (BitVec.ofNat 32 id) (blockEnds n.ctx w restored)) (.node id) (fun x =>
      { x with ends := if restored then x.ends else bindEnds x w })

/-! ### Putting a block in place (R20, R145, R177, R242) -/

/-- Blocks of scratch from `blk` on that hold free values. -/
def fillLines (c : CtxId) : Nat → Nat → State → State
  | 0, _, s => s
  | n + 1, blk, s =>
    let (f, s1) := takeFree s
    fillLines c n (blk + 1) (updMem s1 c (fun m => { m with scratch := m.scratch.writeLine blk (rawBlock (Config.freeLine f)) }))

/-- Scratch that nothing of this placement has filled is undefined (R182): free values, up to the block's SCRATCH. -/
def fillScratch (s : State) (c : CtxId) (w : Window) : State :=
  match getCtx s c with
  | none => s
  | some x =>
    let top := winScratch w
    if top ≤ x.mem.filled then s
    else updMem (fillLines c ((top - x.mem.filled) / 64) (x.mem.filled / 64) s) c (fun m => { m with filled := top })

/-- Carry words as they stand when a block starts (R146). -/
def carryNow (m : CtxMem) : List (Nat × Carry) := m.carryStage.foldl (fun l p => mapSet Carry.zero l p.1 p.2) m.carry

/-- The context at a block's start. -/
def startBlock (x : Ctx) (w : Window) : Ctx :=
  { x with mem := { x.mem with carryAtStart := carryNow x.mem, puts := [], wr := loadWr x.mem.wr w }, commitsDone := 0 }

/-- The draft position at a block's start: nothing recorded. -/
def startDraft (d : DraftSt) : DraftSt := { d with nextb := none, halt := false, jump := none }

/-- Arrays that the block's cell rectangle does not contain (R242). -/
def arraysOut (x : Ctx) (w : Window) : List Nat :=
  (List.range 4).filter (fun n => let a := getArr x n
    a.fused && !(decide (a.x0 + a.w ≤ winCw w) && decide (a.y0 + a.h ≤ winCh w)))

/-- The boundary that unfusing needs: done, or waiting. The checkpoint it records stands between the blocks. -/
def unfuseOut (s : State) (id : Nat) (w : Window) : Bool × State :=
  let c : CtxId := .node id
  match getCtx s c with
  | none => (true, s)
  | some x =>
    let out := arraysOut x w
    if out.isEmpty && x.boundary.isNone then (true, s)
    else
      let s1 := if x.boundary.isNone then addCount s c cntInserted 1 else s
      match doBoundary (out.foldl (fun s n => freeArray s c n) s1) c .dev .inserted with
      | (false, s2) => (false, s2)
      | (true, s2) => (true, updCtx s2 c (fun x => { x with ckpt := x.ckpt.map (fun k => { k with win := none }) }))

/-- Array 0 over the whole cell rectangle, where the block fuses none and none is fused (R242). -/
def implicitFuse (s : State) (c : CtxId) (w : Window) : State :=
  match getCtx s c with
  | none => s
  | some x =>
    if winCw w ≠ 0 && !w.code.any isFuse && !x.sea.arrays.any (·.fused) then (fuseDo s c x (winNve w) 0 (0, 0, winCw w, winCh w)).1 else s

/-- The block put in place; the state of its units is kept where a restore brings it (R402). -/
def installNode (s : State) (id : Nat) (w : Window) (kept : List ElemSt) : State :=
  let c : CtxId := .node id
  let units := w.units.zipIdx.map (fun (u, i) => (kept[i]?).getD u)
  let fresh : Bool := kept.isEmpty
  let s1 := updNode (fillScratch (settleCarry s c) c w) id (fun n =>
    let x := if fresh then startBlock n.ctx w else { n.ctx with mem := { n.ctx.mem with wr := loadWr n.ctx.mem.wr w } }
    { n with win := some { w with units := units, loadedUs := s.run.time }, loading := false, admitted := 0, closed := false, image := none,
             ctx := { x with draft := if fresh then startDraft x.draft else x.draft } })
  if fresh then implicitFuse s1 c w else s1

/-! ### The load of a node's block -/

/-- Why a held executor cannot run the block: it is to be re-placed, or moved to the other kind (R11, R14, R67, R409). -/
def mustMove (s : State) (n : Node) (w : Window) : Option Move :=
  let wr := loadWr n.ctx.mem.wr w
  let either : Bool := n.lrec.cls == 2
  match n.exec with
  | some (.core k) =>
    if !coreBlock w || decide (56 < blockWays w wr) then (if either && !winTmp w then some .kindMove else none)
    else if 56 < otherWays s k n + blockWays w wr then some .replace
    else none
  | some (.region x y a b) =>
    if winTmp w then (if either && coreBlock w then some .kindMove else none)
    else if rectHolds s (x, y, a, b) w wr then none
    else some .replace
  | none => none

/-- Check 5: OPEN rows, then the image's length; the image is of the block that has ended. -/
def moveFault (n : Node) (onCore : Bool) : Option Nat :=
  match n.win with
  | none => none
  | some w =>
    if accOpen n.ctx then some 8
    else if n.lrec.saveBytes.toNat < imageLen (fullLens n w onCore 0) then some 6
    else none

/-- NVI and F at their largest over a draft's blocks; a block that cannot be read counts for none. -/
def draftLargest (c : CtxId) (d : DraftSt) : Nat → State → (Nat × Nat) × State
  | 0, s => ((0, 0), s)
  | k + 1, s =>
    let (m, s1) := draftLargest c d k s
    match fetchBlock s1 c { d with block := k } with
    | .ok w s2 => ((max m.1 (vecCount w), max m.2 (winCw w * winCh w)), s2)
    | .wait _ => (m, s1)
    | .fail _ _ _ _ _ => (m, s1)

/-- The length that PERS asks of a node's save area (R402). -/
def persLen (s : State) (c : CtxId) (d : DraftSt) (w : Window) (onCore : Bool) : Nat × State :=
  let (m, s1) := draftLargest c d 255 s
  (imageLen (sectionLens { rows := winAccRows w, nins := winNins w, ntok := tokenBound w, nche := w.ends.length, nvi := m.1,
                           cells := m.2, persist := w.persist.toNat } onCore), s1)

/-- Check 6: cause 3, then cause 6. -/
def placeFault (s : State) (n : Node) (w : Window) (onCore : Bool) : Option Nat × State :=
  let fits : Bool := if onCore then coreBlock w && decide (blockWays w (loadWr n.ctx.mem.wr w) ≤ 56)
    else offsetsOk w && circuitsOk s w && vesOk w
  if !fits then (some 3, s)
  else if winCw w ≠ 0 ∧ n.lrec.saveBytes.toNat < 4096 * winAccRows w + 256 then (some 6, s)
  else if n.lrec.pers && n.win.isNone then
    let (len, s1) := persLen s (.node n.id) n.ctx.draft w onCore
    (if n.lrec.saveBytes.toNat < len then some 6 else none, s1)
  else (none, s)

/-- Checks 3 and 4 with the executor that a node holds or may be given; a class 10 node with a TMP block on a region is
moved, and fails there with cause 5 where no core may run the block (R15, R67). -/
def nodeFault (n : Node) (w : Window) : Option (Nat × Nat × Nat) :=
  let core : Bool := match n.exec with
    | some (.core _) => true
    | some _ => n.lrec.cls == 2 && coreBlock w
    | none => n.lrec.cls != 0
  blockFault w core false

/-- The block of a node from check 6 on. -/
def placeBlock (s : State) (n : Node) (w : Window) (kept : List ElemSt) : State :=
  let id := n.id
  let blk := n.ctx.draft.block
  let onCore : Bool := (ctxCore s (.node id)).isSome
  match placeFault s n w onCore with
  | (some cause, s1) => failLoad s1 id cause blk 255 w.va 0
  | (none, s1) =>
    match unitFault s1 w with
    | some (cause, i, word) => failLoad s1 id cause blk i w.va word
    | none =>
      match unfuseOut s1 id w with
      | (false, s2) => s2
      | (true, s2) => installNode s2 id w kept

/-- A node may load: it holds an executor, awaits a block, and on a core it has the turn. -/
def mayLoad (s : State) (n : Node) : Bool :=
  n.st == .placed && n.loading && (n.moving == .none || n.moving == .replace) && n.saveFailed.isNone && n.completing.isNone && !posterWaits s (.fetch (.node n.id)) && !retireWaits s n.id
    && (match n.exec with
      | some (.core k) => coreUser (getCore s k) == some n.id && !crashWaits s k
      | some _ => true
      | none => false)

/-- The load of a node's next block; `kept` is the units' state that a restore brings. -/
def loadNode (s : State) (id : Nat) (kept : List ElemSt) : State :=
  let c : CtxId := .node id
  match getNode s id with
  | none => s
  | some n =>
    if !mayLoad s n then s
    else
      let d := n.ctx.draft
      match fetchBlock s c d with
      | .wait s1 => s1
      | .fail cause i va word s1 => failLoad s1 id cause d.block i va word
      | .ok w0 s1 =>
        let w := if (ctxCore s c).isSome then coreWindow w0 else w0
        match nodeFault n w with
        | some (cause, i, word) => failLoad s1 id cause d.block i w.va word
        | none =>
          match mustMove s1 n w with
          | some m =>
            match moveFault n (ctxCore s1 c).isSome with
            | some cause => failLoad s1 id cause d.block 255 w.va 0
            | none => nextJob (updNode s1 id (fun n => { n with moving := m })) (.event (.preemption id))
          | none =>
            if n.moving == .replace && n.win.isSome && (moveFault n (ctxCore s1 c).isSome).isNone then
              nextJob s1 (.event (.preemption id))
            else
              let ends := blockEnds n.ctx w (!kept.isEmpty)
              let s2 := checkChans s1 (ends.map (·.1))
              if endsReady s2 (BitVec.ofNat 32 id) ends then placeBlock (attachAll s2 id w (!kept.isEmpty)) n w kept else s2

/-! ### The load of a firmware block (R414, R421) -/

/-- What firmware asks of a block beside R85: no endpoints, at most 4 ways of each sort; by the cause that INFO reports. -/
def firmwareFault (s : State) (w : Window) : Option Nat :=
  match blockFault w true true with
  | some (cause, _, _) => some cause
  | none =>
    if !coreBlock w || 4 < winSplit w || 65280 < winScratch w || !w.ends.isEmpty then some 3
    else (unitFault s w).map (·.1)

/-- The block of a firmware window put in place. -/
def installFirmware (s : State) (k : Fin 16) (l : Fin 3) (w : Window) : State :=
  updCore (fillScratch (settleCarry s (.fw k l)) (.fw k l) w) k.val (fun co =>
    let f := coreWin co l.val
    setCoreWin { co with ctx := startBlock co.ctx w } l.val { f with win := some { w with loadedUs := s.run.time }, draft := startDraft f.draft, late := false })

/-- The load of a firmware block: it waits while its fetch's record waits (R75); a failed one takes a LOAD trap. -/
def loadFirmware (s : State) (k : Fin 16) (l : Fin 3) : State :=
  let c : CtxId := .fw k l
  let f := coreWin (getCore s k.val) l.val
  let trap (s1 : State) (va : Dword) (cause : Nat) : State :=
    takeTrapAt s1 k.val l.val 0x03 (trapEpc va none) (BitVec.ofNat 32 cause)
  if crashWaits s k.val || posterWaits s (.fetch c) || f.win.isSome || f.draft.halt || l.val ≠ (getCore s k.val).level.toNat then s
  else
    match fetchBlock s c f.draft with
    | .wait s1 => s1
    | .fail cause _ va _ s1 => trap s1 va cause
    | .ok w0 s1 =>
      let w := coreWindow w0
      match firmwareFault s1 w with
      | some cause => trap s1 w.va cause
      | none => installFirmware s1 k l w

/-- BLOCK_LOAD. -/
def execBlockLoad (c : CtxId) (s : State) : Host.Outcome State Fault Refusal :=
  .next (match c with
    | .node id => loadNode s id []
    | .fw k l => loadFirmware s k l)

end Sys2Proof.Machine
end

