-- ==== Sys2Proof/Machine/Save.lean ====
section
/-! DEFINITION. Pre-emption, re-placement, moves and restores of a node (R14, R241, R394 to R402, R413), and the
operations of DSP_PRECTL (R404). -/

namespace Sys2Proof.Machine

/-! ### Answers -/

def tellYields (s : State) (id v : Nat) : State :=
  updNode s id (fun n => { n with win := n.win.map (fun w => answerYield w v) })

/-! ### The end of a save -/

/-- A node that enters the pool with age 255: the health unit moves it, or its field is no longer in service (R383, R448, R460). -/
def movedOld (s : State) (id : Nat) : Bool :=
  ((getNode s id).any (·.ousted)) || (ctxFields s (.node id)).any (fun f => (getField s f).state != 0)

/-- The executor is freed and the node enters the pool, with the KIND of the image that its restore will read. A move to
the other kind of executor leaves no sea behind. -/
def finishMove (s : State) (id kind : Nat) : State :=
  let old : Bool := movedOld s id
  let s1 := releaseExecutor (answerPre s id 0) id
  let s2 := addCount s1 (.node id) cntMoves 1
  let s3 := updNode s2 id (fun n =>
    let m := { n.ctx.mem with filled := (n.win.map (fun w => w.persist.toNat)).getD 0 }
    let x := { n.ctx with mem := m, ends := n.ctx.ends.map (fun e => { e with held := holdsEnd s (BitVec.ofNat 32 id) e.chid e.push }) }
    let other : Bool := n.moving == .kindMove
    { n with moves := n.moves + 1, image := some kind, closed := false, saveFailed := none, moving := .none, ousted := false, loading := false, fetched := []
             kind := if other then n.kind.map (!·) else n.kind
             win := if kind = 3 || n.loading then none else n.win
             ctx := if other then { x with sea := SeaSt.init } else x })
  let s4 := enterPool { s3 with dsp := { s3.dsp with preempts := s3.dsp.preempts + 1 } } id .preempted
  nextJob (if old then updNode s4 id (fun n => { n with age := 255 }) else s4) (.event .placementPass)

/-- The image written, and the node moved; a write that fails leaves it resident (R401), and answers OP 1 (assumption log 47). -/
def saveAndMove (s : State) (id kind : Nat) : State :=
  match getNode s id with
  | none => s
  | some n =>
    match n.win with
    | none => finishMove s id kind
    | some w =>
      let core : Bool := (ctxCore s (.node id)).isSome
      match saveFull s n w kind core (if kind = 2 && !n.loading then savedTokens w else 0) with
      | (true, s1) => finishMove s1 id kind
      | (false, s1) => answerPre (updNode s1 id (fun n => { n with saveFailed := some kind })) id 5

/-! ### Between two blocks (R14, R413) -/

/-- A node that was granted an executor and has loaded nothing there goes back to the pool as it came; the health unit sets its
age to 255 where its field is drained (R383). -/
def backToPool (s : State) (n : Node) : State :=
  let old : Bool := movedOld s n.id
  let s1 := releaseExecutor (answerPre s n.id 0) n.id
  let s2 := updNode s1 n.id (fun n => { n with closed := false, moving := .none, ousted := false, loading := false, fetched := [] })
  let s3 := enterPool s2 n.id (if n.image.isSome then .preempted else .ready)
  nextJob (if old then updNode s3 n.id (fun n => { n with age := 255 }) else s3) (.event .placementPass)

/-- The boundary and the image: of KIND 3, or of KIND 2 for a pre-emption. -/
def moveBetween (s : State) (id kind : Nat) : State :=
  let c : CtxId := .node id
  match doBoundary s c .dev .blockEnd with
  | (false, s1) => s1
  | (true, s1) =>
    saveAndMove (updCtx s1 c (fun x => { x with ckpt := x.ckpt.map (fun k => { k with win := none }) })) id kind

/-- A refused pre-emption: the sources reopen. What the health unit asks for is tried again at the block's end. -/
def refuseMove (s : State) (id v : Nat) (health : Bool) : State :=
  let s1 := tellYields (answerPre s id v) id 1
  updNode s1 id (fun n => { n with closed := false, moving := if health then .replace else .none })

/-- What stands of a move once its save is given up. -/
def keptMove (n : Node) : Move :=
  match n.moving with
  | .preempt true => .replace
  | _ => .none

/-! ### Inside a block (R395, R396) -/

/-- The region is quiescent: nothing of it can move, and no access of it is outstanding but what waits through a
pre-emption. -/
def quiescent (s : State) (c : CtxId) (w : Window) : Bool := s.run.still.elem c && accessesDone true w

/-- The tokens that a POPB has popped into a slot that a reset empties, and not committed, are popped again (R359). -/
def unpop (n : Node) (w : Window) (s : State) (f : PopFill) : State :=
  match instrOf (nth 0 w.code f.unit) with
  | some (.popb _ k) =>
    match n.ctx.ends[(chepWord w k.val).2]? with
    | some b =>
      let (c, s1) := useChan s b.chid
      if c.cons = BitVec.ofNat 32 n.id then setChan s1 b.chid { c with thead := c.thead - BitVec.ofNat 32 f.fresh } else s1
    | none => s
  | _ => s

/-- The bobbins, generators, POPBs and shuttle branches reset at the pre-emption boundary. -/
def resetForSave (s : State) (n : Node) (w : Window) : State :=
  let c : CtxId := .node n.id
  let m := n.ctx.mem
  let s1 := updNode ((emptiedPops m).foldl (unpop n w) s) n.id (fun n =>
    { n with win := some (rewindWin m w), ctx := { n.ctx with mem := resetBobbins m } })
  rewindCmds s1 c m (cmdsStand s)

/-- Steps 4 and 5, as far as they go. -/
def preBoundary (s : State) (id : Nat) (b : Option Boundary) : State :=
  let c : CtxId := .node id
  match (match b with
    | some b => runBoundary s c b
    | none => doBoundary s c .dev .preempt) with
  | (false, s1) => if ((getNode s1 id).bind (·.saveFailed)).isSome then answerPre s1 id 5 else s1
  | (true, s1) => saveAndMove s1 id 2

/-- One advance of the pre-emption of a node that runs a block. -/
def preemptRun (s : State) (n : Node) (w : Window) (health : Bool) : State :=
  let c : CtxId := .node n.id
  if n.completing.isSome then refuseMove s n.id 4 health
  else
    match n.ctx.boundary with
    | some b => if b.cause == .preempt then preBoundary s n.id (some b) else s
    | none =>
      if !n.closed then updNode s n.id (fun n => { n with closed := true })
      else if !quiescent s c w then s
      else if n.lrec.saveBytes.toNat < imageLen (fullLens n w false (savedTokens w)) then refuseMove s n.id 2 health
      else preBoundary (resetForSave s n w) n.id none

/-- A pre-emption between two blocks: nothing runs, and the image takes OPEN rows as any other. -/
def preemptBetween (s : State) (n : Node) (w : Window) (health : Bool) : State :=
  if n.lrec.saveBytes.toNat < imageLen (fullLens n w false 0) then refuseMove s n.id 2 health else moveBetween s n.id 2

/-- A re-placement at a block's end: of a node whose image would not fit or would hold OPEN rows it is put off to a later one (R14). -/
def replaceBetween (s : State) (n : Node) : State :=
  if (moveFault n (ctxCore s (.node n.id)).isSome).isNone then moveBetween s n.id 3 else s

/-- PREEMPTION: one advance of a node's pre-emption or move. -/
def execPreemption (id : Nat) (s : State) : Host.Outcome State Fault Refusal :=
  .next (match getNode s id with
    | none => s
    | some n =>
      if n.moving == .none || n.exec.isNone || n.saveFailed.isSome || retireWaits s id then s
      else if n.loading && (n.image.isSome || n.win.isNone) then backToPool s n
      else
        match n.moving, n.win with
        | .preempt health, some w =>
          if n.loading then preemptBetween s n w health else preemptRun s n w health
        | _, _ => if n.loading then replaceBetween s n else s)

/-! ### DSP_PRECTL (R400, R401, R404) -/

/-- The failed write tried again: of a checkpoint, inside its boundary; of an image. -/
def retrySave (s : State) (n : Node) (kind : Nat) : State :=
  let id := n.id
  let c : CtxId := .node id
  let s1 := updNode s id (fun n => { n with saveFailed := none })
  let failed (s : State) : Bool := ((getNode s id).bind (·.saveFailed)).isSome
  if kind = 1 then
    let s2 := match n.ctx.boundary with
      | some b => (runBoundary s1 c b).2
      | none => s1
    if failed s2 then answerPre s2 id 5
    else
      match n.moving with
      | .preempt _ => s2
      | _ => answerPre s2 id 0
  else
    let s2 := saveAndMove s1 id kind
    if failed s2 then answerPre s2 id 5 else s2

/-- An operation on a node whose save has failed waits until the failure's record has been taken. -/
def saveWaits (s : State) : Bool := posterWaits s (.save s.dsp.opNode.toNat)

/-- DSP_PREEMPT: OP 1. -/
def execDspPreempt (s : State) : Host.Outcome State Fault Refusal :=
  .next (if !dspDoing s 1 || saveWaits s then s
    else
      let id := s.dsp.opNode.toNat
      match getNode s id with
      | none => dspResult s 1
      | some n =>
        match n.saveFailed with
        | some kind => retrySave s n kind
        | none =>
          match n.exec with
          | some (.region ..) =>
            if !n.lrec.pre then dspResult s 3
            else if n.st != .placed || n.completing.isSome || (n.moving != .none && n.moving != .replace) then dspResult s 4
            else nextJob (updNode s id (fun n => { n with moving := preemptMove n })) (.event (.preemption id))
          | _ => dspResult s 4)

/-- DSP_HOLD: OP 2. -/
def execDspHold (s : State) : Host.Outcome State Fault Refusal :=
  .next (if !dspDoing s 2 then s
    else
      let id := s.dsp.opNode.toNat
      match getNode s id with
      | none => dspResult s 1
      | some n => if n.st == .placed then dspResult s 4 else dspResult (updNode s id (fun n => { n with held := true })) 0)

/-- DSP_RELEASE: OP 3. -/
def execDspRelease (s : State) : Host.Outcome State Fault Refusal :=
  .next (if !dspDoing s 3 then s
    else
      let id := s.dsp.opNode.toNat
      match getNode s id with
      | none => dspResult s 1
      | some n =>
        if n.held then nextJob (dspResult (updNode s id (fun n => { n with held := false })) 0) (.event .placementPass)
        else dspResult s 6)

/-- The consumers of a block whose bobbins have been reset take their slots anew (R190). -/
def takeAgain (s : State) (id : Nat) : State :=
  updNode s id (fun n => match n.win with
    | some w => { n with ctx := { n.ctx with mem := retakeBobbins (heldSlots w) n.ctx.mem } }
    | none => n)

/-- DSP_REOPEN: OP 4. The node runs on from the boundary, its consumers taking their slots anew (R190, R401). -/
def execDspReopen (s : State) : Host.Outcome State Fault Refusal :=
  .next (if !dspDoing s 4 || saveWaits s then s
    else
      let id := s.dsp.opNode.toNat
      match getNode s id with
      | none => dspResult s 1
      | some n =>
        match n.saveFailed with
        | none => dspResult s 6
        | some 1 => dspResult (retireFailed s id) 0
        | some _ =>
          dspResult (tellYields (takeAgain (updNode s id (fun n => { n with saveFailed := none, closed := false, moving := keptMove n })) id) id 1) 0)

/-! ### The restore (R402, R413) -/

/-- `n` blocks from an offset; the offset of the first that cannot be read. -/
def readSaves (save : Dword) (ofs : Nat) : Nat → State → (List Line × Option Nat) × State
  | 0, s => (([], none), s)
  | n + 1, s =>
    match readSave s (save + BitVec.ofNat 64 ofs) with
    | (none, s1) => (([], some ofs), s1)
    | (some l, s1) =>
      let ((ls, bad), s2) := readSaves save (ofs + 64) n s1
      ((l :: ls, bad), s2)

/-- A field of a list of bytes. -/
def imgNat (bs : List Byte) (ofs n : Nat) : Nat := leNat ((bs.drop ofs).take n)

/-- The header's checks: its CRC (cause 4), its fields (cause 5). -/
def headerFault (n : Node) (h : List Byte) : Option Nat :=
  if imgNat h 0xFC 4 ≠ (crc32 (h.take 0xFC)).toNat then some 4
  else if imgNat h 0 2 ≠ 0xD9A5 ∨ imgNat h 2 1 ≠ 1 ∨ imgNat h 4 4 ≠ n.id ∨ n.lrec.saveBytes.toNat < imgNat h 8 4 ∨ imgNat h 8 4 < 256
  then some 5
  else none

/-- An accumulator row from its 64 blocks and its state byte, with its events. -/
def rowOf (ls : List Line) (st : Nat) : AccRow × Ev :=
  let (vals, psn, ev) := rowValues ls
  ({ vals := vals, psn := psn, opened := bit st 3, owner := if bit st 2 then some (bits st 1 0) else none }, ev)

/-- A fused cell's weights written back by logical cell (R402, step 3). -/
def setCell (b : List Byte) (i ofs : Nat) (w : WeightSet) (e : Nat) : WeightSet :=
  let planes := (List.range w.p).map (fun k => imgNat b (ofs + 32 * k) 32)
  let tiles := w.tiles ++ List.replicate (i + 1 - w.tiles.length) (0, [])
  { w with tiles := modNth (fun _ => ((BitVec.ofNat 8 e).toInt, planes)) tiles i }

def cellBack (b : List Byte) (a : SeaArray) (i : Nat) : SeaArray :=
  { a with set0 := setCell b i 0 a.set0 (imgNat b 1024 1), set1 := setCell b i 512 a.set1 (imgNat b 1025 1) }

/-- The cells of the arrays in their order, from section 7's bytes behind its records and row states. -/
def cellsBack : List SeaArray → List Byte → List SeaArray
  | [], _ => []
  | a :: l, bs =>
    if !a.fused then a :: cellsBack l bs
    else
      let n := a.w * a.h
      (List.range n).foldl (fun a i => cellBack (bs.drop (1088 * i)) a i) a :: cellsBack l (bs.drop (1088 * n))

/-- A bobbin from its record; what fills its slots came from, which no record holds, is as it was. -/
def bobbinBack (old : Option Bobbin) (b : List Byte) : Option Bobbin :=
  let w1 := imgNat b 4 4
  if imgNat b 10 1 = 0 then none
  else some { base := imgNat b 0 4, nslot := bits w1 31 26 + 1, tbase := bits w1 20 12, sz := bits w1 11 0, head := imgNat b 8 1,
              tail := imgNat b 9 1, finished := (old.map (·.finished)).getD [], fills := (old.map (·.fills)).getD [],
              tickets := (old.map (·.tickets)).getD [] }

/-- Section 4: carry words with their poison, Wr, the tile table, the bobbins. -/
def carryBack (m : CtxMem) (b : List Byte) : CtxMem :=
  let psn := imgNat b 0x100 8
  { m with
    bobbins := (List.range 32).filterMap (fun k =>
      (bobbinBack ((m.bobbins.find? (fun p => p.1 == k)).map (·.2)) (b.drop (0x200 + 16 * k))).map (fun v => (k, v)))
    carry := (List.range 64).foldl (fun l n => mapSet Carry.zero l n { val := BitVec.ofNat 32 (imgNat b (4 * n) 4), psn := bit psn n }) []
    wr := max 1 (imgNat b 0x108 4)
    tiles := (List.range 512).foldl (fun l n => mapSet 0 l n (BitVec.ofNat 2 (imgNat b (0x180 + n / 4) 1 / 4 ^ (n % 4)))) [] }

/-- Section 8. -/
def persistBack (m : CtxMem) (ls : List Line) : CtxMem :=
  { m with scratch := ls.zipIdx.foldl (fun st (l, k) => st.writeLine k { l with psn := false }) m.scratch, filled := 64 * ls.length }

/-- Section 2 of a core's image (R413): where the draft goes on. -/
def draftBack (b : List Byte) (d : DraftSt) : DraftSt :=
  let call (k : Nat) : Dword × Nat := (BitVec.ofNat 64 (imgNat b (0x10 + 16 * k) 8), imgNat b (0x18 + 16 * k) 1)
  { d with va := BitVec.ofNat 64 (imgNat b 0 8), block := imgNat b 8 1, stack := ((List.range (imgNat b 9 1)).map call).reverse }

/-- An instruction's unit from its ELEM record (R399); what the record does not hold is as it was. -/
def elemBack (x : Word) (b : List Byte) (u : ElemSt) : ElemSt :=
  let fl := imgNat b 3 1
  let q (k : Nat) : Nat := imgNat b (8 + 8 * k) 8
  { u with
    mcnt := BitVec.ofNat 12 (imgNat b 0 2), cidx := Fin.ofNat 16 (imgNat b 2 1), mpend := bit fl 0, ccnt := BitVec.ofNat 32 (imgNat b 4 4)
    arrived := q 7, pend := if wordOp x == 0xD2 && !bit fl 5 then [] else u.pend
    gen := { u.gen with c0 := q 0, c1 := q 1, c2 := q 2, c3 := q 3, runs := BitVec.ofNat 32 (q 4), issued := BitVec.ofNat 64 (q 5),
                        base := BitVec.ofNat 64 (q 6), held := if bit fl 1 then some (Fin.ofNat 8 (bits fl 4 2)) else none,
                        stopped := u.gen.stopped && bit fl 6 } }

/-- A saved token: its instruction, its slot, its place, and the token, its RES computed afresh. -/
def tokenBack (b : List Byte) : Nat × Nat × Nat × Token :=
  (imgNat b 0 1, imgNat b 1 1, imgNat b 2 2, tokOf (imgNat b 5 1 == 1) (BitVec.ofNat 512 (imgNat b 8 64)) (BitVec.ofNat 16 (imgNat b 6 2)) (imgNat b 4 1))

/-- The tokens of a slot in their order. -/
def slotBack (l : List (Nat × Nat × Nat × Token)) (i sl : Nat) : List Token :=
  let own := l.filter (fun r => r.1 == i && r.2.1 == sl)
  (List.range own.length).filterMap (fun k => (own.find? (fun r => r.2.2.1 == k)).map (·.2.2.2))

/-- The block's units from sections 2 and 3 (R402, steps 4 and 5): saved tokens stand at the heads of their slots. -/
def unitsBack (w : Window) (elem toks : List Byte) : Window :=
  let l := (List.range (imgNat toks 0 4)).map (fun k => tokenBack (toks.drop (4 + 80 * k)))
  { w with units := (w.code.zip w.units).zipIdx.map (fun ((x, u), i) =>
      { elemBack x (elem.drop (128 * i)) u with qa := slotBack l i 0, qb := slotBack l i 1, qc := slotBack l i 2, qp := slotBack l i 3 }) }

/-- The endpoints' bindings from their records, and whether the node held them; a pending mark is as it was. -/
def endsBack (ends : List Endpoint) (n : Nat) (b : List Byte) : List Endpoint :=
  ends.zipIdx.map (fun (e, i) =>
    let v := imgNat b (8 * i) 8
    if i < n then { e with chid := v % 4096, push := bit v 12, held := bit v 13 } else e)

/-- An array from its record (R402, step 3). -/
def arrayBack (a : SeaArray) (b : List Byte) : SeaArray :=
  let fl := imgNat b 0 1
  let set (w : WeightSet) (p : Nat) (used psn : Bool) : WeightSet := { w with p := p, used := used, psn := psn }
  if !bit fl 0 then a
  else { a with fused := true, active := bit fl 1, swap := if bit fl 2 then some (imgNat b 1 1) else none, x0 := imgNat b 2 1, y0 := imgNat b 3 1
                w := imgNat b 4 1, h := imgNat b 5 1, wadd := imgNat b 8 8, sadd := imgNat b 16 8
                set0 := set a.set0 (imgNat b 6 1) (bit fl 3) (bit fl 5), set1 := set a.set1 (imgNat b 7 1) (bit fl 4) (bit fl 6) }

/-- The node is restored on a core. -/
def onCore (n : Node) : Bool :=
  match n.exec with
  | some (.core _) => true
  | _ => false

/-- The node's state from an image: what its sections hold; of what no section holds, and of section 6, what was saved
(assumption log 47). An image without section 7 is a core's. On the other kind of executor no element, VE or array state
crosses (R11). -/
def stateBack (n : Node) (h : List Byte) (body : List Line) : Node :=
  let core : Bool := imgNat h 0x54 4 == 0
  let bare : Bool := core || onCore n
  let sec (k : Nat) : List Line :=
    let o := imgNat h (0x20 + 8 * k) 4
    (body.drop ((o - 256) / 64)).take (imgNat h (0x24 + 8 * k) 4 / 64)
  let secB (k : Nat) : List Byte := (sec k).flatMap (fun l => lineBytes l.data)
  let x := n.ctx
  let rows := imgNat h 0x18 2
  let sea := secB 6
  let states := sea.drop 256
  let acc := (List.range rows).map (fun r => rowOf (((sec 0).drop (64 * r)).take 64) (imgNat states r 1))
  let link := secB 4
  let m := persistBack (carryBack x.mem (secB 3)) (sec 7)
  let y := { x with
             mem := m
             counts := (List.range 16).foldl (fun l k => mapSet 0 l k (BitVec.ofNat 32 (imgNat h (0x60 + 4 * k) 4))) []
             credits := (List.range 16).foldl (fun l k => mapSet 0 l k (BitVec.ofNat 16 (imgNat link (2 * k) 2))) []
             ends := endsBack x.ends (imgNat h 0x15 1) (link.drop 576) }
  let arrays := x.sea.arrays.zipIdx.map (fun (a, i) => arrayBack a (sea.drop (64 * i)))
  { n with
    win := n.win.map (fun w => if bare then w else unitsBack w (secB 1) (secB 2))
    ctx := if core then { y with draft := draftBack (secB 1) y.draft }
           else if bare then y
           else { y with sea := { arrays := cellsBack arrays (states.drop (padBlock rows))
                                  acc := acc.zipIdx.foldl (fun l (r, k) => mapSet AccRow.clear l k r.1) [] } } }

/-- The events of an image's accumulator rows (R102, R112). -/
def imageEvents (h : List Byte) (body : List Line) : Ev :=
  Ev.sum ((List.range (imgNat h 0x18 2)).map (fun r => (rowOf ((body.drop (64 * r)).take 64) 0).2))

/-- A restore that fails (R401, R402): its record; once it is posted the node is retired as failed. -/
def failRestore (s : State) (n : Node) (cause sec ofs len done : Nat) (kind : Nat) : State :=
  postSave s n (.retire n.id) cause kind sec (n.lrec.save + BitVec.ofNat 64 ofs) len done

/-- The image read and checked; none when it failed. -/
def readImage (s : State) (n : Node) (kind : Nat) : Option (List Byte × List Line) × State :=
  match readSaves n.lrec.save 0 4 s with
  | ((_, some o), s1) => (none, failRestore s1 n 6 0 o 0 o kind)
  | ((hl, none), s1) =>
    let h := blockBytesOf hl
    let len := imgNat h 8 4
    match headerFault n h with
    | some cause => (none, failRestore s1 n cause 0 0 len 256 kind)
    | none =>
      let lens := (List.range 8).map (fun k => imgNat h (0x24 + 8 * k) 4)
      match readSaves n.lrec.save 256 ((len - 256) / 64) s1 with
      | ((_, some o), s2) => (none, failRestore s2 n 6 (sectionAt lens o) o len o kind)
      | ((body, none), s2) =>
        if imgNat h 0xF8 4 ≠ (crc32 (blockBytesOf body)).toNat then (none, failRestore s2 n 4 0 0xF8 len len kind)
        else (some (h, body), s2)

/-- RESTORE: the image read, the block loaded afresh, the state written back, the sources open. -/
def execRestore (id : Nat) (s : State) : Host.Outcome State Fault Refusal :=
  .next (match getNode s id with
    | none => s
    | some n =>
      match n.image with
      | none => s
      | some kind =>
        if s.dsp.frozen || !mayLoad s n then s
        else
          match readImage s n kind with
          | (none, s1) => s1
          | (some (h, body), s1) =>
            let m := stateBack n h body
            let s2 := updNode s1 id (fun _ => m)
            let s3 := loadNode s2 id ((m.win.map (·.units)).getD [])
            match getNode s3 id with
            | some r => if r.loading then s3 else tellYields (takeAgain (if onCore n then s3 else addEv s3 (.node id) (imageEvents h body)) id) id 2
            | none => s3)

end Sys2Proof.Machine
end

