-- ==== Sys2Proof/Machine/Place.lean ====
section
/-! DEFINITION. The placer (R11, R16, R42, R67, R86, R380 to R386, R409) and the ages of nodes (R383). -/

namespace Sys2Proof.Machine

/-! ### Rectangles (R16, R19, R276) -/

/-- The die's sites. -/
def dieCols : Nat := 128
def dieRows : Nat := 96

/-- Every rectangle of a size, its north-west site in row-major order. -/
def rectsOf (w h : Nat) : List Rect :=
  (List.range (dieRows + 1 - h)).flatMap (fun y => (List.range (dieCols + 1 - w)).map (fun x => (x, y, w, h)))

/-- The block asks for a slack column and row (R66). -/
def winSlack (w : Window) : Bool := wbit w.h2 20

/-- The rectangles a block may have: of its declared size, and with SLACK one column and row more. -/
def blockRects (w : Window) : List Rect :=
  rectsOf (winWs w) (winHs w) ++ (if winSlack w then rectsOf (winWs w + 1) (winHs w + 1) else [])

/-- Every field that it touches is in one bin. -/
def oneBin (s : State) (r : Rect) : Bool :=
  let bs := (rectFieldSts s r).map (·.bin)
  bs.all (fun b => b == bs.headD 0)

/-- It could meet the block at the present bins and bypass map (R86). -/
def couldMeet (s : State) (w : Window) (wr : Nat) (r : Rect) : Bool := oneBin s r && rectHolds s r w wr

/-- Every field that it touches is admitted (R446), and no bypass is due beneath it (R460). -/
def offered (s : State) (r : Rect) : Bool :=
  (rectFieldSts s r).all (fun f => f.state == 0)
    && !s.hl.wait.any (fun p => p.op == 0xF5 && rectLoses p.x p.y r)

def nodeRect (n : Node) : Option Rect :=
  match n.exec with
  | some (.region x y w h) => some (x, y, w, h)
  | _ => none

/-- Nodes that hold a site of a rectangle. -/
def holders (s : State) (r : Rect) : List Node :=
  s.dsp.nodes.filter (fun n => match nodeRect n with
    | some q => rectsMeet r q
    | none => false)

/-- No node holds it, and it overlaps no other node's reservation (R384). -/
def rectFree (s : State) (id : Nat) (r : Rect) : Bool :=
  (holders s r).isEmpty && s.dsp.nodes.all (fun n => n.id == id || match n.reserve with
    | some q => !rectsMeet r q
    | none => true)

/-! ### Preference (R384, R385) -/

def lexLt : List Nat → List Nat → Bool
  | [], _ => false
  | _, [] => false
  | a :: l, b :: m => decide (a < b) || (a == b && lexLt l m)

/-- The first rectangle with the least key. -/
def firstLeast (key : Rect → List Nat) (l : List Rect) : Option Rect :=
  (l.foldl (fun acc r => let k := key r
    match acc with
    | none => some (k, r)
    | some (m, q) => if lexLt k m then some (k, r) else some (m, q)) none).map (·.2)

def rectBin (s : State) (r : Rect) : Nat := ((rectFieldSts s r).map (fun f => f.bin.toNat)).foldl max 0

/-- The lowest bin, the fewest fields touched, the declared size, row-major order. -/
def grantKey (s : State) (w : Window) (r : Rect) : List Nat :=
  [rectBin s r, (rectFields r).length, r.2.2.1 - winWs w, r.2.1, r.1]

/-- Sites of a rectangle that some nodes hold. -/
def heldSites (s : State) (r : Rect) (test : Node → Bool) : Nat :=
  (((holders s r).filter test).map (fun n => match nodeRect n with
    | some q => (min (r.1 + r.2.2.1) (q.1 + q.2.2.1) - max r.1 q.1) * (min (r.2.1 + r.2.2.2) (q.2.1 + q.2.2.2) - max r.2.1 q.2.1)
    | none => 0)).sum

/-- The fewest sites of nodes that are not preemptible, the fewest held sites, the lowest bin, row-major order. -/
def reserveKey (s : State) (r : Rect) : List Nat :=
  [heldSites s r (fun n => !n.lrec.pre), heldSites s r (fun _ => true), rectBin s r, r.2.1, r.1]

/-- The rectangle that the placer grants a node. -/
def findRect (s : State) (n : Node) (w : Window) : Option Rect :=
  let wr := loadWr n.ctx.mem.wr w
  let l := (match n.reserve with
    | some r => if offered s r && couldMeet s w wr r then [r] else blockRects w
    | none => blockRects w)
  firstLeast (grantKey s w) (l.filter (fun r => rectFree s n.id r && offered s r && couldMeet s w wr r))

/-- The rectangle that a reservation takes. -/
def reserveRect (s : State) (n : Node) (w : Window) : Option Rect :=
  firstLeast (reserveKey s) ((blockRects w).filter (fun r => offered s r && couldMeet s w (loadWr n.ctx.mem.wr w) r
    && s.dsp.nodes.all (fun m => m.id == n.id || match m.reserve with
      | some q => !rectsMeet r q
      | none => true)))

/-- Some rectangle of the device could meet the block. -/
def someRect (s : State) (n : Node) (w : Window) : Bool := (blockRects w).any (couldMeet s w (loadWr n.ctx.mem.wr w))

/-! ### Cores (R67, R385, R409) -/

/-- A core that takes a block: of a field in service, with fewer than 8 residents and enough ways. -/
def coreTakes (s : State) (ways k : Nat) : Bool :=
  (getField s (k / 4)).state == 0 && decide ((getCore s k).resident.length < 8) && decide (coreWays s k + ways ≤ 56)

/-- The shortest temporal queue, then the lowest index. -/
def findCore (s : State) (n : Node) (w : Window) : Option Nat :=
  let ways := blockWays w (loadWr n.ctx.mem.wr w)
  ((List.range 16).filter (coreTakes s ways)).foldl (fun acc k =>
    match acc with
    | none => some k
    | some j => if (getCore s k).resident.length < (getCore s j).resident.length then some k else some j) none

/-- A core could ever take the block. -/
def someCore (n : Node) (w : Window) : Bool := coreBlock w && decide (blockWays w (loadWr n.ctx.mem.wr w) ≤ 56)

/-! ### The kinds of executor a node looks for (R11) -/

def wantsRegion (n : Node) (w : Window) : Bool :=
  !winTmp w && (n.lrec.cls == 0 || (n.lrec.cls == 2 && n.kind != some false))

def wantsCore (n : Node) (w : Window) : Bool :=
  coreBlock w && (n.lrec.cls == 1 || (n.lrec.cls == 2 && n.kind != some true))

/-- The executor for a node: a region before a core. -/
def findExec (s : State) (n : Node) (w : Window) : Option Executor :=
  match (if wantsRegion n w then findRect s n w else none) with
  | some r => some (.region r.1 r.2.1 r.2.2.1 r.2.2.2)
  | none => if wantsCore n w then (findCore s n w).map .core else none

/-- No executor of the device could ever meet the block. -/
def neverFits (s : State) (n : Node) (w : Window) : Bool :=
  !(wantsRegion n w && someRect s n w) && !(wantsCore n w && someCore n w)

/-! ### Pins (R42, R200) -/

/-- What pinning finds: frames, a page to be waited for, or nothing yet. -/
inductive Pinned where
  | frames (l : List Nat)
  | wait (s : State)

/-- A frame takes one pin more beside those of `got` (R199, R200). -/
def pinnable (s : State) (got : List Nat) (f : Nat) : Bool :=
  (getFrame s f).state == 0 && decide ((getFrame s f).pins.toNat + got.count f < 4095)

/-- The frames of `n` pages from a page's VA on, beside those already `got`: a tile's all pinnable, or waited for; a save area's
those that are. -/
def pageFrames (id : Nat) (tile wr : Bool) (got : List Nat) : Nat → Dword → State → Pinned × State
  | 0, _, s => (.frames [], s)
  | k + 1, va, s =>
    let next (add : List Nat) (s1 : State) : Pinned × State :=
      match pageFrames id tile wr (add ++ got) k (va + 65536) s1 with
      | (.frames l, s2) => (.frames (add ++ l), s2)
      | r => r
    match translate s va wr with
    | (.at 0 a _, s1) =>
      if pinnable s1 got (frameOf a) then next [frameOf a] s1
      else if tile then (.wait s1, s1)
      else next [] s1
    | (.fail cause, s1) =>
      if tile then (.wait (postOnce s1 (dispatchFault (.node id) 5 255 cause va (.tiles id))), s1) else next [] s1
    | (_, s1) => next [] s1

/-- Pages from a VA over a length. -/
def pageCount (va : Dword) (len : Nat) : Nat := (va.toNat % 65536 + len + 65535) / 65536

/-- The tile list from entry `i` on, `k` entries at most. A poisoned entry is passed over, counted. Reserved bits that are not
zero are ignored: R42 names no illegal case for them (assumption log 73). -/
def tileFrames (id : Nat) (list : Dword) (got : List Nat) : Nat → Nat → State → Pinned × State
  | 0, _, s => (.frames [], s)
  | k + 1, i, s =>
    let va := list + BitVec.ofNat 64 (16 * i)
    match translate s va false with
    | (.fail cause, s1) => (.wait (postOnce s1 (dispatchFault (.node id) 5 255 cause va (.tiles id))), s1)
    | (p, s1) =>
      let (l, s2) := unitLine s1 (BitVec.ofNat 32 id) p
      let o := va.toNat % 64
      let tile : Dword := BitVec.ofNat 64 (lineNat l.data o 8)
      let len := lineNat l.data (o + 8) 4
      if l.psn then tileFrames id list got k (i + 1) (addCount s2 (.node id) cntPoison 1)
      else if len = 0 then (.frames [], s2)
      else
        match pageFrames id true (lineNat l.data (o + 12) 1 % 2 == 1) got (pageCount tile len) (pageBase tile) s2 with
        | (.wait w, s3) => (.wait w, s3)
        | (.frames a, s3) =>
          match tileFrames id list (a ++ got) k (i + 1) s3 with
          | (.frames b, s4) => (.frames (a ++ b), s4)
          | r => r
where
  pageBase (va : Dword) : Dword := va &&& ~~~(0xFFFF#64)

/-- The frames that a node's first placement pins. -/
def placePins (s : State) (n : Node) : Pinned × State :=
  let r := n.lrec
  match (if r.tiles = 0 then (.frames [], s) else tileFrames n.id r.tiles [] 32 0 s) with
  | (.wait w, s1) => (.wait w, s1)
  | (.frames a, s1) =>
    match pageFrames n.id false true a (if r.saveBytes = 0 then 0 else pageCount r.save r.saveBytes.toNat) (r.save &&& ~~~(0xFFFF#64)) s1 with
    | (.frames b, s2) => (.frames (a ++ b), s2)
    | r => r

/-! ### Granting -/

/-- A node becomes resident on a core, which holds the ways of its block from now on (R409). -/
def joinCore (s : State) (k id : Nat) (w : Window) : State :=
  let s := updNode s id (fun n => { n with admitted := winScratch w, ctx := { n.ctx with mem := { n.ctx.mem with wr := loadWr n.ctx.mem.wr w } } })
  updCore s k (fun c =>
    let first : Bool := c.resident.isEmpty
    { c with resident := c.resident ++ [id], turn := if first then 0 else c.turn,
             sliceStart := if first then s.run.time else c.sliceStart })

/-- An executor granted: the age and the reservation end, the first placement's checkpoint is taken (R442), and the
block or the image is to be read. -/
def grantExec (s : State) (n : Node) (w : Window) (x : Executor) : State :=
  let s1 := match x with
    | .core k => joinCore s k n.id w
    | .region .. => s
  let region : Bool := match x with
    | .core _ => false
    | .region .. => true
  let s2 := updNode s1 n.id (fun n =>
    { n with st := .placed, exec := some x, age := 0, reserve := none, loading := true, closed := false, throttled := 0
             kind := if n.lrec.cls == 2 then some region else n.kind
             ctx := { n.ctx with ckpt := some (n.ctx.ckpt.getD (checkpointOf s1 n.ctx none)) } })
  queueJob s2 (.event (if n.image.isSome then .restore n.id else .blockLoad (.node n.id)))

/-- The endpoints that a node's placement attaches (R342): those in force of a node pre-empted inside a block, else the next
block's. -/
def placedEnds (n : Node) (w : Window) : List (Nat × Bool) := blockEnds n.ctx w (n.image == some 2 && n.win.isSome)

/-- The node placed once its pins are made, its endpoints attached. -/
def placeNode (s : State) (n : Node) (w : Window) (x : Executor) : State :=
  let attach (s : State) : State := attachEnds s (BitVec.ofNat 32 n.id) (placedEnds n w)
  if n.ctx.ckpt.isSome then attach (grantExec s n w x)
  else
    match placePins s n with
    | (.wait t, _) => t
    | (.frames l, s1) => attach <| grantExec (updNode (l.foldl pinFrame s1) n.id (fun n => { n with tilePins := l })) n w x

/-! ### Reservations (R384) -/

def reservations (s : State) : Nat := (s.dsp.nodes.filter (fun n => n.reserve.isSome)).length

/-- With AUTOPRE the preemptible holders of no higher priority are pre-empted. -/
def preemptHolders (s : State) (n : Node) (r : Rect) : State :=
  if !s.dsp.autoPre then s
  else
    { s with dsp := { s.dsp with nodes := s.dsp.nodes.map (fun m =>
      if m.lrec.pre && decide (m.lrec.prio.toNat ≤ n.lrec.prio.toNat) && (m.moving == .none || m.moving == .replace) && m.completing.isNone
          && m.saveFailed.isNone && (match nodeRect m with
            | some q => rectsMeet r q
            | none => false)
      then { m with moving := preemptMove m } else m) } }

/-- A node of age 255 takes a reservation, or takes it afresh where its rectangle can no longer meet it. -/
def reserveFor (s : State) (n : Node) (w : Window) : State :=
  let stale : Bool := match n.reserve with
    | some r => !(offered s r && couldMeet s w (loadWr n.ctx.mem.wr w) r)
    | none => reservations s < 16
  if n.age < 255 ∨ !wantsRegion n w ∨ !stale then s
  else
    match reserveRect s n w with
    | none => updNode s n.id (fun n => { n with reserve := none })
    | some r =>
      let order := if n.reserve.isSome then n.reserveOrder else s.dsp.serial
      let s1 := updNode s n.id (fun n => { n with reserve := some r, reserveOrder := order })
      preemptHolders { s1 with dsp := { s1.dsp with serial := s.dsp.serial + 1 } } n r

/-! ### The pass (R382) -/

/-- The block that a node is to run next: of a pre-empted node the one it was in, else a fetch (checks 1 and 2). -/
def nextBlock (s : State) (n : Node) : LoadRes Window :=
  match n.image, n.win with
  | some 2, some w => .ok w s
  | _, _ => fetchBlock s (.node n.id) n.ctx.draft

/-- A node may be considered: it waits in the pool, and no fetch of its block waits for an acknowledgement. -/
def considered (s : State) (n : Node) : Bool := inPool n && !posterWaits s (.fetch (.node n.id)) && !retireWaits s n.id

/-- A node that is not to be placed now: it is held (R404), or its tile pins wait for a record. At age 255 it takes its reservation
all the same (R384). -/
def notYet (s : State) (n : Node) : Bool := n.held || posterWaits s (.tiles n.id)

/-- Its endpoints and, at the first placement, its child reservation can be had (R380, R386). -/
def roomToPlace (s : State) (n : Node) (w : Window) : Bool :=
  endsReady s (BitVec.ofNat 32 n.id) (placedEnds n w) && (n.ctx.ckpt.isSome || decide (n.lrec.children.toNat ≤ freeEntries s))

/-- One node's turn in a pass. -/
def tryPlace (s : State) (id : Nat) : State :=
  match getNode s id with
  | none => s
  | some n =>
    let d := n.ctx.draft
    let idle := notYet s n
    let fail (s1 : State) (cause idx : Nat) (va : Dword) (word : Nat) : State :=
      if idle then s1 else failLoad s1 id cause d.block idx va word
    if !considered s n || (idle && decide (n.age < 255)) then s
    else
      match nextBlock s n with
      | .wait s1 => s1
      | .fail cause i va word s1 => fail s1 cause i va word
      | .ok w s1 =>
        match nodeFault n w with
        | some (cause, i, word) => fail s1 cause i w.va word
        | none =>
          let s1 := checkChans s1 ((placedEnds n w).map (·.1))
          if neverFits s1 n w then fail s1 3 255 w.va 0
          else if idle || !roomToPlace s1 n w then reserveFor s1 n w
          else
            match findExec s1 n w with
            | some x => placeNode s1 n w x
            | none => reserveFor s1 n w

/-- The order of a pass: reservations in their order, then priority, then entry into the pool. -/
def passKey (n : Node) : List Nat :=
  match n.reserve with
  | some _ => [0, n.reserveOrder, 0]
  | none => [1, 7 - n.lrec.prio.toNat, n.entered]

def insertNode (n : Node) : List Node → List Node
  | [] => [n]
  | m :: l => if lexLt (passKey n) (passKey m) then n :: m :: l else m :: insertNode n l

def passOrder (s : State) : List Nat := ((s.dsp.nodes.filter inPool).foldl (fun l n => insertNode n l) []).map (·.id)

/-- PLACEMENT_PASS. After a fatal event of FCODE 1 nothing is placed (R455). -/
def execPlacementPass (s : State) : Host.Outcome State Fault Refusal :=
  .next (if s.dsp.frozen then s else (passOrder s).foldl tryPlace s)

/-! ### Ages (R383) -/

/-- Whole age steps since the last one. -/
def ageSteps (s : State) : Nat := (s.run.time - s.dsp.lastAge) / max 1 s.dsp.ageTick.toNat

/-- AGE_TICK: the age of every waiting node rises, once every AGETICK µs. -/
def execAgeTick (s : State) : Host.Outcome State Fault Refusal :=
  let k := ageSteps s
  .next { s with dsp := { s.dsp with lastAge := s.dsp.lastAge + k * s.dsp.ageTick.toNat
                                     nodes := s.dsp.nodes.map (fun n => if inPool n then { n with age := min 255 (n.age + k) } else n) } }

end Sys2Proof.Machine
end

