-- ==== Sys2Proof/Machine/Detect.lean ====
section
/-! DEFINITION. The deadlock detector (R356 to R358). -/

namespace Sys2Proof.Machine

/-! ### Waits on channels (R356) -/

/-- The channel of an endpoint of a node. -/
def endChan (n : Node) (ep : Nat) : Option Nat := (n.ctx.ends[ep]?).map (·.chid)

/-- A push of node `n` on an endpoint waits at SOFT. -/
def pushWait (s : State) (n : Node) (ep : Nat) : Option (Nat × Bool) :=
  match endChan n ep with
  | none => none
  | some k =>
    let c := getChan s k
    if c.state == chOpenSt && c.prod == BitVec.ofNat 32 n.id && !pushRoom c then some (k, true) else none

/-- A pop waits on an empty channel. -/
def popWait (s : State) (n : Node) (ep : Nat) : Option (Nat × Bool) :=
  match endChan n ep with
  | none => none
  | some k =>
    let c := getChan s k
    if c.state == chOpenSt && c.cons == BitVec.ofNat 32 n.id && c.thead == c.ctail then some (k, false) else none

/-- The wait of one instruction on a channel: its number, and whether it pushes. -/
def chanWait (s : State) (n : Node) (w : Window) (x : Word) (u : ElemSt) : Option (Nat × Bool) :=
  let held (ep : Nat) : Option Nat := if u.pend.isEmpty then none else some ep
  if !u.out.isEmpty || !u.stage.isEmpty then none
  else
    match instrOf x with
    | some (.push _ ep p) =>
      let sl := slotsA ++ predSlots p
      let marks := sl.all (fun x => (headOf u x).isMk)
      if slotsFull u sl && (marks || (sl.all (fun x => !(headOf u x).isMk) && predActive p (operands u))) then pushWait s n ep.val else none
    | some (.pushb _ k) => (held (chepWord w k.val).2).bind (pushWait s n)
    | some (.pop _ ep trig) => if u.ended || (trig && u.qa.isEmpty) then none else popWait s n ep.val
    | some (.peek _ ep) => if u.qa.isEmpty then none else popWait s n ep.val
    | some (.popb _ k) => (held (chepWord w k.val).2).bind (popWait s n)
    | _ => none

/-- The waits of a node's block. -/
def chanWaits (s : State) (n : Node) : List (Nat × Bool) :=
  match n.win with
  | none => []
  | some w => (w.code.zip w.units).filterMap (fun (x, u) => chanWait s n w x u)

/-- A node that awaits a block: the endpoints of that block (R342, R386). -/
def nextEnds (s : State) (n : Node) : List (Nat × Bool) :=
  match nextBlock s n with
  | .ok w _ => placedEnds n w
  | _ => []

/-- Its next block waits for an endpoint. -/
def endWaits (s : State) (n : Node) : Bool :=
  (n.loading || inPool n) && !endsReady s (BitVec.ofNat 32 n.id) (nextEnds s n)

/-- A node is blocked. One that has been pre-empted keeps waiting where it waited. -/
def blockedNode (s : State) (n : Node) : Bool :=
  let c : CtxId := .node n.id
  let quiet : Bool := inPool n || ((s.run.still.elem c || n.loading) && (match n.win with
    | some w => accessesDone true w
    | none => true))
  quiet && outstanding s c == 0 && (!(chanWaits s n).isEmpty || endWaits s n)

/-! ### Sets (R356) -/

/-- A set: its channels and its nodes. -/
structure ChanSet where
  chans : List Nat
  nodes : List Nat

def chanHolders (s : State) (k : Nat) : List Nat :=
  let c := getChan s k
  [c.prod, c.cons].filterMap (fun x => if x = noNode then none else some x.toNat)

/-- One round of the closure. -/
def growSet (s : State) (x : ChanSet) : ChanSet :=
  let nodes := (x.nodes ++ x.chans.flatMap (chanHolders s)).eraseDups
  { nodes := nodes, chans := ((s.chu.table.map (·.1)).filter (fun k => x.chans.elem k || (chanHolders s k).any nodes.elem)) }

/-- The set of a channel, its channels ascending. -/
def setOf (s : State) (k : Nat) : ChanSet :=
  (List.range (s.chu.table.length + 1)).foldl (fun x _ => growSet s x) { chans := [k], nodes := [] }

def setNodes (s : State) (x : ChanSet) : List Node := x.nodes.filterMap (getNode s)

/-- What of a set's channels ends a report's force: pointers, soft capacities, states and holders (R358). -/
def chanSig (s : State) (x : ChanSet) : List Nat :=
  x.chans.flatMap (fun k =>
    let c := getChan s k
    [c.prod.toNat, c.cons.toNat, c.state.toNat, c.soft.toNat, c.chead.toNat, c.ctail.toNat, c.thead.toNat, c.ttail.toNat, c.rt.toNat])

/-- What of its executors moves. -/
def moveSig (s : State) (x : ChanSet) : List Nat :=
  (setNodes s x).flatMap (fun n =>
    [n.id, n.ctx.phase, n.ctx.draft.block, b2n n.loading, b2n (inPool n)] ++ (match n.win with
      | some w => w.units.flatMap (fun u => [u.fired, u.qa.length, u.qb.length, u.qc.length, u.qp.length, u.stage.length + u.out.length, u.gen.issued.toNat])
      | none => []))

def setSig (s : State) (x : ChanSet) : List Nat := chanSig s x ++ moveSig s x

/-! ### The detector (R357, R358) -/

/-- Channels on which a push waits at SOFT, ascending. -/
def pushWaits (s : State) : List Nat :=
  let l := s.dsp.nodes.flatMap (fun n => (chanWaits s n).filterMap (fun p => if p.2 then some p.1 else none))
  (s.chu.table.map (·.1)).filter l.elem

/-- Claimants of a set. -/
def claimants (s : State) (x : ChanSet) : List Nat :=
  (s.dsp.nodes.filter (fun n =>
    inPool n && ((x.nodes.elem n.id && !blockedNode s n)
      || (nextEnds s n).any (fun p => x.chans.elem p.1 && (if p.2 then (getChan s p.1).prod else (getChan s p.1).cons) == noNode)))).map (·.id)

/-- Every node of the set that holds an executor is blocked, and one that holds none claims nothing by itself. -/
def allBlocked (s : State) (x : ChanSet) : Bool := (setNodes s x).all (fun n => inPool n || blockedNode s n)

/-- The least SOFT, then the least number. -/
def leastSoft (s : State) (l : List Nat) : Option Nat :=
  l.foldl (fun acc k => match acc with
    | none => some k
    | some j => if (getChan s k).soft.toNat < (getChan s j).soft.toNat then some k else some j) none

/-- One growth. -/
def growChan (s : State) (k : Nat) : State :=
  let c := getChan s k
  let soft := min c.ceil.toNat (c.soft.toNat + max (ringTokens c) c.soft.toNat)
  let s1 := setChan s k { c with soft := BitVec.ofNat 32 soft, grows := BitVec.ofNat 16 (min 65535 (c.grows.toNat + 1)) }
  updChu (writeImage s1 k) (fun u => { u with grows := u.grows + 1 })

/-- The record of a true deadlock. -/
def deadlockRec (s : State) (x : ChanSet) (h : Nat) : TrapRec :=
  let c := getChan s h
  let next := ((x.chans.filter (h < ·)) ++ List.replicate 4 0xFFFF).take 4
  { kind := 0x02, field := 0, src := 5, x := 0, y := 0, node := c.prod
    payload := [(0x10, 2, h), (0x12, 2, min 65535 x.chans.length), (0x14, 4, x.nodes.length), (0x18, 4, c.prod.toNat), (0x1C, 4, c.cons.toNat),
                (0x20, 4, c.soft.toNat), (0x24, 4, ptrDiff c.ttail c.chead)]
      ++ next.zipIdx.map (fun (v, i) => (0x28 + 2 * i, 2, v))
      ++ [(0x30, 4, ((x.chans.map (fun k => (getChan s k).grows.toNat)).sum) % 2 ^ 32)]
    poster := .deadlock h }

/-- The deadlock posted, unless it stands reported (a change of one of its channels ends that: `setChan`); the entry of the channel that the record names is written (R334). -/
def reportSet (s : State) (x : ChanSet) (h : Nat) : State :=
  let sig := chanSig s x
  if s.chu.reported.any (fun r => r.1 == x.chans && r.2 == sig) || posterWaits s (.deadlock h) then s
  else
    let keep := s.chu.reported.filter (fun r => r.1 != x.chans)
    updChu (writeImage (postRec s (deadlockRec s x h)) h) (fun u => { u with deadlk := u.deadlk + 1, reported := keep ++ [(x.chans, sig)] })

/-- The detector's act on the set of one channel. -/
def detectAt (s : State) (h : Nat) : State :=
  let x := setOf s h
  let quiet : Bool := s.chu.probes.any (fun p => p.1 == x.chans && p.2 == setSig s x)
  if !(pushWaits s).elem h || !allBlocked s x || !quiet then s
  else
    match claimants s x with
    | [] =>
      let waits := x.chans.filter (pushWaits s).elem
      match leastSoft s (waits.filter (fun k => decide ((getChan s k).soft.toNat < (getChan s k).ceil.toNat))) with
      | some k => growChan s k
      | none => reportSet s x (waits.headD h)
    | l => l.foldl (fun s id => updNode s id (fun n => { n with age := 255 })) s

/-- DEADLOCK_DETECT: a probe every DINT µs. -/
def execDeadlockDetect (s : State) : Host.Outcome State Fault Refusal :=
  .next (if !s.chu.en || decide (s.run.time - s.chu.lastProbe < s.chu.dint.toNat) then s
    else
      let s1 := (pushWaits s).foldl detectAt (checkChans s (s.chu.table.map (·.1)))
      updChu s1 (fun u => { u with lastProbe := s.run.time, probes := (pushWaits s1).map (fun h => let x := setOf s1 h; (x.chans, setSig s1 x)) }))

end Sys2Proof.Machine
end

