-- ==== Sys2Proof/Machine/Agenda.lean ====
section
/-! DEFINITION. What a step takes up next: the job at the head of the agenda, or one freely chosen among all that may
act (R4, R26); and the window of one instruction that a load outside the machine stands for. -/

namespace Sys2Proof.Machine

/-- The configuration word of an instruction of a context's window. -/
def fetchWord (s : State) (c : CtxId) (i : Nat) : Option Word := (getWin s c).bind (fun w => w.code[i]?)

/-- The instruction of a unit, decoded and legal by itself (R21). -/
def fetchInstr (s : State) (c : CtxId) (i : Nat) : Option Instr :=
  match (fetchWord s c i).bind instrOf with
  | some ins => if ins.wellFormed then some ins else none
  | none => none

/-- A context's window may act: a node's block runs, on a core with the turn (R410); firmware runs at its level, and in a
frozen window firings under way go on (R420). -/
def mayFire (s : State) (c : CtxId) : Bool :=
  match c, ctxCore s c with
  | .node id, some k => blockRuns s c && coreUser (getCore s k) == some id
  | .fw k _, _ => blockRuns s c || (frozen s c && !crashWaits s k.val)
  | _, _ => blockRuns s c

/-! ### Throttling (R392, R393) -/

/-- An instruction whose firings or accesses an ingress port admits. -/
def isIngress (x : Word) : Bool := isMemWord x || wordOp x / 16 == 9 || wordOp x == 0x84 || wordOp x == 0x85 || wordOp x == 0x88

/-- The bucket above a unit's ingress port is over its limit. -/
def heldBack (s : State) (c : CtxId) (i : Nat) : Bool :=
  match fetchWord s c i with
  | none => false
  | some x => isIngress x && fieldThrottled s (ctxField s c i)

/-- A shuttle's moves are held back with its field. -/
def shuttleHeld (s : State) (ticket : Nat) : Bool :=
  match getCmd s ticket with
  | some x => fieldThrottled s x.field
  | none => false

/-! ### Jobs -/

/-- The unit of a context's instruction brought into focus. -/
def focusOn (s : State) (c : CtxId) (i : Nat) : State := { s with run := { s.run with focus := some (c, i) } }

def noFocus (s : State) : State := { s with run := { s.run with focus := none } }

/-- Whether a test of the hardware passes in this sweep (log 6). -/
def passed (s : State) : Bool := Config.passes s.run.sweep

/-- The layers that a test marks. -/
def foundLayers (s : State) : List (Fin 12288 × Fin 6) :=
  (Config.testLayers s.run.sweep).map (fun p => (Fin.ofNat 12288 p.1, Fin.ofNat 6 p.2))

/-- The failing cells of a field that a retest finds. -/
def foundCells (s : State) (f : Nat) : List (Fin 256 × Fin 192) :=
  ((Config.testCells s.run.sweep).filter (fun p => decide (p.1 < 256 ∧ p.2 < 192) && siteField (p.1 / 2) (p.2 / 2) == f)).map
    (fun p => (Fin.ofNat 256 p.1, Fin.ofNat 192 p.2))

/-- A job that is due when a condition holds. -/
def dueIf (b : Bool) (i : Instr) : List Instr := if b then [i] else []

/-- Bring-up's next stage. -/
def bootJobs (s : State) : List Instr :=
  match s.mg.stage.toNat with
  | 0 | 1 => [Instr.bootImageVerify]
  | 2 => [Instr.hbmTrain (passed s)]
  | 3 => [Instr.sramTest (passed s) (foundLayers s)]
  | 4 => [Instr.binLoadRetest (passed s)]
  | 5 => [Instr.firmwareInstall]
  | 6 => [Instr.linkTrain (passed s)]
  | _ => []

/-- What is due of a context's block beside its units. -/
def blockEvents (s : State) (c : CtxId) : List Job :=
  match getCtx s c, getWin s c with
  | some x, some w =>
    if frozen s c then []
    else
      (List.flatten [dueIf x.boundary.isSome (Instr.phaseBoundary c), dueIf (commitDue s c) (Instr.commitBoundary c),
        dueIf (blockDone w) (Instr.blockEnd c)]).map Job.event
  | _, _ => []

/-- The jobs of a context that runs a block: on a region any unit may act; on a core a cycle takes up its units (R411). -/
def blockJobs (s : State) (c : CtxId) : List Job :=
  if !mayFire s c then []
  else
    (if (ctxCore s c).isSome then [] else (List.range (((getWin s c).map (·.units.length)).getD 0)).map (Job.fire c)) ++ blockEvents s c

/-- The load or the restore of a node that holds an executor. -/
def loadJob (n : Node) : Instr := if n.image.isSome then Instr.restore n.id else Instr.blockLoad (.node n.id)

/-- The dispatcher's jobs for a node. -/
def nodeJobs (s : State) (n : Node) : List Job :=
  (List.flatten [dueIf (n.moving != .none && n.exec.isSome) (Instr.preemption n.id), dueIf (mayLoad s n) (loadJob n),
    dueIf n.completing.isSome (Instr.nodeComplete n.id), dueIf (decide (8 ≤ n.checks)) (Instr.nodeRetireChecks n.id)]).map Job.event ++
    blockJobs s (.node n.id)

/-- A core's firmware: its load is due, or its block runs; and the boundaries that frozen windows wait for. -/
def coreJobs (s : State) (k : Fin 16) : List Job :=
  let co := getCore s k.val
  let l : Fin 3 := Fin.ofNat 3 co.level.toNat
  let f := coreWin co l.val
  let c : CtxId := .fw k l
  (if f.win.isNone then (dueIf (!f.draft.halt && (s.mg.stage == 6 || s.mg.stage == 7)) (Instr.blockLoad c)).map Job.event
  else blockJobs s c) ++
    (((List.finRange 3).filter (fun m => decide (m < l) && (coreWin co m.val).boundary.isSome)).map (fun m => Job.event (.phaseBoundary (.fw k m))))

/-- A shuttle command's next move. -/
def cmdJobs (s : State) (x : Cmd) : List Instr :=
  if !x.started then [Instr.shuttleCommandStart x.ticket]
  else if x.doneAt.isSome then []
  else
    [Instr.shuttleTilePermit x.ticket, Instr.shuttleComplete x.ticket] ++
      dueIf (x.op == opRelay && x.opened && !x.acked && ackOverdue s x) (Instr.relayAckTimeout x.ticket)

/-- The health unit's and the power controller's jobs for a field. -/
def fieldJobs (s : State) (f : Fin 4) : List Instr :=
  let st := (getField s f.val).state
  List.flatten [[Instr.powerBucketTick (.field f)], dueIf (st == 1) (Instr.fieldDrained f),
    dueIf (st == 3) (Instr.retestDone f (foundCells s f.val) (Config.testOthers s.run.sweep)),
    dueIf (s.hl.wait.any (fun w => w.op == 0xF3 && w.field == f.val)) (Instr.binChangeDone f)]

/-- The detector's interval is over. -/
def probeDue (s : State) : Bool := s.chu.en && decide (s.chu.dint.toNat ≤ s.run.time - s.chu.lastProbe)

/-- Channels whose rings are to be refilled. -/
def refillJobs (s : State) : List Instr :=
  (s.chu.table.filter (fun p => refillDue p.2)).map (fun p => Instr.channelRefill (Fin.ofNat 4096 p.1))

/-- The device's other jobs. -/
def deviceJobs (s : State) : List Instr :=
  List.flatten [dueIf (pickRec (tqFull s) s.tq.posters).isSome Instr.trapRecordPost, dueIf (s.dsp.nodes.any inPool) Instr.placementPass,
    dueIf (s.hl.wait.any (bypassReady s)) Instr.bypassApply, dueIf s.fw.sig.isSome Instr.sigchkComplete,
    dueIf (probeDue s) Instr.deadlockDetect, refillJobs s, s.sh.cmds.flatMap (cmdJobs s), fieldJobs s 0, fieldJobs s 1, fieldJobs s 2,
    fieldJobs s 3, [Instr.powerBucketTick .module]]

/-- All jobs that may be done now but the next input. -/
def ownJobs (s : State) : List Job :=
  if s.mg.off then []
  else
    (bootJobs s).map Job.event ++ (deviceJobs s).map Job.event ++ s.dsp.nodes.flatMap (nodeJobs s) ++
      (List.finRange 16).flatMap (coreJobs s)

/-- What falls due on a core as a µs begins. -/
def coreDue (s : State) (k : Fin 16) : List Instr :=
  let co := getCore s k.val
  List.flatten [dueIf (BitVec.ofNat 32 s.run.time == co.tcmp) (Instr.timerMatch k),
    dueIf (wdogDue s k.val) (Instr.fwWatchdog k),
    dueIf (!co.resident.isEmpty && decide (co.slice.toNat ≤ s.run.time - co.sliceStart) && !co.yielded) (Instr.sliceExpiry k)]

def dueJobs (s : State) : List Job :=
  if s.mg.off then []
  else ((List.finRange 16).flatMap (coreDue s) ++ dueIf (decide (1 ≤ ageSteps s)) Instr.ageTick).map Job.event

/-- The time moves on by 0 or 1 µs. -/
def passTime (s : State) : State :=
  let r := s.run
  { s with run := { r with sweep := r.sweep + 1, time := r.time + Config.usTick r.sweep % 2 } }

/-- An event that the machine takes up: while it is off, only the end of its reset; a shuttle's move unless its field is
throttled. -/
def eventTaken (s : State) (e : Instr) : Bool :=
  match e with
  | .moduleReset _ => true
  | .shuttleTilePermit t => !s.mg.off && !shuttleHeld s t
  | _ => !s.mg.off

/-- The instruction of the job at the head of the agenda, and the state in which it runs. A word that is no legal
instruction blocks its unit (R21). -/
def takeHead (s : State) : State × Option Instr :=
  match s.run.agenda with
  | [] => (s, none)
  | .event e :: js =>
    let s1 := noFocus { s with run := { s.run with agenda := js } }
    (s1, if eventTaken s1 e then some e else none)
  | .fire c i :: js =>
    let s1 := { s with run := { s.run with agenda := js } }
    if !mayFire s1 c then (s1, none)
    else
      match fetchInstr s1 c i with
      | some ins => if heldBack s1 c i then (s1, none) else (focusOn s1 c i, some ins)
      | none => (updUnit s1 c i (fun u => { u with blk := true }), none)

/-! ### A window of one instruction -/

/-- A launch record of zeros but for its id. -/
def blankRec (id : Nat) : LaunchRec :=
  { draft := 0, pers := false, pre := false, id := BitVec.ofNat 32 id, preds := 0, children := 0, cls := 0, prio := 0,
    succ := 0, group := 0, succCount := 0, barCount := 0, tiles := 0, save := 0, counter := 0, saveBytes := 0 }

/-- A unit with one data token of value 0 on each operand slot. -/
def primedUnit : ElemSt :=
  { ElemSt.init 0 with qa := [scalarTok 0 false], qb := [scalarTok 0 false], qc := [scalarTok 0 false],
                       qp := [scalarTok 0 false] }

/-- A spatial window of one instruction, with a pool of zeros (R65 to R72). -/
def oneWindow (w : Word) : Window :=
  { h0 := 0x01010001#32, h1 := 0, h2 := 0, code := [w], place := [0], pool := List.replicate 32 0, scratch := 0,
    persist := 0, t2 := 0, ends := [], va := 0, loadedUs := 0, units := [primedUnit] }

/-- A word of a control core's own groups: 0xE privileged, 0xF, and FRAMEM (R86, R419). -/
def isPrivilegedWord (w : Nat) : Bool :=
  let op := w / 2 ^ 24 % 256
  op / 16 == 14 || op / 16 == 15 || op == 0xC5

/-- Node 0 placed on one site, or core 0's firmware at level 0, with the window of one word. -/
def placeWord (s : State) (w : Nat) : State × CtxId :=
  let win := oneWindow (BitVec.ofNat 32 w)
  if isPrivilegedWord w then
    (updCore s 0 (fun k => { k with f0 := { k.f0 with win := some win } }), .fw 0 0)
  else
    let n := freshNode 0 (blankRec 0)
    ({ s with dsp := { s.dsp with nodes := { n with st := .placed, exec := some (.region 0 0 1 1), win := some win }
        :: s.dsp.nodes } }, .node 0)

def fetchAt (s : State) (w : Nat) : State :=
  let (s1, c) := placeWord s w
  { s1 with run := { s1.run with agenda := [.fire c 0] } }

end Sys2Proof.Machine
end

