-- ==== Sys2Proof/Machine/Convert.lean ====
section
/-! DEFINITION. Group 0x4: conversions and constants (R160 to R167). -/

namespace Sys2Proof.Machine

/-- CVTIF (R160). -/
def execCvtif (h : DHead) (uns : Bool) (r : Rnd) (s : State) : Host.Outcome State Fault Refusal :=
  runUnit s (fun _ => wordFiring slotsA h (fun a _ _ => cvtif uns r a))

/-- CVTFI (R160). -/
def execCvtfi (h : DHead) (uns : Bool) (r : Rnd) (s : State) : Host.Outcome State Fault Refusal :=
  runUnit s (fun _ => countedFiring slotsA h (fun a _ _ => cvtfi uns r a))

/-- CVTFH (R161). -/
def execCvtfh (h : DHead) (sat f16 : Bool) (r : Rnd) (s : State) : Host.Outcome State Fault Refusal :=
  runUnit s (fun _ => countedFiring slotsAB h (fun a b _ => cvtfh sat f16 r a b))

/-- CVTHF (R161). -/
def execCvthf (h : DHead) (f16 : Bool) (l : Fin 2) (s : State) : Host.Outcome State Fault Refusal :=
  runUnit s (fun _ => wordFiring slotsA h (fun a _ _ => cvthf f16 l.val a))

/-- CVTF8 (R162). -/
def execCvtf8 (h : DHead) (l : Fin 4) (e5m2 nsat : Bool) (s : State) : Host.Outcome State Fault Refusal :=
  runUnit s (fun _ => countedFiring slotsAB h (fun a b _ => cvtf8 l.val e5m2 nsat a b))

/-- CVT8F (R162). -/
def execCvt8f (h : DHead) (l : Fin 4) (e5m2 : Bool) (s : State) : Host.Outcome State Fault Refusal :=
  runUnit s (fun _ => wordFiring slotsA h (fun a _ _ => cvt8f l.val e5m2 a))

/-- LDI (R142): slot a is a trigger. -/
def execLdi (t : Tgt) (v : BitVec 15) (s : State) : Host.Outcome State Fault Refusal :=
  runUnit s (fun _ => triggerFiring t (fun _ => (imm15 v, false)))

/-- LDHI (R163): slot a is data. -/
def execLdhi (t : Tgt) (v : BitVec 15) (s : State) : Host.Outcome State Fault Refusal :=
  runUnit s (fun _ => immFiring t (ldhiOp v))

/-- PACK (R164). -/
def execPack (h : DHead) (sat uns : Bool) (w : Width) (s : State) : Host.Outcome State Fault Refusal :=
  runUnit s (fun _ => countedFiring slotsAB h (fun a b _ => packOp sat uns w a b))

/-- UNPK (R164). -/
def execUnpk (h : DHead) (hi uns : Bool) (w : Width) (s : State) : Host.Outcome State Fault Refusal :=
  runUnit s (fun _ => wordFiring slotsA h (fun a _ _ => unpkOp hi uns w a))

/-- Q4E (R165). -/
def execQ4e (h : DHead) (l : Fin 8) (s : State) : Host.Outcome State Fault Refusal :=
  runUnit s (fun _ => countedFiring slotsABC h (q4eOp l.val))

/-- Q4D (R165). -/
def execQ4d (h : DHead) (l : Fin 8) (s : State) : Host.Outcome State Fault Refusal :=
  runUnit s (fun _ => wordFiring slotsAB h (fun a b _ => q4dOp l.val a b))

/-- SCB (R166). -/
def execScb (h : DHead) (f : ScbFmt) (s : State) : Host.Outcome State Fault Refusal :=
  runUnit s (fun _ => countedFiring slotsA h (fun a _ _ => scbOp f a))

/-- SCD (R166). -/
def execScd (h : DHead) (s : State) : Host.Outcome State Fault Refusal :=
  runUnit s (fun _ => wordFiring slotsA h (fun a _ _ => scdOp a))

/-- DESC (R167). -/
def execDesc (h : DHead) (s : State) : Host.Outcome State Fault Refusal :=
  runUnit s (fun _ => wordFiring slotsAB h (fun a b _ => descOp a b))

end Sys2Proof.Machine
end

