-- ==== Sys2Proof/Machine/Fp.lean ====
section
/-! DEFINITION. Group 0x3: FP32 arithmetic (R155 to R159). None of these instructions counts an event. -/

namespace Sys2Proof.Machine

/-- FADD (R155). -/
def execFadd (h : DHead) (r : Rnd) (s : State) : Host.Outcome State Fault Refusal :=
  runUnit s (fun _ => wordFiring slotsAB h (fun a b _ => fAdd r a b))

/-- FSUB (R155). -/
def execFsub (h : DHead) (r : Rnd) (s : State) : Host.Outcome State Fault Refusal :=
  runUnit s (fun _ => wordFiring slotsAB h (fun a b _ => fSub r a b))

/-- FMUL (R155). -/
def execFmul (h : DHead) (r : Rnd) (s : State) : Host.Outcome State Fault Refusal :=
  runUnit s (fun _ => wordFiring slotsAB h (fun a b _ => fMul r a b))

/-- FDIV (R155). -/
def execFdiv (h : DHead) (r : Rnd) (s : State) : Host.Outcome State Fault Refusal :=
  runUnit s (fun _ => wordFiring slotsAB h (fun a b _ => fDiv r a b))

/-- FSCL (R156). -/
def execFscl (h : DHead) (r : Rnd) (s : State) : Host.Outcome State Fault Refusal :=
  runUnit s (fun _ => wordFiring slotsAB h (fun a b _ => fScl r a b))

/-- FFMA (R155). -/
def execFfma (h : DHead) (r : Rnd) (s : State) : Host.Outcome State Fault Refusal :=
  runUnit s (fun _ => wordFiring slotsABC h (fFma r))

/-- FSQRT (R155). -/
def execFsqrt (h : DHead) (r : Rnd) (s : State) : Host.Outcome State Fault Refusal :=
  runUnit s (fun _ => wordFiring slotsA h (fun a _ _ => fSqrt r a))

/-- FMIN (R157). -/
def execFmin (h : DHead) (s : State) : Host.Outcome State Fault Refusal :=
  runUnit s (fun _ => wordFiring slotsAB h (fun a b _ => fMinMax false a b))

/-- FMAX (R157). -/
def execFmax (h : DHead) (s : State) : Host.Outcome State Fault Refusal :=
  runUnit s (fun _ => wordFiring slotsAB h (fun a b _ => fMinMax true a b))

/-- FNEG (R157). -/
def execFneg (h : DHead) (s : State) : Host.Outcome State Fault Refusal :=
  runUnit s (fun _ => wordFiring slotsA h (fun a _ _ => fNeg a))

/-- FCMP (R158). -/
def execFcmp (h : DHead) (c : Cond) (s : State) : Host.Outcome State Fault Refusal :=
  runUnit s (fun _ => wordFiring slotsAB h (fun a b _ => boolWord (fCmp c a b)))

/-- FCLASS (R158). -/
def execFclass (h : DHead) (s : State) : Host.Outcome State Fault Refusal :=
  runUnit s (fun _ => wordFiring slotsA h (fun a _ _ => fClass a))

/-- FRSQE (R159). -/
def execFrsqe (h : DHead) (s : State) : Host.Outcome State Fault Refusal :=
  runUnit s (fun _ => wordFiring slotsA h (fun a _ _ => fEst (f32 a).rsqrt))

/-- FRCPE (R159). -/
def execFrcpe (h : DHead) (s : State) : Host.Outcome State Fault Refusal :=
  runUnit s (fun _ => wordFiring slotsA h (fun a _ _ => fEst (f32 a).recip))

/-- FEXP2E (R159). -/
def execFexp2e (h : DHead) (s : State) : Host.Outcome State Fault Refusal :=
  runUnit s (fun _ => wordFiring slotsA h (fun a _ _ => fEst (f32 a).exp2))

/-- FLOG2E (R159). -/
def execFlog2e (h : DHead) (s : State) : Host.Outcome State Fault Refusal :=
  runUnit s (fun _ => wordFiring slotsA h (fun a _ _ => fEst (f32 a).log2))

end Sys2Proof.Machine
end

