-- ==== Sys2Proof/Machine/IntArith.lean ====
section
/-! DEFINITION. Group 0x1: integer arithmetic (R148 to R152). -/

namespace Sys2Proof.Machine

/-- ADD, lane by lane (R148). -/
def execAdd (h : DHead) (sat uns : Bool) (w : Width) (s : State) : Host.Outcome State Fault Refusal :=
  runUnit s (fun _ => wordFiring slotsAB h (intOp exactAdd sat uns w))

/-- SUB, lane by lane (R148). -/
def execSub (h : DHead) (sat uns : Bool) (w : Width) (s : State) : Host.Outcome State Fault Refusal :=
  runUnit s (fun _ => wordFiring slotsAB h (intOp exactSub sat uns w))

/-- MUL, lane by lane (R148). -/
def execMul (h : DHead) (sat uns : Bool) (w : Width) (s : State) : Host.Outcome State Fault Refusal :=
  runUnit s (fun _ => wordFiring slotsAB h (intOp exactMul sat uns w))

/-- MULH, lane by lane (R148). -/
def execMulh (h : DHead) (uns : Bool) (w : Width) (s : State) : Host.Outcome State Fault Refusal :=
  runUnit s (fun _ => wordFiring slotsAB h (intOp exactMulh false uns w))

/-- MAD, lane by lane (R148). -/
def execMad (h : DHead) (sat uns : Bool) (w : Width) (s : State) : Host.Outcome State Fault Refusal :=
  runUnit s (fun _ => wordFiring slotsABC h (intOp exactMad sat uns w))

/-- MIN, lane by lane (R148). -/
def execMin (h : DHead) (uns : Bool) (w : Width) (s : State) : Host.Outcome State Fault Refusal :=
  runUnit s (fun _ => wordFiring slotsAB h (intOp exactMin false uns w))

/-- MAX, lane by lane (R148). -/
def execMax (h : DHead) (uns : Bool) (w : Width) (s : State) : Host.Outcome State Fault Refusal :=
  runUnit s (fun _ => wordFiring slotsAB h (intOp exactMax false uns w))

/-- ABS, lane by lane (R148). -/
def execAbs (h : DHead) (sat : Bool) (w : Width) (s : State) : Host.Outcome State Fault Refusal :=
  runUnit s (fun _ => wordFiring slotsA h (intOp exactAbs sat false w))

/-- NEG, lane by lane (R148). -/
def execNeg (h : DHead) (sat : Bool) (w : Width) (s : State) : Host.Outcome State Fault Refusal :=
  runUnit s (fun _ => wordFiring slotsA h (intOp exactNeg sat false w))

/-- CLAMP, lane by lane (R148). -/
def execClamp (h : DHead) (uns : Bool) (w : Width) (s : State) : Host.Outcome State Fault Refusal :=
  runUnit s (fun _ => wordFiring slotsABC h (intOp exactClamp false uns w))

/-- DIV (R149). -/
def execDiv (h : DHead) (sat uns : Bool) (s : State) : Host.Outcome State Fault Refusal :=
  runUnit s (fun _ => divideFiring h (divOp sat uns))

/-- REM (R149). -/
def execRem (h : DHead) (uns : Bool) (s : State) : Host.Outcome State Fault Refusal :=
  runUnit s (fun _ => divideFiring h (remOp uns))

/-- ADDC (R150). -/
def execAddc (h : DHead) (sv : Bool) (s : State) : Host.Outcome State Fault Refusal :=
  runUnit s (fun _ => wordFiring slotsABC h (addcOp sv))

/-- DOT4 (R152). -/
def execDot4 (h : DHead) (sat uns : Bool) (w : Width) (s : State) : Host.Outcome State Fault Refusal :=
  runUnit s (fun _ => wordFiring slotsABC h (dot4Op sat uns w))

/-- ADDI (R151). -/
def execAddi (t : Tgt) (v : BitVec 15) (s : State) : Host.Outcome State Fault Refusal :=
  runUnit s (fun _ => immFiring t (fun a => a + imm15 v))

/-- MULI (R151). -/
def execMuli (t : Tgt) (v : BitVec 15) (s : State) : Host.Outcome State Fault Refusal :=
  runUnit s (fun _ => immFiring t (fun a => a * imm15 v))

end Sys2Proof.Machine
end

