-- ==== Sys2Proof/Machine/Logic.lean ====
section
/-! DEFINITION. Group 0x2: logic, shifts and comparisons (R153, R154). -/

namespace Sys2Proof.Machine

/-- AND (R153). -/
def execAnd (h : DHead) (s : State) : Host.Outcome State Fault Refusal :=
  runUnit s (fun _ => wordFiring slotsAB h (fun a b _ => a &&& b))

/-- OR (R153). -/
def execOr (h : DHead) (s : State) : Host.Outcome State Fault Refusal :=
  runUnit s (fun _ => wordFiring slotsAB h (fun a b _ => a ||| b))

/-- XOR (R153). -/
def execXor (h : DHead) (s : State) : Host.Outcome State Fault Refusal :=
  runUnit s (fun _ => wordFiring slotsAB h (fun a b _ => a ^^^ b))

/-- ANDN (R153). -/
def execAndn (h : DHead) (s : State) : Host.Outcome State Fault Refusal :=
  runUnit s (fun _ => wordFiring slotsAB h (fun a b _ => a &&& ~~~b))

/-- SHL (R153): the amount is a whole lane of b, unsigned; UNS changes nothing. -/
def execShl (h : DHead) (uns : Bool) (w : Width) (s : State) : Host.Outcome State Fault Refusal :=
  runUnit s (fun _ => wordFiring slotsAB h (fun a b _ => laneMap2 w shlLane a b))

/-- SHR (R153). -/
def execShr (h : DHead) (uns : Bool) (w : Width) (s : State) : Host.Outcome State Fault Refusal :=
  runUnit s (fun _ => wordFiring slotsAB h (fun a b _ => laneMap2 w (shrLane uns) a b))

/-- ROT (R153). -/
def execRot (h : DHead) (w : Width) (s : State) : Host.Outcome State Fault Refusal :=
  runUnit s (fun _ => wordFiring slotsAB h (fun a b _ => laneMap2 w rotLane a b))

/-- CLZ (R153). -/
def execClz (h : DHead) (w : Width) (s : State) : Host.Outcome State Fault Refusal :=
  runUnit s (fun _ => wordFiring slotsA h (fun a _ _ => laneMap2 w clzLane a 0))

/-- POPC (R153). -/
def execPopc (h : DHead) (w : Width) (s : State) : Host.Outcome State Fault Refusal :=
  runUnit s (fun _ => wordFiring slotsA h (fun a _ _ => laneMap2 w popLane a 0))

/-- BFX (R154). -/
def execBfx (h : DHead) (uns : Bool) (s : State) : Host.Outcome State Fault Refusal :=
  runUnit s (fun _ => wordFiring slotsAB h (fun a b _ => bfxOp uns a b))

/-- BFI (R154). -/
def execBfi (h : DHead) (s : State) : Host.Outcome State Fault Refusal :=
  runUnit s (fun _ => wordFiring slotsABC h bfiOp)

/-- CMP (R153). -/
def execCmp (h : DHead) (c : Cond) (uns : Bool) (s : State) : Host.Outcome State Fault Refusal :=
  runUnit s (fun _ => wordFiring slotsAB h (fun a b _ => cmpOp c uns a b))

/-- SEL (R153). -/
def execSel (h : DHead) (s : State) : Host.Outcome State Fault Refusal :=
  runUnit s (fun _ => wordFiring slotsABC h selOp)

/-- TSTB (R153). -/
def execTstb (h : DHead) (s : State) : Host.Outcome State Fault Refusal :=
  runUnit s (fun _ => wordFiring slotsAB h (fun a b _ => tstbOp a b))

/-- CMPI (R153). -/
def execCmpi (t : Tgt) (c : Cond) (uns : Bool) (v : BitVec 11) (s : State) : Host.Outcome State Fault Refusal :=
  runUnit s (fun _ => immFiring t (fun a => cmpOp c uns a (imm11 uns v)))

/-- LOGI (R153). -/
def execLogi (t : Tgt) (op : LogOp) (v : BitVec 13) (s : State) : Host.Outcome State Fault Refusal :=
  runUnit s (fun _ => immFiring t (fun a => logiOp op a v))

end Sys2Proof.Machine
end

