-- ==== Sys2Proof/Machine/Dispatch.lean ====
section
/-! DEFINITION. One arm for each row of the opcode table: which meaning runs it. -/

namespace Sys2Proof.Machine

def exec (i : Instr) (s : State) : Host.Outcome State Fault Refusal :=
  match i with
  | .mov h => Sys2Proof.Machine.execMov h s
  | .fank t k c => Sys2Proof.Machine.execFank t k c s
  | .steer t0 t1 => Sys2Proof.Machine.execSteer t0 t1 s
  | .merge t0 t1 => Sys2Proof.Machine.execMerge t0 t1 s
  | .gate h => Sys2Proof.Machine.execGate h s
  | .mark t c k => Sys2Proof.Machine.execMark t c k s
  | .rankq t k => Sys2Proof.Machine.execRankq t k s
  | .strip t k => Sys2Proof.Machine.execStrip t k s
  | .count t k => Sys2Proof.Machine.execCount t k s
  | .getw t w => Sys2Proof.Machine.execGetw t w s
  | .putw t w => Sys2Proof.Machine.execPutw t w s
  | .const t k n => Sys2Proof.Machine.execConst t k n s
  | .nextb t iv => Sys2Proof.Machine.execNextb t iv s
  | .halt t => Sys2Proof.Machine.execHalt t s
  | .drop p => Sys2Proof.Machine.execDrop p s
  | .add h sat uns w => Sys2Proof.Machine.execAdd h sat uns w s
  | .sub h sat uns w => Sys2Proof.Machine.execSub h sat uns w s
  | .addi t v => Sys2Proof.Machine.execAddi t v s
  | .mul h sat uns w => Sys2Proof.Machine.execMul h sat uns w s
  | .mulh h uns w => Sys2Proof.Machine.execMulh h uns w s
  | .mad h sat uns w => Sys2Proof.Machine.execMad h sat uns w s
  | .div h sat uns => Sys2Proof.Machine.execDiv h sat uns s
  | .rem h uns => Sys2Proof.Machine.execRem h uns s
  | .min h uns w => Sys2Proof.Machine.execMin h uns w s
  | .max h uns w => Sys2Proof.Machine.execMax h uns w s
  | .abs h sat w => Sys2Proof.Machine.execAbs h sat w s
  | .neg h sat w => Sys2Proof.Machine.execNeg h sat w s
  | .clamp h uns w => Sys2Proof.Machine.execClamp h uns w s
  | .addc h sv => Sys2Proof.Machine.execAddc h sv s
  | .muli t v => Sys2Proof.Machine.execMuli t v s
  | .dot4 h sat uns w => Sys2Proof.Machine.execDot4 h sat uns w s
  | .and h => Sys2Proof.Machine.execAnd h s
  | .or h => Sys2Proof.Machine.execOr h s
  | .xor h => Sys2Proof.Machine.execXor h s
  | .andn h => Sys2Proof.Machine.execAndn h s
  | .shl h uns w => Sys2Proof.Machine.execShl h uns w s
  | .shr h uns w => Sys2Proof.Machine.execShr h uns w s
  | .rot h w => Sys2Proof.Machine.execRot h w s
  | .clz h w => Sys2Proof.Machine.execClz h w s
  | .popc h w => Sys2Proof.Machine.execPopc h w s
  | .bfx h uns => Sys2Proof.Machine.execBfx h uns s
  | .bfi h => Sys2Proof.Machine.execBfi h s
  | .cmp h c uns => Sys2Proof.Machine.execCmp h c uns s
  | .cmpi t c uns v => Sys2Proof.Machine.execCmpi t c uns v s
  | .sel h => Sys2Proof.Machine.execSel h s
  | .logi t op v => Sys2Proof.Machine.execLogi t op v s
  | .tstb h => Sys2Proof.Machine.execTstb h s
  | .fadd h r => Sys2Proof.Machine.execFadd h r s
  | .fsub h r => Sys2Proof.Machine.execFsub h r s
  | .fmul h r => Sys2Proof.Machine.execFmul h r s
  | .ffma h r => Sys2Proof.Machine.execFfma h r s
  | .fmin h => Sys2Proof.Machine.execFmin h s
  | .fmax h => Sys2Proof.Machine.execFmax h s
  | .fneg h => Sys2Proof.Machine.execFneg h s
  | .fcmp h c => Sys2Proof.Machine.execFcmp h c s
  | .fdiv h r => Sys2Proof.Machine.execFdiv h r s
  | .fsqrt h r => Sys2Proof.Machine.execFsqrt h r s
  | .frsqe h => Sys2Proof.Machine.execFrsqe h s
  | .frcpe h => Sys2Proof.Machine.execFrcpe h s
  | .fclass h => Sys2Proof.Machine.execFclass h s
  | .fexp2e h => Sys2Proof.Machine.execFexp2e h s
  | .flog2e h => Sys2Proof.Machine.execFlog2e h s
  | .fscl h r => Sys2Proof.Machine.execFscl h r s
  | .cvtif h uns r => Sys2Proof.Machine.execCvtif h uns r s
  | .cvtfi h uns r => Sys2Proof.Machine.execCvtfi h uns r s
  | .cvtfh h sat f16 r => Sys2Proof.Machine.execCvtfh h sat f16 r s
  | .cvthf h f16 l => Sys2Proof.Machine.execCvthf h f16 l s
  | .cvtf8 h l e5m2 nsat => Sys2Proof.Machine.execCvtf8 h l e5m2 nsat s
  | .cvt8f h l e5m2 => Sys2Proof.Machine.execCvt8f h l e5m2 s
  | .ldi t v => Sys2Proof.Machine.execLdi t v s
  | .ldhi t v => Sys2Proof.Machine.execLdhi t v s
  | .pack h sat uns w => Sys2Proof.Machine.execPack h sat uns w s
  | .unpk h hi uns w => Sys2Proof.Machine.execUnpk h hi uns w s
  | .q4e h l => Sys2Proof.Machine.execQ4e h l s
  | .q4d h l => Sys2Proof.Machine.execQ4d h l s
  | .scb h f => Sys2Proof.Machine.execScb h f s
  | .scd h => Sys2Proof.Machine.execScd h s
  | .desc h => Sys2Proof.Machine.execDesc h s
  | .lds t k => Sys2Proof.Machine.execLds t k s
  | .sts t k => Sys2Proof.Machine.execSts t k s
  | .ldb t k bob => Sys2Proof.Machine.execLdb t k bob s
  | .stb t k bob => Sys2Proof.Machine.execStb t k bob s
  | .agen t k va w => Sys2Proof.Machine.execAgen t k va w s
  | .agcfg t k o ind => Sys2Proof.Machine.execAgcfg t k o ind s
  | .ld m sp bsel sx sz => Sys2Proof.Machine.execLd m sp bsel sx sz s
  | .st m sp bsel sz => Sys2Proof.Machine.execSt m sp bsel sz s
  | .ldx m sp bsel sx sz => Sys2Proof.Machine.execLdx m sp bsel sx sz s
  | .pref m bsel e => Sys2Proof.Machine.execPref m bsel e s
  | .atom m sp bsel op => Sys2Proof.Machine.execAtom m sp bsel op s
  | .cas m sp bsel => Sys2Proof.Machine.execCas m sp bsel s
  | .tas m sp bsel => Sys2Proof.Machine.execTas m sp bsel s
  | .fence t seq => Sys2Proof.Machine.execFence t seq s
  | .phase t seq sc => Sys2Proof.Machine.execPhase t seq sc s
  | .bar t k o => Sys2Proof.Machine.execBar t k o s
  | .arrv t k rel sc => Sys2Proof.Machine.execArrv t k rel sc s
  | .bwait t k acq sc => Sys2Proof.Machine.execBwait t k acq sc s
  | .waitge m bsel => Sys2Proof.Machine.execWaitge m bsel s
  | .cntadd m bsel rel => Sys2Proof.Machine.execCntadd m bsel rel s
  | .osend t p => Sys2Proof.Machine.execOsend t p s
  | .orecv h => Sys2Proof.Machine.execOrecv h s
  | .split t k => Sys2Proof.Machine.execSplit t k s
  | .bobdef t k retire => Sys2Proof.Machine.execBobdef t k retire s
  | .bwf t b n => Sys2Proof.Machine.execBwf t b n s
  | .bwe t b n => Sys2Proof.Machine.execBwe t b n s
  | .badv t b tail k => Sys2Proof.Machine.execBadv t b tail k s
  | .tstat t iv => Sys2Proof.Machine.execTstat t iv s
  | .tset t iv => Sys2Proof.Machine.execTset t iv s
  | .cflush m e => Sys2Proof.Machine.execCflush m e s
  | .cwb m e => Sys2Proof.Machine.execCwb m e s
  | .cinv m sp e => Sys2Proof.Machine.execCinv m sp e s
  | .pin m lock => Sys2Proof.Machine.execPin m lock s
  | .unpin m lock => Sys2Proof.Machine.execUnpin m lock s
  | .mapw t k o wr load => Sys2Proof.Machine.execMapw t k o wr load s
  | .unmapw t k o drop => Sys2Proof.Machine.execUnmapw t k o drop s
  | .fuse t k y => Sys2Proof.Machine.execFuse t k y s
  | .unfuse t y => Sys2Proof.Machine.execUnfuse t y s
  | .wload t k strm y => Sys2Proof.Machine.execWload t k strm y s
  | .wswap t r y => Sys2Proof.Machine.execWswap t r y s
  | .mma t k mrank src y => Sys2Proof.Machine.execMma t k mrank src y s
  | .mmao t k mrank src y => Sys2Proof.Machine.execMmao t k mrank src y s
  | .accz t k => Sys2Proof.Machine.execAccz t k s
  | .accrd h w64 r => Sys2Proof.Machine.execAccrd h w64 r s
  | .accdr t k keep y => Sys2Proof.Machine.execAccdr t k keep y s
  | .accsv t k keep => Sys2Proof.Machine.execAccsv t k keep s
  | .accrs t k => Sys2Proof.Machine.execAccrs t k s
  | .edly t k y => Sys2Proof.Machine.execEdly t k y s
  | .skewc t clr d sv => Sys2Proof.Machine.execSkewc t clr d sv s
  | .seaq t item y => Sys2Proof.Machine.execSeaq t item y s
  | .vadd t k bb => Sys2Proof.Machine.execVadd t k bb s
  | .vsub t k bb => Sys2Proof.Machine.execVsub t k bb s
  | .vmul t k bb => Sys2Proof.Machine.execVmul t k bb s
  | .vfma t k bc bb => Sys2Proof.Machine.execVfma t k bc bb s
  | .vmin t k bb => Sys2Proof.Machine.execVmin t k bb s
  | .vmax t k bb => Sys2Proof.Machine.execVmax t k bb s
  | .vcmp t k c bb => Sys2Proof.Machine.execVcmp t k c bb s
  | .vsel t k bc bb => Sys2Proof.Machine.execVsel t k bc bb s
  | .vcvt t k qs cont => Sys2Proof.Machine.execVcvt t k qs cont s
  | .vred t k r op cols vec => Sys2Proof.Machine.execVred t k r op cols vec s
  | .vexp2 t k => Sys2Proof.Machine.execVexp2 t k s
  | .vrsq t k => Sys2Proof.Machine.execVrsq t k s
  | .vrcp t k => Sys2Proof.Machine.execVrcp t k s
  | .vperm t k pool g => Sys2Proof.Machine.execVperm t k pool g s
  | .vbcst t k iv fromv => Sys2Proof.Machine.execVbcst t k iv fromv s
  | .vqnt t k qs => Sys2Proof.Machine.execVqnt t k qs s
  | .copy t k o ofs => Sys2Proof.Machine.execCopy t k o ofs s
  | .gath t k o => Sys2Proof.Machine.execGath t k o s
  | .scat t k o op => Sys2Proof.Machine.execScat t k o op s
  | .mcast t k o ofs => Sys2Proof.Machine.execMcast t k o ofs s
  | .xconv t k o planes => Sys2Proof.Machine.execXconv t k o planes s
  | .relay t k o => Sys2Proof.Machine.execRelay t k o s
  | .free t n tag => Sys2Proof.Machine.execFree t n tag s
  | .xstat t v => Sys2Proof.Machine.execXstat t v s
  | .chopen t k => Sys2Proof.Machine.execChopen t k s
  | .push t ep p => Sys2Proof.Machine.execPush t ep p s
  | .pop t ep trig => Sys2Proof.Machine.execPop t ep trig s
  | .pushb t k => Sys2Proof.Machine.execPushb t k s
  | .popb t k => Sys2Proof.Machine.execPopb t k s
  | .peek t ep => Sys2Proof.Machine.execPeek t ep s
  | .chend t fin ep => Sys2Proof.Machine.execChend t fin ep s
  | .chstat t v => Sys2Proof.Machine.execChstat t v s
  | .chgrow t k add => Sys2Proof.Machine.execChgrow t k add s
  | .chdef t k => Sys2Proof.Machine.execChdef t k s
  | .chfree t => Sys2Proof.Machine.execChfree t s
  | .matom m bsel op => Sys2Proof.Machine.execMatom m bsel op s
  | .mcas m bsel flag => Sys2Proof.Machine.execMcas m bsel flag s
  | .mtas m bsel clr => Sys2Proof.Machine.execMtas m bsel clr s
  | .mred t k o op => Sys2Proof.Machine.execMred t k o op s
  | .mcnt m bsel op => Sys2Proof.Machine.execMcnt m bsel op s
  | .framem t k norm => Sys2Proof.Machine.execFramem t k norm s
  | .launch t k o ofs => Sys2Proof.Machine.execLaunch t k o ofs s
  | .nodeq t iv => Sys2Proof.Machine.execNodeq t iv s
  | .yieldN t force => Sys2Proof.Machine.execYieldN t force s
  | .pwrq t iv => Sys2Proof.Machine.execPwrq t iv s
  | .trap t c => Sys2Proof.Machine.execTrap t c s
  | .rte t => Sys2Proof.Machine.execRte t s
  | .csrrd t n => Sys2Proof.Machine.execCsrrd t n s
  | .csrwr t n => Sys2Proof.Machine.execCsrwr t n s
  | .tlbi m bsel e => Sys2Proof.Machine.execTlbi m bsel e s
  | .wfe t m => Sys2Proof.Machine.execWfe t m s
  | .jmpb t k => Sys2Proof.Machine.execJmpb t k s
  | .callb t k => Sys2Proof.Machine.execCallb t k s
  | .retb t => Sys2Proof.Machine.execRetb t s
  | .tqpost t acq sc nw => Sys2Proof.Machine.execTqpost t acq sc nw s
  | .tqack t rel sc => Sys2Proof.Machine.execTqack t rel sc s
  | .sigchk t k acq sc key => Sys2Proof.Machine.execSigchk t k acq sc key s
  | .fwswap t => Sys2Proof.Machine.execFwswap t s
  | .mcread t => Sys2Proof.Machine.execMcread t s
  | .ecntr t clr => Sys2Proof.Machine.execEcntr t clr s
  | .einj t k off => Sys2Proof.Machine.execEinj t k off s
  | .binset t => Sys2Proof.Machine.execBinset t s
  | .retest t => Sys2Proof.Machine.execRetest t s
  | .bypass t => Sys2Proof.Machine.execBypass t s
  | .flddrain t => Sys2Proof.Machine.execFlddrain t s
  | .fldadmit t => Sys2Proof.Machine.execFldadmit t s
  | .lwRecWrite port off data => Sys2Proof.Machine.execLwRecWrite port off data s
  | .launchRecordCheck port => Sys2Proof.Machine.execLaunchRecordCheck port s
  | .tqBaseWrite v => Sys2Proof.Machine.execTqBaseWrite v s
  | .tqCfgWrite v => Sys2Proof.Machine.execTqCfgWrite v s
  | .tqHeadWrite v => Sys2Proof.Machine.execTqHeadWrite v s
  | .tqAckWrite stamp => Sys2Proof.Machine.execTqAckWrite stamp s
  | .tqFatalClear => Sys2Proof.Machine.execTqFatalClear s
  | .trapRecordPost => Sys2Proof.Machine.execTrapRecordPost s
  | .placementPass => Sys2Proof.Machine.execPlacementPass s
  | .blockLoad c => Sys2Proof.Machine.execBlockLoad c s
  | .blockEnd c => Sys2Proof.Machine.execBlockEnd c s
  | .phaseBoundary c => Sys2Proof.Machine.execPhaseBoundary c s
  | .commitBoundary c => Sys2Proof.Machine.execCommitBoundary c s
  | .nodeComplete id => Sys2Proof.Machine.execNodeComplete id s
  | .machineCheck k => Sys2Proof.Machine.execMachineCheck k s
  | .nodeRetireChecks id => Sys2Proof.Machine.execNodeRetireChecks id s
  | .marginalUnit u => Sys2Proof.Machine.execMarginalUnit u s
  | .preemption id => Sys2Proof.Machine.execPreemption id s
  | .restore id => Sys2Proof.Machine.execRestore id s
  | .ageTick => Sys2Proof.Machine.execAgeTick s
  | .deadlockDetect => Sys2Proof.Machine.execDeadlockDetect s
  | .channelRefill ch => Sys2Proof.Machine.execChannelRefill ch s
  | .chuBaseWrite v => Sys2Proof.Machine.execChuBaseWrite v s
  | .chuCfgWrite v => Sys2Proof.Machine.execChuCfgWrite v s
  | .chuDefine ch => Sys2Proof.Machine.execChuDefine ch s
  | .chuFree ch => Sys2Proof.Machine.execChuFree ch s
  | .chuSnapshot ch => Sys2Proof.Machine.execChuSnapshot ch s
  | .chuClose ch => Sys2Proof.Machine.execChuClose ch s
  | .xlRootWrite v => Sys2Proof.Machine.execXlRootWrite v s
  | .xlFtdescWrite v => Sys2Proof.Machine.execXlFtdescWrite v s
  | .xlUnmap npg => Sys2Proof.Machine.execXlUnmap npg s
  | .xlMigrate npg => Sys2Proof.Machine.execXlMigrate npg s
  | .xlInvalidate npg => Sys2Proof.Machine.execXlInvalidate npg s
  | .xlHostPin npg => Sys2Proof.Machine.execXlHostPin npg s
  | .xlHostUnpin npg => Sys2Proof.Machine.execXlHostUnpin npg s
  | .dspCfgWrite v => Sys2Proof.Machine.execDspCfgWrite v s
  | .pwrBudgetWrite r v => Sys2Proof.Machine.execPwrBudgetWrite r v s
  | .dspPreempt => Sys2Proof.Machine.execDspPreempt s
  | .dspHold => Sys2Proof.Machine.execDspHold s
  | .dspRelease => Sys2Proof.Machine.execDspRelease s
  | .dspReopen => Sys2Proof.Machine.execDspReopen s
  | .hlCfgWrite v => Sys2Proof.Machine.execHlCfgWrite v s
  | .hlCdataRead => Sys2Proof.Machine.execHlCdataRead s
  | .hlRetireFrame => Sys2Proof.Machine.execHlRetireFrame s
  | .hlRetirePch => Sys2Proof.Machine.execHlRetirePch s
  | .hlRetireStack => Sys2Proof.Machine.execHlRetireStack s
  | .hlMarkLayer => Sys2Proof.Machine.execHlMarkLayer s
  | .hlClearLayer => Sys2Proof.Machine.execHlClearLayer s
  | .layerAutoMark bank layer => Sys2Proof.Machine.execLayerAutoMark bank layer s
  | .ceThreshold frame => Sys2Proof.Machine.execCeThreshold frame s
  | .fieldDrained f => Sys2Proof.Machine.execFieldDrained f s
  | .retestDone f cells others => Sys2Proof.Machine.execRetestDone f cells others s
  | .binChangeDone f => Sys2Proof.Machine.execBinChangeDone f s
  | .bypassApply => Sys2Proof.Machine.execBypassApply s
  | .shuttleCommandStart ticket => Sys2Proof.Machine.execShuttleCommandStart ticket s
  | .shuttleTilePermit ticket => Sys2Proof.Machine.execShuttleTilePermit ticket s
  | .shuttleComplete ticket => Sys2Proof.Machine.execShuttleComplete ticket s
  | .sigchkComplete => Sys2Proof.Machine.execSigchkComplete s
  | .timerMatch c => Sys2Proof.Machine.execTimerMatch c s
  | .fwWatchdog c => Sys2Proof.Machine.execFwWatchdog c s
  | .sliceExpiry c => Sys2Proof.Machine.execSliceExpiry c s
  | .registerWrite port off wide v => Sys2Proof.Machine.execRegisterWrite port off wide v s
  | .hostWrite port off data => Sys2Proof.Machine.execHostWrite port off data s
  | .hostRead port off len => Sys2Proof.Machine.execHostRead port off len s
  | .descriptorViewWrite port off width v => Sys2Proof.Machine.execDescriptorViewWrite port off width v s
  | .hpDbellWrite port v => Sys2Proof.Machine.execHpDbellWrite port v s
  | .hostRequestTimeout port => Sys2Proof.Machine.execHostRequestTimeout port s
  | .peerDataFlit p f => Sys2Proof.Machine.execPeerDataFlit p f s
  | .peerHeaderFlit p h => Sys2Proof.Machine.execPeerHeaderFlit p h s
  | .peerAckFlit p ticket => Sys2Proof.Machine.execPeerAckFlit p ticket s
  | .peerCreditFlit p => Sys2Proof.Machine.execPeerCreditFlit p s
  | .relayAckTimeout ticket => Sys2Proof.Machine.execRelayAckTimeout ticket s
  | .peerPortDown p => Sys2Proof.Machine.execPeerPortDown p s
  | .prRetrain p => Sys2Proof.Machine.execPrRetrain p s
  | .mgAttest => Sys2Proof.Machine.execMgAttest s
  | .moduleReset hold => Sys2Proof.Machine.execModuleReset hold s
  | .bootImageVerify => Sys2Proof.Machine.execBootImageVerify s
  | .hbmTrain ok => Sys2Proof.Machine.execHbmTrain ok s
  | .sramTest ok marks => Sys2Proof.Machine.execSramTest ok marks s
  | .binLoadRetest ok => Sys2Proof.Machine.execBinLoadRetest ok s
  | .firmwareInstall => Sys2Proof.Machine.execFirmwareInstall s
  | .linkTrain ok => Sys2Proof.Machine.execLinkTrain ok s
  | .coldPlateLimit temp => Sys2Proof.Machine.execColdPlateLimit temp s
  | .hbmStackLost stack => Sys2Proof.Machine.execHbmStackLost stack s
  | .twoCopyDisagree block => Sys2Proof.Machine.execTwoCopyDisagree block s
  | .powerBucketTick b => Sys2Proof.Machine.execPowerBucketTick b s
  | .peerPortUp p => Sys2Proof.Machine.execPeerPortUp p s
  | .peerFlitCrcFail p => Sys2Proof.Machine.execPeerFlitCrcFail p s
  | .hostLinkChange port up rate width => Sys2Proof.Machine.execHostLinkChange port up rate width s
  | .memorySoftError e => Sys2Proof.Machine.execMemorySoftError e s

end Sys2Proof.Machine
end

