-- ==== Sys2Proof/Machine/Sweep.lean ====
section
/-! DEFINITION. What surrounds the meaning of one instruction in a step: whether a context is quiescent (R356, R395), what
a firing's energy adds to the power buckets (R392), and the boundary that falls due (R477). -/

namespace Sys2Proof.Machine

/-! ### Quiescence -/

/-- A unit's instruction would change something if it acted now. -/
def unitStirs (s : State) (c : CtxId) (i : Nat) : Bool :=
  match fetchInstr s c i with
  | none => false
  | some ins => match exec ins (focusOn s c i) with
    | .next t => t != focusOn s c i
    | _ => false

/-- No unit of a context's block can move. -/
def isStill (s : State) (c : CtxId) : Bool :=
  match getWin s c with
  | some w => (List.range w.units.length).all (fun i => !unitStirs s c i)
  | none => true

/-- Every placed node that is quiescent. -/
def stillNodes (s : State) : List CtxId :=
  ((s.dsp.nodes.filter (fun n => n.exec.isSome)).map (fun n => CtxId.node n.id)).filter (isStill s)

/-- What a pre-emption, a boundary and the deadlock detector are told of quiescence as they begin. -/
def told (s : State) (i : Instr) : State :=
  match i with
  | .preemption id => { s with run := { s.run with still := if isStill s (.node id) then [.node id] else [] } }
  | .phaseBoundary c => { s with run := { s.run with still := if isStill s c then [c] else [] } }
  | .deadlockDetect => { s with run := { s.run with still := stillNodes s } }
  | _ => s

/-! ### Energy (R392) -/

/-- Groups of 16 elements of a token that enters a lane pipeline. -/
def laneGroups (t : Token) : Nat :=
  if t.isMk then 0 else if t.vec then ((veElems none t).1.length + 15) / 16 else 1

/-- An array's energy for a row: its passes, and the groups of a drain row. -/
def rowEnergy (e : Env) (out : Bool) : Nat :=
  let a := getArr e.ctx (wbits ((e.win.code[e.i]?).getD 0) 1 0)
  12 * passCount (activeSet a) * a.w * a.h + (if out then 33 * a.w else 0)

/-- The drain rows of an ACCDR firing: the groups of each (R269). -/
def drainEnergy (e : Env) : Nat :=
  let x := (e.win.code[e.i]?).getD 0
  33 * (accRange (poolWord e.win (wbits x 14 7))).2 * (getArr e.ctx (wbits x 1 0)).w

/-- Accesses that a memory port issued with one step of a unit: a generator's iterations and companion words (R217), or the access of
a firing; FENCE and PHASE make none. -/
def portAccesses (e : Env) (u : ElemSt) : Nat :=
  let x := (e.win.code[e.i]?).getD 0
  if 0x50 ≤ wordOp x ∧ wordOp x ≤ 0x54 then
    (u.gen.issued - e.u.gen.issued).toNat
      + (if u.gen.lead && !e.u.gen.lead then superCount (streamDesc e.win (wbits x 14 7)) e.u.gen.pos else 0)
  else if wordOp x = 0x63 ∨ wordOp x = 0x64 ∨ (headOf e.u .a).isMk then 0
  else u.fired - e.u.fired

/-- pJ that the ingress ports admitted with one step of a unit: `e` before it, `u` the unit after it. -/
def unitEnergy (e : Env) (u : ElemSt) : Nat :=
  let x := (e.win.code[e.i]?).getD 0
  let fired := u.fired - e.u.fired
  if wordOp x = 0x84 ∨ wordOp x = 0x85 then (u.sea.rows - e.u.sea.rows) * rowEnergy e (wordOp x == 0x85)
  else if wordOp x = 0x88 then (if (headOf e.u .a).isMk then 0 else fired * drainEnergy e)
  else if wordOp x / 16 = 9 then fired * 33 * laneGroups (headOf e.u .a)
  else if isMemWord x then 8 * portAccesses e u
  else 0

/-- The energy of a unit's step put into its field's bucket. -/
def chargeUnit (s t : State) (c : CtxId) (i : Nat) : State :=
  match envAt s c i, envAt t c i with
  | some e, some e1 =>
    let pj := unitEnergy e e1.u
    if pj = 0 then t else addEnergy t (ctxField s c i) pj
  | _, _ => t

/-- Blocks that one move of a shuttle command moves: a block, a converted row, or a band of 16 rows. -/
def moveBlocks (x : Cmd) : Nat := if x.isPlanes then 16 * x.rb else if x.op = opXconv then x.rb else 1

/-- A shuttle's move charged to its field. -/
def chargeMove (s t : State) (ticket : Nat) : State :=
  match getCmd s ticket with
  | some x => if x.permit && decide (getCmd t ticket ≠ some x) then addEnergy t x.field (8 * moveBlocks x) else t
  | none => t

/-! ### After a step -/

/-- A COMMIT boundary that has fallen due is taken next. -/
def settleCommit (t : State) (c : CtxId) : State := if commitDue t c then nextJob t (.event (.commitBoundary c)) else t

/-- What follows the meaning of instruction `i` in the same step: `s` before it, `t` after it. -/
def settle (s : State) (i : Instr) (t : State) : State :=
  match s.run.focus with
  | some (c, k) => settleCommit (chargeUnit s t c k) c
  | none => match i with
    | .shuttleTilePermit ticket => chargeMove s t ticket
    | .phaseBoundary c => settleCommit t c
    | _ => t

/-- What a field does: a unit's step, or a shuttle's. -/
def ofField (s : State) (i : Instr) : Bool :=
  s.run.focus.isSome || (match i with
    | .shuttleTilePermit _ | .shuttleComplete _ => true
    | _ => false)

/-- A step by which a field would access HBM while the module's bucket is above its limit: it is held back (R392). -/
def hbmHeld (s : State) (i : Instr) (t : State) : Bool := moduleThrottled s && ofField s i && decide (s.pwr.moved < t.pwr.moved)

/-- An instruction's meaning with what surrounds it. -/
def perform (i : Instr) (s : State) : Host.Outcome State Fault Refusal :=
  match exec i (told s i) with
  | .next t => .next (if hbmHeld s i t then s else settle s i t)
  | .fault f => .fault f
  | .refused r => .refused r

end Sys2Proof.Machine
end

