-- ==== Sys2Proof/Machine/Schedule.lean ====
section
/-! DEFINITION. What an empty agenda takes up (R4, R26, R411): one choice, free among all that may act. -/

namespace Sys2Proof.Machine

/-- The windows of a core in the order in which a cycle takes them: H2, H1, F0, U (R411). -/
def coreWindows (s : State) (k : Fin 16) : List CtxId :=
  [CtxId.fw k 2, CtxId.fw k 1, CtxId.fw k 0] ++ (coreUser (getCore s k.val)).toList.map CtxId.node

/-- The units of a window that would act, in ascending index. -/
def readyUnits (s : State) (c : CtxId) : List Job :=
  if !mayFire s c then []
  else
    ((List.range (((getWin s c).map (·.units.length)).getD 0)).filter (fun i => !heldBack s c i && unitStirs s c i)).map (Job.fire c)

/-- One cycle of a core: at most 4 of its units (R411). -/
def coreCycle (s : State) (k : Fin 16) : List Job := ((coreWindows s k).flatMap (readyUnits s)).take 4

/-- What may be taken up: each job by itself, and each core's cycle. -/
def choices (s : State) : List (List Job) :=
  (ownJobs s).map (fun j => [j]) ++ (if s.mg.off then [] else ((List.finRange 16).map (coreCycle s)).filter (fun l => !l.isEmpty))

/-- A machine check of a context. -/
def checkIn (c : CtxId) (i : Instr) : Bool :=
  match i with
  | .machineCheck k => k.ctx == c
  | _ => false

/-- How many of the inputs behind one belong to its cycle: after a machine check, a free number of the same context's (R438,
assumption log 82). -/
def cycleMates (s : State) (e : Instr) (es : List Instr) : Nat :=
  match e with
  | .machineCheck k => min (Config.sameCycle s.run.sweep) (es.takeWhile (checkIn k.ctx)).length
  | _ => 0

/-- An empty agenda takes one choice, free among the next input and the device's own, behind what falls due. -/
def refill (s : State) : State :=
  let own := choices s
  let l := s.run.inputs.length
  let k := Config.schedule s.run.sweep % max 1 (own.length + min 1 l)
  let s1 := passTime (purgeCmds s)
  let due := if s1.run.time = s.run.time then [] else dueJobs s1
  match s.run.inputs with
  | e :: es =>
    if k = 0 then
      let m := cycleMates s e es
      { s1 with run := { s1.run with inputs := es.drop m, agenda := due ++ (e :: es.take m).map Job.event } }
    else { s1 with run := { s1.run with agenda := due ++ (own[k - 1]?).getD [] } }
  | [] => { s1 with run := { s1.run with agenda := due ++ (own[k]?).getD [] } }

/-- The instruction of the next job, and the state in which it runs. -/
def takeJob (s : State) : State × Option Instr :=
  takeHead (match s.run.agenda with
    | [] => refill s
    | _ => s)

end Sys2Proof.Machine
end

