-- ==== Sys2Proof/Machine/Step.lean ====
section
/-! DEFINITION. One step of the machine: one row of the opcode table, whole. -/

namespace Sys2Proof.Machine

/-- The next job's instruction, performed; with nothing to do, the state as it is. -/
def step (s : State) : Host.Outcome State Fault Refusal :=
  match takeJob s with
  | (s1, some i) => perform i s1
  | (s1, none) => .next s1

/-- An instruction word in a window of its own, about to be fetched (assumption log 12). -/
def State.withFetchWord (s : State) (_nbits w : Nat) : State := fetchAt s w

end Sys2Proof.Machine
end

