-- ==== Sys2Proof/Safety.lean ====
section
/-! DEFINITION. The words that claims use: a well-kept memory, when a unit's instruction fires, and what its firing is. -/

namespace Sys2Proof.Machine

/-- The byte memories are in canonical form. -/
def Mem.wf (m : Mem) : Bool := m.hbm.wf && m.host0.wf && m.host1.wf

/-- Lines that leave the home ways reach their backing store as they were: no error lies in a bank and no layer is marked, the
hosts answer, and the dirty lines are those of HBM and the hosts, in rising order (R173, R205, R362, R468). -/
structure PlainMemory (s : State) : Prop where
  sound : ∀ x ∈ s.mem.soft, isSram x = false
  unmarked : s.mem.marks = []
  host0 : s.hp0.failing = 0 ∧ s.hp0.linkUp = true
  host1 : s.hp1.failing = 0 ∧ s.hp1.linkUp = true
  home : ∀ p ∈ s.mem.dirty, keyTgt p.1 < 3
  rising : s.mem.dirty.Pairwise (fun a b => a.1 < b.1)
  kept : s.mem.wf = true

/-- A line of HBM that reads as it is stored: its stack works, and no error lies in it (R176, R205). -/
structure PlainLine (s : State) (k : Nat) : Prop extends PlainMemory s where
  hbm : keyTgt k = 0
  on : stackGone s (keyBlock k / 2 ^ 30) = false
  clean : ∀ x ∈ s.mem.soft, x.block ≠ k

/-- The bytes `i` to `i + n - 1` of line `k` become those of `v`, and nothing else in memory changes. -/
def OnlyBytes (s t : State) (k i n v : Nat) : Prop :=
  peekLine t k = mergeLine (peekLine s k) (byteMask i n) (putNat 0 i n v) none ∧ ∀ j, j ≠ k → peekLine t j = peekLine s j

/-- Every line of memory reads as before. -/
def SameMemory (s t : State) : Prop := ∀ j, peekLine t j = peekLine s j

/-! ### When the unit in focus fires -/

/-- The unit in focus is idle: it is not blocked, its window is not frozen, no token of it can move on and none is held back, no
firing is outstanding, and the heads of the slots `sl` hold sound tokens (R21, R23, R24, R25, R420). -/
structure Idle (s : State) (e : Env) (sl : List Slot) : Prop where
  focus : focusEnv s = some e
  live : e.u.blk = false
  awake : frozen s e.c = false
  sent : mustPump e.win e.i e.u = false
  done : e.u.pend = []
  full : ∀ x ∈ sl, slotQueue e.u x ≠ []
  sound : ∀ x ∈ sl, (headOf e.u x).sound = true ∧ (headOf e.u x).parityOk = true

/-- Data tokens on every slot of `sl`, an empty output stage for every target of `tg`, and no injection armed (R25, R28, R124,
R458). -/
structure MayFire (s : State) (e : Env) (sl : List Slot) (tg : List Target) : Prop extends Idle s e sl where
  data : ∀ x ∈ sl, (headOf e.u x).isMk = false
  room : roomFor e tg = true
  quiet : s.hl.inj = []

/-- Markers on every slot of `sl`, and an empty output stage for every target of `tg` (R25, R28, R124). -/
structure MayJoin (s : State) (e : Env) (sl : List Slot) (tg : List Target) : Prop extends Idle s e sl where
  some_slot : sl ≠ []
  marks : ∀ x ∈ sl, (headOf e.u x).isMk = true
  room : roomFor e tg = true

/-- No boundary is in progress (R227). -/
def OpenPhase (e : Env) : Prop := e.ctx.boundary = none

/-- The instruction `i` of the unit may issue: no boundary is in progress and the chain has reached it (R225, R227). -/
structure InTurn (e : Env) (i : Instr) : Prop where
  open_phase : e.ctx.boundary = none
  here : winInstr e.win e.i = some i
  ready : chainReady e.win i e.u.fired = true

/-! ### What a firing is -/

/-- Nothing holds the instruction back. -/
def free (_ : Env) : Prop := True

/-- No effect but the firing itself. -/
def noEffect (s : State) (_ : Env) (_ : Operands) : State := s

/-- An instruction with data on its slots `sl`, its predicate true, and `gate` met, fires: the effect `eff`, its operands
taken, its firing counted, and the tokens `out` sent (R25, R78). -/
def Fires (i : Instr) (gate : Env → Prop) (sl : List Slot) (tg : List Target) (p : Pred)
    (eff : State → Env → Operands → State) (out : Env → Operands → List (Target × Token)) : Prop :=
  ∀ s e, MayFire s e (sl ++ predSlots p) tg → gate e → predActive p (operands e.u) = true →
    exec i s = .next (finish (notePred (eff s e (operands e.u)) e p) e (sl ++ predSlots p) (out e (operands e.u)))

/-- The same with an emitted word, poisoned when a consumed token was (R131). -/
def GivesWord (i : Instr) (sl : List Slot) (h : DHead) (f : Word → Word → Word → Word) : Prop :=
  Fires i free sl (headTgts h) h.pred noEffect (fun _ o =>
    result (headTgts h) (f o.a.word o.b.word o.c.word) (sl.any (fun x => (operandAt o x).psn)))

/-- The instruction fires in `s`: once it may, and `gate` holds, its step ends in `s1` with its operands taken, its firing
counted, and the tokens `out` sent (R25). -/
def Completes (i : Instr) (gate : Env → Prop) (sl : List Slot) (tg : List Target) (s : State) (e : Env) (s1 : State)
    (out : List (Target × Token)) : Prop :=
  MayFire s e sl tg → gate e → exec i s = .next (finish s1 e sl out)

/-- A firing that needs nothing but its operands and room. -/
def Acts (i : Instr) (sl : List Slot) (t : Tgt) (s : State) (e : Env) (s1 : State) (out : List (Target × Token)) : Prop :=
  Completes i free sl (tgt1 t) s e s1 out

/-- A memory instruction's firing, in its turn in the chain (R225, R227). -/
def Access (i : Instr) (sl : List Slot) (t : Tgt) (s : State) (e : Env) (s1 : State) (out : List (Target × Token)) : Prop :=
  Completes i (fun e => InTurn e i) sl (tgt1 t) s e s1 out

/-- An engine command's firing, with no boundary in progress (R79, R227). -/
def Command (i : Instr) (sl : List Slot) (t : Tgt) (s : State) (e : Env) (s1 : State) (out : List (Target × Token)) : Prop :=
  Completes i OpenPhase sl (tgt1 t) s e s1 out

/-- The same, issued and held: the operands are taken, and `p` waits. -/
def Issues (i : Instr) (gate : Env → Prop) (sl : List Slot) (t : Tgt) (s : State) (e : Env) (s1 : State) (p : Pend) : Prop :=
  MayFire s e sl (tgt1 t) → gate e → exec i s = .next (finishHold s1 e sl p)

/-- The unit in focus holds back no token, `p` is its oldest firing outstanding, not completed yet, and no injection is armed. -/
structure Held (s : State) (e : Env) (p : Pend) : Prop where
  focus : focusEnv s = some e
  live : e.u.blk = false
  awake : frozen s e.c = false
  sent : mustPump e.win e.i e.u = false
  first : e.u.pend.head? = some p
  waiting : p.ready = none
  quiet : s.hl.inj = []

/-- The oldest firing outstanding completes: its step ends in `s1` with the tokens `out` sent. -/
def Resumes (i : Instr) (s : State) (e : Env) (p : Pend) (s1 : State) (out : List (Target × Token)) : Prop :=
  Held s e p → exec i s = .next (finishResume s1 e out)

/-- An operation that is logged is performed: nothing is left to replay, and the log has room (R34, R443). -/
structure Fresh (e : Env) : Prop where
  live : e.ctx.replay = []
  space : logFull e = false

/-- An operation entered in the log with the values it returned. -/
def entered (s : State) (c : CtxId) (k : LogEntry) (ret : List Dword) : State := logAppend s c { k with ret := ret }

/-- The generator in focus may go on: it is not blocked, its window is not frozen, it holds no token back, no boundary is in
progress, the node's sources are open, its rebase pairs are settled, and no injection is armed (R212, R213, R227, R420, R458). -/
structure MayStream (s : State) (e : Env) (d : StreamDesc) : Prop where
  focus : focusEnv s = some e
  live : e.u.blk = false
  awake : frozen s e.c = false
  sent : mustPump e.win e.i e.u = false
  quiet : s.hl.inj = []
  open_phase : e.ctx.boundary = none
  going : sourcesClosed s e.c = false
  settled : d.reb = false ∨ e.u.gen.emitted = true ∧ ∀ x ∈ e.u.qb.take 2, x.sound = true ∧ x.parityOk = true

/-- A run is in progress, its next iteration is not held up, and its target has room. -/
structure MayIterate (s : State) (e : Env) (d : StreamDesc) (t : Tgt) : Prop extends MayStream s e d where
  active : e.u.gen.active = true
  live_run : e.u.gen.dead = false
  answered : genWaits s e = false
  room : roomFor e (tgt1 t) = true

/-- No run is in progress, and the sound token `x` at the head of slot a has room for what it brings. -/
structure MayTake (s : State) (e : Env) (d : StreamDesc) (t : Tgt) (x : Token) : Prop extends MayStream s e d where
  rest : e.u.gen.active = false
  manual : d.auto = false
  head : e.u.qa.head? = some x
  sound : x.sound = true ∧ x.parityOk = true
  room : roomFor e (tgt1 t) = true

/-- One iteration of a generator that emits `x` (R212): the counters move on; its marker follows, or is held back when
the run ends and could join with the next one's. -/
def Iterates (i : Instr) (s : State) (e : Env) (d : StreamDesc) (t : Tgt) (s1 : State) (x : Token) : Prop :=
  let g := e.u.gen
  let kept := genLast d g && !d.auto
  exec i s = .next (genEmit s1 e d t
    { e.u with gen := { genStep d g with held := if kept then some (Fin.ofNat 8 (d.counts.length - 1)) else none } } [x]
    (if kept then none else genTop d g))

/-- A run starts with the data token `x` as its offset, behind a marker held back (R212). -/
def StartsRun (i : Instr) (s : State) (e : Env) (d : StreamDesc) (t : Tgt) (x : Token) : Prop :=
  let u := { popSlot e.u .a with fired := e.u.fired + 1 }
  let held := e.u.gen.held.map (·.val)
  let p := match held with
    | some r => pairAtMarker d r u
    | none => (u, 0)
  exec i s = .next (sendFrom
    (addCount (updUnit s e.c e.i (fun _ => { p.1 with gen := genStart { p.1.gen with held := none } x })) e.c cntPoison
      (p.2 + b2n x.psn)) e (seqAll (tgt1 t) (held.map markerTok).toList))

/-- A marker of rank `r` leaves lifted above the generator's own, and joined with one held back (R212). -/
def LiftsMarker (i : Instr) (s : State) (e : Env) (d : StreamDesc) (t : Tgt) (r : Nat) : Prop :=
  let g := { e.u.gen with held := none, emitted := true }
  exec i s = .next (genEmit s e d t (markSeen e.win t.isNone true r { popSlot e.u .a with fired := e.u.fired + 1, gen := g }) []
    (some (max (min (r + d.counts.length) 6) ((e.u.gen.held.map (·.val)).getD 0))))

/-- The sea unit in focus may act: it is not blocked, its window is not frozen, and it holds no token back. -/
structure MaySea (s : State) (e : Env) : Prop where
  focus : focusEnv s = some e
  live : e.u.blk = false
  awake : frozen s e.c = false
  sent : mustPump e.win e.i e.u = false

/-- A sound token `x` stands at the head of slot a. -/
structure AtHead (e : Env) (x : Token) : Prop where
  head : e.u.qa.head? = some x
  sound : x.sound = true ∧ x.parityOk = true

/-- A privileged opcode: FRAMEM, group 0xE but JMPB, CALLB and RETB, and group 0xF (R84). -/
def PrivilegedOp (op : Nat) : Prop := op = 0xC5 ∨ 0xE0 ≤ op ∧ op ≤ 0xFF ∧ op ≠ 0xE6 ∧ op ≠ 0xE7 ∧ op ≠ 0xE8

/-- The tokens of a list that go to one target, in order. -/
def tokensTo (tg : Target) (l : List (Target × Token)) : List Token := (l.filter (fun p => p.1 == tg)).map (·.2)

/-- The tokens for a target that the unit still holds: in its output stage, then behind it (R124). -/
def onTheWay (u : ElemSt) (tg : Target) : List Token := tokensTo tg (u.stage ++ u.out)

/-- An instruction of one target with slot a, and an emitted word (R131). -/
def GivesImm (i : Instr) (t : Tgt) (f : Word → Word) : Prop :=
  Fires i free [.a] (tgt1 t) .always noEffect (fun _ o => result (tgt1 t) (f o.a.word) o.a.psn)

/-- A firing on joined markers of the slots `sl`, `gate` met: the highest rank, a mismatch counted, the effect `eff`, and
the tokens `out` sent; `mem` for a memory instruction, which counts the markers of rank COMMIT and above (R28, R477). -/
def Joins (i : Instr) (gate : Env → Prop) (sl : List Slot) (tg : List Target) (mem : Bool) (eff : State → Env → Nat → State)
    (out : Env → Nat → List (Target × Token)) : Prop :=
  ∀ s e, MayJoin s e sl tg → gate e →
    let r := joinRank e.u sl
    let s1 := if r.2 then eff s e r.1 else countMismatch (eff s e r.1) e.c
    exec i s = .next (finish (updUnit s1 e.c e.i (markSeen e.win tg.isEmpty mem r.1)) e sl (out e r.1))

/-- No effect but the join itself, and the joined marker sent to every target. -/
def PassesMarkers (i : Instr) (gate : Env → Prop) (sl : List Slot) (tg : List Target) (mem : Bool) : Prop :=
  Joins i gate sl tg mem (fun s _ _ => s) (fun _ r => toAll tg (markerTok r))

/-- The operand slots, the targets and the predicate of an instruction of groups 0x1 to 0x4 (R148 to R167). -/
def scalarForm (i : Instr) : Option (List Slot × List Target × Pred) :=
  let one (h : DHead) : Option (List Slot × List Target × Pred) := some ([.a], headTgts h, h.pred)
  let two (h : DHead) : Option (List Slot × List Target × Pred) := some ([.a, .b], headTgts h, h.pred)
  let three (h : DHead) : Option (List Slot × List Target × Pred) := some ([.a, .b, .c], headTgts h, h.pred)
  let imm (t : Tgt) : Option (List Slot × List Target × Pred) := some ([.a], tgt1 t, .always)
  match i with
  | .abs h .. | .neg h .. | .clz h _ | .popc h _ | .fneg h | .fsqrt h _ | .frsqe h | .frcpe h | .fclass h | .fexp2e h | .flog2e h
  | .cvtif h .. | .cvtfi h .. | .cvthf h .. | .cvt8f h .. | .unpk h .. | .scb h _ | .scd h => one h
  | .add h .. | .sub h .. | .mul h .. | .mulh h .. | .div h .. | .rem h _ | .min h .. | .max h .. | .and h | .or h | .xor h
  | .andn h | .shl h .. | .shr h .. | .rot h _ | .bfx h _ | .cmp h .. | .tstb h | .fadd h _ | .fsub h _ | .fmul h _ | .fmin h
  | .fmax h | .fcmp h _ | .fdiv h _ | .fscl h _ | .cvtfh h .. | .cvtf8 h .. | .pack h .. | .q4d h _ | .desc h => two h
  | .mad h .. | .clamp h .. | .addc h _ | .dot4 h .. | .bfi h | .sel h | .ffma h _ | .q4e h _ => three h
  | .addi t _ | .muli t _ | .cmpi t .. | .logi t .. | .ldi t _ | .ldhi t _ => imm t
  | _ => none

/-! ### What an instruction leaves as it was -/

/-- The row of the opcode map that an instruction stands in (R83); an event stands in none. -/
def groupOf (i : Instr) : Option Nat :=
  match i with
  | .mov .. | .fank .. | .steer .. | .merge .. | .gate .. | .mark .. | .rankq .. | .strip .. | .count .. | .getw ..
  | .putw .. | .const .. | .nextb .. | .halt .. | .drop .. => some 0
  | .add .. | .sub .. | .addi .. | .mul .. | .mulh .. | .mad .. | .div .. | .rem .. | .min .. | .max .. | .abs ..
  | .neg .. | .clamp .. | .addc .. | .muli .. | .dot4 .. => some 1
  | .and .. | .or .. | .xor .. | .andn .. | .shl .. | .shr .. | .rot .. | .clz .. | .popc .. | .bfx .. | .bfi ..
  | .cmp .. | .cmpi .. | .sel .. | .logi .. | .tstb .. => some 2
  | .fadd .. | .fsub .. | .fmul .. | .ffma .. | .fmin .. | .fmax .. | .fneg .. | .fcmp .. | .fdiv .. | .fsqrt ..
  | .frsqe .. | .frcpe .. | .fclass .. | .fexp2e .. | .flog2e .. | .fscl .. => some 3
  | .cvtif .. | .cvtfi .. | .cvtfh .. | .cvthf .. | .cvtf8 .. | .cvt8f .. | .ldi .. | .ldhi .. | .pack .. | .unpk ..
  | .q4e .. | .q4d .. | .scb .. | .scd .. | .desc .. => some 4
  | .lds .. | .sts .. | .ldb .. | .stb .. | .agen .. | .agcfg .. | .ld .. | .st .. | .ldx .. | .pref .. => some 5
  | .atom .. | .cas .. | .tas .. | .fence .. | .phase .. | .bar .. | .arrv .. | .bwait .. | .waitge .. | .cntadd ..
  | .osend .. | .orecv .. => some 6
  | .split .. | .bobdef .. | .bwf .. | .bwe .. | .badv .. | .tstat .. | .tset .. | .cflush .. | .cwb .. | .cinv ..
  | .pin .. | .unpin .. | .mapw .. | .unmapw .. => some 7
  | .fuse .. | .unfuse .. | .wload .. | .wswap .. | .mma .. | .mmao .. | .accz .. | .accrd .. | .accdr .. | .accsv ..
  | .accrs .. | .edly .. | .skewc .. | .seaq .. => some 8
  | .vadd .. | .vsub .. | .vmul .. | .vfma .. | .vmin .. | .vmax .. | .vcmp .. | .vsel .. | .vcvt .. | .vred ..
  | .vexp2 .. | .vrsq .. | .vrcp .. | .vperm .. | .vbcst .. | .vqnt .. => some 9
  | .copy .. | .gath .. | .scat .. | .mcast .. | .xconv .. | .relay .. | .free .. | .xstat .. => some 10
  | .chopen .. | .push .. | .pop .. | .pushb .. | .popb .. | .peek .. | .chend .. | .chstat .. | .chgrow ..
  | .chdef .. | .chfree .. => some 11
  | .matom .. | .mcas .. | .mtas .. | .mred .. | .mcnt .. | .framem .. => some 12
  | .launch .. | .nodeq .. | .yieldN .. | .pwrq .. => some 13
  | .trap .. | .rte .. | .csrrd .. | .csrwr .. | .tlbi .. | .wfe .. | .jmpb .. | .callb .. | .retb .. | .tqpost ..
  | .tqack .. | .sigchk .. | .fwswap .. => some 14
  | .mcread .. | .ecntr .. | .einj .. | .binset .. | .retest .. | .bypass .. | .flddrain .. | .fldadmit .. => some 15
  | .lwRecWrite .. | .launchRecordCheck .. | .tqBaseWrite .. | .tqCfgWrite .. | .tqHeadWrite .. | .tqAckWrite ..
  | .tqFatalClear .. | .trapRecordPost .. | .placementPass .. | .blockLoad .. | .blockEnd .. | .phaseBoundary ..
  | .commitBoundary .. | .nodeComplete .. | .machineCheck .. | .nodeRetireChecks .. | .marginalUnit ..
  | .preemption .. | .restore .. | .ageTick .. | .deadlockDetect .. | .channelRefill .. | .chuBaseWrite ..
  | .chuCfgWrite .. | .chuDefine .. | .chuFree .. | .chuSnapshot .. | .chuClose .. | .xlRootWrite ..
  | .xlFtdescWrite .. | .xlUnmap .. | .xlMigrate .. | .xlInvalidate .. | .xlHostPin .. | .xlHostUnpin ..
  | .dspCfgWrite .. | .pwrBudgetWrite .. | .dspPreempt .. | .dspHold .. | .dspRelease .. | .dspReopen ..
  | .hlCfgWrite .. | .hlCdataRead .. | .hlRetireFrame .. | .hlRetirePch .. | .hlRetireStack .. | .hlMarkLayer ..
  | .hlClearLayer .. | .layerAutoMark .. | .ceThreshold .. | .fieldDrained .. | .retestDone .. | .binChangeDone ..
  | .bypassApply .. | .shuttleCommandStart .. | .shuttleTilePermit .. | .shuttleComplete .. | .sigchkComplete ..
  | .timerMatch .. | .fwWatchdog .. | .sliceExpiry .. | .registerWrite .. | .hostWrite .. | .hostRead ..
  | .descriptorViewWrite .. | .hpDbellWrite .. | .hostRequestTimeout .. | .peerDataFlit .. | .peerHeaderFlit ..
  | .peerAckFlit .. | .peerCreditFlit .. | .relayAckTimeout .. | .peerPortDown .. | .prRetrain .. | .mgAttest ..
  | .moduleReset .. | .bootImageVerify .. | .hbmTrain .. | .sramTest .. | .binLoadRetest .. | .firmwareInstall ..
  | .linkTrain .. | .coldPlateLimit .. | .hbmStackLost .. | .twoCopyDisagree .. | .powerBucketTick .. | .peerPortUp ..
  | .peerFlitCrcFail .. | .hostLinkChange .. | .memorySoftError .. => none

/-- What a scalar firing of context `c` may change, put aside: the units of the context's window, the draft position,
the values recorded for carry words, the node's counts, the agenda and the armed injections. -/
def asideScalar (c : CtxId) (s : State) : State :=
  let s1 := updDraft (updWin s c (fun w => { w with units := [] })) c (fun _ => DraftSt.init 0)
  let s2 := updCtx s1 c (fun x => { x with counts := [], mem := { x.mem with puts := [] } })
  { s2 with run := { s2.run with agenda := [] }, hl := { s2.hl with inj := [], injFired := false } }

end Sys2Proof.Machine
end

