-- ==== Sys2Proof/Laws/Firing.lean ====
section
/-! SUPPORT. What the step of a unit does, said once: a firing on data, a joined marker, and an operation held. -/

namespace Sys2Proof.Machine

theorem slotsFull_of_ne {u : ElemSt} {sl : List Slot} (h : ∀ x ∈ sl, slotQueue u x ≠ []) : slotsFull u sl = true := by
  simp only [slotsFull, List.all_eq_true]
  intro x hx
  simpa using h x hx

theorem headCheck_none {s : State} {e : Env} {sl : List Slot}
    (h : ∀ x ∈ sl, (headOf e.u x).sound = true ∧ (headOf e.u x).parityOk = true) : headCheck s e sl = none := by
  simp only [headCheck, List.findSome?_eq_none_iff]
  intro x hx
  simp [tokenCheck, h x hx]

theorem any_isMk_false {u : ElemSt} {sl sl' : List Slot} (h : ∀ x ∈ sl, (headOf u x).isMk = false) (hs : sl' ⊆ sl) :
    sl'.any (fun x => (headOf u x).isMk) = false := by
  simp only [List.any_eq_false]
  intro x hx
  simp [h x (hs hx)]

/-- A unit that may fire on the data slots of `f` does. -/
theorem fireStep_data {s : State} {e : Env} {f : Firing} (h : MayFire s e f.dataSlots f.tgts)
    (hj : f.joinSlots ⊆ f.dataSlots) (hm : mayIssue s e f = true) : fireStep s e f = fireData s e f := by
  have ha := any_isMk_false h.data hj
  simp [fireStep, h.live, h.awake, h.sent, h.done, fireNew, ha, slotsFull_of_ne h.full, headCheck_none h.sound, hm, h.room]

theorem mayIssue_plain {s : State} {e : Env} {f : Firing} (hf : f.shut s = false) (hm : f.mem = false) (hc : f.cmd = false) :
    mayIssue s e f = true := by
  simp [mayIssue, hf, hm, hc]

theorem mayIssue_cmd {s : State} {e : Env} {f : Firing} (hf : f.shut s = false) (hm : f.mem = false) (h : e.ctx.boundary = none) :
    mayIssue s e f = true := by
  simp [mayIssue, hf, hm, issueBlocked, h]

theorem mayIssue_turn {s : State} {e : Env} {f : Firing} {i : Instr} (hf : f.shut s = false) (h : InTurn e i) :
    mayIssue s e f = true := by
  simp [mayIssue, hf, issueBlocked, h.open_phase, h.here, h.ready]

/-- A firing whose predicate is false only takes its operands. -/
theorem fireData_off {s : State} {e : Env} {f : Firing} (h : predActive f.pred (operands e.u) = false) :
    fireData s e f = finish (notePred s e f.pred) e f.dataSlots [] := by
  simp [fireData, h]

/-- A firing that emits, with no injection armed and no earlier one outstanding. -/
theorem fireData_emit {s s1 : State} {e : Env} {f : Firing} {out : List (Target × Token)}
    (h : predActive f.pred (operands e.u) = true) (hq : s.hl.inj = []) (hd : e.u.pend = [])
    (hb : f.body s e (operands e.u) = .emit s1 out) :
    fireData s e f = finish (notePred s1 e f.pred) e f.dataSlots out := by
  simp [fireData, h, hb, hd, emitFiring, injectOr, hq]

/-- A firing that is held. -/
theorem fireData_hold {s s1 : State} {e : Env} {f : Firing} {p : Pend}
    (h : predActive f.pred (operands e.u) = true)
    (hb : f.body s e (operands e.u) = .hold s1 p) :
    fireData s e f = finishHold (notePred s1 e f.pred) e f.dataSlots p := by
  simp [fireData, h, hb]

/-- The step of a word that emits. -/
theorem runUnit_emit {s s1 : State} {e : Env} {g : Env → Firing} {out : List (Target × Token)}
    (h : MayFire s e (g e).dataSlots (g e).tgts) (hj : (g e).joinSlots ⊆ (g e).dataSlots) (hm : mayIssue s e (g e) = true)
    (hp : predActive (g e).pred (operands e.u) = true)
    (hb : (g e).body s e (operands e.u) = .emit s1 out) :
    runUnit s g = .next (finish (notePred s1 e (g e).pred) e (g e).dataSlots out) := by
  simp only [runUnit, h.focus]
  rw [fireStep_data h hj hm, fireData_emit hp h.quiet h.done hb]

/-- The step of a word that is held. -/
theorem runUnit_hold {s s1 : State} {e : Env} {g : Env → Firing} {p : Pend}
    (h : MayFire s e (g e).dataSlots (g e).tgts) (hj : (g e).joinSlots ⊆ (g e).dataSlots) (hm : mayIssue s e (g e) = true)
    (hp : predActive (g e).pred (operands e.u) = true)
    (hb : (g e).body s e (operands e.u) = .hold s1 p) :
    runUnit s g = .next (finishHold (notePred s1 e (g e).pred) e (g e).dataSlots p) := by
  simp only [runUnit, h.focus]
  rw [fireStep_data h hj hm, fireData_hold hp hb]

/-- The step of a word whose predicate is false. -/
theorem runUnit_off {s : State} {e : Env} {g : Env → Firing}
    (h : MayFire s e (g e).dataSlots (g e).tgts) (hj : (g e).joinSlots ⊆ (g e).dataSlots) (hm : mayIssue s e (g e) = true)
    (hp : predActive (g e).pred (operands e.u) = false) :
    runUnit s g = .next (finish (notePred s e (g e).pred) e (g e).dataSlots []) := by
  simp only [runUnit, h.focus]
  rw [fireStep_data h hj hm, fireData_off hp]

/-- The join of markers of one rank on every slot of the join. -/
theorem fireStep_mark {s : State} {e : Env} {f : Firing} (h : MayJoin s e f.joinSlots (f.tgts ++ f.markTgts))
    (hm : mayIssue s e f = true) : fireStep s e f = fireMark s e f := by
  have hany : f.joinSlots.any (fun x => (headOf e.u x).isMk) = true := by
    obtain ⟨x, l, hx⟩ := List.exists_cons_of_ne_nil h.some_slot
    have : x ∈ f.joinSlots := by simp [hx]
    simp only [List.any_eq_true]
    exact ⟨x, this, h.marks x this⟩
  have hall : f.joinSlots.all (fun x => (headOf e.u x).isMk) = true := by
    simp only [List.all_eq_true]
    exact h.marks
  simp [fireStep, h.live, h.awake, h.sent, h.done, fireNew, hany, hall, slotsFull_of_ne h.full, headCheck_none h.sound, hm, h.room]

theorem runUnit_mark {s s1 : State} {e : Env} {g : Env → Firing} {out : List (Target × Token)}
    (h : MayJoin s e (g e).joinSlots ((g e).tgts ++ (g e).markTgts)) (hm : mayIssue s e (g e) = true)
    (hb : (g e).onMark s e (joinRank e.u (g e).joinSlots).1 = .emit s1 out) :
    runUnit s g = .next (finish (updUnit (addCount s1 e.c cntMismatch (if (joinRank e.u (g e).joinSlots).2 then 0 else 1)) e.c e.i
      (noteMark e (g e) (joinRank e.u (g e).joinSlots).1)) e (g e).joinSlots out) := by
  simp only [runUnit, h.focus]
  rw [fireStep_mark h hm]
  simp [fireMark, hb]

/-- An instruction shown to fire. -/
theorem fires_of {i : Instr} {g : Env → Firing} {gate : Env → Prop} {sl : List Slot} {tg : List Target} {p : Pred}
    {eff : State → Env → Operands → State} {out : Env → Operands → List (Target × Token)}
    (hx : ∀ s, exec i s = runUnit s g) (hi : ∀ s e, gate e → mayIssue s e (g e) = true)
    (hs : ∀ e, (g e).slots = sl) (hj : ∀ e, (g e).joins ⊆ sl) (ht : ∀ e, (g e).tgts = tg)
    (hp : ∀ e, (g e).pred = p)
    (hb : ∀ s e, (g e).body s e (operands e.u) = .emit (eff s e (operands e.u)) (out e (operands e.u))) :
    Fires i gate sl tg p eff out := by
  intro s e h hg ha
  have hd : (g e).dataSlots = sl ++ predSlots p := by simp [Firing.dataSlots, hs, hp]
  have hjj : (g e).joinSlots ⊆ sl ++ predSlots p := by
    simp only [Firing.joinSlots, hp]
    intro x hx
    rcases List.mem_append.1 hx with h1 | h1
    · exact List.mem_append_left _ (hj e h1)
    · exact List.mem_append_right _ h1
  have := runUnit_emit (s := s) (g := g) (e := e) (out := out e (operands e.u)) (s1 := eff s e (operands e.u))
    (by rw [hd, ht]; exact h) (by rw [hd]; exact hjj) (hi s e hg) (by rw [hp]; exact ha)
    (hb _ _)
  rw [hx, this, hd, hp]

/-- An instruction shown to act on joined markers. -/
theorem joins_of {i : Instr} {g : Env → Firing} {gate : Env → Prop} {sl : List Slot} {tg : List Target} {mem : Bool}
    {eff : State → Env → Nat → State} {out : Env → Nat → List (Target × Token)}
    (hx : ∀ s, exec i s = runUnit s g) (hi : ∀ s e, gate e → mayIssue s e (g e) = true)
    (hj : ∀ e, (g e).joinSlots = sl) (ht : ∀ e, (g e).tgts ++ (g e).markTgts = tg)
    (hm : ∀ e, (g e).mem = mem) (hn : mem = true → ∀ e, (g e).joins ≠ [])
    (hb : ∀ s e r, (g e).onMark s e r = .emit (eff s e r) (out e r)) : Joins i gate sl tg mem eff out := by
  intro s e h hg
  have key := runUnit_mark (s := s) (g := g) (e := e) (by rw [hj, ht]; exact h) (hi s e hg) (hb _ _ _)
  rw [hx, key, hj]
  have ht' : ((g e).tgts.isEmpty && (g e).markTgts.isEmpty) = tg.isEmpty := by
    rw [← ht e]; cases (g e).tgts <;> simp
  have hmem : ((g e).mem && !(g e).joins.isEmpty) = mem := by
    cases mem with
    | false => simp [hm]
    | true => simp [hm, hn rfl e]
  have hnote : noteMark e (g e) (joinRank e.u sl).1 = markSeen e.win tg.isEmpty mem (joinRank e.u sl).1 := by
    funext u
    simp only [noteMark, ht', hmem]
  rw [hnote]
  cases hr : (joinRank e.u sl).2 <;> simp [countMismatch, addCount, hr]

/-- A firing that emits, from what its meaning says of it. -/
theorem completes_of {i : Instr} {g : Env → Firing} {gate : Env → Prop} {sl : List Slot} {tg : List Target} {s s1 : State}
    {e : Env} {out : List (Target × Token)} (hx : exec i s = runUnit s g) (hi : gate e → mayIssue s e (g e) = true)
    (hs : (g e).slots = sl) (hj : (g e).joins ⊆ sl) (ht : (g e).tgts = tg) (hp : (g e).pred = .always)
    (hb : (g e).body s e (operands e.u) = .emit s1 out) : Completes i gate sl tg s e s1 out := by
  intro h hg
  have hd : (g e).dataSlots = sl := by simp [Firing.dataSlots, hs, hp, predSlots]
  have hn : notePred s1 e (g e).pred = s1 := by simp [notePred, hp, addCount]
  have := runUnit_emit (s := s) (g := g) (e := e) (out := out) (s1 := s1) (by rw [hd, ht]; exact h)
    (by rw [hd]; simpa [Firing.joinSlots, hp, predSlots] using hj) (hi hg) (by rw [hp]; rfl) hb
  rw [hx, this, hd, hn]

/-- A firing that is held, from what its meaning says of it. -/
theorem issues_of {i : Instr} {g : Env → Firing} {gate : Env → Prop} {sl : List Slot} {t : Tgt} {s s1 : State}
    {e : Env} {p : Pend} (hx : exec i s = runUnit s g) (hi : gate e → mayIssue s e (g e) = true)
    (hs : (g e).slots = sl) (hj : (g e).joins ⊆ sl) (ht : (g e).tgts = tgt1 t) (hp : (g e).pred = .always)
    (hb : (g e).body s e (operands e.u) = .hold s1 p) : Issues i gate sl t s e s1 p := by
  intro h hg
  have hd : (g e).dataSlots = sl := by simp [Firing.dataSlots, hs, hp, predSlots]
  have hn : notePred s1 e (g e).pred = s1 := by simp [notePred, hp, addCount]
  have := runUnit_hold (s := s) (g := g) (e := e) (p := p) (s1 := s1) (by rw [hd, ht]; exact h)
    (by rw [hd]; simpa [Firing.joinSlots, hp, predSlots] using hj) (hi hg) (by rw [hp]; rfl) hb
  rw [hx, this, hd, hn]

/-- A firing outstanding that completes. -/
theorem resumes_of {i : Instr} {g : Env → Firing} {s s1 : State} {e : Env} {p : Pend} {out : List (Target × Token)}
    (hx : exec i s = runUnit s g) (hb : (g e).resume s e p = .emit s1 out) : Resumes i s e p s1 out := by
  intro h
  obtain ⟨ps, hps⟩ : ∃ ps, e.u.pend = p :: ps := List.head?_eq_some_iff.1 h.first
  rw [hx]
  simp [runUnit, h.focus, fireStep, h.live, h.awake, h.sent, hps, resumeHeld, h.waiting, hb, injectOr, h.quiet]

theorem focus_ctx {s : State} {e : Env} (he : focusEnv s = some e) : getCtx s e.c = some e.ctx ∧ getWin s e.c = some e.win := by
  unfold focusEnv at he
  split at he
  · unfold envAt at he
    split at he
    · rename_i h1 h2
      simp only [Option.map_eq_some_iff] at he
      obtain ⟨u, -, rfl⟩ := he
      exact ⟨h1, h2⟩
    · simp at he
  · simp at he

/-- With nothing to replay an operation that is logged is performed. -/
theorem logged_fresh {s : State} {e : Env} {k : LogEntry} {ans : State → List Dword → Act}
    {live : State → (State → List Dword → State) → Act} (he : focusEnv s = some e) (hf : Fresh e) :
    logged s e k ans live = live s (fun s2 ret => entered s2 e.c k ret) := by
  have hc := (focus_ctx he).1
  have hr : replayNext s e.c k = .live s := by
    simp [replayNext, hc, hf.live]
  simp [logged, hr, hf.space, entered]

theorem issue_free {s : State} {e : Env} {f : Firing} (hf : f.shut s = false) (hm : f.mem = false) (hc : f.cmd = false) (_ : free e) :
    mayIssue s e f = true := mayIssue_plain hf hm hc

end Sys2Proof.Machine
end

