-- ==== Sys2Proof/Certificates/Slice0/Obligations.lean ====
section
/-! DEFINITION. The statements about the model that are to be proved. -/

open Sys2Proof Sys2Proof.Machine

/-! ### Groups 0x0 to 0x4: the scalar elements -/

/-- R136 to R144, R146: the flow instructions complete, each with the tokens and the record that its rule gives: those that take
what stands on their slots, then those that decide, place or count. -/
def Obligations.FlowCompletes : Prop :=
  ((∀ h, Fires (.mov h) free [.a] (headTgts h) h.pred noEffect (fun _ o => toAll (headTgts h) o.a)) ∧
  (∀ t k c s e, MayFire s e [.a] (fankTargets e.win t k c) →
    exec (.fank t k c) s = .next (finish s e [.a] (toAll (fankTargets e.win t k c) (operands e.u).a))) ∧
  (∀ t0 t1, Fires (.steer t0 t1) free [.a, .p] (tgt1 t0 ++ tgt1 t1) .always (fun s e o => countPoison s e.c o.p)
    (fun _ o => toAll (if o.p.isTrue then tgt1 t0 else tgt1 t1) o.a)) ∧
  (∀ h, Fires (.gate h) free [.a, .b] (headTgts h) h.pred noEffect (fun _ o => toAll (headTgts h) o.a)) ∧
  (∀ t w, Fires (.getw t w) free [.a] (tgt1 t) .always noEffect
    (fun e _ => let v := mapGet Carry.zero e.ctx.mem.carryAtStart w.val; result (tgt1 t) v.val v.psn)) ∧
  (∀ t w, Fires (.putw t w) free [.a] (tgt1 t) .always
    (fun s e o => updCtx (countPoison s e.c o.a) e.c (fun x =>
      { x with mem := { x.mem with puts := mapPut x.mem.puts w.val
                                            (if o.a.psn then { val := 0, psn := true } else { val := o.a.word, psn := false }) } }))
    (fun _ o => toAll (tgt1 t) o.a)) ∧
  (∀ t k n, Fires (.const t k n) free [.a] (tgt1 t) .always
    (fun s e _ => updUnit s e.c e.i (fun u => { u with cidx := Fin.ofNat 16 ((u.cidx.val + 1) % (n.val + 1)) }))
    (fun e _ => result (tgt1 t) (poolWord e.win (k.val + e.u.cidx.val)) false)) ∧
  (∀ p, Fires (.drop p) free [.a] [] p noEffect (fun _ _ => []))) ∧
  ((∀ t0 t1 s e, let sl := if (operands e.u).p.isTrue then Slot.a else Slot.b
    MayFire s e [.p, sl] (tgt1 t0 ++ tgt1 t1) →
      exec (.merge t0 t1) s = .next (finish (countPoison s e.c (operands e.u).p) e [.p, sl]
        (toAll (tgt1 t0 ++ tgt1 t1) (operandAt (operands e.u) sl)))) ∧
  (∀ t c k, Fires (.mark t c k) free [.a] (tgt1 t) .always
    (fun s e _ => updUnit s e.c e.i (fun u =>
      if (e.u.mcnt.toNat + 1) % 4096 = c.val then { u with mcnt := 0, mpend := true }
      else { u with mcnt := BitVec.ofNat 12 ((e.u.mcnt.toNat + 1) % 4096), mpend := false }))
    (fun e o => (if e.u.mpend then toAll (tgt1 t) (markerTok k.val) else []) ++ toAll (tgt1 t) o.a)) ∧
  (∀ t k, Fires (.rankq t k) free [.a] (tgt1 t) .always noEffect (fun _ o => result (tgt1 t) 0 o.a.psn)) ∧
  (∀ t k, Fires (.strip t k) free [.a] (tgt1 t) .always noEffect (fun _ o => toAll (tgt1 t) o.a)) ∧
  (∀ t k, Fires (.count t k) free [.a] (tgt1 t) .always
    (fun s e _ => updUnit s e.c e.i (fun u => { u with ccnt := u.ccnt + 1 })) (fun _ _ => [])) ∧
  (∀ t b, Fires (.nextb t b) free [.a] (tgt1 t) .always
    (fun s e o => if o.a.isTrue then updDraft (countPoison s e.c o.a) e.c (fun d => recordNext d e.i b.val)
      else countPoison s e.c o.a) (fun _ o => toAll (tgt1 t) o.a)) ∧
  (∀ t, Fires (.halt t) free [.a] (tgt1 t) .always
    (fun s e o => if o.a.isTrue then updDraft (countPoison s e.c o.a) e.c (fun d => { d with halt := true })
      else countPoison s e.c o.a) (fun _ o => toAll (tgt1 t) o.a)))

/-- R27, R28, R136 to R144, R146: what joined markers do at each instruction of group 0x0. At MERGE a marker on p waits for markers on
a and b; a marker on the slot that a data token of p selects is consumed alone and counted as a mismatch. -/
def Obligations.FlowMarkers : Prop :=
  (∀ h, PassesMarkers (.mov h) free (.a :: predSlots h.pred) (headTgts h) false) ∧
  (∀ t0 t1, PassesMarkers (.steer t0 t1) free [.a, .p] (tgt1 t0 ++ tgt1 t1) false) ∧
  (∀ h, PassesMarkers (.gate h) free (.a :: .b :: predSlots h.pred) (headTgts h) false) ∧
  (∀ p, PassesMarkers (.drop p) free (.a :: predSlots p) [] false) ∧
  (∀ t k c s e, let tg := fankTargets e.win t k c
    MayJoin s e [.a] tg →
      let r := (joinRank e.u [.a]).1
      exec (.fank t k c) s = .next (finish (updUnit s e.c e.i (markSeen e.win tg.isEmpty false r)) e [.a] (toAll tg (markerTok r)))) ∧
  (∀ t0 t1, let tg := tgt1 t0 ++ tgt1 t1
    PassesMarkers (.merge t0 t1) free [.p, .a, .b] tg false ∧
    ∀ s e, let sl := if (operands e.u).p.isTrue then Slot.a else Slot.b
      MayJoin s e [sl] tg → e.u.qp ≠ [] → (headOf e.u .p).isMk = false →
        exec (.merge t0 t1) s = .next (finish (updUnit (countMismatch s e.c) e.c e.i
          (markSeen e.win tg.isEmpty false (joinRank e.u [sl]).1)) e [sl] [])) ∧
  (∀ t w, PassesMarkers (.getw t w) free [.a] (tgt1 t) false) ∧
  (∀ t w, PassesMarkers (.putw t w) free [.a] (tgt1 t) false) ∧
  (∀ t b, PassesMarkers (.nextb t b) free [.a] (tgt1 t) false) ∧
  (∀ t, PassesMarkers (.halt t) free [.a] (tgt1 t) false) ∧
  (∀ t c k, Joins (.mark t c k) free [.a] (tgt1 t) false
    (fun s e r => updUnit s e.c e.i (fun u => { u with mpend := false, mcnt := if k.val ≤ r then 0 else u.mcnt }))
    (fun e r => toAll (tgt1 t) (markerTok (if e.u.mpend then max r k.val else r)))) ∧
  (∀ t k, Joins (.rankq t k) free [.a] (tgt1 t) false (fun s _ _ => s)
    (fun _ r => if k.val ≤ r then result (tgt1 t) (BitVec.ofNat 32 (r + 1)) false else [])) ∧
  (∀ t k, Joins (.strip t k) free [.a] (tgt1 t) false (fun s _ _ => s)
    (fun _ r => if k.val < r then toAll (tgt1 t) (markerTok r) else [])) ∧
  (∀ t k, Joins (.count t k) free [.a] (tgt1 t) false
    (fun s e r => if k.val ≤ r then updUnit s e.c e.i (fun u => { u with ccnt := 0 }) else s)
    (fun e r => (if k.val ≤ r then result (tgt1 t) e.u.ccnt false else []) ++ toAll (tgt1 t) (markerTok r))) ∧
  (∀ t k n, Joins (.const t k n) free [.a] (tgt1 t) false
    (fun s e _ => updUnit s e.c e.i (fun u => { u with cidx := 0 })) (fun _ r => toAll (tgt1 t) (markerTok r)))

/-- R148 to R154: the integer, logic, shift and compare instructions complete with the result of their rule; a zero divisor
counts unless an operand is poisoned. -/
def Obligations.IntegerCompletes : Prop :=
  (∀ (h : DHead) (t : Tgt) (sat uns : Bool) (w : Width) (v : BitVec 15),
  GivesWord (.add h sat uns w) [.a, .b] h (intOp exactAdd sat uns w) ∧
  GivesWord (.sub h sat uns w) [.a, .b] h (intOp exactSub sat uns w) ∧
  GivesWord (.mul h sat uns w) [.a, .b] h (intOp exactMul sat uns w) ∧
  GivesWord (.mulh h uns w) [.a, .b] h (intOp exactMulh false uns w) ∧
  GivesWord (.mad h sat uns w) [.a, .b, .c] h (intOp exactMad sat uns w) ∧
  GivesWord (.min h uns w) [.a, .b] h (intOp exactMin false uns w) ∧
  GivesWord (.max h uns w) [.a, .b] h (intOp exactMax false uns w) ∧
  GivesWord (.abs h sat w) [.a] h (intOp exactAbs sat false w) ∧
  GivesWord (.neg h sat w) [.a] h (intOp exactNeg sat false w) ∧
  GivesWord (.clamp h uns w) [.a, .b, .c] h (intOp exactClamp false uns w) ∧
  GivesWord (.addc h sat) [.a, .b, .c] h (addcOp sat) ∧
  GivesWord (.dot4 h sat uns w) [.a, .b, .c] h (dot4Op sat uns w) ∧
  GivesImm (.addi t v) t (fun a => a + imm15 v) ∧
  GivesImm (.muli t v) t (fun a => a * imm15 v)) ∧
  (∀ (h : DHead) (sat uns : Bool),
  Fires (.div h sat uns) free [.a, .b] (headTgts h) h.pred
    (fun s e o => if o.b.word = 0 ∧ !o.a.psn ∧ !o.b.psn then addCount s e.c cntDivZero 1 else s)
    (fun _ o => result (headTgts h) (divOp sat uns o.a.word o.b.word).1 (o.a.psn || o.b.psn)) ∧
  Fires (.rem h uns) free [.a, .b] (headTgts h) h.pred
    (fun s e o => if o.b.word = 0 ∧ !o.a.psn ∧ !o.b.psn then addCount s e.c cntDivZero 1 else s)
    (fun _ o => result (headTgts h) (remOp uns o.a.word o.b.word).1 (o.a.psn || o.b.psn))) ∧
  (∀ (h : DHead) (t : Tgt) (uns : Bool) (w : Width) (c : Cond) (op : LogOp) (v : BitVec 11) (u : BitVec 13),
  GivesWord (.and h) [.a, .b] h (fun a b _ => a &&& b) ∧
  GivesWord (.or h) [.a, .b] h (fun a b _ => a ||| b) ∧
  GivesWord (.xor h) [.a, .b] h (fun a b _ => a ^^^ b) ∧
  GivesWord (.andn h) [.a, .b] h (fun a b _ => a &&& ~~~b) ∧
  GivesWord (.shl h uns w) [.a, .b] h (fun a b _ => laneMap2 w shlLane a b) ∧
  GivesWord (.shr h uns w) [.a, .b] h (fun a b _ => laneMap2 w (shrLane uns) a b) ∧
  GivesWord (.rot h w) [.a, .b] h (fun a b _ => laneMap2 w rotLane a b) ∧
  GivesWord (.clz h w) [.a] h (fun a _ _ => laneMap2 w clzLane a 0) ∧
  GivesWord (.popc h w) [.a] h (fun a _ _ => laneMap2 w popLane a 0) ∧
  GivesWord (.bfx h uns) [.a, .b] h (fun a b _ => bfxOp uns a b) ∧
  GivesWord (.bfi h) [.a, .b, .c] h bfiOp ∧
  GivesWord (.cmp h c uns) [.a, .b] h (fun a b _ => cmpOp c uns a b) ∧
  GivesWord (.sel h) [.a, .b, .c] h (fun a b c => if c = 0 then b else a) ∧
  GivesWord (.tstb h) [.a, .b] h (fun a b _ => if a.getLsbD (b.toNat % 32) then 1 else 0) ∧
  GivesImm (.cmpi t c uns v) t (fun a => cmpOp c uns a (if uns then v.zeroExtend 32 else v.signExtend 32)) ∧
  GivesImm (.logi t op u) t (fun a => match op with
    | .and => a &&& u.zeroExtend 32
    | .or => a ||| u.zeroExtend 32
    | .xor => a ^^^ u.zeroExtend 32
    | .andn => a &&& ~~~(u.zeroExtend 32)))

/-- R155 to R159: the FP32 instructions complete with the exact result of their rule rounded once. -/
def Obligations.FloatCompletes : Prop :=
  ∀ (h : DHead) (r : Rnd) (c : Cond),
  GivesWord (.fadd h r) [.a, .b] h (fun a b _ => toF32 r ((f32 a).add (r == .rdn) (f32 b))) ∧
  GivesWord (.fsub h r) [.a, .b] h (fun a b _ => toF32 r ((f32 a).add (r == .rdn) (f32 b).neg)) ∧
  GivesWord (.fmul h r) [.a, .b] h (fun a b _ => toF32 r ((f32 a).mul (f32 b))) ∧
  GivesWord (.ffma h r) [.a, .b, .c] h (fun a b c => toF32 r (((f32 a).mul (f32 b)).add (r == .rdn) (f32 c))) ∧
  GivesWord (.fdiv h r) [.a, .b] h (fun a b _ => toF32 r ((f32 a).div (f32 b))) ∧
  GivesWord (.fsqrt h r) [.a] h (fun a _ _ => toF32 r (f32 a).sqrt) ∧
  GivesWord (.fscl h r) [.a, .b] h (fun a b _ => toF32 r ((f32 a).scale b.toInt)) ∧
  GivesWord (.fmin h) [.a, .b] h (fun a b _ => fMinMax false a b) ∧
  GivesWord (.fmax h) [.a, .b] h (fun a b _ => fMinMax true a b) ∧
  GivesWord (.fneg h) [.a] h (fun a _ _ => fNeg a) ∧
  GivesWord (.fcmp h c) [.a, .b] h (fun a b _ => if fCmp c a b then 1 else 0) ∧
  GivesWord (.fclass h) [.a] h (fun a _ _ => fClass a) ∧
  GivesWord (.frsqe h) [.a] h (fun a _ _ => fEst (f32 a).rsqrt) ∧
  GivesWord (.frcpe h) [.a] h (fun a _ _ => fEst (f32 a).recip) ∧
  GivesWord (.fexp2e h) [.a] h (fun a _ _ => fEst (f32 a).exp2) ∧
  GivesWord (.flog2e h) [.a] h (fun a _ _ => fEst (f32 a).log2)

/-- R160 to R167: the conversions complete, with their result and, where they count, with their events counted. -/
def Obligations.ConvertCompletes : Prop :=
  (∀ (h : DHead) (t : Tgt) (uns hi : Bool) (w : Width) (r : Rnd) (v : BitVec 15) (l : Fin 2) (l4 : Fin 4) (l8 : Fin 8),
    GivesWord (.cvtif h uns r) [.a] h (fun a _ _ => cvtif uns r a) ∧
    GivesWord (.cvthf h hi l) [.a] h (fun a _ _ => cvthf hi l.val a) ∧
    GivesWord (.cvt8f h l4 hi) [.a] h (fun a _ _ => cvt8f l4.val hi a) ∧
    GivesWord (.unpk h hi uns w) [.a] h (fun a _ _ => unpkOp hi uns w a) ∧
    GivesWord (.q4d h l8) [.a, .b] h (fun a b _ => q4dOp l8.val a b) ∧
    GivesWord (.scd h) [.a] h (fun a _ _ => scdOp a) ∧
    GivesWord (.desc h) [.a, .b] h (fun a b _ => BitVec.ofNat 32 (b.toNat % 256 * 256 + a.toNat % 256)) ∧
    GivesImm (.ldhi t v) t (fun a => BitVec.ofNat 32 (v.toNat * 2 ^ 17 + a.toNat % 2 ^ 17)) ∧
    Fires (.ldi t v) free [.a] (tgt1 t) .always noEffect (fun _ _ => result (tgt1 t) (v.signExtend 32) false)) ∧
  (∀ (h : DHead) (sat uns f nsat : Bool) (w : Width) (r : Rnd) (l : Fin 4) (l8 : Fin 8) (x : ScbFmt),
    let Counts (i : Instr) (sl : List Slot) (g : Word → Word → Word → Word × Ev) : Prop :=
      Fires i free sl (headTgts h) h.pred (fun s e o => addEv s e.c (g o.a.word o.b.word o.c.word).2) (fun _ o =>
        result (headTgts h) (g o.a.word o.b.word o.c.word).1 (sl.any (fun x => (operandAt o x).psn)))
    Counts (.cvtfi h uns r) [.a] (fun a _ _ => cvtfi uns r a) ∧
    Counts (.cvtfh h sat f r) [.a, .b] (fun a b _ => cvtfh sat f r a b) ∧
    Counts (.cvtf8 h l f nsat) [.a, .b] (fun a b _ => cvtf8 l.val f nsat a b) ∧
    Counts (.pack h sat uns w) [.a, .b] (fun a b _ => packOp sat uns w a b) ∧
    Counts (.q4e h l8) [.a, .b, .c] (q4eOp l8.val) ∧
    Counts (.scb h x) [.a] (fun a _ _ => scbOp x a))

/-- R28, R78: at every instruction of groups 0x1 to 0x4 markers on all its slots, the predicate's with them, are joined, and one
marker of the highest rank goes to every target; one whose predicate does not hold takes one token from each of its slots
and emits nothing, and a poisoned predicate is false and counts. -/
def Obligations.ScalarMarkersAndPredicates : Prop :=
  (∀ i sl tg p, scalarForm i = some (sl, tg, p) → PassesMarkers i free (sl ++ predSlots p) tg false) ∧
  (∀ i sl tg p s e, scalarForm i = some (sl, tg, p) → MayFire s e (sl ++ predSlots p) tg →
    (p = .ifTrue ∧ ((operands e.u).p.psn = true ∨ (operands e.u).p.data = 0)
      ∨ p = .ifFalse ∧ (operands e.u).p.psn = false ∧ (operands e.u).p.data ≠ 0) →
    exec i s = .next (finish (if (operands e.u).p.psn then addCount s e.c cntPoison 1 else s) e (sl ++ [.p]) []))

/-- R170: an instruction of groups 0x0 to 0x4 changes nothing but the units, the draft position and the carry records of
its own context, the node's counts, and what a failed check or an injection leaves: all memory, every other node and
core, and every register stay as they were. -/
def Obligations.ScalarFrame : Prop :=
  ∀ i g s t c k, groupOf i = some g → g ≤ 4 → s.run.focus = some (c, k) → exec i s = .next t →
    asideScalar c t = asideScalar c s

/-- R25, R124, R125: a firing takes one token from each slot it consumes and counts itself. Of its tokens each target, the unit's
own slots among them, gets its own in the order sent: they stand at the end of its queue, then on the way to it. One whose
circuit has room arrives; one whose circuit is full stands in the output stage. Every other unit of the window, and everything
outside its units, stays. -/
def Obligations.FiringTakesAndSends : Prop :=
  ∀ s e sl out, envAt s e.c e.i = some e → sl.Nodup →
    ∃ e', envAt (finish s e sl out) e.c e.i = some e' ∧
      (e'.u.fired = e.u.fired + 1 ∧ e'.ctx = e.ctx ∧ { e'.win with units := [] } = { e.win with units := [] } ∧
        asideScalar e.c (finish s e sl out) = asideScalar e.c s) ∧
      ((∀ p ∈ out, p.1.index.val ≠ e.i) → ∀ x, slotQueue e'.u x = if x ∈ sl then (slotQueue e.u x).tail else slotQueue e.u x) ∧
      (∀ j ej, j ≠ e.i → envAt s e.c j = some ej → (∀ p ∈ out, p.1.index.val ≠ j) →
        ∃ ej', envAt (finish s e sl out) e.c j = some ej' ∧ ej'.u = ej.u) ∧
      (e.u.out = [] → ∀ tg ej, envAt s e.c tg.index.val = some ej →
        ∃ ej', envAt (finish s e sl out) e.c tg.index.val = some ej' ∧
          slotQueue ej'.u tg.slot ++ onTheWay e'.u tg =
            (if tg.index.val = e.i ∧ tg.slot ∈ sl then (slotQueue ej.u tg.slot).tail else slotQueue ej.u tg.slot)
              ++ onTheWay e.u tg ++ tokensTo tg out) ∧
      ((∀ p ∈ out, p.1.index.val ≠ e.i ∧ stageFree e.u.stage p.1 = true) → (out.map (·.1)).Nodup →
        e'.u.out = [] ∧ e'.u.stage = e.u.stage ++ out.filter (fun p => !hasRoom e.win e.i p.1) ∧
        ∀ p ∈ out, hasRoom e.win e.i p.1 = true → ∀ ej, envAt s e.c p.1.index.val = some ej →
          ∃ ej', envAt (finish s e sl out) e.c p.1.index.val = some ej' ∧
            slotQueue ej'.u p.1.slot = slotQueue ej.u p.1.slot ++ [p.2])

/-- R148: each lane of a result depends on its own lanes alone: wrapped to the lane, it is the exact value modulo the
lane's range; saturated, it is the exact value brought to the nearest bound. -/
def Obligations.IntegerLanes : Prop :=
  ∀ f uns w a b c j, j < 32 / laneBits w →
    let n := laneBits w
    let exact := f n (laneVal n uns (elemBits a.toNat n j)) (laneVal n uns (elemBits b.toNat n j))
      (laneVal n uns (elemBits c.toNat n j))
    ((elemBits (intOp f false uns w a b c).toNat n j : Nat) : Int) = exact % 2 ^ n ∧
    laneVal n uns (elemBits (intOp f true uns w a b c).toNat n j) =
      (if uns then max 0 (min exact (2 ^ n - 1)) else max (-2 ^ (n - 1)) (min exact (2 ^ (n - 1) - 1)))

/-- R148, R150 to R152: on whole words the wrapping sum, difference, product and negation are those of 32-bit arithmetic, and
the high product is the upper half of the exact one; ADDI and MULI take their signed immediate; DOT4 is c plus the sum of the
lane products, wrapped or saturated to 32 bits; ADDC chains into a 64-bit sum. -/
def Obligations.IntegerWords : Prop :=
  (∀ uns a b c,
    intOp exactAdd false uns .w32 a b c = a + b ∧ intOp exactSub false uns .w32 a b c = a - b ∧
    intOp exactMul false uns .w32 a b c = a * b ∧ intOp exactMad false uns .w32 a b c = a * b + c ∧
    intOp exactNeg false false .w32 a b c = -a ∧
    intOp exactMulh false true .w32 a b c = BitVec.ofNat 32 (a.toNat * b.toNat / 2 ^ 32) ∧
    intOp exactMulh false false .w32 a b c = BitVec.ofInt 32 (a.toInt * b.toInt / 2 ^ 32)) ∧
  (∀ (a : Word) (v : BitVec 15),
    ((a + imm15 v).toNat : Int) = (a.toNat + v.toInt) % 2 ^ 32 ∧ ((a * imm15 v).toNat : Int) = (a.toNat * v.toInt) % 2 ^ 32) ∧
  (∀ uns w a b c,
    let n := laneBits w
    let lane (x : Word) (j : Nat) : Int := laneVal n uns (elemBits x.toNat n j)
    let exact : Int := (if uns then (c.toNat : Int) else c.toInt) + ((List.range (32 / n)).map (fun j => lane a j * lane b j)).sum
    ((dot4Op false uns w a b c).toNat : Int) = exact % 2 ^ 32 ∧
    (if uns then ((dot4Op true uns w a b c).toNat : Int) else (dot4Op true uns w a b c).toInt) =
      (if uns then max 0 (min exact (2 ^ 32 - 1)) else max (-2 ^ 31) (min exact (2 ^ 31 - 1)))) ∧
  ((∀ a b c, (addcOp true a b c).toNat * 2 ^ 32 + (addcOp false a b c).toNat = a.toNat + b.toNat + c.toNat % 2) ∧
  (∀ (x y : BitVec 64),
    let lo := addcOp false (x.setWidth 32) (y.setWidth 32) 0
    let k := addcOp true (x.setWidth 32) (y.setWidth 32) 0
    let hi := addcOp false ((x >>> 32).setWidth 32) ((y >>> 32).setWidth 32) k
    hi.toNat * 2 ^ 32 + lo.toNat = (x + y).toNat))

/-- R149: division truncates toward zero and its remainder has the dividend's sign; the borderline cases. -/
def Obligations.DivisionCases : Prop :=
  ∀ sat a b,
    (b ≠ 0 → (divOp sat true a b).1 = a / b ∧ (remOp true a b).1 = a % b) ∧
    (b ≠ 0 → ¬(a = 0x80000000#32 ∧ b = -1) →
      (divOp sat false a b).1.toInt = a.toInt.tdiv b.toInt ∧ (remOp false a b).1.toInt = a.toInt.tmod b.toInt) ∧
    (divOp false false 0x80000000#32 (-1)).1 = 0x80000000#32 ∧ (divOp true false 0x80000000#32 (-1)).1 = 0x7FFFFFFF#32 ∧
    (remOp false 0x80000000#32 (-1)).1 = 0 ∧
    (divOp sat true a 0).1 = 0xFFFFFFFF#32 ∧ (remOp true a 0).1 = a ∧ (remOp false a 0).1 = a ∧
    (divOp sat false a 0).1 = (if a.msb then 0x80000000#32 else 0x7FFFFFFF#32)

/-- R153, R154: shifts, rotations, counts and comparisons on whole words: an amount of 32 or more shifts everything out. BFX
takes b[12:8] + 1 bits of a from place b[4:0], and BFI puts bits of b into a at c's place; other bits stay. -/
def Obligations.ShiftsAndFields : Prop :=
  (∀ a b,
    laneMap2 .w32 shlLane a b = a <<< b ∧ laneMap2 .w32 (shrLane true) a b = a >>> b ∧
    laneMap2 .w32 (shrLane false) a b = a.sshiftRight b.toNat ∧ laneMap2 .w32 rotLane a b = a.rotateLeft b.toNat ∧
    laneMap2 .w32 popLane a 0 = BitVec.ofNat 32 ((List.range 32).countP (fun k => a.getLsbD k)) ∧
    (∀ k : Nat, k < 32 → a.getLsbD k = true → (∀ j, k < j → a.getLsbD j = false) →
      laneMap2 .w32 clzLane a 0 = BitVec.ofNat 32 (31 - k)) ∧
    laneMap2 .w32 clzLane 0 0 = 32#32 ∧
    (cmpOp .lt false a b = 1 ↔ a.toInt < b.toInt) ∧ (cmpOp .lt true a b = 1 ↔ a.toNat < b.toNat) ∧
    (cmpOp .le false a b = 1 ↔ a.toInt ≤ b.toInt) ∧ (cmpOp .le true a b = 1 ↔ a.toNat ≤ b.toNat) ∧
    (∀ uns, (cmpOp .eq uns a b = 1 ↔ a = b) ∧ (cmpOp .ne uns a b = 1 ↔ a ≠ b) ∧
      (cmpOp .gt uns a b = cmpOp .lt uns b a) ∧ (cmpOp .ge uns a b = cmpOp .le uns b a)) ∧
    (∀ c uns, cmpOp c uns a b = 0 ∨ cmpOp c uns a b = 1)) ∧
  (∀ a b c k, k < 32 →
    let lo := b.toNat % 32
    let len := b.toNat / 256 % 32 + 1
    (bfxOp true a b).getLsbD k = (decide (k < len) && a.getLsbD (lo + k)) ∧
    (bfxOp false a b).getLsbD k = (if k < len then a.getLsbD (lo + k) else a.getLsbD (lo + len - 1)) ∧
    (bfiOp a c b).getLsbD k = (if lo ≤ k ∧ k < lo + len then c.getLsbD (k - lo) else a.getLsbD k))

/-- R103, R104, R121, R155: the special cases of FP32 arithmetic: a NaN operand and every invalid operation, infinity minus
infinity, 0 times infinity, 0 over 0, infinity over infinity, the root of a negative number, with operands of either sign, give
the canonical NaN; a finite number over 0 is an infinity, the root of -0 is -0, and an exact difference of zero takes the sign
of its mode. -/
def Obligations.FloatSpecials : Prop :=
  ∀ r a b c,
    let inf (x : Word) : Prop := x &&& 0x7FFFFFFF#32 = 0x7F800000#32
    let zero (x : Word) : Prop := x &&& 0x7FFFFFFF#32 = 0
    (((f32 a).isNan = true ∨ (f32 b).isNan = true →
      fAdd r a b = 0x7FC00000#32 ∧ fSub r a b = 0x7FC00000#32 ∧ fMul r a b = 0x7FC00000#32 ∧ fDiv r a b = 0x7FC00000#32 ∧
      fFma r a b c = 0x7FC00000#32 ∧ (∀ x, fCmp x a b = (x == .ne))) ∧
      ((f32 c).isNan = true → fFma r a b c = 0x7FC00000#32)) ∧
    ((inf a → inf b → a.msb ≠ b.msb → fAdd r a b = 0x7FC00000#32) ∧ (inf a → inf b → a.msb = b.msb → fSub r a b = 0x7FC00000#32) ∧
      ((inf a ∧ zero b) ∨ (zero a ∧ inf b) → fMul r a b = 0x7FC00000#32 ∧ fFma r a b c = 0x7FC00000#32) ∧
      ((zero a ∧ zero b) ∨ (inf a ∧ inf b) → fDiv r a b = 0x7FC00000#32) ∧
      ((inf a ∧ ¬zero b) ∨ (¬zero a ∧ inf b) → inf c → (a.msb != b.msb) ≠ c.msb → fFma r a b c = 0x7FC00000#32)) ∧
    ((f32 a).isFinite = true → ¬zero a → zero b → fDiv r a b = (if a.msb = b.msb then 0x7F800000#32 else 0xFF800000#32)) ∧
    fSqrt r 0x80000000#32 = 0x80000000#32 ∧
    ((f32 a).isNan = false → a.msb = true → a ≠ 0x80000000#32 → fSqrt r a = 0x7FC00000#32) ∧
    ((f32 a).isFinite = true → fSub r a a = (if r = .rdn then 0x80000000#32 else 0)) ∧
    ((f32 a).isNan = false → fNeg a = a ^^^ 0x80000000#32)

/-- R103, R105: a finite code of any float format converts to itself, in every rounding mode and counting nothing: no
exactly representable value is moved by rounding. -/
def Obligations.FloatExact : Prop :=
  ∀ f ∈ [fmtFp32, fmtBf16, fmtFp16, fmtE4m3, fmtE5m2, fmtW64], ∀ r sat c, c < 2 * f.signBit → (f.decode c).isFinite = true →
    f.convert r sat (f.decode c) = (c, {})

/-! ### Group 0x5: streams and scalar accesses -/

/-- R212, R216 to R218: an iteration of LDS, LDB or AGEN whose access succeeds emits the element, block or offset at the
run's address and moves the run on; a data token starts a run; a marker leaves lifted above the generator's own. Where
the manual leaves a point open it states the model's choice (assumption log 5). -/
def Obligations.StreamLoadsComplete : Prop :=
  ∀ (t : Tgt) (k : Fin 256) (va w : Bool) (s : State) (e : Env),
    let d := streamDesc e.win k.val
    let a := genAddr d e.u.gen
    (MayIterate s e d t →
      (∀ v p s1, d.ssc = false → readSpan s e.c d.scratch a d.size d.ns = .val v p s1 →
        Iterates (.lds t k) s e d t s1 (if p then scalarTok 0 true else scalarTok (elemVal d v) false)) ∧
      (∀ x s1, d.ssc = false → readBlock s e.c d.scratch (BitVec.ofNat 64 (a.toNat / 64 * 64)) d.ns = .tok x s1 →
        Iterates (.ldb t k false) s e d t s1 x) ∧
      (∀ s1, d.ssc = false → d.scratch = false → probe s e.c a w = (none, s1) →
        Iterates (.agen t k va w) s e d t s1 (scalarTok ((if va then a else a - e.u.gen.base).setWidth 32) false)) ∧
      (∀ b, getBob e.ctx.mem d.bob = some b → e.u.gen.slot = none → slotState e.ctx.mem b b.tail = 0 →
        ∃ m, takeFill e.ctx.mem d.bob b = some (b.tail, m) ∧ slotState m b b.tail = 1 ∧
          exec (.ldb t k true) s = .next (updUnit (updMem s e.c (fun _ => match getBob m d.bob with
            | some b1 => putBob m d.bob { b1 with fills := (b.tail, e.i, e.u.gen) :: b1.fills }
            | none => m)) e.c e.i (fun u => { u with gen := { u.gen with slot := some b.tail, done := 0 } }))) ∧
      (∀ b i x s1, getBob e.ctx.mem d.bob = some b → e.u.gen.slot = some i → genLast d e.u.gen = false →
        e.u.gen.done + 1 < slotBlocks b →
        readBlock s e.c d.scratch (BitVec.ofNat 64 (a.toNat / 64 * 64)) d.ns = .tok x s1 →
        exec (.ldb t k true) s = .next (updUnit
          (slotFill s1 e.c b i e.u.gen.done { data := x.data, desc := x.desc, psn := x.psn }) e.c e.i
          (fun u => { u with gen := { genStep d e.u.gen with
                                      slot := some i, done := e.u.gen.done + 1
                                      held := (maxMark (e.u.gen.held.map (·.val)) (genTop d e.u.gen)).map (Fin.ofNat 8) } })))) ∧
    (∀ x, MayTake s e d t x →
      ∀ i ∈ [Instr.lds t k, .ldb t k false, .ldb t k true, .agen t k va w],
        (x.isMk = false → StartsRun i s e d t x) ∧ (x.isMk = true → LiftsMarker i s e d t x.rank.val))

/-- R212, R216, R217: STS and STB stage the element or block of the token at the head of slot a at the generator's
address, and emit a 0; STB of a bobbin takes the ready slot at HEAD, and each step stages its next block, from block 0 on, at the
generator's next address; the last empties the slot and emits its number. Where the manual
leaves a point open it states the model's choice (assumption log 5). -/
def Obligations.StreamStoresComplete : Prop :=
  ∀ (t : Tgt) (k : Fin 256) (s s1 s2 : State) (e : Env) (x : Token),
    let d := streamDesc e.win k.val
    let g := e.u.gen
    let a := genAddr d g
    let u := { popSlot e.u .a with fired := e.u.fired + 1 }
    (MayTake s e d t x → x.isMk = false →
    (genWaits s e = false → (if d.scratch then s1 = s else probe s e.c a true = (none, s1)) →
      (stageSpan s1 e.c d.scratch a d.size x = (true, s2) →
        exec (.sts t k) s = .next (genEmit s2 e d t { u with gen := { genStep d g with active := false } } [scalarTok 0 false] none)) ∧
      ((if x.psn then stageSubst s1 e.c d.scratch a
        else stageAt s1 e.c d.scratch a (BitVec.allOnes 64) x.data (some x.desc)) = (true, s2) →
        exec (.stb t k false) s = .next (genEmit s2 e d t { u with gen := { genStep d g with active := false } } [scalarTok 0 false] none))) ∧
    (∀ b, getBob e.ctx.mem d.bob = some b → slotState e.ctx.mem b b.head = 2 → ∃ m,
      takeDrain e.ctx.mem d.bob b = some (b.head, m) ∧ slotState m b b.head = 3 ∧
      exec (.stb t k true) s = .next (updUnit (updMem s e.c (fun _ => m)) e.c e.i (fun _ =>
          { u with gen := { u.gen with active := true, slot := some b.head, done := 0 } })))) ∧
    (∀ b i, MayIterate s e d t → getBob e.ctx.mem d.bob = some b → g.slot = some i →
      let l := (slotRead s e.c e.ctx.mem b i g.done).1
      (if d.scratch then s1 = s else probe s e.c a true = (none, s1)) →
      (if l.psn then stageSubst s1 e.c d.scratch a
        else stageAt s1 e.c d.scratch a (BitVec.allOnes 64) l.data (some l.desc)) = (true, s2) →
      let s3 := (slotRead s2 e.c e.ctx.mem b i g.done).2
      (g.done + 1 < slotBlocks b → d.auto = false ∨ genLast d g = false → exec (.stb t k true) s =
        .next (updUnit s3 e.c e.i (fun u => { u with gen := { genStep d g with done := g.done + 1, active := true } }))) ∧
      (slotBlocks b ≤ g.done + 1 → exec (.stb t k true) s =
        .next (genEmit (updMem s3 e.c (fun m => endDrain m d.bob i)) e d t
          { e.u with gen := { genStep d g with slot := none, done := 0, active := d.auto && (genStep d g).active } }
          [scalarTok (BitVec.ofNat 32 i) false] none)))

/-- R212: a run visits its iterations in mixed-radix order, dimension 0 fastest: iteration `n` stands at the digits of `n`,
and the run ends with the product of the counts. -/
def Obligations.GeneratorWalk : Prop :=
  ∀ (d : StreamDesc) (g : Gen) (n : Nat), (∀ c ∈ d.counts, 0 < c) → 0 < d.counts.length → d.counts.length ≤ 4 →
    let size (j : Nat) : Nat := (d.counts.take j).foldl (· * ·) 1
    genCounters g = (List.range 4).map (fun j => if j < d.counts.length then n / size j % nth 1 d.counts j else 0) →
    n < size 4 → g.active = true →
    (genLast d g = decide (n + 1 = size 4)) ∧
    genCounters (genStep d g) = (List.range 4).map (fun j =>
      if j < d.counts.length then (n + 1) / size j % nth 1 d.counts j else 0) ∧
    (genStep d g).active = decide (n + 1 < size 4) ∧
    (d.strides.length = d.counts.length → genAddr d g = ((List.range d.counts.length).map (fun j =>
      BitVec.ofNat 64 (n / size j % nth 1 d.counts j) * nth 0 d.strides j)).foldl (· + ·) (g.base + g.ofs)) ∧
    (∀ j, genTop d g = some j ↔ j < d.counts.length ∧ (n + 1) % size (j + 1) = 0 ∧ (j + 1 < d.counts.length → (n + 1) % size (j + 2) ≠ 0))

/-- R113, R145, R209, R220, R221, R224: LD, LDX and PREF complete: the bytes at the address formed from the operand and
the base, extended as the instruction gives it; a bad address gives a poisoned 0 and counts. ST completes: the low bytes
of slot b are staged at the address; poisoned data stage a SUBST block, or a poisoned carry word that counts; a 0
leaves. Where the manual leaves a point open it states the model's choice (assumption log 5, 28). -/
def Obligations.LoadsAndStoresComplete : Prop :=
  (∀ (m : MHead) (bsel : Fin 4) (sx : Bool) (sz : Size) (x : Ext) (s : State) (e : Env),
    let o := operands e.u
    let t := tgt1 m.t
    let given (v : Nat) (p : Bool) := if p then result t 0 true else result t (loadWord sx sz v) false
    (∀ sp a, formAddr e sp bsel o.a = some a → a.toNat % sizeBytes sz = 0 →
      (sp ≠ .w → ∀ v p s1,
        (readWithin s e.c (sp == .s) a (sizeBytes sz) false = .val v p s1 →
          Access (.ld m sp bsel sx sz) [.a] m.t s e s1 (given v p)) ∧
        (readWithin s e.c (sp == .s) a (sizeBytes sz) true = .val v p s1 →
          Access (.ldx m sp bsel sx sz) [.a] m.t s e s1 (given v p))) ∧
      (sp = .w → a.toNat < 256 → ∀ v s1,
        (readW s e.c (a.toNat / 4) false = (some v, s1) → Access (.ld m sp bsel sx sz) [.a] m.t s e s1 (result t v.val v.psn)) ∧
        (readW s e.c (a.toNat / 4) true = (some v, s1) → Access (.ldx m sp bsel sx sz) [.a] m.t s e s1 (result t v.val v.psn)))) ∧
    (∀ va, o.a.psn = false → carryVa e.ctx.mem bsel.val o.a.word = some va →
      (∀ tgt a w s1, resolve s e.c va false = (.at tgt a w, s1) →
        Access (.pref m bsel x) [.a] m.t s e (prefetch x s1 tgt a) (result t 0 false)) ∧
      (∀ p s1, resolve s e.c va false = (p, s1) → (∀ tgt a w, p ≠ .at tgt a w) →
        Access (.pref m bsel x) [.a] m.t s e s1 (result t 0 false))) ∧
    (∀ sp, (∀ a, formAddr e sp bsel o.a = some a → a.toNat % sizeBytes sz ≠ 0) →
      Access (.ld m sp bsel sx sz) [.a] m.t s e (addCount s e.c cntPoison 1) (result t 0 true) ∧
      Access (.ldx m sp bsel sx sz) [.a] m.t s e (addCount s e.c cntPoison 1) (result t 0 true)) ∧
    (o.a.psn = true → Access (.pref m bsel x) [.a] m.t s e (addCount s e.c cntPoison 1) (result t 0 true))) ∧
  (∀ (m : MHead) (sp : Space) (bsel : Fin 4) (sz : Size) (s s1 : State) (e : Env) (a : Dword),
    let o := operands e.u
    let out := result (tgt1 m.t) 0 false
    formAddr e sp bsel o.a = some a → a.toNat % sizeBytes sz = 0 →
      (sp ≠ .w →
        (if o.b.psn then stageSubst s e.c (sp == .s) a else stageWordAt s e.c (sp == .s) a (sizeBytes sz) o.b.word) = (true, s1) →
          Access (.st m sp bsel sz) [.a, .b] m.t s e s1 out) ∧
      (sp = .w → a.toNat < 256 →
        stageW s e.c (a.toNat / 4) (if o.b.psn then { val := 0, psn := true } else { val := o.b.word, psn := false }) = (true, s1) →
          Access (.st m sp bsel sz) [.a, .b] m.t s e (addCount s1 e.c cntPoison (b2n o.b.psn)) out))

/-- R56, R57, R97: a staged word is read back by its node; no byte of memory moves; in the node's view the bytes of the
block that are not stored keep their values, and so do all blocks but the one stored to. -/
def Obligations.StagedStore : Prop :=
  ∀ (s t : State) (e : Env) (scr : Bool) (a : Dword) (n : Nat) (v : Word),
    focusEnv s = some e → n ∈ [1, 2, 4] → a.toNat % n = 0 → (scr = true → a.toNat < scratchSize s e.c) →
    (∀ part b, regionErrs s e.c part b = []) → stageWordAt s e.c scr a n v = (true, t) →
      (∀ w p u, readWithin t e.c scr a n false = .val w p u → w = v.toNat % 256 ^ n ∧ p = false) ∧
      (∀ j, peekLine t j = peekLine s j) ∧
      (∃ x, getCtx t e.c = some x ∧
        x.mem.scratch = e.ctx.mem.scratch ∧ x.mem.snapG = e.ctx.mem.snapG ∧ x.mem.snapS = e.ctx.mem.snapS ∧
        (∀ b, b ≠ a.toNat / 64 * 64 ∨ scr = true → mapFind x.mem.stageG b = mapFind e.ctx.mem.stageG b) ∧
        (∀ b, b ≠ a.toNat / 64 * 64 ∨ scr = false → mapFind x.mem.stageS b = mapFind e.ctx.mem.stageS b) ∧
        (∀ l i, i < 64 → (i < a.toNat % 64 ∨ a.toNat % 64 + n ≤ i) →
          let b := a.toNat / 64 * 64
          let was := if scr then mapFind e.ctx.mem.stageS b else mapFind e.ctx.mem.stageG b
          let is_ := if scr then mapFind x.mem.stageS b else mapFind x.mem.stageG b
          (∀ y, was = some y → (y.desc.map isSubst).getD false = false) → (was = none → isSubst l.desc = false) →
            blockBytes l is_ i 1 = blockBytes l was i 1))

/-- R96, R97, R173, R176, R205: reading a line changes no line; a line that is written reads back as its bytes under the mask, with the new descriptor or its old
one; a whole line loses its poison; a part of a SUBST block leaves zeros under RAW; every other line stays. That the
memories stay in their canonical form, `t.mem.wf`, is no rule of the manual: the form is the model's own (assumption log 7). -/
def Obligations.LineWrites : Prop :=
  ∀ (s : State) (k : Nat) (mask : BitVec 64) (data : Bits512) (desc : Option Desc), PlainLine s k →
    let t := writeLine s k mask data desc
    let was := peekLine s k
    let is_ := peekLine t k
    (readLine s k).1 = was ∧ SameMemory s (readLine s k).2 ∧ t.mem.wf = true ∧ (∀ j, j ≠ k → peekLine t j = peekLine s j) ∧
    (∀ i, i < 64 → lineByte is_.data i =
      (if mask.getLsbD i then lineByte data i else if isSubst was.desc then 0 else lineByte was.data i)) ∧
    is_.desc = desc.getD (if isSubst was.desc then 0 else was.desc) ∧
    is_.psn = (was.psn && mask != BitVec.allOnes 64)

/-! ### Group 0x6: atomics, ordering and barriers -/

/-- R59, R222: an atomic in HBM reads and replaces its bytes in one step on the committed value, and one in scratch on
committed scratch; nothing else in memory changes. Where the manual leaves a point open it states the model's choice
(assumption log 5). -/
def Obligations.AtomicEffect : Prop :=
  ∀ (s s1 : State) (e : Env) (va : Dword) (a n ofs : Nat) (w : Bool) (f : Nat → Nat),
    let k := lineKey 0 a
    (resolve s e.c va true = (.at 0 a w, s1) → PlainLine s1 k → (peekLine s1 k).psn = false → s1.hl.inj = [] →
      let old := lineNat (peekLine s1 k).data (a % 64) n
      ∃ t, atomicG s e va n f = .done old t ∧ OnlyBytes s1 t k (a % 64) n (f old)) ∧
    (getCtx s e.c = some e.ctx → ofs < scratchSize s e.c → e.ctx.mem.scratch.wf = true →
      (e.ctx.mem.scratch.readLine (ofs / 64)).psn = false → regionErrs s e.c .scratch (ofs / 64 * 64) = [] →
      let l := e.ctx.mem.scratch.readLine (ofs / 64)
      let old := lineNat l.data (ofs % 64) n
      ∃ t, atomicS s e ofs n f = .done old t ∧ SameMemory s t ∧ ∃ x, getCtx t e.c = some x ∧
        x.mem.stageS = e.ctx.mem.stageS ∧
        x.mem.scratch.readLine (ofs / 64) = mergeLine l (byteMask (ofs % 64) n) (putNat 0 (ofs % 64) n (f old)) none ∧
        ∀ j, j ≠ ofs / 64 → x.mem.scratch.readLine j = e.ctx.mem.scratch.readLine j)

/-- R222 to R224, R234: ATOM, CAS and TAS complete: the operation on the word at the address, logged with the old value; ATOM
and CAS emit it, TAS its bit; a bad address, a poisoned operand or a poisoned block gives a poisoned 0, logged and
counted. Where the manual leaves a point open it states the model's choice (assumption log 5). -/
def Obligations.AtomicsComplete : Prop :=
  ∀ (m : MHead) (sp : Space) (bsel : Fin 4) (op : Fin 16) (s s1 : State) (e : Env) (old : Nat),
    let o := operands e.u
    let v := BitVec.ofNat 32 old
    let addr := formAddr e sp bsel o.a
    let bitOf := BitVec.ofNat 32 (2 ^ (o.b.word.toNat % 32))
    let Op (i : Instr) (kind : Nat) (used : List Slot) (f : Nat → Nat) (out : Word) : Prop :=
      let key := firingKey e kind addr used o
      (∀ a, addr = some a → a.toNat % 4 = 0 → slotsPsn o used = false →
        (atomicAt s e sp a 4 f = .done old s1 →
          Access i used m.t s e (entered s1 e.c key [BitVec.ofNat 64 old]) (result (tgt1 m.t) out false)) ∧
        (atomicAt s e sp a 4 f = .bad s1 →
          Access i used m.t s e (addCount (entered s1 e.c key []) e.c cntPoison 1) (result (tgt1 m.t) 0 true))) ∧
      ((∀ a, addr = some a → a.toNat % 4 ≠ 0) ∨ slotsPsn o used = true →
        Access i used m.t s e (addCount (entered s e.c key []) e.c cntPoison 1) (result (tgt1 m.t) 0 true))
    focusEnv s = some e → Fresh e →
    Op (.atom m sp bsel op) 0x60 [.a, .b] (fun x => (atomNew op.val (BitVec.ofNat 32 x) o.b.word).toNat) v ∧
    Op (.cas m sp bsel) 0x61 [.a, .b, .c] (fun x => (if BitVec.ofNat 32 x = o.b.word then o.c.word else BitVec.ofNat 32 x).toNat) v ∧
    Op (.tas m sp bsel) 0x62 [.a, .b] (fun x => (BitVec.ofNat 32 x ||| bitOf).toNat)
      (if v.getLsbD (o.b.word.toNat % 32) then 1 else 0)

/-- R229, R230, R363: CNTADD adds slot b to the counter and emits its old low word, with `.rel` after a boundary of its scope;
WAITGE completes at once when the counter has reached {c, b}; else it waits at the counter's line, where each write shows
it the new value, and completes with the first that has reached its target. Where the manual leaves a point open it
states the model's choice (assumption log 5, 14). -/
def Obligations.CountersComplete : Prop :=
  ∀ (m : MHead) (bsel : Fin 4) (rel : CntRel) (s s0 s1 : State) (e : Env) (va : Dword) (old : Nat) (p : Pend),
    let o := operands e.u
    let t := tgt1 m.t
    focusEnv s = some e → Fresh e → va.toNat % 8 = 0 →
    (formVa e bsel o.a = some va → o.b.psn = false →
      (rel = .none → atomicG s e va 8 (fun x => (x + o.b.word.toNat) % 2 ^ 64) = .done old s1 →
        Access (.cntadd m bsel rel) [.a, .b] m.t s e
          (entered s1 e.c (firingKey e 0x69 (some va) [.a, .b] o) [BitVec.ofNat 64 old]) (result t (BitVec.ofNat 32 old) false)) ∧
      (∀ sc, rel = .dev ∧ sc = Scope.dev ∨ rel = .sys ∧ sc = Scope.sys →
        Issues (.cntadd m bsel rel) (fun x => InTurn x (.cntadd m bsel rel)) [.a, .b] m.t s e
          (askBoundary s e.c sc (.program e.i)) (pendOf o e.ctx.phase 0 1)) ∧
      (∀ tgt a w l, o.c.psn = false → resolve s e.c va false = (.at tgt a w, s0) → portLine s0 e.c (.at tgt a w) = (some l, s1) →
        l.psn = false →
        let v := lineNat l.data (va.toNat % 64) 8
        let target := o.c.word.toNat * 2 ^ 32 + o.b.word.toNat
        (target ≤ v → Access (.waitge m bsel) [.a, .b, .c] m.t s e s1 (result t (BitVec.ofNat 32 v) false)) ∧
        (v < target → Issues (.waitge m bsel) (fun x => InTurn x (.waitge m bsel)) [.a, .b, .c] m.t s e
          (enterWait s1 e (lineKey tgt a) (va.toNat % 64) target).1 (pendOf o 0 (BitVec.ofNat 64 s1.mem.waitId) 2)))) ∧
    (formVa e bsel p.a = some va → p.b.psn = false → p.phase < e.ctx.phase →
      let po : Operands := { a := p.a, b := p.b, c := p.c, p := zeroTok }
      atomicG s e va 8 (fun x => (x + p.b.word.toNat) % 2 ^ 64) = .done old s1 →
        Resumes (.cntadd m bsel rel) s e p (entered s1 e.c (firingKey e 0x69 (some va) [.a, .b] po) [BitVec.ofNat 64 old])
          (result t (BitVec.ofNat 32 old) false)) ∧
    (∀ w v, s.mem.waits.find? (fun w => w.id == p.val.toNat) = some w → w.seen = some v →
      Resumes (.waitge m bsel) s e p { s with mem := { s.mem with waits := s.mem.waits.erase w } } (result t (BitVec.ofNat 32 v) false)) ∧
    (∀ k l, (pokeLine s k l).mem.waits = s.mem.waits.map (fun w =>
      let v := lineNat l.data w.ofs 8
      if w.key = k ∧ w.seen.isNone ∧ !l.psn ∧ w.target ≤ v then { w with seen := some v } else w))

/-- R29, R219, R226, R227, R231 to R233: FENCE completes with a 0 in its turn; PHASE asks for a boundary at its scope,
and completes with a 0 when the phase has ended; AGCFG emits the pair of a base and the rank of its pool word; OSEND
sends a pulse, ORECV its slot b. A party of a barrier arrives for the generation after its last one: ARRV emits it at
once, BAR once it is complete, BWAIT once the generation it is given is. Where the manual leaves a point open it states
the model's choice (assumption log 5). -/
def Obligations.OrderAndBarriersComplete : Prop :=
  (∀ (t : Tgt) (q : Fin 64) (sc : Scope) (k : Fin 256) (od : Order) (h : DHead) (pr : Pred) (s s1 : State) (e : Env) (p : Pend) (v : Nat),
    let o := operands e.u
    let rank := wbits (poolWord e.win k.val) 2 0
    let va := BitVec.ofNat 64 (o.b.word.toNat % 2 ^ 23 * 2 ^ 32 + o.a.word.toNat)
    Access (.fence t q) [.a] t s e s (result (tgt1 t) 0 false) ∧
    Issues (.phase t q sc) (fun x => InTurn x (.phase t q sc)) [.a] t s e (askBoundary s e.c sc (.program e.i))
      (pendOf o e.ctx.phase 0 1) ∧
    (p.phase < e.ctx.phase → Resumes (.phase t q sc) s e p s (result (tgt1 t) 0 false)) ∧
    (od.rel = false → focusEnv s = some e → Fresh e → o.a.psn = false → o.b.psn = false →
      Access (.agcfg t k od false) [.a, .b] t s e
        (entered s e.c (firingKey e 0x55 (some va) [.a, .b] o) [va]) (pairToks t va rank false) ∧
      (va.toNat % 8 = 0 →
        (if od.acq then readCommitted s e.c va 8 else readWithin s e.c false va 8 true) = .val v false s1 →
        Access (.agcfg t k od true) [.a, .b] t s e
          (entered s1 e.c (firingKey e 0x55 (some va) [.a, .b] o) [BitVec.ofNat 64 v]) (pairToks t (BitVec.ofNat 64 v) rank false))) ∧
    (od.rel = true → ∀ ind, Issues (.agcfg t k od ind) (fun x => InTurn x (.agcfg t k od ind)) [.a, .b] t s e s
      (pendOf o (relMark e.ctx od.scope) 0 0)) ∧
    Fires (.osend t pr) free [.a] (tgt1 t) pr noEffect (fun _ _ => toAll (tgt1 t) zeroTok) ∧
    Fires (.orecv h) free [.a, .b] (headTgts h) h.pred noEffect (fun _ o => toAll (headTgts h) o.b)) ∧
  (∀ (t : Tgt) (k : Fin 256) (od : Order) (rel acq : Bool) (sc : Scope) (s : State) (e : Env) (p : Pend),
    let o := operands e.u
    let id := barId e k
    let May (dev : Bool) : Prop :=
      focusEnv s = some e ∧ Fresh e ∧ noGroup s e dev = false ∧ (dev = true → barRoom s (barGroup s e.c).1 id = true)
    let gen (dev : Bool) : Nat := (if dev then mapGet 0 e.ctx.barBase id else 0) + e.u.arrived + 1
    let arrived (op : Nat) (dev : Bool) : State :=
      (arrive (entered s e.c (arrivalKey e op id (gen dev)) [BitVec.ofNat 64 (gen dev)]) e id dev).1
    (∀ dev, (arrive s e id dev).2 = gen dev) ∧
    (∀ g, getWin s e.c = some e.win →
      (genComplete s e id false g = true ↔ ∀ n ∈ partyCounts e.win id false, g ≤ n)) ∧
    (May (barDev od.scope) → od.rel = false →
      Issues (.bar t k od) OpenPhase [.a] t s e (arrived 0x65 (barDev od.scope))
        (pendOf o 0 (BitVec.ofNat 64 (gen (barDev od.scope))) 1)) ∧
    (od.rel = true → Issues (.bar t k od) OpenPhase [.a] t s e s (pendOf o (relMark e.ctx od.scope) 0 0)) ∧
    (p.step ≠ 0 → genComplete s e id (barDev od.scope) p.val.toNat = true →
      Resumes (.bar t k od) s e p s (result (tgt1 t) (BitVec.ofNat 32 p.val.toNat) false)) ∧
    (May (barDev sc) → rel = false →
      Command (.arrv t k rel sc) [.a] t s e (arrived 0x66 (barDev sc))
        (result (tgt1 t) (BitVec.ofNat 32 (gen (barDev sc))) false)) ∧
    (May (barDev sc) → relOver e sc p = true →
      Resumes (.arrv t k rel sc) s e p (arrived 0x66 (barDev sc))
        (result (tgt1 t) (BitVec.ofNat 32 (gen (barDev sc))) false)) ∧
    (o.a.psn = false → noGroup s e (barDev sc) = false →
      (genComplete s e id (barDev sc) o.a.word.toNat = true →
        Command (.bwait t k acq sc) [.a] t s e s (result (tgt1 t) o.a.word false)) ∧
      (genComplete s e id (barDev sc) o.a.word.toNat = false →
        Issues (.bwait t k acq sc) OpenPhase [.a] t s e s (pendOf o 0 (o.a.word.zeroExtend 64) 1))))

/-! ### Group 0x7: split, bobbins, caches, pins and windows -/

/-- R183, R186 to R195: SPLIT, BOBDEF, BWF, BWE, BADV, TSTAT and TSET complete with their status, trigger or slot state;
CWB and CFLUSH of an extent write its dirty lines back, CFLUSH invalidates them, a CFLUSH of everything ends the phase; a CINV drops staged
bytes; PIN, UNPIN, MAPW and UNMAPW give their status, logged. Where the manual leaves a point open it states the model's
choice (assumption log 15, 29, 30). -/
def Obligations.BanksComplete : Prop :=
  (∀ (t : Tgt) (k : Fin 256) (b : Fin 32) (n : Fin 64) (i : Fin 512) (side : Bool) (s : State) (e : Env),
    let o := operands e.u
    let m := e.ctx.mem
    let gives (v : Nat) := result (tgt1 t) (BitVec.ofNat 32 v) false
    let ways := max (wbits (poolWord e.win k.val) 3 0) 1
    let def_ := bobbinWords (poolWord e.win k.val) (poolWord e.win (k.val + 1))
    (Command (.split t k) [.a] t s e
      (if (ways < m.wr ∧ waysUsed m = true) ∨ (m.wr < ways ∧ canGrow s e ways = false) then s
        else updMem s e.c (fun y => { y with wr := ways }))
      (gives (if ways < m.wr ∧ waysUsed m = true then 1 else if m.wr < ways ∧ canGrow s e ways = false then 2 else 0))) ∧
    (∀ retire, bobdefStatus s e def_.1 def_.2 retire ≠ 0 →
      Command (.bobdef t k retire) [.a] t s e s (gives (bobdefStatus s e def_.1 def_.2 retire))) ∧
    (bobdefStatus s e def_.1 def_.2 false = 0 →
      Command (.bobdef t k false) [.a] t s e (updMem s e.c (fun y => putBob (clearSlots y def_.2) def_.1 def_.2)) (gives 0)) ∧
    (∀ x, bobdefStatus s e def_.1 def_.2 true = 0 → getBob m def_.1 = some x → (∀ j, j < x.nslot → slotState m x j = 0) →
      Command (.bobdef t k true) [.a] t s e (updMem s e.c (fun y => { y with bobbins := mapErase y.bobbins def_.1 })) (gives 0)) ∧
    (∀ x, getBob m b.val = some x →
      ((∀ j, j < min (n.val + 1) x.nslot → slotState m x ((x.head + j) % max 1 x.nslot) = 2) →
        Acts (.bwf t b n) [.a] t s e s (toAll (tgt1 t) o.a)) ∧
      ((∀ j, j < min (n.val + 1) x.nslot → slotState m x ((x.tail + j) % max 1 x.nslot) = 0) →
        Acts (.bwe t b n) [.a] t s e s (toAll (tgt1 t) o.a)) ∧
      (∀ y, badvMany b.val side (min (n.val + 1) x.nslot) m = (y, 0) →
        Acts (.badv t b side n) [.a] t s e (updMem s e.c (fun _ => y)) (toAll (tgt1 t) o.a))) ∧
    (getBob m b.val = none → ∀ ins ∈ [Instr.bwf t b n, .bwe t b n, .badv t b side n],
      Acts ins [.a] t s e (addCount s e.c cntPoison 1) (toAll (tgt1 t) { o.a with psn := true })) ∧
    (Acts (.tstat t i) [.a] t s e s (gives (mapGet 0 m.tiles i.val).toNat)) ∧
    (o.a.psn = false → entryHeld s e i.val = false →
      Acts (.tset t i) [.a] t s e (updMem s e.c (fun y => { y with tiles := mapSet 0 y.tiles i.val (o.a.word.setWidth 2) }))
        (gives (mapGet 0 m.tiles i.val).toNat))) ∧
  (∀ (m : MHead) (x : Ext) (sp : Space) (lock wr load drop : Bool) (t : Tgt) (k : Fin 256) (od : Order) (s s1 : State) (e : Env)
    (va : Dword) (tgt a : Nat) (w : Bool) (p : Pend),
    let o := operands e.u
    let ok := result (tgt1 m.t) 0 false
    let pool := windowWords e.win k.val
    let gives (t : Tgt) (v : Nat) := result (tgt1 t) (BitVec.ofNat 32 v) false
    (o.a.psn = false → carryVa e.ctx.mem 0 o.a.word = some va → resolve s e.c va false = (.at tgt a w, s1) →
      Access (.cwb m x) [.a] m.t s e (writeBackRange s1 tgt a (extBytes x)) ok ∧
      (x ≠ .all → Access (.cflush m x) [.a] m.t s e (invalidateRange (writeBackRange s1 tgt a (extBytes x)) tgt a (extBytes x)) ok) ∧
      (tgt = 0 → focusEnv s = some e → Fresh e →
        (let r := pinAt s1 e a lock
         Access (.pin m lock) [.a] m.t s e (entered r.1 e.c (logKey e 0x7A va [boolWord lock]) [BitVec.ofNat 64 r.2]) (gives m.t r.2)) ∧
        (let r := unpinAt s1 e a lock
         Access (.unpin m lock) [.a] m.t s e (entered r.1 e.c (logKey e 0x7B va [boolWord lock]) [BitVec.ofNat 64 r.2])
          (gives m.t r.2)))) ∧
    (Issues (.cflush m .all) (fun y => InTurn y (.cflush m .all)) [.a] m.t s e (askBoundary s e.c .dev (.program e.i))
      (pendOf o e.ctx.phase 0 1)) ∧
    (p.phase < e.ctx.phase → Resumes (.cflush m x) s e p s ok) ∧
    (Access (.cinv m sp .all) [.a] m.t s e (updMem s e.c (fun y => { y with stageG := [], stageS := [] })) ok) ∧
    (x ≠ .all → o.a.psn = false → carryVa e.ctx.mem 0 o.a.word = some va →
      Access (.cinv m .g x) [.a] m.t s e (updMem s e.c (fun y => { y with
        stageG := dropStaged y.stageG (va.toNat / extBytes x * extBytes x) (extBytes x) })) ok) ∧
    (focusEnv s = some e → Fresh e → od.rel = false →
      (let r := mapwDo s e pool.1 pool.2.1 pool.2.2 wr load
       Command (.mapw t k od wr load) [.a] t s e (entered r.1 e.c (logKey e 0x7C pool.1
        [BitVec.ofNat 32 pool.2.1, BitVec.ofNat 32 pool.2.2, boolWord wr, boolWord load]) [BitVec.ofNat 64 r.2]) (gives t r.2)) ∧
      (let r := unmapwDo s e pool.2.1 drop
       Command (.unmapw t k od drop) [.a] t s e (entered r.1 e.c (logKey e 0x7D pool.1
        [BitVec.ofNat 32 pool.2.1, BitVec.ofNat 32 pool.2.2, boolWord drop]) [BitVec.ofNat 64 r.2]) (gives t r.2))) ∧
    (od.rel = true → Issues (.mapw t k od wr load) OpenPhase [.a] t s e s (pendOf o (relMark e.ctx od.scope) 0 0)))

/-- R185, R188, R190: the slots of a defined bobbin go round: a fill takes the empty slot at TAIL, a consumer the ready slot
at HEAD, and each moves its pointer to the next slot; BADV makes a slot ready at TAIL, or empties one at HEAD. -/
def Obligations.BobbinPointers : Prop :=
  ∀ (m : CtxMem) (k : Nat) (b : Bobbin), getBob m k = some b → 0 < b.nslot → b.head < b.nslot → b.tail < b.nslot →
    let next (p : Nat) : Nat := if p + 1 = b.nslot then 0 else p + 1
    ((takeFill m k b).isSome = true ↔ slotState m b b.tail = 0) ∧
    ((takeDrain m k b).isSome = true ↔ slotState m b b.head = 2) ∧
    (∀ j m', takeFill m k b = some (j, m') → j = b.tail ∧ ∃ x, getBob m' k = some x ∧ x.tail = next b.tail ∧ x.head = b.head ∧
      slotState m' b j = 1 ∧ ∀ i, i ≠ j → slotState m' b i = slotState m b i) ∧
    (∀ j m', takeDrain m k b = some (j, m') → j = b.head ∧ ∃ x, getBob m' k = some x ∧ x.head = next b.head ∧ x.tail = b.tail ∧
      slotState m' b j = 3 ∧ ∀ i, i ≠ j → slotState m' b i = slotState m b i) ∧
    (∀ m', badvOne m k b true = some m' → slotState m b b.tail = 0 ∧ slotState m' b b.tail = 2 ∧
      ∃ x, getBob m' k = some x ∧ x.tail = next b.tail ∧ x.head = b.head) ∧
    (∀ m', badvOne m k b false = some m' → (slotState m b b.head = 2 ∨ slotState m b b.head = 3) ∧
      (mapWf 0 m.tiles = true → slotState m' b b.head = 0) ∧ ∃ x, getBob m' k = some x ∧ x.head = next b.head ∧ x.tail = b.tail)

/-- R193: the status of PIN, in its order, and what it leaves; UNPIN takes back one pin of the frame and kind that its node holds, and
gives 3 where there is none; after a PIN that succeeds it leaves frames, locks, pins and memory as they were. -/
def Obligations.PinsCounted : Prop :=
  ∀ (s : State) (e : Env) (addr : Nat) (lock : Bool), focusEnv s = some e →
    let f := getFrame s (frameOf addr)
    let r := pinAt s e addr lock
    (r.2 = 1 ↔ f.state ≠ 0) ∧ (r.2 = 2 ↔ f.state = 0 ∧ f.pins = 4095) ∧
    (r.2 = 3 ↔ f.state = 0 ∧ f.pins ≠ 4095 ∧ 64 ≤ e.ctx.pins.length) ∧
    (r.2 = 1 ∨ r.2 = 2 ∨ r.2 = 3 → r.1 = s) ∧
    (r.2 = 0 ∨ r.2 = 5 → lock = false ∨ PlainMemory s ∧ s.mem.soft = [] → (getFrame r.1 (frameOf addr)).pins.toNat = f.pins.toNat + 1 ∧
      (∀ g, g ≠ frameOf addr → getFrame r.1 g = getFrame s g) ∧ SameMemory s r.1) ∧
    (r.2 = 5 → lock = true) ∧ (lock = true → f.ms = true → r.2 ≠ 0) ∧ (lock = true → r.2 = 0 → lockKey 0 addr ∈ r.1.mem.locked) ∧
    (let v := unpinAt s e addr lock;
      (v.2 = 3 ↔ ∀ p ∈ e.ctx.pins, ¬(p.1 = frameOf addr ∧ p.2.1 = lock)) ∧ (v.2 = 3 → v.1 = s) ∧
      (v.2 ≠ 3 → v.2 = 0 ∧ ∃ p ∈ e.ctx.pins, p.1 = frameOf addr ∧ p.2.1 = lock ∧
        (mapWf Frame.init s.mem.frames = true → (getFrame v.1 (frameOf addr)).pins.toNat = f.pins.toNat - 1 ∧
          (∀ g, g ≠ frameOf addr → getFrame v.1 g = getFrame s g)) ∧ SameMemory s v.1 ∧
        v.1.mem.locked = (match p.2.2 with | some sb => s.mem.locked.erase sb | none => s.mem.locked) ∧
        getCtx v.1 e.c = some { e.ctx with pins := e.ctx.pins.erase p })) ∧
    (r.2 = 0 → lock = false ∨ PlainMemory s ∧ s.mem.soft = [] → mapWf Frame.init s.mem.frames = true →
      ∃ e1, focusEnv r.1 = some e1 ∧
        let v := unpinAt r.1 e1 addr lock
        v.2 = 0 ∧ (∀ g, getFrame v.1 g = getFrame s g) ∧ SameMemory s v.1 ∧ (∀ x, v.1.mem.locked.count x = s.mem.locked.count x) ∧
        ∃ x, getCtx v.1 e.c = some x ∧ ∀ p, x.pins.count p = e.ctx.pins.count p)

/-! ### Group 0x8: the sea -/

/-- R262, R263, R265, R271 to R273: FUSE, UNFUSE, WSWAP, EDLY, SKEWC and SEAQ complete with their status or word, and
leave the array as their rule says. Where the manual leaves a point open it states the model's choice (assumption log
31). -/
def Obligations.SeaConfigures : Prop :=
  ∀ (t : Tgt) (k : Fin 256) (y z : Fin 4) (r item : Fin 8) (s : State) (e : Env) (p : Pend),
    let o := operands e.u
    let a := getArr e.ctx y.val
    let word := poolWord e.win k.val
    let rect := rectWord word
    let ves := freeDrains e.ctx (winNve e.win)
    let gives (v : Nat) := result (tgt1 t) (BitVec.ofNat 32 v) false
    let need := (rect.2.2.1 + 3) / 4
    let meets : Prop := ∃ b ∈ e.ctx.sea.arrays, b.fused = true ∧ rectsMeet rect (arrRect b) = true
    let stays : Prop := ∀ n, arrayLeaving e n = false
    (a.fused = true → Acts (.fuse t k y) [.a] t s e s (gives 3)) ∧
    (a.fused = false → meets → Acts (.fuse t k y) [.a] t s e s (gives 2)) ∧
    (a.fused = false → ¬ meets → ves.length < need → Acts (.fuse t k y) [.a] t s e s (gives 4)) ∧
    (a.fused = false → ¬ meets → need ≤ ves.length →
      Acts (.fuse t k y) [.a] t s e (updArr s e.c y.val (fun _ => fusedArray rect (ves.take need))) (gives 0)) ∧
    (a.fused = false → Acts (.unfuse t y) [.a] t s e s (gives 3)) ∧
    (a.fused = true → e.ctx.boundary = none → arrayIdle e y.val = true → Issues (.unfuse t y) free [.a] t s e
      (addCount (askBoundary s e.c .dev (.unfuse y.val)) e.c cntInserted 1) (pendOf o e.ctx.phase 0 1)) ∧
    (p.phase < e.ctx.phase → Resumes (.unfuse t y) s e p s (gives 0)) ∧
    (stays → a.fused = true → a.swap = none →
      Acts (.wswap t r y) [.a] t s e (updArr s e.c y.val (fun b => { b with swap := some r.val })) (gives 0)) ∧
    (a.fused = false → Acts (.wswap t r y) [.a] t s e (addCount s e.c cntPoison 1) (result (tgt1 t) 0 true)) ∧
    (let a1 := { a with wadd := wbits word 5 0, sadd := wbits word 13 8 }
     stays → Acts (.edly t k y) [.a] t s e (if a.fused = true ∧ countersFit s e.c a1 = true then updArr s e.c y.val (fun _ => a1) else s)
      (gives (if a.fused = false then 3 else if countersFit s e.c a1 = false then 1 else 0))) ∧
    (stays → skewStatus e.ctx y.val z.val ≠ 0 → Acts (.skewc t false z y) [.a] t s e s (gives (skewStatus e.ctx y.val z.val))) ∧
    (stays → skewStatus e.ctx y.val z.val = 0 →
      Acts (.skewc t false z y) [.a] t s e (updArr s e.c y.val (fun b => { b with skew := some z.val })) (gives 0)) ∧
    (∀ b, stays → a.skew = some b → (getArr e.ctx b).skewIn = [] → drainStalled e.win y.val = false →
      Acts (.skewc t true z y) [.a] t s e (updArr s e.c y.val (fun b => { b with skew := none })) (gives 0)) ∧
    (a.skew = none → Acts (.skewc t true z y) [.a] t s e s (gives 3)) ∧
    (∀ v, o.a.psn = false → seaqWord s e a item.val o.a.word.toNat = some v → Acts (.seaq t item y) [.a] t s e s (gives v)) ∧
    (o.a.psn = true ∨ seaqWord s e a item.val o.a.word.toNat = none →
      Acts (.seaq t item y) [.a] t s e (addCount s e.c cntPoison 1) (result (tgt1 t) 0 true))

/-- R249, R250, R254, R267 to R270: the accumulator instructions complete: ACCZ clears its rows; ACCRD emits one value; ACCDR
drains its rows and, without KEEP, clears them, to its target or onto its circuit, where rows wait for room; ACCSV stages rows in scratch and ACCRS loads them. Where the manual
leaves a point open it states the model's choice (assumption log 31). -/
def Obligations.AccumulatorsComplete : Prop :=
  ∀ (t : Tgt) (h : DHead) (k : Fin 256) (y : Fin 4) (keep w64b : Bool) (r : Rnd) (s s1 s2 : State) (e : Env) (l : List Line)
    (drained left : List (List Token)) (p : Pend),
    let o := operands e.u
    let range := accRange (poolWord e.win k.val)
    let off := (poolWord e.win (k.val + 1)).toNat
    let rows := accInside e.win range
    let zero := result (tgt1 t) 0 false
    let counted := addCount s e.c cntPoison (accBeyond e.win range)
    let d := drainFmt (poolWord e.win (k.val + 1))
    (Acts (.accz t k) [.a] t s e
      (addCount (clearRows s e.c (rows.map (range.1 + ·))) e.c cntPoison (accBeyond e.win range)) zero) ∧
    (let bad (e : Env) (o : Operands) : Bool :=
      o.a.psn || o.b.psn || decide (winAccRows e.win ≤ o.a.word.toNat) || decide (512 ≤ o.b.word.toNat)
     let acc (e : Env) (o : Operands) := getAcc e.ctx o.a.word.toNat
     Fires (.accrd h w64b r) free [.a, .b] (headTgts h) h.pred (fun s e o => addCount s e.c cntPoison (b2n (bad e o))) (fun e o =>
      seqAll (headTgts h) ((accrdWords w64b r (if bad e o || (acc e o).psn then 0 else mapGet 0 (acc e o).vals o.b.word.toNat)).map
        (scalarTok · (bad e o || (acc e o).psn))))) ∧
    ((getArr e.ctx y.val).fused = true → drainStalled e.win y.val = false → arrayLeaving e y.val = false →
      accdrRows e y.val d o.a range.1 keep (List.range range.2) (addCount s e.c cntPoison (b2n o.a.psn)) [] = (s1, drained) →
      let waiting (l : List (List Token)) : State := updSeaUnit s2 e (fun v => { v with rowsOut := l })
      (d.dst = false → Acts (.accdr t k keep y) [.a] t s e s1 (seqAll (tgt1 t) drained.flatten)) ∧
      (d.dst = true → (getArr e.ctx y.val).skew = none →
        Acts (.accdr t k keep y) [.a] t s e (addCount s1 e.c cntPoison 1) (toAll (tgt1 t) { o.a with psn := true })) ∧
      (d.dst = true → (getArr e.ctx y.val).skew ≠ none → accdrEnter e.c y.val drained s1 = (s2, left) →
        (left = [] → Acts (.accdr t k keep y) [.a] t s e (waiting []) (toAll (tgt1 t) o.a)) ∧
        (left ≠ [] → Issues (.accdr t k keep y) free [.a] t s e (waiting left) (pendOf o 0 0 1)))) ∧
    (accdrEnter e.c y.val e.u.sea.rowsOut s = (s2, []) →
      Resumes (.accdr t k keep y) s e p (updSeaUnit s2 e (fun v => { v with rowsOut := [] })) (toAll (tgt1 t) p.a)) ∧
    (stageLines e.c (rows.flatMap (fun i => (List.range 64).map (fun j =>
        (off + 4096 * i + 64 * j, accLine (getAcc e.ctx (range.1 + i)) j))))
        (if keep then counted else clearRows counted e.c (rows.map (range.1 + ·))) = (s1, []) →
      Acts (.accsv t k keep) [.a] t s e (updSeaUnit s1 e (fun v => { v with save := [] })) zero) ∧
    (readLines e.c (rows.flatMap (fun i => (List.range 64).map (fun j => off + 4096 * i + 64 * j))) counted [] = (s1, l, true) →
      Acts (.accrs t k) [.a] t s e
        (updSeaUnit (accrsRows e.c (rows.map (range.1 + ·)) l s1) e (fun v => { v with blocks := [] })) zero)

/-- R247, R250, R256, R264, R266: WLOAD takes its blocks from tokens or from a slot, and emits a 0 with the last; MMA
and MMAO take a row of 16 h elements into the array, add its passes' values into the accumulator rows, poisoned and counted where
those lie beyond ACCROWS, or convert their sums, to the target or, with DST 1, onto the circuit, and emit; a marker passes the
array, goes onto the circuit of an MMAO with DST 1, takes a pending swap, and restarts the row counter at its rank. Where the
manual leaves a point open it states the model's choice (assumption log 13, 31, 32, 72). -/
def Obligations.SeaStreams : Prop :=
  ∀ (t : Tgt) (k : Fin 256) (y : Fin 4) (mrank : Fin 8) (src : MmaSrc) (s : State) (e : Env) (x : Token),
    let a := getArr e.ctx y.val
    let word := poolWord e.win k.val
    MaySea s e → a.fused = true → arrayLeaving e y.val = false →
    (∀ strm, roomFor e (tgt1 t) = true → (e.u.sea.loading = true ∨ a.swap = none ∧ (idleSet a).used = false) →
      (strm = true → e.u.sea.slot = none → AtHead e x → x.isMk = false →
        exec (.wload t k strm y) s = .next (emitLoaded e t
          (loadBlock (takeA s e) e y.val (wloadPlanes word) { data := x.data, desc := x.desc, psn := x.psn }))) ∧
      (∀ j i b, e.u.sea.slot = some (j, i) → getBob e.ctx.mem j = some b →
        exec (.wload t k strm y) s = .next (
          let l := slotRead s e.c e.ctx.mem b i e.u.sea.taken
          let r := loadBlock l.2 e y.val (wloadPlanes word) l.1
          emitLoaded e t (slotTaken r.1 e j i b, r.2)))) ∧
    (16 * a.h ≤ e.u.sea.edge.length → roomFor e (tgt1 t) = true → drainStalled e.win y.val = false → s.hl.inj = [] →
      let row := e.u.sea.edge.take (16 * a.h)
      let r := rowPasses a (activeSet a) (row.map (·.1))
      let psn := row.any (·.2) || (activeSet a).psn
      let owed := owedAfter (16 * a.h) e.u.sea.owed
      let s1 := updArr (countEvents s e.c r.2) e.c y.val (fun b => setActive b { activeSet b with used := true })
      let after (n : Nat) (s2 : State) : State :=
        updSeaUnit (updMem s2 e.c (fun m => owed.1.foldl (fun m o => endDrain m o.1 o.2.1) m)) e (fun v =>
          { v with edge := v.edge.drop (16 * a.h), mr := v.mr + 1, rows := v.rows + 1, owed := owed.2, entered := n })
      let base := wbits word 15 0 + e.u.sea.mr.toNat * rowSpan a
      (base + rowSpan a ≤ winAccRows e.win →
        ∃ n, exec (.mma t k mrank src y) s = .next (sendFrom (after n (accAddRows s1 e.c y.val psn (rowSpan a) base r.1)) e
          (result (tgt1 t) (BitVec.ofNat 32 base) false))) ∧
      (winAccRows e.win < base + rowSpan a →
        ∃ n, exec (.mma t k mrank src y) s = .next (sendFrom (after n (addCount s1 e.c cntPoison 1)) e
          (result (tgt1 t) (BitVec.ofNat 32 base) true))) ∧
      (∀ s2 toks, let d := drainFmt (poolWord e.win (k.val + 1))
        d.dst = false → circuitRoom e.ctx y.val = true →
        drainRow s1 e y.val d ((sumPasses r.1).map (fun v => (v, psn))) = (s2, toks) →
          ∃ n, exec (.mmao t k mrank src y) s = .next (sendFrom (after n s2) e (seqAll (tgt1 t) toks))) ∧
      (∀ s2 toks, let d := drainFmt (poolWord e.win (k.val + 1))
        let m := e.u.sea.mr.zeroExtend 32
        d.dst = true → circuitRoom e.ctx y.val = true →
        drainRow s1 e y.val d ((sumPasses r.1).map (fun v => (v, psn))) = (s2, toks) →
          (∀ s3, enterCircuit s2 e.c y.val toks = some s3 →
            ∃ n, exec (.mmao t k mrank src y) s = .next (sendFrom (after n s3) e (result (tgt1 t) m false))) ∧
          (enterCircuit s2 e.c y.val toks = none →
            ∃ n, exec (.mmao t k mrank src y) s = .next (sendFrom (after n (addCount s2 e.c cntPoison 1)) e (result (tgt1 t) m true))))) ∧
    (e.u.sea.edge = [] → 0 < a.h → src ≠ .skew → e.u.sea.slot = none → AtHead e x → x.isMk = true →
      roomFor e (tgt1 t) = true → drainStalled e.win y.val = false →
      let swapped := updArr (takeA s e) e.c y.val (swapAt x.rank.val)
      let passes (s1 : State) : State := sendFrom
        (updUnit s1 e.c e.i (fun u => markSeen e.win t.isNone false x.rank.val
          { u with sea := { u.sea with mr := if mrank.val ≤ x.rank.val then 0 else u.sea.mr } })) e
        (toAll (tgt1 t) (markerTok x.rank.val))
      exec (.mma t k mrank src y) s = .next (passes swapped) ∧
      exec (.mmao t k mrank src y) s = .next (passes
        (if (drainFmt (poolWord e.win (k.val + 1))).dst then (enterCircuit swapped e.c y.val [markerTok x.rank.val]).getD swapped
         else swapped)))

/-- R115, R119, R243: the passes of a set of P planes through a cell add up to the exact products of its lanes with signed
weights of P bits: pass j takes planes 4 j to 4 j + 3, and the last plane counts negative. -/
def Obligations.SeaExact : Prop :=
  ∀ (p : Nat) (planes : List Nat) (lanes : List Int) (n : Nat), 0 < p →
    let bitAt (i k : Nat) : Int := if planeBit (nth 0 planes i) k n then 1 else 0
    let weight (k : Nat) : Int := ((List.range (p - 1)).map (fun i => bitAt i k * 2 ^ i)).sum - bitAt (p - 1) k * 2 ^ (p - 1)
    ((List.range ((p + 3) / 4)).map (fun j => cellSum p planes lanes j n)).sum =
      (lanes.zipIdx.map (fun (a, k) => a * weight k)).sum

/-! ### Group 0x9: the vector engines -/

/-- R278 to R285, R298: the element-wise vector instructions complete: the operands read under their descriptors, or as scalars
that stand for every element, a poisoned scalar selecting b at VSEL, give the results of the rule, element by element, rounded once into the output format. -/
def Obligations.VectorLanesComplete : Prop :=
  ∀ (t : Tgt) (k : Fin 256) (bb bc : Bool) (c : Cond),
    let selects (i : Instr) (x : Slot) (tok : Token) : Token := match i, x with
      | .vsel .., .c => if tok.psn && !tok.vec then scalarTok 0 true else tok
      | _, _ => tok
    let Lanes (i : Instr) (sl : List (Slot × Bool)) (f : Vop → Machine.Num → Machine.Num → Machine.Num → Machine.Num) : Prop :=
      let given (e : Env) (o : Operands) :=
        veOperands (vopOf (poolWord e.win k.val)) (sl.map (fun x => (selects i x.1 (operandAt o x.1), x.2)))
      let map_ (e : Env) (o : Operands) :=
        veMap (vopOf (poolWord e.win k.val)) (given e o).1 (slotsPsn o (sl.map (·.1))) (f (vopOf (poolWord e.win k.val)))
      Fires i free (sl.map (·.1)) (tgt1 t) .always
        (fun s e o => countEvents (addCount s e.c cntPoison
          ((sl.filter (fun x => (operandAt o x.1).psn && !x.2)).length + b2n (map_ e o).2)) e.c (given e o).2)
        (fun e o => let v := vopOf (poolWord e.win k.val); seqAll (tgt1 t) (outTokens v.ofmt v.scale (map_ e o).1))
    Lanes (.vadd t k bb) [(.a, false), (.b, bb)] (fun v x y _ => x.add (v.rnd == .rdn) y) ∧
    Lanes (.vsub t k bb) [(.a, false), (.b, bb)] (fun v x y _ => x.add (v.rnd == .rdn) y.neg) ∧
    Lanes (.vmul t k bb) [(.a, false), (.b, bb)] (fun _ x y _ => x.mul y) ∧
    Lanes (.vfma t k bc bb) [(.a, false), (.b, bb), (.c, bc)] (fun v x y z => (x.mul y).add (v.rnd == .rdn) z) ∧
    Lanes (.vmin t k bb) [(.a, false), (.b, bb)] (fun _ x y _ => numMinMax false x y) ∧
    Lanes (.vmax t k bb) [(.a, false), (.b, bb)] (fun _ x y _ => numMinMax true x y) ∧
    Lanes (.vcmp t k c bb) [(.a, false), (.b, bb)] (fun _ x y _ => numCmp c x y) ∧
    Lanes (.vsel t k bc bb) [(.a, false), (.b, bb), (.c, bc)] (fun _ x y z => if z.isNan || z.isZero then y else x) ∧
    Lanes (.vexp2 t k) [(.a, false)] (fun _ x _ _ => x.exp2) ∧
    Lanes (.vrsq t k) [(.a, false)] (fun _ x _ _ => x.rsqrt) ∧
    Lanes (.vrcp t k) [(.a, false)] (fun _ x _ _ => x.recip)

/-- R280: a vector result leaves in full blocks in element order under its format's descriptor, the last one with a zero
tail; a block is poisoned when one of its elements is. -/
def Obligations.VectorPacking : Prop :=
  ∀ (f : Fmt) (scale : Nat) (l : List (Nat × Bool)) (q : Nat) (tok : Token),
    (∀ x ∈ l, x.1 < 2 ^ f.width) → (outTokens f scale l)[q]? = some tok →
      (outTokens f scale l).length = (l.length + f.count - 1) / f.count ∧
      tok.vec = true ∧ tok.isMk = false ∧ tok.sound = true ∧ tok.parityOk = true ∧
      tok.desc = BitVec.ofNat 16 (f.code + 256 * scale) ∧
      (∀ j, j < f.count → elemBits tok.data.toNat f.width j = ((l[q * f.count + j]?).map (·.1)).getD 0) ∧
      (tok.psn = true ↔ ∃ j, j < f.count ∧ ((l[q * f.count + j]?).map (·.2)) = some true)

/-- R286 to R295: VCVT, VQNT, VRED, VPERM and VBCST complete on a data token: the converted, quantised or reduced
elements, the units picked by the indices, or one element in every place; a VRED below its rank takes a marker and keeps
its group. Where the manual leaves a point open it states the model's choice (assumption log 18, 34). -/
def Obligations.VectorOthersComplete : Prop :=
  ∀ (t : Tgt) (k : Fin 256) (qs cont cols vec pool fromv : Bool) (rk : Fin 8) (op : RedOp) (g : Fin 4) (i : Fin 64) (s : State) (e : Env),
    let o := operands e.u
    let v := vopOf (poolWord e.win k.val)
    let cfg := countCfg (poolWord e.win (k.val + 1))
    let r := rowEvents s e cfg
    let x := convElems v qs e.u.ve o.a
    let Converts (ins : Instr) (conv : Vop → VeUnit → List Machine.Num → Bool → List Token × VeUnit × Ev) : Prop :=
      let y := conv v e.u.ve x.1 x.2.1
      Acts ins [.a] t s e (tileEvents (updVe (addCount r.2 e.c cntPoison (b2n o.a.psn)) e (fun u =>
        { y.2.1 with rowEv := u.rowEv, pos := if qs then y.2.1.pos + 1 else y.2.1.pos })) e ((x.2.2.add y.2.2).add r.1)) (seqAll (tgt1 t) y.1)
    (atSuper qs e.u.ve = false → Converts (.vcvt t k qs cont) (vcvtConv cont) ∧ Converts (.vqnt t k qs) vqntConv) ∧
    (atSuper qs e.u.ve = true → ∀ ins ∈ [Instr.vcvt t k qs cont, .vqnt t k qs],
      Acts ins [.a] t s e (tileEvents (updVe r.2 e (fun u => { u with super := some o.a, pos := u.pos + 1 })) e r.1) []) ∧
    (let l := redElems v cols o.a
     let y := redTake v op cols vec e.u.ve l.1 o.a.psn
     Acts (.vred t k rk op cols vec) [.a] t s e (countEvents (updVe (addCount (addCount s e.c cntPoison (y.2.2.1 + b2n o.a.psn))
      e.c cntMismatch y.2.2.2) e (fun _ => y.2.1)) e.c l.2) (seqAll (tgt1 t) y.1)) ∧
    (Joins (.vred t k rk op cols vec) free [.a] (tgt1 t) false
      (fun s e r => if r < rk.val then s else updVe s e redReset)
      (fun e r => if r < rk.val then []
        else seqAll (tgt1 t) (redResults (vopOf (poolWord e.win k.val)) op cols vec e.u.ve ++ [markerTok r]))) ∧
    (let w := unitWidth g.val o.a.desc
     (Acts (.vperm t k true g) [.a] t s e s (toAll (tgt1 t) (vectorTok
      (permute w o.a.data (fun n => (poolWord e.win (k.val + n / 4)).toNat / 256 ^ (n % 4) % 256)) o.a.desc o.a.psn))) ∧
     (Acts (.vperm t k false g) [.a, .b] t s e s (toAll (tgt1 t) (vectorTok
      (permute w o.a.data (fun n => elemBits o.b.data.toNat 8 n)) o.a.desc (o.a.psn || o.b.psn))))) ∧
    (Acts (.vbcst t k i true) [.a] t s e s (toAll (tgt1 t)
      (vectorTok (permute (permWidth o.a.desc) o.a.data (fun _ => i.val)) o.a.desc o.a.psn))) ∧
    (Acts (.vbcst t k i false) [.a] t s e s (toAll (tgt1 t) (vectorTok
      (BitVec.ofNat 512 (packElems 32 (List.replicate 16 o.a.word.toNat))) ((poolWord e.win k.val).setWidth 16) o.a.psn)))

/-! ### Group 0xA: the shuttle -/

/-- R302, R303, R306, R310, R318, R321, R322: a shuttle instruction issues its command, entered in the shuttle under the
next ticket, refused at once when its descriptor fails a check; when the command has completed its tokens leave. FREE
adds its credit, XSTAT reads a credit, the outstanding commands or the failed ones. Where the manual leaves a point open
it states the model's choice (assumption log 36, 37). -/
def Obligations.ShuttleIssues : Prop :=
  ∀ (t : Tgt) (k : Fin 256) (od : Order) (ofs planes : Bool) (op : ScatOp) (n : Fin 64) (tag : Fin 16) (v : Fin 3) (s : State)
    (e : Env),
    let o := operands e.u
    let Issued (i : Instr) (opc variant : Nat) (offs : Bool) (sl : List Slot) : Prop :=
      let x := cmdOf s e opc variant k.val od
      let x1 := if offs then addOffsets x o.a o.b else x
      let bad := offs && (o.a.psn || (opc == opCopy && o.b.psn))
      let x2 := if bad then (x1.mark stRefused).mark stPoison else if cmdOk s x1 then x1 else x1.mark stRefused
      let key : LogEntry := { kind := opc, block := e.ctx.draft.block, idx := e.i, addr := BitVec.ofNat 64 e.i
                              args := [tokArg o.a, tokArg o.b], ret := [] }
      (outstanding s e.c < 32 → fieldCmds s x.field < 512 → Issues i OpenPhase sl t s e
        (entered (enterCmd (addCount s e.c cntPoison (b2n bad)) x2) e.c key [BitVec.ofNat 64 x2.ticket])
        (pendOf o 0 (BitVec.ofNat 64 x2.ticket) 1)) ∧
      (∀ p y, MaySea s e → oldestDone s e.u.pend = some (p, y) → exec i s = .next
        (sendFrom (updUnit s e.c e.i (fun u => { u with pend := u.pend.erase p })) e (seqAll (tgt1 t) y.toks)))
    focusEnv s = some e → Fresh e →
    Issued (.copy t k od ofs) opCopy (b2n ofs) ofs (if ofs then [.a, .b] else [.a]) ∧
    Issued (.gath t k od) opGath 0 false [.a] ∧
    Issued (.scat t k od op) opScat (match op with | .write => 0 | .fadd => 1 | .add => 2) false [.a] ∧
    Issued (.mcast t k od ofs) opMcast (b2n ofs) ofs [.a] ∧
    Issued (.xconv t k od planes) opXconv (b2n planes) false [.a] ∧
    Issued (.relay t k od) opRelay 0 false [.a] ∧
    Acts (.free t n tag) [.a] t s e
      (entered (addCredit s e.c tag.val (n.val + 1)) e.c
        { kind := 0xA6, block := e.ctx.draft.block, idx := e.i, addr := BitVec.ofNat 64 e.i, args := [tokArg o.a], ret := [] } [])
      (toAll (tgt1 t) o.a) ∧
    (o.a.psn = false → Acts (.xstat t v) [.a] t s e s (result (tgt1 t) (match v.val with
      | 0 => (mapGet 0 e.ctx.credits (o.a.word.toNat % 16)).zeroExtend 32
      | 1 => BitVec.ofNat 32 (outstanding s e.c)
      | _ => e.ctx.errCmds) false))

/-! ### Group 0xB: channels -/

/-- R328, R330, R335: a token pushed into the ring comes out of its slot as it went in, scalar or vector, and no other
slot's token changes. Where the manual leaves a point open it states the model's choice (assumption log 40). -/
def Obligations.ChannelRing : Prop :=
  ∀ (s : State) (c : Chan) (i : Nat) (tok : Token) (v : Word) (w : Bits512) (d : Desc) (psn : Bool) (r : Nat),
    s.mem.soft = [] → s.mem.marks = [] → (∀ j, keyTgt j = 3 → mapFind s.mem.dirty j = none) → s.chu.pool.wf = true → s.chu.pool.psn = [] →
    mapWf 0 s.chu.tags = true → (c.esz = false → ∀ n, isSubst (s.chu.pool.readLine n).desc = false) →
    c.rbase.toNat % 64 = 0 → r < 7 → i < 2 ^ 32 →
    (tok = markerTok r ∨ c.esz = false ∧ tok = scalarTok v psn ∨ c.esz = true ∧ tok = vectorTok w d psn) →
      (ringRead (ringWrite s c i tok) c i).1 = some tok ∧
      ∀ j, j ≠ i → j < 2 ^ 32 → (ringRead (ringWrite s c i tok) c j).1 = (ringRead s c j).1

/-- R335, R346 to R354: the channel instructions complete: PUSH enters its token while the channel has room; POP takes
and PEEK reads the token at its head, or a marker of rank 6 when it has ended; PUSHB and POPB move slots; the others
give the channel unit's status or word. Where the manual leaves a point open it states the model's choice (assumption
log 38, 39, 40). -/
def Obligations.ChannelsComplete : Prop :=
  ∀ (t : Tgt) (k ep : Fin 256) (pr : Pred) (add fin : Bool) (v : Fin 4) (s : State) (e : Env) (b : Endpoint),
    let o := operands e.u
    let c := getChan s b.chid
    let gives (v : Nat) := result (tgt1 t) (BitVec.ofNat 32 v) false
    let chep := chepWord e.win k.val
    focusEnv s = some e → s.chu.en = true →
    (endAt e ep.val = some b → c.bad = false → pushLive e c = true → pushRoom c = true →
      (MayFire s e ([.a] ++ predSlots pr) (tgt1 t) → predActive pr o = true →
        exec (.push t ep pr) s = .next (finish (notePred (chPush s b.chid o.a) e pr) e ([.a] ++ predSlots pr) (gives 0))) ∧
      (pr = .always → MayJoin s e [.a] (tgt1 t) → exec (.push t ep pr) s = .next
        (finish (updUnit (chPush s b.chid (markerTok o.a.rank.val)) e.c e.i (markSeen e.win (tgt1 t).isEmpty false o.a.rank.val)) e [.a]
          (toAll (tgt1 t) (markerTok o.a.rank.val))))) ∧
    (∀ take s1 x, popFrom s e ep.val take = .tok x s1 →
      (take = true → Acts (.pop t ep true) [.a] t s e s1 (toAll (tgt1 t) x)) ∧
      (take = true → e.u.ended = false → Acts (.pop t ep false) [] t s e s1 (toAll (tgt1 t) x)) ∧
      (take = false → Acts (.peek t ep) [.a] t s e s1 (toAll (tgt1 t) x))) ∧
    (∀ take s1, popFrom s e ep.val take = .ends s1 →
      (take = true → Acts (.pop t ep true) [.a] t s e s1 (toAll (tgt1 t) (markerTok 6))) ∧
      (take = true → e.u.ended = false → Acts (.pop t ep false) [] t s e
        (updUnit s1 e.c e.i (fun u => { u with ended := true })) (toAll (tgt1 t) (markerTok 6))) ∧
      (take = false → Acts (.peek t ep) [.a] t s e s1 (toAll (tgt1 t) (markerTok 6)))) ∧
    (∀ x s0, getBob e.ctx.mem chep.1 = some x → scalarEnd s e chep.2 = (false, s0) →
      (slotState e.ctx.mem x x.head = 2 → ∃ m, takeDrain e.ctx.mem chep.1 x = some (x.head, m) ∧
        Issues (.pushb t k) OpenPhase [.a] t s e (updMem s0 e.c (fun _ => m)) (slotHold o x.head)) ∧
      (slotState e.ctx.mem x x.tail = 0 → ∃ m, takeFill e.ctx.mem chep.1 x = some (x.tail, m) ∧
        Issues (.popb t k) OpenPhase [.a] t s e (updMem s0 e.c (fun _ => m)) (slotHold o x.tail)) ∧
      (∀ p, endAt e chep.2 = some b → c.bad = false → pushLive e c = true → pushRoom c = true → slotBlocks x ≤ holdDone p + 1 →
        let read (u : State) := slotRead u e.c e.ctx.mem x (holdSlot p) (holdDone p)
        let l := (read s).1
        Resumes (.pushb t k) s e p (updMem (read (chPush s b.chid (vectorTok l.data l.desc l.psn))).2 e.c
          (fun m => endDrain m chep.1 (holdSlot p))) (gives (holdSlot p))) ∧
      (∀ p y s1, p.step = 1 → popFrom s e chep.2 true = .tok y s1 → y.isMk = false → slotBlocks x ≤ holdDone p + 1 →
        Resumes (.popb t k) s e p (updMem (slotFill s1 e.c x (holdSlot p) (holdDone p)
          { data := y.data, desc := y.desc, psn := y.psn }) e.c (fun m => endFill m chep.1 (holdSlot p))) (gives (holdSlot p)))) ∧
    (endAt e ep.val = some b → c.bad = false → b.ending = false → endHeld s e b = true →
      Acts (.chend t fin ep) [.a] t s e
        (updCtx s e.c (fun x => { x with ends := modNth (fun b => { b with ending := true, fin := fin }) x.ends ep.val })) (gives 0)) ∧
    (endAt e ep.val = none → Acts (.chend t fin ep) [.a] t s e s (gives 1)) ∧
    (o.a.psn = false → Fresh e →
      Issues (.chopen t k) OpenPhase [.a] t s e (askBoundary s e.c .dev (.program e.i)) (pendOf o e.ctx.phase 0 1) ∧
      (let r := chgrowDo s e (epWord e.win k) add o.a.word
       Command (.chgrow t k add) [.a] t s e (entered r.1 e.c (logKey e 0xB8 (BitVec.ofNat 64 (epWord e.win k))
        [o.a.word, boolWord add]) [BitVec.ofNat 64 r.2]) (gives r.2)) ∧
      (let r := chDefine (useChan s (chanNum o.a.word)).2 (chanNum o.a.word) (chdefChan e.win k.val)
       Command (.chdef t k) [.a] t s e (entered r.1 e.c (logKey e 0xB9 (BitVec.ofNat 64 k.val) [o.a.word]) [BitVec.ofNat 64 r.2])
        (gives r.2)) ∧
      (let r := chFreeDo s (chanNum o.a.word)
       Command (.chfree t) [.a] t s e (entered r.1 e.c (logKey e 0xBA 0 [o.a.word]) [BitVec.ofNat 64 r.2]) (gives r.2)) ∧
      (let r := useChan s (chanNum o.a.word)
       Command (.chstat t v) [.a] t s e r.2 (gives (chstatWord v.val r.1)))) ∧
    (∀ p, p.phase < e.ctx.phase → p.a.psn = false → Fresh e →
      let r := chopenDo s e (epWord e.win k) (chanNum p.a.word)
      Resumes (.chopen t k) s e p (logAppend (if r.2 = 0 then bindEnd r.1 e.c (epWord e.win k) (chanNum p.a.word) else r.1) e.c
        { chopenKey e (epWord e.win k) p.a.word with ret := [BitVec.ofNat 64 r.2] }) (gives r.2))

/-! ### Group 0xC: memory-side units -/

/-- R234, R369 to R377: the memory-side instructions complete: the operation at the address, in one step on the committed
value, logged; MATOM and MCAS emit the old value, and an MCAS
whose compare fails writes nothing; MTAS its bit, MCNT the count; MRED reduces its token into the block
there, and emits its status; FRAMEM converts its frames. Where the manual leaves a point open it states the model's
choice (assumption log 5). -/
def Obligations.MemSideCompletes : Prop :=
  ∀ (m : MHead) (bsel : Fin 4) (aop : Fin 16) (cop : Fin 4) (flag norm : Bool) (t : Tgt) (k : Fin 256) (od : Order) (op : MredOp)
    (s s1 s2 s3 : State) (e : Env) (va : Dword) (old tgt a st : Nat) (w : Bool) (l : Line) (new_ : Option Bits512) (ev : Ev),
    let o := operands e.u
    let lo := BitVec.ofNat 32 old
    let wide := o.c.word.toNat * 2 ^ 32 + o.b.word.toNat
    let Unit (i : Instr) (kind align size : Nat) (sl : List Slot) (at_ : Dword)
        (new : Option (Nat → Option Nat)) (out : List Word) : Prop :=
      formVa e bsel o.a = some va → va.toNat % align = 0 → (∀ x ∈ sl, (operandAt o x).psn = false) →
      (match new with | some f => atomicMay s e at_ size f | none => atomicRead s e at_ size) = .done old s1 →
        Access i sl m.t s e (entered s1 e.c (firingKey e kind (some at_) sl o) [BitVec.ofNat 64 old]) (emitWords m.t out)
    let b := o.b.word
    let j := o.b.word.toNat % 8
    focusEnv s = some e → Fresh e →
    (aop.val < 12 → Unit (.matom m bsel aop) 0xC0 4 4 [.a, .b] va
      (some (fun x => some (atomNew aop.val (BitVec.ofNat 32 x) b).toNat))
      [lo]) ∧
    (12 ≤ aop.val → Unit (.matom m bsel aop) 0xC0 8 8 [.a, .b, .c] va (some (fun x => some (
        if aop.val = 12 then (x + wide) % 2 ^ 64 else if aop.val = 13 then max x wide else if aop.val = 14 then min x wide else wide)))
      [lo, BitVec.ofNat 32 (old / 2 ^ 32)]) ∧
    (Unit (.mcas m bsel flag) 0xC1 4 4 [.a, .b, .c] va (some (fun x => if x = b.toNat then some o.c.word.toNat else none))
      [if flag then boolWord (old == b.toNat) else lo]) ∧
    (Unit (.mtas m bsel flag) 0xC2 8 1 [.a, .b] (va + BitVec.ofNat 64 (b.toNat / 8))
      (some (fun x => some (x - x / 2 ^ j % 2 * 2 ^ j + (if flag then 0 else 2 ^ j)))) [BitVec.ofNat 32 (old / 2 ^ j % 2)]) ∧
    (Unit (.mcnt m bsel 0) 0xC4 8 8 [.a, .b] va (some (fun x => some (BitVec.ofNat 64 x + b.signExtend 64).toNat))
      [BitVec.ofNat 32 (BitVec.ofNat 64 old + b.signExtend 64).toNat]) ∧
    (Unit (.mcnt m bsel 2) 0xC4 8 8 [.a] va (some (fun _ => some 0)) [lo]) ∧
    (cop = 1 ∨ cop = 3 → Unit (.mcnt m bsel cop) 0xC4 8 8 [.a] va none [if cop = 3 then BitVec.ofNat 32 (old / 2 ^ 32) else lo]) ∧
    (let x := mredWords e.win k.val
     let line := lineKey tgt a
     let written (u : State) : State := if od.scope = .sys then writeBack u line else u
     od.rel = false → o.a.psn = false → o.a.word.toNat % 64 = 0 → va = mredVa x o.a → (isFirmware e.c || canonical va) = true →
     resolve s e.c va true = (.at tgt a w, s1) → portOp s1 e.c (some e.i) line = (true, s2) → readLine s2 line = (l, s3) →
     mredLine op x l o.b = (new_, st, ev) →
       let s4 := match new_ with
         | some v => written (nodeWrite s3 e.c line (BitVec.allOnes 64) v (some l.desc))
         | none => if l.psn then poisonedHalf s2 s3 line else s3
       Access (.mred t k od op) [.a, .b] t s e
        (entered (addEv (addCount s4 e.c cntPoison (st / 16 % 2)) e.c ev) e.c (mredKey e va o) [BitVec.ofNat 64 st])
        (result (tgt1 t) (BitVec.ofNat 32 st) false)) ∧
    (let v := (poolWord e.win k.val).toNat + wbits (poolWord e.win (k.val + 1)) 22 0 * 2 ^ 32
     let r := framemDo (!norm) (v / 65536) (wbits (poolWord e.win (k.val + 2)) 15 0 + 1) s
     Access (.framem t k norm) [.a] t s e
      (entered r.1 e.c (logKey e 0xC5 (BitVec.ofNat 64 v) [poolWord e.win (k.val + 2), boolWord norm]) [BitVec.ofNat 64 r.2])
      (result (tgt1 t) (BitVec.ofNat 32 r.2) false))

/-! ### Group 0xD: the dispatcher -/

/-- R387 to R391: LAUNCH gives the status of its record's checks, 8 when the node has no entry left for a child, and
with `.rel` waits for its phase; NODEQ and PWRQ read; YIELD ends a core's slice, or answers that no rival waits, that
the node may not be pre-empted or is being moved, or waits for its pre-emption. Where the manual leaves a point open it states the model's
choice (assumption log 45, 69). -/
def Obligations.DispatcherCompletes : Prop :=
  ∀ (t : Tgt) (k : Fin 256) (od : Order) (ofs force : Bool) (i8 : Fin 8) (i6 : Fin 6) (s : State) (e : Env) (p : Pend) (n : Node)
    (id : Nat),
    let o := operands e.u
    let gives (v : Nat) := result (tgt1 t) (BitVec.ofNat 32 v) false
    let va := launchVa e.win k.val ofs o.a
    (focusEnv s = some e → Fresh e →
      (launchFull s e.c = true → Command (.launch t k od ofs) [.a] t s e (refuseLaunch s e.c) (gives 8)) ∧
      (launchFull s e.c = false → od.rel = true →
        Issues (.launch t k od ofs) OpenPhase [.a] t s e s (pendOf o (relMark e.ctx od.scope) 0 0)) ∧
      (launchFull s e.c = false → od.rel = false →
        let r := launchAt s e.c va.1 va.2
        Command (.launch t k od ofs) [.a] t s e (entered r.1 e.c (launchKey e va.1 va.2) [BitVec.ofNat 64 r.2]) (gives r.2))) ∧
    (Acts (.nodeq t 2) [.a] t s e s (gives (getDraft s e.c).block)) ∧
    (Acts (.nodeq t 5) [.a] t s e s (gives (placeWordOf s e.c))) ∧
    (Acts (.nodeq t 6) [.a] t s e s (gives (fieldsWord s e.c))) ∧
    (e.c = .node id → getNode s id = some n →
      (i8 ≠ 2 → i8 ≠ 5 → i8 ≠ 6 → Acts (.nodeq t i8) [.a] t s e s (gives (nodeItem n (ctxCore s e.c).isSome i8.val))) ∧
      (∀ c, ctxCore s e.c = some c → Acts (.yieldN t force) [.a] t s e (updCore s c (fun x => { x with yielded := true })) (gives 2)) ∧
      (ctxCore s e.c = none →
        (force = false → rivalWaits s n = false → Acts (.yieldN t force) [.a] t s e s (gives 0)) ∧
        ((force = true ∨ rivalWaits s n = true) → n.lrec.pre = false ∨ n.moving ≠ .none ∧ n.moving ≠ .replace →
          Acts (.yieldN t force) [.a] t s e s (gives 1)) ∧
        ((force = true ∨ rivalWaits s n = true) → n.lrec.pre = true → n.moving = .none ∨ n.moving = .replace →
          Issues (.yieldN t force) free [.a] t s e
            (updNode s id (fun m => { m with moving := .preempt (m.moving == .replace) })) (pendOf o 0 0 1)))) ∧
    (p.step = 3 → Resumes (.yieldN t force) s e p s (gives p.val.toNat)) ∧
    (Acts (.pwrq t i6) [.a] t s e s (gives (pwrItem s e.c i6.val)))

/-- R38, R46, R388: a record is refused with the cause of the first check that it fails, in the order 1, 2, 3, 4, 6, 5 of R46; one
that passes enters its node in the store; a LAUNCH that is refused leaves every node of the store as it was, but for its own count of
launches refused and its own event counts. -/
def Obligations.LaunchChecks : Prop :=
  ∀ (s : State) (bs : List Byte) (host : Bool), bs.length = 64 →
    let r := parseRec bs
    let c := checkRec s bs host
    let inRange (v : Dword) : Prop := v.toNat < 2 ^ 54 ∨ 2 ^ 64 - 2 ^ 54 ≤ v.toNat
    c = (if leNat (bs.drop 60) ≠ (crc32 (bs.take 60)).toNat then 1
      else if leNat (bs.take 8) / 4 % 64 ≠ 0 ∨ leNat ((bs.drop 12).take 4) / 32 % 8 ≠ 0 then 2
      else if r.cls = 3 then 3
      else if r.id = 0xFFFFFFFF#32 ∨ (getNode s r.id.toNat).isSome = true then 4
      else if ¬(inRange r.draft ∧ inRange r.succ ∧ inRange r.tiles ∧ inRange r.save ∧ inRange r.counter ∧
        r.succ.toNat % 4 = 0 ∧ r.tiles.toNat % 16 = 0 ∧ r.save.toNat % 64 = 0 ∧ r.counter.toNat % 8 = 0) then 6
      else if host = true ∧ freeEntries s = 0 then 5 else 0) ∧
    (c = 0 → ∃ n, getNode (acceptRec s r) r.id.toNat = some n ∧ n.lrec = r ∧ n.exec = none ∧
      (n.st = if r.preds = 0 then .ready else .waiting) ∧
      ∀ id, id ≠ r.id.toNat → getNode (acceptRec s r) id = getNode s id) ∧
    (∀ c va ok, (launchAt s c va ok).2 ≠ 0 →
      let t := (launchAt s c va ok).1
      let rest (n : Node) : Node := { n with launchRefused := 0, ctx := { n.ctx with counts := [] } }
      t.dsp.nodes.map rest = s.dsp.nodes.map rest ∧ (∀ id, c ≠ .node id → getNode t id = getNode s id) ∧
      t.dsp.lrefused = s.dsp.lrefused + 1)

/-! ### Group 0xE: the control cores -/

/-- R419 to R434: in firmware TRAP takes its trap and waits for the value that it returns; RTE marks the handler's
window, or at level 0 traps; CSRRD and CSRWR read and write their register, or trap at a number with none; TLBI drops
its pages' translations; WFE completes at an event of its mask. JMPB, CALLB and RETB record their jump; TQPOST posts the
record it reads, at once with `.nw`; TQACK acknowledges; SIGCHK starts its check and gives its status; FWSWAP has every
core switch. Where the manual leaves a point open it states the model's choice (assumption log 24, 43, 44, 58). -/
def Obligations.CoresComplete : Prop :=
  (∀ (t : Tgt) (m : MHead) (bsel : Fin 4) (x : TlbExt) (cause : BitVec 15) (n : BitVec 12) (mask : BitVec 6) (s : State) (e : Env)
    (p : Pend) (k : Fin 16) (l : Fin 3) (va : Dword),
    let o := operands e.u
    let zero := result (tgt1 t) 0 false
    let seen := evtPend s k.val &&& mask.zeroExtend 32
    e.c = .fw k l →
    (Issues (.trap t cause) free [.a] t s e (takeTrap s k.val l.val 0x01 (some e.i) (cause.zeroExtend 32)) (pendOf o 0 0 1)) ∧
    (p.step = 2 → Resumes (.trap t cause) s e p s (result (tgt1 t) (BitVec.ofNat 32 p.val.toNat) false)) ∧
    (l ≠ 0 → Acts (.rte t) [.a] t s e (updCore s k.val (fun c => setCoreWin c l.val { coreWin c l.val with marked := true })) (toAll (tgt1 t) o.a)) ∧
    (l = 0 → Acts (.rte t) [.a] t s e (takeTrap s k.val 0 0x06 (some e.i) 0) (toAll (tgt1 t) o.a)) ∧
    (csrTraps s k.val n.toNat = false →
      Acts (.csrrd t n) [.a] t s e (csrRead s k.val n.toNat).2 (result (tgt1 t) (csrRead s k.val n.toNat).1 false) ∧
      (o.a.psn = false → Acts (.csrwr t n) [.a] t s e (csrWrite s k.val n.toNat o.a.word) zero)) ∧
    (csrTraps s k.val n.toNat = true → o.a.psn = false →
      Acts (.csrwr t n) [.a] t s e (takeTrap (setLatch s k.val none) k.val l.val 0x02 (some e.i) (n.zeroExtend 32)) zero) ∧
    (csrTraps s k.val n.toNat = true → ∃ v, Acts (.csrrd t n) [.a] t s e
      (takeTrap (takeFree (setLatch s k.val none)).2 k.val l.val 0x02 (some e.i) (n.zeroExtend 32)) (result (tgt1 t) v false)) ∧
    (o.a.psn = true → Acts (.csrwr t n) [.a] t s e s (result (tgt1 t) 0 true)) ∧
    (o.a.psn = false → carryVa e.ctx.mem bsel.val o.a.word = some va →
      let page := va.toNat / 2 ^ 16 % 2 ^ 39
      let range := match x with
        | .page => (page, 1)
        | .large => (page / 2 ^ 13 * 2 ^ 13, 2 ^ 13)
        | .all => (0, 2 ^ 39)
      let kept (l : List TlbEntry) : List TlbEntry := l.filter (fun y =>
        decide (y.page + (if y.large then 2 ^ 13 else 1) ≤ range.1) || decide (range.1 + range.2 ≤ y.page))
      Access (.tlbi m bsel x) [.a] m.t s e
        { s with xl := { s.xl with tlb := s.xl.tlb.map kept, micro := s.xl.micro.map (fun p => (p.1, kept p.2)) } }
        (result (tgt1 m.t) 0 false)) ∧
    (seen ≠ 0 → Acts (.wfe t mask) [.a] t s e s (result (tgt1 t) seen false) ∧
      Resumes (.wfe t mask) s e p s (result (tgt1 t) seen false)) ∧
    (seen = 0 → Issues (.wfe t mask) free [.a] t s e s (pendOf o 0 0 1))) ∧
  (∀ (t : Tgt) (kx : Fin 256) (acq nw : Bool) (sc : Scope) (key : Fin 4) (s : State) (e : Env) (p : Pend) (k : Fin 16) (l : Fin 3),
    let o := operands e.u
    let zero := result (tgt1 t) 0 false
    let gives (v : Nat) := result (tgt1 t) (BitVec.ofNat 32 v) false
    let J := jumpWords e.win kx.val
    let pa := o.b.word.toNat * 2 ^ 32 + o.a.word.toNat
    let got := unitRead s noUnitNode (lineKey 0 pa)
    let words (n : Nat) : Word := poolWord e.win (kx.val + n)
    (∀ i j, (i, j) ∈ [(Instr.jmpb t kx, Jump.jmp J.1 J.2), (.callb t kx, .call J.1 J.2), (.retb t, .ret)] →
      Acts i [.a] t s e (updDraft s e.c (fun d => { d with jump := some (e.i, j) })) zero) ∧
    (e.c = .fw k l →
      (o.a.psn = false → o.b.psn = false → pa % 64 = 0 → paExists pa = true → got.1.psn = false →
        listedKind (lineNat got.1.data 0 1) = true →
        (Issues (.tqpost t acq sc false) OpenPhase [.a, .b] t s e
          (postRec got.2 (postedRec k.val (.tqpost e.c e.i) got.1.data)) (pendOf o 0 0 1)) ∧
        (lineNat got.1.data 0 1 ≠ 0x0F → tqFull got.2 = false →
          Command (.tqpost t acq sc true) [.a, .b] t s e (postOrdinary got.2 (postedRec k.val .none got.1.data))
            (pairOut t 0 got.2.tq.stamp.toNat))) ∧
      (p.step = 2 → Resumes (.tqpost t acq sc nw) s e p s (pairOut t 0 p.val.toNat)) ∧
      (o.a.psn = false → o.b.psn = false →
        let r := tqAckDo (joinWords o.a.word o.b.word) s
        Command (.tqack t false sc) [.a, .b] t s e r.2 (gives (if r.1 then 0 else 1))) ∧
      (s.fw.swapping = false → s.fw.sig = none →
        let run : SigRun := { core := k.val, c := e.c, idx := e.i, va := BitVec.ofNat 64 ((words 0).toNat + wbits (words 1) 6 0 * 2 ^ 32)
                              len := (words 2).toNat, key := key.val, acq := acq, kept := [] }
        Issues (.sigchk t kx acq sc key) OpenPhase [.a] t s e
          (queueJob { s with fw := { s.fw with sig := some run, stagedOk := false, stgver := 0 } } (.event .sigchkComplete))
          (pendOf o 0 0 1)) ∧
      (p.step = 2 → Resumes (.sigchk t kx acq sc key) s e p s (gives p.val.toNat)) ∧
      (s.fw.swapping = false → l = 0 → s.fw.stagedOk = true → Command (.fwswap t) [.a] t s e
        { s with fw := { s.fw with swapping := true, toSwitch := List.range 16 }
                 cores := s.cores.map (fun c => { c with swapPending := true }) } zero) ∧
      (s.fw.swapping = false → l = 0 → s.fw.stagedOk = false → Command (.fwswap t) [.a] t s e s (gives 1))))

/-- R21, R84, R85: the load of a node's block that holds a privileged opcode, FRAMEM and TLBI among them, fails with cause 5 and
index 255 and puts no block in place; every privileged instruction's word has such an opcode. That the unassigned opcodes of groups
0xE and 0xF count as privileged is the model's reading (assumption log 71). -/
def Obligations.PrivilegedBlocks : Prop :=
  (∀ (s s1 : State) (id : Nat) (n : Node) (w : Window),
    getNode s id = some n → mayLoad s n = true → fetchBlock s (.node id) n.ctx.draft = .ok w s1 →
    (∃ x ∈ w.code, PrivilegedOp (x.toNat / 2 ^ 24)) →
      let t := failLoad s1 id 5 n.ctx.draft.block 255 w.va 0
      exec (.blockLoad (.node id)) s = .next t ∧ t.dsp = s1.dsp ∧ t.cores = s1.cores) ∧
  (∀ (t : Tgt) (m : MHead) (cause : BitVec 15) (n : BitVec 12) (mask : BitVec 6) (x acq : Bool) (sc : Scope) (k : Fin 256) (f : Fin 4)
    (te : TlbExt),
    ∀ i ∈ [Instr.framem t k x, .trap t cause, .rte t, .csrrd t n, .csrwr t n, .tlbi m f te, .wfe t mask, .tqpost t acq sc x,
        .tqack t x sc, .sigchk t k acq sc f, .fwswap t, .mcread t, .ecntr t x, .einj t k x, .binset t, .retest t, .bypass t,
        .flddrain t, .fldadmit t],
      ∃ w, encode i = some w ∧ PrivilegedOp (w / 2 ^ 24))

/-- R145, R418, R420: taking a trap at level 0 or 1 writes CAUSE, EPC and INFO of the trap bank, keeps its RET, raises LEVEL,
freezes the window with its carry words and makes block 0 of the draft at TVEC due in the next one, with carry words of
zero; nothing of the other cores, of memory, or
of the core's other registers changes. Where the manual leaves a point open it states the model's choice (assumption log
69). -/
def Obligations.TrapTaken : Prop :=
  ∀ (s : State) (c level : Nat) (cause : Byte) (epc : Dword) (info : Word), c < s.cores.length → level < 2 →
    let k := getCore s c
    let t := takeTrapAt s c level cause epc info
    let k1 := getCore t c
    k1.level.toNat = level + 1 ∧
    (if level = 0 then k1.tb0 else k1.tb1) = { cause := cause, epc := epc, info := info, ret := (if level = 0 then k.tb0 else k.tb1).ret } ∧
    (if level = 0 then k1.tb1 = k.tb1 else k1.tb0 = k.tb0) ∧
    (coreWin k1 (level + 1)).win = none ∧ (coreWin k1 (level + 1)).draft = DraftSt.init k.tvec ∧
    (coreWin k1 level).win = (coreWin k level).win ∧ (coreWin k1 level).draft = (coreWin k level).draft ∧
    (∀ j, j ≠ level → j ≠ level + 1 → j < 3 → coreWin k1 j = coreWin k j) ∧
    k1.tvec = k.tvec ∧ k1.evt = k.evt ∧ k1.tcmp = k.tcmp ∧ k1.wdog = k.wdog ∧ k1.keep = k.keep ∧ k1.slice = k.slice ∧
    k1.resident = k.resident ∧ k1.crash = k.crash ∧ k1.fwver = k.fwver ∧ (coreWin k1 level).marked = (coreWin k level).marked ∧
    (coreWin k1 level).carry = k.ctx.mem.carry ∧ k1.ctx.mem.carry = [] ∧ k1.ctx.mem.carryAtStart = [] ∧
    k1.ctx.mem.scratch = k.ctx.mem.scratch ∧ (∀ j, j ≠ c → getCore t j = getCore s j) ∧ { t with cores := [] } = { s with cores := [] }

/-- R422, R423: the return of a handler lowers LEVEL, resumes the window that its trap froze with what it held, and
tells the TRAP that waits there RET; the handler's window is discarded. Where the manual leaves a point open it states
the model's choice (assumption log 69). -/
def Obligations.TrapReturned : Prop :=
  ∀ (s : State) (c level : Nat) (cause : Byte) (epc : Dword) (info ret : Word), c < s.cores.length → level < 2 →
    let k := getCore s c
    let t := takeTrapAt s c level cause epc info
    let t1 := updCore t c (fun x => if level = 0 then { x with tb0 := { x.tb0 with ret := ret } } else { x with tb1 := { x.tb1 with ret := ret } })
    let k2 := getCore (returnTrap t1 c) c
    k2.level.toNat = level ∧ (coreWin k2 level).marked = (coreWin k level).marked ∧ coreWin k2 (level + 1) = FwWin.init ∧
    (coreWin k2 level).draft = (coreWin k level).draft ∧
    (coreWin k2 level).win = (answerTrap ret (coreWin k level)).win ∧
    k2.ctx.boundary = k.ctx.boundary ∧ k2.ctx.commitsDone = k.ctx.commitsDone ∧ k2.ctx.mem.puts = k.ctx.mem.puts ∧
    k2.ctx.mem.carryAtStart = k.ctx.mem.carryAtStart ∧ k2.ctx.mem.carry = k.ctx.mem.carry ∧ k2.ctx.mem.carryStage = k.ctx.mem.carryStage ∧
    (∀ (w : Window) (i : Nat) (u : ElemSt) t0 n, (coreWin k level).win = some w → w.units[i]? = some u → (w.code[i]?).bind instrOf = some (.trap t0 n) →
      ∃ (w1 : Window) (u1 : ElemSt), (coreWin k2 level).win = some w1 ∧ w1.units[i]? = some u1 ∧
        u1.pend = u.pend.map (fun p => if p.step = 1 then { p with step := 2, val := ret.zeroExtend 64 } else p))

/-- R50, R145, R420, R424, R425: a trap at level 2 is a crash: its record of kind 0x07 is posted, and the core stands; once the
record is taken LEVEL and the trap banks are cleared, block 0 at the image's ENTRY is due at level 0, with carry words of
zero, TVEC is the image's TRAPD, and CRASHES counts. -/
def Obligations.CoreCrashes : Prop :=
  ∀ (s : State) (c : Nat) (cause : Byte) (epc : Dword) (info : Word),
    (crashWaits s c = true → takeTrapAt s c 2 cause epc info = s) ∧
    (crashWaits s c = false → ∃ r, takeTrapAt s c 2 cause epc info = postRec s r ∧ r.kind = 0x07 ∧ r.src = 8 ∧ r.x = c ∧
      r.poster = .crash c ∧ (0x20, 8, epc.toNat) ∈ r.payload ∧ (0x2A, 1, cause.toNat) ∈ r.payload ∧ (0x2C, 4, info.toNat) ∈ r.payload) ∧
    (∀ r s1, arbitrate s = some (r, s1) → r.poster = .crash c → exec .trapRecordPost s = .next (crashOver s1 c)) ∧
    (c < s.cores.length → (getCore s c).resident = [] →
      let k := getCore s c
      let t := crashOver s c
      let k1 := getCore t c
      k1.level = 0 ∧ k1.tb0 = TrapBank.init ∧ k1.tb1 = TrapBank.init ∧ k1.f0.win = none ∧ k1.h1 = FwWin.init ∧ k1.h2 = FwWin.init ∧
      k1.f0.draft = DraftSt.init (imageEntry s c) ∧ k1.tvec = imageTrapd s c ∧ k1.crash = k.crash + 1 ∧
      k1.keep = k.keep ∧ k1.ctx.mem.carry = [] ∧ (∀ j, j ≠ c → getCore t j = getCore s j))

/-- R416 to R418: a core's writable registers read back what is written to them: TCMP and the KEEP words at once, a 64-bit
register through its two halves; the read-only ones ignore the write; CC_ID names the field and core. -/
def Obligations.CsrReadBack : Prop :=
  ∀ (s : State) (c : Fin 16) (v w : Word), s.cores.length = 16 → (∀ x ∈ s.cores, mapWf 0 x.keep = true) →
    (∀ j, j < 32 → (csrRead (csrWrite s c.val (0x020 + j) v) c.val (0x020 + j)).1 = v) ∧
    (csrRead (csrWrite s c.val 0x01E v) c.val 0x01E).1 = v ∧
    (csrRead (csrWrite s c.val 0x008 v) c.val 0x008).1 = v ∧ (csrRead (csrWrite s c.val 0x010 v) c.val 0x010).1 = v ∧
    (csrRead (csrWrite s c.val 0x01F v) c.val 0x01F).1 = v &&& 0xFFFF#32 ∧
    (let t := csrWrite (csrWrite s c.val 0x014 v) c.val 0x015 w
     let r := csrRead t c.val 0x014
     r.1 = v ∧ (csrRead r.2 c.val 0x015).1 = w) ∧
    (csrRead s c.val 0x000).1 = BitVec.ofNat 32 (c.val / 4 * 16 + c.val) ∧
    (∀ n ∈ [0x000, 0x001, 0x004, 0x007, 0x00C, 0x00F, 0x041, 0x042, 0x043],
      (csrRead (csrWrite s c.val n v) c.val n).1 = (csrRead s c.val n).1) ∧
    (∀ n, 0x044 ≤ n → n < 0x100 → csrTraps s c.val n = true) ∧ (∀ n, 0x700 ≤ n → csrTraps s c.val n = true)

/-! ### Group 0xF: the health unit -/

/-- R456 to R460: in firmware MCREAD emits the log entry that it names, ECNTR a counter, clearing it with `.clr`; EINJ arms or
disarms injections; BINSET, RETEST, BYPASS and FLDDRAIN start their operation or give their status; FLDADMIT admits a
drained field that has passed. -/
def Obligations.HealthCompletes : Prop :=
  ∀ (t : Tgt) (kx : Fin 256) (clr : Bool) (s : State) (e : Env) (p : Pend) (k : Fin 16) (l : Fin 3),
    let o := operands e.u
    let f := o.a.word.toNat % 4
    let x := getField s f
    let gives (v : Nat) := result (tgt1 t) (BitVec.ofNat 32 v) false
    let px := wbits o.a.word 7 0
    let py := wbits o.a.word 15 8
    let me := some (e.c, e.i)
    e.c = .fw k l → o.a.psn = false →
    (∀ r, findRecord s o.a.word = some r →
      Command (.mcread t) [.a] t s e s (seqAll (tgt1 t) ((recordWords r).map (fun v => scalarTok v false)))) ∧
    (findRecord s o.a.word = none →
      Command (.mcread t) [.a] t s e s (seqAll (tgt1 t) (List.replicate 13 (scalarTok 0 true)))) ∧
    (∀ n, o.b.psn = false → selectCounter s o.a.word o.b.word = some n →
      Command (.ecntr t clr) [.a, .b] t s e (if clr then counterClear s n else s) (result (tgt1 t) (counterValue s n) false)) ∧
    (Command (.einj t kx true) [.a] t s e { s with hl := { s.hl with inj := [] } } (gives 0)) ∧
    (let j := injectWords (poolWord e.win kx.val) (poolWord e.win (kx.val + 1)) (poolWord e.win (kx.val + 2))
     let bad := if s.hl.test = false then 1 else if injectOk j = false then 2 else if 4 ≤ s.hl.inj.length then 3 else 0
     Command (.einj t kx false) [.a] t s e (if bad = 0 then { s with hl := { s.hl with inj := s.hl.inj ++ [j] } } else s) (gives bad)) ∧
    (x.state ≠ 2 → Command (.binset t) [.a] t s e s (gives 1) ∧ Command (.retest t) [.a] t s e s (gives 0x40000000) ∧
      Command (.fldadmit t) [.a] t s e s (gives 1)) ∧
    (x.state = 2 → Issues (.binset t) OpenPhase [.a] t s e (startBin s f (wbits o.a.word 5 4) 0 me) (pendOf o 0 0 1) ∧
      Issues (.retest t) OpenPhase [.a] t s e (startTest s f 0 me) (pendOf o 0 0 1) ∧
      Command (.fldadmit t) [.a] t s e (if x.pass then updField s f (fun y => { y with state := 0 }) else s) (gives (if x.pass then 0 else 2))) ∧
    (bypassStatus s px py ≠ 0 → Command (.bypass t) [.a] t s e s (gives (bypassStatus s px py))) ∧
    (bypassStatus s px py = 0 → Issues (.bypass t) OpenPhase [.a] t s e (startBypass s px py me) (pendOf o 0 0 1)) ∧
    (x.state ≠ 0 → Command (.flddrain t) [.a] t s e s (gives 1)) ∧
    (x.state = 0 → Issues (.flddrain t) OpenPhase [.a] t s e
      (addWait (startDrain s f) { who := me, op := 0xF6, field := f, x := 0, y := 0, arg := 0 }) (pendOf o 0 0 1)) ∧
    (p.step = 2 → ∀ i ∈ [Instr.binset t, .retest t, .bypass t, .flddrain t], Resumes i s e p s (gives p.val.toNat))

/-! ### Rows without a word -/

/-- R44 to R47, R50, R51, R53 to R55, R464: the launch windows and the trap queue. A write to LW_REC is latched, or held
while BUSY, and one that covers the CRC commits the record; the check accepts it, or posts its refusal and refuses it once that is taken; a doorbell sets its core's
event. The queue's registers are written as their rules give, and the arbiter writes a record to its slot, drops it, or
counts it. Where the manual leaves a point open it states the model's choice (assumption log 2). -/
def Obligations.HostQueueEvents : Prop :=
  ∀ (port : Fin 2) (off : Fin 64) (data : List Byte) (v : Dword) (w : Word) (s : State),
    let lw := getLw s port
    let l := overwrite lw.latch off.val data
    let q := s.tq
    (ready s = true →
      exec (.hpDbellWrite port w) s = .next (updCore s (w.toNat % 16) (fun k => { k with evt := k.evt ||| 4 })) ∧
      (lw.committed ≠ none →
        exec (.lwRecWrite port off data) s = .next (updLw s port (fun x => { x with held := x.held ++ [(off.val, data)] }))) ∧
      (lw.committed = none → 0x3C < off.val ∨ off.val + data.length < 0x40 →
        exec (.lwRecWrite port off data) s = .next (updLw s port (fun x =>
          { x with latch := l, partWritten := x.partWritten || !data.isEmpty }))) ∧
      (lw.committed = none → off.val ≤ 0x3C → 0x40 ≤ off.val + data.length →
        exec (.lwRecWrite port off data) s = .next (queueJob (updLw s port (fun x =>
          { x with latch := l, partWritten := false, committed := some l })) (.event (.launchRecordCheck port))))) ∧
    (ready s = false → ∀ i ∈ [Instr.lwRecWrite port off data, .hpDbellWrite port w, .tqBaseWrite v, .tqCfgWrite w, .tqHeadWrite w, .tqAckWrite v,
      .tqFatalClear], exec i s = .next s) ∧
    (∀ bs, lw.committed = some bs → lw.held = [] → let c := checkRec s bs true
      (c = 0 → exec (.launchRecordCheck port) s = .next (updLw (acceptRec s (parseRec bs)) port (fun x =>
        { x with committed := none, held := [], acceptedBit := true, accepted := x.accepted + 1 }))) ∧
      (c ≠ 0 → exec (.launchRecordCheck port) s = .next (addDev (postRec s (refusedRec port c bs)) 8 (if c = 1 then 1 else 0)) ∧
        (refusedRec port c bs).poster = .launch port c)) ∧
    (∀ r s1 c, arbitrate s = some (r, s1) → r.poster = .launch port c → (getLw s1 port).held = [] →
      exec .trapRecordPost s = .next (updLw s1 port (fun x =>
        { x with committed := none, held := [], refusedBit := true, refused := x.refused + 1, cause := BitVec.ofNat 4 c }))) ∧
    (ready s = true → exec (.tqBaseWrite v) s = .next { s with tq := if q.en then { q with cfgErr := true } else { q with base := (v >>> 16).setWidth 23 } }) ∧
    (ready s = true → let n := w.toNat % 32
     (q.en = false → 8 ≤ n → n ≤ 16 → exec (.tqCfgWrite w) s = .next { s with tq :=
        if w.msb then { q with log2n := BitVec.ofNat 5 n, en := true, head := 0, tail := 0 } else { q with log2n := BitVec.ofNat 5 n } }) ∧
     (q.en = false → n < 8 ∨ 16 < n → exec (.tqCfgWrite w) s = .next { s with tq :=
        if w.msb then { q with cfgErr := true, en := true, head := 0, tail := 0 } else { q with cfgErr := true } }) ∧
     (q.en = true → exec (.tqCfgWrite w) s = .next { s with tq :=
        { q with en := w.msb, cfgErr := q.cfgErr || decide (n ≠ q.log2n.toNat) } })) ∧
    (ready s = true → exec (.tqHeadWrite w) s = .next { s with tq :=
      if (w - q.head).toNat ≤ (q.tail - q.head).toNat then { q with head := w } else { q with headErr := true } }) ∧
    (ready s = true → exec (.tqAckWrite v) s = .next { s with tq := (
      if q.outstanding.any (fun o => o.1 == v) then { q with outstanding := q.outstanding.filter (fun o => decide (o.1 ≠ v)) }
      else { q with badAck := true }) }) ∧
    (ready s = true → exec .tqFatalClear s = .next { s with tq := { q with fatal := false, fatalMore := 0 } }) ∧
    (q.posters = [] → exec .trapRecordPost s = .next s) ∧
    (∀ r rest, pickRec (tqFull s) q.posters = some (r, rest) → s.hl.inj = [] →
      let q1 := { q with posters := rest }
      let at_ (slot : Nat) : Mem := (putImage { s with tq := q1 } (lineKey 0 (q.base.toNat * 65536 + 64 * slot)) (recBytes r q.stamp)).mem
      let size := 2 ^ q.log2n.toNat
      ∃ t, arbitrate s = some (r, t) ∧ exec .trapRecordPost s = .next (afterRecord t r.poster) ∧
        (r.kind ≠ 0x0F → tqFull s = false → t.mem = at_ (q.tail.toNat % max 1 (size - 1)) ∧
          t.tq = { q1 with tail := q.tail + 1, stamp := q.stamp + 1,
                           outstanding := q.outstanding ++ if r.kind = 1 then [(q.stamp, r.poster)] else [] }) ∧
        (r.kind ≠ 0x0F → tqFull s = true → r.kind = 3 ∧ t.mem = s.mem ∧ t.tq = { q1 with dropped := q.dropped + 1 }) ∧
        (r.kind = 0x0F → q.fatal = false → t.mem = at_ (size - 1) ∧ t.tq = { q1 with fatal := true, stamp := q.stamp + 1 }) ∧
        (r.kind = 0x0F → q.fatal = true → t.mem = s.mem ∧
          t.tq = { q1 with fatalMore := BitVec.ofNat 8 (min 255 (q.fatalMore.toNat + 1)) }))

/-- R382 to R384, R391 to R393, R403, R404: the dispatcher's registers and buckets, ages, the operations of DSP_PRECTL,
and a placement pass, which grants a free rectangle that meets the block, or a core that takes it. Where the manual
leaves a point open it states the model's choice (assumption log 49, 63, 64, 65). -/
def Obligations.DispatcherEvents : Prop :=
  ∀ (s : State) (v : Word) (f : Fin 4) (reg : PwrReg) (id : Nat) (n : Node),
    let d := s.dsp
    let p := s.pwr
    let age := v.toNat / 2 ^ 16 % 2 ^ 8
    let set := budgetWritten reg v p
    let drain := (nth 0 p.fbud f.val).toNat * 1000000 * pwrUnit / binClock (getField s f.val).bin.toNat
    let done (t : State) (r : Nat) : State := { t with dsp := { t.dsp with result := BitVec.ofNat 4 r, busy := false } }
    (ready s = false → exec (.dspCfgWrite v) s = .next s ∧ exec (.pwrBudgetWrite reg v) s = .next s) ∧
    (ready s = true → exec (.dspCfgWrite v) s = .next { s with dsp :=
      if age = 0 then { d with cfgErr := true } else { d with ageTick := BitVec.ofNat 8 age, autoPre := v.getLsbD 0 } }) ∧
    (ready s = true → exec (.pwrBudgetWrite reg v) s = .next (
      if set.depth = 0 ∨ 2330 < (set.fbud.map (·.toNat)).sum + set.mbud.toNat then { s with dsp := { d with cfgErr := true } }
      else { s with pwr := set })) ∧
    (∃ t, exec (.powerBucketTick (.field f)) s = .next t ∧
      t.pwr = { p with flevel := modNth (· - drain) p.flevel f.val
                       fthr := if fieldThrottled s f.val then modNth (· + 1) p.fthr f.val else p.fthr } ∧
      ∀ j, (getNode t j).map (·.throttled) = (getNode s j).map (fun m =>
        if fieldThrottled s f.val = true ∧ m.exec.isSome = true ∧ f.val ∈ ctxFields s (.node m.id) then m.throttled + 1 else m.throttled)) ∧
    (exec (.powerBucketTick .module) s = .next { s with pwr := { p with
      mthr := if moduleThrottled s then p.mthr + 1 else p.mthr, moved := 0
      mlevel := p.mlevel - p.mbud.toNat * 1000 * pwrUnit + p.moved * 1280 * pwrUnit } }) ∧
    (∃ t, exec .ageTick s = .next t ∧ ∀ j, getNode t j = (getNode s j).map (fun m =>
      { m with age := if inPool m then min 255 (m.age + ageSteps s) else m.age })) ∧
    (saveWaits s = true → (d.opRun = 1 → exec .dspPreempt s = .next s) ∧ (d.opRun = 4 → exec .dspReopen s = .next s)) ∧
    (d.busy = true → d.opNode.toNat = id → saveWaits s = false →
      (getNode s id = none → ∀ i ∈ [(1, Instr.dspPreempt), (2, .dspHold), (3, .dspRelease), (4, .dspReopen)], d.opRun.toNat = i.1 →
        exec i.2 s = .next (done s 1)) ∧
      (getNode s id = some n →
        (d.opRun = 2 → exec .dspHold s = .next (
          if n.st = .placed then done s 4 else done (updNode s id (fun m => { m with held := true })) 0)) ∧
        (d.opRun = 3 → exec .dspRelease s = .next (
          if n.held then nextJob (done (updNode s id (fun m => { m with held := false })) 0) (.event .placementPass) else done s 6)) ∧
        (d.opRun = 4 → n.saveFailed = none → exec .dspReopen s = .next (done s 6)) ∧
        (d.opRun = 4 → n.saveFailed = some 1 → exec .dspReopen s = .next (done (retireFailed s id) 0)) ∧
        (d.opRun = 4 → ∀ k, n.saveFailed = some k → k ≠ 1 → exec .dspReopen s = .next (done (tellYields (updNode s id (fun m =>
          { m with saveFailed := none, closed := false, moving := keptMove m })) id 1) 0)) ∧
        (d.opRun = 1 → ∀ k, n.saveFailed = some k → exec .dspPreempt s = .next (retrySave s n k)) ∧
        (d.opRun = 1 → n.saveFailed = none → (nodeRect n).isSome = true → n.lrec.pre = false → exec .dspPreempt s = .next (done s 3)) ∧
        (d.opRun = 1 → n.saveFailed = none → (nodeRect n).isSome = true → n.lrec.pre = true → n.st = .placed → n.completing = none →
          n.moving = .none ∨ n.moving = .replace → exec .dspPreempt s = .next
            (nextJob (updNode s id (fun m => { m with moving := .preempt (m.moving == .replace) })) (.event (.preemption id)))) ∧
        (d.opRun = 1 → n.saveFailed = none → nodeRect n = none → exec .dspPreempt s = .next (done s 4)))) ∧
    (d.busy = false → ∀ i ∈ [Instr.dspPreempt, .dspHold, .dspRelease, .dspReopen], exec i s = .next s) ∧
    (d.frozen = true ∨ (∀ m ∈ d.nodes, inPool m = false) → exec .placementPass s = .next s) ∧
    (∀ w s1 s2 x, d.frozen = false → passOrder s = [id] → getNode s id = some n → considered s n = true → notYet s n = false →
      nextBlock s n = .ok w s1 → nodeFault n w = none → checkChans s1 ((placedEnds n w).map (·.1)) = s2 → neverFits s2 n w = false →
      roomToPlace s2 n w = true → findExec s2 n w = some x →
        exec .placementPass s = .next (placeNode s2 n w x) ∧
        (∀ x0 y0 a b, x = .region x0 y0 a b → let r : Rect := (x0, y0, a, b)
          offered s2 r = true ∧ couldMeet s2 w (loadWr n.ctx.mem.wr w) r = true ∧ holders s2 r = []) ∧
        (∀ k, x = .core k → coreTakes s2 (blockWays w (loadWr n.ctx.mem.wr w)) k = true) ∧
        (n.ctx.ckpt.isSome = true → (getNode s2 n.id).isSome = true → ∃ m, getNode (placeNode s2 n w x) n.id = some m ∧
          m.st = .placed ∧ m.exec = some x ∧ m.age = 0 ∧ m.reserve = none ∧ m.loading = true))

/-- R12, R20, R21, R30, R31, R40, R41, R75, R342, R395 to R402, R426, R427: a block is loaded once its endpoints are held
and it passes its checks; a load that fails posts its record, and the node is retired once it is taken; a boundary that
may begin commits, and ends with a new phase; at a block's end the draft goes on where it leads; a node that ends
releases its successors and leaves the store; a pre-emption closes the sources, waits for quiescence, and saves; a
restore reads its image back. Where the manual leaves a point open it states the model's choice (assumption log 8, 46,
47, 56, 57, 58, 59, 60, 76). -/
def Obligations.BlockEvents : Prop :=
  ∀ (s s1 s2 s3 s4 s5 : State) (id : Nat) (n : Node) (w : Window) (b : Boundary),
    let c : CtxId := .node id
    (getNode s id = none → ∀ i ∈ [Instr.blockLoad c, .nodeComplete id, .preemption id, .restore id], exec i s = .next s) ∧
    (∀ cause blk i va word, retireWaits s id = false → ∃ r, failLoad s id cause blk i va word = postRec s r ∧ r.kind = 6 ∧ r.src = 7 ∧
      r.node = BitVec.ofNat 32 id ∧ r.poster = .retire id ∧ (0x10, 1, cause) ∈ r.payload ∧ (0x12, 1, i) ∈ r.payload ∧
      (0x18, 8, va.toNat) ∈ r.payload ∧ (0x20, 4, word) ∈ r.payload) ∧
    (afterRecord s (.retire id) = retireFailed s id ∧ getNode (retireFailed s id) id = none) ∧
    (getNode s id = some n →
      (mayLoad s n = false → exec (.blockLoad c) s = .next s) ∧
      (mayLoad s n = true → ∀ d, n.ctx.draft = d →
        (fetchBlock s c d = .wait s1 → exec (.blockLoad c) s = .next s1) ∧
        (∀ cause i va word, fetchBlock s c d = .fail cause i va word s1 →
          exec (.blockLoad c) s = .next (failLoad s1 id cause d.block i va word)) ∧
        (fetchBlock s c d = .ok w s1 →
          let x := if (ctxCore s c).isSome then coreWindow w else w
          let ends := trailerEnds x
          (∀ cause i word, nodeFault n x = some (cause, i, word) →
            exec (.blockLoad c) s = .next (failLoad s1 id cause d.block i x.va word)) ∧
          (∀ mv, nodeFault n x = none → mustMove s1 n x = some mv → moveFault n (ctxCore s1 c).isSome = none →
            exec (.blockLoad c) s = .next (nextJob (updNode s1 id (fun m => { m with moving := mv })) (.event (.preemption id)))) ∧
          (nodeFault n x = none → mustMove s1 n x = none → n.moving = .none → checkChans s1 (ends.map (·.1)) = s2 →
            (endsReady s2 (BitVec.ofNat 32 id) ends = false → exec (.blockLoad c) s = .next s2) ∧
            (endsReady s2 (BitVec.ofNat 32 id) ends = true → attachAll s2 id x false = s3 →
              (∀ cause, placeFault s3 n x (ctxCore s3 c).isSome = (some cause, s4) →
                exec (.blockLoad c) s = .next (failLoad s4 id cause d.block 255 x.va 0)) ∧
              (placeFault s3 n x (ctxCore s3 c).isSome = (none, s4) → unitFault s4 x = none → unfuseOut s4 id x = (true, s5) →
                exec (.blockLoad c) s = .next (installNode s5 id x [])))))) ∧
      (n.ctx.boundary = some b → n.win = some w → n.saveFailed = none → eventBoundary b.cause = false →
        (b.fails = true → exec (.phaseBoundary c) s = .next (
          if s.run.still.elem c then failLoad s id 7 n.ctx.draft.block (causeIdx b.cause) w.va 0 else s)) ∧
        (b.fails = false → b.checked = false → insideAccumulation n.ctx b = true → exec (.phaseBoundary c) s = .next
          (updNode (updCtx s c (fun y => { y with boundary := some { b with fails := true } })) id (fun m => { m with closed := true }))) ∧
        (∀ y, b.fails = false → b.checked = true → accessesDone false w = true →
          settleStage (updCtx s c (fun y => { y with boundary := some b })) c = s1 → getCtx s1 c = some y →
          posterWaits s1 (.boundary c) = false →
          commitBlocks c (b.scope == .sys) y.draft.block y.mem.stageG s1 = (true, s2) →
          commitChannels (updMem s2 c commitLocal) c = s3 →
          (match b.cause with
            | .unfuse j => freeArray s3 c j
            | _ => s3) = s4 →
          takeCheckpoint s4 c b = (true, s5) → exec (.phaseBoundary c) s = .next (endBoundary s5 c b))) ∧
      (commitDue s c = false → exec (.commitBoundary c) s = .next s) ∧
      (commitDue s c = true → exec (.commitBoundary c) s = .next (askBoundary s c .dev (.commit (n.ctx.commitsDone + 1)))) ∧
      (n.win = some w → n.ctx.boundary = none → blockRuns s c = true → blockDone w = true → commitDue s c = false → n.ctx.mem.puts = [] →
        leaveBlock s c w = s1 →
        (onward (getDraft s1 c) (winNext w) = .over → exec (.blockEnd c) s = .next (nextJob (updNode
          (updDraft s1 c (fun d => { d with stack := [] })) id (fun m => { m with completing := some 0 })) (.event (.nodeComplete id)))) ∧
        (∀ d, onward (getDraft s1 c) (winNext w) = .go d →
          updNode (updDraft s1 c (fun _ => d)) id (fun m => { m with loading := true }) = s2 → ctxCore s2 c = none →
            exec (.blockEnd c) s = .next (nextJob s2 (.event (.blockLoad c))))) ∧
      (n.completing = some 0 → startedDone s id = false → exec (.nodeComplete id) s = .next s) ∧
      (∀ m, n.completing = some 1 → startOrphans s c true = s1 → getNode s1 id = some m → m.completing = some 1 →
        (commandsDone s1 id = false → exec (.nodeComplete id) s = .next s1) ∧
        (commandsDone s1 id = true → m.lrec.counter = 0 → m.lrec.succCount = 0 →
          exec (.nodeComplete id) s = .next (freeEntry (updNode (completeRelease s1 id) id (fun m => { m with completing := some 3 })) id))) ∧
      (n.moving = .none → exec (.preemption id) s = .next s) ∧
      (∀ health, n.moving = .preempt health → n.exec.isSome = true → n.saveFailed = none → retireWaits s id = false → n.win = some w →
        (n.loading = false → n.completing = none → n.ctx.boundary = none →
          (n.closed = false → exec (.preemption id) s = .next (updNode s id (fun m => { m with closed := true }))) ∧
          (n.closed = true → quiescent s c w = false → exec (.preemption id) s = .next s) ∧
          (n.closed = true → quiescent s c w = true → n.lrec.saveBytes.toNat < imageLen (fullLens n w false (savedTokens w)) →
            exec (.preemption id) s = .next (refuseMove s id 2 health)) ∧
          (n.closed = true → quiescent s c w = true → imageLen (fullLens n w false (savedTokens w)) ≤ n.lrec.saveBytes.toNat →
            doBoundary (resetForSave s n w) c .dev .preempt = (true, s1) →
            exec (.preemption id) s = .next (saveAndMove s1 id 2))) ∧
        (n.loading = true → n.image = none → exec (.preemption id) s = .next (
          if n.lrec.saveBytes.toNat < imageLen (fullLens n w false 0) then refuseMove s id 2 health else moveBetween s id 2))) ∧
      (n.image = none → exec (.restore id) s = .next s) ∧
      (∀ kind, n.image = some kind → s.dsp.frozen = false → mayLoad s n = true →
        (readImage s n kind = (none, s1) → exec (.restore id) s = .next s1) ∧
        (∀ h body, readImage s n kind = (some (h, body), s1) → let m := stateBack n h body
          loadNode (updNode s1 id (fun _ => m)) id ((m.win.map (·.units)).getD []) = s2 →
          (∀ r, getNode s2 id = some r → r.loading = false → exec (.restore id) s =
            .next (tellYields (takeAgain (addEv s2 c (imageEvents h body)) id) id 2)) ∧
          (∀ r, getNode s2 id = some r → r.loading = true → exec (.restore id) s = .next s2) ∧
          (getNode s2 id = none → exec (.restore id) s = .next s2)))) ∧
    (b.cause = .preempt → endBoundary s c b = startKeptAll (endBoundary s c { b with cause := .inserted }) c) ∧
    (getNode s id = some n → n.ctx.orphans = [] → b.cause ≠ .preempt → ∃ m, getNode (endBoundary s c b) id = some m ∧
      m.ctx.boundary = none ∧ m.ctx.log = [] ∧ m.ctx.replay = [] ∧ m.ctx.mem.snapG = [] ∧ m.ctx.mem.snapS = [] ∧
      m.ctx.mem.snapW = [] ∧ m.ctx.phase = n.ctx.phase + 1 ∧ m.ctx.sysPhase = n.ctx.sysPhase + (if b.scope = .sys then 1 else 0)) ∧
    (getNode s id = some n → n.st = .waiting → n.preds ≠ 0 → ∃ m, getNode (releaseOne s id) id = some m ∧ m.preds = n.preds - 1 ∧
      m.st = (if n.preds = 1 then .ready else .waiting)) ∧
    (getNode (freeEntry s id) id = none) ∧
    (∀ (k : Fin 16) (l : Fin 3), let f := coreWin (getCore s k.val) l.val
      crashWaits s k.val = false → posterWaits s (.fetch (.fw k l)) = false → f.win = none → f.draft.halt = false →
      l.val = (getCore s k.val).level.toNat →
      (fetchBlock s (.fw k l) f.draft = .wait s1 → exec (.blockLoad (.fw k l)) s = .next s1) ∧
      (∀ cause i va word, fetchBlock s (.fw k l) f.draft = .fail cause i va word s1 → exec (.blockLoad (.fw k l)) s = .next
        (takeTrapAt s1 k.val l.val 0x03 (trapEpc va none) (BitVec.ofNat 32 cause))) ∧
      (fetchBlock s (.fw k l) f.draft = .ok w s1 → let x := coreWindow w
        (firmwareFault s1 x = none → exec (.blockLoad (.fw k l)) s = .next (installFirmware s1 k l x)) ∧
        (∀ cause, firmwareFault s1 x = some cause → exec (.blockLoad (.fw k l)) s = .next
          (takeTrapAt s1 k.val l.val 0x03 (trapEpc x.va none) (BitVec.ofNat 32 cause))))) ∧
    (∀ (d : DraftSt) (next : Nat), let k := (d.nextb.map (·.2)).getD next
      (d.halt = true → onward d next = .over) ∧
      (d.halt = false →
        (d.jump = none → k ≠ 255 → onward d next = .go { DraftSt.init d.va with block := k, stack := d.stack }) ∧
        (d.jump = none → k = 255 → d.stack = [] → onward d next = .over) ∧
        (∀ i va j, j ≠ 255 →
          (d.jump = some (i, .jmp va j) → onward d next = .go { DraftSt.init va with block := j, stack := d.stack }) ∧
          (d.jump = some (i, .call va j) → d.stack.length < 8 →
            onward d next = .go { DraftSt.init va with block := j, stack := (d.va, k) :: d.stack }) ∧
          (∀ st, d.jump = some (i, .ret) → d.stack = (va, j) :: st → onward d next = .go { DraftSt.init va with block := j, stack := st })) ∧
        (∀ i va j, d.jump = some (i, .call va j) → 8 ≤ d.stack.length → onward d next = .stack d 0) ∧
        (∀ i, d.jump = some (i, .ret) → d.stack = [] → onward d next = .stack d 1)))

/-- R332 to R335, R350, R357, R358, R201 to R203: the channel unit's registers, its operations, the refill and the
detector; the translation block's registers and its operations, each with its result. Where the manual leaves a point
open it states the model's choice (assumption log 41, 42, 43, 66, 77). -/
def Obligations.TableEvents : Prop :=
  ∀ (s s1 s2 : State) (dw : Dword) (v : Word) (ch : Fin 4096) (npg : BitVec 16) (l : Line) (tgt a : Nat) (w : Bool),
    let u := s.chu
    let x := s.xl
    let chDone (t : State) (r : Nat) : State := { t with chu := { t.chu with busy := false, result := BitVec.ofNat 4 r } }
    let xlDone (t : State) (r f : Nat) : State :=
      { t with xl := { t.xl with busy := false, result := BitVec.ofNat 4 r, failpg := BitVec.ofNat 16 f } }
    let k := getChan s ch.val
    let dint := v.toNat / 2 ^ 16 % 2 ^ 8
    let chSet (e : Bool) : State := { s with chu := { u with
      dint := if dint = 0 then u.dint else BitVec.ofNat 8 dint, en := e, cfgErr := u.cfgErr || decide (dint = 0) } }
    let page := x.job.page
    let kept (n : Nat) (l : List TlbEntry) : List TlbEntry := l.filter (fun y =>
      decide (y.page + (if y.large then 2 ^ 13 else 1) ≤ page) || decide (page + n ≤ y.page))
    (ready s = false → ∀ i ∈ [Instr.chuBaseWrite dw, .chuCfgWrite v, .xlRootWrite dw, .xlFtdescWrite v], exec i s = .next s) ∧
    (ready s = true → exec (.chuBaseWrite dw) s = .next { s with chu := if u.en then { u with cfgErr := true } else { u with base := (dw >>> 18).setWidth 21 } }) ∧
    (ready s = true → v.msb = u.en → exec (.chuCfgWrite v) s = .next (chSet u.en)) ∧
    (ready s = true → v.msb = false → u.en = true → exec (.chuCfgWrite v) s = .next (
      if anyAttached s then { s with chu := { u with cfgErr := true } } else chSet false)) ∧
    (ready s = true → v.msb = true → u.en = false → exec (.chuCfgWrite v) s = .next (chuEnable (chSet false))) ∧
    (u.busy = false → ∀ i ∈ [Instr.chuDefine ch, .chuFree ch, .chuSnapshot ch, .chuClose ch], exec i s = .next s) ∧
    (u.busy = true → u.job.chid = ch.val →
      (u.job.op = 1 → translate s (opVa s) false = (.at tgt a w, s1) → unitLine s1 noUnitNode (.at tgt a w) = (l, s2) →
        (∀ c, l.psn = false → imageChan (lineBytes l.data) = some c →
          exec (.chuDefine ch) s = .next (chDone (chDefine s2 ch.val c).1 (chDefine s2 ch.val c).2)) ∧
        (l.psn = true ∨ imageChan (lineBytes l.data) = none → exec (.chuDefine ch) s = .next (chDone s2 6))) ∧
      (u.job.op = 2 → exec (.chuFree ch) s = .next (chDone (chFreeDo s ch.val).1 (chFreeDo s ch.val).2)) ∧
      (useChan s ch.val = (k, s) →
        (u.job.op = 3 → k.state = chFree → exec (.chuSnapshot ch) s = .next (chDone s 1)) ∧
        (u.job.op = 3 → k.state ≠ chFree → translate s (opVa s) true = (.at tgt a w, s1) →
          exec (.chuSnapshot ch) s = .next (chDone (putImage s1 (lineKey tgt a) (chanImage k)) 0)) ∧
        (u.job.op = 4 → k.state ≠ chOpenSt → exec (.chuClose ch) s = .next (chDone s 1)) ∧
        (u.job.op = 4 → k.state = chOpenSt →
          exec (.chuClose ch) s = .next (chDone (setChan s ch.val { k with state := chClosed, prod := noNode }) 0)))) ∧
    (useChan s ch.val = (k, s) → refillDue k = false → exec (.channelRefill ch) s = .next s) ∧
    (∀ n tok, useChan s ch.val = (k, s) → refillDue k = true → ringTokens k = n + 1 → k.lost.elem k.rt.toNat = false →
      spillRead s k (k.rt.toNat % max 1 k.ceil.toNat) = (some tok, s1) →
      exec (.channelRefill ch) s = .next (refillLoop ch.val n
        (setChan (ringWrite s1 k (k.rt.toNat % max 1 (ringTokens k)) tok) ch.val { k with rt := k.rt + 1 }))) ∧
    (u.en = false ∨ s.run.time - u.lastProbe < u.dint.toNat → exec .deadlockDetect s = .next s) ∧
    (u.en = true → u.dint.toNat ≤ s.run.time - u.lastProbe → checkChans s (u.table.map (·.1)) = s →
      let probed (t : State) : State := { t with chu := { t.chu with
        lastProbe := s.run.time, probes := (pushWaits t).map (fun h => ((setOf t h).chans, setSig t (setOf t h))) } }
      (pushWaits s = [] → exec .deadlockDetect s = .next (probed s)) ∧
      (∀ h, pushWaits s = [h] → let z := setOf s h
        (allBlocked s z = false → exec .deadlockDetect s = .next (probed s)) ∧
        (allBlocked s z = true → u.probes.any (fun p => p.1 == z.chans && p.2 == setSig s z) = true → claimants s z = [] →
          let waits := z.chans.filter (pushWaits s).elem
          let grow := leastSoft s (waits.filter (fun k => decide ((getChan s k).soft.toNat < (getChan s k).ceil.toNat)))
          (∀ g, grow = some g → exec .deadlockDetect s = .next (probed (growChan s g))) ∧
          (grow = none → exec .deadlockDetect s = .next (probed (reportSet s z (waits.headD h))))))) ∧
    (ready s = true → exec (.xlRootWrite dw) s = .next (if x.en = true ∧ dw.getLsbD 0 = true then s
      else { s with xl := { x with root := (dw >>> 16).setWidth 23, en := dw.getLsbD 0 } })) ∧
    (ready s = true → exec (.xlFtdescWrite v) s = .next (if frameExists x.ftsel.toNat then
      setFrame s x.ftsel.toNat { getFrame s x.ftsel.toNat with defdesc := v.setWidth 16 } else s)) ∧
    (x.busy = false → ∀ i ∈ [Instr.xlUnmap npg, .xlMigrate npg, .xlInvalidate npg, .xlHostPin npg, .xlHostUnpin npg],
      exec i s = .next s) ∧
    (x.busy = true → x.job.npg = npg.toNat →
      (x.en = false → ∀ p ∈ [(1, Instr.xlUnmap npg), (2, .xlMigrate npg), (4, .xlHostPin npg), (5, .xlHostUnpin npg)],
        x.job.op = p.1 → exec p.2 s = .next (xlDone s 6 0)) ∧
      (x.job.op = 3 → exec (.xlInvalidate npg) s = .next (xlDone { s with xl := { x with
        tlb := x.tlb.map (kept (npg.toNat + 1)), micro := x.micro.map (fun p => (p.1, kept (npg.toNat + 1) p.2)) } } 0 0)) ∧
      (x.en = true → npg = 0 → page < 2 ^ 39 →
        (leafAt s page = (.invalid, s1) →
          (x.job.op = 1 → exec (.xlUnmap npg) s = .next (xlDone (dropTlb s1 page 1) 0 0)) ∧
          (x.job.op = 2 → exec (.xlMigrate npg) s = .next (xlDone s1 2 0)) ∧
          (x.job.op = 4 → exec (.xlHostPin npg) s = .next (xlDone { s1 with mem := { s1.mem with frames := s.mem.frames } } 2 0))) ∧
        (∀ pa e f, leafAt s page = (.leaf pa e 16, s1) → leafFrame page e 16 = some f → let z := getFrame s1 f
          (x.job.op = 1 → z.state = 0 → z.pins = 0 →
            exec (.xlUnmap npg) s = .next (xlDone (setFrames 0 (dropTlb (clearLeaf (setFrames 1 s1 [f]) pa) page 1) [f]) 0 0)) ∧
          (x.job.op = 1 → z.state ≠ 0 ∨ z.pins ≠ 0 → exec (.xlUnmap npg) s = .next (xlDone s1 1 0)) ∧
          (x.job.op = 4 → z.state = 0 → z.pins ≠ 4095 → exec (.xlHostPin npg) s = .next (xlDone (setFrame s1 f { z with pins := z.pins + 1 }) 0 0)) ∧
          (x.job.op = 5 → z.pins ≠ 0 → exec (.xlHostUnpin npg) s = .next (xlDone (setFrame s1 f { z with pins := z.pins - 1 }) 0 0)) ∧
          (let g := s1.xl.job.target
           let dst := getFrame s1 g
           (x.job.op = 2 → z.state ≠ 0 ∨ z.pins ≠ 0 → exec (.xlMigrate npg) s = .next (xlDone s1 1 0)) ∧
           (x.job.op = 2 → z.state = 0 → z.pins = 0 → g = f → exec (.xlMigrate npg) s = .next (xlDone s1 3 0)) ∧
           (x.job.op = 2 → z.state = 0 → z.pins = 0 → frameExists g = true → g ≠ f → dst.state = 0 → dst.pins = 0 → dst.ms = z.ms →
            exec (.xlMigrate npg) s = .next (xlDone (dropTlb (unitWrite (moveWatch (copyFrame s1 f g) f g) noUnitNode (lineKey 0 pa) (fun t =>
              writeLine t (lineKey 0 pa) (byteMask (pa % 64) 8) (putNat 0 (pa % 64) 8 (e % 65536 + g * 65536)) none)) page 1) 0 0))))))

/-- R21, R204, R205, R362, R436 to R451, R455, R460, R475: the health unit. A machine check is recorded and counted, and its
node is rolled back; the eighth retires the node; fields are drained, rebinned and retested; frames, pseudo-channels,
stacks and layers are retired with their results; a fatal event is recorded. Where the manual leaves a point open it
states the model's choice (assumption log 6, 25, 55, 61, 76). -/
def Obligations.HealthEvents : Prop :=
  ∀ (s : State) (v : Word) (id : Nat) (n : Node) (k : Check) (f : Fin 4) (bank : Fin 12288) (layer : Fin 6) (stack : Fin 8)
    (e : SoftErr) (block : Dword) (frame : Nat),
    let h := s.hl
    let done (t : State) (r : Nat) : State := { t with hl := { t.hl with busy := false, result := BitVec.ofNat 4 r } }
    let x := getField s f.val
    let central (t : State) : State := { t with dsp := { t.dsp with frozen := true } }
    let marks := bankMarks s bank.val
    (ready s = false → exec (.hlCfgWrite v) s = .next s ∧ exec .hlCdataRead s = .next s) ∧
    (ready s = true → exec (.hlCfgWrite v) s = .next { s with hl := { h with
      autoByp := v.getLsbD 2, autoBin := v.getLsbD 1, test := v.getLsbD 0, inj := if v.getLsbD 0 then h.inj else [] } }) ∧
    (ready s = true → exec .hlCdataRead s = .next (if (selectCounter s h.sel h.cnode).isSome then s else { s with hl := { h with badSel := true } })) ∧
    (h.busy = false → ∀ i ∈ [Instr.hlRetireFrame, .hlRetirePch, .hlRetireStack, .hlMarkLayer, .hlClearLayer], exec i s = .next s) ∧
    (h.busy = true → let a := h.argRun.toNat
      (h.opRun = 1 → let g := a / 2 ^ 16
        exec .hlRetireFrame s = .next (
          if a % 2 ^ 16 ≠ 0 ∨ frameExists g = false then done s 4
          else if (getFrame s g).state = 3 then done s 5
          else if (getFrame s g).pins ≠ 0 ∨ (getFrame s g).state ≠ 0 then done s 1
          else done (retireFrame s g) 0)) ∧
      (h.opRun = 2 → 1024 ≤ a → exec .hlRetirePch s = .next (done s 4)) ∧
      (h.opRun = 2 → a < 1024 → s.mem.unitsOff.elem a = false → ((retiredFrames s).filter (fun g => frameUnit g == a)).length < unitFrames a →
        exec .hlRetirePch s = .next (done s 2)) ∧
      (h.opRun = 2 → a < 1024 → s.mem.unitsOff.elem a = true → exec .hlRetirePch s = .next (done s 5)) ∧
      (h.opRun = 2 → a < 1024 → s.mem.unitsOff.elem a = false → unitFrames a ≤ ((retiredFrames s).filter (fun g => frameUnit g == a)).length →
        exec .hlRetirePch s = .next (if (tableRoom s a).length < (tablesOf s a).length then done s 3
          else done (addDev { s with mem := { s.mem with
            tables := ((tablesOf s a).zip (tableRoom s a)).foldl (fun m p => mapPut m p.1 p.2) s.mem.tables
            unitsOff := setInsert s.mem.unitsOff a } } 11 1) 0)) ∧
      (h.opRun = 3 → 8 ≤ a → exec .hlRetireStack s = .next (done s 4)) ∧
      (h.opRun = 3 → a < 8 → s.mem.stacksOff.elem a = true → exec .hlRetireStack s = .next (done s 5)) ∧
      (h.opRun = 3 → a < 8 → s.mem.stacksOff.elem a = false →
        exec .hlRetireStack s = .next (if (List.range 128).any (fun j => !s.mem.unitsOff.elem (128 * a + j)) then done s 2
          else done (addDev { s with mem := { s.mem with stacksOff := setInsert s.mem.stacksOff a } } 12 1) 0)) ∧
      (layerArg a = none → (h.opRun = 4 → exec .hlMarkLayer s = .next (done s 4)) ∧ (h.opRun = 5 → exec .hlClearLayer s = .next (done s 4))) ∧
      (layerArg a = some (bank.val, layer.val) →
        (h.opRun = 4 → exec .hlMarkLayer s = .next (if marks.getLsbD layer.val then done s 5
          else if 2 ≤ markCount marks then done s 2 else done (markLayer s bank.val layer.val) 0)) ∧
        (h.opRun = 5 → marks.getLsbD layer.val = false → exec .hlClearLayer s = .next (done s 2)) ∧
        (h.opRun = 5 → marks.getLsbD layer.val = true → ∃ t, exec .hlClearLayer s = .next t ∧ t.hl.busy = false ∧ t.hl.result = 0 ∧
          t.mem = { s.mem with marks := mapSet 0 s.mem.marks bank.val (marks &&& ~~~(BitVec.ofNat 6 (2 ^ layer.val))) }))) ∧
    (exec (.layerAutoMark bank layer) s = .next (if marks.getLsbD layer.val = true ∨ 2 ≤ markCount marks then s
      else markLayer s bank.val layer.val)) ∧
    (∃ t r, exec (.ceThreshold frame) s = .next t ∧ t.hl.seq = h.seq + 1 ∧ r ∈ t.hl.log ∧ r.seq = h.seq + 1 ∧ r.src = 9 ∧
      (0x1B, 1, 0x45) ∈ r.payload ∧ (0x20, 4, frame) ∈ r.payload ∧ (0x24, 4, frame / 2 ^ 20) ∈ r.payload) ∧
    (x.state ≠ 1 ∨ s.dsp.nodes.any (onField s f.val) = true → exec (.fieldDrained f) s = .next s) ∧
    (x.state = 1 → s.dsp.nodes.any (onField s f.val) = false → h.wait.any (fun w => w.op == 0xF6 && w.field == f.val) = false →
      exec (.fieldDrained f) s = .next (updField s f.val (fun y => { y with state := 2 }))) ∧
    (h.wait.any (fun w => w.op == 0xF3 && w.field == f.val) = false → exec (.binChangeDone f) s = .next s) ∧
    (∀ w rest, h.wait = w :: rest → w.op = 0xF3 → w.field = f.val → w.x = 2 → x.state = 2 →
      exec (.binChangeDone f) s = .next (updField (addDev (addField (updField { s with hl := { h with wait := rest } } f.val (fun y =>
        { y with bin := BitVec.ofNat 2 w.arg, pass := false })) f.val 3 1) 4 1) f.val (fun y => { y with state := 0 }))) ∧
    (∀ w rest, h.wait = w :: rest → w.op = 0xF3 → w.field = f.val →
      (x.state = 3 → exec (.binChangeDone f) s = .next s) ∧
      (x.state = 0 ∨ x.state = 1 → w.x = 0 → exec (.binChangeDone f) s = .next (answerHl { s with hl := { h with wait := rest } } w 1))) ∧
    (x.state ≠ 3 → ∀ cells others, exec (.retestDone f cells others) s = .next s) ∧
    (∀ px py, x.state = 3 → h.wait = [] → f.val < h.fields.length → x.rows = [] → x.cols = [] → ∃ t,
      exec (.retestDone f [(px, py)] 0) s = .next t ∧
      getField t f.val = { x with state := 2, pass := true, rows := [py.val], cols := [px.val] }) ∧
    (∀ px py, x.state = 3 → h.wait = [] → f.val < h.fields.length → cellOut x px.val py.val = false → sparesFor x px.val py.val = false →
      ∃ t, exec (.retestDone f [(px, py)] 0) s = .next t ∧ getField t f.val = { x with state := 2 }) ∧
    (x.state = 3 → h.wait = [] → f.val < h.fields.length → ∃ t, exec (.retestDone f [] 0) s = .next t ∧
      getField t f.val = { x with state := 2, pass := true } ∧ ∀ j, j ≠ f.val → getField t j = getField s j) ∧
    (h.wait.any (bypassReady s) = false → exec .bypassApply s = .next s) ∧
    (∀ w rest, h.wait = w :: rest → bypassReady s w = true → w.who = none →
      let s1 : State := { s with hl := { h with wait := rest } }
      exec .bypassApply s = .next (if bypassStatus s w.x w.y = 0 then removeCell s1 w.field w.x w.y
        else if bypassStatus s w.x w.y = 2 then handleSite s1 w.field else s1)) ∧
    (∃ t, exec (.hbmStackLost stack) s = .next t ∧ t.mem = { s.mem with stacksLost := setInsert s.mem.stacksLost stack.val } ∧
      ∃ r ∈ t.tq.posters, r.kind = 0x0F ∧ r.src = 9 ∧ (0x10, 1, 2) ∈ r.payload ∧ (0x18, 8, stack.val) ∈ r.payload) ∧
    (v.toNat % 2 ^ 16 ≤ 1040 → v.toNat / 2 ^ 16 ≤ 1760 → exec (.coldPlateLimit v) s = .next { s with mg := { s.mg with temp := v } }) ∧
    (1040 < v.toNat % 2 ^ 16 ∨ 1760 < v.toNat / 2 ^ 16 → ∃ t, exec (.coldPlateLimit v) s = .next t ∧ ∃ r ∈ t.tq.posters, r.kind = 0x0F ∧ (0x10, 1, 3) ∈ r.payload ∧
      (0x18, 8, v.toNat) ∈ r.payload) ∧
    (exec (.twoCopyDisagree block) s = .next (central (postFatalCode s 1 block.toNat))) ∧
    (let noted (b : Nat) : State := { s with mem := { s.mem with soft := s.mem.soft ++ [{ block := b, err := e }] } }
     exec (.memorySoftError e) s = .next (match e with
      | .sram b _ _ m => if m ≠ 0 ∧ (keyTgt b = 3 ∨ resident s b = true) then noted b else s
      | .region c part b _ _ m => if m ≠ 0 ∧ (partBank s c part b).isSome = true then noted b else s
      | .hbm b _ => noted b
      | .channel ch => if (getChan s ch.val).state = chFree then s else setChan s ch.val { getChan s ch.val with bad := true })) ∧
    (k.src = 7 ∨ k.src = 9 → exec (.machineCheck k) s = .next (central (postFatalCode s 1 k.src.val))) ∧
    (k.src = 4 ∨ k.src = 5 ∨ k.src = 6 ∧ shuttleAsked s k = true → exec (.machineCheck k) s = .next (secondMismatch s k)) ∧
    (k.src ≠ 4 → k.src ≠ 5 → k.src ≠ 7 → k.src ≠ 9 → k.src ≠ 6 ∨ shuttleAsked s k = false →
      (∀ c l, k.ctx = .fw c l → exec (.machineCheck k) s = .next (restartChecked (countCheck (
        if k.src = 6 ∧ k.inj = false then addUnit s (128 * k.y + k.x) 3 1 else s) k false) c.val)) ∧
      (k.ctx = .node id → getNode s id = some n → takeChecks s (.node id) = ([], s) → n.checks + 1 < 8 →
        (k.inj = true → exec (.machineCheck k) s = .next
          (addField (rollbackNode (updNode (countCheck s k false) id (fun m => { m with checks := m.checks + 1 })) id) k.field.val 1 1)) ∧
        (∀ u, k.inj = false → k.src ≠ 6 → checkUnit k = some u → let seen := mapGet 0 n.unitChecks (unitKey u)
          let noted (marg : Bool) : State := addField (rollbackNode (updNode (countCheck s k marg) id (fun m =>
            { m with checks := m.checks + 1, unitChecks := mapPut m.unitChecks (unitKey u) (mapGet 0 m.unitChecks (unitKey u) + 1) })) id)
            k.field.val 1 1
          (seen ≠ 2 → exec (.machineCheck k) s = .next (noted false)) ∧
          (seen = 2 → (getField s (unitField u)).marginal.elem u = false →
            exec (.machineCheck k) s = .next (nextJob (noted true) (.event (.marginalUnit u))))) ∧
        (∀ j s1, k.inj = true → j.inj = true → checkKey j < checkKey k → n.checks + 2 < 8 →
          takeChecks s1 (.node id) = ([j], s) → exec (.machineCheck k) s1 = .next (addField (rollbackNode (noteCheck id (noteCheck id s j).2 k).2 id) k.field.val 1 1)))) ∧
    (getNode s id = some n → n.checks < 8 → exec (.nodeRetireChecks id) s = .next s) ∧
    (getNode s id = some n → 8 ≤ n.checks → ∃ t, exec (.nodeRetireChecks id) s = .next t ∧ getNode t id = none ∧ t.hl.retired = true) ∧
    (∀ u, let y := unitPlace u
      let s2 := postInfo (addDev (updField s (unitField u) (fun z => { z with marginal := z.marginal ++ [u] })) 3 1) 0x40 y.1
        (y.2.2 * 256 + y.2.1)
      (h.autoByp = false → h.autoBin = false → exec (.marginalUnit u) s = .next s2) ∧
      (∀ a b, u = .site a b → h.autoBin = true → exec (.marginalUnit u) s = .next (rebinField s2 (unitField u) 1)) ∧
      (∀ px py, u = .cell px py → h.autoByp = true → bypassStatus s2 px.val py.val = 0 →
        exec (.marginalUnit u) s = .next (startBypass s2 px.val py.val none)))

/-- R60, R61, R302, R303, R307, R410, R421, R428, R433, R475: a shuttle command starts, takes the joint permit of its next tile, and
moves while its field's shuttle serves it, and completes with its counter and its tokens; a core's timer, watchdog and slice; a SIGCHK ends with its status. Where the
manual leaves a point open it states the model's choice (assumption log 19, 35, 52). -/
def Obligations.ShuttleAndCoreEvents : Prop :=
  ∀ (s s1 : State) (ticket : Nat) (x : Cmd) (c : Fin 16),
    let k := getCore s c.val
    (getCmd s ticket = none → ∀ i ∈ [Instr.shuttleCommandStart ticket, .shuttleTilePermit ticket, .shuttleComplete ticket], exec i s = .next s) ∧
    (getCmd s ticket = some x →
      (x.waitPhase = none → exec (.shuttleCommandStart ticket) s = .next (putCmd s { x with started := true })) ∧
      (∀ p y, x.waitPhase = some p → getCtx s x.ctx = some y → exec (.shuttleCommandStart ticket) s = .next (
        if y.boundary = none ∧ p < relMark y x.order.scope then putCmd s { x with started := true } else s)) ∧
      (x.started = false ∨ x.doneAt.isSome = true ∨ x.moved = true → exec (.shuttleTilePermit ticket) s = .next s) ∧
      (x.started = true → x.doneAt = none → x.moved = false → x.permit = false → x.op ≠ opRelay →
        (takeSource s x x.current = .wait → exec (.shuttleTilePermit ticket) s = .next s) ∧
        (∀ sl, takeSource s x x.current = .taken sl s1 →
          (takeAll s1 x x.current 0 x.branches = none → exec (.shuttleTilePermit ticket) s = .next s) ∧
          (∀ s2 bs, takeAll s1 x x.current 0 x.branches = some (s2, bs, false) → exec (.shuttleTilePermit ticket) s = .next
            (putCmd s2 { x with slot := sl, branches := bs, permit := true, row := 0 })))) ∧
      (x.started = true → x.doneAt = none → x.moved = false → x.permit = true → x.op ≠ opRelay →
        (served s x.field ≠ some x.ticket → exec (.shuttleTilePermit ticket) s = .next s) ∧
        (∀ x1, served s x.field = some x.ticket → moveOne s x x.current = some (x1, s1) → exec (.shuttleTilePermit ticket) s = .next (
          if x.moves x.current ≤ x.row + 1 then setTurn (endTile s1 x1 x.current) x.field x.ticket false
          else setTurn (putCmd s1 { x1 with row := x1.row + 1 }) x.field x.ticket true))) ∧
      (cmdReady x = false → exec (.shuttleComplete ticket) s = .next s) ∧
      (cmdReady x = true → x.cnt = 0 ∨ x.counted = true → exec (.shuttleComplete ticket) s = .next (finishCmd s x)) ∧
      (∀ tgt a w, cmdReady x = true → x.cnt ≠ 0 → x.counted = false → posterWaits s (.cmd x.ticket) = false →
        resolve s x.ctx x.cnt true = (.at tgt a w, s1) → exec (.shuttleComplete ticket) s = .next (finishCmd
          (counterAdd s1 x.ctx (lineKey tgt a) a x.add (x.order.scope == .sys)) x))) ∧
    (exec (.timerMatch c) s = .next (
      if BitVec.ofNat 32 s.run.time = k.tcmp then updCore s c.val (fun y => { y with evt := y.evt ||| 0x10 }) else s)) ∧
    (∀ w, (coreWin k k.level.toNat).win = some w → let n := s.run.time - w.loadedUs
      let late : Bool := (coreWin k k.level.toNat).late
      exec (.fwWatchdog c) s = .next (
        if k.wdog ≠ 0 ∧ late = false ∧ k.wdog.toNat ≤ n ∧ crashWaits s c.val = false then takeTrap (updCore s c.val (fun y =>
          setCoreWin y y.level.toNat { coreWin y y.level.toNat with late := true })) c.val k.level.toNat 0x05 none (BitVec.ofNat 32 n)
        else s)) ∧
    ((coreWin k k.level.toNat).win = none → exec (.fwWatchdog c) s = .next s) ∧
    (exec (.sliceExpiry c) s = .next (
      if k.slice.toNat ≤ s.run.time - k.sliceStart then updCore s c.val (fun y => { y with yielded := true }) else s)) ∧
    (s.fw.sig = none → exec .sigchkComplete s = .next s) ∧
    (∀ r m, s.fw.sig = some r → copyImage r.kept r.va.toNat ((r.len + 63) / 64) 0 Store.empty s = (some m, s1) →
      let st := sigStatus m r.len r.key (getCore s1 r.core).fwver
      exec .sigchkComplete s = .next (tellUnit { s1 with fw := { s1.fw with
        sig := none, staged := m, stagedOk := decide (st = 0), stgver := if st = 0 then imageVersion m else 0 } } r.c r.idx st)) ∧
    (∀ r, s.fw.sig = some r → copyImage r.kept r.va.toNat ((r.len + 63) / 64) 0 Store.empty s = (none, s1) →
      exec .sigchkComplete s = .next (tellUnit { s1 with fw := { s1.fw with sig := none, staged := Store.empty } } r.c r.idx 4))

/-- R44, R317, R463 to R471: the hosts and the peers. A host's writes and reads reach memory block by block, its
register writes reach the register of their offset; a link's changes are noted; a peer's flits open a transfer, deliver
its blocks, return credits and acknowledge; a port that goes down fails its RELAYs. Where the manual leaves a point open
it states the model's choice (assumption log 20, 22, 51, 54, 77). -/
def Obligations.LinkEvents : Prop :=
  ∀ (s s1 s2 : State) (port : Fin 2) (off : BitVec 36) (reg : BitVec 15) (view : BitVec 31) (data : List Byte) (v : Dword) (dsc : Desc)
    (l : Line) (pa : Nat) (up : Bool) (rate : BitVec 4) (wd : BitVec 5) (p : Fin 8) (f : Flit) (h : HeaderFlit) (x : Cmd) (ticket : Dword)
    (n : Nat),
    let q := getPeer s p.val
    let i := off.toNat % 64
    (ready s = false → exec (.registerWrite port reg up v) s = .next s ∧ exec (.hostWrite port off data) s = .next s ∧
      exec (.descriptorViewWrite port view n dsc) s = .next s) ∧
    (ready s = true →
      (∀ num, reg.toNat % 4 = 0 → 0x40 ≤ reg.toNat → barNumber reg.toNat = some num →
        (isWide num = false → num = 0 ∨ isWide (num - 1) = false →
          exec (.registerWrite port reg false v) s = .next (writeNarrow num (v.setWidth 32) s)) ∧
        (isWide num = true → exec (.registerWrite port reg false v) s =
          .next (writeWide s num (joinWords (v.setWidth 32) ((readWide s num >>> 32).setWidth 32)))) ∧
        (isWide num = true → reg.toNat % 8 = 0 → exec (.registerWrite port reg true v) s = .next (writeWide s num v))) ∧
      (reg.toNat % 4 ≠ 0 → exec (.registerWrite port reg up v) s = .next s) ∧
      (data ≠ [] → i + data.length ≤ 64 → apertureAddr s port off.toNat = some pa →
        exec (.hostWrite port off data) s = .next (hostPut s pa i data)) ∧
      (data ≠ [] → i + data.length ≤ 64 → apertureAddr s port off.toNat = none → exec (.hostWrite port off data) s = .next s) ∧
      (view.toNat % 2 = 0 → apertureAddr s port (view.toNat / 2 * 64) = some pa → let key := lineKey 0 pa
        exec (.descriptorViewWrite port view 2 dsc) s = .next (unitWrite s noUnitNode key (fun t =>
          writeBack (pokeLine (readLine t key).2 key { (readLine t key).1 with desc := dsc }) key))) ∧
      (n ≠ 2 → exec (.descriptorViewWrite port view n dsc) s = .next s)) ∧
    (0 < n → i + n ≤ 64 → apertureAddr s port off.toNat = some pa → unitRead s noUnitNode (lineKey 0 pa) = (l, s1) → l.psn = false →
      exec (.hostRead port off n) s = .next { s1 with run := { s1.run with
        toHost := s1.run.toHost ++ [.readReply port (((lineBytes l.data).drop i).take n)] } }) ∧
    (0 < n → i + n ≤ 64 → apertureAddr s port off.toNat = none → exec (.hostRead port off n) s = .next { s with run := { s.run with
      toHost := s.run.toHost ++ [.readReply port (List.replicate n 0)] } }) ∧
    (exec (.hostRequestTimeout port) s = .next (updHp s port (fun y => { y with err := y.err + 1, failing := y.failing + 1 }))) ∧
    (exec (.hostLinkChange port up rate wd) s = .next (updHp s port (fun y => { y with linkUp := up, rate := rate, width := wd }))) ∧
    (q.outq = [] → exec (.peerCreditFlit p) s = .next (updPeer s p.val (fun y => { y with credits := min 512 (y.credits + 1) }))) ∧
    (∀ o rest, q.outq = o :: rest → exec (.peerCreditFlit p) s = .next (toPeer (updPeer s p.val (fun y => { y with outq := rest })) o)) ∧
    (exec (.peerFlitCrcFail p) s = .next (updPeer s p.val (fun y => { y with replays := y.replays + 1 }))) ∧
    (exec (.peerPortUp p) s = .next (updPeer s p.val (fun y =>
      if y.training = true ∧ y.en = true then { y with up := true, training := false, credits := 512 } else y))) ∧
    (∀ t, (exec (.peerPortDown p) s = .next t ∨ ready s = true ∧ exec (.prRetrain p) s = .next t) → p.val < s.pr.length →
      (getPeer t p.val).up = false ∧ (∀ j, j ≠ p.val → getPeer t j = getPeer s j) ∧ (∀ r ∈ t.sh.relays, r.port ≠ p.val) ∧
      t.mem = s.mem ∧ ∀ y ∈ s.sh.cmds, y.op = opRelay → y.started = true → y.doneAt = none → y.acked = false → relayPort y = p →
        y.mark stPeer ∈ t.sh.cmds) ∧
    (∃ t, exec (.peerPortDown p) s = .next t ∧ t.pr = modNth (fun y => { y with up := false, training := false, outq := [] }) s.pr p.val) ∧
    (ready s = false → exec (.prRetrain p) s = .next s) ∧
    (ready s = true → ∃ t, exec (.prRetrain p) s = .next t ∧ t.pr = modNth (fun y => { y with up := false, training := q.en, outq := [] }) s.pr p.val) ∧
    (q.up = false → exec (.peerDataFlit p f) s = .next s ∧ exec (.peerHeaderFlit p h) s = .next s ∧ exec (.peerAckFlit p ticket) s = .next s) ∧
    (q.up = true → h.hops = 0 → exec (.peerHeaderFlit p h) s = .next (
      let t := toPeer s (.credit p)
      { t with sh := { t.sh with relays := t.sh.relays ++ [{ port := p.val, fport := h.fport.val, hops := 0, nextAck := false, refused := false,
                                                             ticket := h.ticket, nrow := h.nrow, rb := h.rb, pcnt := h.pcnt
                                                             padd := h.padd, va := h.va, got := 0 }] } })) ∧
    (∀ r rest w t a, q.up = true → f.hops = 0 → f.poison = false → s.sh.relays = r :: rest → r.port = p.val → r.hops = 0 →
      relayWhole r = false → relayWhole { r with got := r.got + 1 } = false →
      translate (toPeer s (.credit p)) (f.va.signExtend 64) true = (.at t a w, s1) →
      unitWrite s1 noUnitNode (lineKey t a) (fun y =>
        writeBack (writeLine y (lineKey t a) (BitVec.allOnes 64) f.data (some f.desc)) (lineKey t a)) = s2 →
      s2.sh = s.sh →
        exec (.peerDataFlit p f) s = .next { s2 with sh := { s2.sh with relays := { r with got := r.got + 1 } :: rest } }) ∧
    (q.up = true → ackedCmd s p ticket = some x → exec (.peerAckFlit p ticket) s = .next (putCmd (toPeer s (.credit p)) { x with acked := true })) ∧
    (getCmd s n = some x → x.op = opRelay → x.opened = true → x.acked = false → x.doneAt = none → 10000 ≤ s.run.time - x.sentUs →
      exec (.relayAckTimeout n) s = .next (putCmd s (x.mark stPeer))) ∧
    (getCmd s n = some x → x.acked = true ∨ x.doneAt.isSome = true ∨ x.opened = false ∨ s.run.time - x.sentUs < 10000 → exec (.relayAckTimeout n) s = .next s)

/-- R1, R472 to R474: reset and bring-up. A held reset switches everything off; each stage passes to the next, or bring-
up stops; the stages choose the image, set the frames normal, clear the memories, give every field its bin, start the
cores, and train the links; an attestation report is written, or its address refused. Where the manual leaves a point
open it states the model's choice (assumption log 6, 10, 50, 67). -/
def Obligations.BootEvents : Prop :=
  ∀ (s : State) (ok : Bool) (k : Nat) (marks : List (Fin 12288 × Fin 6)),
    let m := s.mg
    let failed : State := { s with mg := { m with stage := 15, halted := true } }
    let staged (t : State) (n : Nat) : State := { t with mg := { t.mg with stage := BitVec.ofNat 4 n } }
    let rows : List (Nat × Instr) := [(2, .hbmTrain ok), (3, .sramTest ok marks), (4, .binLoadRetest ok), (5, .firmwareInstall), (6, .linkTrain ok)]
    (exec (.moduleReset false) s = .next { s with mg := { m with off := false, stage := if m.off then 1 else m.stage } }) ∧
    (∃ t, exec (.moduleReset true) s = .next t ∧ t.mg.off = true ∧ t.mg.stage = 0 ∧ t.mg.imageA = m.imageA ∧ t.mg.imageB = m.imageB ∧
      t.mem.hbm = Store.empty ∧ t.mem.dirty = [] ∧ t.mem.host0 = s.mem.host0 ∧ t.mem.host1 = s.mem.host1 ∧ t.dsp = Dispatcher.init ∧
      t.cores = List.replicate 16 Core.init ∧ t.tq = TrapQueue.init ∧ t.hl = Health.init ∧ t.chu = ChanUnit.init ∧ t.xl = Xlate.init) ∧
    (∀ r ∈ rows, m.off = true ∨ m.stage.toNat ≠ r.1 → exec r.2 s = .next s) ∧
    (m.off = true ∨ 1 < m.stage.toNat → exec .bootImageVerify s = .next s) ∧
    (m.off = false →
      (ok = false → ∀ r ∈ rows, r.1 ≠ 5 → m.stage.toNat = r.1 → exec r.2 s = .next failed) ∧
      (m.stage = 0 → exec .bootImageVerify s = .next (staged s 1)) ∧
      (m.stage = 1 → bootSlot s = none → exec .bootImageVerify s = .next failed) ∧
      (m.stage = 1 → bootSlot s = some k → ∃ t, exec .bootImageVerify s = .next t ∧ t = { s with mg := { m with
        stage := 2, slot := BitVec.ofNat 4 k, measure := t.mg.measure } }) ∧
      (m.stage = 2 → ok = true → mapWf Frame.init s.mem.frames = true → ∃ t, exec (.hbmTrain ok) s = .next t ∧ t.mg = { m with stage := 3 } ∧
        ∀ f, (getFrame t f).ms = false ∧ (getFrame t f).state = 0 ∧ (getFrame t f).pins = 0) ∧
      (m.stage = 3 → ok = true → marks = [] → exec (.sramTest ok marks) s = .next (staged { s with
        mem := { s.mem with ways := [], dirty := [], soft := [], marks := [] }, chu := { s.chu with pool := Store.empty, tags := [] } } 4)) ∧
      (m.stage = 4 → ok = true → s.hl.fields.length = 4 → ∃ t, exec (.binLoadRetest ok) s = .next t ∧ t.mg = { m with stage := 5 } ∧
        ∀ f, f < 4 → (getField t f).state = 0 ∧ (getField t f).pass = true ∧ (getField t f).marginal = (getField s f).marginal ∧
          (getField t f).rows.length ≤ 4 ∧ (getField t f).cols.length ≤ 4) ∧
      (m.stage = 5 → s.cores.length = 16 → ∃ t, exec .firmwareInstall s = .next t ∧ t.mg = { m with stage := 6 } ∧
        t.fw.active = imageOf s m.slot.toNat ∧ ∀ c, c < 16 → (getCore t c).f0.win = none ∧
          (getCore t c).fwver = imageVersion t.fw.active ∧ (s.fw.swapping = false → (getCore t c).f0.draft = DraftSt.init (imageEntry t c) ∧
            (getCore t c).tvec = imageTrapd t c)) ∧
      (m.stage = 6 → ok = true → ∃ t, exec (.linkTrain ok) s = .next t ∧ ready t = true ∧ t.hp0.linkUp = true ∧ t.hp1.linkUp = true ∧
        t.pr = s.pr.map (fun q => { q with up := q.en, training := false }))) ∧
    (m.atBusy = false → exec .mgAttest s = .next s) ∧
    (m.atBusy = true → ¬(m.atpa.toNat % 256 = 0 ∧ paExists m.atpa.toNat = true) →
      exec .mgAttest s = .next { s with mg := { m with atBusy := false, atResult := 1 } }) ∧
    (m.atBusy = true → m.atpa.toNat % 256 = 0 → paExists m.atpa.toNat = true → ∃ t, exec .mgAttest s = .next t ∧
      t = { putReport s m.atpa.toNat (reportBytes s) with mg := { (putReport s m.atpa.toNat (reportBytes s)).mg with atBusy := false, atResult := 0 } } ∧
      (reportBytes s).length = 256 ∧ ((reportBytes s).take 16 = leBytes 2 0xD9A7 ++ leBytes 1 1 ++ List.replicate 5 0 ++ leBytes 8 m.nonce.toNat))

/-! ### The machine as a whole -/

/-- R1, R45, R54, R55, R201, R331, R332, R379, R391, R403, R418, R446, R454, R464, R471: after reset every register of a unit holds
the value that the manual states: the queue of 256 slots, disabled; no node, no channel, every field admitted; the
budgets, the age tick, the detector's interval; every core at level 0 with its timer at its last value. That the byte memories are in
canonical form, `s.mem.wf`, is no value of the manual: the form is the model's own (assumption log 7). -/
def Obligations.ResetState : Prop :=
  let s := State.reset
  s.tq.en = false ∧ s.tq.log2n = 8 ∧ s.tq.head = 0 ∧ s.tq.tail = 0 ∧ s.tq.fatal = false ∧ s.tq.dropped = 0 ∧ s.tq.stamp = 0 ∧
  s.lw0.committed = none ∧ s.lw0.cause = 0 ∧ s.lw0.refusedBit = false ∧ s.lw0.acceptedBit = false ∧ s.lw1 = s.lw0 ∧
  s.xl.root = 0 ∧ s.xl.en = false ∧ s.xl.busy = false ∧ s.xl.result = 0 ∧
  s.chu.en = false ∧ s.chu.dint = 0x28 ∧ s.chu.grows = 0 ∧ s.chu.deadlk = 0 ∧ (∀ k, (getChan s k).state = chFree) ∧
  s.dsp.nodes = [] ∧ s.dsp.ageTick = 4 ∧ s.dsp.autoPre = true ∧ s.dsp.lrefused = 0 ∧ s.dsp.relDrop = 0 ∧ s.dsp.preempts = 0 ∧
  s.pwr.fbud = [420, 420, 420, 420] ∧ s.pwr.mbud = 650 ∧ s.pwr.depth = 64 ∧ s.pwr.mthr = 0 ∧
  s.cores.length = 16 ∧ (∀ k ∈ s.cores, k.level = 0 ∧ k.evt = 0 ∧ k.tcmp = 0xFFFFFFFF#32 ∧ k.wdog = 0 ∧ k.slice = 50 ∧ k.crash = 0 ∧
    k.keep = [] ∧ k.resident = [] ∧ k.tb0 = TrapBank.init ∧ k.tb1 = TrapBank.init) ∧ s.run.time = 0 ∧
  s.hl.autoByp = true ∧ s.hl.autoBin = true ∧ s.hl.test = false ∧ s.hl.seq = 0 ∧ s.hl.ceThr = 64 ∧ s.hl.fields.length = 4 ∧
  (∀ f ∈ s.hl.fields, f.state = 0 ∧ f.pass = true ∧ f.bin = 0) ∧
  s.hp0.apBase = 0 ∧ s.hp0.tqEn = false ∧ s.hp0.fatalEn = false ∧ s.hp1 = s.hp0 ∧ s.pr.length = 8 ∧
  (∀ p ∈ s.pr, p.en = true ∧ p.replays = 0) ∧ s.mg.stage = 0 ∧ s.mg.slot = 0 ∧ s.mg.atResult = 0 ∧ s.mem.wf = true

/-- R95, R176: no step disturbs the canonical form of the byte memories: addresses rise, and no byte is listed that an unlisted
address reads as. The form is the model's choice (assumption log 7). -/
def Obligations.MemoryStaysCanonical : Prop :=
  ∀ s t, s.mem.wf = true → step s = .next t → t.mem.wf = true

/-- R4, R21, R26, R392: a step that takes up a unit decodes its instruction's word, and runs exactly that instruction, with
the unit in focus, and then the energy of its ports and a commit boundary that falls due; a word that is no legal
instruction blocks its unit; a context that may not act, a port that its bucket holds back, and an access to HBM that the
module's bucket holds back, do nothing. A step that takes up a row without a word runs it with no unit in focus; a pre-
emption, a boundary and the detector are told first which contexts are quiescent. Where the manual leaves a point open
it states the model's choice (assumption log 1, 2, 4). -/
def Obligations.StepRunsDecoded : Prop :=
  ∀ (s : State) (c : CtxId) (i : Nat) (js : List Job) (w : Word) (ins : Instr),
    let s1 : State := { s with run := { s.run with agenda := js } }
    let s2 : State := { s1 with run := { s1.run with focus := some (c, i) } }
    let held (a b : State) : Bool := moduleThrottled a && decide (a.pwr.moved < b.pwr.moved)
    let after (a : State) (f : State → State) (o : Host.Outcome State Fault Refusal) : Host.Outcome State Fault Refusal :=
      match o with
      | .next t => .next (if held a t then a else f t)
      | o => o
    (s.run.agenda = .fire c i :: js →
      (mayFire s1 c = false → step s = .next s1) ∧
      (mayFire s1 c = true → fetchWord s1 c i = some w → decodeBytes (wordBytes w.toNat) = .ok (ins, []) → ins.wellFormed = true →
        (heldBack s1 c i = true → step s = .next s1) ∧
        (heldBack s1 c i = false → step s = after s2 (fun t => settleCommit (chargeUnit s2 t c i) c) (exec ins s2))) ∧
      (mayFire s1 c = true → fetchWord s1 c i = some w →
        (∀ x, decodeBytes (wordBytes w.toNat) = .ok (x, []) → x.wellFormed = false) →
          step s = .next (updUnit s1 c i (fun u => { u with blk := true })))) ∧
    (let s3 : State := { s1 with run := { s1.run with focus := none } }
     let tell (l : List CtxId) : State := { s3 with run := { s3.run with still := l } }
     s.run.agenda = .event ins :: js →
      (s.mg.off = true → (∀ b, ins ≠ .moduleReset b) → step s = .next s3) ∧
      (s.mg.off = false →
        ((∀ t, ins ≠ .shuttleTilePermit t) → (∀ t, ins ≠ .shuttleComplete t) → (∀ n, ins ≠ .preemption n) → (∀ y, ins ≠ .phaseBoundary y) →
          ins ≠ .deadlockDetect → step s = exec ins s3) ∧
        (∀ t, ins = .shuttleComplete t → step s = after s3 id (exec ins s3)) ∧
        (∀ t, ins = .shuttleTilePermit t → step s = if shuttleHeld s3 t then .next s3 else after s3 (fun y => chargeMove s3 y t) (exec ins s3)) ∧
        (∀ n, ins = .preemption n → step s = exec ins (tell (if isStill s3 (.node n) then [.node n] else []))) ∧
        (∀ y t, ins = .phaseBoundary y → exec ins (tell (if isStill s3 y then [y] else [])) = .next t → step s = .next (settleCommit t y)) ∧
        (ins = .deadlockDetect → step s = exec ins (tell (stillNodes s3)))))

/-- R76 to R80, R84, R139, R141, R148, R153, R158, R209: words written out from the encodings, and the instructions that they decode to;
words of no instruction decode to none; and a word whose base selector R209 forbids decodes to no well-formed instruction. -/
def Obligations.DecodeWords : Prop :=
  let a (n : Fin 128) : Tgt := some { slot := .a, index := n }
  let h (n : Fin 128) (p : Pred) : DHead := { t0 := a n, t1 := none, pred := p }
  let words : List (Nat × Instr) :=
    [(0x0102FFC0, .mov (h 5 .always)), (0x06010018, .mark (a 2) 3 0), (0x09018000, .count (a 3) 0), (0x10027FC9, .add (h 4 .always) true false .w16),
     (0x2CC327FB, .cmpi (some { slot := .p, index := 6 }) .lt false 0x7FB#11), (0x2E0320FF, .logi (a 6) .or 0x0FF#13),
     (0x33857FC3, .ffma { t0 := some { slot := .c, index := 10 }, t1 := none, pred := .always } .rdn), (0x4002FFD4, .cvtif (h 5 .ifTrue) true .rne)] ++
    [(0x56028686, .ld { t := a 5, seq := 3, unord := false } .s 0 true .w8), (0x69028272, .cntadd { t := a 5, seq := 1, unord := true } 3 .sys),
     (0x7A02FE01, .pin { t := a 5, seq := 63, unord := false } true), (0x84028135, .mma (a 5) 2 3 .strm 1), (0x93028482, .vfma (a 5) 9 true false),
     (0xA0028051, .copy (a 5) 0 { acq := true, rel := false, scope := .sys } true), (0xB10281E0, .push (a 5) 7 .ifFalse)] ++
    [(0xC002841C, .matom { t := a 5, seq := 2, unord := false } 1 12),
     (0xD002822C, .launch (a 5) 4 { acq := false, rel := true, scope := .dev } false), (0xE202801C, .csrrd (a 5) 0x01C#12), (0xF1028001, .ecntr (a 5) true)]
  (∀ p ∈ words, decodeBytes (wordBytes p.1) = .ok (p.2, []) ∧ p.2.wellFormed = true ∧ encode p.2 = some p.1) ∧
  (∀ w ∈ [0x00000000, 0xFF000000, 0x4F000000, 0x0102FFF0, 0x56028786], (decodeWord w).toOption = none) ∧
  (∀ i, (decodeWord 0x560286A6).toOption = some i → i.wellFormed = false)

/-- R76 to R83: the decoder and the encodings agree: the word that encodes a well-formed instruction decodes to it, with every
operand; and a word that decodes encodes back to the same 32 bits, so no two words are one instruction. -/
def Obligations.EncodingsRoundTrip : Prop :=
  (∀ (i : Instr) (w : Nat), i.wellFormed = true → encode i = some w → w < 2 ^ 32 ∧ decodeWord w = .ok i) ∧
  (∀ (i : Instr) (w : Nat), w < 2 ^ 32 → decodeWord w = .ok i → encode i = some w)
end

