-- ==== Sys2Proof/Laws/Windows.lean ====
section
/-! SUPPORT. Contexts, windows and units: what an update of one does to it and to the others. -/

namespace Sys2Proof.Machine

theorem modNth_get {α : Type} (f : α → α) : ∀ (l : List α) (n k : Nat), (modNth f l n)[k]? = if k = n then (l[k]?).map f else l[k]?
  | [], n, k => by simp [modNth]
  | x :: xs, 0, 0 => by simp [modNth]
  | x :: xs, 0, k + 1 => by simp [modNth]
  | x :: xs, n + 1, 0 => by simp [modNth]
  | x :: xs, n + 1, k + 1 => by simp [modNth, modNth_get f xs n k]

theorem getNode_updNode (s : State) (id : Nat) (f : Node → Node) (hf : ∀ n, (f n).id = n.id) :
    getNode (updNode s id f) id = (getNode s id).map f := by
  simp only [getNode, updNode]
  induction s.dsp.nodes with
  | nil => rfl
  | cons n l ih =>
    simp only [List.map_cons, List.find?_cons]
    by_cases h : n.id = id
    · simp [h, hf]
    · simp only [h, if_false]
      have : (n.id == id) = false := by simpa using h
      simp only [this]
      exact ih

theorem nth_modNth {α : Type} (d : α) (f : α → α) : ∀ (l : List α) (n : Nat), n < l.length → nth d (modNth f l n) n = f (nth d l n)
  | [], n, h => by simp at h
  | x :: xs, 0, _ => rfl
  | x :: xs, n + 1, h => by simpa [modNth, nth] using nth_modNth d f xs n (by simpa using h)

theorem nth_out {α : Type} (d : α) : ∀ (l : List α) (n : Nat), l.length ≤ n → nth d l n = d
  | [], n, h => rfl
  | x :: xs, 0, h => by simp at h
  | x :: xs, n + 1, h => by simpa [nth] using nth_out d xs n (by simpa using h)

theorem coreWin_set (k : Core) (l : Fin 3) (w : FwWin) : coreWin (setCoreWin k l.val w) l.val = w := by
  match l with
  | 0 => rfl
  | 1 => rfl
  | 2 => rfl
theorem setCoreWin_ctx (k : Core) (l : Nat) (w : FwWin) : (setCoreWin k l w).ctx = k.ctx := by
  unfold setCoreWin; split <;> rfl

theorem coreWin_init (l : Nat) : (coreWin Core.init l).win = none := by
  unfold coreWin; split <;> rfl

theorem envAt_updWin {s : State} {c : CtxId} {i : Nat} {e : Env} (h : envAt s c i = some e) (f : Window → Window) :
    envAt (updWin s c f) c i = ((f e.win).units[i]?).map (fun u => { e with win := f e.win, u := u }) ∧
    (∀ j ej, envAt s c j = some ej → ej.ctx = e.ctx ∧ ej.win = e.win ∧ ej.c = c ∧ ej.i = j ∧ e.win.units[j]? = some ej.u) ∧
    (∀ j, envAt (updWin s c f) c j = ((f e.win).units[j]?).map (fun u => { e with i := j, win := f e.win, u := u })) := by
  have key : ∃ x w, getCtx s c = some x ∧ getWin s c = some w ∧ getCtx (updWin s c f) c = some x ∧ getWin (updWin s c f) c = some (f w) := by
    simp only [envAt] at h
    split at h
    · rename_i x w h1 h2
      refine ⟨x, w, h1, h2, ?_⟩
      cases c with
      | node id =>
        simp only [getCtx, getWin, updWin] at *
        have e1 := getNode_updNode s id (fun n => { n with win := n.win.map f }) (fun _ => rfl)
        rw [e1]
        cases hn : getNode s id with
        | none => simp [hn] at h1
        | some n => simp [hn] at h1 h2 ⊢; exact ⟨h1, by rw [h2]; simp⟩
      | fw k l =>
        simp only [getCtx, getWin, updWin, updCore, getCore] at *
        have hk : k.val < s.cores.length := by
          by_contra hc
          rw [nth_out _ _ _ (by omega), coreWin_init] at h2
          cases h2
        rw [nth_modNth _ _ _ _ hk]
        simp only [setCoreWin_ctx, coreWin_set]
        rw [h2]
        exact ⟨h1, rfl⟩
    · cases h
  obtain ⟨x, w, h1, h2, h3, h4⟩ := key
  have he : e.ctx = x ∧ e.win = w ∧ e.c = c ∧ e.i = i := by
    simp only [envAt, h1, h2, Option.map_eq_some_iff] at h
    obtain ⟨u, _, rfl⟩ := h
    exact ⟨rfl, rfl, rfl, rfl⟩
  obtain ⟨rfl, rfl, rfl, rfl⟩ := he
  refine ⟨?_, ?_, ?_⟩
  · simp only [envAt, h3, h4]
  · intro j ej hj
    simp only [envAt, h1, h2, Option.map_eq_some_iff] at hj
    obtain ⟨u, hu, rfl⟩ := hj
    exact ⟨rfl, rfl, rfl, rfl, hu⟩
  · intro j
    simp only [envAt, h3, h4]

theorem popSlots_queue (sl : List Slot) (hn : sl.Nodup) (u : ElemSt) (x : Slot) :
    slotQueue (popSlots u sl) x = if x ∈ sl then (slotQueue u x).tail else slotQueue u x := by
  have base : ∀ (u : ElemSt) (a x : Slot), slotQueue (popSlot u a) x = if x = a then (slotQueue u x).tail else slotQueue u x := by
    intro u a x; cases a <;> cases x <;> simp [popSlot, setQueue, slotQueue]
  induction sl generalizing u with
  | nil => simp [popSlots]
  | cons a l ih =>
    simp only [popSlots, List.foldl_cons] at *
    rw [ih (List.nodup_cons.1 hn).2, base]
    have := (List.nodup_cons.1 hn).1
    by_cases h : x = a
    · subst h; simp [this]
    · simp [h]

theorem popSlots_fired (sl : List Slot) (u : ElemSt) : (popSlots u sl).fired = u.fired := by
  induction sl generalizing u with
  | nil => rfl
  | cons a l ih => simp only [popSlots, List.foldl_cons] at *; rw [ih]; cases a <;> rfl

/-- Tokens sent reach no unit but those of their targets. -/
theorem sendToks_unit (i : Nat) : ∀ (l : List (Target × Token)) (stage : List (Target × Token)) (w : Window) (j : Nat),
    (∀ p ∈ l, p.1.index.val ≠ j) → (sendToks w i stage l).1.units[j]? = w.units[j]?
  | [], _, w, j, h => rfl
  | (t, tok) :: l, stage, w, j, h => by
    simp only [sendToks]
    split
    · rfl
    · split
      · rw [sendToks_unit i l stage _ j (fun p hp => h p (by simp [hp]))]
        simp only [pushTok]
        rw [modNth_get, if_neg]
        exact fun hj => h (t, tok) (by simp) hj.symm
      · exact sendToks_unit i l _ w j (fun p hp => h p (by simp [hp]))

theorem slotQueue_set (u : ElemSt) (a : Slot) (q : List Token) : slotQueue (setQueue u a q) a = q := by cases a <;> rfl
/-- Tokens sent change a window in its units alone. -/
theorem sendToks_units (i : Nat) : ∀ (l stage : List (Target × Token)) (w : Window),
    { (sendToks w i stage l).1 with units := [] } = { w with units := [] }
  | [], _, w => rfl
  | (t, tok) :: l, stage, w => by
    simp only [sendToks]
    split
    · rfl
    · split
      · rw [sendToks_units i l]; rfl
      · rw [sendToks_units i l]

theorem drainStage_units (i : Nat) : ∀ (l : List (Target × Token)) (w : Window),
    { (drainStage w i l).1 with units := [] } = { w with units := [] }
  | [], w => rfl
  | (t, tok) :: l, w => by
    simp only [drainStage]
    split
    · rw [drainStage_units i l]; rfl
    · exact drainStage_units i l w

theorem emitToks_units (w : Window) (i : Nat) (l : List (Target × Token)) :
    { emitToks w i l with units := [] } = { w with units := [] } := sendToks_units i l (unitStage w i) w

theorem pumpOut_units (w : Window) (i : Nat) : { pumpOut w i with units := [] } = { w with units := [] } := by
  simp only [pumpOut]
  split
  · rfl
  · rename_i u _
    exact (sendToks_units i u.out (drainStage w i u.stage).2 (drainStage w i u.stage).1).trans (drainStage_units i u.stage w)

/-! ### The order of tokens on the way to a target -/

theorem tokensTo_append (tg : Target) (l m : List (Target × Token)) : tokensTo tg (l ++ m) = tokensTo tg l ++ tokensTo tg m := by
  simp [tokensTo]

theorem tokensTo_free {stage : List (Target × Token)} {tg : Target} (h : stageFree stage tg = true) : tokensTo tg stage = [] := by
  simp only [stageFree, Bool.not_eq_true', List.any_eq_false] at h
  simpa only [tokensTo, List.map_eq_nil_iff, List.filter_eq_nil_iff] using h

theorem slotQueue_set_other (u : ElemSt) {x y : Slot} (q : List Token) (h : x ≠ y) : slotQueue (setQueue u x q) y = slotQueue u y := by
  cases x <;> cases y <;> first | rfl | exact absurd rfl h

/-- The queue of a target of a window, where its unit stands there. -/
def queueOf (w : Window) (tg : Target) : Option (List Token) := (w.units[tg.index.val]?).map (fun u => slotQueue u tg.slot)

theorem queueOf_push (w : Window) (t tg : Target) (tok : Token) :
    queueOf (pushTok w t tok) tg = (queueOf w tg).map (fun q => if t = tg then q ++ [tok] else q) := by
  simp only [queueOf, pushTok, modNth_get]
  by_cases h : t = tg
  · subst h; simp [Option.map_map, Function.comp_def, slotQueue_set]
  · simp only [h, if_false]
    split
    · rename_i hi
      have : t.slot ≠ tg.slot := fun hs => h (by cases t; cases tg; cases hs; cases Fin.ext hi; rfl)
      simp [Option.map_map, Function.comp_def, slotQueue_set_other _ _ this]
    · simp [Option.map_map, Function.comp_def]

/-- What stands in a target's queue and then on the way to it is what stood there and then what was sent to it, in order. -/
theorem sendToks_order (i : Nat) (tg : Target) : ∀ (l stage : List (Target × Token)) (w : Window),
    (queueOf (sendToks w i stage l).1 tg).map (· ++ tokensTo tg ((sendToks w i stage l).2.1 ++ (sendToks w i stage l).2.2)) =
      (queueOf w tg).map (· ++ tokensTo tg stage ++ tokensTo tg l)
  | [], stage, w => by simp [sendToks, tokensTo]
  | (t, tok) :: l, stage, w => by
    simp only [sendToks]
    split
    · simp [tokensTo_append]
    · rename_i hf
      have hf : stageFree stage t = true := by simpa using hf
      split
      · rw [sendToks_order i tg l stage (pushTok w t tok), queueOf_push]
        cases queueOf w tg with
        | none => rfl
        | some q =>
          by_cases h : t = tg
          · subst h; simp [tokensTo_free hf]; simp [tokensTo]
          · simp [h, tokensTo]
      · rw [sendToks_order i tg l (stage ++ [(t, tok)]) w, tokensTo_append]
        cases queueOf w tg with
        | none => rfl
        | some q => simp only [Option.map_some, tokensTo, List.filter_cons]; split <;> simp_all

/-- The core that is updated. -/
theorem getCore_updCore_self (s : State) (c : Nat) (f : Core → Core) (h : c < s.cores.length) :
    getCore (updCore s c f) c = f (getCore s c) := nth_modNth _ _ _ _ h

theorem nth_modNth_other {α : Type} (d : α) (f : α → α) : ∀ (l : List α) (n k : Nat), k ≠ n → nth d (modNth f l n) k = nth d l k
  | [], n, k, h => rfl
  | x :: xs, 0, 0, h => absurd rfl h
  | x :: xs, 0, k + 1, h => rfl
  | x :: xs, n + 1, 0, h => rfl
  | x :: xs, n + 1, k + 1, h => by simpa [modNth, nth] using nth_modNth_other d f xs n k (by omega)

theorem getCore_updCore_other (s : State) (c k : Nat) (f : Core → Core) (h : k ≠ c) : getCore (updCore s c f) k = getCore s k :=
  nth_modNth_other _ _ _ _ _ h

theorem getNode_updNode_other (s : State) (id k : Nat) (f : Node → Node) (hf : ∀ n, (f n).id = n.id) (h : k ≠ id) :
    getNode (updNode s id f) k = getNode s k := by
  simp only [getNode, updNode]
  induction s.dsp.nodes with
  | nil => rfl
  | cons n l ih =>
    simp only [List.map_cons, List.find?_cons]
    by_cases hn : n.id = id
    · have h1 : (n.id == k) = false := by simpa using fun hk => h (hk.symm.trans hn)
      simp only [hn, if_true, hf]
      rw [← hn, h1]; simpa [hn] using ih
    · simp only [hn, if_false]
      by_cases hk : n.id = k
      · simp [hk]
      · have : (n.id == k) = false := by simpa using hk
        simp only [this]; exact ih

/-- A context that exists reads as updated. -/
theorem getCtx_updCtx {s : State} {c : CtxId} {x : Ctx} (f : Ctx → Ctx) (h : getCtx s c = some x)
    (hc : ∀ k l, c = .fw k l → k.val < s.cores.length) : getCtx (updCtx s c f) c = some (f x) := by
  cases c with
  | node id =>
    simp only [getCtx, updCtx] at *
    rw [getNode_updNode s id (fun n => { n with ctx := f n.ctx }) (fun _ => rfl)]
    cases hn : getNode s id with
    | none => simp [hn] at h
    | some n => simp [hn] at h ⊢; rw [h]
  | fw k l =>
    simp only [getCtx, updCtx] at *
    rw [getCore_updCore_self _ _ _ (hc k l rfl)]
    simpa using congrArg f (Option.some.inj h)

end Sys2Proof.Machine
end

