-- ==== Sys2Proof/Laws/Frame.lean ====
section
/-! SUPPORT. What a scalar firing leaves as it was: the named updates keep all that `asideScalar` keeps, and so does a whole firing whose acts do. -/

namespace Sys2Proof.Machine

theorem modNth_modNth {α : Type} (f g : α → α) : ∀ (l : List α) (n : Nat), modNth f (modNth g l n) n = modNth (fun x => f (g x)) l n
  | [], _ => rfl
  | _ :: _, 0 => rfl
  | x :: xs, n + 1 => by simp [modNth, modNth_modNth f g xs n]

/-- What a scalar firing of a node may change, put aside. -/
def asideNode (n : Node) : Node :=
  { n with win := n.win.map (fun w => { w with units := [] }),
           ctx := { n.ctx with draft := DraftSt.init 0, counts := [], mem := { n.ctx.mem with puts := [] } } }

/-- The same of a core's firmware window. -/
def asideCore (l : Fin 3) (k : Core) : Core :=
  let w := coreWin k l.val
  let k1 := setCoreWin k l.val { w with win := w.win.map (fun w => { w with units := [] }), draft := DraftSt.init 0 }
  { k1 with ctx := { k1.ctx with counts := [], mem := { k1.ctx.mem with puts := [] } } }

/-- The same of what is no context. -/
def asideRest (s : State) : State :=
  { s with run := { s.run with agenda := [] }, hl := { s.hl with inj := [], injFired := false } }

theorem updNode_updNode (s : State) (id : Nat) (f g : Node → Node) (hg : ∀ n, (g n).id = n.id) :
    updNode (updNode s id g) id f = updNode s id (fun n => f (g n)) := by
  simp only [updNode, List.map_map]
  congr 2
  apply List.map_congr_left
  intro n _
  simp only [Function.comp]
  by_cases h : n.id = id <;> simp [h, hg]

theorem updCore_updCore (s : State) (k : Nat) (f g : Core → Core) :
    updCore (updCore s k g) k f = updCore s k (fun n => f (g n)) := by
  simp only [updCore, modNth_modNth]

theorem aside_node (id : Nat) (s : State) : asideScalar (.node id) s = asideRest (updNode s id asideNode) := by
  simp only [asideScalar, updDraft, updWin, updCtx]
  rw [updNode_updNode, updNode_updNode] <;> intros <;> rfl

theorem aside_fw (k : Fin 16) (l : Fin 3) (s : State) : asideScalar (.fw k l) s = asideRest (updCore s k.val (asideCore l)) := by
  show asideRest (updCore (updCore (updCore s k.val _) k.val _) k.val _) = _
  rw [updCore_updCore, updCore_updCore]
  refine congrArg (fun f => asideRest (updCore s k.val f)) ?_
  funext co
  match l with
  | 0 => rfl
  | 1 => rfl
  | 2 => rfl

theorem aside_updNode {id : Nat} {s : State} {f : Node → Node} (h : ∀ n, asideNode (f n) = asideNode n) :
    asideScalar (.node id) (updNode s id f) = asideScalar (.node id) s := by
  rw [aside_node, aside_node, updNode_updNode]
  · simp only [h]
  · intro n; have := congrArg Node.id (h n); exact this

theorem aside_updCore {k : Fin 16} {l : Fin 3} {s : State} {f : Core → Core} (h : ∀ n, asideCore l (f n) = asideCore l n) :
    asideScalar (.fw k l) (updCore s k.val f) = asideScalar (.fw k l) s := by
  rw [aside_fw, aside_fw, updCore_updCore]
  simp only [h]

theorem aside_updWin {c : CtxId} {s : State} {f : Window → Window} (h : ∀ w, { f w with units := [] } = { w with units := [] }) :
    asideScalar c (updWin s c f) = asideScalar c s := by
  cases c with
  | node id =>
    refine aside_updNode (fun n => ?_)
    simp only [asideNode, Option.map_map, Function.comp_def, h]
  | fw k l =>
    refine aside_updCore (fun n => ?_)
    match l with
    | 0 => simp [asideCore, coreWin, setCoreWin, Option.map_map, Function.comp_def, h]
    | 1 => simp [asideCore, coreWin, setCoreWin, Option.map_map, Function.comp_def, h]
    | 2 => simp [asideCore, coreWin, setCoreWin, Option.map_map, Function.comp_def, h]

theorem aside_updUnit {c : CtxId} {s : State} {i : Nat} {f : ElemSt → ElemSt} :
    asideScalar c (updUnit s c i f) = asideScalar c s := aside_updWin (fun _ => rfl)

theorem aside_updDraft {c : CtxId} {s : State} {f : DraftSt → DraftSt} :
    asideScalar c (updDraft s c f) = asideScalar c s := by
  cases c with
  | node id => exact aside_updNode (fun n => rfl)
  | fw k l =>
    refine aside_updCore (fun n => ?_)
    match l with
    | 0 => rfl
    | 1 => rfl
    | 2 => rfl

theorem aside_counts {c : CtxId} {s : State} {f : Ctx → Ctx}
    (h : ∀ x, { f x with counts := [], draft := DraftSt.init 0, mem := { (f x).mem with puts := [] } } = { x with counts := [], draft := DraftSt.init 0, mem := { x.mem with puts := [] } })
    (hd : ∀ x, (f x).draft = x.draft) :
    asideScalar c (updCtx s c f) = asideScalar c s := by
  cases c with
  | node id => refine aside_updNode (fun n => ?_); simp [asideNode]; have := h n.ctx; simp at this; simp [this]
  | fw k l =>
    refine aside_updCore (fun n => ?_)
    have h1 := h n.ctx
    have h2 := hd n.ctx
    simp at h1
    match l with
    | 0 => simp [asideCore, coreWin, setCoreWin, h1, h2]
    | 1 => simp [asideCore, coreWin, setCoreWin, h1, h2]
    | 2 => simp [asideCore, coreWin, setCoreWin, h1, h2]

theorem aside_addCount {c : CtxId} {s : State} {k n : Nat} : asideScalar c (addCount s c k n) = asideScalar c s := by
  simp only [addCount]
  split
  · rfl
  · exact aside_counts (fun _ => rfl) (fun _ => rfl)

theorem aside_run {c : CtxId} {s : State} {r : List Job} :
    asideScalar c { s with run := { s.run with agenda := r } } = asideScalar c s := by
  cases c <;> rfl

theorem aside_inj {c : CtxId} {s : State} {l : List Inject} {b : Bool} :
    asideScalar c { s with hl := { s.hl with inj := l, injFired := b } } = asideScalar c s := by
  cases c <;> rfl

theorem aside_raise {c : CtxId} {s : State} {k : Check} : asideScalar c (raiseCheck s k) = asideScalar c s := aside_run

theorem aside_injectAt {c : CtxId} {s : State} {k x y : Nat} {n : Word} {m : Nat} :
    asideScalar c (injectAt s k x y n m).2 = asideScalar c s := by
  simp only [injectAt]
  split
  · rfl
  · exact aside_inj

theorem aside_finish {s : State} {e : Env} {sl out} : asideScalar e.c (finish s e sl out) = asideScalar e.c s := by
  refine aside_updWin (fun w => ?_)
  exact emitToks_units { w with units := modNth (fun u => { popSlots u sl with fired := u.fired + 1 }) w.units e.i } e.i out
theorem aside_finishHold {s : State} {e : Env} {sl p} : asideScalar e.c (finishHold s e sl p) = asideScalar e.c s := aside_updUnit
theorem aside_finishResume {s : State} {e : Env} {out} : asideScalar e.c (finishResume s e out) = asideScalar e.c s := by
  unfold finishResume
  split
  · refine aside_updWin (fun w => ?_)
    exact emitToks_units { w with units := modNth (fun u => { u with pend := u.pend.tail }) w.units e.i } e.i out
  · exact aside_updUnit

theorem aside_pumpOut {c : CtxId} {s : State} {i} : asideScalar c (updWin s c (fun w => pumpOut w i)) = asideScalar c s := by
  exact aside_updWin (fun w => pumpOut_units w i)

/-- An act changes nothing but what is put aside. -/
def KeepAct (c : CtxId) (s : State) : Act → Prop
  | .wait t => asideScalar c t = asideScalar c s
  | .emit t _ => asideScalar c t = asideScalar c s
  | .hold t _ => asideScalar c t = asideScalar c s
  | .trap t _ => asideScalar c t = asideScalar c s

theorem aside_firingInjection {s : State} {e : Env} {out} : asideScalar e.c (firingInjection s e out).2 = asideScalar e.c s := by
  simp only [firingInjection]
  split
  · rename_i k h1 h2
    split <;> rename_i h3
    · have := @aside_injectAt e.c s k (unitSite s e).1 (unitSite s e).2 (ctxNode e.c) 1
      rw [h3] at this; exact this
    · have := @aside_injectAt e.c s k (unitSite s e).1 (unitSite s e).2 (ctxNode e.c) 1
      rw [h3] at this; exact this
  · rfl

theorem aside_injectOr {s s1 : State} {e : Env} {out} {go : State → State} (h : asideScalar e.c s1 = asideScalar e.c s)
    (hg : ∀ t, asideScalar e.c (go t) = asideScalar e.c t) : asideScalar e.c (injectOr s s1 e out go) = asideScalar e.c s := by
  simp only [injectOr]
  split
  · rw [hg, h]
  · split
    · rename_i k s2 h2
      rw [aside_raise]
      have := @aside_firingInjection s e out; rw [h2] at this; exact this
    · rw [hg, aside_firingInjection, h]

theorem aside_notePred {s : State} {e : Env} {p} : asideScalar e.c (notePred s e p) = asideScalar e.c s := aside_addCount

theorem aside_fireData {s : State} {e : Env} {f : Firing} (hb : ∀ s o, KeepAct e.c s (f.body s e o)) :
    asideScalar e.c (fireData s e f) = asideScalar e.c s := by
  simp only [fireData]
  split
  · rw [aside_finish, aside_notePred]
  · have := hb s (operands e.u)
    split <;> rename_i h <;> rw [h] at this
    · split
      · rfl
      · exact this
    · split
      · exact aside_injectOr (by rw [aside_notePred]; exact this) (fun _ => aside_finish)
      · exact aside_injectOr (by rw [aside_notePred]; exact this) (fun _ => aside_finishHold)
    · rw [aside_finishHold, aside_notePred]; exact this
    · rw [aside_raise]; exact this

theorem aside_fireMark {s : State} {e : Env} {f : Firing} (hb : ∀ s r, KeepAct e.c s (f.onMark s e r)) :
    asideScalar e.c (fireMark s e f) = asideScalar e.c s := by
  simp only [fireMark]
  have := hb s (joinRank e.u f.joinSlots).1
  split <;> rename_i h <;> rw [h] at this
  · exact this
  · rw [aside_finish, aside_updUnit, aside_addCount]; exact this
  · rw [aside_finishHold, aside_updUnit, aside_addCount]; exact this
  · rw [aside_raise]; exact this

theorem aside_fireNew {s : State} {e : Env} {f : Firing} (hb : ∀ s o, KeepAct e.c s (f.body s e o)) (hm : ∀ s r, KeepAct e.c s (f.onMark s e r)) :
    asideScalar e.c (fireNew s e f) = asideScalar e.c s := by
  simp only [fireNew]
  split
  · split
    · exact aside_raise
    · split
      · exact aside_fireMark hm
      · rfl
  · split
    · split
      · exact aside_raise
      · split
        · exact aside_fireData hb
        · rfl
    · rfl

theorem aside_fireStep {s : State} {e : Env} {f : Firing} (hb : ∀ s o, KeepAct e.c s (f.body s e o)) (hm : ∀ s r, KeepAct e.c s (f.onMark s e r))
    (hr : f.resume = noResume) (hs : f.serial = true) :
    asideScalar e.c (fireStep s e f) = asideScalar e.c s := by
  have hold : ∀ p ps (w : State → State), (∀ s1, asideScalar e.c s1 = asideScalar e.c s → asideScalar e.c (w s1) = asideScalar e.c s) →
      asideScalar e.c (resumeHeld s e f p ps w) = asideScalar e.c s := by
    intro p ps w hw
    simp only [resumeHeld]
    cases hp : p.ready with
    | some out => exact aside_finishResume
    | none => simp only [hr, noResume]; exact hw s rfl
  simp only [fireStep]
  split
  · rfl
  · split
    · split
      · rfl
      · exact hold _ _ _ (fun s1 h1 => h1)
    · split
      · exact aside_pumpOut
      · split
        · exact aside_fireNew hb hm
        · exact hold _ _ _ (fun s1 h1 => by simpa [hs] using h1)

theorem aside_runUnit {s t : State} {c : CtxId} {k : Nat} {g : Env → Firing} (hf : s.run.focus = some (c, k)) (h : runUnit s g = .next t)
    (hb : ∀ e s o, KeepAct e.c s ((g e).body s e o)) (hm : ∀ e s r, KeepAct e.c s ((g e).onMark s e r))
    (hr : ∀ e, (g e).resume = noResume) (hs : ∀ e, (g e).serial = true) : asideScalar c t = asideScalar c s := by
  simp only [runUnit] at h
  split at h
  · cases h
  · rename_i e he
    have hc : e.c = c := by
      simp only [focusEnv, hf, envAt] at he
      split at he
      · simp only [Option.map_eq_some_iff] at he
        obtain ⟨u, _, rfl⟩ := he
        rfl
      · cases he
    cases h
    rw [← hc]
    exact aside_fireStep (hb e) (hm e) (hr e) (hs e)

theorem keep_emit {c : CtxId} {s : State} {out} : KeepAct c s (.emit s out) := rfl
theorem keep_pass {s : State} {e : Env} {tg r} : KeepAct e.c s (passMark tg s e r) := rfl
theorem aside_countPoison {s : State} {c : CtxId} {t} : asideScalar c (countPoison s c t) = asideScalar c s := aside_addCount
theorem aside_countEvents {s : State} {c : CtxId} {t} : asideScalar c (countEvents s c t) = asideScalar c s := by
  simp only [countEvents, addEv, aside_addCount]


end Sys2Proof.Machine
end

