-- ==== Sys2Proof/Laws/Lanes.lean ====
section
/-! SUPPORT. Lanes of a word, whole words as one lane, and NaNs in FP32 arithmetic. -/

namespace Sys2Proof.Machine

theorem pack_get (w : Nat) : ∀ (l : List Nat) (j : Nat), j < l.length → packElems w l / 2 ^ (w * j) % 2 ^ w = l.getD j 0 % 2 ^ w
  | [], j, h => by simp at h
  | x :: xs, 0, h => by simp [packElems]
  | x :: xs, j + 1, h => by
    have ih := pack_get w xs j (by simpa using h)
    simp only [packElems]
    have : 2 ^ (w * (j + 1)) = 2 ^ w * 2 ^ (w * j) := by rw [Nat.mul_succ, Nat.pow_add, Nat.mul_comm]
    rw [this, ← Nat.div_div_eq_div_mul]
    have h2 : (x % 2 ^ w + 2 ^ w * packElems w xs) / 2 ^ w = packElems w xs := by
      rw [Nat.add_mul_div_left _ _ (Nat.two_pow_pos w), Nat.div_eq_of_lt (Nat.mod_lt _ (Nat.two_pow_pos w)), Nat.zero_add]
    rw [h2, ih]
    simp

theorem pack_lt (w : Nat) : ∀ (l : List Nat), packElems w l < 2 ^ (w * l.length)
  | [] => by simp [packElems]
  | x :: xs => by
    have ih := pack_lt w xs
    simp only [packElems, List.length_cons]
    rw [Nat.mul_succ, Nat.add_comm (w * xs.length), Nat.pow_add]
    have := Nat.mod_lt x (Nat.two_pow_pos w)
    calc x % 2 ^ w + 2 ^ w * packElems w xs < 2 ^ w + 2 ^ w * packElems w xs := by omega
      _ = 2 ^ w * (packElems w xs + 1) := by rw [Nat.mul_succ, Nat.add_comm]
      _ ≤ 2 ^ w * 2 ^ (w * xs.length) := Nat.mul_le_mul_left _ ih

theorem lane_get {w : Width} {g : Nat → Nat} {j : Nat} (h : j < 32 / laneBits w) :
    elemBits (ofLanes (laneBits w) ((List.range (32 / laneBits w)).map g)).toNat (laneBits w) j = g j % 2 ^ laneBits w := by
  have hl : laneBits w * (32 / laneBits w) = 32 := by cases w <;> rfl
  have hlt := pack_lt (laneBits w) ((List.range (32 / laneBits w)).map g)
  simp only [List.length_map, List.length_range, hl] at hlt
  simp only [elemBits, ofLanes, BitVec.toNat_ofNat, Nat.mod_eq_of_lt hlt]
  rw [pack_get _ _ _ (by simpa using h)]
  simp [h]

theorem wrap_nat (n : Nat) (v : Int) : ((wrapInt n v : Nat) : Int) = v % 2 ^ n := by
  simp only [wrapInt]
  have : (0 : Int) < ((2 ^ n : Nat) : Int) := by exact_mod_cast Nat.two_pow_pos n
  rw [Int.toNat_of_nonneg (Int.emod_nonneg _ (by omega))]
  push_cast; rfl

theorem wrap_lt (n : Nat) (v : Int) : wrapInt n v < 2 ^ n := by
  have h := wrap_nat n v
  have : (0 : Int) < (2 : Int) ^ n := by positivity
  have h2 := Int.emod_lt_of_pos v this
  have : ((wrapInt n v : Nat) : Int) < ((2 ^ n : Nat) : Int) := by push_cast; omega
  exact_mod_cast this

theorem laneVal_signed (a : Word) : laneVal 32 false a.toNat = a.toInt := by
  simp only [laneVal, signExtend, BitVec.toInt]
  have := a.isLt
  simp only [Bool.false_eq_true, if_false]
  split <;> split <;> omega
theorem laneVal_unsigned (a : Word) : laneVal 32 true a.toNat = (a.toNat : Int) := by simp [laneVal]

theorem elemBits_word (x : Word) : elemBits x.toNat 32 0 = x.toNat := by have := x.isLt; simp [elemBits]; omega
theorem range_one_lane : List.range (32 / 32) = [0] := rfl
theorem ofLanes_one (n : Nat) : ofLanes 32 [n] = BitVec.ofNat 32 n := by
  apply BitVec.eq_of_toNat_eq
  simp [ofLanes, packElems]
theorem intOp_word (f) (sat uns) (a b c : Word) : intOp f sat uns .w32 a b c = BitVec.ofNat 32 (narrow sat uns 32 (f 32 (laneVal 32 uns a.toNat) (laneVal 32 uns b.toNat) (laneVal 32 uns c.toNat))) := by
  simp only [intOp, laneBits]
  rw [range_one_lane]
  simp only [List.map_cons, List.map_nil, elemBits_word, ofLanes_one]

theorem ofNat_wrapInt (v : Int) : BitVec.ofNat 32 (wrapInt 32 v) = BitVec.ofInt 32 v := by
  apply BitVec.eq_of_toNat_eq
  simp [wrapInt, BitVec.toNat_ofInt]
  omega

theorem ofInt_laneVal (uns) (a : Word) : BitVec.ofInt 32 (laneVal 32 uns a.toNat) = a := by
  cases uns
  · rw [laneVal_signed]; simp
  · rw [laneVal_unsigned]; simp

theorem laneMap2_word (f) (a b : Word) : laneMap2 .w32 f a b = BitVec.ofNat 32 (f 32 a.toNat b.toNat) := by
  simp only [laneMap2, laneBits]
  rw [range_one_lane]
  simp only [List.map_cons, List.map_nil, elemBits_word, ofLanes_one]

theorem compare_int (x y : Int) : compare x y = if x < y then .lt else if x = y then .eq else .gt := by
  simp [compare, compareOfLessAndEq]

theorem popcount_sum (a : Word) : ∀ l : List Nat, (l.map (fun k => a.toNat / 2 ^ k % 2)).sum = l.countP (fun k => a.getLsbD k)
  | [] => rfl
  | x :: l => by
    simp only [List.map_cons, List.sum_cons, List.countP_cons, popcount_sum a l, BitVec.getLsbD, Nat.testBit_eq_decide_div_mod_eq, decide_eq_true_eq]
    have := Nat.mod_two_eq_zero_or_one (a.toNat / 2 ^ x)
    split <;> omega

theorem f32_nan {a : Word} (h : (f32 a).isNan = true) : f32 a = .nan := by
  cases hx : f32 a <;> simp [hx, Machine.Num.isNan] at h ⊢

theorem toF32_nan (r) : toF32 r .nan = 0x7FC00000#32 := rfl
theorem mul_nan (x : Machine.Num) : x.mul .nan = .nan := by cases x <;> rfl
theorem div_nan (x : Machine.Num) : x.div .nan = .nan := by cases x <;> rfl
theorem add_nan (d) (x : Machine.Num) : x.add d .nan = .nan := by cases x <;> rfl
theorem nan_mul (x : Machine.Num) : Machine.Num.mul .nan x = .nan := by cases x <;> rfl
theorem nan_div (x : Machine.Num) : Machine.Num.div .nan x = .nan := by cases x <;> rfl
theorem nan_add (d) (x : Machine.Num) : Machine.Num.add d .nan x = .nan := by cases x <;> rfl
theorem neg_nan : Machine.Num.neg .nan = .nan := rfl


end Sys2Proof.Machine
end

