-- ==== Sys2Proof/Laws/PerInstr.lean ====
section
/-! SUPPORT. For every instruction: its word stands in the row of the opcode map that its definition names. -/

open Sys2Proof Sys2Proof.Machine

/-- The first hexadecimal digit of an instruction's word is its row of the opcode map; an event has neither (R83). -/
def Sys2Proof.Laws.MapRow.Statement (i : Instr) : Prop := (encode i).map (· / 2 ^ 28) = groupOf i

/-! ### The ranges of the coded fields -/

theorem Sys2Proof.Laws.tgtCode_le (t : Tgt) : tgtCode t ≤ 511 := by
  cases t with
  | none => exact Nat.le_refl _
  | some t => obtain ⟨sl, i⟩ := t; have := i.isLt; cases sl <;> simp only [tgtCode, slotCode] <;> omega

theorem Sys2Proof.Laws.predCode_le (x : Pred) : predCode x ≤ 2 := by cases x <;> decide

theorem Sys2Proof.Laws.boolCode_le (x : Bool) : boolCode x ≤ 1 := by cases x <;> decide

theorem Sys2Proof.Laws.widthCode_le (x : Width) : widthCode x ≤ 3 := by cases x <;> decide

theorem Sys2Proof.Laws.rndCode_le (x : Rnd) : rndCode x ≤ 3 := by cases x <;> decide

theorem Sys2Proof.Laws.condCode_le (x : Cond) : condCode x ≤ 5 := by cases x <;> decide

theorem Sys2Proof.Laws.logOpCode_le (x : LogOp) : logOpCode x ≤ 3 := by cases x <;> decide

theorem Sys2Proof.Laws.scbFmtCode_le (x : ScbFmt) : scbFmtCode x ≤ 4 := by cases x <;> decide

theorem Sys2Proof.Laws.scopeCode_le (x : Scope) : scopeCode x ≤ 4 := by cases x <;> decide

theorem Sys2Proof.Laws.spaceCode_le (x : Space) : spaceCode x ≤ 2 := by cases x <;> decide

theorem Sys2Proof.Laws.sizeCode_le (x : Size) : sizeCode x ≤ 2 := by cases x <;> decide

theorem Sys2Proof.Laws.extCode_le (x : Ext) : extCode x ≤ 3 := by cases x <;> decide

theorem Sys2Proof.Laws.cntRelCode_le (x : CntRel) : cntRelCode x ≤ 2 := by cases x <;> decide

theorem Sys2Proof.Laws.mmaSrcCode_le (x : MmaSrc) : mmaSrcCode x ≤ 2 := by cases x <;> decide

theorem Sys2Proof.Laws.redOpCode_le (x : RedOp) : redOpCode x ≤ 3 := by cases x <;> decide

theorem Sys2Proof.Laws.scatOpCode_le (x : ScatOp) : scatOpCode x ≤ 2 := by cases x <;> decide

theorem Sys2Proof.Laws.mredOpCode_le (x : MredOp) : mredOpCode x ≤ 2 := by cases x <;> decide

theorem Sys2Proof.Laws.tlbExtCode_le (x : TlbExt) : tlbExtCode x ≤ 2 := by cases x <;> decide

theorem Sys2Proof.Laws.orderCode_le (x : Order) : orderCode x ≤ 112 := by
  have h1 := Sys2Proof.Laws.boolCode_le x.acq; have h2 := Sys2Proof.Laws.boolCode_le x.rel; have h3 := Sys2Proof.Laws.scopeCode_le x.scope
  unfold orderCode; omega

theorem Sys2Proof.Laws.headCode_le (x : DHead) : headCode x ≤ 32736 := by
  have h1 := Sys2Proof.Laws.tgtCode_le x.t1; have h2 := Sys2Proof.Laws.predCode_le x.pred
  unfold headCode; omega

theorem Sys2Proof.Laws.mheadCode_le (x : MHead) : mheadCode x ≤ 32320 := by
  have h1 := x.seq.isLt; have h2 := Sys2Proof.Laws.boolCode_le x.unord
  unfold mheadCode; omega

/-- A word's first digit is that of its opcode. -/
theorem Sys2Proof.Laws.word_row {op t i g : Nat} (ho : op / 16 = g) (ht : t ≤ 511) (hi : i < 32768) :
    (some (word op t i)).map (· / 2 ^ 28) = some g := by
  simp only [Option.map_some, word, Option.some.injEq]; omega

/-! ### One lemma for each instruction -/

theorem Sys2Proof.Laws.MapRow.mov (h : DHead) : Sys2Proof.Laws.MapRow.Statement (.mov h) :=
  Sys2Proof.Laws.word_row rfl (Sys2Proof.Laws.tgtCode_le h.t0) (by have := Sys2Proof.Laws.headCode_le h; omega)
theorem Sys2Proof.Laws.MapRow.fank (t : Tgt) (k : Fin 256) (c : Fin 8) : Sys2Proof.Laws.MapRow.Statement (.fank t k c) :=
  Sys2Proof.Laws.word_row rfl (Sys2Proof.Laws.tgtCode_le t) (by have := k.isLt; have := c.isLt; omega)
theorem Sys2Proof.Laws.MapRow.steer (t : Tgt) (t1 : Tgt) : Sys2Proof.Laws.MapRow.Statement (.steer t t1) :=
  Sys2Proof.Laws.word_row rfl (Sys2Proof.Laws.tgtCode_le t) (by have := Sys2Proof.Laws.tgtCode_le t1; omega)
theorem Sys2Proof.Laws.MapRow.merge (t : Tgt) (t1 : Tgt) : Sys2Proof.Laws.MapRow.Statement (.merge t t1) :=
  Sys2Proof.Laws.word_row rfl (Sys2Proof.Laws.tgtCode_le t) (by have := Sys2Proof.Laws.tgtCode_le t1; omega)
theorem Sys2Proof.Laws.MapRow.gate (h : DHead) : Sys2Proof.Laws.MapRow.Statement (.gate h) :=
  Sys2Proof.Laws.word_row rfl (Sys2Proof.Laws.tgtCode_le h.t0) (by have := Sys2Proof.Laws.headCode_le h; omega)
theorem Sys2Proof.Laws.MapRow.mark (t : Tgt) (c : Fin 4096) (k : Fin 8) : Sys2Proof.Laws.MapRow.Statement (.mark t c k) :=
  Sys2Proof.Laws.word_row rfl (Sys2Proof.Laws.tgtCode_le t) (by have := c.isLt; have := k.isLt; omega)
theorem Sys2Proof.Laws.MapRow.rankq (t : Tgt) (k : Fin 8) : Sys2Proof.Laws.MapRow.Statement (.rankq t k) :=
  Sys2Proof.Laws.word_row rfl (Sys2Proof.Laws.tgtCode_le t) (by have := k.isLt; omega)
theorem Sys2Proof.Laws.MapRow.strip (t : Tgt) (k : Fin 8) : Sys2Proof.Laws.MapRow.Statement (.strip t k) :=
  Sys2Proof.Laws.word_row rfl (Sys2Proof.Laws.tgtCode_le t) (by have := k.isLt; omega)
theorem Sys2Proof.Laws.MapRow.count (t : Tgt) (k : Fin 8) : Sys2Proof.Laws.MapRow.Statement (.count t k) :=
  Sys2Proof.Laws.word_row rfl (Sys2Proof.Laws.tgtCode_le t) (by have := k.isLt; omega)
theorem Sys2Proof.Laws.MapRow.getw (t : Tgt) (w : Fin 64) : Sys2Proof.Laws.MapRow.Statement (.getw t w) :=
  Sys2Proof.Laws.word_row rfl (Sys2Proof.Laws.tgtCode_le t) (by have := w.isLt; omega)
theorem Sys2Proof.Laws.MapRow.putw (t : Tgt) (w : Fin 64) : Sys2Proof.Laws.MapRow.Statement (.putw t w) :=
  Sys2Proof.Laws.word_row rfl (Sys2Proof.Laws.tgtCode_le t) (by have := w.isLt; omega)
theorem Sys2Proof.Laws.MapRow.const (t : Tgt) (k : Fin 256) (n : Fin 16) : Sys2Proof.Laws.MapRow.Statement (.const t k n) :=
  Sys2Proof.Laws.word_row rfl (Sys2Proof.Laws.tgtCode_le t) (by have := k.isLt; have := n.isLt; omega)
theorem Sys2Proof.Laws.MapRow.nextb (t : Tgt) (ix : Fin 256) : Sys2Proof.Laws.MapRow.Statement (.nextb t ix) :=
  Sys2Proof.Laws.word_row rfl (Sys2Proof.Laws.tgtCode_le t) (by have := ix.isLt; omega)
theorem Sys2Proof.Laws.MapRow.halt (t : Tgt) : Sys2Proof.Laws.MapRow.Statement (.halt t) :=
  Sys2Proof.Laws.word_row rfl (Sys2Proof.Laws.tgtCode_le t) (by omega)
theorem Sys2Proof.Laws.MapRow.drop (p : Pred) : Sys2Proof.Laws.MapRow.Statement (.drop p) :=
  Sys2Proof.Laws.word_row rfl (by decide) (by have := Sys2Proof.Laws.predCode_le p; omega)
theorem Sys2Proof.Laws.MapRow.add (h : DHead) (s : Bool) (n : Bool) (w : Width) : Sys2Proof.Laws.MapRow.Statement (.add h s n w) :=
  Sys2Proof.Laws.word_row rfl (Sys2Proof.Laws.tgtCode_le h.t0) (by have := Sys2Proof.Laws.headCode_le h; have := Sys2Proof.Laws.boolCode_le s; have := Sys2Proof.Laws.boolCode_le n; have := Sys2Proof.Laws.widthCode_le w; omega)
theorem Sys2Proof.Laws.MapRow.sub (h : DHead) (s : Bool) (n : Bool) (w : Width) : Sys2Proof.Laws.MapRow.Statement (.sub h s n w) :=
  Sys2Proof.Laws.word_row rfl (Sys2Proof.Laws.tgtCode_le h.t0) (by have := Sys2Proof.Laws.headCode_le h; have := Sys2Proof.Laws.boolCode_le s; have := Sys2Proof.Laws.boolCode_le n; have := Sys2Proof.Laws.widthCode_le w; omega)
theorem Sys2Proof.Laws.MapRow.addi (t : Tgt) (ix : BitVec 15) : Sys2Proof.Laws.MapRow.Statement (.addi t ix) :=
  Sys2Proof.Laws.word_row rfl (Sys2Proof.Laws.tgtCode_le t) (by have := ix.isLt; omega)
theorem Sys2Proof.Laws.MapRow.mul (h : DHead) (s : Bool) (n : Bool) (w : Width) : Sys2Proof.Laws.MapRow.Statement (.mul h s n w) :=
  Sys2Proof.Laws.word_row rfl (Sys2Proof.Laws.tgtCode_le h.t0) (by have := Sys2Proof.Laws.headCode_le h; have := Sys2Proof.Laws.boolCode_le s; have := Sys2Proof.Laws.boolCode_le n; have := Sys2Proof.Laws.widthCode_le w; omega)
theorem Sys2Proof.Laws.MapRow.mulh (h : DHead) (n : Bool) (w : Width) : Sys2Proof.Laws.MapRow.Statement (.mulh h n w) :=
  Sys2Proof.Laws.word_row rfl (Sys2Proof.Laws.tgtCode_le h.t0) (by have := Sys2Proof.Laws.headCode_le h; have := Sys2Proof.Laws.boolCode_le n; have := Sys2Proof.Laws.widthCode_le w; omega)
theorem Sys2Proof.Laws.MapRow.mad (h : DHead) (s : Bool) (n : Bool) (w : Width) : Sys2Proof.Laws.MapRow.Statement (.mad h s n w) :=
  Sys2Proof.Laws.word_row rfl (Sys2Proof.Laws.tgtCode_le h.t0) (by have := Sys2Proof.Laws.headCode_le h; have := Sys2Proof.Laws.boolCode_le s; have := Sys2Proof.Laws.boolCode_le n; have := Sys2Proof.Laws.widthCode_le w; omega)
theorem Sys2Proof.Laws.MapRow.div (h : DHead) (s : Bool) (n : Bool) : Sys2Proof.Laws.MapRow.Statement (.div h s n) :=
  Sys2Proof.Laws.word_row rfl (Sys2Proof.Laws.tgtCode_le h.t0) (by have := Sys2Proof.Laws.headCode_le h; have := Sys2Proof.Laws.boolCode_le s; have := Sys2Proof.Laws.boolCode_le n; omega)
theorem Sys2Proof.Laws.MapRow.rem (h : DHead) (n : Bool) : Sys2Proof.Laws.MapRow.Statement (.rem h n) :=
  Sys2Proof.Laws.word_row rfl (Sys2Proof.Laws.tgtCode_le h.t0) (by have := Sys2Proof.Laws.headCode_le h; have := Sys2Proof.Laws.boolCode_le n; omega)
theorem Sys2Proof.Laws.MapRow.min (h : DHead) (n : Bool) (w : Width) : Sys2Proof.Laws.MapRow.Statement (.min h n w) :=
  Sys2Proof.Laws.word_row rfl (Sys2Proof.Laws.tgtCode_le h.t0) (by have := Sys2Proof.Laws.headCode_le h; have := Sys2Proof.Laws.boolCode_le n; have := Sys2Proof.Laws.widthCode_le w; omega)
theorem Sys2Proof.Laws.MapRow.max (h : DHead) (n : Bool) (w : Width) : Sys2Proof.Laws.MapRow.Statement (.max h n w) :=
  Sys2Proof.Laws.word_row rfl (Sys2Proof.Laws.tgtCode_le h.t0) (by have := Sys2Proof.Laws.headCode_le h; have := Sys2Proof.Laws.boolCode_le n; have := Sys2Proof.Laws.widthCode_le w; omega)
theorem Sys2Proof.Laws.MapRow.abs (h : DHead) (s : Bool) (w : Width) : Sys2Proof.Laws.MapRow.Statement (.abs h s w) :=
  Sys2Proof.Laws.word_row rfl (Sys2Proof.Laws.tgtCode_le h.t0) (by have := Sys2Proof.Laws.headCode_le h; have := Sys2Proof.Laws.boolCode_le s; have := Sys2Proof.Laws.widthCode_le w; omega)
theorem Sys2Proof.Laws.MapRow.neg (h : DHead) (s : Bool) (w : Width) : Sys2Proof.Laws.MapRow.Statement (.neg h s w) :=
  Sys2Proof.Laws.word_row rfl (Sys2Proof.Laws.tgtCode_le h.t0) (by have := Sys2Proof.Laws.headCode_le h; have := Sys2Proof.Laws.boolCode_le s; have := Sys2Proof.Laws.widthCode_le w; omega)
theorem Sys2Proof.Laws.MapRow.clamp (h : DHead) (n : Bool) (w : Width) : Sys2Proof.Laws.MapRow.Statement (.clamp h n w) :=
  Sys2Proof.Laws.word_row rfl (Sys2Proof.Laws.tgtCode_le h.t0) (by have := Sys2Proof.Laws.headCode_le h; have := Sys2Proof.Laws.boolCode_le n; have := Sys2Proof.Laws.widthCode_le w; omega)
theorem Sys2Proof.Laws.MapRow.addc (h : DHead) (s : Bool) : Sys2Proof.Laws.MapRow.Statement (.addc h s) :=
  Sys2Proof.Laws.word_row rfl (Sys2Proof.Laws.tgtCode_le h.t0) (by have := Sys2Proof.Laws.headCode_le h; have := Sys2Proof.Laws.boolCode_le s; omega)
theorem Sys2Proof.Laws.MapRow.muli (t : Tgt) (ix : BitVec 15) : Sys2Proof.Laws.MapRow.Statement (.muli t ix) :=
  Sys2Proof.Laws.word_row rfl (Sys2Proof.Laws.tgtCode_le t) (by have := ix.isLt; omega)
theorem Sys2Proof.Laws.MapRow.dot4 (h : DHead) (s : Bool) (n : Bool) (w : Width) : Sys2Proof.Laws.MapRow.Statement (.dot4 h s n w) :=
  Sys2Proof.Laws.word_row rfl (Sys2Proof.Laws.tgtCode_le h.t0) (by have := Sys2Proof.Laws.headCode_le h; have := Sys2Proof.Laws.boolCode_le s; have := Sys2Proof.Laws.boolCode_le n; have := Sys2Proof.Laws.widthCode_le w; omega)
theorem Sys2Proof.Laws.MapRow.and (h : DHead) : Sys2Proof.Laws.MapRow.Statement (.and h) :=
  Sys2Proof.Laws.word_row rfl (Sys2Proof.Laws.tgtCode_le h.t0) (by have := Sys2Proof.Laws.headCode_le h; omega)
theorem Sys2Proof.Laws.MapRow.or (h : DHead) : Sys2Proof.Laws.MapRow.Statement (.or h) :=
  Sys2Proof.Laws.word_row rfl (Sys2Proof.Laws.tgtCode_le h.t0) (by have := Sys2Proof.Laws.headCode_le h; omega)
theorem Sys2Proof.Laws.MapRow.xor (h : DHead) : Sys2Proof.Laws.MapRow.Statement (.xor h) :=
  Sys2Proof.Laws.word_row rfl (Sys2Proof.Laws.tgtCode_le h.t0) (by have := Sys2Proof.Laws.headCode_le h; omega)
theorem Sys2Proof.Laws.MapRow.andn (h : DHead) : Sys2Proof.Laws.MapRow.Statement (.andn h) :=
  Sys2Proof.Laws.word_row rfl (Sys2Proof.Laws.tgtCode_le h.t0) (by have := Sys2Proof.Laws.headCode_le h; omega)
theorem Sys2Proof.Laws.MapRow.shl (h : DHead) (n : Bool) (w : Width) : Sys2Proof.Laws.MapRow.Statement (.shl h n w) :=
  Sys2Proof.Laws.word_row rfl (Sys2Proof.Laws.tgtCode_le h.t0) (by have := Sys2Proof.Laws.headCode_le h; have := Sys2Proof.Laws.boolCode_le n; have := Sys2Proof.Laws.widthCode_le w; omega)
theorem Sys2Proof.Laws.MapRow.shr (h : DHead) (n : Bool) (w : Width) : Sys2Proof.Laws.MapRow.Statement (.shr h n w) :=
  Sys2Proof.Laws.word_row rfl (Sys2Proof.Laws.tgtCode_le h.t0) (by have := Sys2Proof.Laws.headCode_le h; have := Sys2Proof.Laws.boolCode_le n; have := Sys2Proof.Laws.widthCode_le w; omega)
theorem Sys2Proof.Laws.MapRow.rot (h : DHead) (w : Width) : Sys2Proof.Laws.MapRow.Statement (.rot h w) :=
  Sys2Proof.Laws.word_row rfl (Sys2Proof.Laws.tgtCode_le h.t0) (by have := Sys2Proof.Laws.headCode_le h; have := Sys2Proof.Laws.widthCode_le w; omega)
theorem Sys2Proof.Laws.MapRow.clz (h : DHead) (w : Width) : Sys2Proof.Laws.MapRow.Statement (.clz h w) :=
  Sys2Proof.Laws.word_row rfl (Sys2Proof.Laws.tgtCode_le h.t0) (by have := Sys2Proof.Laws.headCode_le h; have := Sys2Proof.Laws.widthCode_le w; omega)
theorem Sys2Proof.Laws.MapRow.popc (h : DHead) (w : Width) : Sys2Proof.Laws.MapRow.Statement (.popc h w) :=
  Sys2Proof.Laws.word_row rfl (Sys2Proof.Laws.tgtCode_le h.t0) (by have := Sys2Proof.Laws.headCode_le h; have := Sys2Proof.Laws.widthCode_le w; omega)
theorem Sys2Proof.Laws.MapRow.bfx (h : DHead) (n : Bool) : Sys2Proof.Laws.MapRow.Statement (.bfx h n) :=
  Sys2Proof.Laws.word_row rfl (Sys2Proof.Laws.tgtCode_le h.t0) (by have := Sys2Proof.Laws.headCode_le h; have := Sys2Proof.Laws.boolCode_le n; omega)
theorem Sys2Proof.Laws.MapRow.bfi (h : DHead) : Sys2Proof.Laws.MapRow.Statement (.bfi h) :=
  Sys2Proof.Laws.word_row rfl (Sys2Proof.Laws.tgtCode_le h.t0) (by have := Sys2Proof.Laws.headCode_le h; omega)
theorem Sys2Proof.Laws.MapRow.cmp (h : DHead) (c : Cond) (n : Bool) : Sys2Proof.Laws.MapRow.Statement (.cmp h c n) :=
  Sys2Proof.Laws.word_row rfl (Sys2Proof.Laws.tgtCode_le h.t0) (by have := Sys2Proof.Laws.headCode_le h; have := Sys2Proof.Laws.condCode_le c; have := Sys2Proof.Laws.boolCode_le n; omega)
theorem Sys2Proof.Laws.MapRow.cmpi (t : Tgt) (c : Cond) (n : Bool) (v : BitVec 11) : Sys2Proof.Laws.MapRow.Statement (.cmpi t c n v) :=
  Sys2Proof.Laws.word_row rfl (Sys2Proof.Laws.tgtCode_le t) (by have := Sys2Proof.Laws.condCode_le c; have := Sys2Proof.Laws.boolCode_le n; have := v.isLt; omega)
theorem Sys2Proof.Laws.MapRow.sel (h : DHead) : Sys2Proof.Laws.MapRow.Statement (.sel h) :=
  Sys2Proof.Laws.word_row rfl (Sys2Proof.Laws.tgtCode_le h.t0) (by have := Sys2Proof.Laws.headCode_le h; omega)
theorem Sys2Proof.Laws.MapRow.logi (t : Tgt) (ox : LogOp) (v : BitVec 13) : Sys2Proof.Laws.MapRow.Statement (.logi t ox v) :=
  Sys2Proof.Laws.word_row rfl (Sys2Proof.Laws.tgtCode_le t) (by have := Sys2Proof.Laws.logOpCode_le ox; have := v.isLt; omega)
theorem Sys2Proof.Laws.MapRow.tstb (h : DHead) : Sys2Proof.Laws.MapRow.Statement (.tstb h) :=
  Sys2Proof.Laws.word_row rfl (Sys2Proof.Laws.tgtCode_le h.t0) (by have := Sys2Proof.Laws.headCode_le h; omega)
theorem Sys2Proof.Laws.MapRow.fadd (h : DHead) (r : Rnd) : Sys2Proof.Laws.MapRow.Statement (.fadd h r) :=
  Sys2Proof.Laws.word_row rfl (Sys2Proof.Laws.tgtCode_le h.t0) (by have := Sys2Proof.Laws.headCode_le h; have := Sys2Proof.Laws.rndCode_le r; omega)
theorem Sys2Proof.Laws.MapRow.fsub (h : DHead) (r : Rnd) : Sys2Proof.Laws.MapRow.Statement (.fsub h r) :=
  Sys2Proof.Laws.word_row rfl (Sys2Proof.Laws.tgtCode_le h.t0) (by have := Sys2Proof.Laws.headCode_le h; have := Sys2Proof.Laws.rndCode_le r; omega)
theorem Sys2Proof.Laws.MapRow.fmul (h : DHead) (r : Rnd) : Sys2Proof.Laws.MapRow.Statement (.fmul h r) :=
  Sys2Proof.Laws.word_row rfl (Sys2Proof.Laws.tgtCode_le h.t0) (by have := Sys2Proof.Laws.headCode_le h; have := Sys2Proof.Laws.rndCode_le r; omega)
theorem Sys2Proof.Laws.MapRow.ffma (h : DHead) (r : Rnd) : Sys2Proof.Laws.MapRow.Statement (.ffma h r) :=
  Sys2Proof.Laws.word_row rfl (Sys2Proof.Laws.tgtCode_le h.t0) (by have := Sys2Proof.Laws.headCode_le h; have := Sys2Proof.Laws.rndCode_le r; omega)
theorem Sys2Proof.Laws.MapRow.fmin (h : DHead) : Sys2Proof.Laws.MapRow.Statement (.fmin h) :=
  Sys2Proof.Laws.word_row rfl (Sys2Proof.Laws.tgtCode_le h.t0) (by have := Sys2Proof.Laws.headCode_le h; omega)
theorem Sys2Proof.Laws.MapRow.fmax (h : DHead) : Sys2Proof.Laws.MapRow.Statement (.fmax h) :=
  Sys2Proof.Laws.word_row rfl (Sys2Proof.Laws.tgtCode_le h.t0) (by have := Sys2Proof.Laws.headCode_le h; omega)
theorem Sys2Proof.Laws.MapRow.fneg (h : DHead) : Sys2Proof.Laws.MapRow.Statement (.fneg h) :=
  Sys2Proof.Laws.word_row rfl (Sys2Proof.Laws.tgtCode_le h.t0) (by have := Sys2Proof.Laws.headCode_le h; omega)
theorem Sys2Proof.Laws.MapRow.fcmp (h : DHead) (c : Cond) : Sys2Proof.Laws.MapRow.Statement (.fcmp h c) :=
  Sys2Proof.Laws.word_row rfl (Sys2Proof.Laws.tgtCode_le h.t0) (by have := Sys2Proof.Laws.headCode_le h; have := Sys2Proof.Laws.condCode_le c; omega)
theorem Sys2Proof.Laws.MapRow.fdiv (h : DHead) (r : Rnd) : Sys2Proof.Laws.MapRow.Statement (.fdiv h r) :=
  Sys2Proof.Laws.word_row rfl (Sys2Proof.Laws.tgtCode_le h.t0) (by have := Sys2Proof.Laws.headCode_le h; have := Sys2Proof.Laws.rndCode_le r; omega)
theorem Sys2Proof.Laws.MapRow.fsqrt (h : DHead) (r : Rnd) : Sys2Proof.Laws.MapRow.Statement (.fsqrt h r) :=
  Sys2Proof.Laws.word_row rfl (Sys2Proof.Laws.tgtCode_le h.t0) (by have := Sys2Proof.Laws.headCode_le h; have := Sys2Proof.Laws.rndCode_le r; omega)
theorem Sys2Proof.Laws.MapRow.frsqe (h : DHead) : Sys2Proof.Laws.MapRow.Statement (.frsqe h) :=
  Sys2Proof.Laws.word_row rfl (Sys2Proof.Laws.tgtCode_le h.t0) (by have := Sys2Proof.Laws.headCode_le h; omega)
theorem Sys2Proof.Laws.MapRow.frcpe (h : DHead) : Sys2Proof.Laws.MapRow.Statement (.frcpe h) :=
  Sys2Proof.Laws.word_row rfl (Sys2Proof.Laws.tgtCode_le h.t0) (by have := Sys2Proof.Laws.headCode_le h; omega)
theorem Sys2Proof.Laws.MapRow.fclass (h : DHead) : Sys2Proof.Laws.MapRow.Statement (.fclass h) :=
  Sys2Proof.Laws.word_row rfl (Sys2Proof.Laws.tgtCode_le h.t0) (by have := Sys2Proof.Laws.headCode_le h; omega)
theorem Sys2Proof.Laws.MapRow.fexp2e (h : DHead) : Sys2Proof.Laws.MapRow.Statement (.fexp2e h) :=
  Sys2Proof.Laws.word_row rfl (Sys2Proof.Laws.tgtCode_le h.t0) (by have := Sys2Proof.Laws.headCode_le h; omega)
theorem Sys2Proof.Laws.MapRow.flog2e (h : DHead) : Sys2Proof.Laws.MapRow.Statement (.flog2e h) :=
  Sys2Proof.Laws.word_row rfl (Sys2Proof.Laws.tgtCode_le h.t0) (by have := Sys2Proof.Laws.headCode_le h; omega)
theorem Sys2Proof.Laws.MapRow.fscl (h : DHead) (r : Rnd) : Sys2Proof.Laws.MapRow.Statement (.fscl h r) :=
  Sys2Proof.Laws.word_row rfl (Sys2Proof.Laws.tgtCode_le h.t0) (by have := Sys2Proof.Laws.headCode_le h; have := Sys2Proof.Laws.rndCode_le r; omega)
theorem Sys2Proof.Laws.MapRow.cvtif (h : DHead) (n : Bool) (r : Rnd) : Sys2Proof.Laws.MapRow.Statement (.cvtif h n r) :=
  Sys2Proof.Laws.word_row rfl (Sys2Proof.Laws.tgtCode_le h.t0) (by have := Sys2Proof.Laws.headCode_le h; have := Sys2Proof.Laws.boolCode_le n; have := Sys2Proof.Laws.rndCode_le r; omega)
theorem Sys2Proof.Laws.MapRow.cvtfi (h : DHead) (n : Bool) (r : Rnd) : Sys2Proof.Laws.MapRow.Statement (.cvtfi h n r) :=
  Sys2Proof.Laws.word_row rfl (Sys2Proof.Laws.tgtCode_le h.t0) (by have := Sys2Proof.Laws.headCode_le h; have := Sys2Proof.Laws.boolCode_le n; have := Sys2Proof.Laws.rndCode_le r; omega)
theorem Sys2Proof.Laws.MapRow.cvtfh (h : DHead) (s : Bool) (f : Bool) (r : Rnd) : Sys2Proof.Laws.MapRow.Statement (.cvtfh h s f r) :=
  Sys2Proof.Laws.word_row rfl (Sys2Proof.Laws.tgtCode_le h.t0) (by have := Sys2Proof.Laws.headCode_le h; have := Sys2Proof.Laws.boolCode_le s; have := Sys2Proof.Laws.boolCode_le f; have := Sys2Proof.Laws.rndCode_le r; omega)
theorem Sys2Proof.Laws.MapRow.cvthf (h : DHead) (f : Bool) (l : Fin 2) : Sys2Proof.Laws.MapRow.Statement (.cvthf h f l) :=
  Sys2Proof.Laws.word_row rfl (Sys2Proof.Laws.tgtCode_le h.t0) (by have := Sys2Proof.Laws.headCode_le h; have := Sys2Proof.Laws.boolCode_le f; have := l.isLt; omega)
theorem Sys2Proof.Laws.MapRow.cvtf8 (h : DHead) (l : Fin 4) (f : Bool) (n : Bool) : Sys2Proof.Laws.MapRow.Statement (.cvtf8 h l f n) :=
  Sys2Proof.Laws.word_row rfl (Sys2Proof.Laws.tgtCode_le h.t0) (by have := Sys2Proof.Laws.headCode_le h; have := Sys2Proof.Laws.boolCode_le f; have := Sys2Proof.Laws.boolCode_le n; have := l.isLt; omega)
theorem Sys2Proof.Laws.MapRow.cvt8f (h : DHead) (l : Fin 4) (f : Bool) : Sys2Proof.Laws.MapRow.Statement (.cvt8f h l f) :=
  Sys2Proof.Laws.word_row rfl (Sys2Proof.Laws.tgtCode_le h.t0) (by have := Sys2Proof.Laws.headCode_le h; have := Sys2Proof.Laws.boolCode_le f; have := l.isLt; omega)
theorem Sys2Proof.Laws.MapRow.ldi (t : Tgt) (ix : BitVec 15) : Sys2Proof.Laws.MapRow.Statement (.ldi t ix) :=
  Sys2Proof.Laws.word_row rfl (Sys2Proof.Laws.tgtCode_le t) (by have := ix.isLt; omega)
theorem Sys2Proof.Laws.MapRow.ldhi (t : Tgt) (ix : BitVec 15) : Sys2Proof.Laws.MapRow.Statement (.ldhi t ix) :=
  Sys2Proof.Laws.word_row rfl (Sys2Proof.Laws.tgtCode_le t) (by have := ix.isLt; omega)
theorem Sys2Proof.Laws.MapRow.pack (h : DHead) (s : Bool) (n : Bool) (w : Width) : Sys2Proof.Laws.MapRow.Statement (.pack h s n w) :=
  Sys2Proof.Laws.word_row rfl (Sys2Proof.Laws.tgtCode_le h.t0) (by have := Sys2Proof.Laws.headCode_le h; have := Sys2Proof.Laws.boolCode_le s; have := Sys2Proof.Laws.boolCode_le n; have := Sys2Proof.Laws.widthCode_le w; omega)
theorem Sys2Proof.Laws.MapRow.unpk (h : DHead) (hx : Bool) (n : Bool) (w : Width) : Sys2Proof.Laws.MapRow.Statement (.unpk h hx n w) :=
  Sys2Proof.Laws.word_row rfl (Sys2Proof.Laws.tgtCode_le h.t0) (by have := Sys2Proof.Laws.headCode_le h; have := Sys2Proof.Laws.boolCode_le hx; have := Sys2Proof.Laws.boolCode_le n; have := Sys2Proof.Laws.widthCode_le w; omega)
theorem Sys2Proof.Laws.MapRow.q4e (h : DHead) (l : Fin 8) : Sys2Proof.Laws.MapRow.Statement (.q4e h l) :=
  Sys2Proof.Laws.word_row rfl (Sys2Proof.Laws.tgtCode_le h.t0) (by have := Sys2Proof.Laws.headCode_le h; have := l.isLt; omega)
theorem Sys2Proof.Laws.MapRow.q4d (h : DHead) (l : Fin 8) : Sys2Proof.Laws.MapRow.Statement (.q4d h l) :=
  Sys2Proof.Laws.word_row rfl (Sys2Proof.Laws.tgtCode_le h.t0) (by have := Sys2Proof.Laws.headCode_le h; have := l.isLt; omega)
theorem Sys2Proof.Laws.MapRow.scb (h : DHead) (x : ScbFmt) : Sys2Proof.Laws.MapRow.Statement (.scb h x) :=
  Sys2Proof.Laws.word_row rfl (Sys2Proof.Laws.tgtCode_le h.t0) (by have := Sys2Proof.Laws.headCode_le h; have := Sys2Proof.Laws.scbFmtCode_le x; omega)
theorem Sys2Proof.Laws.MapRow.scd (h : DHead) : Sys2Proof.Laws.MapRow.Statement (.scd h) :=
  Sys2Proof.Laws.word_row rfl (Sys2Proof.Laws.tgtCode_le h.t0) (by have := Sys2Proof.Laws.headCode_le h; omega)
theorem Sys2Proof.Laws.MapRow.desc (h : DHead) : Sys2Proof.Laws.MapRow.Statement (.desc h) :=
  Sys2Proof.Laws.word_row rfl (Sys2Proof.Laws.tgtCode_le h.t0) (by have := Sys2Proof.Laws.headCode_le h; omega)
theorem Sys2Proof.Laws.MapRow.lds (t : Tgt) (k : Fin 256) : Sys2Proof.Laws.MapRow.Statement (.lds t k) :=
  Sys2Proof.Laws.word_row rfl (Sys2Proof.Laws.tgtCode_le t) (by have := k.isLt; omega)
theorem Sys2Proof.Laws.MapRow.sts (t : Tgt) (k : Fin 256) : Sys2Proof.Laws.MapRow.Statement (.sts t k) :=
  Sys2Proof.Laws.word_row rfl (Sys2Proof.Laws.tgtCode_le t) (by have := k.isLt; omega)
theorem Sys2Proof.Laws.MapRow.ldb (t : Tgt) (k : Fin 256) (v : Bool) : Sys2Proof.Laws.MapRow.Statement (.ldb t k v) :=
  Sys2Proof.Laws.word_row rfl (Sys2Proof.Laws.tgtCode_le t) (by have := Sys2Proof.Laws.boolCode_le v; have := k.isLt; omega)
theorem Sys2Proof.Laws.MapRow.stb (t : Tgt) (k : Fin 256) (v : Bool) : Sys2Proof.Laws.MapRow.Statement (.stb t k v) :=
  Sys2Proof.Laws.word_row rfl (Sys2Proof.Laws.tgtCode_le t) (by have := Sys2Proof.Laws.boolCode_le v; have := k.isLt; omega)
theorem Sys2Proof.Laws.MapRow.agen (t : Tgt) (k : Fin 256) (a : Bool) (w : Bool) : Sys2Proof.Laws.MapRow.Statement (.agen t k a w) :=
  Sys2Proof.Laws.word_row rfl (Sys2Proof.Laws.tgtCode_le t) (by have := Sys2Proof.Laws.boolCode_le a; have := Sys2Proof.Laws.boolCode_le w; have := k.isLt; omega)
theorem Sys2Proof.Laws.MapRow.agcfg (t : Tgt) (k : Fin 256) (o : Order) (v : Bool) : Sys2Proof.Laws.MapRow.Statement (.agcfg t k o v) :=
  Sys2Proof.Laws.word_row rfl (Sys2Proof.Laws.tgtCode_le t) (by have := Sys2Proof.Laws.orderCode_le o; have := Sys2Proof.Laws.boolCode_le v; have := k.isLt; omega)
theorem Sys2Proof.Laws.MapRow.ld (m : MHead) (sp : Space) (b : Fin 4) (x : Bool) (z : Size) : Sys2Proof.Laws.MapRow.Statement (.ld m sp b x z) :=
  Sys2Proof.Laws.word_row rfl (Sys2Proof.Laws.tgtCode_le m.t) (by have := Sys2Proof.Laws.mheadCode_le m; have := Sys2Proof.Laws.spaceCode_le sp; have := Sys2Proof.Laws.boolCode_le x; have := Sys2Proof.Laws.sizeCode_le z; have := b.isLt; omega)
theorem Sys2Proof.Laws.MapRow.st (m : MHead) (sp : Space) (b : Fin 4) (z : Size) : Sys2Proof.Laws.MapRow.Statement (.st m sp b z) :=
  Sys2Proof.Laws.word_row rfl (Sys2Proof.Laws.tgtCode_le m.t) (by have := Sys2Proof.Laws.mheadCode_le m; have := Sys2Proof.Laws.spaceCode_le sp; have := Sys2Proof.Laws.sizeCode_le z; have := b.isLt; omega)
theorem Sys2Proof.Laws.MapRow.ldx (m : MHead) (sp : Space) (b : Fin 4) (x : Bool) (z : Size) : Sys2Proof.Laws.MapRow.Statement (.ldx m sp b x z) :=
  Sys2Proof.Laws.word_row rfl (Sys2Proof.Laws.tgtCode_le m.t) (by have := Sys2Proof.Laws.mheadCode_le m; have := Sys2Proof.Laws.spaceCode_le sp; have := Sys2Proof.Laws.boolCode_le x; have := Sys2Proof.Laws.sizeCode_le z; have := b.isLt; omega)
theorem Sys2Proof.Laws.MapRow.pref (m : MHead) (b : Fin 4) (e : Ext) : Sys2Proof.Laws.MapRow.Statement (.pref m b e) :=
  Sys2Proof.Laws.word_row rfl (Sys2Proof.Laws.tgtCode_le m.t) (by have := Sys2Proof.Laws.mheadCode_le m; have := Sys2Proof.Laws.extCode_le e; have := b.isLt; omega)
theorem Sys2Proof.Laws.MapRow.atom (m : MHead) (sp : Space) (b : Fin 4) (ox : Fin 16) : Sys2Proof.Laws.MapRow.Statement (.atom m sp b ox) :=
  Sys2Proof.Laws.word_row rfl (Sys2Proof.Laws.tgtCode_le m.t) (by have := Sys2Proof.Laws.mheadCode_le m; have := Sys2Proof.Laws.spaceCode_le sp; have := b.isLt; have := ox.isLt; omega)
theorem Sys2Proof.Laws.MapRow.cas (m : MHead) (sp : Space) (b : Fin 4) : Sys2Proof.Laws.MapRow.Statement (.cas m sp b) :=
  Sys2Proof.Laws.word_row rfl (Sys2Proof.Laws.tgtCode_le m.t) (by have := Sys2Proof.Laws.mheadCode_le m; have := Sys2Proof.Laws.spaceCode_le sp; have := b.isLt; omega)
theorem Sys2Proof.Laws.MapRow.tas (m : MHead) (sp : Space) (b : Fin 4) : Sys2Proof.Laws.MapRow.Statement (.tas m sp b) :=
  Sys2Proof.Laws.word_row rfl (Sys2Proof.Laws.tgtCode_le m.t) (by have := Sys2Proof.Laws.mheadCode_le m; have := Sys2Proof.Laws.spaceCode_le sp; have := b.isLt; omega)
theorem Sys2Proof.Laws.MapRow.fence (t : Tgt) (q : Fin 64) : Sys2Proof.Laws.MapRow.Statement (.fence t q) :=
  Sys2Proof.Laws.word_row rfl (Sys2Proof.Laws.tgtCode_le t) (by have := q.isLt; omega)
theorem Sys2Proof.Laws.MapRow.phase (t : Tgt) (q : Fin 64) (s : Scope) : Sys2Proof.Laws.MapRow.Statement (.phase t q s) :=
  Sys2Proof.Laws.word_row rfl (Sys2Proof.Laws.tgtCode_le t) (by have := Sys2Proof.Laws.scopeCode_le s; have := q.isLt; omega)
theorem Sys2Proof.Laws.MapRow.bar (t : Tgt) (k : Fin 256) (o : Order) : Sys2Proof.Laws.MapRow.Statement (.bar t k o) :=
  Sys2Proof.Laws.word_row rfl (Sys2Proof.Laws.tgtCode_le t) (by have := Sys2Proof.Laws.orderCode_le o; have := k.isLt; omega)
theorem Sys2Proof.Laws.MapRow.arrv (t : Tgt) (k : Fin 256) (e : Bool) (s : Scope) : Sys2Proof.Laws.MapRow.Statement (.arrv t k e s) :=
  Sys2Proof.Laws.word_row rfl (Sys2Proof.Laws.tgtCode_le t) (by have := Sys2Proof.Laws.boolCode_le e; have := Sys2Proof.Laws.scopeCode_le s; have := k.isLt; omega)
theorem Sys2Proof.Laws.MapRow.bwait (t : Tgt) (k : Fin 256) (a : Bool) (s : Scope) : Sys2Proof.Laws.MapRow.Statement (.bwait t k a s) :=
  Sys2Proof.Laws.word_row rfl (Sys2Proof.Laws.tgtCode_le t) (by have := Sys2Proof.Laws.boolCode_le a; have := Sys2Proof.Laws.scopeCode_le s; have := k.isLt; omega)
theorem Sys2Proof.Laws.MapRow.waitge (m : MHead) (b : Fin 4) : Sys2Proof.Laws.MapRow.Statement (.waitge m b) :=
  Sys2Proof.Laws.word_row rfl (Sys2Proof.Laws.tgtCode_le m.t) (by have := Sys2Proof.Laws.mheadCode_le m; have := b.isLt; omega)
theorem Sys2Proof.Laws.MapRow.cntadd (m : MHead) (b : Fin 4) (l : CntRel) : Sys2Proof.Laws.MapRow.Statement (.cntadd m b l) :=
  Sys2Proof.Laws.word_row rfl (Sys2Proof.Laws.tgtCode_le m.t) (by have := Sys2Proof.Laws.mheadCode_le m; have := Sys2Proof.Laws.cntRelCode_le l; have := b.isLt; omega)
theorem Sys2Proof.Laws.MapRow.osend (t : Tgt) (p : Pred) : Sys2Proof.Laws.MapRow.Statement (.osend t p) :=
  Sys2Proof.Laws.word_row rfl (Sys2Proof.Laws.tgtCode_le t) (by have := Sys2Proof.Laws.predCode_le p; omega)
theorem Sys2Proof.Laws.MapRow.orecv (h : DHead) : Sys2Proof.Laws.MapRow.Statement (.orecv h) :=
  Sys2Proof.Laws.word_row rfl (Sys2Proof.Laws.tgtCode_le h.t0) (by have := Sys2Proof.Laws.headCode_le h; omega)
theorem Sys2Proof.Laws.MapRow.split (t : Tgt) (k : Fin 256) : Sys2Proof.Laws.MapRow.Statement (.split t k) :=
  Sys2Proof.Laws.word_row rfl (Sys2Proof.Laws.tgtCode_le t) (by have := k.isLt; omega)
theorem Sys2Proof.Laws.MapRow.bobdef (t : Tgt) (k : Fin 256) (v : Bool) : Sys2Proof.Laws.MapRow.Statement (.bobdef t k v) :=
  Sys2Proof.Laws.word_row rfl (Sys2Proof.Laws.tgtCode_le t) (by have := Sys2Proof.Laws.boolCode_le v; have := k.isLt; omega)
theorem Sys2Proof.Laws.MapRow.bwf (t : Tgt) (b : Fin 32) (n : Fin 64) : Sys2Proof.Laws.MapRow.Statement (.bwf t b n) :=
  Sys2Proof.Laws.word_row rfl (Sys2Proof.Laws.tgtCode_le t) (by have := b.isLt; have := n.isLt; omega)
theorem Sys2Proof.Laws.MapRow.bwe (t : Tgt) (b : Fin 32) (n : Fin 64) : Sys2Proof.Laws.MapRow.Statement (.bwe t b n) :=
  Sys2Proof.Laws.word_row rfl (Sys2Proof.Laws.tgtCode_le t) (by have := b.isLt; have := n.isLt; omega)
theorem Sys2Proof.Laws.MapRow.badv (t : Tgt) (b : Fin 32) (hx : Bool) (k : Fin 64) : Sys2Proof.Laws.MapRow.Statement (.badv t b hx k) :=
  Sys2Proof.Laws.word_row rfl (Sys2Proof.Laws.tgtCode_le t) (by have := Sys2Proof.Laws.boolCode_le hx; have := b.isLt; have := k.isLt; omega)
theorem Sys2Proof.Laws.MapRow.tstat (t : Tgt) (ix : Fin 512) : Sys2Proof.Laws.MapRow.Statement (.tstat t ix) :=
  Sys2Proof.Laws.word_row rfl (Sys2Proof.Laws.tgtCode_le t) (by have := ix.isLt; omega)
theorem Sys2Proof.Laws.MapRow.tset (t : Tgt) (ix : Fin 512) : Sys2Proof.Laws.MapRow.Statement (.tset t ix) :=
  Sys2Proof.Laws.word_row rfl (Sys2Proof.Laws.tgtCode_le t) (by have := ix.isLt; omega)
theorem Sys2Proof.Laws.MapRow.cflush (m : MHead) (e : Ext) : Sys2Proof.Laws.MapRow.Statement (.cflush m e) :=
  Sys2Proof.Laws.word_row rfl (Sys2Proof.Laws.tgtCode_le m.t) (by have := Sys2Proof.Laws.mheadCode_le m; have := Sys2Proof.Laws.extCode_le e; omega)
theorem Sys2Proof.Laws.MapRow.cwb (m : MHead) (e : Ext) : Sys2Proof.Laws.MapRow.Statement (.cwb m e) :=
  Sys2Proof.Laws.word_row rfl (Sys2Proof.Laws.tgtCode_le m.t) (by have := Sys2Proof.Laws.mheadCode_le m; have := Sys2Proof.Laws.extCode_le e; omega)
theorem Sys2Proof.Laws.MapRow.cinv (m : MHead) (sp : Space) (e : Ext) : Sys2Proof.Laws.MapRow.Statement (.cinv m sp e) :=
  Sys2Proof.Laws.word_row rfl (Sys2Proof.Laws.tgtCode_le m.t) (by have := Sys2Proof.Laws.mheadCode_le m; have := Sys2Proof.Laws.spaceCode_le sp; have := Sys2Proof.Laws.extCode_le e; omega)
theorem Sys2Proof.Laws.MapRow.pin (m : MHead) (l : Bool) : Sys2Proof.Laws.MapRow.Statement (.pin m l) :=
  Sys2Proof.Laws.word_row rfl (Sys2Proof.Laws.tgtCode_le m.t) (by have := Sys2Proof.Laws.mheadCode_le m; have := Sys2Proof.Laws.boolCode_le l; omega)
theorem Sys2Proof.Laws.MapRow.unpin (m : MHead) (l : Bool) : Sys2Proof.Laws.MapRow.Statement (.unpin m l) :=
  Sys2Proof.Laws.word_row rfl (Sys2Proof.Laws.tgtCode_le m.t) (by have := Sys2Proof.Laws.mheadCode_le m; have := Sys2Proof.Laws.boolCode_le l; omega)
theorem Sys2Proof.Laws.MapRow.mapw (t : Tgt) (k : Fin 256) (o : Order) (v1 : Bool) (v0 : Bool) : Sys2Proof.Laws.MapRow.Statement (.mapw t k o v1 v0) :=
  Sys2Proof.Laws.word_row rfl (Sys2Proof.Laws.tgtCode_le t) (by have := Sys2Proof.Laws.orderCode_le o; have := Sys2Proof.Laws.boolCode_le v1; have := Sys2Proof.Laws.boolCode_le v0; have := k.isLt; omega)
theorem Sys2Proof.Laws.MapRow.unmapw (t : Tgt) (k : Fin 256) (o : Order) (v : Bool) : Sys2Proof.Laws.MapRow.Statement (.unmapw t k o v) :=
  Sys2Proof.Laws.word_row rfl (Sys2Proof.Laws.tgtCode_le t) (by have := Sys2Proof.Laws.orderCode_le o; have := Sys2Proof.Laws.boolCode_le v; have := k.isLt; omega)
theorem Sys2Proof.Laws.MapRow.fuse (t : Tgt) (k : Fin 256) (y : Fin 4) : Sys2Proof.Laws.MapRow.Statement (.fuse t k y) :=
  Sys2Proof.Laws.word_row rfl (Sys2Proof.Laws.tgtCode_le t) (by have := k.isLt; have := y.isLt; omega)
theorem Sys2Proof.Laws.MapRow.unfuse (t : Tgt) (y : Fin 4) : Sys2Proof.Laws.MapRow.Statement (.unfuse t y) :=
  Sys2Proof.Laws.word_row rfl (Sys2Proof.Laws.tgtCode_le t) (by have := y.isLt; omega)
theorem Sys2Proof.Laws.MapRow.wload (t : Tgt) (k : Fin 256) (s : Bool) (y : Fin 4) : Sys2Proof.Laws.MapRow.Statement (.wload t k s y) :=
  Sys2Proof.Laws.word_row rfl (Sys2Proof.Laws.tgtCode_le t) (by have := Sys2Proof.Laws.boolCode_le s; have := k.isLt; have := y.isLt; omega)
theorem Sys2Proof.Laws.MapRow.wswap (t : Tgt) (r : Fin 8) (y : Fin 4) : Sys2Proof.Laws.MapRow.Statement (.wswap t r y) :=
  Sys2Proof.Laws.word_row rfl (Sys2Proof.Laws.tgtCode_le t) (by have := r.isLt; have := y.isLt; omega)
theorem Sys2Proof.Laws.MapRow.mma (t : Tgt) (k : Fin 256) (mx : Fin 8) (s : MmaSrc) (y : Fin 4) : Sys2Proof.Laws.MapRow.Statement (.mma t k mx s y) :=
  Sys2Proof.Laws.word_row rfl (Sys2Proof.Laws.tgtCode_le t) (by have := Sys2Proof.Laws.mmaSrcCode_le s; have := k.isLt; have := mx.isLt; have := y.isLt; omega)
theorem Sys2Proof.Laws.MapRow.mmao (t : Tgt) (k : Fin 256) (mx : Fin 8) (s : MmaSrc) (y : Fin 4) : Sys2Proof.Laws.MapRow.Statement (.mmao t k mx s y) :=
  Sys2Proof.Laws.word_row rfl (Sys2Proof.Laws.tgtCode_le t) (by have := Sys2Proof.Laws.mmaSrcCode_le s; have := k.isLt; have := mx.isLt; have := y.isLt; omega)
theorem Sys2Proof.Laws.MapRow.accz (t : Tgt) (k : Fin 256) : Sys2Proof.Laws.MapRow.Statement (.accz t k) :=
  Sys2Proof.Laws.word_row rfl (Sys2Proof.Laws.tgtCode_le t) (by have := k.isLt; omega)
theorem Sys2Proof.Laws.MapRow.accrd (h : DHead) (w : Bool) (r : Rnd) : Sys2Proof.Laws.MapRow.Statement (.accrd h w r) :=
  Sys2Proof.Laws.word_row rfl (Sys2Proof.Laws.tgtCode_le h.t0) (by have := Sys2Proof.Laws.headCode_le h; have := Sys2Proof.Laws.boolCode_le w; have := Sys2Proof.Laws.rndCode_le r; omega)
theorem Sys2Proof.Laws.MapRow.accdr (t : Tgt) (k : Fin 256) (e : Bool) (y : Fin 4) : Sys2Proof.Laws.MapRow.Statement (.accdr t k e y) :=
  Sys2Proof.Laws.word_row rfl (Sys2Proof.Laws.tgtCode_le t) (by have := Sys2Proof.Laws.boolCode_le e; have := k.isLt; have := y.isLt; omega)
theorem Sys2Proof.Laws.MapRow.accsv (t : Tgt) (k : Fin 256) (e : Bool) : Sys2Proof.Laws.MapRow.Statement (.accsv t k e) :=
  Sys2Proof.Laws.word_row rfl (Sys2Proof.Laws.tgtCode_le t) (by have := Sys2Proof.Laws.boolCode_le e; have := k.isLt; omega)
theorem Sys2Proof.Laws.MapRow.accrs (t : Tgt) (k : Fin 256) : Sys2Proof.Laws.MapRow.Statement (.accrs t k) :=
  Sys2Proof.Laws.word_row rfl (Sys2Proof.Laws.tgtCode_le t) (by have := k.isLt; omega)
theorem Sys2Proof.Laws.MapRow.edly (t : Tgt) (k : Fin 256) (y : Fin 4) : Sys2Proof.Laws.MapRow.Statement (.edly t k y) :=
  Sys2Proof.Laws.word_row rfl (Sys2Proof.Laws.tgtCode_le t) (by have := k.isLt; have := y.isLt; omega)
theorem Sys2Proof.Laws.MapRow.skewc (t : Tgt) (c : Bool) (d : Fin 4) (s : Fin 4) : Sys2Proof.Laws.MapRow.Statement (.skewc t c d s) :=
  Sys2Proof.Laws.word_row rfl (Sys2Proof.Laws.tgtCode_le t) (by have := Sys2Proof.Laws.boolCode_le c; have := d.isLt; have := s.isLt; omega)
theorem Sys2Proof.Laws.MapRow.seaq (t : Tgt) (ix : Fin 8) (y : Fin 4) : Sys2Proof.Laws.MapRow.Statement (.seaq t ix y) :=
  Sys2Proof.Laws.word_row rfl (Sys2Proof.Laws.tgtCode_le t) (by have := ix.isLt; have := y.isLt; omega)
theorem Sys2Proof.Laws.MapRow.vadd (t : Tgt) (k : Fin 256) (b : Bool) : Sys2Proof.Laws.MapRow.Statement (.vadd t k b) :=
  Sys2Proof.Laws.word_row rfl (Sys2Proof.Laws.tgtCode_le t) (by have := Sys2Proof.Laws.boolCode_le b; have := k.isLt; omega)
theorem Sys2Proof.Laws.MapRow.vsub (t : Tgt) (k : Fin 256) (b : Bool) : Sys2Proof.Laws.MapRow.Statement (.vsub t k b) :=
  Sys2Proof.Laws.word_row rfl (Sys2Proof.Laws.tgtCode_le t) (by have := Sys2Proof.Laws.boolCode_le b; have := k.isLt; omega)
theorem Sys2Proof.Laws.MapRow.vmul (t : Tgt) (k : Fin 256) (b : Bool) : Sys2Proof.Laws.MapRow.Statement (.vmul t k b) :=
  Sys2Proof.Laws.word_row rfl (Sys2Proof.Laws.tgtCode_le t) (by have := Sys2Proof.Laws.boolCode_le b; have := k.isLt; omega)
theorem Sys2Proof.Laws.MapRow.vfma (t : Tgt) (k : Fin 256) (x : Bool) (b : Bool) : Sys2Proof.Laws.MapRow.Statement (.vfma t k x b) :=
  Sys2Proof.Laws.word_row rfl (Sys2Proof.Laws.tgtCode_le t) (by have := Sys2Proof.Laws.boolCode_le x; have := Sys2Proof.Laws.boolCode_le b; have := k.isLt; omega)
theorem Sys2Proof.Laws.MapRow.vmin (t : Tgt) (k : Fin 256) (b : Bool) : Sys2Proof.Laws.MapRow.Statement (.vmin t k b) :=
  Sys2Proof.Laws.word_row rfl (Sys2Proof.Laws.tgtCode_le t) (by have := Sys2Proof.Laws.boolCode_le b; have := k.isLt; omega)
theorem Sys2Proof.Laws.MapRow.vmax (t : Tgt) (k : Fin 256) (b : Bool) : Sys2Proof.Laws.MapRow.Statement (.vmax t k b) :=
  Sys2Proof.Laws.word_row rfl (Sys2Proof.Laws.tgtCode_le t) (by have := Sys2Proof.Laws.boolCode_le b; have := k.isLt; omega)
theorem Sys2Proof.Laws.MapRow.vcmp (t : Tgt) (k : Fin 256) (c : Cond) (b : Bool) : Sys2Proof.Laws.MapRow.Statement (.vcmp t k c b) :=
  Sys2Proof.Laws.word_row rfl (Sys2Proof.Laws.tgtCode_le t) (by have := Sys2Proof.Laws.condCode_le c; have := Sys2Proof.Laws.boolCode_le b; have := k.isLt; omega)
theorem Sys2Proof.Laws.MapRow.vsel (t : Tgt) (k : Fin 256) (x : Bool) (b : Bool) : Sys2Proof.Laws.MapRow.Statement (.vsel t k x b) :=
  Sys2Proof.Laws.word_row rfl (Sys2Proof.Laws.tgtCode_le t) (by have := Sys2Proof.Laws.boolCode_le x; have := Sys2Proof.Laws.boolCode_le b; have := k.isLt; omega)
theorem Sys2Proof.Laws.MapRow.vcvt (t : Tgt) (k : Fin 256) (q : Bool) (c : Bool) : Sys2Proof.Laws.MapRow.Statement (.vcvt t k q c) :=
  Sys2Proof.Laws.word_row rfl (Sys2Proof.Laws.tgtCode_le t) (by have := Sys2Proof.Laws.boolCode_le q; have := Sys2Proof.Laws.boolCode_le c; have := k.isLt; omega)
theorem Sys2Proof.Laws.MapRow.vred (t : Tgt) (k : Fin 256) (hx : Fin 8) (r : RedOp) (mx : Bool) (ox : Bool) : Sys2Proof.Laws.MapRow.Statement (.vred t k hx r mx ox) :=
  Sys2Proof.Laws.word_row rfl (Sys2Proof.Laws.tgtCode_le t) (by have := Sys2Proof.Laws.redOpCode_le r; have := Sys2Proof.Laws.boolCode_le mx; have := Sys2Proof.Laws.boolCode_le ox; have := k.isLt; have := hx.isLt; omega)
theorem Sys2Proof.Laws.MapRow.vexp2 (t : Tgt) (k : Fin 256) : Sys2Proof.Laws.MapRow.Statement (.vexp2 t k) :=
  Sys2Proof.Laws.word_row rfl (Sys2Proof.Laws.tgtCode_le t) (by have := k.isLt; omega)
theorem Sys2Proof.Laws.MapRow.vrsq (t : Tgt) (k : Fin 256) : Sys2Proof.Laws.MapRow.Statement (.vrsq t k) :=
  Sys2Proof.Laws.word_row rfl (Sys2Proof.Laws.tgtCode_le t) (by have := k.isLt; omega)
theorem Sys2Proof.Laws.MapRow.vrcp (t : Tgt) (k : Fin 256) : Sys2Proof.Laws.MapRow.Statement (.vrcp t k) :=
  Sys2Proof.Laws.word_row rfl (Sys2Proof.Laws.tgtCode_le t) (by have := k.isLt; omega)
theorem Sys2Proof.Laws.MapRow.vperm (t : Tgt) (k : Fin 256) (ix : Bool) (gr : Fin 4) : Sys2Proof.Laws.MapRow.Statement (.vperm t k ix gr) :=
  Sys2Proof.Laws.word_row rfl (Sys2Proof.Laws.tgtCode_le t) (by have := Sys2Proof.Laws.boolCode_le ix; have := k.isLt; have := gr.isLt; omega)
theorem Sys2Proof.Laws.MapRow.vbcst (t : Tgt) (k : Fin 256) (ix : Fin 64) (f : Bool) : Sys2Proof.Laws.MapRow.Statement (.vbcst t k ix f) :=
  Sys2Proof.Laws.word_row rfl (Sys2Proof.Laws.tgtCode_le t) (by have := Sys2Proof.Laws.boolCode_le f; have := k.isLt; have := ix.isLt; omega)
theorem Sys2Proof.Laws.MapRow.vqnt (t : Tgt) (k : Fin 256) (q : Bool) : Sys2Proof.Laws.MapRow.Statement (.vqnt t k q) :=
  Sys2Proof.Laws.word_row rfl (Sys2Proof.Laws.tgtCode_le t) (by have := Sys2Proof.Laws.boolCode_le q; have := k.isLt; omega)
theorem Sys2Proof.Laws.MapRow.copy (t : Tgt) (k : Fin 256) (o : Order) (v : Bool) : Sys2Proof.Laws.MapRow.Statement (.copy t k o v) :=
  Sys2Proof.Laws.word_row rfl (Sys2Proof.Laws.tgtCode_le t) (by have := Sys2Proof.Laws.orderCode_le o; have := Sys2Proof.Laws.boolCode_le v; have := k.isLt; omega)
theorem Sys2Proof.Laws.MapRow.gath (t : Tgt) (k : Fin 256) (o : Order) : Sys2Proof.Laws.MapRow.Statement (.gath t k o) :=
  Sys2Proof.Laws.word_row rfl (Sys2Proof.Laws.tgtCode_le t) (by have := Sys2Proof.Laws.orderCode_le o; have := k.isLt; omega)
theorem Sys2Proof.Laws.MapRow.scat (t : Tgt) (k : Fin 256) (o : Order) (v : ScatOp) : Sys2Proof.Laws.MapRow.Statement (.scat t k o v) :=
  Sys2Proof.Laws.word_row rfl (Sys2Proof.Laws.tgtCode_le t) (by have := Sys2Proof.Laws.orderCode_le o; have := Sys2Proof.Laws.scatOpCode_le v; have := k.isLt; omega)
theorem Sys2Proof.Laws.MapRow.mcast (t : Tgt) (k : Fin 256) (o : Order) (v : Bool) : Sys2Proof.Laws.MapRow.Statement (.mcast t k o v) :=
  Sys2Proof.Laws.word_row rfl (Sys2Proof.Laws.tgtCode_le t) (by have := Sys2Proof.Laws.orderCode_le o; have := Sys2Proof.Laws.boolCode_le v; have := k.isLt; omega)
theorem Sys2Proof.Laws.MapRow.xconv (t : Tgt) (k : Fin 256) (o : Order) (v : Bool) : Sys2Proof.Laws.MapRow.Statement (.xconv t k o v) :=
  Sys2Proof.Laws.word_row rfl (Sys2Proof.Laws.tgtCode_le t) (by have := Sys2Proof.Laws.orderCode_le o; have := Sys2Proof.Laws.boolCode_le v; have := k.isLt; omega)
theorem Sys2Proof.Laws.MapRow.relay (t : Tgt) (k : Fin 256) (o : Order) : Sys2Proof.Laws.MapRow.Statement (.relay t k o) :=
  Sys2Proof.Laws.word_row rfl (Sys2Proof.Laws.tgtCode_le t) (by have := Sys2Proof.Laws.orderCode_le o; have := k.isLt; omega)
theorem Sys2Proof.Laws.MapRow.free (t : Tgt) (n : Fin 64) (tag : Fin 16) : Sys2Proof.Laws.MapRow.Statement (.free t n tag) :=
  Sys2Proof.Laws.word_row rfl (Sys2Proof.Laws.tgtCode_le t) (by have := n.isLt; have := tag.isLt; omega)
theorem Sys2Proof.Laws.MapRow.xstat (t : Tgt) (v : Fin 3) : Sys2Proof.Laws.MapRow.Statement (.xstat t v) :=
  Sys2Proof.Laws.word_row rfl (Sys2Proof.Laws.tgtCode_le t) (by have := v.isLt; omega)
theorem Sys2Proof.Laws.MapRow.chopen (t : Tgt) (k : Fin 256) : Sys2Proof.Laws.MapRow.Statement (.chopen t k) :=
  Sys2Proof.Laws.word_row rfl (Sys2Proof.Laws.tgtCode_le t) (by have := k.isLt; omega)
theorem Sys2Proof.Laws.MapRow.push (t : Tgt) (e : Fin 256) (p : Pred) : Sys2Proof.Laws.MapRow.Statement (.push t e p) :=
  Sys2Proof.Laws.word_row rfl (Sys2Proof.Laws.tgtCode_le t) (by have := Sys2Proof.Laws.predCode_le p; have := e.isLt; omega)
theorem Sys2Proof.Laws.MapRow.pop (t : Tgt) (e : Fin 256) (r : Bool) : Sys2Proof.Laws.MapRow.Statement (.pop t e r) :=
  Sys2Proof.Laws.word_row rfl (Sys2Proof.Laws.tgtCode_le t) (by have := Sys2Proof.Laws.boolCode_le r; have := e.isLt; omega)
theorem Sys2Proof.Laws.MapRow.pushb (t : Tgt) (k : Fin 256) : Sys2Proof.Laws.MapRow.Statement (.pushb t k) :=
  Sys2Proof.Laws.word_row rfl (Sys2Proof.Laws.tgtCode_le t) (by have := k.isLt; omega)
theorem Sys2Proof.Laws.MapRow.popb (t : Tgt) (k : Fin 256) : Sys2Proof.Laws.MapRow.Statement (.popb t k) :=
  Sys2Proof.Laws.word_row rfl (Sys2Proof.Laws.tgtCode_le t) (by have := k.isLt; omega)
theorem Sys2Proof.Laws.MapRow.peek (t : Tgt) (e : Fin 256) : Sys2Proof.Laws.MapRow.Statement (.peek t e) :=
  Sys2Proof.Laws.word_row rfl (Sys2Proof.Laws.tgtCode_le t) (by have := e.isLt; omega)
theorem Sys2Proof.Laws.MapRow.chend (t : Tgt) (f : Bool) (e : Fin 256) : Sys2Proof.Laws.MapRow.Statement (.chend t f e) :=
  Sys2Proof.Laws.word_row rfl (Sys2Proof.Laws.tgtCode_le t) (by have := Sys2Proof.Laws.boolCode_le f; have := e.isLt; omega)
theorem Sys2Proof.Laws.MapRow.chstat (t : Tgt) (v : Fin 4) : Sys2Proof.Laws.MapRow.Statement (.chstat t v) :=
  Sys2Proof.Laws.word_row rfl (Sys2Proof.Laws.tgtCode_le t) (by have := v.isLt; omega)
theorem Sys2Proof.Laws.MapRow.chgrow (t : Tgt) (k : Fin 256) (v : Bool) : Sys2Proof.Laws.MapRow.Statement (.chgrow t k v) :=
  Sys2Proof.Laws.word_row rfl (Sys2Proof.Laws.tgtCode_le t) (by have := Sys2Proof.Laws.boolCode_le v; have := k.isLt; omega)
theorem Sys2Proof.Laws.MapRow.chdef (t : Tgt) (k : Fin 256) : Sys2Proof.Laws.MapRow.Statement (.chdef t k) :=
  Sys2Proof.Laws.word_row rfl (Sys2Proof.Laws.tgtCode_le t) (by have := k.isLt; omega)
theorem Sys2Proof.Laws.MapRow.chfree (t : Tgt) : Sys2Proof.Laws.MapRow.Statement (.chfree t) :=
  Sys2Proof.Laws.word_row rfl (Sys2Proof.Laws.tgtCode_le t) (by omega)
theorem Sys2Proof.Laws.MapRow.matom (m : MHead) (b : Fin 4) (ox : Fin 16) : Sys2Proof.Laws.MapRow.Statement (.matom m b ox) :=
  Sys2Proof.Laws.word_row rfl (Sys2Proof.Laws.tgtCode_le m.t) (by have := Sys2Proof.Laws.mheadCode_le m; have := b.isLt; have := ox.isLt; omega)
theorem Sys2Proof.Laws.MapRow.mcas (m : MHead) (b : Fin 4) (f : Bool) : Sys2Proof.Laws.MapRow.Statement (.mcas m b f) :=
  Sys2Proof.Laws.word_row rfl (Sys2Proof.Laws.tgtCode_le m.t) (by have := Sys2Proof.Laws.mheadCode_le m; have := Sys2Proof.Laws.boolCode_le f; have := b.isLt; omega)
theorem Sys2Proof.Laws.MapRow.mtas (m : MHead) (b : Fin 4) (c : Bool) : Sys2Proof.Laws.MapRow.Statement (.mtas m b c) :=
  Sys2Proof.Laws.word_row rfl (Sys2Proof.Laws.tgtCode_le m.t) (by have := Sys2Proof.Laws.mheadCode_le m; have := Sys2Proof.Laws.boolCode_le c; have := b.isLt; omega)
theorem Sys2Proof.Laws.MapRow.mred (t : Tgt) (k : Fin 256) (o : Order) (v : MredOp) : Sys2Proof.Laws.MapRow.Statement (.mred t k o v) :=
  Sys2Proof.Laws.word_row rfl (Sys2Proof.Laws.tgtCode_le t) (by have := Sys2Proof.Laws.orderCode_le o; have := Sys2Proof.Laws.mredOpCode_le v; have := k.isLt; omega)
theorem Sys2Proof.Laws.MapRow.mcnt (m : MHead) (b : Fin 4) (ox : Fin 4) : Sys2Proof.Laws.MapRow.Statement (.mcnt m b ox) :=
  Sys2Proof.Laws.word_row rfl (Sys2Proof.Laws.tgtCode_le m.t) (by have := Sys2Proof.Laws.mheadCode_le m; have := b.isLt; have := ox.isLt; omega)
theorem Sys2Proof.Laws.MapRow.framem (t : Tgt) (k : Fin 256) (v : Bool) : Sys2Proof.Laws.MapRow.Statement (.framem t k v) :=
  Sys2Proof.Laws.word_row rfl (Sys2Proof.Laws.tgtCode_le t) (by have := Sys2Proof.Laws.boolCode_le v; have := k.isLt; omega)
theorem Sys2Proof.Laws.MapRow.launch (t : Tgt) (k : Fin 256) (o : Order) (v : Bool) : Sys2Proof.Laws.MapRow.Statement (.launch t k o v) :=
  Sys2Proof.Laws.word_row rfl (Sys2Proof.Laws.tgtCode_le t) (by have := Sys2Proof.Laws.orderCode_le o; have := Sys2Proof.Laws.boolCode_le v; have := k.isLt; omega)
theorem Sys2Proof.Laws.MapRow.nodeq (t : Tgt) (ix : Fin 8) : Sys2Proof.Laws.MapRow.Statement (.nodeq t ix) :=
  Sys2Proof.Laws.word_row rfl (Sys2Proof.Laws.tgtCode_le t) (by have := ix.isLt; omega)
theorem Sys2Proof.Laws.MapRow.yieldN (t : Tgt) (f : Bool) : Sys2Proof.Laws.MapRow.Statement (.yieldN t f) :=
  Sys2Proof.Laws.word_row rfl (Sys2Proof.Laws.tgtCode_le t) (by have := Sys2Proof.Laws.boolCode_le f; omega)
theorem Sys2Proof.Laws.MapRow.pwrq (t : Tgt) (ix : Fin 6) : Sys2Proof.Laws.MapRow.Statement (.pwrq t ix) :=
  Sys2Proof.Laws.word_row rfl (Sys2Proof.Laws.tgtCode_le t) (by have := ix.isLt; omega)
theorem Sys2Proof.Laws.MapRow.trap (t : Tgt) (c : BitVec 15) : Sys2Proof.Laws.MapRow.Statement (.trap t c) :=
  Sys2Proof.Laws.word_row rfl (Sys2Proof.Laws.tgtCode_le t) (by have := c.isLt; omega)
theorem Sys2Proof.Laws.MapRow.rte (t : Tgt) : Sys2Proof.Laws.MapRow.Statement (.rte t) :=
  Sys2Proof.Laws.word_row rfl (Sys2Proof.Laws.tgtCode_le t) (by omega)
theorem Sys2Proof.Laws.MapRow.csrrd (t : Tgt) (c : BitVec 12) : Sys2Proof.Laws.MapRow.Statement (.csrrd t c) :=
  Sys2Proof.Laws.word_row rfl (Sys2Proof.Laws.tgtCode_le t) (by have := c.isLt; omega)
theorem Sys2Proof.Laws.MapRow.csrwr (t : Tgt) (c : BitVec 12) : Sys2Proof.Laws.MapRow.Statement (.csrwr t c) :=
  Sys2Proof.Laws.word_row rfl (Sys2Proof.Laws.tgtCode_le t) (by have := c.isLt; omega)
theorem Sys2Proof.Laws.MapRow.tlbi (m : MHead) (b : Fin 4) (e : TlbExt) : Sys2Proof.Laws.MapRow.Statement (.tlbi m b e) :=
  Sys2Proof.Laws.word_row rfl (Sys2Proof.Laws.tgtCode_le m.t) (by have := Sys2Proof.Laws.mheadCode_le m; have := Sys2Proof.Laws.tlbExtCode_le e; have := b.isLt; omega)
theorem Sys2Proof.Laws.MapRow.wfe (t : Tgt) (mx : BitVec 6) : Sys2Proof.Laws.MapRow.Statement (.wfe t mx) :=
  Sys2Proof.Laws.word_row rfl (Sys2Proof.Laws.tgtCode_le t) (by have := mx.isLt; omega)
theorem Sys2Proof.Laws.MapRow.jmpb (t : Tgt) (k : Fin 256) : Sys2Proof.Laws.MapRow.Statement (.jmpb t k) :=
  Sys2Proof.Laws.word_row rfl (Sys2Proof.Laws.tgtCode_le t) (by have := k.isLt; omega)
theorem Sys2Proof.Laws.MapRow.callb (t : Tgt) (k : Fin 256) : Sys2Proof.Laws.MapRow.Statement (.callb t k) :=
  Sys2Proof.Laws.word_row rfl (Sys2Proof.Laws.tgtCode_le t) (by have := k.isLt; omega)
theorem Sys2Proof.Laws.MapRow.retb (t : Tgt) : Sys2Proof.Laws.MapRow.Statement (.retb t) :=
  Sys2Proof.Laws.word_row rfl (Sys2Proof.Laws.tgtCode_le t) (by omega)
theorem Sys2Proof.Laws.MapRow.tqpost (t : Tgt) (a : Bool) (s : Scope) (v : Bool) : Sys2Proof.Laws.MapRow.Statement (.tqpost t a s v) :=
  Sys2Proof.Laws.word_row rfl (Sys2Proof.Laws.tgtCode_le t) (by have := Sys2Proof.Laws.boolCode_le a; have := Sys2Proof.Laws.scopeCode_le s; have := Sys2Proof.Laws.boolCode_le v; omega)
theorem Sys2Proof.Laws.MapRow.tqack (t : Tgt) (e : Bool) (s : Scope) : Sys2Proof.Laws.MapRow.Statement (.tqack t e s) :=
  Sys2Proof.Laws.word_row rfl (Sys2Proof.Laws.tgtCode_le t) (by have := Sys2Proof.Laws.boolCode_le e; have := Sys2Proof.Laws.scopeCode_le s; omega)
theorem Sys2Proof.Laws.MapRow.sigchk (t : Tgt) (k : Fin 256) (a : Bool) (s : Scope) (v : Fin 4) : Sys2Proof.Laws.MapRow.Statement (.sigchk t k a s v) :=
  Sys2Proof.Laws.word_row rfl (Sys2Proof.Laws.tgtCode_le t) (by have := Sys2Proof.Laws.boolCode_le a; have := Sys2Proof.Laws.scopeCode_le s; have := k.isLt; have := v.isLt; omega)
theorem Sys2Proof.Laws.MapRow.fwswap (t : Tgt) : Sys2Proof.Laws.MapRow.Statement (.fwswap t) :=
  Sys2Proof.Laws.word_row rfl (Sys2Proof.Laws.tgtCode_le t) (by omega)
theorem Sys2Proof.Laws.MapRow.mcread (t : Tgt) : Sys2Proof.Laws.MapRow.Statement (.mcread t) :=
  Sys2Proof.Laws.word_row rfl (Sys2Proof.Laws.tgtCode_le t) (by omega)
theorem Sys2Proof.Laws.MapRow.ecntr (t : Tgt) (v : Bool) : Sys2Proof.Laws.MapRow.Statement (.ecntr t v) :=
  Sys2Proof.Laws.word_row rfl (Sys2Proof.Laws.tgtCode_le t) (by have := Sys2Proof.Laws.boolCode_le v; omega)
theorem Sys2Proof.Laws.MapRow.einj (t : Tgt) (k : Fin 256) (v : Bool) : Sys2Proof.Laws.MapRow.Statement (.einj t k v) :=
  Sys2Proof.Laws.word_row rfl (Sys2Proof.Laws.tgtCode_le t) (by have := Sys2Proof.Laws.boolCode_le v; have := k.isLt; omega)
theorem Sys2Proof.Laws.MapRow.binset (t : Tgt) : Sys2Proof.Laws.MapRow.Statement (.binset t) :=
  Sys2Proof.Laws.word_row rfl (Sys2Proof.Laws.tgtCode_le t) (by omega)
theorem Sys2Proof.Laws.MapRow.retest (t : Tgt) : Sys2Proof.Laws.MapRow.Statement (.retest t) :=
  Sys2Proof.Laws.word_row rfl (Sys2Proof.Laws.tgtCode_le t) (by omega)
theorem Sys2Proof.Laws.MapRow.bypass (t : Tgt) : Sys2Proof.Laws.MapRow.Statement (.bypass t) :=
  Sys2Proof.Laws.word_row rfl (Sys2Proof.Laws.tgtCode_le t) (by omega)
theorem Sys2Proof.Laws.MapRow.flddrain (t : Tgt) : Sys2Proof.Laws.MapRow.Statement (.flddrain t) :=
  Sys2Proof.Laws.word_row rfl (Sys2Proof.Laws.tgtCode_le t) (by omega)
theorem Sys2Proof.Laws.MapRow.fldadmit (t : Tgt) : Sys2Proof.Laws.MapRow.Statement (.fldadmit t) :=
  Sys2Proof.Laws.word_row rfl (Sys2Proof.Laws.tgtCode_le t) (by omega)
theorem Sys2Proof.Laws.MapRow.lwRecWrite (x0 : Fin 2) (x1 : Fin 64) (x2 : List Byte) : Sys2Proof.Laws.MapRow.Statement (.lwRecWrite x0 x1 x2) := rfl
theorem Sys2Proof.Laws.MapRow.launchRecordCheck (x0 : Fin 2) : Sys2Proof.Laws.MapRow.Statement (.launchRecordCheck x0) := rfl
theorem Sys2Proof.Laws.MapRow.tqBaseWrite (x0 : Dword) : Sys2Proof.Laws.MapRow.Statement (.tqBaseWrite x0) := rfl
theorem Sys2Proof.Laws.MapRow.tqCfgWrite (x0 : Word) : Sys2Proof.Laws.MapRow.Statement (.tqCfgWrite x0) := rfl
theorem Sys2Proof.Laws.MapRow.tqHeadWrite (x0 : Word) : Sys2Proof.Laws.MapRow.Statement (.tqHeadWrite x0) := rfl
theorem Sys2Proof.Laws.MapRow.tqAckWrite (x0 : Dword) : Sys2Proof.Laws.MapRow.Statement (.tqAckWrite x0) := rfl
theorem Sys2Proof.Laws.MapRow.tqFatalClear : Sys2Proof.Laws.MapRow.Statement (.tqFatalClear) := rfl
theorem Sys2Proof.Laws.MapRow.trapRecordPost : Sys2Proof.Laws.MapRow.Statement (.trapRecordPost) := rfl
theorem Sys2Proof.Laws.MapRow.placementPass : Sys2Proof.Laws.MapRow.Statement (.placementPass) := rfl
theorem Sys2Proof.Laws.MapRow.blockLoad (x0 : CtxId) : Sys2Proof.Laws.MapRow.Statement (.blockLoad x0) := rfl
theorem Sys2Proof.Laws.MapRow.blockEnd (x0 : CtxId) : Sys2Proof.Laws.MapRow.Statement (.blockEnd x0) := rfl
theorem Sys2Proof.Laws.MapRow.phaseBoundary (x0 : CtxId) : Sys2Proof.Laws.MapRow.Statement (.phaseBoundary x0) := rfl
theorem Sys2Proof.Laws.MapRow.commitBoundary (x0 : CtxId) : Sys2Proof.Laws.MapRow.Statement (.commitBoundary x0) := rfl
theorem Sys2Proof.Laws.MapRow.nodeComplete (x0 : Nat) : Sys2Proof.Laws.MapRow.Statement (.nodeComplete x0) := rfl
theorem Sys2Proof.Laws.MapRow.machineCheck (x0 : Check) : Sys2Proof.Laws.MapRow.Statement (.machineCheck x0) := rfl
theorem Sys2Proof.Laws.MapRow.nodeRetireChecks (x0 : Nat) : Sys2Proof.Laws.MapRow.Statement (.nodeRetireChecks x0) := rfl
theorem Sys2Proof.Laws.MapRow.marginalUnit (x0 : UnitName) : Sys2Proof.Laws.MapRow.Statement (.marginalUnit x0) := rfl
theorem Sys2Proof.Laws.MapRow.preemption (x0 : Nat) : Sys2Proof.Laws.MapRow.Statement (.preemption x0) := rfl
theorem Sys2Proof.Laws.MapRow.restore (x0 : Nat) : Sys2Proof.Laws.MapRow.Statement (.restore x0) := rfl
theorem Sys2Proof.Laws.MapRow.ageTick : Sys2Proof.Laws.MapRow.Statement (.ageTick) := rfl
theorem Sys2Proof.Laws.MapRow.deadlockDetect : Sys2Proof.Laws.MapRow.Statement (.deadlockDetect) := rfl
theorem Sys2Proof.Laws.MapRow.channelRefill (x0 : Fin 4096) : Sys2Proof.Laws.MapRow.Statement (.channelRefill x0) := rfl
theorem Sys2Proof.Laws.MapRow.chuBaseWrite (x0 : Dword) : Sys2Proof.Laws.MapRow.Statement (.chuBaseWrite x0) := rfl
theorem Sys2Proof.Laws.MapRow.chuCfgWrite (x0 : Word) : Sys2Proof.Laws.MapRow.Statement (.chuCfgWrite x0) := rfl
theorem Sys2Proof.Laws.MapRow.chuDefine (x0 : Fin 4096) : Sys2Proof.Laws.MapRow.Statement (.chuDefine x0) := rfl
theorem Sys2Proof.Laws.MapRow.chuFree (x0 : Fin 4096) : Sys2Proof.Laws.MapRow.Statement (.chuFree x0) := rfl
theorem Sys2Proof.Laws.MapRow.chuSnapshot (x0 : Fin 4096) : Sys2Proof.Laws.MapRow.Statement (.chuSnapshot x0) := rfl
theorem Sys2Proof.Laws.MapRow.chuClose (x0 : Fin 4096) : Sys2Proof.Laws.MapRow.Statement (.chuClose x0) := rfl
theorem Sys2Proof.Laws.MapRow.xlRootWrite (x0 : Dword) : Sys2Proof.Laws.MapRow.Statement (.xlRootWrite x0) := rfl
theorem Sys2Proof.Laws.MapRow.xlFtdescWrite (x0 : Word) : Sys2Proof.Laws.MapRow.Statement (.xlFtdescWrite x0) := rfl
theorem Sys2Proof.Laws.MapRow.xlUnmap (x0 : BitVec 16) : Sys2Proof.Laws.MapRow.Statement (.xlUnmap x0) := rfl
theorem Sys2Proof.Laws.MapRow.xlMigrate (x0 : BitVec 16) : Sys2Proof.Laws.MapRow.Statement (.xlMigrate x0) := rfl
theorem Sys2Proof.Laws.MapRow.xlInvalidate (x0 : BitVec 16) : Sys2Proof.Laws.MapRow.Statement (.xlInvalidate x0) := rfl
theorem Sys2Proof.Laws.MapRow.xlHostPin (x0 : BitVec 16) : Sys2Proof.Laws.MapRow.Statement (.xlHostPin x0) := rfl
theorem Sys2Proof.Laws.MapRow.xlHostUnpin (x0 : BitVec 16) : Sys2Proof.Laws.MapRow.Statement (.xlHostUnpin x0) := rfl
theorem Sys2Proof.Laws.MapRow.dspCfgWrite (x0 : Word) : Sys2Proof.Laws.MapRow.Statement (.dspCfgWrite x0) := rfl
theorem Sys2Proof.Laws.MapRow.pwrBudgetWrite (x0 : PwrReg) (x1 : Word) : Sys2Proof.Laws.MapRow.Statement (.pwrBudgetWrite x0 x1) := rfl
theorem Sys2Proof.Laws.MapRow.dspPreempt : Sys2Proof.Laws.MapRow.Statement (.dspPreempt) := rfl
theorem Sys2Proof.Laws.MapRow.dspHold : Sys2Proof.Laws.MapRow.Statement (.dspHold) := rfl
theorem Sys2Proof.Laws.MapRow.dspRelease : Sys2Proof.Laws.MapRow.Statement (.dspRelease) := rfl
theorem Sys2Proof.Laws.MapRow.dspReopen : Sys2Proof.Laws.MapRow.Statement (.dspReopen) := rfl
theorem Sys2Proof.Laws.MapRow.hlCfgWrite (x0 : Word) : Sys2Proof.Laws.MapRow.Statement (.hlCfgWrite x0) := rfl
theorem Sys2Proof.Laws.MapRow.hlCdataRead : Sys2Proof.Laws.MapRow.Statement (.hlCdataRead) := rfl
theorem Sys2Proof.Laws.MapRow.hlRetireFrame : Sys2Proof.Laws.MapRow.Statement (.hlRetireFrame) := rfl
theorem Sys2Proof.Laws.MapRow.hlRetirePch : Sys2Proof.Laws.MapRow.Statement (.hlRetirePch) := rfl
theorem Sys2Proof.Laws.MapRow.hlRetireStack : Sys2Proof.Laws.MapRow.Statement (.hlRetireStack) := rfl
theorem Sys2Proof.Laws.MapRow.hlMarkLayer : Sys2Proof.Laws.MapRow.Statement (.hlMarkLayer) := rfl
theorem Sys2Proof.Laws.MapRow.hlClearLayer : Sys2Proof.Laws.MapRow.Statement (.hlClearLayer) := rfl
theorem Sys2Proof.Laws.MapRow.layerAutoMark (x0 : Fin 12288) (x1 : Fin 6) : Sys2Proof.Laws.MapRow.Statement (.layerAutoMark x0 x1) := rfl
theorem Sys2Proof.Laws.MapRow.ceThreshold (x0 : Nat) : Sys2Proof.Laws.MapRow.Statement (.ceThreshold x0) := rfl
theorem Sys2Proof.Laws.MapRow.fieldDrained (x0 : Fin 4) : Sys2Proof.Laws.MapRow.Statement (.fieldDrained x0) := rfl
theorem Sys2Proof.Laws.MapRow.retestDone (x0 : Fin 4) (x1 : List (Fin 256 × Fin 192)) (x2 : Nat) : Sys2Proof.Laws.MapRow.Statement (.retestDone x0 x1 x2) := rfl
theorem Sys2Proof.Laws.MapRow.binChangeDone (x0 : Fin 4) : Sys2Proof.Laws.MapRow.Statement (.binChangeDone x0) := rfl
theorem Sys2Proof.Laws.MapRow.bypassApply : Sys2Proof.Laws.MapRow.Statement (.bypassApply) := rfl
theorem Sys2Proof.Laws.MapRow.shuttleCommandStart (x0 : Nat) : Sys2Proof.Laws.MapRow.Statement (.shuttleCommandStart x0) := rfl
theorem Sys2Proof.Laws.MapRow.shuttleTilePermit (x0 : Nat) : Sys2Proof.Laws.MapRow.Statement (.shuttleTilePermit x0) := rfl
theorem Sys2Proof.Laws.MapRow.shuttleComplete (x0 : Nat) : Sys2Proof.Laws.MapRow.Statement (.shuttleComplete x0) := rfl
theorem Sys2Proof.Laws.MapRow.sigchkComplete : Sys2Proof.Laws.MapRow.Statement (.sigchkComplete) := rfl
theorem Sys2Proof.Laws.MapRow.timerMatch (x0 : Fin 16) : Sys2Proof.Laws.MapRow.Statement (.timerMatch x0) := rfl
theorem Sys2Proof.Laws.MapRow.fwWatchdog (x0 : Fin 16) : Sys2Proof.Laws.MapRow.Statement (.fwWatchdog x0) := rfl
theorem Sys2Proof.Laws.MapRow.sliceExpiry (x0 : Fin 16) : Sys2Proof.Laws.MapRow.Statement (.sliceExpiry x0) := rfl
theorem Sys2Proof.Laws.MapRow.registerWrite (x0 : Fin 2) (x1 : BitVec 15) (x2 : Bool) (x3 : Dword) : Sys2Proof.Laws.MapRow.Statement (.registerWrite x0 x1 x2 x3) := rfl
theorem Sys2Proof.Laws.MapRow.hostWrite (x0 : Fin 2) (x1 : BitVec 36) (x2 : List Byte) : Sys2Proof.Laws.MapRow.Statement (.hostWrite x0 x1 x2) := rfl
theorem Sys2Proof.Laws.MapRow.hostRead (x0 : Fin 2) (x1 : BitVec 36) (x2 : Nat) : Sys2Proof.Laws.MapRow.Statement (.hostRead x0 x1 x2) := rfl
theorem Sys2Proof.Laws.MapRow.descriptorViewWrite (x0 : Fin 2) (x1 : BitVec 31) (x2 : Nat) (x3 : Desc) : Sys2Proof.Laws.MapRow.Statement (.descriptorViewWrite x0 x1 x2 x3) := rfl
theorem Sys2Proof.Laws.MapRow.hpDbellWrite (x0 : Fin 2) (x1 : Word) : Sys2Proof.Laws.MapRow.Statement (.hpDbellWrite x0 x1) := rfl
theorem Sys2Proof.Laws.MapRow.hostRequestTimeout (x0 : Fin 2) : Sys2Proof.Laws.MapRow.Statement (.hostRequestTimeout x0) := rfl
theorem Sys2Proof.Laws.MapRow.peerDataFlit (x0 : Fin 8) (x1 : Flit) : Sys2Proof.Laws.MapRow.Statement (.peerDataFlit x0 x1) := rfl
theorem Sys2Proof.Laws.MapRow.peerHeaderFlit (x0 : Fin 8) (x1 : HeaderFlit) : Sys2Proof.Laws.MapRow.Statement (.peerHeaderFlit x0 x1) := rfl
theorem Sys2Proof.Laws.MapRow.peerAckFlit (x0 : Fin 8) (x1 : Dword) : Sys2Proof.Laws.MapRow.Statement (.peerAckFlit x0 x1) := rfl
theorem Sys2Proof.Laws.MapRow.peerCreditFlit (x0 : Fin 8) : Sys2Proof.Laws.MapRow.Statement (.peerCreditFlit x0) := rfl
theorem Sys2Proof.Laws.MapRow.relayAckTimeout (x0 : Nat) : Sys2Proof.Laws.MapRow.Statement (.relayAckTimeout x0) := rfl
theorem Sys2Proof.Laws.MapRow.peerPortDown (x0 : Fin 8) : Sys2Proof.Laws.MapRow.Statement (.peerPortDown x0) := rfl
theorem Sys2Proof.Laws.MapRow.prRetrain (x0 : Fin 8) : Sys2Proof.Laws.MapRow.Statement (.prRetrain x0) := rfl
theorem Sys2Proof.Laws.MapRow.mgAttest : Sys2Proof.Laws.MapRow.Statement (.mgAttest) := rfl
theorem Sys2Proof.Laws.MapRow.moduleReset (x0 : Bool) : Sys2Proof.Laws.MapRow.Statement (.moduleReset x0) := rfl
theorem Sys2Proof.Laws.MapRow.bootImageVerify : Sys2Proof.Laws.MapRow.Statement (.bootImageVerify) := rfl
theorem Sys2Proof.Laws.MapRow.hbmTrain (x0 : Bool) : Sys2Proof.Laws.MapRow.Statement (.hbmTrain x0) := rfl
theorem Sys2Proof.Laws.MapRow.sramTest (x0 : Bool) (x1 : List (Fin 12288 × Fin 6)) : Sys2Proof.Laws.MapRow.Statement (.sramTest x0 x1) := rfl
theorem Sys2Proof.Laws.MapRow.binLoadRetest (x0 : Bool) : Sys2Proof.Laws.MapRow.Statement (.binLoadRetest x0) := rfl
theorem Sys2Proof.Laws.MapRow.firmwareInstall : Sys2Proof.Laws.MapRow.Statement (.firmwareInstall) := rfl
theorem Sys2Proof.Laws.MapRow.linkTrain (x0 : Bool) : Sys2Proof.Laws.MapRow.Statement (.linkTrain x0) := rfl
theorem Sys2Proof.Laws.MapRow.coldPlateLimit (x0 : Word) : Sys2Proof.Laws.MapRow.Statement (.coldPlateLimit x0) := rfl
theorem Sys2Proof.Laws.MapRow.hbmStackLost (x0 : Fin 8) : Sys2Proof.Laws.MapRow.Statement (.hbmStackLost x0) := rfl
theorem Sys2Proof.Laws.MapRow.twoCopyDisagree (x0 : Dword) : Sys2Proof.Laws.MapRow.Statement (.twoCopyDisagree x0) := rfl
theorem Sys2Proof.Laws.MapRow.powerBucketTick (x0 : Bucket) : Sys2Proof.Laws.MapRow.Statement (.powerBucketTick x0) := rfl
theorem Sys2Proof.Laws.MapRow.peerPortUp (x0 : Fin 8) : Sys2Proof.Laws.MapRow.Statement (.peerPortUp x0) := rfl
theorem Sys2Proof.Laws.MapRow.peerFlitCrcFail (x0 : Fin 8) : Sys2Proof.Laws.MapRow.Statement (.peerFlitCrcFail x0) := rfl
theorem Sys2Proof.Laws.MapRow.hostLinkChange (x0 : Fin 2) (x1 : Bool) (x2 : BitVec 4) (x3 : BitVec 5) : Sys2Proof.Laws.MapRow.Statement (.hostLinkChange x0 x1 x2 x3) := rfl
theorem Sys2Proof.Laws.MapRow.memorySoftError (x0 : SoftErr) : Sys2Proof.Laws.MapRow.Statement (.memorySoftError x0) := rfl
end

