-- ==== Sys2Proof/Laws/Reads.lean ====
section
/-! SUPPORT. A read, of a line or of a translation, leaves every node of the dispatcher as it was. -/

namespace Sys2Proof.Machine

theorem hostRequest_dsp (s : State) (k : Nat) : (hostRequest s k).2.dsp = s.dsp := by
  unfold hostRequest; split <;> rfl

theorem setBacking_dsp (s : State) (k : Nat) (m : Store) : (setBacking s k m).dsp = s.dsp := by
  unfold setBacking; split <;> rfl

theorem addCe_dsp (s : State) (k n : Nat) : (addCe s k n).dsp = s.dsp := by
  unfold addCe; split
  · simp only; split <;> rfl
  · rfl

theorem addSymbol_dsp (s : State) (b : Nat) (ly : Fin 6) : (addSymbol s b ly).dsp = s.dsp := by
  unfold addSymbol; simp only; split <;> rfl

theorem addSymbols_dsp (b : Nat) : ∀ (l : List Nat) (t : State), (l.foldl (fun t j => addSymbol t b (Fin.ofNat 6 j)) t).dsp = t.dsp
  | [], _ => rfl
  | j :: l, t => by rw [List.foldl_cons, addSymbols_dsp b l, addSymbol_dsp]

theorem countDecoded_dsp (s : State) (k b : Nat) (ds : List Decoded) : (countDecoded s k b ds).dsp = s.dsp := by
  unfold countDecoded
  simp only
  split
  · split <;> rfl
  · rw [addCe_dsp, addSymbols_dsp]
    split <;> rfl

theorem decodeAt_dsp (s : State) (k b : Nat) (errs : List (Nat × Nat × Byte)) (l : Line) : (decodeAt s k b errs l).2.dsp = s.dsp := by
  unfold decodeAt
  simp only
  split
  · rfl
  · split
    · rfl
    · exact countDecoded_dsp _ _ _ _

theorem writeBack_dsp (s : State) (k : Nat) : (writeBack s k).dsp = s.dsp := by
  unfold writeBack
  cases dirtyWay s k with
  | none => rfl
  | some l =>
    have h := hostRequest_dsp (dropSoft (decodeAt { s with mem := { s.mem with dirty := mapErase s.mem.dirty k } } k (homeBank k) (softOf s k) l).2 k true true) k
    have h0 : (dropSoft (decodeAt { s with mem := { s.mem with dirty := mapErase s.mem.dirty k } } k (homeBank k) (softOf s k) l).2 k true true).dsp = s.dsp :=
      decodeAt_dsp _ _ _ _ _
    rw [h0] at h
    simp only
    split
    · rename_i h1; rw [h1] at h; exact h
    · rename_i h1; rw [h1] at h; exact (setBacking_dsp _ _ _).trans h

theorem writeBacks_dsp : ∀ (l : List Nat) (s : State), (l.foldl (fun t k => dropSoft (writeBack t k) k true false) s).dsp = s.dsp
  | [], _ => rfl
  | k :: l, s => (writeBacks_dsp l _).trans (writeBack_dsp s k)

theorem setWays_dsp (s : State) (set : Nat) (l : List HomeWay) : (setWays s set l).dsp = s.dsp := rfl

theorem evictSb_dsp (s : State) (set sb : Nat) : (evictSb s set sb).dsp = s.dsp := by
  unfold evictSb
  exact (setWays_dsp _ _ _).trans (writeBacks_dsp _ s)

theorem enterWay_dsp (s : State) (k : Nat) : (enterWay s k).dsp = s.dsp := by
  unfold enterWay
  simp only
  split
  · exact setWays_dsp _ _ _
  · rw [setWays_dsp]
    split
    · rfl
    · split
      · exact evictSb_dsp _ _ _
      · rfl

theorem drainBlock_dsp (s : State) (k : Nat) : (drainBlock s k).dsp = s.dsp := by
  unfold drainBlock
  cases mapFind s.mem.dirty k with
  | none => rfl
  | some l => exact setBacking_dsp _ _ _

theorem enterBuffer_dsp (s : State) (k : Nat) : (enterBuffer s k).dsp = s.dsp := by
  have h : ∀ (t : State) (o : Option Nat), (match o with | some v => drainBlock t v | none => t).dsp = t.dsp := by
    intro t o; cases o
    · rfl
    · exact drainBlock_dsp t _
  refine (h (if (mapGet [] s.mem.buffers (unitOf k)).elem k then s else noteHbm s 1) _).trans ?_
  split <;> rfl

theorem hbmRead_dsp (s : State) (k : Nat) : (hbmRead s k).2.dsp = s.dsp := by
  unfold hbmRead
  simp only
  split
  · split
    · rfl
    · exact setBacking_dsp _ _ _
  · split
    · exact addCe_dsp _ _ _
    · rfl

theorem fillWay_dsp (s : State) (k : Nat) : (fillWay s k).2.dsp = s.dsp := by
  have h := hostRequest_dsp s k
  unfold fillWay
  split <;> (rename_i h1; rw [h1] at h)
  · exact h
  · simp only
    rw [enterWay_dsp]
    split
    · exact (hbmRead_dsp _ _).trans h
    · exact h

theorem bankRead_dsp (s : State) (k : Nat) : (bankRead s k).2.dsp = s.dsp := by
  have h := decodeAt_dsp s k (homeBank k) (softOf s k) (peekLine s k)
  unfold bankRead
  simp only
  split
  · exact h
  · split
    · exact (setBacking_dsp _ _ _).trans h
    · split <;> exact h

/-- A read of a line leaves the dispatcher as it was. -/
theorem readLine_dsp (s : State) (k : Nat) : (readLine s k).2.dsp = s.dsp := by
  unfold readLine
  split
  · simp only
    rw [enterBuffer_dsp]
    split
    · rfl
    · exact hbmRead_dsp s k
  · split
    · exact bankRead_dsp s k
    · split
      · exact (bankRead_dsp _ _).trans (enterWay_dsp s k)
      · exact fillWay_dsp s k

theorem unitOp_dsp (s : State) (n : Word) (k : Nat) : (unitOp s n k).2.dsp = s.dsp := by
  have h : (injectAt (unitArrive s (unitOf k)) 5 (unitOf k % 128) (unitOf k / 128) n 1).2.dsp = s.dsp := by
    unfold injectAt
    simp only
    try (split <;> rfl)
    try rfl
  unfold unitOp
  simp only
  split <;> (rename_i h1; rw [h1] at h)
  · exact h
  · exact h

theorem unitTry_dsp (s : State) (n : Word) (k : Nat) : (unitTry s n k).2.dsp = s.dsp := by
  have h := unitOp_dsp s n k
  unfold unitTry
  split
  · rfl
  · split <;> (rename_i s1 h1; rw [h1] at h)
    · exact h
    · have h' := unitOp_dsp s1 n k
      split <;> (rename_i s2 h2; rw [h2] at h')
      · exact h'.trans h
      · exact h'.trans h

/-- A read by an engine, a host or a peer leaves the dispatcher as it was. -/
theorem unitRead_dsp (s : State) (n : Word) (k : Nat) : (unitRead s n k).2.dsp = s.dsp := by
  have h := unitTry_dsp s n k
  unfold unitRead
  split <;> (rename_i s1 h1; rw [h1] at h)
  · exact (readLine_dsp _ _).trans h
  · exact h

theorem readEntry_dsp (s : State) (pa : Nat) : (readEntry s pa).2.dsp = s.dsp := unitRead_dsp _ _ _

theorem walkFrom_dsp (va : Nat) : ∀ (n level fn : Nat) (s : State), (walkFrom va n level fn s).2.dsp = s.dsp
  | 0, _, _, _ => rfl
  | n + 1, level, fn, s => by
    simp only [walkFrom]
    generalize (fn * 65536 + (if level = 1 then bits va 54 42 else if level = 2 then bits va 41 29 else bits va 28 16) * 8) = pa
    have h := readEntry_dsp s pa
    split <;> (rename_i h1; rw [h1] at h)
    · exact h
    · repeat' split
      all_goals first | exact h | exact (walkFrom_dsp va n _ _ _).trans h

theorem keepMicro_dsp (s : State) (w : TlbAt) (t : TlbEntry) : (keepMicro s w t).dsp = s.dsp := by
  unfold keepMicro; split <;> rfl

theorem tlbHit_dsp (s : State) (w : TlbAt) (p : Nat) (t : TlbEntry) : (tlbHit s w p t).dsp = s.dsp := by
  unfold tlbHit; split
  · exact keepMicro_dsp _ _ _
  · rfl

theorem leafAtTlb_dsp (w : TlbAt) (s : State) (va : Dword) : (leafAtTlb w s va).2.dsp = s.dsp := by
  unfold leafAtTlb
  simp only
  split
  · rfl
  · split
    · rfl
    · split
      · split <;> exact tlbHit_dsp _ _ _ _
      · have h := walkFrom_dsp va.toNat 3 1 s.xl.root.toNat s
        split <;> (rename_i h1; rw [h1] at h)
        · have h2 : ∀ t, (keepMicro (keepField _ w t) w t).dsp = s.dsp := fun t => (keepMicro_dsp _ _ _).trans h
          split <;> exact h2 _
        · exact h

theorem translateAt_dsp (w : TlbAt) (s : State) (va : Dword) (wr : Bool) : (translateAt w s va wr).2.dsp = s.dsp := by
  have h := leafAtTlb_dsp w s va
  unfold translateAt
  split <;> (rename_i h1; rw [h1] at h)
  · exact h
  · simp only
    repeat' split
    all_goals exact h

/-- A translation leaves the dispatcher as it was. -/
theorem resolve_dsp (s : State) (c : CtxId) (va : Dword) (wr : Bool) : (resolve s c va wr).2.dsp = s.dsp := by
  unfold resolve
  split
  · exact translateAt_dsp _ _ _ _
  · split <;> rfl

theorem placeLine_dsp (s : State) (p : Place) : (placeLine s p).2.dsp = s.dsp := by
  unfold placeLine
  split
  · exact readLine_dsp _ _
  · rfl
  · rfl

theorem unitLine_dsp (s : State) (n : Word) (p : Place) : (unitLine s n p).2.dsp = s.dsp := by
  unfold unitLine
  split
  · exact unitRead_dsp _ _ _
  · exact placeLine_dsp _ _

/-- A launch record's read leaves the dispatcher as it was. -/
theorem readRec_dsp (s : State) (c : CtxId) (va : Dword) : (readRec s c va).2.dsp = s.dsp := by
  have h := resolve_dsp s c va false
  unfold readRec
  split <;> (rename_i h1; rw [h1] at h)
  · exact h
  · exact (unitLine_dsp _ _ _).trans h

end Sys2Proof.Machine
end

