-- ==== Sys2Proof/Laws/State.lean ====
section
/-! SUPPORT. What each named update of the state leaves as it was, one field at a time. -/

namespace Sys2Proof.Machine

/-! ### updNode -/

@[simp] theorem updNode_run (s : State) (id : Nat) (f : Node → Node) : (updNode s id f).run = s.run := rfl
@[simp] theorem updNode_lw0 (s : State) (id : Nat) (f : Node → Node) : (updNode s id f).lw0 = s.lw0 := rfl
@[simp] theorem updNode_lw1 (s : State) (id : Nat) (f : Node → Node) : (updNode s id f).lw1 = s.lw1 := rfl
@[simp] theorem updNode_tq (s : State) (id : Nat) (f : Node → Node) : (updNode s id f).tq = s.tq := rfl
@[simp] theorem updNode_xl (s : State) (id : Nat) (f : Node → Node) : (updNode s id f).xl = s.xl := rfl
@[simp] theorem updNode_mem (s : State) (id : Nat) (f : Node → Node) : (updNode s id f).mem = s.mem := rfl
@[simp] theorem updNode_chu (s : State) (id : Nat) (f : Node → Node) : (updNode s id f).chu = s.chu := rfl
@[simp] theorem updNode_pwr (s : State) (id : Nat) (f : Node → Node) : (updNode s id f).pwr = s.pwr := rfl
@[simp] theorem updNode_cores (s : State) (id : Nat) (f : Node → Node) : (updNode s id f).cores = s.cores := rfl
@[simp] theorem updNode_fw (s : State) (id : Nat) (f : Node → Node) : (updNode s id f).fw = s.fw := rfl
@[simp] theorem updNode_hl (s : State) (id : Nat) (f : Node → Node) : (updNode s id f).hl = s.hl := rfl
@[simp] theorem updNode_sh (s : State) (id : Nat) (f : Node → Node) : (updNode s id f).sh = s.sh := rfl
@[simp] theorem updNode_hp0 (s : State) (id : Nat) (f : Node → Node) : (updNode s id f).hp0 = s.hp0 := rfl
@[simp] theorem updNode_hp1 (s : State) (id : Nat) (f : Node → Node) : (updNode s id f).hp1 = s.hp1 := rfl
@[simp] theorem updNode_pr (s : State) (id : Nat) (f : Node → Node) : (updNode s id f).pr = s.pr := rfl
@[simp] theorem updNode_mg (s : State) (id : Nat) (f : Node → Node) : (updNode s id f).mg = s.mg := rfl
@[simp] theorem updNode_dsp_recent (s : State) (id : Nat) (f : Node → Node) : (updNode s id f).dsp.recent = s.dsp.recent := rfl
@[simp] theorem updNode_dsp_ageTick (s : State) (id : Nat) (f : Node → Node) : (updNode s id f).dsp.ageTick = s.dsp.ageTick := rfl
@[simp] theorem updNode_dsp_autoPre (s : State) (id : Nat) (f : Node → Node) : (updNode s id f).dsp.autoPre = s.dsp.autoPre := rfl
@[simp] theorem updNode_dsp_preNode (s : State) (id : Nat) (f : Node → Node) : (updNode s id f).dsp.preNode = s.dsp.preNode := rfl
@[simp] theorem updNode_dsp_opRun (s : State) (id : Nat) (f : Node → Node) : (updNode s id f).dsp.opRun = s.dsp.opRun := rfl
@[simp] theorem updNode_dsp_opNode (s : State) (id : Nat) (f : Node → Node) : (updNode s id f).dsp.opNode = s.dsp.opNode := rfl
@[simp] theorem updNode_dsp_op (s : State) (id : Nat) (f : Node → Node) : (updNode s id f).dsp.op = s.dsp.op := rfl
@[simp] theorem updNode_dsp_busy (s : State) (id : Nat) (f : Node → Node) : (updNode s id f).dsp.busy = s.dsp.busy := rfl
@[simp] theorem updNode_dsp_result (s : State) (id : Nat) (f : Node → Node) : (updNode s id f).dsp.result = s.dsp.result := rfl
@[simp] theorem updNode_dsp_lrefused (s : State) (id : Nat) (f : Node → Node) : (updNode s id f).dsp.lrefused = s.dsp.lrefused := rfl
@[simp] theorem updNode_dsp_relDrop (s : State) (id : Nat) (f : Node → Node) : (updNode s id f).dsp.relDrop = s.dsp.relDrop := rfl
@[simp] theorem updNode_dsp_preempts (s : State) (id : Nat) (f : Node → Node) : (updNode s id f).dsp.preempts = s.dsp.preempts := rfl
@[simp] theorem updNode_dsp_saveFail (s : State) (id : Nat) (f : Node → Node) : (updNode s id f).dsp.saveFail = s.dsp.saveFail := rfl
@[simp] theorem updNode_dsp_cfgErr (s : State) (id : Nat) (f : Node → Node) : (updNode s id f).dsp.cfgErr = s.dsp.cfgErr := rfl
@[simp] theorem updNode_dsp_rej (s : State) (id : Nat) (f : Node → Node) : (updNode s id f).dsp.rej = s.dsp.rej := rfl
@[simp] theorem updNode_dsp_bars (s : State) (id : Nat) (f : Node → Node) : (updNode s id f).dsp.bars = s.dsp.bars := rfl
@[simp] theorem updNode_dsp_barEnded (s : State) (id : Nat) (f : Node → Node) : (updNode s id f).dsp.barEnded = s.dsp.barEnded := rfl
@[simp] theorem updNode_dsp_serial (s : State) (id : Nat) (f : Node → Node) : (updNode s id f).dsp.serial = s.dsp.serial := rfl
@[simp] theorem updNode_dsp_lastAge (s : State) (id : Nat) (f : Node → Node) : (updNode s id f).dsp.lastAge = s.dsp.lastAge := rfl
@[simp] theorem updNode_dsp_frozen (s : State) (id : Nat) (f : Node → Node) : (updNode s id f).dsp.frozen = s.dsp.frozen := rfl

/-! ### updCore -/

@[simp] theorem updCore_run (s : State) (c : Nat) (f : Core → Core) : (updCore s c f).run = s.run := rfl
@[simp] theorem updCore_lw0 (s : State) (c : Nat) (f : Core → Core) : (updCore s c f).lw0 = s.lw0 := rfl
@[simp] theorem updCore_lw1 (s : State) (c : Nat) (f : Core → Core) : (updCore s c f).lw1 = s.lw1 := rfl
@[simp] theorem updCore_tq (s : State) (c : Nat) (f : Core → Core) : (updCore s c f).tq = s.tq := rfl
@[simp] theorem updCore_xl (s : State) (c : Nat) (f : Core → Core) : (updCore s c f).xl = s.xl := rfl
@[simp] theorem updCore_mem (s : State) (c : Nat) (f : Core → Core) : (updCore s c f).mem = s.mem := rfl
@[simp] theorem updCore_chu (s : State) (c : Nat) (f : Core → Core) : (updCore s c f).chu = s.chu := rfl
@[simp] theorem updCore_dsp (s : State) (c : Nat) (f : Core → Core) : (updCore s c f).dsp = s.dsp := rfl
@[simp] theorem updCore_pwr (s : State) (c : Nat) (f : Core → Core) : (updCore s c f).pwr = s.pwr := rfl
@[simp] theorem updCore_fw (s : State) (c : Nat) (f : Core → Core) : (updCore s c f).fw = s.fw := rfl
@[simp] theorem updCore_hl (s : State) (c : Nat) (f : Core → Core) : (updCore s c f).hl = s.hl := rfl
@[simp] theorem updCore_sh (s : State) (c : Nat) (f : Core → Core) : (updCore s c f).sh = s.sh := rfl
@[simp] theorem updCore_hp0 (s : State) (c : Nat) (f : Core → Core) : (updCore s c f).hp0 = s.hp0 := rfl
@[simp] theorem updCore_hp1 (s : State) (c : Nat) (f : Core → Core) : (updCore s c f).hp1 = s.hp1 := rfl
@[simp] theorem updCore_pr (s : State) (c : Nat) (f : Core → Core) : (updCore s c f).pr = s.pr := rfl
@[simp] theorem updCore_mg (s : State) (c : Nat) (f : Core → Core) : (updCore s c f).mg = s.mg := rfl

/-! ### updCtx -/

@[simp] theorem updCtx_run (s : State) (c : CtxId) (f : Ctx → Ctx) : (updCtx s c f).run = s.run := by cases c <;> rfl
@[simp] theorem updCtx_lw0 (s : State) (c : CtxId) (f : Ctx → Ctx) : (updCtx s c f).lw0 = s.lw0 := by cases c <;> rfl
@[simp] theorem updCtx_lw1 (s : State) (c : CtxId) (f : Ctx → Ctx) : (updCtx s c f).lw1 = s.lw1 := by cases c <;> rfl
@[simp] theorem updCtx_tq (s : State) (c : CtxId) (f : Ctx → Ctx) : (updCtx s c f).tq = s.tq := by cases c <;> rfl
@[simp] theorem updCtx_xl (s : State) (c : CtxId) (f : Ctx → Ctx) : (updCtx s c f).xl = s.xl := by cases c <;> rfl
@[simp] theorem updCtx_mem (s : State) (c : CtxId) (f : Ctx → Ctx) : (updCtx s c f).mem = s.mem := by cases c <;> rfl
@[simp] theorem updCtx_chu (s : State) (c : CtxId) (f : Ctx → Ctx) : (updCtx s c f).chu = s.chu := by cases c <;> rfl
@[simp] theorem updCtx_pwr (s : State) (c : CtxId) (f : Ctx → Ctx) : (updCtx s c f).pwr = s.pwr := by cases c <;> rfl
@[simp] theorem updCtx_fw (s : State) (c : CtxId) (f : Ctx → Ctx) : (updCtx s c f).fw = s.fw := by cases c <;> rfl
@[simp] theorem updCtx_hl (s : State) (c : CtxId) (f : Ctx → Ctx) : (updCtx s c f).hl = s.hl := by cases c <;> rfl
@[simp] theorem updCtx_sh (s : State) (c : CtxId) (f : Ctx → Ctx) : (updCtx s c f).sh = s.sh := by cases c <;> rfl
@[simp] theorem updCtx_hp0 (s : State) (c : CtxId) (f : Ctx → Ctx) : (updCtx s c f).hp0 = s.hp0 := by cases c <;> rfl
@[simp] theorem updCtx_hp1 (s : State) (c : CtxId) (f : Ctx → Ctx) : (updCtx s c f).hp1 = s.hp1 := by cases c <;> rfl
@[simp] theorem updCtx_pr (s : State) (c : CtxId) (f : Ctx → Ctx) : (updCtx s c f).pr = s.pr := by cases c <;> rfl
@[simp] theorem updCtx_mg (s : State) (c : CtxId) (f : Ctx → Ctx) : (updCtx s c f).mg = s.mg := by cases c <;> rfl
@[simp] theorem updCtx_dsp_recent (s : State) (c : CtxId) (f : Ctx → Ctx) : (updCtx s c f).dsp.recent = s.dsp.recent := by cases c <;> rfl
@[simp] theorem updCtx_dsp_ageTick (s : State) (c : CtxId) (f : Ctx → Ctx) : (updCtx s c f).dsp.ageTick = s.dsp.ageTick := by cases c <;> rfl
@[simp] theorem updCtx_dsp_autoPre (s : State) (c : CtxId) (f : Ctx → Ctx) : (updCtx s c f).dsp.autoPre = s.dsp.autoPre := by cases c <;> rfl
@[simp] theorem updCtx_dsp_preNode (s : State) (c : CtxId) (f : Ctx → Ctx) : (updCtx s c f).dsp.preNode = s.dsp.preNode := by cases c <;> rfl
@[simp] theorem updCtx_dsp_opRun (s : State) (c : CtxId) (f : Ctx → Ctx) : (updCtx s c f).dsp.opRun = s.dsp.opRun := by cases c <;> rfl
@[simp] theorem updCtx_dsp_opNode (s : State) (c : CtxId) (f : Ctx → Ctx) : (updCtx s c f).dsp.opNode = s.dsp.opNode := by cases c <;> rfl
@[simp] theorem updCtx_dsp_op (s : State) (c : CtxId) (f : Ctx → Ctx) : (updCtx s c f).dsp.op = s.dsp.op := by cases c <;> rfl
@[simp] theorem updCtx_dsp_busy (s : State) (c : CtxId) (f : Ctx → Ctx) : (updCtx s c f).dsp.busy = s.dsp.busy := by cases c <;> rfl
@[simp] theorem updCtx_dsp_result (s : State) (c : CtxId) (f : Ctx → Ctx) : (updCtx s c f).dsp.result = s.dsp.result := by cases c <;> rfl
@[simp] theorem updCtx_dsp_lrefused (s : State) (c : CtxId) (f : Ctx → Ctx) : (updCtx s c f).dsp.lrefused = s.dsp.lrefused := by cases c <;> rfl
@[simp] theorem updCtx_dsp_relDrop (s : State) (c : CtxId) (f : Ctx → Ctx) : (updCtx s c f).dsp.relDrop = s.dsp.relDrop := by cases c <;> rfl
@[simp] theorem updCtx_dsp_preempts (s : State) (c : CtxId) (f : Ctx → Ctx) : (updCtx s c f).dsp.preempts = s.dsp.preempts := by cases c <;> rfl
@[simp] theorem updCtx_dsp_saveFail (s : State) (c : CtxId) (f : Ctx → Ctx) : (updCtx s c f).dsp.saveFail = s.dsp.saveFail := by cases c <;> rfl
@[simp] theorem updCtx_dsp_cfgErr (s : State) (c : CtxId) (f : Ctx → Ctx) : (updCtx s c f).dsp.cfgErr = s.dsp.cfgErr := by cases c <;> rfl
@[simp] theorem updCtx_dsp_rej (s : State) (c : CtxId) (f : Ctx → Ctx) : (updCtx s c f).dsp.rej = s.dsp.rej := by cases c <;> rfl
@[simp] theorem updCtx_dsp_bars (s : State) (c : CtxId) (f : Ctx → Ctx) : (updCtx s c f).dsp.bars = s.dsp.bars := by cases c <;> rfl
@[simp] theorem updCtx_dsp_barEnded (s : State) (c : CtxId) (f : Ctx → Ctx) : (updCtx s c f).dsp.barEnded = s.dsp.barEnded := by cases c <;> rfl
@[simp] theorem updCtx_dsp_serial (s : State) (c : CtxId) (f : Ctx → Ctx) : (updCtx s c f).dsp.serial = s.dsp.serial := by cases c <;> rfl
@[simp] theorem updCtx_dsp_lastAge (s : State) (c : CtxId) (f : Ctx → Ctx) : (updCtx s c f).dsp.lastAge = s.dsp.lastAge := by cases c <;> rfl
@[simp] theorem updCtx_dsp_frozen (s : State) (c : CtxId) (f : Ctx → Ctx) : (updCtx s c f).dsp.frozen = s.dsp.frozen := by cases c <;> rfl

/-! ### updWin -/

@[simp] theorem updWin_run (s : State) (c : CtxId) (f : Window → Window) : (updWin s c f).run = s.run := by cases c <;> rfl
@[simp] theorem updWin_lw0 (s : State) (c : CtxId) (f : Window → Window) : (updWin s c f).lw0 = s.lw0 := by cases c <;> rfl
@[simp] theorem updWin_lw1 (s : State) (c : CtxId) (f : Window → Window) : (updWin s c f).lw1 = s.lw1 := by cases c <;> rfl
@[simp] theorem updWin_tq (s : State) (c : CtxId) (f : Window → Window) : (updWin s c f).tq = s.tq := by cases c <;> rfl
@[simp] theorem updWin_xl (s : State) (c : CtxId) (f : Window → Window) : (updWin s c f).xl = s.xl := by cases c <;> rfl
@[simp] theorem updWin_mem (s : State) (c : CtxId) (f : Window → Window) : (updWin s c f).mem = s.mem := by cases c <;> rfl
@[simp] theorem updWin_chu (s : State) (c : CtxId) (f : Window → Window) : (updWin s c f).chu = s.chu := by cases c <;> rfl
@[simp] theorem updWin_pwr (s : State) (c : CtxId) (f : Window → Window) : (updWin s c f).pwr = s.pwr := by cases c <;> rfl
@[simp] theorem updWin_fw (s : State) (c : CtxId) (f : Window → Window) : (updWin s c f).fw = s.fw := by cases c <;> rfl
@[simp] theorem updWin_hl (s : State) (c : CtxId) (f : Window → Window) : (updWin s c f).hl = s.hl := by cases c <;> rfl
@[simp] theorem updWin_sh (s : State) (c : CtxId) (f : Window → Window) : (updWin s c f).sh = s.sh := by cases c <;> rfl
@[simp] theorem updWin_hp0 (s : State) (c : CtxId) (f : Window → Window) : (updWin s c f).hp0 = s.hp0 := by cases c <;> rfl
@[simp] theorem updWin_hp1 (s : State) (c : CtxId) (f : Window → Window) : (updWin s c f).hp1 = s.hp1 := by cases c <;> rfl
@[simp] theorem updWin_pr (s : State) (c : CtxId) (f : Window → Window) : (updWin s c f).pr = s.pr := by cases c <;> rfl
@[simp] theorem updWin_mg (s : State) (c : CtxId) (f : Window → Window) : (updWin s c f).mg = s.mg := by cases c <;> rfl
@[simp] theorem updWin_dsp_recent (s : State) (c : CtxId) (f : Window → Window) : (updWin s c f).dsp.recent = s.dsp.recent := by cases c <;> rfl
@[simp] theorem updWin_dsp_ageTick (s : State) (c : CtxId) (f : Window → Window) : (updWin s c f).dsp.ageTick = s.dsp.ageTick := by cases c <;> rfl
@[simp] theorem updWin_dsp_autoPre (s : State) (c : CtxId) (f : Window → Window) : (updWin s c f).dsp.autoPre = s.dsp.autoPre := by cases c <;> rfl
@[simp] theorem updWin_dsp_preNode (s : State) (c : CtxId) (f : Window → Window) : (updWin s c f).dsp.preNode = s.dsp.preNode := by cases c <;> rfl
@[simp] theorem updWin_dsp_opRun (s : State) (c : CtxId) (f : Window → Window) : (updWin s c f).dsp.opRun = s.dsp.opRun := by cases c <;> rfl
@[simp] theorem updWin_dsp_opNode (s : State) (c : CtxId) (f : Window → Window) : (updWin s c f).dsp.opNode = s.dsp.opNode := by cases c <;> rfl
@[simp] theorem updWin_dsp_op (s : State) (c : CtxId) (f : Window → Window) : (updWin s c f).dsp.op = s.dsp.op := by cases c <;> rfl
@[simp] theorem updWin_dsp_busy (s : State) (c : CtxId) (f : Window → Window) : (updWin s c f).dsp.busy = s.dsp.busy := by cases c <;> rfl
@[simp] theorem updWin_dsp_result (s : State) (c : CtxId) (f : Window → Window) : (updWin s c f).dsp.result = s.dsp.result := by cases c <;> rfl
@[simp] theorem updWin_dsp_lrefused (s : State) (c : CtxId) (f : Window → Window) : (updWin s c f).dsp.lrefused = s.dsp.lrefused := by cases c <;> rfl
@[simp] theorem updWin_dsp_relDrop (s : State) (c : CtxId) (f : Window → Window) : (updWin s c f).dsp.relDrop = s.dsp.relDrop := by cases c <;> rfl
@[simp] theorem updWin_dsp_preempts (s : State) (c : CtxId) (f : Window → Window) : (updWin s c f).dsp.preempts = s.dsp.preempts := by cases c <;> rfl
@[simp] theorem updWin_dsp_saveFail (s : State) (c : CtxId) (f : Window → Window) : (updWin s c f).dsp.saveFail = s.dsp.saveFail := by cases c <;> rfl
@[simp] theorem updWin_dsp_cfgErr (s : State) (c : CtxId) (f : Window → Window) : (updWin s c f).dsp.cfgErr = s.dsp.cfgErr := by cases c <;> rfl
@[simp] theorem updWin_dsp_rej (s : State) (c : CtxId) (f : Window → Window) : (updWin s c f).dsp.rej = s.dsp.rej := by cases c <;> rfl
@[simp] theorem updWin_dsp_bars (s : State) (c : CtxId) (f : Window → Window) : (updWin s c f).dsp.bars = s.dsp.bars := by cases c <;> rfl
@[simp] theorem updWin_dsp_barEnded (s : State) (c : CtxId) (f : Window → Window) : (updWin s c f).dsp.barEnded = s.dsp.barEnded := by cases c <;> rfl
@[simp] theorem updWin_dsp_serial (s : State) (c : CtxId) (f : Window → Window) : (updWin s c f).dsp.serial = s.dsp.serial := by cases c <;> rfl
@[simp] theorem updWin_dsp_lastAge (s : State) (c : CtxId) (f : Window → Window) : (updWin s c f).dsp.lastAge = s.dsp.lastAge := by cases c <;> rfl
@[simp] theorem updWin_dsp_frozen (s : State) (c : CtxId) (f : Window → Window) : (updWin s c f).dsp.frozen = s.dsp.frozen := by cases c <;> rfl

/-! ### updDraft -/

@[simp] theorem updDraft_run (s : State) (c : CtxId) (f : DraftSt → DraftSt) : (updDraft s c f).run = s.run := by cases c <;> rfl
@[simp] theorem updDraft_lw0 (s : State) (c : CtxId) (f : DraftSt → DraftSt) : (updDraft s c f).lw0 = s.lw0 := by cases c <;> rfl
@[simp] theorem updDraft_lw1 (s : State) (c : CtxId) (f : DraftSt → DraftSt) : (updDraft s c f).lw1 = s.lw1 := by cases c <;> rfl
@[simp] theorem updDraft_tq (s : State) (c : CtxId) (f : DraftSt → DraftSt) : (updDraft s c f).tq = s.tq := by cases c <;> rfl
@[simp] theorem updDraft_xl (s : State) (c : CtxId) (f : DraftSt → DraftSt) : (updDraft s c f).xl = s.xl := by cases c <;> rfl
@[simp] theorem updDraft_mem (s : State) (c : CtxId) (f : DraftSt → DraftSt) : (updDraft s c f).mem = s.mem := by cases c <;> rfl
@[simp] theorem updDraft_chu (s : State) (c : CtxId) (f : DraftSt → DraftSt) : (updDraft s c f).chu = s.chu := by cases c <;> rfl
@[simp] theorem updDraft_pwr (s : State) (c : CtxId) (f : DraftSt → DraftSt) : (updDraft s c f).pwr = s.pwr := by cases c <;> rfl
@[simp] theorem updDraft_fw (s : State) (c : CtxId) (f : DraftSt → DraftSt) : (updDraft s c f).fw = s.fw := by cases c <;> rfl
@[simp] theorem updDraft_hl (s : State) (c : CtxId) (f : DraftSt → DraftSt) : (updDraft s c f).hl = s.hl := by cases c <;> rfl
@[simp] theorem updDraft_sh (s : State) (c : CtxId) (f : DraftSt → DraftSt) : (updDraft s c f).sh = s.sh := by cases c <;> rfl
@[simp] theorem updDraft_hp0 (s : State) (c : CtxId) (f : DraftSt → DraftSt) : (updDraft s c f).hp0 = s.hp0 := by cases c <;> rfl
@[simp] theorem updDraft_hp1 (s : State) (c : CtxId) (f : DraftSt → DraftSt) : (updDraft s c f).hp1 = s.hp1 := by cases c <;> rfl
@[simp] theorem updDraft_pr (s : State) (c : CtxId) (f : DraftSt → DraftSt) : (updDraft s c f).pr = s.pr := by cases c <;> rfl
@[simp] theorem updDraft_mg (s : State) (c : CtxId) (f : DraftSt → DraftSt) : (updDraft s c f).mg = s.mg := by cases c <;> rfl
@[simp] theorem updDraft_dsp_recent (s : State) (c : CtxId) (f : DraftSt → DraftSt) : (updDraft s c f).dsp.recent = s.dsp.recent := by cases c <;> rfl
@[simp] theorem updDraft_dsp_ageTick (s : State) (c : CtxId) (f : DraftSt → DraftSt) : (updDraft s c f).dsp.ageTick = s.dsp.ageTick := by cases c <;> rfl
@[simp] theorem updDraft_dsp_autoPre (s : State) (c : CtxId) (f : DraftSt → DraftSt) : (updDraft s c f).dsp.autoPre = s.dsp.autoPre := by cases c <;> rfl
@[simp] theorem updDraft_dsp_preNode (s : State) (c : CtxId) (f : DraftSt → DraftSt) : (updDraft s c f).dsp.preNode = s.dsp.preNode := by cases c <;> rfl
@[simp] theorem updDraft_dsp_opRun (s : State) (c : CtxId) (f : DraftSt → DraftSt) : (updDraft s c f).dsp.opRun = s.dsp.opRun := by cases c <;> rfl
@[simp] theorem updDraft_dsp_opNode (s : State) (c : CtxId) (f : DraftSt → DraftSt) : (updDraft s c f).dsp.opNode = s.dsp.opNode := by cases c <;> rfl
@[simp] theorem updDraft_dsp_op (s : State) (c : CtxId) (f : DraftSt → DraftSt) : (updDraft s c f).dsp.op = s.dsp.op := by cases c <;> rfl
@[simp] theorem updDraft_dsp_busy (s : State) (c : CtxId) (f : DraftSt → DraftSt) : (updDraft s c f).dsp.busy = s.dsp.busy := by cases c <;> rfl
@[simp] theorem updDraft_dsp_result (s : State) (c : CtxId) (f : DraftSt → DraftSt) : (updDraft s c f).dsp.result = s.dsp.result := by cases c <;> rfl
@[simp] theorem updDraft_dsp_lrefused (s : State) (c : CtxId) (f : DraftSt → DraftSt) : (updDraft s c f).dsp.lrefused = s.dsp.lrefused := by cases c <;> rfl
@[simp] theorem updDraft_dsp_relDrop (s : State) (c : CtxId) (f : DraftSt → DraftSt) : (updDraft s c f).dsp.relDrop = s.dsp.relDrop := by cases c <;> rfl
@[simp] theorem updDraft_dsp_preempts (s : State) (c : CtxId) (f : DraftSt → DraftSt) : (updDraft s c f).dsp.preempts = s.dsp.preempts := by cases c <;> rfl
@[simp] theorem updDraft_dsp_saveFail (s : State) (c : CtxId) (f : DraftSt → DraftSt) : (updDraft s c f).dsp.saveFail = s.dsp.saveFail := by cases c <;> rfl
@[simp] theorem updDraft_dsp_cfgErr (s : State) (c : CtxId) (f : DraftSt → DraftSt) : (updDraft s c f).dsp.cfgErr = s.dsp.cfgErr := by cases c <;> rfl
@[simp] theorem updDraft_dsp_rej (s : State) (c : CtxId) (f : DraftSt → DraftSt) : (updDraft s c f).dsp.rej = s.dsp.rej := by cases c <;> rfl
@[simp] theorem updDraft_dsp_bars (s : State) (c : CtxId) (f : DraftSt → DraftSt) : (updDraft s c f).dsp.bars = s.dsp.bars := by cases c <;> rfl
@[simp] theorem updDraft_dsp_barEnded (s : State) (c : CtxId) (f : DraftSt → DraftSt) : (updDraft s c f).dsp.barEnded = s.dsp.barEnded := by cases c <;> rfl
@[simp] theorem updDraft_dsp_serial (s : State) (c : CtxId) (f : DraftSt → DraftSt) : (updDraft s c f).dsp.serial = s.dsp.serial := by cases c <;> rfl
@[simp] theorem updDraft_dsp_lastAge (s : State) (c : CtxId) (f : DraftSt → DraftSt) : (updDraft s c f).dsp.lastAge = s.dsp.lastAge := by cases c <;> rfl
@[simp] theorem updDraft_dsp_frozen (s : State) (c : CtxId) (f : DraftSt → DraftSt) : (updDraft s c f).dsp.frozen = s.dsp.frozen := by cases c <;> rfl

/-! ### updUnit -/

@[simp] theorem updUnit_run (s : State) (c : CtxId) (i : Nat) (f : ElemSt → ElemSt) : (updUnit s c i f).run = s.run := by cases c <;> rfl
@[simp] theorem updUnit_lw0 (s : State) (c : CtxId) (i : Nat) (f : ElemSt → ElemSt) : (updUnit s c i f).lw0 = s.lw0 := by cases c <;> rfl
@[simp] theorem updUnit_lw1 (s : State) (c : CtxId) (i : Nat) (f : ElemSt → ElemSt) : (updUnit s c i f).lw1 = s.lw1 := by cases c <;> rfl
@[simp] theorem updUnit_tq (s : State) (c : CtxId) (i : Nat) (f : ElemSt → ElemSt) : (updUnit s c i f).tq = s.tq := by cases c <;> rfl
@[simp] theorem updUnit_xl (s : State) (c : CtxId) (i : Nat) (f : ElemSt → ElemSt) : (updUnit s c i f).xl = s.xl := by cases c <;> rfl
@[simp] theorem updUnit_mem (s : State) (c : CtxId) (i : Nat) (f : ElemSt → ElemSt) : (updUnit s c i f).mem = s.mem := by cases c <;> rfl
@[simp] theorem updUnit_chu (s : State) (c : CtxId) (i : Nat) (f : ElemSt → ElemSt) : (updUnit s c i f).chu = s.chu := by cases c <;> rfl
@[simp] theorem updUnit_pwr (s : State) (c : CtxId) (i : Nat) (f : ElemSt → ElemSt) : (updUnit s c i f).pwr = s.pwr := by cases c <;> rfl
@[simp] theorem updUnit_fw (s : State) (c : CtxId) (i : Nat) (f : ElemSt → ElemSt) : (updUnit s c i f).fw = s.fw := by cases c <;> rfl
@[simp] theorem updUnit_hl (s : State) (c : CtxId) (i : Nat) (f : ElemSt → ElemSt) : (updUnit s c i f).hl = s.hl := by cases c <;> rfl
@[simp] theorem updUnit_sh (s : State) (c : CtxId) (i : Nat) (f : ElemSt → ElemSt) : (updUnit s c i f).sh = s.sh := by cases c <;> rfl
@[simp] theorem updUnit_hp0 (s : State) (c : CtxId) (i : Nat) (f : ElemSt → ElemSt) : (updUnit s c i f).hp0 = s.hp0 := by cases c <;> rfl
@[simp] theorem updUnit_hp1 (s : State) (c : CtxId) (i : Nat) (f : ElemSt → ElemSt) : (updUnit s c i f).hp1 = s.hp1 := by cases c <;> rfl
@[simp] theorem updUnit_pr (s : State) (c : CtxId) (i : Nat) (f : ElemSt → ElemSt) : (updUnit s c i f).pr = s.pr := by cases c <;> rfl
@[simp] theorem updUnit_mg (s : State) (c : CtxId) (i : Nat) (f : ElemSt → ElemSt) : (updUnit s c i f).mg = s.mg := by cases c <;> rfl
@[simp] theorem updUnit_dsp_recent (s : State) (c : CtxId) (i : Nat) (f : ElemSt → ElemSt) : (updUnit s c i f).dsp.recent = s.dsp.recent := by cases c <;> rfl
@[simp] theorem updUnit_dsp_ageTick (s : State) (c : CtxId) (i : Nat) (f : ElemSt → ElemSt) : (updUnit s c i f).dsp.ageTick = s.dsp.ageTick := by cases c <;> rfl
@[simp] theorem updUnit_dsp_autoPre (s : State) (c : CtxId) (i : Nat) (f : ElemSt → ElemSt) : (updUnit s c i f).dsp.autoPre = s.dsp.autoPre := by cases c <;> rfl
@[simp] theorem updUnit_dsp_preNode (s : State) (c : CtxId) (i : Nat) (f : ElemSt → ElemSt) : (updUnit s c i f).dsp.preNode = s.dsp.preNode := by cases c <;> rfl
@[simp] theorem updUnit_dsp_opRun (s : State) (c : CtxId) (i : Nat) (f : ElemSt → ElemSt) : (updUnit s c i f).dsp.opRun = s.dsp.opRun := by cases c <;> rfl
@[simp] theorem updUnit_dsp_opNode (s : State) (c : CtxId) (i : Nat) (f : ElemSt → ElemSt) : (updUnit s c i f).dsp.opNode = s.dsp.opNode := by cases c <;> rfl
@[simp] theorem updUnit_dsp_op (s : State) (c : CtxId) (i : Nat) (f : ElemSt → ElemSt) : (updUnit s c i f).dsp.op = s.dsp.op := by cases c <;> rfl
@[simp] theorem updUnit_dsp_busy (s : State) (c : CtxId) (i : Nat) (f : ElemSt → ElemSt) : (updUnit s c i f).dsp.busy = s.dsp.busy := by cases c <;> rfl
@[simp] theorem updUnit_dsp_result (s : State) (c : CtxId) (i : Nat) (f : ElemSt → ElemSt) : (updUnit s c i f).dsp.result = s.dsp.result := by cases c <;> rfl
@[simp] theorem updUnit_dsp_lrefused (s : State) (c : CtxId) (i : Nat) (f : ElemSt → ElemSt) : (updUnit s c i f).dsp.lrefused = s.dsp.lrefused := by cases c <;> rfl
@[simp] theorem updUnit_dsp_relDrop (s : State) (c : CtxId) (i : Nat) (f : ElemSt → ElemSt) : (updUnit s c i f).dsp.relDrop = s.dsp.relDrop := by cases c <;> rfl
@[simp] theorem updUnit_dsp_preempts (s : State) (c : CtxId) (i : Nat) (f : ElemSt → ElemSt) : (updUnit s c i f).dsp.preempts = s.dsp.preempts := by cases c <;> rfl
@[simp] theorem updUnit_dsp_saveFail (s : State) (c : CtxId) (i : Nat) (f : ElemSt → ElemSt) : (updUnit s c i f).dsp.saveFail = s.dsp.saveFail := by cases c <;> rfl
@[simp] theorem updUnit_dsp_cfgErr (s : State) (c : CtxId) (i : Nat) (f : ElemSt → ElemSt) : (updUnit s c i f).dsp.cfgErr = s.dsp.cfgErr := by cases c <;> rfl
@[simp] theorem updUnit_dsp_rej (s : State) (c : CtxId) (i : Nat) (f : ElemSt → ElemSt) : (updUnit s c i f).dsp.rej = s.dsp.rej := by cases c <;> rfl
@[simp] theorem updUnit_dsp_bars (s : State) (c : CtxId) (i : Nat) (f : ElemSt → ElemSt) : (updUnit s c i f).dsp.bars = s.dsp.bars := by cases c <;> rfl
@[simp] theorem updUnit_dsp_barEnded (s : State) (c : CtxId) (i : Nat) (f : ElemSt → ElemSt) : (updUnit s c i f).dsp.barEnded = s.dsp.barEnded := by cases c <;> rfl
@[simp] theorem updUnit_dsp_serial (s : State) (c : CtxId) (i : Nat) (f : ElemSt → ElemSt) : (updUnit s c i f).dsp.serial = s.dsp.serial := by cases c <;> rfl
@[simp] theorem updUnit_dsp_lastAge (s : State) (c : CtxId) (i : Nat) (f : ElemSt → ElemSt) : (updUnit s c i f).dsp.lastAge = s.dsp.lastAge := by cases c <;> rfl
@[simp] theorem updUnit_dsp_frozen (s : State) (c : CtxId) (i : Nat) (f : ElemSt → ElemSt) : (updUnit s c i f).dsp.frozen = s.dsp.frozen := by cases c <;> rfl

/-! ### updMem -/

@[simp] theorem updMem_run (s : State) (c : CtxId) (f : CtxMem → CtxMem) : (updMem s c f).run = s.run := by cases c <;> rfl
@[simp] theorem updMem_lw0 (s : State) (c : CtxId) (f : CtxMem → CtxMem) : (updMem s c f).lw0 = s.lw0 := by cases c <;> rfl
@[simp] theorem updMem_lw1 (s : State) (c : CtxId) (f : CtxMem → CtxMem) : (updMem s c f).lw1 = s.lw1 := by cases c <;> rfl
@[simp] theorem updMem_tq (s : State) (c : CtxId) (f : CtxMem → CtxMem) : (updMem s c f).tq = s.tq := by cases c <;> rfl
@[simp] theorem updMem_xl (s : State) (c : CtxId) (f : CtxMem → CtxMem) : (updMem s c f).xl = s.xl := by cases c <;> rfl
@[simp] theorem updMem_mem (s : State) (c : CtxId) (f : CtxMem → CtxMem) : (updMem s c f).mem = s.mem := by cases c <;> rfl
@[simp] theorem updMem_chu (s : State) (c : CtxId) (f : CtxMem → CtxMem) : (updMem s c f).chu = s.chu := by cases c <;> rfl
@[simp] theorem updMem_pwr (s : State) (c : CtxId) (f : CtxMem → CtxMem) : (updMem s c f).pwr = s.pwr := by cases c <;> rfl
@[simp] theorem updMem_fw (s : State) (c : CtxId) (f : CtxMem → CtxMem) : (updMem s c f).fw = s.fw := by cases c <;> rfl
@[simp] theorem updMem_hl (s : State) (c : CtxId) (f : CtxMem → CtxMem) : (updMem s c f).hl = s.hl := by cases c <;> rfl
@[simp] theorem updMem_sh (s : State) (c : CtxId) (f : CtxMem → CtxMem) : (updMem s c f).sh = s.sh := by cases c <;> rfl
@[simp] theorem updMem_hp0 (s : State) (c : CtxId) (f : CtxMem → CtxMem) : (updMem s c f).hp0 = s.hp0 := by cases c <;> rfl
@[simp] theorem updMem_hp1 (s : State) (c : CtxId) (f : CtxMem → CtxMem) : (updMem s c f).hp1 = s.hp1 := by cases c <;> rfl
@[simp] theorem updMem_pr (s : State) (c : CtxId) (f : CtxMem → CtxMem) : (updMem s c f).pr = s.pr := by cases c <;> rfl
@[simp] theorem updMem_mg (s : State) (c : CtxId) (f : CtxMem → CtxMem) : (updMem s c f).mg = s.mg := by cases c <;> rfl
@[simp] theorem updMem_dsp_recent (s : State) (c : CtxId) (f : CtxMem → CtxMem) : (updMem s c f).dsp.recent = s.dsp.recent := by cases c <;> rfl
@[simp] theorem updMem_dsp_ageTick (s : State) (c : CtxId) (f : CtxMem → CtxMem) : (updMem s c f).dsp.ageTick = s.dsp.ageTick := by cases c <;> rfl
@[simp] theorem updMem_dsp_autoPre (s : State) (c : CtxId) (f : CtxMem → CtxMem) : (updMem s c f).dsp.autoPre = s.dsp.autoPre := by cases c <;> rfl
@[simp] theorem updMem_dsp_preNode (s : State) (c : CtxId) (f : CtxMem → CtxMem) : (updMem s c f).dsp.preNode = s.dsp.preNode := by cases c <;> rfl
@[simp] theorem updMem_dsp_opRun (s : State) (c : CtxId) (f : CtxMem → CtxMem) : (updMem s c f).dsp.opRun = s.dsp.opRun := by cases c <;> rfl
@[simp] theorem updMem_dsp_opNode (s : State) (c : CtxId) (f : CtxMem → CtxMem) : (updMem s c f).dsp.opNode = s.dsp.opNode := by cases c <;> rfl
@[simp] theorem updMem_dsp_op (s : State) (c : CtxId) (f : CtxMem → CtxMem) : (updMem s c f).dsp.op = s.dsp.op := by cases c <;> rfl
@[simp] theorem updMem_dsp_busy (s : State) (c : CtxId) (f : CtxMem → CtxMem) : (updMem s c f).dsp.busy = s.dsp.busy := by cases c <;> rfl
@[simp] theorem updMem_dsp_result (s : State) (c : CtxId) (f : CtxMem → CtxMem) : (updMem s c f).dsp.result = s.dsp.result := by cases c <;> rfl
@[simp] theorem updMem_dsp_lrefused (s : State) (c : CtxId) (f : CtxMem → CtxMem) : (updMem s c f).dsp.lrefused = s.dsp.lrefused := by cases c <;> rfl
@[simp] theorem updMem_dsp_relDrop (s : State) (c : CtxId) (f : CtxMem → CtxMem) : (updMem s c f).dsp.relDrop = s.dsp.relDrop := by cases c <;> rfl
@[simp] theorem updMem_dsp_preempts (s : State) (c : CtxId) (f : CtxMem → CtxMem) : (updMem s c f).dsp.preempts = s.dsp.preempts := by cases c <;> rfl
@[simp] theorem updMem_dsp_saveFail (s : State) (c : CtxId) (f : CtxMem → CtxMem) : (updMem s c f).dsp.saveFail = s.dsp.saveFail := by cases c <;> rfl
@[simp] theorem updMem_dsp_cfgErr (s : State) (c : CtxId) (f : CtxMem → CtxMem) : (updMem s c f).dsp.cfgErr = s.dsp.cfgErr := by cases c <;> rfl
@[simp] theorem updMem_dsp_rej (s : State) (c : CtxId) (f : CtxMem → CtxMem) : (updMem s c f).dsp.rej = s.dsp.rej := by cases c <;> rfl
@[simp] theorem updMem_dsp_bars (s : State) (c : CtxId) (f : CtxMem → CtxMem) : (updMem s c f).dsp.bars = s.dsp.bars := by cases c <;> rfl
@[simp] theorem updMem_dsp_barEnded (s : State) (c : CtxId) (f : CtxMem → CtxMem) : (updMem s c f).dsp.barEnded = s.dsp.barEnded := by cases c <;> rfl
@[simp] theorem updMem_dsp_serial (s : State) (c : CtxId) (f : CtxMem → CtxMem) : (updMem s c f).dsp.serial = s.dsp.serial := by cases c <;> rfl
@[simp] theorem updMem_dsp_lastAge (s : State) (c : CtxId) (f : CtxMem → CtxMem) : (updMem s c f).dsp.lastAge = s.dsp.lastAge := by cases c <;> rfl
@[simp] theorem updMem_dsp_frozen (s : State) (c : CtxId) (f : CtxMem → CtxMem) : (updMem s c f).dsp.frozen = s.dsp.frozen := by cases c <;> rfl

/-! ### updSea -/

@[simp] theorem updSea_run (s : State) (c : CtxId) (f : SeaSt → SeaSt) : (updSea s c f).run = s.run := by cases c <;> rfl
@[simp] theorem updSea_lw0 (s : State) (c : CtxId) (f : SeaSt → SeaSt) : (updSea s c f).lw0 = s.lw0 := by cases c <;> rfl
@[simp] theorem updSea_lw1 (s : State) (c : CtxId) (f : SeaSt → SeaSt) : (updSea s c f).lw1 = s.lw1 := by cases c <;> rfl
@[simp] theorem updSea_tq (s : State) (c : CtxId) (f : SeaSt → SeaSt) : (updSea s c f).tq = s.tq := by cases c <;> rfl
@[simp] theorem updSea_xl (s : State) (c : CtxId) (f : SeaSt → SeaSt) : (updSea s c f).xl = s.xl := by cases c <;> rfl
@[simp] theorem updSea_mem (s : State) (c : CtxId) (f : SeaSt → SeaSt) : (updSea s c f).mem = s.mem := by cases c <;> rfl
@[simp] theorem updSea_chu (s : State) (c : CtxId) (f : SeaSt → SeaSt) : (updSea s c f).chu = s.chu := by cases c <;> rfl
@[simp] theorem updSea_pwr (s : State) (c : CtxId) (f : SeaSt → SeaSt) : (updSea s c f).pwr = s.pwr := by cases c <;> rfl
@[simp] theorem updSea_fw (s : State) (c : CtxId) (f : SeaSt → SeaSt) : (updSea s c f).fw = s.fw := by cases c <;> rfl
@[simp] theorem updSea_hl (s : State) (c : CtxId) (f : SeaSt → SeaSt) : (updSea s c f).hl = s.hl := by cases c <;> rfl
@[simp] theorem updSea_sh (s : State) (c : CtxId) (f : SeaSt → SeaSt) : (updSea s c f).sh = s.sh := by cases c <;> rfl
@[simp] theorem updSea_hp0 (s : State) (c : CtxId) (f : SeaSt → SeaSt) : (updSea s c f).hp0 = s.hp0 := by cases c <;> rfl
@[simp] theorem updSea_hp1 (s : State) (c : CtxId) (f : SeaSt → SeaSt) : (updSea s c f).hp1 = s.hp1 := by cases c <;> rfl
@[simp] theorem updSea_pr (s : State) (c : CtxId) (f : SeaSt → SeaSt) : (updSea s c f).pr = s.pr := by cases c <;> rfl
@[simp] theorem updSea_mg (s : State) (c : CtxId) (f : SeaSt → SeaSt) : (updSea s c f).mg = s.mg := by cases c <;> rfl

/-! ### updSeaUnit -/

@[simp] theorem updSeaUnit_run (s : State) (e : Env) (f : SeaUnit → SeaUnit) : (updSeaUnit s e f).run = s.run := by unfold updSeaUnit; simp
@[simp] theorem updSeaUnit_lw0 (s : State) (e : Env) (f : SeaUnit → SeaUnit) : (updSeaUnit s e f).lw0 = s.lw0 := by unfold updSeaUnit; simp
@[simp] theorem updSeaUnit_lw1 (s : State) (e : Env) (f : SeaUnit → SeaUnit) : (updSeaUnit s e f).lw1 = s.lw1 := by unfold updSeaUnit; simp
@[simp] theorem updSeaUnit_tq (s : State) (e : Env) (f : SeaUnit → SeaUnit) : (updSeaUnit s e f).tq = s.tq := by unfold updSeaUnit; simp
@[simp] theorem updSeaUnit_xl (s : State) (e : Env) (f : SeaUnit → SeaUnit) : (updSeaUnit s e f).xl = s.xl := by unfold updSeaUnit; simp
@[simp] theorem updSeaUnit_mem (s : State) (e : Env) (f : SeaUnit → SeaUnit) : (updSeaUnit s e f).mem = s.mem := by unfold updSeaUnit; simp
@[simp] theorem updSeaUnit_chu (s : State) (e : Env) (f : SeaUnit → SeaUnit) : (updSeaUnit s e f).chu = s.chu := by unfold updSeaUnit; simp
@[simp] theorem updSeaUnit_pwr (s : State) (e : Env) (f : SeaUnit → SeaUnit) : (updSeaUnit s e f).pwr = s.pwr := by unfold updSeaUnit; simp
@[simp] theorem updSeaUnit_fw (s : State) (e : Env) (f : SeaUnit → SeaUnit) : (updSeaUnit s e f).fw = s.fw := by unfold updSeaUnit; simp
@[simp] theorem updSeaUnit_hl (s : State) (e : Env) (f : SeaUnit → SeaUnit) : (updSeaUnit s e f).hl = s.hl := by unfold updSeaUnit; simp
@[simp] theorem updSeaUnit_sh (s : State) (e : Env) (f : SeaUnit → SeaUnit) : (updSeaUnit s e f).sh = s.sh := by unfold updSeaUnit; simp
@[simp] theorem updSeaUnit_hp0 (s : State) (e : Env) (f : SeaUnit → SeaUnit) : (updSeaUnit s e f).hp0 = s.hp0 := by unfold updSeaUnit; simp
@[simp] theorem updSeaUnit_hp1 (s : State) (e : Env) (f : SeaUnit → SeaUnit) : (updSeaUnit s e f).hp1 = s.hp1 := by unfold updSeaUnit; simp
@[simp] theorem updSeaUnit_pr (s : State) (e : Env) (f : SeaUnit → SeaUnit) : (updSeaUnit s e f).pr = s.pr := by unfold updSeaUnit; simp
@[simp] theorem updSeaUnit_mg (s : State) (e : Env) (f : SeaUnit → SeaUnit) : (updSeaUnit s e f).mg = s.mg := by unfold updSeaUnit; simp

/-! ### updVe -/

@[simp] theorem updVe_run (s : State) (e : Env) (f : VeUnit → VeUnit) : (updVe s e f).run = s.run := by unfold updVe; simp
@[simp] theorem updVe_lw0 (s : State) (e : Env) (f : VeUnit → VeUnit) : (updVe s e f).lw0 = s.lw0 := by unfold updVe; simp
@[simp] theorem updVe_lw1 (s : State) (e : Env) (f : VeUnit → VeUnit) : (updVe s e f).lw1 = s.lw1 := by unfold updVe; simp
@[simp] theorem updVe_tq (s : State) (e : Env) (f : VeUnit → VeUnit) : (updVe s e f).tq = s.tq := by unfold updVe; simp
@[simp] theorem updVe_xl (s : State) (e : Env) (f : VeUnit → VeUnit) : (updVe s e f).xl = s.xl := by unfold updVe; simp
@[simp] theorem updVe_mem (s : State) (e : Env) (f : VeUnit → VeUnit) : (updVe s e f).mem = s.mem := by unfold updVe; simp
@[simp] theorem updVe_chu (s : State) (e : Env) (f : VeUnit → VeUnit) : (updVe s e f).chu = s.chu := by unfold updVe; simp
@[simp] theorem updVe_pwr (s : State) (e : Env) (f : VeUnit → VeUnit) : (updVe s e f).pwr = s.pwr := by unfold updVe; simp
@[simp] theorem updVe_fw (s : State) (e : Env) (f : VeUnit → VeUnit) : (updVe s e f).fw = s.fw := by unfold updVe; simp
@[simp] theorem updVe_hl (s : State) (e : Env) (f : VeUnit → VeUnit) : (updVe s e f).hl = s.hl := by unfold updVe; simp
@[simp] theorem updVe_sh (s : State) (e : Env) (f : VeUnit → VeUnit) : (updVe s e f).sh = s.sh := by unfold updVe; simp
@[simp] theorem updVe_hp0 (s : State) (e : Env) (f : VeUnit → VeUnit) : (updVe s e f).hp0 = s.hp0 := by unfold updVe; simp
@[simp] theorem updVe_hp1 (s : State) (e : Env) (f : VeUnit → VeUnit) : (updVe s e f).hp1 = s.hp1 := by unfold updVe; simp
@[simp] theorem updVe_pr (s : State) (e : Env) (f : VeUnit → VeUnit) : (updVe s e f).pr = s.pr := by unfold updVe; simp
@[simp] theorem updVe_mg (s : State) (e : Env) (f : VeUnit → VeUnit) : (updVe s e f).mg = s.mg := by unfold updVe; simp

/-! ### addCount -/

@[simp] theorem addCount_run (s : State) (c : CtxId) (k n : Nat) : (addCount s c k n).run = s.run := by unfold addCount; split <;> simp
@[simp] theorem addCount_lw0 (s : State) (c : CtxId) (k n : Nat) : (addCount s c k n).lw0 = s.lw0 := by unfold addCount; split <;> simp
@[simp] theorem addCount_lw1 (s : State) (c : CtxId) (k n : Nat) : (addCount s c k n).lw1 = s.lw1 := by unfold addCount; split <;> simp
@[simp] theorem addCount_tq (s : State) (c : CtxId) (k n : Nat) : (addCount s c k n).tq = s.tq := by unfold addCount; split <;> simp
@[simp] theorem addCount_xl (s : State) (c : CtxId) (k n : Nat) : (addCount s c k n).xl = s.xl := by unfold addCount; split <;> simp
@[simp] theorem addCount_mem (s : State) (c : CtxId) (k n : Nat) : (addCount s c k n).mem = s.mem := by unfold addCount; split <;> simp
@[simp] theorem addCount_chu (s : State) (c : CtxId) (k n : Nat) : (addCount s c k n).chu = s.chu := by unfold addCount; split <;> simp
@[simp] theorem addCount_pwr (s : State) (c : CtxId) (k n : Nat) : (addCount s c k n).pwr = s.pwr := by unfold addCount; split <;> simp
@[simp] theorem addCount_fw (s : State) (c : CtxId) (k n : Nat) : (addCount s c k n).fw = s.fw := by unfold addCount; split <;> simp
@[simp] theorem addCount_hl (s : State) (c : CtxId) (k n : Nat) : (addCount s c k n).hl = s.hl := by unfold addCount; split <;> simp
@[simp] theorem addCount_sh (s : State) (c : CtxId) (k n : Nat) : (addCount s c k n).sh = s.sh := by unfold addCount; split <;> simp
@[simp] theorem addCount_hp0 (s : State) (c : CtxId) (k n : Nat) : (addCount s c k n).hp0 = s.hp0 := by unfold addCount; split <;> simp
@[simp] theorem addCount_hp1 (s : State) (c : CtxId) (k n : Nat) : (addCount s c k n).hp1 = s.hp1 := by unfold addCount; split <;> simp
@[simp] theorem addCount_pr (s : State) (c : CtxId) (k n : Nat) : (addCount s c k n).pr = s.pr := by unfold addCount; split <;> simp
@[simp] theorem addCount_mg (s : State) (c : CtxId) (k n : Nat) : (addCount s c k n).mg = s.mg := by unfold addCount; split <;> simp
@[simp] theorem addCount_dsp_recent (s : State) (c : CtxId) (k n : Nat) : (addCount s c k n).dsp.recent = s.dsp.recent := by unfold addCount; split <;> simp
@[simp] theorem addCount_dsp_ageTick (s : State) (c : CtxId) (k n : Nat) : (addCount s c k n).dsp.ageTick = s.dsp.ageTick := by unfold addCount; split <;> simp
@[simp] theorem addCount_dsp_autoPre (s : State) (c : CtxId) (k n : Nat) : (addCount s c k n).dsp.autoPre = s.dsp.autoPre := by unfold addCount; split <;> simp
@[simp] theorem addCount_dsp_preNode (s : State) (c : CtxId) (k n : Nat) : (addCount s c k n).dsp.preNode = s.dsp.preNode := by unfold addCount; split <;> simp
@[simp] theorem addCount_dsp_opRun (s : State) (c : CtxId) (k n : Nat) : (addCount s c k n).dsp.opRun = s.dsp.opRun := by unfold addCount; split <;> simp
@[simp] theorem addCount_dsp_opNode (s : State) (c : CtxId) (k n : Nat) : (addCount s c k n).dsp.opNode = s.dsp.opNode := by unfold addCount; split <;> simp
@[simp] theorem addCount_dsp_op (s : State) (c : CtxId) (k n : Nat) : (addCount s c k n).dsp.op = s.dsp.op := by unfold addCount; split <;> simp
@[simp] theorem addCount_dsp_busy (s : State) (c : CtxId) (k n : Nat) : (addCount s c k n).dsp.busy = s.dsp.busy := by unfold addCount; split <;> simp
@[simp] theorem addCount_dsp_result (s : State) (c : CtxId) (k n : Nat) : (addCount s c k n).dsp.result = s.dsp.result := by unfold addCount; split <;> simp
@[simp] theorem addCount_dsp_lrefused (s : State) (c : CtxId) (k n : Nat) : (addCount s c k n).dsp.lrefused = s.dsp.lrefused := by unfold addCount; split <;> simp
@[simp] theorem addCount_dsp_relDrop (s : State) (c : CtxId) (k n : Nat) : (addCount s c k n).dsp.relDrop = s.dsp.relDrop := by unfold addCount; split <;> simp
@[simp] theorem addCount_dsp_preempts (s : State) (c : CtxId) (k n : Nat) : (addCount s c k n).dsp.preempts = s.dsp.preempts := by unfold addCount; split <;> simp
@[simp] theorem addCount_dsp_saveFail (s : State) (c : CtxId) (k n : Nat) : (addCount s c k n).dsp.saveFail = s.dsp.saveFail := by unfold addCount; split <;> simp
@[simp] theorem addCount_dsp_cfgErr (s : State) (c : CtxId) (k n : Nat) : (addCount s c k n).dsp.cfgErr = s.dsp.cfgErr := by unfold addCount; split <;> simp
@[simp] theorem addCount_dsp_rej (s : State) (c : CtxId) (k n : Nat) : (addCount s c k n).dsp.rej = s.dsp.rej := by unfold addCount; split <;> simp
@[simp] theorem addCount_dsp_bars (s : State) (c : CtxId) (k n : Nat) : (addCount s c k n).dsp.bars = s.dsp.bars := by unfold addCount; split <;> simp
@[simp] theorem addCount_dsp_barEnded (s : State) (c : CtxId) (k n : Nat) : (addCount s c k n).dsp.barEnded = s.dsp.barEnded := by unfold addCount; split <;> simp
@[simp] theorem addCount_dsp_serial (s : State) (c : CtxId) (k n : Nat) : (addCount s c k n).dsp.serial = s.dsp.serial := by unfold addCount; split <;> simp
@[simp] theorem addCount_dsp_lastAge (s : State) (c : CtxId) (k n : Nat) : (addCount s c k n).dsp.lastAge = s.dsp.lastAge := by unfold addCount; split <;> simp
@[simp] theorem addCount_dsp_frozen (s : State) (c : CtxId) (k n : Nat) : (addCount s c k n).dsp.frozen = s.dsp.frozen := by unfold addCount; split <;> simp

/-! ### addEv -/

@[simp] theorem addEv_run (s : State) (c : CtxId) (e : Ev) : (addEv s c e).run = s.run := by simp [addEv]
@[simp] theorem addEv_lw0 (s : State) (c : CtxId) (e : Ev) : (addEv s c e).lw0 = s.lw0 := by simp [addEv]
@[simp] theorem addEv_lw1 (s : State) (c : CtxId) (e : Ev) : (addEv s c e).lw1 = s.lw1 := by simp [addEv]
@[simp] theorem addEv_tq (s : State) (c : CtxId) (e : Ev) : (addEv s c e).tq = s.tq := by simp [addEv]
@[simp] theorem addEv_xl (s : State) (c : CtxId) (e : Ev) : (addEv s c e).xl = s.xl := by simp [addEv]
@[simp] theorem addEv_mem (s : State) (c : CtxId) (e : Ev) : (addEv s c e).mem = s.mem := by simp [addEv]
@[simp] theorem addEv_chu (s : State) (c : CtxId) (e : Ev) : (addEv s c e).chu = s.chu := by simp [addEv]
@[simp] theorem addEv_pwr (s : State) (c : CtxId) (e : Ev) : (addEv s c e).pwr = s.pwr := by simp [addEv]
@[simp] theorem addEv_fw (s : State) (c : CtxId) (e : Ev) : (addEv s c e).fw = s.fw := by simp [addEv]
@[simp] theorem addEv_hl (s : State) (c : CtxId) (e : Ev) : (addEv s c e).hl = s.hl := by simp [addEv]
@[simp] theorem addEv_sh (s : State) (c : CtxId) (e : Ev) : (addEv s c e).sh = s.sh := by simp [addEv]
@[simp] theorem addEv_hp0 (s : State) (c : CtxId) (e : Ev) : (addEv s c e).hp0 = s.hp0 := by simp [addEv]
@[simp] theorem addEv_hp1 (s : State) (c : CtxId) (e : Ev) : (addEv s c e).hp1 = s.hp1 := by simp [addEv]
@[simp] theorem addEv_pr (s : State) (c : CtxId) (e : Ev) : (addEv s c e).pr = s.pr := by simp [addEv]
@[simp] theorem addEv_mg (s : State) (c : CtxId) (e : Ev) : (addEv s c e).mg = s.mg := by simp [addEv]

/-! ### addDev -/

@[simp] theorem addDev_run (s : State) (k n : Nat) : (addDev s k n).run = s.run := rfl
@[simp] theorem addDev_lw0 (s : State) (k n : Nat) : (addDev s k n).lw0 = s.lw0 := rfl
@[simp] theorem addDev_lw1 (s : State) (k n : Nat) : (addDev s k n).lw1 = s.lw1 := rfl
@[simp] theorem addDev_tq (s : State) (k n : Nat) : (addDev s k n).tq = s.tq := rfl
@[simp] theorem addDev_xl (s : State) (k n : Nat) : (addDev s k n).xl = s.xl := rfl
@[simp] theorem addDev_mem (s : State) (k n : Nat) : (addDev s k n).mem = s.mem := rfl
@[simp] theorem addDev_chu (s : State) (k n : Nat) : (addDev s k n).chu = s.chu := rfl
@[simp] theorem addDev_dsp (s : State) (k n : Nat) : (addDev s k n).dsp = s.dsp := rfl
@[simp] theorem addDev_pwr (s : State) (k n : Nat) : (addDev s k n).pwr = s.pwr := rfl
@[simp] theorem addDev_cores (s : State) (k n : Nat) : (addDev s k n).cores = s.cores := rfl
@[simp] theorem addDev_fw (s : State) (k n : Nat) : (addDev s k n).fw = s.fw := rfl
@[simp] theorem addDev_sh (s : State) (k n : Nat) : (addDev s k n).sh = s.sh := rfl
@[simp] theorem addDev_hp0 (s : State) (k n : Nat) : (addDev s k n).hp0 = s.hp0 := rfl
@[simp] theorem addDev_hp1 (s : State) (k n : Nat) : (addDev s k n).hp1 = s.hp1 := rfl
@[simp] theorem addDev_pr (s : State) (k n : Nat) : (addDev s k n).pr = s.pr := rfl
@[simp] theorem addDev_mg (s : State) (k n : Nat) : (addDev s k n).mg = s.mg := rfl
@[simp] theorem addDev_hl_autoByp (s : State) (k n : Nat) : (addDev s k n).hl.autoByp = s.hl.autoByp := rfl
@[simp] theorem addDev_hl_autoBin (s : State) (k n : Nat) : (addDev s k n).hl.autoBin = s.hl.autoBin := rfl
@[simp] theorem addDev_hl_test (s : State) (k n : Nat) : (addDev s k n).hl.test = s.hl.test := rfl
@[simp] theorem addDev_hl_seq (s : State) (k n : Nat) : (addDev s k n).hl.seq = s.hl.seq := rfl
@[simp] theorem addDev_hl_log (s : State) (k n : Nat) : (addDev s k n).hl.log = s.hl.log := rfl
@[simp] theorem addDev_hl_badSel (s : State) (k n : Nat) : (addDev s k n).hl.badSel = s.hl.badSel := rfl
@[simp] theorem addDev_hl_layer2 (s : State) (k n : Nat) : (addDev s k n).hl.layer2 = s.hl.layer2 := rfl
@[simp] theorem addDev_hl_retired (s : State) (k n : Nat) : (addDev s k n).hl.retired = s.hl.retired := rfl
@[simp] theorem addDev_hl_injFired (s : State) (k n : Nat) : (addDev s k n).hl.injFired = s.hl.injFired := rfl
@[simp] theorem addDev_hl_fields (s : State) (k n : Nat) : (addDev s k n).hl.fields = s.hl.fields := rfl
@[simp] theorem addDev_hl_op (s : State) (k n : Nat) : (addDev s k n).hl.op = s.hl.op := rfl
@[simp] theorem addDev_hl_busy (s : State) (k n : Nat) : (addDev s k n).hl.busy = s.hl.busy := rfl
@[simp] theorem addDev_hl_rej (s : State) (k n : Nat) : (addDev s k n).hl.rej = s.hl.rej := rfl
@[simp] theorem addDev_hl_result (s : State) (k n : Nat) : (addDev s k n).hl.result = s.hl.result := rfl
@[simp] theorem addDev_hl_arg (s : State) (k n : Nat) : (addDev s k n).hl.arg = s.hl.arg := rfl
@[simp] theorem addDev_hl_opRun (s : State) (k n : Nat) : (addDev s k n).hl.opRun = s.hl.opRun := rfl
@[simp] theorem addDev_hl_argRun (s : State) (k n : Nat) : (addDev s k n).hl.argRun = s.hl.argRun := rfl
@[simp] theorem addDev_hl_ceThr (s : State) (k n : Nat) : (addDev s k n).hl.ceThr = s.hl.ceThr := rfl
@[simp] theorem addDev_hl_sel (s : State) (k n : Nat) : (addDev s k n).hl.sel = s.hl.sel := rfl
@[simp] theorem addDev_hl_cnode (s : State) (k n : Nat) : (addDev s k n).hl.cnode = s.hl.cnode := rfl
@[simp] theorem addDev_hl_fieldCounts (s : State) (k n : Nat) : (addDev s k n).hl.fieldCounts = s.hl.fieldCounts := rfl
@[simp] theorem addDev_hl_bankCounts (s : State) (k n : Nat) : (addDev s k n).hl.bankCounts = s.hl.bankCounts := rfl
@[simp] theorem addDev_hl_unitCounts (s : State) (k n : Nat) : (addDev s k n).hl.unitCounts = s.hl.unitCounts := rfl
@[simp] theorem addDev_hl_layerCounts (s : State) (k n : Nat) : (addDev s k n).hl.layerCounts = s.hl.layerCounts := rfl
@[simp] theorem addDev_hl_inj (s : State) (k n : Nat) : (addDev s k n).hl.inj = s.hl.inj := rfl
@[simp] theorem addDev_hl_wait (s : State) (k n : Nat) : (addDev s k n).hl.wait = s.hl.wait := rfl

/-! ### addField -/

@[simp] theorem addField_run (s : State) (f k n : Nat) : (addField s f k n).run = s.run := rfl
@[simp] theorem addField_lw0 (s : State) (f k n : Nat) : (addField s f k n).lw0 = s.lw0 := rfl
@[simp] theorem addField_lw1 (s : State) (f k n : Nat) : (addField s f k n).lw1 = s.lw1 := rfl
@[simp] theorem addField_tq (s : State) (f k n : Nat) : (addField s f k n).tq = s.tq := rfl
@[simp] theorem addField_xl (s : State) (f k n : Nat) : (addField s f k n).xl = s.xl := rfl
@[simp] theorem addField_mem (s : State) (f k n : Nat) : (addField s f k n).mem = s.mem := rfl
@[simp] theorem addField_chu (s : State) (f k n : Nat) : (addField s f k n).chu = s.chu := rfl
@[simp] theorem addField_dsp (s : State) (f k n : Nat) : (addField s f k n).dsp = s.dsp := rfl
@[simp] theorem addField_pwr (s : State) (f k n : Nat) : (addField s f k n).pwr = s.pwr := rfl
@[simp] theorem addField_cores (s : State) (f k n : Nat) : (addField s f k n).cores = s.cores := rfl
@[simp] theorem addField_fw (s : State) (f k n : Nat) : (addField s f k n).fw = s.fw := rfl
@[simp] theorem addField_sh (s : State) (f k n : Nat) : (addField s f k n).sh = s.sh := rfl
@[simp] theorem addField_hp0 (s : State) (f k n : Nat) : (addField s f k n).hp0 = s.hp0 := rfl
@[simp] theorem addField_hp1 (s : State) (f k n : Nat) : (addField s f k n).hp1 = s.hp1 := rfl
@[simp] theorem addField_pr (s : State) (f k n : Nat) : (addField s f k n).pr = s.pr := rfl
@[simp] theorem addField_mg (s : State) (f k n : Nat) : (addField s f k n).mg = s.mg := rfl
@[simp] theorem addField_hl_autoByp (s : State) (f k n : Nat) : (addField s f k n).hl.autoByp = s.hl.autoByp := rfl
@[simp] theorem addField_hl_autoBin (s : State) (f k n : Nat) : (addField s f k n).hl.autoBin = s.hl.autoBin := rfl
@[simp] theorem addField_hl_test (s : State) (f k n : Nat) : (addField s f k n).hl.test = s.hl.test := rfl
@[simp] theorem addField_hl_seq (s : State) (f k n : Nat) : (addField s f k n).hl.seq = s.hl.seq := rfl
@[simp] theorem addField_hl_log (s : State) (f k n : Nat) : (addField s f k n).hl.log = s.hl.log := rfl
@[simp] theorem addField_hl_badSel (s : State) (f k n : Nat) : (addField s f k n).hl.badSel = s.hl.badSel := rfl
@[simp] theorem addField_hl_layer2 (s : State) (f k n : Nat) : (addField s f k n).hl.layer2 = s.hl.layer2 := rfl
@[simp] theorem addField_hl_retired (s : State) (f k n : Nat) : (addField s f k n).hl.retired = s.hl.retired := rfl
@[simp] theorem addField_hl_injFired (s : State) (f k n : Nat) : (addField s f k n).hl.injFired = s.hl.injFired := rfl
@[simp] theorem addField_hl_fields (s : State) (f k n : Nat) : (addField s f k n).hl.fields = s.hl.fields := rfl
@[simp] theorem addField_hl_op (s : State) (f k n : Nat) : (addField s f k n).hl.op = s.hl.op := rfl
@[simp] theorem addField_hl_busy (s : State) (f k n : Nat) : (addField s f k n).hl.busy = s.hl.busy := rfl
@[simp] theorem addField_hl_rej (s : State) (f k n : Nat) : (addField s f k n).hl.rej = s.hl.rej := rfl
@[simp] theorem addField_hl_result (s : State) (f k n : Nat) : (addField s f k n).hl.result = s.hl.result := rfl
@[simp] theorem addField_hl_arg (s : State) (f k n : Nat) : (addField s f k n).hl.arg = s.hl.arg := rfl
@[simp] theorem addField_hl_opRun (s : State) (f k n : Nat) : (addField s f k n).hl.opRun = s.hl.opRun := rfl
@[simp] theorem addField_hl_argRun (s : State) (f k n : Nat) : (addField s f k n).hl.argRun = s.hl.argRun := rfl
@[simp] theorem addField_hl_ceThr (s : State) (f k n : Nat) : (addField s f k n).hl.ceThr = s.hl.ceThr := rfl
@[simp] theorem addField_hl_sel (s : State) (f k n : Nat) : (addField s f k n).hl.sel = s.hl.sel := rfl
@[simp] theorem addField_hl_cnode (s : State) (f k n : Nat) : (addField s f k n).hl.cnode = s.hl.cnode := rfl
@[simp] theorem addField_hl_devCounts (s : State) (f k n : Nat) : (addField s f k n).hl.devCounts = s.hl.devCounts := rfl
@[simp] theorem addField_hl_bankCounts (s : State) (f k n : Nat) : (addField s f k n).hl.bankCounts = s.hl.bankCounts := rfl
@[simp] theorem addField_hl_unitCounts (s : State) (f k n : Nat) : (addField s f k n).hl.unitCounts = s.hl.unitCounts := rfl
@[simp] theorem addField_hl_layerCounts (s : State) (f k n : Nat) : (addField s f k n).hl.layerCounts = s.hl.layerCounts := rfl
@[simp] theorem addField_hl_inj (s : State) (f k n : Nat) : (addField s f k n).hl.inj = s.hl.inj := rfl
@[simp] theorem addField_hl_wait (s : State) (f k n : Nat) : (addField s f k n).hl.wait = s.hl.wait := rfl

/-! ### addBank -/

@[simp] theorem addBank_run (s : State) (b k n : Nat) : (addBank s b k n).run = s.run := rfl
@[simp] theorem addBank_lw0 (s : State) (b k n : Nat) : (addBank s b k n).lw0 = s.lw0 := rfl
@[simp] theorem addBank_lw1 (s : State) (b k n : Nat) : (addBank s b k n).lw1 = s.lw1 := rfl
@[simp] theorem addBank_tq (s : State) (b k n : Nat) : (addBank s b k n).tq = s.tq := rfl
@[simp] theorem addBank_xl (s : State) (b k n : Nat) : (addBank s b k n).xl = s.xl := rfl
@[simp] theorem addBank_mem (s : State) (b k n : Nat) : (addBank s b k n).mem = s.mem := rfl
@[simp] theorem addBank_chu (s : State) (b k n : Nat) : (addBank s b k n).chu = s.chu := rfl
@[simp] theorem addBank_dsp (s : State) (b k n : Nat) : (addBank s b k n).dsp = s.dsp := rfl
@[simp] theorem addBank_pwr (s : State) (b k n : Nat) : (addBank s b k n).pwr = s.pwr := rfl
@[simp] theorem addBank_cores (s : State) (b k n : Nat) : (addBank s b k n).cores = s.cores := rfl
@[simp] theorem addBank_fw (s : State) (b k n : Nat) : (addBank s b k n).fw = s.fw := rfl
@[simp] theorem addBank_sh (s : State) (b k n : Nat) : (addBank s b k n).sh = s.sh := rfl
@[simp] theorem addBank_hp0 (s : State) (b k n : Nat) : (addBank s b k n).hp0 = s.hp0 := rfl
@[simp] theorem addBank_hp1 (s : State) (b k n : Nat) : (addBank s b k n).hp1 = s.hp1 := rfl
@[simp] theorem addBank_pr (s : State) (b k n : Nat) : (addBank s b k n).pr = s.pr := rfl
@[simp] theorem addBank_mg (s : State) (b k n : Nat) : (addBank s b k n).mg = s.mg := rfl
@[simp] theorem addBank_hl_autoByp (s : State) (b k n : Nat) : (addBank s b k n).hl.autoByp = s.hl.autoByp := rfl
@[simp] theorem addBank_hl_autoBin (s : State) (b k n : Nat) : (addBank s b k n).hl.autoBin = s.hl.autoBin := rfl
@[simp] theorem addBank_hl_test (s : State) (b k n : Nat) : (addBank s b k n).hl.test = s.hl.test := rfl
@[simp] theorem addBank_hl_seq (s : State) (b k n : Nat) : (addBank s b k n).hl.seq = s.hl.seq := rfl
@[simp] theorem addBank_hl_log (s : State) (b k n : Nat) : (addBank s b k n).hl.log = s.hl.log := rfl
@[simp] theorem addBank_hl_badSel (s : State) (b k n : Nat) : (addBank s b k n).hl.badSel = s.hl.badSel := rfl
@[simp] theorem addBank_hl_layer2 (s : State) (b k n : Nat) : (addBank s b k n).hl.layer2 = s.hl.layer2 := rfl
@[simp] theorem addBank_hl_retired (s : State) (b k n : Nat) : (addBank s b k n).hl.retired = s.hl.retired := rfl
@[simp] theorem addBank_hl_injFired (s : State) (b k n : Nat) : (addBank s b k n).hl.injFired = s.hl.injFired := rfl
@[simp] theorem addBank_hl_fields (s : State) (b k n : Nat) : (addBank s b k n).hl.fields = s.hl.fields := rfl
@[simp] theorem addBank_hl_op (s : State) (b k n : Nat) : (addBank s b k n).hl.op = s.hl.op := rfl
@[simp] theorem addBank_hl_busy (s : State) (b k n : Nat) : (addBank s b k n).hl.busy = s.hl.busy := rfl
@[simp] theorem addBank_hl_rej (s : State) (b k n : Nat) : (addBank s b k n).hl.rej = s.hl.rej := rfl
@[simp] theorem addBank_hl_result (s : State) (b k n : Nat) : (addBank s b k n).hl.result = s.hl.result := rfl
@[simp] theorem addBank_hl_arg (s : State) (b k n : Nat) : (addBank s b k n).hl.arg = s.hl.arg := rfl
@[simp] theorem addBank_hl_opRun (s : State) (b k n : Nat) : (addBank s b k n).hl.opRun = s.hl.opRun := rfl
@[simp] theorem addBank_hl_argRun (s : State) (b k n : Nat) : (addBank s b k n).hl.argRun = s.hl.argRun := rfl
@[simp] theorem addBank_hl_ceThr (s : State) (b k n : Nat) : (addBank s b k n).hl.ceThr = s.hl.ceThr := rfl
@[simp] theorem addBank_hl_sel (s : State) (b k n : Nat) : (addBank s b k n).hl.sel = s.hl.sel := rfl
@[simp] theorem addBank_hl_cnode (s : State) (b k n : Nat) : (addBank s b k n).hl.cnode = s.hl.cnode := rfl
@[simp] theorem addBank_hl_fieldCounts (s : State) (b k n : Nat) : (addBank s b k n).hl.fieldCounts = s.hl.fieldCounts := rfl
@[simp] theorem addBank_hl_devCounts (s : State) (b k n : Nat) : (addBank s b k n).hl.devCounts = s.hl.devCounts := rfl
@[simp] theorem addBank_hl_unitCounts (s : State) (b k n : Nat) : (addBank s b k n).hl.unitCounts = s.hl.unitCounts := rfl
@[simp] theorem addBank_hl_layerCounts (s : State) (b k n : Nat) : (addBank s b k n).hl.layerCounts = s.hl.layerCounts := rfl
@[simp] theorem addBank_hl_inj (s : State) (b k n : Nat) : (addBank s b k n).hl.inj = s.hl.inj := rfl
@[simp] theorem addBank_hl_wait (s : State) (b k n : Nat) : (addBank s b k n).hl.wait = s.hl.wait := rfl

/-! ### addUnit -/

@[simp] theorem addUnit_run (s : State) (u k n : Nat) : (addUnit s u k n).run = s.run := rfl
@[simp] theorem addUnit_lw0 (s : State) (u k n : Nat) : (addUnit s u k n).lw0 = s.lw0 := rfl
@[simp] theorem addUnit_lw1 (s : State) (u k n : Nat) : (addUnit s u k n).lw1 = s.lw1 := rfl
@[simp] theorem addUnit_tq (s : State) (u k n : Nat) : (addUnit s u k n).tq = s.tq := rfl
@[simp] theorem addUnit_xl (s : State) (u k n : Nat) : (addUnit s u k n).xl = s.xl := rfl
@[simp] theorem addUnit_mem (s : State) (u k n : Nat) : (addUnit s u k n).mem = s.mem := rfl
@[simp] theorem addUnit_chu (s : State) (u k n : Nat) : (addUnit s u k n).chu = s.chu := rfl
@[simp] theorem addUnit_dsp (s : State) (u k n : Nat) : (addUnit s u k n).dsp = s.dsp := rfl
@[simp] theorem addUnit_pwr (s : State) (u k n : Nat) : (addUnit s u k n).pwr = s.pwr := rfl
@[simp] theorem addUnit_cores (s : State) (u k n : Nat) : (addUnit s u k n).cores = s.cores := rfl
@[simp] theorem addUnit_fw (s : State) (u k n : Nat) : (addUnit s u k n).fw = s.fw := rfl
@[simp] theorem addUnit_sh (s : State) (u k n : Nat) : (addUnit s u k n).sh = s.sh := rfl
@[simp] theorem addUnit_hp0 (s : State) (u k n : Nat) : (addUnit s u k n).hp0 = s.hp0 := rfl
@[simp] theorem addUnit_hp1 (s : State) (u k n : Nat) : (addUnit s u k n).hp1 = s.hp1 := rfl
@[simp] theorem addUnit_pr (s : State) (u k n : Nat) : (addUnit s u k n).pr = s.pr := rfl
@[simp] theorem addUnit_mg (s : State) (u k n : Nat) : (addUnit s u k n).mg = s.mg := rfl
@[simp] theorem addUnit_hl_autoByp (s : State) (u k n : Nat) : (addUnit s u k n).hl.autoByp = s.hl.autoByp := rfl
@[simp] theorem addUnit_hl_autoBin (s : State) (u k n : Nat) : (addUnit s u k n).hl.autoBin = s.hl.autoBin := rfl
@[simp] theorem addUnit_hl_test (s : State) (u k n : Nat) : (addUnit s u k n).hl.test = s.hl.test := rfl
@[simp] theorem addUnit_hl_seq (s : State) (u k n : Nat) : (addUnit s u k n).hl.seq = s.hl.seq := rfl
@[simp] theorem addUnit_hl_log (s : State) (u k n : Nat) : (addUnit s u k n).hl.log = s.hl.log := rfl
@[simp] theorem addUnit_hl_badSel (s : State) (u k n : Nat) : (addUnit s u k n).hl.badSel = s.hl.badSel := rfl
@[simp] theorem addUnit_hl_layer2 (s : State) (u k n : Nat) : (addUnit s u k n).hl.layer2 = s.hl.layer2 := rfl
@[simp] theorem addUnit_hl_retired (s : State) (u k n : Nat) : (addUnit s u k n).hl.retired = s.hl.retired := rfl
@[simp] theorem addUnit_hl_injFired (s : State) (u k n : Nat) : (addUnit s u k n).hl.injFired = s.hl.injFired := rfl
@[simp] theorem addUnit_hl_fields (s : State) (u k n : Nat) : (addUnit s u k n).hl.fields = s.hl.fields := rfl
@[simp] theorem addUnit_hl_op (s : State) (u k n : Nat) : (addUnit s u k n).hl.op = s.hl.op := rfl
@[simp] theorem addUnit_hl_busy (s : State) (u k n : Nat) : (addUnit s u k n).hl.busy = s.hl.busy := rfl
@[simp] theorem addUnit_hl_rej (s : State) (u k n : Nat) : (addUnit s u k n).hl.rej = s.hl.rej := rfl
@[simp] theorem addUnit_hl_result (s : State) (u k n : Nat) : (addUnit s u k n).hl.result = s.hl.result := rfl
@[simp] theorem addUnit_hl_arg (s : State) (u k n : Nat) : (addUnit s u k n).hl.arg = s.hl.arg := rfl
@[simp] theorem addUnit_hl_opRun (s : State) (u k n : Nat) : (addUnit s u k n).hl.opRun = s.hl.opRun := rfl
@[simp] theorem addUnit_hl_argRun (s : State) (u k n : Nat) : (addUnit s u k n).hl.argRun = s.hl.argRun := rfl
@[simp] theorem addUnit_hl_ceThr (s : State) (u k n : Nat) : (addUnit s u k n).hl.ceThr = s.hl.ceThr := rfl
@[simp] theorem addUnit_hl_sel (s : State) (u k n : Nat) : (addUnit s u k n).hl.sel = s.hl.sel := rfl
@[simp] theorem addUnit_hl_cnode (s : State) (u k n : Nat) : (addUnit s u k n).hl.cnode = s.hl.cnode := rfl
@[simp] theorem addUnit_hl_fieldCounts (s : State) (u k n : Nat) : (addUnit s u k n).hl.fieldCounts = s.hl.fieldCounts := rfl
@[simp] theorem addUnit_hl_devCounts (s : State) (u k n : Nat) : (addUnit s u k n).hl.devCounts = s.hl.devCounts := rfl
@[simp] theorem addUnit_hl_bankCounts (s : State) (u k n : Nat) : (addUnit s u k n).hl.bankCounts = s.hl.bankCounts := rfl
@[simp] theorem addUnit_hl_layerCounts (s : State) (u k n : Nat) : (addUnit s u k n).hl.layerCounts = s.hl.layerCounts := rfl
@[simp] theorem addUnit_hl_inj (s : State) (u k n : Nat) : (addUnit s u k n).hl.inj = s.hl.inj := rfl
@[simp] theorem addUnit_hl_wait (s : State) (u k n : Nat) : (addUnit s u k n).hl.wait = s.hl.wait := rfl

/-! ### takeFree -/

@[simp] theorem takeFree_lw0 (s : State) : (takeFree s).2.lw0 = s.lw0 := rfl
@[simp] theorem takeFree_lw1 (s : State) : (takeFree s).2.lw1 = s.lw1 := rfl
@[simp] theorem takeFree_tq (s : State) : (takeFree s).2.tq = s.tq := rfl
@[simp] theorem takeFree_xl (s : State) : (takeFree s).2.xl = s.xl := rfl
@[simp] theorem takeFree_mem (s : State) : (takeFree s).2.mem = s.mem := rfl
@[simp] theorem takeFree_chu (s : State) : (takeFree s).2.chu = s.chu := rfl
@[simp] theorem takeFree_dsp (s : State) : (takeFree s).2.dsp = s.dsp := rfl
@[simp] theorem takeFree_pwr (s : State) : (takeFree s).2.pwr = s.pwr := rfl
@[simp] theorem takeFree_cores (s : State) : (takeFree s).2.cores = s.cores := rfl
@[simp] theorem takeFree_fw (s : State) : (takeFree s).2.fw = s.fw := rfl
@[simp] theorem takeFree_hl (s : State) : (takeFree s).2.hl = s.hl := rfl
@[simp] theorem takeFree_sh (s : State) : (takeFree s).2.sh = s.sh := rfl
@[simp] theorem takeFree_hp0 (s : State) : (takeFree s).2.hp0 = s.hp0 := rfl
@[simp] theorem takeFree_hp1 (s : State) : (takeFree s).2.hp1 = s.hp1 := rfl
@[simp] theorem takeFree_pr (s : State) : (takeFree s).2.pr = s.pr := rfl
@[simp] theorem takeFree_mg (s : State) : (takeFree s).2.mg = s.mg := rfl
@[simp] theorem takeFree_run_agenda (s : State) : (takeFree s).2.run.agenda = s.run.agenda := rfl
@[simp] theorem takeFree_run_sweep (s : State) : (takeFree s).2.run.sweep = s.run.sweep := rfl
@[simp] theorem takeFree_run_inputs (s : State) : (takeFree s).2.run.inputs = s.run.inputs := rfl
@[simp] theorem takeFree_run_focus (s : State) : (takeFree s).2.run.focus = s.run.focus := rfl
@[simp] theorem takeFree_run_still (s : State) : (takeFree s).2.run.still = s.run.still := rfl
@[simp] theorem takeFree_run_toHost (s : State) : (takeFree s).2.run.toHost = s.run.toHost := rfl
@[simp] theorem takeFree_run_toPeer (s : State) : (takeFree s).2.run.toPeer = s.run.toPeer := rfl
@[simp] theorem takeFree_run_time (s : State) : (takeFree s).2.run.time = s.run.time := rfl

/-! ### nextJob -/

@[simp] theorem nextJob_lw0 (s : State) (j : Job) : (nextJob s j).lw0 = s.lw0 := rfl
@[simp] theorem nextJob_lw1 (s : State) (j : Job) : (nextJob s j).lw1 = s.lw1 := rfl
@[simp] theorem nextJob_tq (s : State) (j : Job) : (nextJob s j).tq = s.tq := rfl
@[simp] theorem nextJob_xl (s : State) (j : Job) : (nextJob s j).xl = s.xl := rfl
@[simp] theorem nextJob_mem (s : State) (j : Job) : (nextJob s j).mem = s.mem := rfl
@[simp] theorem nextJob_chu (s : State) (j : Job) : (nextJob s j).chu = s.chu := rfl
@[simp] theorem nextJob_dsp (s : State) (j : Job) : (nextJob s j).dsp = s.dsp := rfl
@[simp] theorem nextJob_pwr (s : State) (j : Job) : (nextJob s j).pwr = s.pwr := rfl
@[simp] theorem nextJob_cores (s : State) (j : Job) : (nextJob s j).cores = s.cores := rfl
@[simp] theorem nextJob_fw (s : State) (j : Job) : (nextJob s j).fw = s.fw := rfl
@[simp] theorem nextJob_hl (s : State) (j : Job) : (nextJob s j).hl = s.hl := rfl
@[simp] theorem nextJob_sh (s : State) (j : Job) : (nextJob s j).sh = s.sh := rfl
@[simp] theorem nextJob_hp0 (s : State) (j : Job) : (nextJob s j).hp0 = s.hp0 := rfl
@[simp] theorem nextJob_hp1 (s : State) (j : Job) : (nextJob s j).hp1 = s.hp1 := rfl
@[simp] theorem nextJob_pr (s : State) (j : Job) : (nextJob s j).pr = s.pr := rfl
@[simp] theorem nextJob_mg (s : State) (j : Job) : (nextJob s j).mg = s.mg := rfl
@[simp] theorem nextJob_run_sweep (s : State) (j : Job) : (nextJob s j).run.sweep = s.run.sweep := rfl
@[simp] theorem nextJob_run_free (s : State) (j : Job) : (nextJob s j).run.free = s.run.free := rfl
@[simp] theorem nextJob_run_inputs (s : State) (j : Job) : (nextJob s j).run.inputs = s.run.inputs := rfl
@[simp] theorem nextJob_run_focus (s : State) (j : Job) : (nextJob s j).run.focus = s.run.focus := rfl
@[simp] theorem nextJob_run_still (s : State) (j : Job) : (nextJob s j).run.still = s.run.still := rfl
@[simp] theorem nextJob_run_toHost (s : State) (j : Job) : (nextJob s j).run.toHost = s.run.toHost := rfl
@[simp] theorem nextJob_run_toPeer (s : State) (j : Job) : (nextJob s j).run.toPeer = s.run.toPeer := rfl
@[simp] theorem nextJob_run_time (s : State) (j : Job) : (nextJob s j).run.time = s.run.time := rfl

/-! ### queueJob -/

@[simp] theorem queueJob_lw0 (s : State) (j : Job) : (queueJob s j).lw0 = s.lw0 := rfl
@[simp] theorem queueJob_lw1 (s : State) (j : Job) : (queueJob s j).lw1 = s.lw1 := rfl
@[simp] theorem queueJob_tq (s : State) (j : Job) : (queueJob s j).tq = s.tq := rfl
@[simp] theorem queueJob_xl (s : State) (j : Job) : (queueJob s j).xl = s.xl := rfl
@[simp] theorem queueJob_mem (s : State) (j : Job) : (queueJob s j).mem = s.mem := rfl
@[simp] theorem queueJob_chu (s : State) (j : Job) : (queueJob s j).chu = s.chu := rfl
@[simp] theorem queueJob_dsp (s : State) (j : Job) : (queueJob s j).dsp = s.dsp := rfl
@[simp] theorem queueJob_pwr (s : State) (j : Job) : (queueJob s j).pwr = s.pwr := rfl
@[simp] theorem queueJob_cores (s : State) (j : Job) : (queueJob s j).cores = s.cores := rfl
@[simp] theorem queueJob_fw (s : State) (j : Job) : (queueJob s j).fw = s.fw := rfl
@[simp] theorem queueJob_hl (s : State) (j : Job) : (queueJob s j).hl = s.hl := rfl
@[simp] theorem queueJob_sh (s : State) (j : Job) : (queueJob s j).sh = s.sh := rfl
@[simp] theorem queueJob_hp0 (s : State) (j : Job) : (queueJob s j).hp0 = s.hp0 := rfl
@[simp] theorem queueJob_hp1 (s : State) (j : Job) : (queueJob s j).hp1 = s.hp1 := rfl
@[simp] theorem queueJob_pr (s : State) (j : Job) : (queueJob s j).pr = s.pr := rfl
@[simp] theorem queueJob_mg (s : State) (j : Job) : (queueJob s j).mg = s.mg := rfl
@[simp] theorem queueJob_run_sweep (s : State) (j : Job) : (queueJob s j).run.sweep = s.run.sweep := rfl
@[simp] theorem queueJob_run_free (s : State) (j : Job) : (queueJob s j).run.free = s.run.free := rfl
@[simp] theorem queueJob_run_inputs (s : State) (j : Job) : (queueJob s j).run.inputs = s.run.inputs := rfl
@[simp] theorem queueJob_run_focus (s : State) (j : Job) : (queueJob s j).run.focus = s.run.focus := rfl
@[simp] theorem queueJob_run_still (s : State) (j : Job) : (queueJob s j).run.still = s.run.still := rfl
@[simp] theorem queueJob_run_toHost (s : State) (j : Job) : (queueJob s j).run.toHost = s.run.toHost := rfl
@[simp] theorem queueJob_run_toPeer (s : State) (j : Job) : (queueJob s j).run.toPeer = s.run.toPeer := rfl
@[simp] theorem queueJob_run_time (s : State) (j : Job) : (queueJob s j).run.time = s.run.time := rfl

/-! ### toHost -/

@[simp] theorem toHost_lw0 (s : State) (o : HostOut) : (toHost s o).lw0 = s.lw0 := rfl
@[simp] theorem toHost_lw1 (s : State) (o : HostOut) : (toHost s o).lw1 = s.lw1 := rfl
@[simp] theorem toHost_tq (s : State) (o : HostOut) : (toHost s o).tq = s.tq := rfl
@[simp] theorem toHost_xl (s : State) (o : HostOut) : (toHost s o).xl = s.xl := rfl
@[simp] theorem toHost_mem (s : State) (o : HostOut) : (toHost s o).mem = s.mem := rfl
@[simp] theorem toHost_chu (s : State) (o : HostOut) : (toHost s o).chu = s.chu := rfl
@[simp] theorem toHost_dsp (s : State) (o : HostOut) : (toHost s o).dsp = s.dsp := rfl
@[simp] theorem toHost_pwr (s : State) (o : HostOut) : (toHost s o).pwr = s.pwr := rfl
@[simp] theorem toHost_cores (s : State) (o : HostOut) : (toHost s o).cores = s.cores := rfl
@[simp] theorem toHost_fw (s : State) (o : HostOut) : (toHost s o).fw = s.fw := rfl
@[simp] theorem toHost_hl (s : State) (o : HostOut) : (toHost s o).hl = s.hl := rfl
@[simp] theorem toHost_sh (s : State) (o : HostOut) : (toHost s o).sh = s.sh := rfl
@[simp] theorem toHost_hp0 (s : State) (o : HostOut) : (toHost s o).hp0 = s.hp0 := rfl
@[simp] theorem toHost_hp1 (s : State) (o : HostOut) : (toHost s o).hp1 = s.hp1 := rfl
@[simp] theorem toHost_pr (s : State) (o : HostOut) : (toHost s o).pr = s.pr := rfl
@[simp] theorem toHost_mg (s : State) (o : HostOut) : (toHost s o).mg = s.mg := rfl
@[simp] theorem toHost_run_agenda (s : State) (o : HostOut) : (toHost s o).run.agenda = s.run.agenda := rfl
@[simp] theorem toHost_run_sweep (s : State) (o : HostOut) : (toHost s o).run.sweep = s.run.sweep := rfl
@[simp] theorem toHost_run_free (s : State) (o : HostOut) : (toHost s o).run.free = s.run.free := rfl
@[simp] theorem toHost_run_inputs (s : State) (o : HostOut) : (toHost s o).run.inputs = s.run.inputs := rfl
@[simp] theorem toHost_run_focus (s : State) (o : HostOut) : (toHost s o).run.focus = s.run.focus := rfl
@[simp] theorem toHost_run_still (s : State) (o : HostOut) : (toHost s o).run.still = s.run.still := rfl
@[simp] theorem toHost_run_toPeer (s : State) (o : HostOut) : (toHost s o).run.toPeer = s.run.toPeer := rfl
@[simp] theorem toHost_run_time (s : State) (o : HostOut) : (toHost s o).run.time = s.run.time := rfl

/-! ### toPeer -/

@[simp] theorem toPeer_lw0 (s : State) (o : PeerOut) : (toPeer s o).lw0 = s.lw0 := rfl
@[simp] theorem toPeer_lw1 (s : State) (o : PeerOut) : (toPeer s o).lw1 = s.lw1 := rfl
@[simp] theorem toPeer_tq (s : State) (o : PeerOut) : (toPeer s o).tq = s.tq := rfl
@[simp] theorem toPeer_xl (s : State) (o : PeerOut) : (toPeer s o).xl = s.xl := rfl
@[simp] theorem toPeer_mem (s : State) (o : PeerOut) : (toPeer s o).mem = s.mem := rfl
@[simp] theorem toPeer_chu (s : State) (o : PeerOut) : (toPeer s o).chu = s.chu := rfl
@[simp] theorem toPeer_dsp (s : State) (o : PeerOut) : (toPeer s o).dsp = s.dsp := rfl
@[simp] theorem toPeer_pwr (s : State) (o : PeerOut) : (toPeer s o).pwr = s.pwr := rfl
@[simp] theorem toPeer_cores (s : State) (o : PeerOut) : (toPeer s o).cores = s.cores := rfl
@[simp] theorem toPeer_fw (s : State) (o : PeerOut) : (toPeer s o).fw = s.fw := rfl
@[simp] theorem toPeer_hl (s : State) (o : PeerOut) : (toPeer s o).hl = s.hl := rfl
@[simp] theorem toPeer_sh (s : State) (o : PeerOut) : (toPeer s o).sh = s.sh := rfl
@[simp] theorem toPeer_hp0 (s : State) (o : PeerOut) : (toPeer s o).hp0 = s.hp0 := rfl
@[simp] theorem toPeer_hp1 (s : State) (o : PeerOut) : (toPeer s o).hp1 = s.hp1 := rfl
@[simp] theorem toPeer_pr (s : State) (o : PeerOut) : (toPeer s o).pr = s.pr := rfl
@[simp] theorem toPeer_mg (s : State) (o : PeerOut) : (toPeer s o).mg = s.mg := rfl
@[simp] theorem toPeer_run_agenda (s : State) (o : PeerOut) : (toPeer s o).run.agenda = s.run.agenda := rfl
@[simp] theorem toPeer_run_sweep (s : State) (o : PeerOut) : (toPeer s o).run.sweep = s.run.sweep := rfl
@[simp] theorem toPeer_run_free (s : State) (o : PeerOut) : (toPeer s o).run.free = s.run.free := rfl
@[simp] theorem toPeer_run_inputs (s : State) (o : PeerOut) : (toPeer s o).run.inputs = s.run.inputs := rfl
@[simp] theorem toPeer_run_focus (s : State) (o : PeerOut) : (toPeer s o).run.focus = s.run.focus := rfl
@[simp] theorem toPeer_run_still (s : State) (o : PeerOut) : (toPeer s o).run.still = s.run.still := rfl
@[simp] theorem toPeer_run_toHost (s : State) (o : PeerOut) : (toPeer s o).run.toHost = s.run.toHost := rfl
@[simp] theorem toPeer_run_time (s : State) (o : PeerOut) : (toPeer s o).run.time = s.run.time := rfl

/-! ### postRec -/

@[simp] theorem postRec_run (s : State) (r : TrapRec) : (postRec s r).run = s.run := rfl
@[simp] theorem postRec_lw0 (s : State) (r : TrapRec) : (postRec s r).lw0 = s.lw0 := rfl
@[simp] theorem postRec_lw1 (s : State) (r : TrapRec) : (postRec s r).lw1 = s.lw1 := rfl
@[simp] theorem postRec_xl (s : State) (r : TrapRec) : (postRec s r).xl = s.xl := rfl
@[simp] theorem postRec_mem (s : State) (r : TrapRec) : (postRec s r).mem = s.mem := rfl
@[simp] theorem postRec_chu (s : State) (r : TrapRec) : (postRec s r).chu = s.chu := rfl
@[simp] theorem postRec_dsp (s : State) (r : TrapRec) : (postRec s r).dsp = s.dsp := rfl
@[simp] theorem postRec_pwr (s : State) (r : TrapRec) : (postRec s r).pwr = s.pwr := rfl
@[simp] theorem postRec_cores (s : State) (r : TrapRec) : (postRec s r).cores = s.cores := rfl
@[simp] theorem postRec_fw (s : State) (r : TrapRec) : (postRec s r).fw = s.fw := rfl
@[simp] theorem postRec_hl (s : State) (r : TrapRec) : (postRec s r).hl = s.hl := rfl
@[simp] theorem postRec_sh (s : State) (r : TrapRec) : (postRec s r).sh = s.sh := rfl
@[simp] theorem postRec_hp0 (s : State) (r : TrapRec) : (postRec s r).hp0 = s.hp0 := rfl
@[simp] theorem postRec_hp1 (s : State) (r : TrapRec) : (postRec s r).hp1 = s.hp1 := rfl
@[simp] theorem postRec_pr (s : State) (r : TrapRec) : (postRec s r).pr = s.pr := rfl
@[simp] theorem postRec_mg (s : State) (r : TrapRec) : (postRec s r).mg = s.mg := rfl
@[simp] theorem postRec_tq_base (s : State) (r : TrapRec) : (postRec s r).tq.base = s.tq.base := rfl
@[simp] theorem postRec_tq_en (s : State) (r : TrapRec) : (postRec s r).tq.en = s.tq.en := rfl
@[simp] theorem postRec_tq_log2n (s : State) (r : TrapRec) : (postRec s r).tq.log2n = s.tq.log2n := rfl
@[simp] theorem postRec_tq_headErr (s : State) (r : TrapRec) : (postRec s r).tq.headErr = s.tq.headErr := rfl
@[simp] theorem postRec_tq_cfgErr (s : State) (r : TrapRec) : (postRec s r).tq.cfgErr = s.tq.cfgErr := rfl
@[simp] theorem postRec_tq_badAck (s : State) (r : TrapRec) : (postRec s r).tq.badAck = s.tq.badAck := rfl
@[simp] theorem postRec_tq_head (s : State) (r : TrapRec) : (postRec s r).tq.head = s.tq.head := rfl
@[simp] theorem postRec_tq_tail (s : State) (r : TrapRec) : (postRec s r).tq.tail = s.tq.tail := rfl
@[simp] theorem postRec_tq_fatal (s : State) (r : TrapRec) : (postRec s r).tq.fatal = s.tq.fatal := rfl
@[simp] theorem postRec_tq_fatalMore (s : State) (r : TrapRec) : (postRec s r).tq.fatalMore = s.tq.fatalMore := rfl
@[simp] theorem postRec_tq_dropped (s : State) (r : TrapRec) : (postRec s r).tq.dropped = s.tq.dropped := rfl
@[simp] theorem postRec_tq_stamp (s : State) (r : TrapRec) : (postRec s r).tq.stamp = s.tq.stamp := rfl
@[simp] theorem postRec_tq_outstanding (s : State) (r : TrapRec) : (postRec s r).tq.outstanding = s.tq.outstanding := rfl

/-! ### enterCmd -/

@[simp] theorem enterCmd_run (s : State) (x : Cmd) : (enterCmd s x).run = s.run := rfl
@[simp] theorem enterCmd_lw0 (s : State) (x : Cmd) : (enterCmd s x).lw0 = s.lw0 := rfl
@[simp] theorem enterCmd_lw1 (s : State) (x : Cmd) : (enterCmd s x).lw1 = s.lw1 := rfl
@[simp] theorem enterCmd_tq (s : State) (x : Cmd) : (enterCmd s x).tq = s.tq := rfl
@[simp] theorem enterCmd_xl (s : State) (x : Cmd) : (enterCmd s x).xl = s.xl := rfl
@[simp] theorem enterCmd_mem (s : State) (x : Cmd) : (enterCmd s x).mem = s.mem := rfl
@[simp] theorem enterCmd_chu (s : State) (x : Cmd) : (enterCmd s x).chu = s.chu := rfl
@[simp] theorem enterCmd_dsp (s : State) (x : Cmd) : (enterCmd s x).dsp = s.dsp := rfl
@[simp] theorem enterCmd_pwr (s : State) (x : Cmd) : (enterCmd s x).pwr = s.pwr := rfl
@[simp] theorem enterCmd_cores (s : State) (x : Cmd) : (enterCmd s x).cores = s.cores := rfl
@[simp] theorem enterCmd_fw (s : State) (x : Cmd) : (enterCmd s x).fw = s.fw := rfl
@[simp] theorem enterCmd_hl (s : State) (x : Cmd) : (enterCmd s x).hl = s.hl := rfl
@[simp] theorem enterCmd_hp0 (s : State) (x : Cmd) : (enterCmd s x).hp0 = s.hp0 := rfl
@[simp] theorem enterCmd_hp1 (s : State) (x : Cmd) : (enterCmd s x).hp1 = s.hp1 := rfl
@[simp] theorem enterCmd_pr (s : State) (x : Cmd) : (enterCmd s x).pr = s.pr := rfl
@[simp] theorem enterCmd_mg (s : State) (x : Cmd) : (enterCmd s x).mg = s.mg := rfl
@[simp] theorem enterCmd_sh_relays (s : State) (x : Cmd) : (enterCmd s x).sh.relays = s.sh.relays := rfl
@[simp] theorem enterCmd_sh_done (s : State) (x : Cmd) : (enterCmd s x).sh.done = s.sh.done := rfl

/-! ### putCmd -/

@[simp] theorem putCmd_run (s : State) (x : Cmd) : (putCmd s x).run = s.run := rfl
@[simp] theorem putCmd_lw0 (s : State) (x : Cmd) : (putCmd s x).lw0 = s.lw0 := rfl
@[simp] theorem putCmd_lw1 (s : State) (x : Cmd) : (putCmd s x).lw1 = s.lw1 := rfl
@[simp] theorem putCmd_tq (s : State) (x : Cmd) : (putCmd s x).tq = s.tq := rfl
@[simp] theorem putCmd_xl (s : State) (x : Cmd) : (putCmd s x).xl = s.xl := rfl
@[simp] theorem putCmd_mem (s : State) (x : Cmd) : (putCmd s x).mem = s.mem := rfl
@[simp] theorem putCmd_chu (s : State) (x : Cmd) : (putCmd s x).chu = s.chu := rfl
@[simp] theorem putCmd_dsp (s : State) (x : Cmd) : (putCmd s x).dsp = s.dsp := rfl
@[simp] theorem putCmd_pwr (s : State) (x : Cmd) : (putCmd s x).pwr = s.pwr := rfl
@[simp] theorem putCmd_cores (s : State) (x : Cmd) : (putCmd s x).cores = s.cores := rfl
@[simp] theorem putCmd_fw (s : State) (x : Cmd) : (putCmd s x).fw = s.fw := rfl
@[simp] theorem putCmd_hl (s : State) (x : Cmd) : (putCmd s x).hl = s.hl := rfl
@[simp] theorem putCmd_hp0 (s : State) (x : Cmd) : (putCmd s x).hp0 = s.hp0 := rfl
@[simp] theorem putCmd_hp1 (s : State) (x : Cmd) : (putCmd s x).hp1 = s.hp1 := rfl
@[simp] theorem putCmd_pr (s : State) (x : Cmd) : (putCmd s x).pr = s.pr := rfl
@[simp] theorem putCmd_mg (s : State) (x : Cmd) : (putCmd s x).mg = s.mg := rfl
@[simp] theorem putCmd_sh_relays (s : State) (x : Cmd) : (putCmd s x).sh.relays = s.sh.relays := rfl
@[simp] theorem putCmd_sh_ticket (s : State) (x : Cmd) : (putCmd s x).sh.ticket = s.sh.ticket := rfl
@[simp] theorem putCmd_sh_done (s : State) (x : Cmd) : (putCmd s x).sh.done = s.sh.done := rfl

/-! ### putRelays -/

@[simp] theorem putRelays_run (s : State) (l : List Relay) : (putRelays s l).run = s.run := rfl
@[simp] theorem putRelays_lw0 (s : State) (l : List Relay) : (putRelays s l).lw0 = s.lw0 := rfl
@[simp] theorem putRelays_lw1 (s : State) (l : List Relay) : (putRelays s l).lw1 = s.lw1 := rfl
@[simp] theorem putRelays_tq (s : State) (l : List Relay) : (putRelays s l).tq = s.tq := rfl
@[simp] theorem putRelays_xl (s : State) (l : List Relay) : (putRelays s l).xl = s.xl := rfl
@[simp] theorem putRelays_mem (s : State) (l : List Relay) : (putRelays s l).mem = s.mem := rfl
@[simp] theorem putRelays_chu (s : State) (l : List Relay) : (putRelays s l).chu = s.chu := rfl
@[simp] theorem putRelays_dsp (s : State) (l : List Relay) : (putRelays s l).dsp = s.dsp := rfl
@[simp] theorem putRelays_pwr (s : State) (l : List Relay) : (putRelays s l).pwr = s.pwr := rfl
@[simp] theorem putRelays_cores (s : State) (l : List Relay) : (putRelays s l).cores = s.cores := rfl
@[simp] theorem putRelays_fw (s : State) (l : List Relay) : (putRelays s l).fw = s.fw := rfl
@[simp] theorem putRelays_hl (s : State) (l : List Relay) : (putRelays s l).hl = s.hl := rfl
@[simp] theorem putRelays_hp0 (s : State) (l : List Relay) : (putRelays s l).hp0 = s.hp0 := rfl
@[simp] theorem putRelays_hp1 (s : State) (l : List Relay) : (putRelays s l).hp1 = s.hp1 := rfl
@[simp] theorem putRelays_pr (s : State) (l : List Relay) : (putRelays s l).pr = s.pr := rfl
@[simp] theorem putRelays_mg (s : State) (l : List Relay) : (putRelays s l).mg = s.mg := rfl
@[simp] theorem putRelays_sh_cmds (s : State) (l : List Relay) : (putRelays s l).sh.cmds = s.sh.cmds := rfl
@[simp] theorem putRelays_sh_ticket (s : State) (l : List Relay) : (putRelays s l).sh.ticket = s.sh.ticket := rfl
@[simp] theorem putRelays_sh_done (s : State) (l : List Relay) : (putRelays s l).sh.done = s.sh.done := rfl

/-! ### updPeer -/

@[simp] theorem updPeer_run (s : State) (p : Nat) (f : PeerPort → PeerPort) : (updPeer s p f).run = s.run := rfl
@[simp] theorem updPeer_lw0 (s : State) (p : Nat) (f : PeerPort → PeerPort) : (updPeer s p f).lw0 = s.lw0 := rfl
@[simp] theorem updPeer_lw1 (s : State) (p : Nat) (f : PeerPort → PeerPort) : (updPeer s p f).lw1 = s.lw1 := rfl
@[simp] theorem updPeer_tq (s : State) (p : Nat) (f : PeerPort → PeerPort) : (updPeer s p f).tq = s.tq := rfl
@[simp] theorem updPeer_xl (s : State) (p : Nat) (f : PeerPort → PeerPort) : (updPeer s p f).xl = s.xl := rfl
@[simp] theorem updPeer_mem (s : State) (p : Nat) (f : PeerPort → PeerPort) : (updPeer s p f).mem = s.mem := rfl
@[simp] theorem updPeer_chu (s : State) (p : Nat) (f : PeerPort → PeerPort) : (updPeer s p f).chu = s.chu := rfl
@[simp] theorem updPeer_dsp (s : State) (p : Nat) (f : PeerPort → PeerPort) : (updPeer s p f).dsp = s.dsp := rfl
@[simp] theorem updPeer_pwr (s : State) (p : Nat) (f : PeerPort → PeerPort) : (updPeer s p f).pwr = s.pwr := rfl
@[simp] theorem updPeer_cores (s : State) (p : Nat) (f : PeerPort → PeerPort) : (updPeer s p f).cores = s.cores := rfl
@[simp] theorem updPeer_fw (s : State) (p : Nat) (f : PeerPort → PeerPort) : (updPeer s p f).fw = s.fw := rfl
@[simp] theorem updPeer_hl (s : State) (p : Nat) (f : PeerPort → PeerPort) : (updPeer s p f).hl = s.hl := rfl
@[simp] theorem updPeer_sh (s : State) (p : Nat) (f : PeerPort → PeerPort) : (updPeer s p f).sh = s.sh := rfl
@[simp] theorem updPeer_hp0 (s : State) (p : Nat) (f : PeerPort → PeerPort) : (updPeer s p f).hp0 = s.hp0 := rfl
@[simp] theorem updPeer_hp1 (s : State) (p : Nat) (f : PeerPort → PeerPort) : (updPeer s p f).hp1 = s.hp1 := rfl
@[simp] theorem updPeer_mg (s : State) (p : Nat) (f : PeerPort → PeerPort) : (updPeer s p f).mg = s.mg := rfl

/-! ### updMg -/

@[simp] theorem updMg_run (s : State) (f : Mgmt → Mgmt) : (updMg s f).run = s.run := rfl
@[simp] theorem updMg_lw0 (s : State) (f : Mgmt → Mgmt) : (updMg s f).lw0 = s.lw0 := rfl
@[simp] theorem updMg_lw1 (s : State) (f : Mgmt → Mgmt) : (updMg s f).lw1 = s.lw1 := rfl
@[simp] theorem updMg_tq (s : State) (f : Mgmt → Mgmt) : (updMg s f).tq = s.tq := rfl
@[simp] theorem updMg_xl (s : State) (f : Mgmt → Mgmt) : (updMg s f).xl = s.xl := rfl
@[simp] theorem updMg_mem (s : State) (f : Mgmt → Mgmt) : (updMg s f).mem = s.mem := rfl
@[simp] theorem updMg_chu (s : State) (f : Mgmt → Mgmt) : (updMg s f).chu = s.chu := rfl
@[simp] theorem updMg_dsp (s : State) (f : Mgmt → Mgmt) : (updMg s f).dsp = s.dsp := rfl
@[simp] theorem updMg_pwr (s : State) (f : Mgmt → Mgmt) : (updMg s f).pwr = s.pwr := rfl
@[simp] theorem updMg_cores (s : State) (f : Mgmt → Mgmt) : (updMg s f).cores = s.cores := rfl
@[simp] theorem updMg_fw (s : State) (f : Mgmt → Mgmt) : (updMg s f).fw = s.fw := rfl
@[simp] theorem updMg_hl (s : State) (f : Mgmt → Mgmt) : (updMg s f).hl = s.hl := rfl
@[simp] theorem updMg_sh (s : State) (f : Mgmt → Mgmt) : (updMg s f).sh = s.sh := rfl
@[simp] theorem updMg_hp0 (s : State) (f : Mgmt → Mgmt) : (updMg s f).hp0 = s.hp0 := rfl
@[simp] theorem updMg_hp1 (s : State) (f : Mgmt → Mgmt) : (updMg s f).hp1 = s.hp1 := rfl
@[simp] theorem updMg_pr (s : State) (f : Mgmt → Mgmt) : (updMg s f).pr = s.pr := rfl

/-! ### updChu -/

@[simp] theorem updChu_run (s : State) (f : ChanUnit → ChanUnit) : (updChu s f).run = s.run := rfl
@[simp] theorem updChu_lw0 (s : State) (f : ChanUnit → ChanUnit) : (updChu s f).lw0 = s.lw0 := rfl
@[simp] theorem updChu_lw1 (s : State) (f : ChanUnit → ChanUnit) : (updChu s f).lw1 = s.lw1 := rfl
@[simp] theorem updChu_tq (s : State) (f : ChanUnit → ChanUnit) : (updChu s f).tq = s.tq := rfl
@[simp] theorem updChu_xl (s : State) (f : ChanUnit → ChanUnit) : (updChu s f).xl = s.xl := rfl
@[simp] theorem updChu_mem (s : State) (f : ChanUnit → ChanUnit) : (updChu s f).mem = s.mem := rfl
@[simp] theorem updChu_dsp (s : State) (f : ChanUnit → ChanUnit) : (updChu s f).dsp = s.dsp := rfl
@[simp] theorem updChu_pwr (s : State) (f : ChanUnit → ChanUnit) : (updChu s f).pwr = s.pwr := rfl
@[simp] theorem updChu_cores (s : State) (f : ChanUnit → ChanUnit) : (updChu s f).cores = s.cores := rfl
@[simp] theorem updChu_fw (s : State) (f : ChanUnit → ChanUnit) : (updChu s f).fw = s.fw := rfl
@[simp] theorem updChu_hl (s : State) (f : ChanUnit → ChanUnit) : (updChu s f).hl = s.hl := rfl
@[simp] theorem updChu_sh (s : State) (f : ChanUnit → ChanUnit) : (updChu s f).sh = s.sh := rfl
@[simp] theorem updChu_hp0 (s : State) (f : ChanUnit → ChanUnit) : (updChu s f).hp0 = s.hp0 := rfl
@[simp] theorem updChu_hp1 (s : State) (f : ChanUnit → ChanUnit) : (updChu s f).hp1 = s.hp1 := rfl
@[simp] theorem updChu_pr (s : State) (f : ChanUnit → ChanUnit) : (updChu s f).pr = s.pr := rfl
@[simp] theorem updChu_mg (s : State) (f : ChanUnit → ChanUnit) : (updChu s f).mg = s.mg := rfl

/-! ### updDsp -/

@[simp] theorem updDsp_run (s : State) (f : Dispatcher → Dispatcher) : (updDsp s f).run = s.run := rfl
@[simp] theorem updDsp_lw0 (s : State) (f : Dispatcher → Dispatcher) : (updDsp s f).lw0 = s.lw0 := rfl
@[simp] theorem updDsp_lw1 (s : State) (f : Dispatcher → Dispatcher) : (updDsp s f).lw1 = s.lw1 := rfl
@[simp] theorem updDsp_tq (s : State) (f : Dispatcher → Dispatcher) : (updDsp s f).tq = s.tq := rfl
@[simp] theorem updDsp_xl (s : State) (f : Dispatcher → Dispatcher) : (updDsp s f).xl = s.xl := rfl
@[simp] theorem updDsp_mem (s : State) (f : Dispatcher → Dispatcher) : (updDsp s f).mem = s.mem := rfl
@[simp] theorem updDsp_chu (s : State) (f : Dispatcher → Dispatcher) : (updDsp s f).chu = s.chu := rfl
@[simp] theorem updDsp_pwr (s : State) (f : Dispatcher → Dispatcher) : (updDsp s f).pwr = s.pwr := rfl
@[simp] theorem updDsp_cores (s : State) (f : Dispatcher → Dispatcher) : (updDsp s f).cores = s.cores := rfl
@[simp] theorem updDsp_fw (s : State) (f : Dispatcher → Dispatcher) : (updDsp s f).fw = s.fw := rfl
@[simp] theorem updDsp_hl (s : State) (f : Dispatcher → Dispatcher) : (updDsp s f).hl = s.hl := rfl
@[simp] theorem updDsp_sh (s : State) (f : Dispatcher → Dispatcher) : (updDsp s f).sh = s.sh := rfl
@[simp] theorem updDsp_hp0 (s : State) (f : Dispatcher → Dispatcher) : (updDsp s f).hp0 = s.hp0 := rfl
@[simp] theorem updDsp_hp1 (s : State) (f : Dispatcher → Dispatcher) : (updDsp s f).hp1 = s.hp1 := rfl
@[simp] theorem updDsp_pr (s : State) (f : Dispatcher → Dispatcher) : (updDsp s f).pr = s.pr := rfl
@[simp] theorem updDsp_mg (s : State) (f : Dispatcher → Dispatcher) : (updDsp s f).mg = s.mg := rfl

/-! ### updXl -/

@[simp] theorem updXl_run (s : State) (f : Xlate → Xlate) : (updXl s f).run = s.run := rfl
@[simp] theorem updXl_lw0 (s : State) (f : Xlate → Xlate) : (updXl s f).lw0 = s.lw0 := rfl
@[simp] theorem updXl_lw1 (s : State) (f : Xlate → Xlate) : (updXl s f).lw1 = s.lw1 := rfl
@[simp] theorem updXl_tq (s : State) (f : Xlate → Xlate) : (updXl s f).tq = s.tq := rfl
@[simp] theorem updXl_mem (s : State) (f : Xlate → Xlate) : (updXl s f).mem = s.mem := rfl
@[simp] theorem updXl_chu (s : State) (f : Xlate → Xlate) : (updXl s f).chu = s.chu := rfl
@[simp] theorem updXl_dsp (s : State) (f : Xlate → Xlate) : (updXl s f).dsp = s.dsp := rfl
@[simp] theorem updXl_pwr (s : State) (f : Xlate → Xlate) : (updXl s f).pwr = s.pwr := rfl
@[simp] theorem updXl_cores (s : State) (f : Xlate → Xlate) : (updXl s f).cores = s.cores := rfl
@[simp] theorem updXl_fw (s : State) (f : Xlate → Xlate) : (updXl s f).fw = s.fw := rfl
@[simp] theorem updXl_hl (s : State) (f : Xlate → Xlate) : (updXl s f).hl = s.hl := rfl
@[simp] theorem updXl_sh (s : State) (f : Xlate → Xlate) : (updXl s f).sh = s.sh := rfl
@[simp] theorem updXl_hp0 (s : State) (f : Xlate → Xlate) : (updXl s f).hp0 = s.hp0 := rfl
@[simp] theorem updXl_hp1 (s : State) (f : Xlate → Xlate) : (updXl s f).hp1 = s.hp1 := rfl
@[simp] theorem updXl_pr (s : State) (f : Xlate → Xlate) : (updXl s f).pr = s.pr := rfl
@[simp] theorem updXl_mg (s : State) (f : Xlate → Xlate) : (updXl s f).mg = s.mg := rfl

/-! ### updHl -/

@[simp] theorem updHl_run (s : State) (f : Health → Health) : (updHl s f).run = s.run := rfl
@[simp] theorem updHl_lw0 (s : State) (f : Health → Health) : (updHl s f).lw0 = s.lw0 := rfl
@[simp] theorem updHl_lw1 (s : State) (f : Health → Health) : (updHl s f).lw1 = s.lw1 := rfl
@[simp] theorem updHl_tq (s : State) (f : Health → Health) : (updHl s f).tq = s.tq := rfl
@[simp] theorem updHl_xl (s : State) (f : Health → Health) : (updHl s f).xl = s.xl := rfl
@[simp] theorem updHl_mem (s : State) (f : Health → Health) : (updHl s f).mem = s.mem := rfl
@[simp] theorem updHl_chu (s : State) (f : Health → Health) : (updHl s f).chu = s.chu := rfl
@[simp] theorem updHl_dsp (s : State) (f : Health → Health) : (updHl s f).dsp = s.dsp := rfl
@[simp] theorem updHl_pwr (s : State) (f : Health → Health) : (updHl s f).pwr = s.pwr := rfl
@[simp] theorem updHl_cores (s : State) (f : Health → Health) : (updHl s f).cores = s.cores := rfl
@[simp] theorem updHl_fw (s : State) (f : Health → Health) : (updHl s f).fw = s.fw := rfl
@[simp] theorem updHl_sh (s : State) (f : Health → Health) : (updHl s f).sh = s.sh := rfl
@[simp] theorem updHl_hp0 (s : State) (f : Health → Health) : (updHl s f).hp0 = s.hp0 := rfl
@[simp] theorem updHl_hp1 (s : State) (f : Health → Health) : (updHl s f).hp1 = s.hp1 := rfl
@[simp] theorem updHl_pr (s : State) (f : Health → Health) : (updHl s f).pr = s.pr := rfl
@[simp] theorem updHl_mg (s : State) (f : Health → Health) : (updHl s f).mg = s.mg := rfl

/-! ### updField -/

@[simp] theorem updField_run (s : State) (f : Nat) (g : FieldSt → FieldSt) : (updField s f g).run = s.run := rfl
@[simp] theorem updField_lw0 (s : State) (f : Nat) (g : FieldSt → FieldSt) : (updField s f g).lw0 = s.lw0 := rfl
@[simp] theorem updField_lw1 (s : State) (f : Nat) (g : FieldSt → FieldSt) : (updField s f g).lw1 = s.lw1 := rfl
@[simp] theorem updField_tq (s : State) (f : Nat) (g : FieldSt → FieldSt) : (updField s f g).tq = s.tq := rfl
@[simp] theorem updField_xl (s : State) (f : Nat) (g : FieldSt → FieldSt) : (updField s f g).xl = s.xl := rfl
@[simp] theorem updField_mem (s : State) (f : Nat) (g : FieldSt → FieldSt) : (updField s f g).mem = s.mem := rfl
@[simp] theorem updField_chu (s : State) (f : Nat) (g : FieldSt → FieldSt) : (updField s f g).chu = s.chu := rfl
@[simp] theorem updField_dsp (s : State) (f : Nat) (g : FieldSt → FieldSt) : (updField s f g).dsp = s.dsp := rfl
@[simp] theorem updField_pwr (s : State) (f : Nat) (g : FieldSt → FieldSt) : (updField s f g).pwr = s.pwr := rfl
@[simp] theorem updField_cores (s : State) (f : Nat) (g : FieldSt → FieldSt) : (updField s f g).cores = s.cores := rfl
@[simp] theorem updField_fw (s : State) (f : Nat) (g : FieldSt → FieldSt) : (updField s f g).fw = s.fw := rfl
@[simp] theorem updField_sh (s : State) (f : Nat) (g : FieldSt → FieldSt) : (updField s f g).sh = s.sh := rfl
@[simp] theorem updField_hp0 (s : State) (f : Nat) (g : FieldSt → FieldSt) : (updField s f g).hp0 = s.hp0 := rfl
@[simp] theorem updField_hp1 (s : State) (f : Nat) (g : FieldSt → FieldSt) : (updField s f g).hp1 = s.hp1 := rfl
@[simp] theorem updField_pr (s : State) (f : Nat) (g : FieldSt → FieldSt) : (updField s f g).pr = s.pr := rfl
@[simp] theorem updField_mg (s : State) (f : Nat) (g : FieldSt → FieldSt) : (updField s f g).mg = s.mg := rfl
@[simp] theorem updField_hl_autoByp (s : State) (f : Nat) (g : FieldSt → FieldSt) : (updField s f g).hl.autoByp = s.hl.autoByp := rfl
@[simp] theorem updField_hl_autoBin (s : State) (f : Nat) (g : FieldSt → FieldSt) : (updField s f g).hl.autoBin = s.hl.autoBin := rfl
@[simp] theorem updField_hl_test (s : State) (f : Nat) (g : FieldSt → FieldSt) : (updField s f g).hl.test = s.hl.test := rfl
@[simp] theorem updField_hl_seq (s : State) (f : Nat) (g : FieldSt → FieldSt) : (updField s f g).hl.seq = s.hl.seq := rfl
@[simp] theorem updField_hl_log (s : State) (f : Nat) (g : FieldSt → FieldSt) : (updField s f g).hl.log = s.hl.log := rfl
@[simp] theorem updField_hl_badSel (s : State) (f : Nat) (g : FieldSt → FieldSt) : (updField s f g).hl.badSel = s.hl.badSel := rfl
@[simp] theorem updField_hl_layer2 (s : State) (f : Nat) (g : FieldSt → FieldSt) : (updField s f g).hl.layer2 = s.hl.layer2 := rfl
@[simp] theorem updField_hl_retired (s : State) (f : Nat) (g : FieldSt → FieldSt) : (updField s f g).hl.retired = s.hl.retired := rfl
@[simp] theorem updField_hl_injFired (s : State) (f : Nat) (g : FieldSt → FieldSt) : (updField s f g).hl.injFired = s.hl.injFired := rfl
@[simp] theorem updField_hl_op (s : State) (f : Nat) (g : FieldSt → FieldSt) : (updField s f g).hl.op = s.hl.op := rfl
@[simp] theorem updField_hl_busy (s : State) (f : Nat) (g : FieldSt → FieldSt) : (updField s f g).hl.busy = s.hl.busy := rfl
@[simp] theorem updField_hl_rej (s : State) (f : Nat) (g : FieldSt → FieldSt) : (updField s f g).hl.rej = s.hl.rej := rfl
@[simp] theorem updField_hl_result (s : State) (f : Nat) (g : FieldSt → FieldSt) : (updField s f g).hl.result = s.hl.result := rfl
@[simp] theorem updField_hl_arg (s : State) (f : Nat) (g : FieldSt → FieldSt) : (updField s f g).hl.arg = s.hl.arg := rfl
@[simp] theorem updField_hl_opRun (s : State) (f : Nat) (g : FieldSt → FieldSt) : (updField s f g).hl.opRun = s.hl.opRun := rfl
@[simp] theorem updField_hl_argRun (s : State) (f : Nat) (g : FieldSt → FieldSt) : (updField s f g).hl.argRun = s.hl.argRun := rfl
@[simp] theorem updField_hl_ceThr (s : State) (f : Nat) (g : FieldSt → FieldSt) : (updField s f g).hl.ceThr = s.hl.ceThr := rfl
@[simp] theorem updField_hl_sel (s : State) (f : Nat) (g : FieldSt → FieldSt) : (updField s f g).hl.sel = s.hl.sel := rfl
@[simp] theorem updField_hl_cnode (s : State) (f : Nat) (g : FieldSt → FieldSt) : (updField s f g).hl.cnode = s.hl.cnode := rfl
@[simp] theorem updField_hl_fieldCounts (s : State) (f : Nat) (g : FieldSt → FieldSt) : (updField s f g).hl.fieldCounts = s.hl.fieldCounts := rfl
@[simp] theorem updField_hl_devCounts (s : State) (f : Nat) (g : FieldSt → FieldSt) : (updField s f g).hl.devCounts = s.hl.devCounts := rfl
@[simp] theorem updField_hl_bankCounts (s : State) (f : Nat) (g : FieldSt → FieldSt) : (updField s f g).hl.bankCounts = s.hl.bankCounts := rfl
@[simp] theorem updField_hl_unitCounts (s : State) (f : Nat) (g : FieldSt → FieldSt) : (updField s f g).hl.unitCounts = s.hl.unitCounts := rfl
@[simp] theorem updField_hl_layerCounts (s : State) (f : Nat) (g : FieldSt → FieldSt) : (updField s f g).hl.layerCounts = s.hl.layerCounts := rfl
@[simp] theorem updField_hl_inj (s : State) (f : Nat) (g : FieldSt → FieldSt) : (updField s f g).hl.inj = s.hl.inj := rfl
@[simp] theorem updField_hl_wait (s : State) (f : Nat) (g : FieldSt → FieldSt) : (updField s f g).hl.wait = s.hl.wait := rfl

/-! ### updLw -/

@[simp] theorem updLw_run (s : State) (port : Fin 2) (f : LaunchWin → LaunchWin) : (updLw s port f).run = s.run := by unfold updLw; split <;> rfl
@[simp] theorem updLw_tq (s : State) (port : Fin 2) (f : LaunchWin → LaunchWin) : (updLw s port f).tq = s.tq := by unfold updLw; split <;> rfl
@[simp] theorem updLw_xl (s : State) (port : Fin 2) (f : LaunchWin → LaunchWin) : (updLw s port f).xl = s.xl := by unfold updLw; split <;> rfl
@[simp] theorem updLw_mem (s : State) (port : Fin 2) (f : LaunchWin → LaunchWin) : (updLw s port f).mem = s.mem := by unfold updLw; split <;> rfl
@[simp] theorem updLw_chu (s : State) (port : Fin 2) (f : LaunchWin → LaunchWin) : (updLw s port f).chu = s.chu := by unfold updLw; split <;> rfl
@[simp] theorem updLw_dsp (s : State) (port : Fin 2) (f : LaunchWin → LaunchWin) : (updLw s port f).dsp = s.dsp := by unfold updLw; split <;> rfl
@[simp] theorem updLw_pwr (s : State) (port : Fin 2) (f : LaunchWin → LaunchWin) : (updLw s port f).pwr = s.pwr := by unfold updLw; split <;> rfl
@[simp] theorem updLw_cores (s : State) (port : Fin 2) (f : LaunchWin → LaunchWin) : (updLw s port f).cores = s.cores := by unfold updLw; split <;> rfl
@[simp] theorem updLw_fw (s : State) (port : Fin 2) (f : LaunchWin → LaunchWin) : (updLw s port f).fw = s.fw := by unfold updLw; split <;> rfl
@[simp] theorem updLw_hl (s : State) (port : Fin 2) (f : LaunchWin → LaunchWin) : (updLw s port f).hl = s.hl := by unfold updLw; split <;> rfl
@[simp] theorem updLw_sh (s : State) (port : Fin 2) (f : LaunchWin → LaunchWin) : (updLw s port f).sh = s.sh := by unfold updLw; split <;> rfl
@[simp] theorem updLw_hp0 (s : State) (port : Fin 2) (f : LaunchWin → LaunchWin) : (updLw s port f).hp0 = s.hp0 := by unfold updLw; split <;> rfl
@[simp] theorem updLw_hp1 (s : State) (port : Fin 2) (f : LaunchWin → LaunchWin) : (updLw s port f).hp1 = s.hp1 := by unfold updLw; split <;> rfl
@[simp] theorem updLw_pr (s : State) (port : Fin 2) (f : LaunchWin → LaunchWin) : (updLw s port f).pr = s.pr := by unfold updLw; split <;> rfl
@[simp] theorem updLw_mg (s : State) (port : Fin 2) (f : LaunchWin → LaunchWin) : (updLw s port f).mg = s.mg := by unfold updLw; split <;> rfl

/-! ### updHp -/

@[simp] theorem updHp_run (s : State) (port : Fin 2) (f : HostPort → HostPort) : (updHp s port f).run = s.run := by unfold updHp; split <;> rfl
@[simp] theorem updHp_lw0 (s : State) (port : Fin 2) (f : HostPort → HostPort) : (updHp s port f).lw0 = s.lw0 := by unfold updHp; split <;> rfl
@[simp] theorem updHp_lw1 (s : State) (port : Fin 2) (f : HostPort → HostPort) : (updHp s port f).lw1 = s.lw1 := by unfold updHp; split <;> rfl
@[simp] theorem updHp_tq (s : State) (port : Fin 2) (f : HostPort → HostPort) : (updHp s port f).tq = s.tq := by unfold updHp; split <;> rfl
@[simp] theorem updHp_xl (s : State) (port : Fin 2) (f : HostPort → HostPort) : (updHp s port f).xl = s.xl := by unfold updHp; split <;> rfl
@[simp] theorem updHp_mem (s : State) (port : Fin 2) (f : HostPort → HostPort) : (updHp s port f).mem = s.mem := by unfold updHp; split <;> rfl
@[simp] theorem updHp_chu (s : State) (port : Fin 2) (f : HostPort → HostPort) : (updHp s port f).chu = s.chu := by unfold updHp; split <;> rfl
@[simp] theorem updHp_dsp (s : State) (port : Fin 2) (f : HostPort → HostPort) : (updHp s port f).dsp = s.dsp := by unfold updHp; split <;> rfl
@[simp] theorem updHp_pwr (s : State) (port : Fin 2) (f : HostPort → HostPort) : (updHp s port f).pwr = s.pwr := by unfold updHp; split <;> rfl
@[simp] theorem updHp_cores (s : State) (port : Fin 2) (f : HostPort → HostPort) : (updHp s port f).cores = s.cores := by unfold updHp; split <;> rfl
@[simp] theorem updHp_fw (s : State) (port : Fin 2) (f : HostPort → HostPort) : (updHp s port f).fw = s.fw := by unfold updHp; split <;> rfl
@[simp] theorem updHp_hl (s : State) (port : Fin 2) (f : HostPort → HostPort) : (updHp s port f).hl = s.hl := by unfold updHp; split <;> rfl
@[simp] theorem updHp_sh (s : State) (port : Fin 2) (f : HostPort → HostPort) : (updHp s port f).sh = s.sh := by unfold updHp; split <;> rfl
@[simp] theorem updHp_pr (s : State) (port : Fin 2) (f : HostPort → HostPort) : (updHp s port f).pr = s.pr := by unfold updHp; split <;> rfl
@[simp] theorem updHp_mg (s : State) (port : Fin 2) (f : HostPort → HostPort) : (updHp s port f).mg = s.mg := by unfold updHp; split <;> rfl

/-! ### setFrame -/

@[simp] theorem setFrame_run (s : State) (f : Nat) (v : Frame) : (setFrame s f v).run = s.run := rfl
@[simp] theorem setFrame_lw0 (s : State) (f : Nat) (v : Frame) : (setFrame s f v).lw0 = s.lw0 := rfl
@[simp] theorem setFrame_lw1 (s : State) (f : Nat) (v : Frame) : (setFrame s f v).lw1 = s.lw1 := rfl
@[simp] theorem setFrame_tq (s : State) (f : Nat) (v : Frame) : (setFrame s f v).tq = s.tq := rfl
@[simp] theorem setFrame_xl (s : State) (f : Nat) (v : Frame) : (setFrame s f v).xl = s.xl := rfl
@[simp] theorem setFrame_chu (s : State) (f : Nat) (v : Frame) : (setFrame s f v).chu = s.chu := rfl
@[simp] theorem setFrame_dsp (s : State) (f : Nat) (v : Frame) : (setFrame s f v).dsp = s.dsp := rfl
@[simp] theorem setFrame_pwr (s : State) (f : Nat) (v : Frame) : (setFrame s f v).pwr = s.pwr := rfl
@[simp] theorem setFrame_cores (s : State) (f : Nat) (v : Frame) : (setFrame s f v).cores = s.cores := rfl
@[simp] theorem setFrame_fw (s : State) (f : Nat) (v : Frame) : (setFrame s f v).fw = s.fw := rfl
@[simp] theorem setFrame_hl (s : State) (f : Nat) (v : Frame) : (setFrame s f v).hl = s.hl := rfl
@[simp] theorem setFrame_sh (s : State) (f : Nat) (v : Frame) : (setFrame s f v).sh = s.sh := rfl
@[simp] theorem setFrame_hp0 (s : State) (f : Nat) (v : Frame) : (setFrame s f v).hp0 = s.hp0 := rfl
@[simp] theorem setFrame_hp1 (s : State) (f : Nat) (v : Frame) : (setFrame s f v).hp1 = s.hp1 := rfl
@[simp] theorem setFrame_pr (s : State) (f : Nat) (v : Frame) : (setFrame s f v).pr = s.pr := rfl
@[simp] theorem setFrame_mg (s : State) (f : Nat) (v : Frame) : (setFrame s f v).mg = s.mg := rfl
@[simp] theorem setFrame_mem_hbm (s : State) (f : Nat) (v : Frame) : (setFrame s f v).mem.hbm = s.mem.hbm := rfl
@[simp] theorem setFrame_mem_host0 (s : State) (f : Nat) (v : Frame) : (setFrame s f v).mem.host0 = s.mem.host0 := rfl
@[simp] theorem setFrame_mem_host1 (s : State) (f : Nat) (v : Frame) : (setFrame s f v).mem.host1 = s.mem.host1 := rfl
@[simp] theorem setFrame_mem_ways (s : State) (f : Nat) (v : Frame) : (setFrame s f v).mem.ways = s.mem.ways := rfl
@[simp] theorem setFrame_mem_dirty (s : State) (f : Nat) (v : Frame) : (setFrame s f v).mem.dirty = s.mem.dirty := rfl
@[simp] theorem setFrame_mem_buffers (s : State) (f : Nat) (v : Frame) : (setFrame s f v).mem.buffers = s.mem.buffers := rfl
@[simp] theorem setFrame_mem_locked (s : State) (f : Nat) (v : Frame) : (setFrame s f v).mem.locked = s.mem.locked := rfl
@[simp] theorem setFrame_mem_marks (s : State) (f : Nat) (v : Frame) : (setFrame s f v).mem.marks = s.mem.marks := rfl
@[simp] theorem setFrame_mem_soft (s : State) (f : Nat) (v : Frame) : (setFrame s f v).mem.soft = s.mem.soft := rfl
@[simp] theorem setFrame_mem_unitsOff (s : State) (f : Nat) (v : Frame) : (setFrame s f v).mem.unitsOff = s.mem.unitsOff := rfl
@[simp] theorem setFrame_mem_stacksOff (s : State) (f : Nat) (v : Frame) : (setFrame s f v).mem.stacksOff = s.mem.stacksOff := rfl
@[simp] theorem setFrame_mem_stacksLost (s : State) (f : Nat) (v : Frame) : (setFrame s f v).mem.stacksLost = s.mem.stacksLost := rfl
@[simp] theorem setFrame_mem_tables (s : State) (f : Nat) (v : Frame) : (setFrame s f v).mem.tables = s.mem.tables := rfl
@[simp] theorem setFrame_mem_waits (s : State) (f : Nat) (v : Frame) : (setFrame s f v).mem.waits = s.mem.waits := rfl
@[simp] theorem setFrame_mem_waitId (s : State) (f : Nat) (v : Frame) : (setFrame s f v).mem.waitId = s.mem.waitId := rfl

/-! ### setChan -/

@[simp] theorem setChan_run (s : State) (k : Nat) (c : Chan) : (setChan s k c).run = s.run := by unfold setChan; split <;> simp [dropReports]
@[simp] theorem setChan_lw0 (s : State) (k : Nat) (c : Chan) : (setChan s k c).lw0 = s.lw0 := by unfold setChan; split <;> simp [dropReports]
@[simp] theorem setChan_lw1 (s : State) (k : Nat) (c : Chan) : (setChan s k c).lw1 = s.lw1 := by unfold setChan; split <;> simp [dropReports]
@[simp] theorem setChan_tq (s : State) (k : Nat) (c : Chan) : (setChan s k c).tq = s.tq := by unfold setChan; split <;> simp [dropReports]
@[simp] theorem setChan_xl (s : State) (k : Nat) (c : Chan) : (setChan s k c).xl = s.xl := by unfold setChan; split <;> simp [dropReports]
@[simp] theorem setChan_mem (s : State) (k : Nat) (c : Chan) : (setChan s k c).mem = s.mem := by unfold setChan; split <;> simp [dropReports]
@[simp] theorem setChan_dsp (s : State) (k : Nat) (c : Chan) : (setChan s k c).dsp = s.dsp := by unfold setChan; split <;> simp [dropReports]
@[simp] theorem setChan_pwr (s : State) (k : Nat) (c : Chan) : (setChan s k c).pwr = s.pwr := by unfold setChan; split <;> simp [dropReports]
@[simp] theorem setChan_cores (s : State) (k : Nat) (c : Chan) : (setChan s k c).cores = s.cores := by unfold setChan; split <;> simp [dropReports]
@[simp] theorem setChan_fw (s : State) (k : Nat) (c : Chan) : (setChan s k c).fw = s.fw := by unfold setChan; split <;> simp [dropReports]
@[simp] theorem setChan_hl (s : State) (k : Nat) (c : Chan) : (setChan s k c).hl = s.hl := by unfold setChan; split <;> simp [dropReports]
@[simp] theorem setChan_sh (s : State) (k : Nat) (c : Chan) : (setChan s k c).sh = s.sh := by unfold setChan; split <;> simp [dropReports]
@[simp] theorem setChan_hp0 (s : State) (k : Nat) (c : Chan) : (setChan s k c).hp0 = s.hp0 := by unfold setChan; split <;> simp [dropReports]
@[simp] theorem setChan_hp1 (s : State) (k : Nat) (c : Chan) : (setChan s k c).hp1 = s.hp1 := by unfold setChan; split <;> simp [dropReports]
@[simp] theorem setChan_pr (s : State) (k : Nat) (c : Chan) : (setChan s k c).pr = s.pr := by unfold setChan; split <;> simp [dropReports]
@[simp] theorem setChan_mg (s : State) (k : Nat) (c : Chan) : (setChan s k c).mg = s.mg := by unfold setChan; split <;> simp [dropReports]
@[simp] theorem setChan_chu_base (s : State) (k : Nat) (c : Chan) : (setChan s k c).chu.base = s.chu.base := by unfold setChan; split <;> simp [dropReports]
@[simp] theorem setChan_chu_en (s : State) (k : Nat) (c : Chan) : (setChan s k c).chu.en = s.chu.en := by unfold setChan; split <;> simp [dropReports]
@[simp] theorem setChan_chu_dint (s : State) (k : Nat) (c : Chan) : (setChan s k c).chu.dint = s.chu.dint := by unfold setChan; split <;> simp [dropReports]
@[simp] theorem setChan_chu_opva (s : State) (k : Nat) (c : Chan) : (setChan s k c).chu.opva = s.chu.opva := by unfold setChan; split <;> simp [dropReports]
@[simp] theorem setChan_chu_op (s : State) (k : Nat) (c : Chan) : (setChan s k c).chu.op = s.chu.op := by unfold setChan; split <;> simp [dropReports]
@[simp] theorem setChan_chu_chid (s : State) (k : Nat) (c : Chan) : (setChan s k c).chu.chid = s.chu.chid := by unfold setChan; split <;> simp [dropReports]
@[simp] theorem setChan_chu_job (s : State) (k : Nat) (c : Chan) : (setChan s k c).chu.job = s.chu.job := by unfold setChan; split <;> simp [dropReports]
@[simp] theorem setChan_chu_busy (s : State) (k : Nat) (c : Chan) : (setChan s k c).chu.busy = s.chu.busy := by unfold setChan; split <;> simp [dropReports]
@[simp] theorem setChan_chu_rej (s : State) (k : Nat) (c : Chan) : (setChan s k c).chu.rej = s.chu.rej := by unfold setChan; split <;> simp [dropReports]
@[simp] theorem setChan_chu_result (s : State) (k : Nat) (c : Chan) : (setChan s k c).chu.result = s.chu.result := by unfold setChan; split <;> simp [dropReports]
@[simp] theorem setChan_chu_grows (s : State) (k : Nat) (c : Chan) : (setChan s k c).chu.grows = s.chu.grows := by unfold setChan; split <;> simp [dropReports]
@[simp] theorem setChan_chu_deadlk (s : State) (k : Nat) (c : Chan) : (setChan s k c).chu.deadlk = s.chu.deadlk := by unfold setChan; split <;> simp [dropReports]
@[simp] theorem setChan_chu_cfgErr (s : State) (k : Nat) (c : Chan) : (setChan s k c).chu.cfgErr = s.chu.cfgErr := by unfold setChan; split <;> simp [dropReports]
@[simp] theorem setChan_chu_failed (s : State) (k : Nat) (c : Chan) : (setChan s k c).chu.failed = s.chu.failed := by unfold setChan; split <;> simp [dropReports]
@[simp] theorem setChan_chu_loadErr (s : State) (k : Nat) (c : Chan) : (setChan s k c).chu.loadErr = s.chu.loadErr := by unfold setChan; split <;> simp [dropReports]
@[simp] theorem setChan_chu_pool (s : State) (k : Nat) (c : Chan) : (setChan s k c).chu.pool = s.chu.pool := by unfold setChan; split <;> simp [dropReports]
@[simp] theorem setChan_chu_tags (s : State) (k : Nat) (c : Chan) : (setChan s k c).chu.tags = s.chu.tags := by unfold setChan; split <;> simp [dropReports]
@[simp] theorem setChan_chu_lastProbe (s : State) (k : Nat) (c : Chan) : (setChan s k c).chu.lastProbe = s.chu.lastProbe := by unfold setChan; split <;> simp [dropReports]
@[simp] theorem setChan_chu_probes (s : State) (k : Nat) (c : Chan) : (setChan s k c).chu.probes = s.chu.probes := by unfold setChan; split <;> simp [dropReports]

/-! ### clearSoft -/

@[simp] theorem clearSoft_run (s : State) (k : Nat) : (clearSoft s k).run = s.run := rfl
@[simp] theorem clearSoft_lw0 (s : State) (k : Nat) : (clearSoft s k).lw0 = s.lw0 := rfl
@[simp] theorem clearSoft_lw1 (s : State) (k : Nat) : (clearSoft s k).lw1 = s.lw1 := rfl
@[simp] theorem clearSoft_tq (s : State) (k : Nat) : (clearSoft s k).tq = s.tq := rfl
@[simp] theorem clearSoft_xl (s : State) (k : Nat) : (clearSoft s k).xl = s.xl := rfl
@[simp] theorem clearSoft_chu (s : State) (k : Nat) : (clearSoft s k).chu = s.chu := rfl
@[simp] theorem clearSoft_dsp (s : State) (k : Nat) : (clearSoft s k).dsp = s.dsp := rfl
@[simp] theorem clearSoft_pwr (s : State) (k : Nat) : (clearSoft s k).pwr = s.pwr := rfl
@[simp] theorem clearSoft_cores (s : State) (k : Nat) : (clearSoft s k).cores = s.cores := rfl
@[simp] theorem clearSoft_fw (s : State) (k : Nat) : (clearSoft s k).fw = s.fw := rfl
@[simp] theorem clearSoft_hl (s : State) (k : Nat) : (clearSoft s k).hl = s.hl := rfl
@[simp] theorem clearSoft_sh (s : State) (k : Nat) : (clearSoft s k).sh = s.sh := rfl
@[simp] theorem clearSoft_hp0 (s : State) (k : Nat) : (clearSoft s k).hp0 = s.hp0 := rfl
@[simp] theorem clearSoft_hp1 (s : State) (k : Nat) : (clearSoft s k).hp1 = s.hp1 := rfl
@[simp] theorem clearSoft_pr (s : State) (k : Nat) : (clearSoft s k).pr = s.pr := rfl
@[simp] theorem clearSoft_mg (s : State) (k : Nat) : (clearSoft s k).mg = s.mg := rfl
@[simp] theorem clearSoft_mem_hbm (s : State) (k : Nat) : (clearSoft s k).mem.hbm = s.mem.hbm := rfl
@[simp] theorem clearSoft_mem_host0 (s : State) (k : Nat) : (clearSoft s k).mem.host0 = s.mem.host0 := rfl
@[simp] theorem clearSoft_mem_host1 (s : State) (k : Nat) : (clearSoft s k).mem.host1 = s.mem.host1 := rfl
@[simp] theorem clearSoft_mem_ways (s : State) (k : Nat) : (clearSoft s k).mem.ways = s.mem.ways := rfl
@[simp] theorem clearSoft_mem_dirty (s : State) (k : Nat) : (clearSoft s k).mem.dirty = s.mem.dirty := rfl
@[simp] theorem clearSoft_mem_buffers (s : State) (k : Nat) : (clearSoft s k).mem.buffers = s.mem.buffers := rfl
@[simp] theorem clearSoft_mem_frames (s : State) (k : Nat) : (clearSoft s k).mem.frames = s.mem.frames := rfl
@[simp] theorem clearSoft_mem_locked (s : State) (k : Nat) : (clearSoft s k).mem.locked = s.mem.locked := rfl
@[simp] theorem clearSoft_mem_marks (s : State) (k : Nat) : (clearSoft s k).mem.marks = s.mem.marks := rfl
@[simp] theorem clearSoft_mem_unitsOff (s : State) (k : Nat) : (clearSoft s k).mem.unitsOff = s.mem.unitsOff := rfl
@[simp] theorem clearSoft_mem_stacksOff (s : State) (k : Nat) : (clearSoft s k).mem.stacksOff = s.mem.stacksOff := rfl
@[simp] theorem clearSoft_mem_stacksLost (s : State) (k : Nat) : (clearSoft s k).mem.stacksLost = s.mem.stacksLost := rfl
@[simp] theorem clearSoft_mem_tables (s : State) (k : Nat) : (clearSoft s k).mem.tables = s.mem.tables := rfl
@[simp] theorem clearSoft_mem_waits (s : State) (k : Nat) : (clearSoft s k).mem.waits = s.mem.waits := rfl
@[simp] theorem clearSoft_mem_waitId (s : State) (k : Nat) : (clearSoft s k).mem.waitId = s.mem.waitId := rfl

/-! ### What the updates write -/

@[simp] theorem updNode_dsp_nodes (s : State) (id : Nat) (f : Node → Node) : (updNode s id f).dsp.nodes = s.dsp.nodes.map (fun n => if n.id = id then f n else n) := rfl
@[simp] theorem updCore_cores (s : State) (c : Nat) (f : Core → Core) : (updCore s c f).cores = modNth f s.cores c := rfl
@[simp] theorem takeFree_free (s : State) : (takeFree s).2.run.free = s.run.free + 1 := rfl
@[simp] theorem takeFree_fst (s : State) : (takeFree s).1 = s.run.free := rfl
@[simp] theorem nextJob_agenda (s : State) (j : Job) : (nextJob s j).run.agenda = j :: s.run.agenda := rfl
@[simp] theorem queueJob_agenda (s : State) (j : Job) : (queueJob s j).run.agenda = s.run.agenda ++ [j] := rfl
@[simp] theorem toHost_toHost (s : State) (o : HostOut) : (toHost s o).run.toHost = s.run.toHost ++ [o] := rfl
@[simp] theorem toPeer_toPeer (s : State) (o : PeerOut) : (toPeer s o).run.toPeer = s.run.toPeer ++ [o] := rfl
@[simp] theorem postRec_posters (s : State) (r : TrapRec) : (postRec s r).tq.posters = s.tq.posters ++ [r] := rfl
@[simp] theorem enterCmd_cmds (s : State) (x : Cmd) : (enterCmd s x).sh.cmds = s.sh.cmds ++ [x] := rfl
@[simp] theorem enterCmd_ticket (s : State) (x : Cmd) : (enterCmd s x).sh.ticket = s.sh.ticket + 1 := rfl
@[simp] theorem putRelays_relays (s : State) (l : List Relay) : (putRelays s l).sh.relays = l := rfl
@[simp] theorem updPeer_pr (s : State) (p : Nat) (f : PeerPort → PeerPort) : (updPeer s p f).pr = modNth f s.pr p := rfl
@[simp] theorem updMg_mg (s : State) (f : Mgmt → Mgmt) : (updMg s f).mg = f s.mg := rfl
@[simp] theorem updChu_chu (s : State) (f : ChanUnit → ChanUnit) : (updChu s f).chu = f s.chu := rfl
@[simp] theorem updDsp_dsp (s : State) (f : Dispatcher → Dispatcher) : (updDsp s f).dsp = f s.dsp := rfl
@[simp] theorem updXl_xl (s : State) (f : Xlate → Xlate) : (updXl s f).xl = f s.xl := rfl
@[simp] theorem updHl_hl (s : State) (f : Health → Health) : (updHl s f).hl = f s.hl := rfl
@[simp] theorem updField_fields (s : State) (f : Nat) (g : FieldSt → FieldSt) : (updField s f g).hl.fields = modNth g s.hl.fields f := rfl
@[simp] theorem setFrame_frames (s : State) (f : Nat) (v : Frame) : (setFrame s f v).mem.frames = mapSet Frame.init s.mem.frames f v := rfl

end Sys2Proof.Machine
end

