-- ==== Sys2Proof/Laws/Store.lean ====
section
/-! SUPPORT. The sparse maps and the byte stores: what a read gives after a write, and that every operation keeps the
canonical form. -/

namespace Sys2Proof.Machine

/-! ### The form, said with lists -/

theorem mapWfFrom_iff {α : Type} [DecidableEq α] (d : α) : ∀ (m : List (Nat × α)) (lo : Option Nat),
    mapWfFrom d lo m = true ↔
      (∀ l, lo = some l → ∀ p ∈ m, l < p.1) ∧ m.Pairwise (fun a b => a.1 < b.1) ∧ ∀ p ∈ m, p.2 ≠ d
  | [], lo => by simp [mapWfFrom]
  | (k, v) :: m, lo => by
    simp only [mapWfFrom, Bool.and_eq_true, decide_eq_true_eq, mapWfFrom_iff d m (some k), List.pairwise_cons,
      List.forall_mem_cons, Option.some.injEq, forall_eq']
    cases lo with
    | none => simp; tauto
    | some l =>
      simp only [decide_eq_true_eq, Option.some.injEq, forall_eq']
      constructor
      · rintro ⟨⟨h1, h2⟩, h3, h4, h5⟩
        exact ⟨⟨h1, fun p hp => Nat.lt_trans h1 (h3 p hp)⟩, ⟨h3, h4⟩, h2, h5⟩
      · rintro ⟨⟨h1, _⟩, ⟨h3, h4⟩, h2, h5⟩
        exact ⟨⟨h1, h2⟩, h3, h4, h5⟩

/-- The canonical form: keys strictly rising, no default listed. -/
theorem mapWf_iff {α : Type} [DecidableEq α] (d : α) (m : List (Nat × α)) :
    mapWf d m = true ↔ m.Pairwise (fun a b => a.1 < b.1) ∧ ∀ p ∈ m, p.2 ≠ d := by
  simp [mapWf, mapWfFrom_iff]

theorem mapErase_sublist {α : Type} : ∀ (m : List (Nat × α)) (k : Nat), (mapErase m k).Sublist m
  | [], _ => .slnil
  | (k', v) :: m, k => by
    simp only [mapErase]
    split
    · exact List.sublist_cons_self _ _
    · split
      · exact List.Sublist.refl _
      · exact (mapErase_sublist m k).cons_cons _

theorem mem_mapPut {α : Type} : ∀ (m : List (Nat × α)) (k : Nat) (v : α) (p : Nat × α), p ∈ mapPut m k v → p = (k, v) ∨ p ∈ m
  | [], k, v, p, h => by simpa [mapPut] using h
  | (k', v') :: m, k, v, p, h => by
    simp only [mapPut] at h
    split at h
    · simpa using h
    · split at h
      · rcases List.mem_cons.1 h with h | h <;> simp [h]
      · rcases List.mem_cons.1 h with h | h
        · simp [h]
        · rcases mem_mapPut m k v p h with h | h <;> simp [h]

theorem mapPut_pairwise {α : Type} : ∀ (m : List (Nat × α)) (k : Nat) (v : α), m.Pairwise (fun a b => a.1 < b.1) →
    (mapPut m k v).Pairwise (fun a b => a.1 < b.1)
  | [], k, v, _ => by simp [mapPut]
  | (k', v') :: m, k, v, h => by
    obtain ⟨h1, h2⟩ := List.pairwise_cons.1 h
    simp only [mapPut]
    split
    · rename_i hk
      refine List.pairwise_cons.2 ⟨fun p hp => ?_, h⟩
      rcases List.mem_cons.1 hp with rfl | hp
      · exact hk
      · exact Nat.lt_trans hk (h1 p hp)
    · split
      · rename_i hk; subst hk; exact List.pairwise_cons.2 ⟨h1, h2⟩
      · refine List.pairwise_cons.2 ⟨fun p hp => ?_, mapPut_pairwise m k v h2⟩
        rcases mem_mapPut m k v p hp with rfl | hp
        · simp only; omega
        · exact h1 p hp

/-- A removal keeps the form. -/
theorem mapErase_wf {α : Type} [DecidableEq α] {d : α} {m : List (Nat × α)} (k : Nat) (h : mapWf d m = true) :
    mapWf d (mapErase m k) = true := by
  rw [mapWf_iff] at *
  exact ⟨h.1.sublist (mapErase_sublist m k), fun p hp => h.2 p ((mapErase_sublist m k).subset hp)⟩

/-- A write of a value other than the default keeps the form. -/
theorem mapPut_wf {α : Type} [DecidableEq α] {d : α} {m : List (Nat × α)} {k : Nat} {v : α} (hv : v ≠ d)
    (h : mapWf d m = true) : mapWf d (mapPut m k v) = true := by
  rw [mapWf_iff] at *
  refine ⟨mapPut_pairwise m k v h.1, fun p hp => ?_⟩
  rcases mem_mapPut m k v p hp with rfl | hp
  · exact hv
  · exact h.2 p hp

/-- A write keeps the form: the default is never listed. -/
theorem mapSet_wf {α : Type} [DecidableEq α] {d : α} {m : List (Nat × α)} (k : Nat) (v : α) (h : mapWf d m = true) :
    mapWf d (mapSet d m k v) = true := by
  unfold mapSet
  split
  · exact mapErase_wf k h
  · exact mapPut_wf ‹_› h

/-! ### Reads after writes -/

theorem mapGet_mapPut_same {α : Type} (d v : α) : ∀ (m : List (Nat × α)) (k : Nat), mapGet d (mapPut m k v) k = v
  | [], k => by simp [mapPut, mapGet]
  | (k', v') :: m, k => by
    simp only [mapPut]
    split
    · simp [mapGet]
    · split
      · simp [mapGet]
      · rw [mapGet, if_neg (by omega), if_neg (by omega)]; exact mapGet_mapPut_same d v m k

theorem mapFind_mapPut_same {α : Type} (v : α) : ∀ (m : List (Nat × α)) (k : Nat), mapFind (mapPut m k v) k = some v
  | [], k => by simp [mapPut, mapFind]
  | (k', v') :: m, k => by
    simp only [mapPut]
    split
    · simp [mapFind]
    · split
      · simp [mapFind]
      · rw [mapFind, if_neg (by omega), if_neg (by omega)]; exact mapFind_mapPut_same v m k

theorem mapFind_mapPut_other {α : Type} (v : α) : ∀ (m : List (Nat × α)) (k j : Nat), j ≠ k →
    mapFind (mapPut m k v) j = mapFind m j
  | [], k, j, h => by
    simp only [mapPut, mapFind]
    split
    · omega
    · simp
  | (k', v') :: m, k, j, h => by
    simp only [mapPut]
    split
    · by_cases h1 : j < k
      · rw [mapFind, if_neg (by omega), if_pos h1, mapFind, if_neg (by omega), if_pos (by omega)]
      · rw [mapFind, if_neg (by omega), if_neg h1]
    · split
      · rename_i hk; subst hk; simp only [mapFind, if_neg (Ne.symm h)]
      · simp only [mapFind, mapFind_mapPut_other v m k j h]

theorem mapGet_mapPut_other {α : Type} (d v : α) : ∀ (m : List (Nat × α)) (k j : Nat), j ≠ k →
    mapGet d (mapPut m k v) j = mapGet d m j
  | [], k, j, h => by
    simp only [mapPut, mapGet]
    split
    · omega
    · simp
  | (k', v') :: m, k, j, h => by
    simp only [mapPut]
    split
    · by_cases h1 : j < k
      · rw [mapGet, if_neg (by omega), if_pos h1, mapGet, if_neg (by omega), if_pos (by omega)]
      · rw [mapGet, if_neg (by omega), if_neg h1]
    · split
      · rename_i hk; subst hk; simp only [mapGet, if_neg (Ne.symm h)]
      · simp only [mapGet, mapGet_mapPut_other d v m k j h]

theorem mapGet_below {α : Type} (d : α) (m : List (Nat × α)) (k : Nat) (h : ∀ p ∈ m, k < p.1) : mapGet d m k = d := by
  cases m with
  | nil => rfl
  | cons p m =>
    have := h p (by simp)
    simp only [mapGet]
    rw [if_neg (by omega), if_pos this]

theorem mapGet_mapErase_same {α : Type} (d : α) : ∀ (m : List (Nat × α)) (k : Nat), m.Pairwise (fun a b => a.1 < b.1) →
    mapGet d (mapErase m k) k = d
  | [], _, _ => rfl
  | (k', v) :: m, k, h => by
    obtain ⟨h1, h2⟩ := List.pairwise_cons.1 h
    simp only [mapErase]
    split
    · rename_i hk; subst hk; exact mapGet_below d m _ h1
    · split
      · rename_i h3 h4; simp only [mapGet]; rw [if_neg h3, if_pos h4]
      · rename_i h3 h4; simp only [mapGet]; rw [if_neg h3, if_neg h4]; exact mapGet_mapErase_same d m k h2

theorem mapGet_mapErase_other {α : Type} (d : α) : ∀ (m : List (Nat × α)) (k j : Nat), m.Pairwise (fun a b => a.1 < b.1) → j ≠ k →
    mapGet d (mapErase m k) j = mapGet d m j
  | [], _, _, _, _ => rfl
  | (k', v) :: m, k, j, h, hj => by
    obtain ⟨h1, h2⟩ := List.pairwise_cons.1 h
    simp only [mapErase]
    split
    · rename_i hk; subst hk
      simp only [mapGet, if_neg (Ne.symm hj)]
      split
      · exact mapGet_below d m j (fun p hp => Nat.lt_trans (by assumption) (h1 p hp))
      · rfl
    · split
      · rfl
      · simp only [mapGet, mapGet_mapErase_other d m k j h2 hj]

/-- A key reads as what was written to it. -/
theorem mapGet_mapSet_same {α : Type} [DecidableEq α] (d v : α) (m : List (Nat × α)) (k : Nat) (h : mapWf d m = true) :
    mapGet d (mapSet d m k v) k = v := by
  unfold mapSet
  split
  · rename_i hv; rw [mapGet_mapErase_same d m k ((mapWf_iff d m).1 h).1, hv]
  · exact mapGet_mapPut_same d v m k

/-- Every other key reads as before. -/
theorem mapGet_mapSet_other {α : Type} [DecidableEq α] (d v : α) (m : List (Nat × α)) (k j : Nat) (h : mapWf d m = true)
    (hj : j ≠ k) : mapGet d (mapSet d m k v) j = mapGet d m j := by
  unfold mapSet
  split
  · exact mapGet_mapErase_other d m k j ((mapWf_iff d m).1 h).1 hj
  · exact mapGet_mapPut_other d v m k j hj

/-! ### Sets -/

theorem setWf_iff : ∀ (l : List Nat), setWf l = true ↔ l.Pairwise (· < ·)
  | [] => by simp [setWf]
  | [_] => by simp [setWf]
  | x :: y :: xs => by
    simp only [setWf, Bool.and_eq_true, decide_eq_true_eq, setWf_iff (y :: xs), List.pairwise_cons, List.forall_mem_cons]
    constructor
    · rintro ⟨h1, h2, h3⟩; exact ⟨⟨h1, fun p hp => Nat.lt_trans h1 (h2 p hp)⟩, h2, h3⟩
    · rintro ⟨⟨h1, _⟩, h2, h3⟩; exact ⟨h1, h2, h3⟩

theorem mem_setInsert : ∀ (l : List Nat) (k x : Nat), x ∈ setInsert l k → x = k ∨ x ∈ l
  | [], k, x, h => by simpa [setInsert] using h
  | y :: l, k, x, h => by
    simp only [setInsert] at h
    split at h
    · simpa using h
    · split at h
      · exact .inr h
      · rcases List.mem_cons.1 h with h | h
        · simp [h]
        · rcases mem_setInsert l k x h with h | h <;> simp [h]

theorem setInsert_wf : ∀ (l : List Nat) (k : Nat), l.Pairwise (· < ·) → (setInsert l k).Pairwise (· < ·)
  | [], k, _ => by simp [setInsert]
  | y :: l, k, h => by
    obtain ⟨h1, h2⟩ := List.pairwise_cons.1 h
    simp only [setInsert]
    split
    · refine List.pairwise_cons.2 ⟨fun p hp => ?_, h⟩
      rcases List.mem_cons.1 hp with rfl | hp
      · assumption
      · exact Nat.lt_trans (by assumption) (h1 p hp)
    · split
      · exact h
      · refine List.pairwise_cons.2 ⟨fun p hp => ?_, setInsert_wf l k h2⟩
        rcases mem_setInsert l k p hp with rfl | hp
        · omega
        · exact h1 p hp

/-! ### Byte stores -/

theorem store_wf_iff (m : Store) : m.wf = true ↔
    (m.cells.Pairwise (fun a b => a.1 < b.1) ∧ ∀ p ∈ m.cells, p.2 ≠ 0) ∧ mapWf (0 : Desc) m.descs = true ∧ m.psn.Pairwise (· < ·) := by
  simp only [Store.wf, Bool.and_eq_true, mapWf_iff (0 : BitVec 8) m.cells, setWf_iff, and_assoc]

theorem empty_wf : Store.empty.wf = true := rfl

/-- A byte written keeps the form. -/
theorem writeByte_wf {m : Store} (a : Nat) (v : Byte) (h : m.wf = true) : (m.writeByte a v).wf = true := by
  simp only [Store.wf, Bool.and_eq_true] at *
  exact ⟨⟨mapSet_wf a v h.1.1, h.1.2⟩, h.2⟩

theorem writeBytes_wf : ∀ (bs : List Byte) (m : Store) (a : Nat), m.wf = true → (m.writeBytes a bs).wf = true
  | [], _, _, h => h
  | _ :: bs, _, a, h => writeBytes_wf bs _ (a + 1) (writeByte_wf a _ h)

/-- A byte reads as written, and every other byte as before. -/
theorem readByte_writeByte {m : Store} (a j : Nat) (v : Byte) (h : m.wf = true) :
    (m.writeByte a v).readByte j = if j = a then v else m.readByte j := by
  have hc : mapWf (0 : BitVec 8) m.cells = true := by simp only [Store.wf, Bool.and_eq_true] at h; exact h.1.1
  simp only [Store.readByte, Store.writeByte]
  split
  · rename_i hj; subst hj; exact mapGet_mapSet_same 0 v m.cells j hc
  · exact mapGet_mapSet_other 0 v m.cells a j hc ‹_›

theorem lineCells_form (lo : Nat) (d : Bits512) :
    (lineCells lo d).Pairwise (fun a b => a.1 < b.1) ∧ ∀ p ∈ lineCells lo d, p.2 ≠ 0 ∧ lo ≤ p.1 ∧ p.1 < lo + 64 := by
  constructor
  · refine List.Pairwise.filter _ (List.pairwise_map.2 ?_)
    exact (List.pairwise_lt_range).imp (fun h => by simpa using h)
  · intro p hp
    simp only [lineCells, List.mem_filter, List.mem_map, List.mem_range] at hp
    obtain ⟨⟨i, hi, rfl⟩, hv⟩ := hp
    exact ⟨by simpa using hv, by simp, by simp only; omega⟩

/-- A block written keeps the form. -/
theorem storeWriteLine_wf {m : Store} (n : Nat) (l : Line) (h : m.wf = true) : (m.writeLine n l).wf = true := by
  rw [store_wf_iff] at *
  obtain ⟨⟨h1, h2⟩, h3, h4⟩ := h
  obtain ⟨f1, f2⟩ := lineCells_form (64 * n) l.data
  refine ⟨⟨?_, ?_⟩, mapSet_wf n l.desc h3, ?_⟩
  · refine List.pairwise_append.2 ⟨List.pairwise_append.2 ⟨h1.filter _, f1, ?_⟩, h1.filter _, ?_⟩
    · intro p hp q hq
      have := (List.mem_filter.1 hp).2
      have := (f2 q hq).2.1
      simp only [decide_eq_true_eq] at *
      omega
    · intro p hp q hq
      have hq' := (List.mem_filter.1 hq).2
      simp only [decide_eq_true_eq] at hq'
      rcases List.mem_append.1 hp with hp | hp
      · have := (List.mem_filter.1 hp).2
        simp only [decide_eq_true_eq] at this
        omega
      · have := (f2 p hp).2.2
        omega
  · intro p hp
    rcases List.mem_append.1 hp with hp | hp
    · rcases List.mem_append.1 hp with hp | hp
      · exact h2 p (List.mem_filter.1 hp).1
      · exact (f2 p hp).1
    · exact h2 p (List.mem_filter.1 hp).1
  · simp only [Store.writeLine]
    split
    · exact setInsert_wf m.psn n h4
    · exact h4.filter _

theorem cellsNat_below (lo : Nat) : ∀ (l m : List Host.Cell), (∀ p ∈ l, p.1 < lo) → cellsNat lo (l ++ m) = cellsNat lo m
  | [], _, _ => rfl
  | p :: l, m, h => by
    simp only [List.cons_append, cellsNat, h p (by simp), if_true]
    exact cellsNat_below lo l m (fun q hq => h q (by simp [hq]))

theorem cellsNat_above (lo : Nat) (l : List Host.Cell) (h : ∀ p ∈ l, lo + 64 ≤ p.1) : cellsNat lo l = 0 := by
  cases l with
  | nil => rfl
  | cons p l =>
    have := h p (by simp)
    simp only [cellsNat]
    rw [if_neg (by omega), if_neg (by omega)]

theorem cellsNat_line (lo v : Nat) (tail : List Host.Cell) (ht : ∀ p ∈ tail, lo + 64 ≤ p.1) : ∀ (n i : Nat), i + n = 64 →
    cellsNat lo (((List.range' i n).map (fun j => ((lo + j, BitVec.ofNat 8 (v / 256 ^ j)) : Host.Cell))).filter (fun c => c.2 != 0) ++ tail)
      = v / 256 ^ i % 256 ^ n * 256 ^ i
  | 0, i, _ => by simp [cellsNat_above lo tail ht, Nat.mod_one]
  | n + 1, i, h => by
    have ih := cellsNat_line lo v tail ht n (i + 1) (by omega)
    have e1 : v / 256 ^ i % 256 ^ (n + 1) = v / 256 ^ i % 256 + 256 * (v / 256 ^ (i + 1) % 256 ^ n) := by
      rw [Nat.pow_succ, Nat.mul_comm (256 ^ n) 256, Nat.mod_mul, Nat.div_div_eq_div_mul, ← Nat.pow_succ]
    have e2 : v / 256 ^ i % 256 ^ (n + 1) * 256 ^ i = v / 256 ^ i % 256 * 256 ^ i + v / 256 ^ (i + 1) % 256 ^ n * 256 ^ (i + 1) := by
      rw [e1, Nat.add_mul, Nat.pow_succ 256 i]; congr 1; rw [Nat.mul_comm 256 (_ % _), Nat.mul_assoc, Nat.mul_comm 256 (256 ^ i)]
    rw [e2, List.range'_succ, List.map_cons, List.filter_cons]
    split
    · rw [List.cons_append, cellsNat, if_neg (by omega), if_pos (by omega), ih]
      simp
    · rename_i hz
      have hz : v / 256 ^ i % 256 = 0 := by
        have : BitVec.ofNat 8 (v / 256 ^ i) = 0#8 := by simpa using hz
        simpa using congrArg BitVec.toNat this
      rw [ih, hz]; simp

/-- A block reads as written. -/
theorem storeReadLine_writeLine {m : Store} (n : Nat) (l : Line) (h : m.wf = true) : (m.writeLine n l).readLine n = l := by
  have hw := (store_wf_iff m).1 h
  have hc : cellsNat (64 * n) (m.writeLine n l).cells = l.data.toNat := by
    simp only [Store.writeLine, List.append_assoc]
    rw [cellsNat_below]
    · have := cellsNat_line (64 * n) l.data.toNat (m.cells.filter (fun c => decide (64 * n + 64 ≤ c.1)))
        (fun p hp => by simpa using (List.mem_filter.1 hp).2) 64 0 rfl
      rw [lineCells, List.range_eq_range', this]
      have hlt := l.data.isLt
      rw [show (2 : Nat) ^ 512 = 256 ^ 64 from by rw [show (256 : Nat) = 2 ^ 8 from rfl, ← Nat.pow_mul]] at hlt
      rw [Nat.pow_zero, Nat.div_one, Nat.mul_one, Nat.mod_eq_of_lt hlt]
    · intro p hp; simpa using (List.mem_filter.1 hp).2
  have hp : setHas (m.writeLine n l).psn n = l.psn := by
    simp only [Store.writeLine]
    cases hl : l.psn
    · simp [setHas, setErase]
    · have : ∀ (x : List Nat), n ∈ setInsert x n := by
        intro x
        induction x with
        | nil => simp [setInsert]
        | cons y x ih =>
          simp only [setInsert]
          split
          · simp
          · split
            · simp_all
            · simp [ih]
      simpa [setHas] using this m.psn
  simp only [Store.readLine, hc, hp]
  rw [show (m.writeLine n l).descs = mapSet 0 m.descs n l.desc from rfl, mapGet_mapSet_same 0 l.desc m.descs n hw.2.1]
  cases l
  simp

theorem cellsNat_window (lo : Nat) : ∀ (l : List Host.Cell), l.Pairwise (fun a b => a.1 < b.1) →
    cellsNat lo l = cellsNat lo (l.filter (fun c => decide (lo ≤ c.1) && decide (c.1 < lo + 64)))
  | [], _ => rfl
  | p :: l, h => by
    obtain ⟨h1, h2⟩ := List.pairwise_cons.1 h
    have ih := cellsNat_window lo l h2
    by_cases ha : p.1 < lo
    · rw [cellsNat, if_pos ha, ih, List.filter_cons, if_neg (by simp; omega)]
    · by_cases hb : p.1 < lo + 64
      · rw [cellsNat, if_neg ha, if_pos hb, ih, List.filter_cons, if_pos (by simp; omega), cellsNat, if_neg ha, if_pos hb]
      · rw [cellsNat, if_neg ha, if_neg hb, List.filter_cons, if_neg (by simp; omega)]
        rw [List.filter_eq_nil_iff.2 (fun q hq => by have := h1 q hq; simp; omega)]
        rfl

/-- Every other block reads as before. -/
theorem storeReadLine_writeLine_other {m : Store} (n j : Nat) (l : Line) (h : m.wf = true) (hj : j ≠ n) :
    (m.writeLine n l).readLine j = m.readLine j := by
  have hw := (store_wf_iff m).1 h
  have hw' := (store_wf_iff _).1 (storeWriteLine_wf n l h)
  have hc : cellsNat (64 * j) (m.writeLine n l).cells = cellsNat (64 * j) m.cells := by
    rw [cellsNat_window _ _ hw'.1.1, cellsNat_window _ m.cells hw.1.1]
    congr 1
    have hl : (lineCells (64 * n) l.data).filter (fun c => decide (64 * j ≤ c.1) && decide (c.1 < 64 * j + 64)) = [] := by
      refine List.filter_eq_nil_iff.2 (fun p hp => ?_)
      have := (lineCells_form (64 * n) l.data).2 p hp
      simp; omega
    simp only [Store.writeLine, List.filter_append, List.filter_filter, hl, List.append_nil]
    by_cases hlt : j < n
    · rw [List.filter_eq_nil_iff (p := fun (a : Host.Cell) => (decide (64 * j ≤ a.1) && decide (a.1 < 64 * j + 64)) && decide (64 * n + 64 ≤ a.1)) (l := m.cells) |>.2
        (fun p _ => by simp; omega), List.append_nil]
      refine List.filter_congr (fun p _ => ?_)
      by_cases hx : p.1 < 64 * j + 64
      · simp [show p.1 < 64 * n by omega]
      · simp [hx]
    · rw [List.filter_eq_nil_iff (p := fun (a : Host.Cell) => (decide (64 * j ≤ a.1) && decide (a.1 < 64 * j + 64)) && decide (a.1 < 64 * n)) (l := m.cells) |>.2
        (fun p _ => by simp; omega), List.nil_append]
      refine List.filter_congr (fun p _ => ?_)
      by_cases hx : 64 * j ≤ p.1
      · simp [show 64 * n + 64 ≤ p.1 by omega]
      · simp [hx]
  have hp : setHas (m.writeLine n l).psn j = setHas m.psn j := by
    have hi : ∀ (x : List Nat), (j ∈ setInsert x n) = (j ∈ x) := by
      intro x
      induction x with
      | nil => simp [setInsert, hj]
      | cons y x ih =>
        simp only [setInsert]
        split
        · simp [hj]
        · split
          · rfl
          · simp [ih]
    simp only [Store.writeLine, setHas]
    cases l.psn
    · simp [setErase, hj]
    · simp [hi]
  simp only [Store.readLine, hc, hp]
  rw [show (m.writeLine n l).descs = mapSet 0 m.descs n l.desc from rfl, mapGet_mapSet_other 0 l.desc m.descs n j hw.2.1 hj]

/-! ### The machine's memories -/

theorem memWf_iff (m : Mem) : m.wf = true ↔ m.hbm.wf = true ∧ m.host0.wf = true ∧ m.host1.wf = true := by
  simp [Mem.wf, and_assoc]

/-- The machine's memories after reset are in canonical form. -/
theorem reset_mem_wf : State.reset.mem.wf = true := rfl

theorem setBacking_wf {s : State} (k : Nat) {m : Store} (hm : m.wf = true) (h : s.mem.wf = true) :
    (setBacking s k m).mem.wf = true := by
  rw [memWf_iff] at *
  unfold setBacking
  split <;> simp_all

theorem backing_wf {s : State} {k : Nat} (hk : keyTgt k < 3) (h : s.mem.wf = true) : (backing s k).wf = true := by
  rw [memWf_iff] at h
  have : keyTgt k = 0 ∨ keyTgt k = 1 ∨ keyTgt k = 2 := by omega
  rcases this with h0 | h0 | h0 <;> simp [backing, h0, h]

/-- A line put back in its memory keeps the form. -/
theorem setBacking_line_wf {s : State} (k : Nat) (l : Line) (n : Nat) (h : s.mem.wf = true) :
    (setBacking s k ((backing s k).writeLine n l)).mem.wf = true := by
  rw [memWf_iff] at *
  unfold setBacking backing
  split <;> simp_all [storeWriteLine_wf]

theorem hostRequest_mem (s : State) (k : Nat) : (hostRequest s k).2.mem = s.mem := by
  unfold hostRequest
  split <;> rfl

theorem addCe_mem_wf {s : State} (k n : Nat) (h : s.mem.wf = true) : (addCe s k n).mem.wf = true := by
  unfold addCe
  split
  · simp only
    split <;> exact h
  · exact h

theorem addSymbol_mem (s : State) (b : Nat) (ly : Fin 6) : (addSymbol s b ly).mem = s.mem := by
  unfold addSymbol
  simp only
  split <;> rfl

theorem addSymbols_mem (b : Nat) : ∀ (l : List Nat) (t : State), (l.foldl (fun t j => addSymbol t b (Fin.ofNat 6 j)) t).mem = t.mem
  | [], _ => rfl
  | j :: l, t => by rw [List.foldl_cons, addSymbols_mem b l, addSymbol_mem]

theorem countDecoded_wf {s : State} (k b : Nat) (ds : List Decoded) (h : s.mem.wf = true) :
    (countDecoded s k b ds).mem.wf = true := by
  unfold countDecoded
  simp only
  have h1 : (if (ds.filter (fun d => match d with | .recovered _ => true | _ => false)).length = 0 then s
      else addBank s b 1 (ds.filter (fun d => match d with | .recovered _ => true | _ => false)).length).mem.wf = true := by
    split <;> exact h
  split
  · exact h1
  · refine addCe_mem_wf _ _ ?_; rw [addSymbols_mem]; exact h1

/-- The decoder changes no stored line. -/
theorem decodeAt_wf {s : State} (k b : Nat) (errs : List (Nat × Nat × Byte)) (l : Line) (h : s.mem.wf = true) :
    (decodeAt s k b errs l).2.mem.wf = true := by
  unfold decodeAt
  simp only
  split
  · exact h
  · split
    · exact h
    · exact countDecoded_wf _ _ _ h

/-- A line written back keeps the form. -/
theorem writeBack_wf {s : State} (k : Nat) (h : s.mem.wf = true) : (writeBack s k).mem.wf = true := by
  unfold writeBack
  cases dirtyWay s k with
  | none => exact h
  | some l =>
    have h0 : (decodeAt { s with mem := { s.mem with dirty := mapErase s.mem.dirty k } } k (homeBank k) (softOf s k) l).2.mem.wf = true :=
      decodeAt_wf _ _ _ _ h
    simp only
    have h1 : ∀ t : State, t.mem.wf = true → (hostRequest (dropSoft t k true true) k).2.mem.wf = true := by
      intro t ht; rw [hostRequest_mem]; exact ht
    have h2 := h1 _ h0
    split
    · rename_i h3; rw [h3] at h2; exact h2
    · rename_i h3; rw [h3] at h2; exact setBacking_line_wf k _ _ h2

theorem writeBacks_wf : ∀ (l : List Nat) (s : State), s.mem.wf = true →
    (l.foldl (fun t k => dropSoft (writeBack t k) k true false) s).mem.wf = true
  | [], _, h => h
  | k :: l, s, h => writeBacks_wf l _ (writeBack_wf k h)

theorem setWays_wf {s : State} (set : Nat) (l : List HomeWay) (h : s.mem.wf = true) : (setWays s set l).mem.wf = true := h

theorem evictSb_wf {s : State} (set sb : Nat) (h : s.mem.wf = true) : (evictSb s set sb).mem.wf = true :=
  setWays_wf set _ (writeBacks_wf (sbLines sb) s h)

/-- A line entered in its home ways keeps the form. -/
theorem enterWay_wf {s : State} (k : Nat) (h : s.mem.wf = true) : (enterWay s k).mem.wf = true := by
  unfold enterWay
  simp only
  split
  · exact setWays_wf _ _ h
  · refine setWays_wf _ _ ?_
    split
    · exact h
    · split
      · exact evictSb_wf _ _ h
      · exact h

theorem tellWaiters_wf {s : State} (k : Nat) (l : Line) (h : s.mem.wf = true) : (tellWaiters s k l).mem.wf = true := h

theorem keepCmds_mem (s : State) (k : Nat) (l : Line) : (keepCmds s k l).mem = s.mem := by
  unfold keepCmds; split <;> rfl

theorem keepSig_mem (s : State) (k : Nat) (l : Line) : (keepSig s k l).mem = s.mem := by
  unfold keepSig
  split
  · split <;> rfl
  · rfl

theorem keepOld_mem (s : State) (k : Nat) : (keepOld s k).mem = s.mem := by
  rw [keepOld, keepSig_mem, keepCmds_mem]

theorem keepOld_wf {s : State} (k : Nat) (h : s.mem.wf = true) : (keepOld s k).mem.wf = true := by
  rw [keepOld_mem]; exact h

theorem setDirty_wf {s : State} (k : Nat) (l : Line) (h : s.mem.wf = true) : (setDirty s k l).mem.wf = true := h

/-- A block written back to its pseudo-channel keeps the form. -/
theorem drainBlock_wf {s : State} (k : Nat) (h : s.mem.wf = true) : (drainBlock s k).mem.wf = true := by
  unfold drainBlock
  cases mapFind s.mem.dirty k with
  | none => exact h
  | some l => exact setBacking_line_wf k l _ (s := dropSoft { s with mem := { s.mem with dirty := mapErase s.mem.dirty k } } k false true) h

theorem enterBuffer_wf {s : State} (k : Nat) (h : s.mem.wf = true) : (enterBuffer s k).mem.wf = true := by
  have h1 : ∀ t : State, t.mem.wf = true → ∀ o : Option Nat, (match o with | some v => drainBlock t v | none => t).mem.wf = true := by
    intro t ht o
    cases o with
    | none => exact ht
    | some v => exact drainBlock_wf v ht
  refine h1 (if (mapGet [] s.mem.buffers (unitOf k)).elem k then s else noteHbm s 1) ?_ _
  split <;> exact h

/-- A line stored at its place keeps the form. -/
theorem storeLine_wf {s : State} (k : Nat) (l : Line) (h : s.mem.wf = true) : (storeLine s k l).mem.wf = true := by
  unfold storeLine
  split
  · exact setDirty_wf k l (enterBuffer_wf k h)
  · split
    · exact setBacking_line_wf k l _ h
    · exact setDirty_wf k l (enterWay_wf k h)

/-- A line whose committed value changes keeps the form. -/
theorem pokeLine_wf {s : State} (k : Nat) (l : Line) (h : s.mem.wf = true) : (pokeLine s k l).mem.wf = true :=
  storeLine_wf k l (tellWaiters_wf k l (keepOld_wf k h))

theorem hbmRead_wf {s : State} (k : Nat) (h : s.mem.wf = true) : (hbmRead s k).2.mem.wf = true := by
  unfold hbmRead
  simp only
  split
  · split
    · exact setDirty_wf k _ h
    · exact setBacking_line_wf k _ _ h
  · split
    · exact addCe_mem_wf _ _ h
    · exact h

theorem fillWay_wf {s : State} (k : Nat) (h : s.mem.wf = true) : (fillWay s k).2.mem.wf = true := by
  have h0 : (hostRequest s k).2.mem.wf = true := by rw [hostRequest_mem]; exact h
  unfold fillWay
  split <;> (rename_i h1; rw [h1] at h0)
  · exact h0
  · simp only
    split
    · exact enterWay_wf k (hbmRead_wf (s := noteHbm _ 1) k h0)
    · exact enterWay_wf k h0

theorem bankRead_wf {s : State} (k : Nat) (h : s.mem.wf = true) : (bankRead s k).2.mem.wf = true := by
  unfold bankRead
  simp only
  have h0 := decodeAt_wf k (homeBank k) (softOf s k) (peekLine s k) h
  split
  · exact h0
  · split
    · exact setBacking_line_wf k _ _ h0
    · split
      · exact h0
      · exact setDirty_wf k _ h0

/-- A read of a line keeps the form, whatever the decoder finds. -/
theorem readLine_wf {s : State} (k : Nat) (h : s.mem.wf = true) : (readLine s k).2.mem.wf = true := by
  unfold readLine
  split
  · simp only
    refine enterBuffer_wf k ?_
    split
    · exact h
    · exact hbmRead_wf k h
  · split
    · exact bankRead_wf k h
    · split
      · exact bankRead_wf k (enterWay_wf k h)
      · exact fillWay_wf k h

/-- A write of a line keeps the form. -/
theorem writeLine_wf {s : State} (k : Nat) (mask : BitVec 64) (data : Bits512) (desc : Option Desc) (h : s.mem.wf = true) :
    (writeLine s k mask data desc).mem.wf = true := by
  unfold writeLine
  split
  · exact pokeLine_wf _ _ h
  · exact pokeLine_wf _ _ (readLine_wf k h)

end Sys2Proof.Machine
end

