-- ==== Sys2Proof/Laws/Streams.lean ====
section
/-! SUPPORT. The generator of a stream instruction: which of its branches runs; addresses formed from unpoisoned operands. -/

namespace Sys2Proof.Machine

theorem genRun_iter {s e d t r} {it tk : State} (h : MayIterate s e d t) : genRun s e d r it tk = it := by
  have := h.settled
  have h1 : issueBlocked e = false := by simp [issueBlocked, h.open_phase]
  rcases this with hr | ⟨he, hq⟩
  · simp [genRun, h.live, h.awake, h.sent, h1, h.going, h.active, hr]
  · have : (e.u.qb.take 2).any (fun t => (tokenCheck s e t).isSome) = false := by
      simp only [List.any_eq_false]; intro x hx; simp [tokenCheck, hq x hx]
    simp [genRun, h.live, h.awake, h.sent, h1, h.going, h.active, he, this]

theorem genRun_take {s e d t x r} {it tk : State} (h : MayTake s e d t x) : genRun s e d r it tk = tk := by
  have := h.settled
  have h1 : issueBlocked e = false := by simp [issueBlocked, h.open_phase]
  rcases this with hr | ⟨he, hq⟩
  · simp [genRun, h.live, h.awake, h.sent, h1, h.going, h.rest, hr, h.manual]
  · have : (e.u.qb.take 2).any (fun t => (tokenCheck s e t).isSome) = false := by
      simp only [List.any_eq_false]; intro x hx; simp [tokenCheck, hq x hx]
    simp [genRun, h.live, h.awake, h.sent, h1, h.going, h.rest, he, this, h.manual]

theorem runStream_eq {s e k f} (hf : focusEnv s = some e) (hq : s.hl.inj = []) :
    runStream s k f = .next (f e (streamDesc e.win k.val)) := by
  simp [runStream, hf, hq]

theorem genIterate_tok {s e d t vec acc rd x s1} (h : MayIterate s e d t) (hs : d.ssc = false)
   (hr : rd s e d (genAddr d e.u.gen) = .tok x s1) : genIterate s e d t vec acc rd =
   genEmit s1 e d t
    { e.u with gen := { genStep d e.u.gen with held := if genLast d e.u.gen && !d.auto then some (Fin.ofNat 8 (d.counts.length - 1)) else none } } [x]
    (if genLast d e.u.gen && !d.auto then none else genTop d e.u.gen) := by
  simp only [genIterate, h.room, h.answered, h.live_run, hs, hr]
  simp

theorem form_psn {e sp bsel a x} (h : formAddr e sp bsel a = some x) : a.psn = false := by
  unfold formAddr formVa at h
  cases sp <;> simp at h <;> exact h.1

theorem formVa_psn {e bsel a x} (h : formVa e bsel a = some x) : a.psn = false := by
  unfold formVa at h
  cases hp : a.psn <;> simp [hp] at h; rfl

end Sys2Proof.Machine
end

