-- ==== Sys2Proof/Tests/Slice0.lean ====
section
/-! SUPPORT. Tests of the model: words and terms worked out by hand from the manual, and for every statement that has
hypotheses a small state that meets them. -/

namespace Sys2Proof.Tests
open Sys2Proof Sys2Proof.Machine

/-! ### Small states -/

/-- A block of the words `code`, its first unit `u` and the others empty, all on one site; 32 pool words. -/
def blockOf (code pool : List Nat) (u : ElemSt) : Window :=
  { oneWindow 0 with
    code := code.map (BitVec.ofNat 32), place := code.map (fun _ => 0)
    pool := (List.range 32).map (fun k => BitVec.ofNat 32 (nth 0 pool k))
    units := u :: List.replicate (code.length - 1) (ElemSt.init 0) }

/-- Node 0, placed on one site, with unit 0 of the block `w` in focus; the host links are up. -/
def armed (w : Window) : State :=
  let n := freshNode 0 (blankRec 0)
  { State.reset with
    hp0 := { State.reset.hp0 with linkUp := true }, hp1 := { State.reset.hp1 with linkUp := true }
    dsp := { State.reset.dsp with nodes := [{ n with st := .placed, exec := some (.region 0 0 1 1), win := some w }] }
    run := { State.reset.run with focus := some (.node 0, 0) } }

/-- Core 0's firmware at level `l`, with unit 0 of the block `w` in focus. -/
def armedFw (l : Fin 3) (w : Window) : State :=
  { updCore State.reset 0 (fun k => setCoreWin { k with level := BitVec.ofNat 2 l.val } l.val { coreWin k l.val with win := some w }) with
    run := { State.reset.run with focus := some (.fw 0 l, 0) } }

/-- A unit with one token on each slot. -/
def holding (a b c p : Token) : ElemSt := { ElemSt.init 0 with qa := [a], qb := [b], qc := [c], qp := [p] }

def num (v : Nat) : Token := scalarTok (BitVec.ofNat 32 v) false
def psn0 : Token := scalarTok 0 true
def block1 : Token := vectorTok 0x0102#512 0x0001 false

/-- Slot a of instruction 1, and an instruction with that one target. -/
def next1 : Tgt := some { slot := .a, index := 1 }
def head1 (p : Pred) : DHead := { t0 := next1, t1 := none, pred := p }
def mem1 : MHead := { t := next1, seq := 3, unord := false }

def movWord : Nat := 0x0102FFC0

/-- Data on every slot, one step away from a firing. -/
def onData : State := armed (blockOf [movWord, movWord] [] (holding (num 5) (num 7) (num 9) (num 1)))
def onZeroP : State := armed (blockOf [movWord, movWord] [] (holding (num 5) (num 7) (num 9) (num 0)))
def onPsnP : State := armed (blockOf [movWord, movWord] [] (holding (num 5) (num 7) (num 9) psn0))
def onMarks : State := armed (blockOf [movWord, movWord] [] (holding (markerTok 1) (markerTok 3) (markerTok 3) (markerTok 0)))
/-- The same in firmware. -/
def fwData : State := armedFw 0 (blockOf [movWord, movWord] [] (holding (num 5) (num 7) (num 9) (num 1)))

/-- One field of the node's context, of its memory, or of the machine, set. -/
def withCtx (s : State) (f : Ctx → Ctx) : State := updCtx s (.node 0) f
def withMem (s : State) (f : CtxMem → CtxMem) : State := updMem s (.node 0) f
def withUnit (s : State) (f : ElemSt → ElemSt) : State := updUnit s (.node 0) 0 f
def withWin (s : State) (f : Window → Window) : State := updWin s (.node 0) f
def withNode (s : State) (f : Node → Node) : State := updNode s 0 f

/-! ### What the hypotheses ask, as tests -/

def idle (s : State) (e : Env) (sl : List Slot) : Bool :=
  !e.u.blk && !frozen s e.c && !mustPump e.win e.i e.u && e.u.pend.isEmpty
    && sl.all (fun x => !(slotQueue e.u x).isEmpty && (headOf e.u x).sound && (headOf e.u x).parityOk)

/-- `MayFire` and a further condition. -/
def fires (s : State) (sl : List Slot) (tg : List Target) (P : Env → Bool) : Bool :=
  match focusEnv s with
  | none => false
  | some e => idle s e sl && sl.all (fun x => !(headOf e.u x).isMk) && roomFor e tg && s.hl.inj.isEmpty && P e

/-- `MayJoin` and a further condition. -/
def joined (s : State) (sl : List Slot) (tg : List Target) (P : Env → Bool) : Bool :=
  match focusEnv s with
  | none => false
  | some e => idle s e sl && !sl.isEmpty && sl.all (fun x => (headOf e.u x).isMk) && roomFor e tg && P e

theorem idle_meets {s : State} {e : Env} {sl : List Slot} (h : focusEnv s = some e) (hi : idle s e sl = true) : Idle s e sl := by
  simp only [idle, Bool.and_eq_true, List.all_eq_true, Bool.not_eq_true', List.isEmpty_iff] at hi
  obtain ⟨⟨⟨⟨h1, h0⟩, h2⟩, h3⟩, h4⟩ := hi
  refine ⟨h, h1, h0, h2, h3, fun x hx hq => ?_, fun x hx => ⟨(h4 x hx).1.2, (h4 x hx).2⟩⟩
  have := (h4 x hx).1.1
  rw [hq] at this; cases this

theorem fires_meets {s : State} {sl : List Slot} {tg : List Target} {P : Env → Bool} (h : fires s sl tg P = true) :
    ∃ e, MayFire s e sl tg ∧ P e = true := by
  unfold fires at h
  split at h
  · cases h
  · rename_i e he
    simp only [Bool.and_eq_true, List.all_eq_true, Bool.not_eq_true', List.isEmpty_iff] at h
    obtain ⟨⟨⟨⟨h1, h2⟩, h3⟩, h4⟩, h5⟩ := h
    exact ⟨e, ⟨idle_meets he h1, h2, h3, h4⟩, h5⟩

theorem joined_meets {s : State} {sl : List Slot} {tg : List Target} {P : Env → Bool} (h : joined s sl tg P = true) :
    ∃ e, MayJoin s e sl tg ∧ P e = true := by
  unfold joined at h
  split at h
  · cases h
  · rename_i e he
    simp only [Bool.and_eq_true, List.all_eq_true] at h
    obtain ⟨⟨⟨⟨h1, h2⟩, h3⟩, h4⟩, h5⟩ := h
    exact ⟨e, ⟨idle_meets he h1, (by rintro rfl; cases h2), h3, h4⟩, h5⟩

/-- `Held` and a further condition of the pending firing. -/
def holdsOne (s : State) (P : Env → Pend → Bool) : Bool :=
  match focusEnv s with
  | none => false
  | some e => !e.u.blk && !frozen s e.c && !mustPump e.win e.i e.u && s.hl.inj.isEmpty && match e.u.pend.head? with
    | none => false
    | some p => p.ready.isNone && P e p

theorem holdsOne_meets {s : State} {P : Env → Pend → Bool} (h : holdsOne s P = true) : ∃ e p, Held s e p ∧ P e p = true := by
  unfold holdsOne at h
  split at h
  · cases h
  · rename_i e he
    simp only [Bool.and_eq_true, Bool.not_eq_true', List.isEmpty_iff] at h
    obtain ⟨⟨⟨⟨h1, h0⟩, h2⟩, hq⟩, h3⟩ := h
    split at h3
    · cases h3
    · rename_i p hp
      rw [Bool.and_eq_true, Option.isNone_iff_eq_none] at h3
      exact ⟨e, p, ⟨he, h1, h0, h2, hp, h3.1, hq⟩, h3.2⟩

/-- `MayStream` and a further condition. -/
def streams (s : State) (d : Env → StreamDesc) (P : Env → Bool) : Bool :=
  match focusEnv s with
  | none => false
  | some e => !e.u.blk && !frozen s e.c && !mustPump e.win e.i e.u && s.hl.inj.isEmpty && e.ctx.boundary.isNone && !sourcesClosed s e.c && !(d e).reb && P e

theorem streams_meets {s : State} {d : Env → StreamDesc} {P : Env → Bool} (h : streams s d P = true) :
    ∃ e, MayStream s e (d e) ∧ P e = true := by
  unfold streams at h
  split at h
  · cases h
  · rename_i e he
    simp only [Bool.and_eq_true, Bool.not_eq_true', List.isEmpty_iff, Option.isNone_iff_eq_none] at h
    obtain ⟨⟨⟨⟨⟨⟨⟨h1, h0⟩, h2⟩, h3⟩, h4⟩, h5⟩, h6⟩, h7⟩ := h
    exact ⟨e, ⟨he, h1, h0, h2, h3, h4, h5, .inl h6⟩, h7⟩

/-- `MaySea` and a further condition. -/
def seaFree (s : State) (P : Env → Bool) : Bool :=
  match focusEnv s with
  | none => false
  | some e => !e.u.blk && !frozen s e.c && !mustPump e.win e.i e.u && P e

theorem seaFree_meets {s : State} {P : Env → Bool} (h : seaFree s P = true) : ∃ e, MaySea s e ∧ P e = true := by
  unfold seaFree at h
  split at h
  · cases h
  · rename_i e he
    simp only [Bool.and_eq_true, Bool.not_eq_true'] at h
    exact ⟨e, ⟨he, h.1.1.1, h.1.1.2, h.1.2⟩, h.2⟩

/-- The outcome is a next state that passes a test. -/
def nextHas (o : Host.Outcome State Fault Refusal) (P : State → Bool) : Bool :=
  match o with
  | .next t => P t
  | _ => false

theorem nextHas_meets {o : Host.Outcome State Fault Refusal} {P : State → Bool} (h : nextHas o P = true) : ∃ t, o = .next t ∧ P t = true := by
  unfold nextHas at h
  split at h
  · exact ⟨_, rfl, h⟩
  · cases h

/-- `OpenPhase`, `Fresh` and `InTurn` as tests. -/
def openB (e : Env) : Bool := e.ctx.boundary.isNone
def freshB (e : Env) : Bool := e.ctx.replay.isEmpty && !logFull e
def turnB (i : Instr) (e : Env) : Bool := e.ctx.boundary.isNone && winInstr e.win e.i == some i && chainReady e.win i e.u.fired

theorem openB_meets {e : Env} (h : openB e = true) : OpenPhase e := by simpa [openB, OpenPhase] using h
theorem freshB_meets {e : Env} (h : freshB e = true) : Fresh e := by
  simp only [freshB, Bool.and_eq_true, List.isEmpty_iff, Bool.not_eq_true'] at h; exact ⟨h.1, h.2⟩
theorem turnB_meets {i : Instr} {e : Env} (h : turnB i e = true) : InTurn e i := by
  simp only [turnB, Bool.and_eq_true, Option.isNone_iff_eq_none, beq_iff_eq] at h; exact ⟨h.1.1, h.1.2, h.2⟩


/-! ### Groups 0x0 to 0x4 -/

/-- Every set of operand slots that a scalar instruction takes, with a predicate's slot. -/
def slotSets : List (List Slot) :=
  [[.a], [.a, .b], [.a, .b, .c], [.a, .p], [.p, .a], [.p, .b], [.p, .a, .b], [.a, .b, .p], [.a, .b, .c, .p]]

/-- FlowCompletes, IntegerCompletes, FloatCompletes, ConvertCompletes: data on the slots, room at the target, and a
predicate that holds, in each of its three forms. -/
theorem witness_firings :
    (∀ sl ∈ slotSets, ∃ e, MayFire onData e sl (tgt1 next1) ∧ free e) ∧
    (∃ e, MayFire onData e [.a] (headTgts (head1 .always)) ∧ predActive .always (operands e.u) = true) ∧
    (∃ e, MayFire onData e [.a, .p] (headTgts (head1 .ifTrue)) ∧ predActive .ifTrue (operands e.u) = true) ∧
    (∃ e, MayFire onZeroP e [.a, .p] (headTgts (head1 .ifFalse)) ∧ predActive .ifFalse (operands e.u) = true) := by
  refine ⟨fun sl h => ?_, fires_meets (by decide +kernel), fires_meets (by decide +kernel), fires_meets (by decide +kernel)⟩
  have : ∀ sl ∈ slotSets, fires onData sl (tgt1 next1) (fun _ => true) = true := by decide +kernel
  obtain ⟨e, he, -⟩ := fires_meets (this sl h)
  exact ⟨e, he, trivial⟩

/-- FlowCompletes: MERGE looks at slot a behind a true p and at slot b behind a false one; FANK has a list of targets. -/
theorem witness_FlowCompletes :
    (∃ e, MayFire onData e [.p, .a] (tgt1 next1 ++ tgt1 none) ∧ (operands e.u).p.isTrue = true) ∧
    (∃ e, MayFire onZeroP e [.p, .b] (tgt1 next1 ++ tgt1 none) ∧ (operands e.u).p.isTrue = false) ∧
    (∃ e, MayFire (armed (blockOf [movWord, movWord, movWord] [0x00020001] (holding (num 5) (num 7) (num 9) (num 1)))) e [.a]
      (fankTargets e.win next1 0 0) ∧ (fankTargets e.win next1 0 0).length = 3) :=
  ⟨fires_meets (by decide +kernel),
   let ⟨e, h, hp⟩ := fires_meets (s := onZeroP) (P := fun e => !(operands e.u).p.isTrue) (by decide +kernel)
   ⟨e, h, by simpa using hp⟩, by
   have h : fires (armed (blockOf [movWord, movWord, movWord] [0x00020001] (holding (num 5) (num 7) (num 9) (num 1)))) [.a]
       (fankTargets (blockOf [movWord, movWord, movWord] [0x00020001] (holding (num 5) (num 7) (num 9) (num 1))) next1 0 0)
       (fun e => decide (e.win = blockOf [movWord, movWord, movWord] [0x00020001] (holding (num 5) (num 7) (num 9) (num 1)))) = true := by
     decide +kernel
   obtain ⟨e, he, hw⟩ := fires_meets h
   have hw := of_decide_eq_true hw
   refine ⟨e, by rw [hw]; exact he, by rw [hw]; decide +kernel⟩⟩

/-- FlowMarkers, ScalarMarkersAndPredicates: markers of different ranks on the slots of each set. -/
theorem witness_markers : ∀ sl ∈ slotSets, ∃ e, MayJoin onMarks e sl (tgt1 next1) ∧ free e := by
  intro sl h
  have : ∀ sl ∈ slotSets, joined onMarks sl (tgt1 next1) (fun _ => true) = true := by decide +kernel
  obtain ⟨e, he, -⟩ := joined_meets (this sl h)
  exact ⟨e, he, trivial⟩

/-- A marker on slots a and b, and the number `p` on slot p. -/
def loneMark (p : Nat) : State := armed (blockOf [movWord, movWord] [] (holding (markerTok 2) (markerTok 1) (num 9) (num p)))

/-- FlowMarkers: a marker at DROP and at FANK; one that MERGE's p selects, on slot a and on slot b. -/
theorem witness_FlowMarkers :
    (∃ e, MayJoin onMarks e [.a] [] ∧ free e) ∧
    (∃ e, MayJoin onMarks e [.a] (fankTargets e.win next1 0 0)) ∧
    (∃ e, MayJoin (loneMark 1) e [.a] (tgt1 next1 ++ tgt1 none) ∧
      (!e.u.qp.isEmpty && !(headOf e.u .p).isMk && (operands e.u).p.isTrue) = true) ∧
    (∃ e, MayJoin (loneMark 0) e [.b] (tgt1 next1 ++ tgt1 none) ∧
      (!e.u.qp.isEmpty && !(headOf e.u .p).isMk && !(operands e.u).p.isTrue) = true) := by
  refine ⟨?_, ?_, joined_meets (by decide +kernel), joined_meets (by decide +kernel)⟩
  · obtain ⟨e, he, -⟩ := joined_meets (s := onMarks) (sl := [.a]) (tg := []) (P := fun _ => true) (by decide +kernel)
    exact ⟨e, he, trivial⟩
  · obtain ⟨e, he, hw⟩ := joined_meets (s := onMarks) (sl := [.a]) (tg := tgt1 next1)
      (P := fun e => decide (fankTargets e.win next1 0 0 = tgt1 next1 ++ [{ slot := .a, index := 0 }, { slot := .a, index := 0 }])
        && roomFor e (fankTargets e.win next1 0 0)) (by decide +kernel)
    rw [Bool.and_eq_true] at hw
    exact ⟨e, { he with room := hw.2 }⟩

/-- ScalarMarkersAndPredicates: a predicate that does not hold, in each of its three forms. -/
theorem witness_ScalarMarkersAndPredicates :
    scalarForm (.add (head1 .ifTrue) false false .w32) = some ([.a, .b], tgt1 next1, .ifTrue) ∧
    (∃ e, MayFire onZeroP e [.a, .b, .p] (tgt1 next1) ∧ decide ((operands e.u).p.data = 0) = true) ∧
    (∃ e, MayFire onPsnP e [.a, .b, .p] (tgt1 next1) ∧ (operands e.u).p.psn = true) ∧
    (∃ e, MayFire onData e [.a, .b, .p] (tgt1 next1) ∧ (!(operands e.u).p.psn && decide ((operands e.u).p.data ≠ 0)) = true) :=
  ⟨by decide, fires_meets (by decide +kernel), fires_meets (by decide +kernel), fires_meets (by decide +kernel)⟩

/-- ScalarFrame: an instruction of each of the groups that fires. -/
theorem witness_ScalarFrame : onData.run.focus = some (.node 0, 0) ∧
    ∀ p ∈ [(Instr.mov (head1 .always), 0), (.add (head1 .always) false false .w32, 1), (.and (head1 .always), 2),
           (.fneg (head1 .always), 3), (.ldi next1 5, 4)],
      groupOf p.1 = some p.2 ∧ p.2 ≤ 4 ∧ ∃ t, exec p.1 onData = .next t ∧ decide (t ≠ onData) = true := by
  refine ⟨rfl, fun p hp => ?_⟩
  have h : ∀ p ∈ [(Instr.mov (head1 .always), 0), (.add (head1 .always) false false .w32, 1), (.and (head1 .always), 2),
      (.fneg (head1 .always), 3), (.ldi next1 5, 4)], groupOf p.1 = some p.2 ∧ p.2 ≤ 4 ∧
        nextHas (exec p.1 onData) (fun t => decide (t ≠ onData)) = true := by decide +kernel
  exact ⟨(h p hp).1, (h p hp).2.1, nextHas_meets (h p hp).2.2⟩

/-- A unit with no later token, in a window of two, whose next unit holds `n` tokens on slot a. -/
def sending (n : Nat) : State := updUnit onData (.node 0) 1 (fun u => { u with qa := List.replicate n (num 4) })

/-- FiringTakesAndSends: a unit that sends nothing yet, another one of its window and the unit's own slot; tokens for two
targets, one with room and one without. -/
theorem witness_FiringTakesAndSends :
    (∀ n ∈ [0, 4], ∃ e ej, envAt (sending n) (.node 0) 0 = some e ∧ envAt (sending n) (.node 0) 1 = some ej ∧ e.u.out = [] ∧
      hasRoom e.win 0 { slot := .a, index := 1 } = decide (n = 0) ∧ hasRoom e.win 0 { slot := .b, index := 1 } = true ∧
      stageFree e.u.stage { slot := .a, index := 1 } = true ∧ stageFree e.u.stage { slot := .b, index := 1 } = true) ∧
    [Slot.a, .b, .c, .p].Nodup ∧ [({ slot := .a, index := 1 } : Target), { slot := .b, index := 1 }].Nodup := by
  refine ⟨fun n hn => ?_, by decide, by decide⟩
  have h : ∀ n ∈ [0, 4], (match envAt (sending n) (.node 0) 0, envAt (sending n) (.node 0) 1 with
    | some e, some _ => e.u.out.isEmpty && hasRoom e.win 0 { slot := .a, index := 1 } == decide (n = 0)
        && hasRoom e.win 0 { slot := .b, index := 1 } && stageFree e.u.stage { slot := .a, index := 1 }
        && stageFree e.u.stage { slot := .b, index := 1 }
    | _, _ => false) = true := by decide +kernel
  have h := h n hn
  split at h
  · simp only [Bool.and_eq_true, List.isEmpty_iff, beq_iff_eq] at h
    exact ⟨_, _, by assumption, by assumption, h.1.1.1.1, h.1.1.1.2, h.1.1.2, h.1.2, h.2⟩
  · cases h

/-- IntegerLanes at its last lane; ShiftsAndFields, DivisionCases, FloatSpecials and FloatExact at the ends of their ranges. -/
theorem witness_scalarValues :
    (7 < 32 / laneBits .w4 ∧ 0 < 32 / laneBits .w32) ∧
    ((1 : Word) ≠ 0 ∧ ¬((0x80000000#32 : Word) = 0x80000000#32 ∧ (1 : Word) = -1) ∧ (0x80000000#32 : Word).getLsbD 31 = true ∧
      ∀ j, 31 < j → (0x80000000#32 : Word).getLsbD j = false) ∧
    (0xFF800000#32 &&& 0x7FFFFFFF#32 = 0x7F800000#32 ∧ 0x80000000#32 &&& 0x7FFFFFFF#32 = 0#32 ∧
      ((0x7F800000#32).msb != (0xBF800000#32).msb) ≠ (0x7F800000#32).msb) ∧
    ((f32 0x7FC00000#32).isNan = true ∧ (f32 0x80000001#32).isNan = false ∧ (0x80000001#32).msb = true ∧ (0x80000001#32) ≠ 0x80000000#32 ∧
      (f32 0x7F7FFFFF#32).isFinite = true) ∧
    (∀ f ∈ [fmtFp32, fmtBf16, fmtFp16, fmtE4m3, fmtE5m2, fmtW64], f.signBit < 2 * f.signBit ∧ (f.decode f.signBit).isFinite = true) :=
  ⟨by decide, ⟨by decide, by decide, by decide, fun j h => BitVec.getLsbD_of_ge _ _ h⟩, by decide, by decide +kernel, by decide +kernel⟩

/-! ### Groups 0x5 to 0x7 -/

/-- The node's block, with instruction `i` first, and the tokens `a` to `c`. -/
def onInstr (i : Instr) (pool : List Nat) (a b c : Token) : State :=
  armed { blockOf [(encode i).getD 0, movWord] pool (holding a b c (num 1)) with scratch := 4096 }

/-- Virtual page 0 mapped to frame 1, writable, by the TLB of field 0 and by that of unit 0's port. -/
def mapped (s : State) : State :=
  let l : List TlbEntry := [{ page := 0, entry := 0x10007, large := false }]
  { s with xl := { s.xl with en := true, tlb := [l, [], [], []], micro := [(portOf s (.node 0) 0, l)] } }

/-- Bobbin 2: two slots of one superblock, its slots in the states `a` and `b`. -/
def bob2 : Bobbin := { base := 0, nslot := 2, tbase := 8, sz := 0, head := 0, tail := 0, finished := [], fills := [], tickets := [] }
def withBob (a b : BitVec 2) (s : State) : State :=
  withMem s (fun m => { m with bobbins := [(2, bob2)], tiles := mapSet 0 (mapSet 0 [] 8 a) 9 b })

/-- A scratch stream of four words, a global stream of four blocks, and the latter's descriptor with bobbin 2. -/
def scrDesc : List Nat := [0, 0x41000000, 0, 3, 4]
def blkDesc : List Nat := [0, 0x01800000, 0x04000000, 3, 64]

def isVal (g : Got) : Bool := match g with
  | .val .. => true
  | _ => false
def isTok (g : GotTok) : Bool := match g with
  | .tok .. => true
  | _ => false

/-- `MayIterate`, and `MayTake` of a token `x`, with a further condition. -/
theorem iterates_meets {s : State} {d : Env → StreamDesc} {t : Tgt} {P : Env → Bool}
    (h : streams s d (fun e => e.u.gen.active && !e.u.gen.dead && !genWaits s e && roomFor e (tgt1 t) && P e) = true) :
    ∃ e, MayIterate s e (d e) t ∧ P e = true := by
  obtain ⟨e, he, hp⟩ := streams_meets h
  simp only [Bool.and_eq_true, Bool.not_eq_true'] at hp
  obtain ⟨⟨⟨⟨h1, h2⟩, h3⟩, h4⟩, h5⟩ := hp
  exact ⟨e, ⟨he, h1, h2, h3, h4⟩, h5⟩

theorem takes_meets {s : State} {d : Env → StreamDesc} {t : Tgt} {x : Token} {P : Env → Bool}
    (h : streams s d (fun e => !e.u.gen.active && !(d e).auto && e.u.qa.head? == some x && x.sound && x.parityOk
      && roomFor e (tgt1 t) && P e) = true) : ∃ e, MayTake s e (d e) t x ∧ P e = true := by
  obtain ⟨e, he, hp⟩ := streams_meets h
  simp only [Bool.and_eq_true, Bool.not_eq_true', beq_iff_eq] at hp
  obtain ⟨⟨⟨⟨⟨⟨h1, h2⟩, h3⟩, h4⟩, h5⟩, h6⟩, h7⟩ := hp
  exact ⟨e, ⟨he, h1, h2, h3, ⟨h4, h5⟩, h6⟩, h7⟩

/-- A generator at its run's third iteration. -/
def running (s : State) : State := withUnit s (fun u => { u with gen := { u.gen with active := true, c0 := 2 } })

/-- StreamLoadsComplete: an element from scratch, a block from memory, a probed page, a fill's first step and one of its
blocks; a data token and a marker. -/
theorem witness_StreamLoadsComplete :
    (∃ e, MayIterate (running (onInstr (.lds next1 0) scrDesc (num 8) (num 0) (num 0))) e (streamDesc e.win 0) next1 ∧
      (!(streamDesc e.win 0).ssc && isVal (readSpan (running (onInstr (.lds next1 0) scrDesc (num 8) (num 0) (num 0))) e.c
        (streamDesc e.win 0).scratch (genAddr (streamDesc e.win 0) e.u.gen) 4 false)) = true) ∧
    (∃ e, MayIterate (mapped (running (onInstr (.ldb next1 0 false) blkDesc (num 0) (num 0) (num 0)))) e (streamDesc e.win 0) next1 ∧
      (let s := mapped (running (onInstr (.ldb next1 0 false) blkDesc (num 0) (num 0) (num 0)))
       let a := genAddr (streamDesc e.win 0) e.u.gen
       !(streamDesc e.win 0).ssc && !(streamDesc e.win 0).scratch && isTok (readBlock s e.c false (BitVec.ofNat 64 (a.toNat / 64 * 64)) false) &&
        (probe s e.c a true).1.isNone) = true) ∧
    (∃ e, MayIterate (withBob 0 0 (running (onInstr (.ldb next1 0 true) blkDesc (num 0) (num 0) (num 0)))) e (streamDesc e.win 0) next1 ∧
      (getBob e.ctx.mem (streamDesc e.win 0).bob == some bob2 && e.u.gen.slot.isNone && slotState e.ctx.mem bob2 bob2.tail == 0) = true) ∧
    (∃ e, MayIterate (mapped (withBob 1 0 (withUnit (running (onInstr (.ldb next1 0 true) blkDesc (num 0) (num 0) (num 0)))
        (fun u => { u with gen := { u.gen with slot := some 0, done := 2 } })))) e (streamDesc e.win 0) next1 ∧
      (getBob e.ctx.mem (streamDesc e.win 0).bob == some bob2 && e.u.gen.slot == some 0 && !genLast (streamDesc e.win 0) e.u.gen &&
        decide (e.u.gen.done + 1 < slotBlocks bob2)) = true) ∧
    (∃ e, MayTake (onInstr (.lds next1 0) scrDesc (num 8) (num 0) (num 0)) e (streamDesc e.win 0) next1 (num 8) ∧ (!(num 8).isMk) = true) ∧
    (∃ e, MayTake (onInstr (.lds next1 0) scrDesc (markerTok 6) (num 0) (num 0)) e (streamDesc e.win 0) next1 (markerTok 6) ∧
      (markerTok 6).isMk = true) :=
  ⟨iterates_meets (by decide +kernel), iterates_meets (by decide +kernel), iterates_meets (by decide +kernel),
   iterates_meets (by decide +kernel), takes_meets (by decide +kernel), takes_meets (by decide +kernel)⟩

/-- STB in block `n` of bobbin 2's slot 0. -/
def draining (n : Nat) : State :=
  mapped (withBob 3 0 (withUnit (running (onInstr (.stb next1 0 true) blkDesc (num 0) (num 0) (num 0)))
    (fun u => { u with gen := { u.gen with slot := some 0, done := n } })))

/-- StreamStoresComplete: a word and a poisoned token staged in scratch, a block in memory, a ready slot, and a block of a slot that
is not its last and one that is. -/
theorem witness_StreamStoresComplete :
    (∀ x ∈ [num 8, psn0], ∃ e, MayTake (onInstr (.sts next1 0) scrDesc x (num 0) (num 0)) e (streamDesc e.win 0) next1 x ∧
      (!x.isMk && !genWaits (onInstr (.sts next1 0) scrDesc x (num 0) (num 0)) e && (streamDesc e.win 0).scratch &&
        (stageSpan (onInstr (.sts next1 0) scrDesc x (num 0) (num 0)) e.c true 0 4 x).1) = true) ∧
    (∃ e, MayTake (mapped (onInstr (.stb next1 0 false) blkDesc block1 (num 0) (num 0))) e (streamDesc e.win 0) next1 block1 ∧
      (!(streamDesc e.win 0).scratch && (probe (mapped (onInstr (.stb next1 0 false) blkDesc block1 (num 0) (num 0))) e.c 0 true).1.isNone &&
        (stageAt (mapped (onInstr (.stb next1 0 false) blkDesc block1 (num 0) (num 0))) e.c false 0 (BitVec.allOnes 64) block1.data
          (some block1.desc)).1) = true) ∧
    (∃ e, MayTake (withBob 2 0 (onInstr (.stb next1 0 true) blkDesc (num 0) (num 0) (num 0))) e (streamDesc e.win 0) next1 (num 0) ∧
      (getBob e.ctx.mem (streamDesc e.win 0).bob == some bob2 && slotState e.ctx.mem bob2 bob2.head == 2) = true) ∧
    (∀ n ∈ [2, 3], ∃ e, MayIterate (draining n) e (streamDesc e.win 0) next1 ∧
      (let a := genAddr (streamDesc e.win 0) e.u.gen
       getBob e.ctx.mem (streamDesc e.win 0).bob == some bob2 && e.u.gen.slot == some 0 && !genLast (streamDesc e.win 0) e.u.gen &&
        (decide (e.u.gen.done + 1 < slotBlocks bob2) == decide (n = 2)) && !(streamDesc e.win 0).scratch && (probe (draining n) e.c a true).1.isNone &&
        (stageAt (draining n) e.c false a (BitVec.allOnes 64) (slotRead (draining n) e.c e.ctx.mem bob2 0 n).1.data
          (some (slotRead (draining n) e.c e.ctx.mem bob2 0 n).1.desc)).1) = true) := by
  refine ⟨fun x hx => ?_, takes_meets (by decide +kernel), takes_meets (by decide +kernel), fun n hn => ?_⟩
  rotate_left
  · rcases List.mem_cons.1 hn with rfl | hn
    · exact iterates_meets (by decide +kernel)
    · obtain rfl := List.mem_singleton.1 hn
      exact iterates_meets (by decide +kernel)
  rcases List.mem_cons.1 hx with rfl | hx
  · exact takes_meets (by decide +kernel)
  · obtain rfl := List.mem_singleton.1 hx
    exact takes_meets (by decide +kernel)

/-- GeneratorWalk: the last iteration of a walk of 2 by 3, and one before the inner dimension's end. -/
theorem witness_GeneratorWalk :
    (let d := { streamDesc (blockOf [] [] (ElemSt.init 0)) 0 with counts := [2, 3], strides := [4, 64] }
     let g (a b : Nat) : Gen := { Gen.init 0 with active := true, c0 := a, c1 := b }
     (∀ c ∈ d.counts, 0 < c) ∧ d.strides.length = d.counts.length ∧
     genCounters (g 1 2) = [5 / 1 % 2, 5 / 2 % 3, 0, 0] ∧ genCounters (g 0 1) = [2 / 1 % 2, 2 / 2 % 3, 0, 0]) := by decide

/-- LoadsAndStoresComplete: the clauses of LD, LDX, PREF and ST in their spaces, and their bad addresses. -/
theorem witness_LoadsAndStoresComplete :
    (∃ e, MayFire (onInstr (.ld mem1 .s 0 true .w16) [] (num 62) (num 0) (num 0)) e [.a] (tgt1 next1) ∧
      (turnB (.ld mem1 .s 0 true .w16) e && formAddr e .s 0 (operands e.u).a == some 62 &&
        isVal (readWithin (onInstr (.ld mem1 .s 0 true .w16) [] (num 62) (num 0) (num 0)) e.c true 62 2 false)) = true) ∧
    (∃ e, MayFire (mapped (onInstr (.ldx mem1 .g 0 false .w32) [] (num 60) (num 0) (num 0))) e [.a] (tgt1 next1) ∧
      (turnB (.ldx mem1 .g 0 false .w32) e && formAddr e .g 0 (operands e.u).a == some 60 &&
        isVal (readWithin (mapped (onInstr (.ldx mem1 .g 0 false .w32) [] (num 60) (num 0) (num 0))) e.c false 60 4 true)) = true) ∧
    (∃ e, MayFire (onInstr (.ld mem1 .w 0 false .w32) [] (num 252) (num 0) (num 0)) e [.a] (tgt1 next1) ∧
      (turnB (.ld mem1 .w 0 false .w32) e && formAddr e .w 0 (operands e.u).a == some 252 &&
        (readW (onInstr (.ld mem1 .w 0 false .w32) [] (num 252) (num 0) (num 0)) e.c 63 false).1.isSome) = true) ∧
    (∃ e, MayFire (onInstr (.ld mem1 .s 0 false .w32) [] (num 2) (num 0) (num 0)) e [.a] (tgt1 next1) ∧
      (turnB (.ld mem1 .s 0 false .w32) e && formAddr e .s 0 (operands e.u).a == some 2) = true) ∧
    (∃ e, MayFire (onInstr (.ldx mem1 .s 0 false .w32) [] psn0 (num 0) (num 0)) e [.a] (tgt1 next1) ∧
      (turnB (.ldx mem1 .s 0 false .w32) e && (formAddr e .s 0 (operands e.u).a).isNone) = true) ∧
    (∀ x ∈ [num 4, psn0], ∃ e, MayFire (onInstr (.pref mem1 0 .line) [] x (num 0) (num 0)) e [.a] (tgt1 next1) ∧
      (turnB (.pref mem1 0 .line) e && (carryVa e.ctx.mem 0 (operands e.u).a.word).isSome && (operands e.u).a.psn == x.psn) = true) ∧
    (∀ x ∈ [num 4, psn0], ∃ e, MayFire (onInstr (.st mem1 .s 0 .w8) [] (num 4095) x (num 0)) e [.a, .b] (tgt1 next1) ∧
      (turnB (.st mem1 .s 0 .w8) e && formAddr e .s 0 (operands e.u).a == some 4095 &&
        (if x.psn then stageSubst (onInstr (.st mem1 .s 0 .w8) [] (num 4095) x (num 0)) e.c true 4095
          else stageWordAt (onInstr (.st mem1 .s 0 .w8) [] (num 4095) x (num 0)) e.c true 4095 1 x.word).1) = true) ∧
    (∃ e, MayFire (onInstr (.st mem1 .w 0 .w32) [] (num 0) (num 3) (num 0)) e [.a, .b] (tgt1 next1) ∧
      (turnB (.st mem1 .w 0 .w32) e && formAddr e .w 0 (operands e.u).a == some 0 &&
        (stageW (onInstr (.st mem1 .w 0 .w32) [] (num 0) (num 3) (num 0)) e.c 0 { val := 3, psn := false }).1) = true) := by
  refine ⟨fires_meets (by decide +kernel), fires_meets (by decide +kernel), fires_meets (by decide +kernel), fires_meets (by decide +kernel),
    fires_meets (by decide +kernel), fun x hx => ?_, fun x hx => ?_, fires_meets (by decide +kernel)⟩ <;>
  · rcases List.mem_cons.1 hx with rfl | hx
    · exact fires_meets (by decide +kernel)
    · obtain rfl := List.mem_singleton.1 hx
      exact fires_meets (by decide +kernel)

/-- StagedStore: a half word at the end of a block of scratch, staged by the unit in focus. -/
theorem witness_StagedStore :
    ∃ e, (∃ t, MayFire (onInstr (.st mem1 .s 0 .w16) [] (num 62) (num 0x1234) (num 0)) e [.a, .b] (tgt1 next1) ∧
      stageWordAt (onInstr (.st mem1 .s 0 .w16) [] (num 62) (num 0x1234) (num 0)) e.c true 62 2 0x1234 = (true, t)) ∧
      decide (62 < scratchSize (onInstr (.st mem1 .s 0 .w16) [] (num 62) (num 0x1234) (num 0)) e.c) = true ∧
      ∀ part b, regionErrs (onInstr (.st mem1 .s 0 .w16) [] (num 62) (num 0x1234) (num 0)) e.c part b = [] := by
  obtain ⟨e, he, hp⟩ := fires_meets (s := onInstr (.st mem1 .s 0 .w16) [] (num 62) (num 0x1234) (num 0)) (sl := [.a, .b]) (tg := tgt1 next1)
    (P := fun e => (stageWordAt (onInstr (.st mem1 .s 0 .w16) [] (num 62) (num 0x1234) (num 0)) e.c true 62 2 0x1234).1 &&
      decide (62 < scratchSize (onInstr (.st mem1 .s 0 .w16) [] (num 62) (num 0x1234) (num 0)) e.c)) (by decide +kernel)
  simp only [Bool.and_eq_true] at hp
  exact ⟨e, ⟨_, he, Prod.ext hp.1 rfl⟩, hp.2, fun _ _ => rfl⟩

/-- LineWrites, AtomicEffect: a line of a normal frame and one of a memory-side frame. -/
theorem witness_PlainLine : PlainLine (mapped onData) 1024 ∧
    PlainLine { onData with mem := { onData.mem with frames := [(1, { Frame.init with ms := true })] } } 1024 :=
  ⟨⟨⟨(fun x h => by cases h), rfl, by decide, by decide, (fun p h => by cases h), .nil, by decide +kernel⟩, by decide, by decide +kernel,
     (fun x h => by cases h)⟩,
   ⟨⟨(fun x h => by cases h), rfl, by decide, by decide, (fun p h => by cases h), .nil, by decide +kernel⟩, by decide, by decide +kernel,
     (fun x h => by cases h)⟩⟩

def isDone (r : Atomic) : Bool := match r with
  | .done .. => true
  | _ => false

/-- AtomicEffect: an address that leads to HBM, a block of memory and of scratch that is not poisoned. -/
theorem witness_AtomicEffect :
    (resolve (mapped onData) (.node 0) 0 true = (.at 0 65536 true, mapped onData) ∧ (peekLine (mapped onData) (lineKey 0 65536)).psn = false ∧
      (mapped onData).hl.inj = []) ∧
    (∃ e, MayFire (onInstr (.atom mem1 .s 0 0) [] (num 4092) (num 1) (num 0)) e [.a, .b] (tgt1 next1) ∧
      (decide (4092 < scratchSize (onInstr (.atom mem1 .s 0 0) [] (num 4092) (num 1) (num 0)) e.c) && e.ctx.mem.scratch.wf &&
        !(e.ctx.mem.scratch.readLine (4092 / 64)).psn) = true) :=
  ⟨by decide +kernel, fires_meets (by decide +kernel)⟩

/-- AtomicsComplete: ATOM, CAS and TAS that may be performed, in memory and in scratch; a poisoned operand. -/
theorem witness_AtomicsComplete :
    (∃ e, MayFire (mapped (onInstr (.atom mem1 .g 0 9) [] (num 4) (num 7) (num 0))) e [.a, .b] (tgt1 next1) ∧
      (turnB (.atom mem1 .g 0 9) e && freshB e && formAddr e .g 0 (operands e.u).a == some 4 &&
        isDone (atomicAt (mapped (onInstr (.atom mem1 .g 0 9) [] (num 4) (num 7) (num 0))) e .g 4 4 (fun x => x))) = true) ∧
    (∃ e, MayFire (onInstr (.cas mem1 .s 0) [] (num 4) (num 0) (num 9)) e [.a, .b, .c] (tgt1 next1) ∧
      (turnB (.cas mem1 .s 0) e && freshB e && formAddr e .s 0 (operands e.u).a == some 4 && !(operands e.u).c.psn &&
        isDone (atomicAt (onInstr (.cas mem1 .s 0) [] (num 4) (num 0) (num 9)) e .s 4 4 (fun x => x))) = true) ∧
    (∃ e, MayFire (onInstr (.tas mem1 .s 0) [] (num 4) (num 33) (num 0)) e [.a, .b] (tgt1 next1) ∧
      (turnB (.tas mem1 .s 0) e && freshB e && isDone (atomicAt (onInstr (.tas mem1 .s 0) [] (num 4) (num 33) (num 0)) e .s 4 4
        (fun x => x))) = true) ∧
    (∃ e, MayFire (onInstr (.tas mem1 .s 0) [] (num 4) psn0 (num 0)) e [.a, .b] (tgt1 next1) ∧
      (turnB (.tas mem1 .s 0) e && (operands e.u).b.psn) = true) :=
  ⟨fires_meets (by decide +kernel), fires_meets (by decide +kernel), fires_meets (by decide +kernel), fires_meets (by decide +kernel)⟩

/-- A firing of the unit in focus that is outstanding. -/
def pend1 (a b c : Token) (phase val step : Nat) : Pend := { a := a, b := b, c := c, phase := phase, val := BitVec.ofNat 64 val, step := step }
def waiting (p : Pend) (s : State) : State := withUnit s (fun u => { u with pend := [p] })
def inPhase (n : Nat) (s : State) : State := withCtx s (fun x => { x with phase := n, sysPhase := n })

/-- The counter at address 8 of page 0 holds 5. -/
def counter5 (s : State) : State := writeLine (mapped s) 1024 (byteMask 8 8) (putNat 0 8 8 5) none

/-- What WAITGE reads of a counter at a VA. -/
def counterSeen (s : State) (c : CtxId) (va : Dword) : Option Nat :=
  match resolve s c va false with
  | (.at t a w, s0) => match (portLine s0 c (.at t a w)).1 with
    | some l => if l.psn then none else some (lineNat l.data (va.toNat % 64) 8)
    | none => none
  | _ => none

/-- A WAITGE of unit 0 that has been told of the value 5. -/
def notified (s : State) : State :=
  { s with mem := { s.mem with waits := [{ id := 0, c := .node 0, idx := 0, key := 1024, ofs := 8, target := 5, seen := some 5 }] } }

/-- CountersComplete: CNTADD at once and after a boundary of either scope; WAITGE that has just been reached and one below. -/
theorem witness_CountersComplete :
    (∃ e, MayFire (counter5 (onInstr (.cntadd mem1 0 .none) [] (num 8) (num 1) (num 0))) e [.a, .b] (tgt1 next1) ∧
      (turnB (.cntadd mem1 0 .none) e && freshB e && formVa e 0 (operands e.u).a == some 8 && !(operands e.u).b.psn &&
        isDone (atomicG (counter5 (onInstr (.cntadd mem1 0 .none) [] (num 8) (num 1) (num 0))) e 8 8 (fun x => x + 1))) = true) ∧
    (∀ r ∈ [CntRel.dev, .sys], ∃ e, MayFire (onInstr (.cntadd mem1 0 r) [] (num 8) (num 1) (num 0)) e [.a, .b] (tgt1 next1) ∧
      (turnB (.cntadd mem1 0 r) e && freshB e && formVa e 0 (operands e.u).a == some 8) = true) ∧
    (∃ e, MayFire (counter5 (onInstr (.waitge mem1 0) [] (num 8) (num 5) (num 0))) e [.a, .b, .c] (tgt1 next1) ∧
      (turnB (.waitge mem1 0) e && freshB e && formVa e 0 (operands e.u).a == some 8 && counterSeen (counter5 (onInstr (.waitge mem1 0) [] (num 8) (num 5) (num 0))) e.c 8 == some 5) = true) ∧
    (∃ e, MayFire (counter5 (onInstr (.waitge mem1 0) [] (num 8) (num 6) (num 0))) e [.a, .b, .c] (tgt1 next1) ∧
      (turnB (.waitge mem1 0) e && freshB e && formVa e 0 (operands e.u).a == some 8 && counterSeen (counter5 (onInstr (.waitge mem1 0) [] (num 8) (num 6) (num 0))) e.c 8 == some 5) = true) ∧
    (∃ e p, Held (inPhase 1 (waiting (pend1 (num 8) (num 1) (num 0) 0 0 1) (counter5 (onInstr (.cntadd mem1 0 .dev) [] (num 8) (num 1) (num 0))))) e p ∧
      (freshB e && decide (p.phase < e.ctx.phase) && formVa e 0 p.a == some 8 && !p.b.psn && isDone (atomicG (inPhase 1 (waiting
        (pend1 (num 8) (num 1) (num 0) 0 0 1) (counter5 (onInstr (.cntadd mem1 0 .dev) [] (num 8) (num 1) (num 0))))) e 8 8 (fun x => x + 1))) = true) ∧
    (∃ e p, Held (notified (waiting (pend1 (num 8) (num 5) (num 0) 0 0 2) (onInstr (.waitge mem1 0) [] (num 8) (num 5) (num 0)))) e p ∧
      (freshB e && p.val.toNat == 0 && p.b.word == 5) = true) := by
  refine ⟨fires_meets (by decide +kernel), fun r hr => ?_, fires_meets (by decide +kernel), fires_meets (by decide +kernel),
    holdsOne_meets (by decide +kernel), holdsOne_meets (by decide +kernel)⟩
  rcases List.mem_cons.1 hr with rfl | hr
  · exact fires_meets (by decide +kernel)
  · obtain rfl := List.mem_singleton.1 hr
    exact fires_meets (by decide +kernel)

def devOrder : Order := { acq := false, rel := false, scope := .dev }
def relOrder : Order := { acq := false, rel := true, scope := .dev }
def fldOrder : Order := { acq := false, rel := false, scope := .field }

/-- The node in barrier group 1 of two nodes. -/
def grouped (s : State) : State := withNode s (fun n => { n with lrec := { n.lrec with group := 1, barCount := 2 } })

/-- OrderAndBarriersComplete: each instruction may issue; a phase that has ended; barriers in the block and in a group,
complete and not. -/
theorem witness_OrderAndBarriersComplete :
    (∃ e, MayFire (onInstr (.fence next1 7) [] (num 0) (num 0) (num 0)) e [.a] (tgt1 next1) ∧ turnB (.fence next1 7) e = true) ∧
    (∃ e, MayFire (onInstr (.phase next1 7 .sys) [] (num 0) (num 0) (num 0)) e [.a] (tgt1 next1) ∧ turnB (.phase next1 7 .sys) e = true) ∧
    (∃ e p, Held (inPhase 1 (waiting (pend1 (num 0) (num 0) (num 0) 0 0 1) (onInstr (.phase next1 7 .sys) [] (num 0) (num 0) (num 0)))) e p ∧
      decide (p.phase < e.ctx.phase) = true) ∧
    (∃ e, MayFire (onInstr (.agcfg next1 0 devOrder false) [5] (num 8) (num 0) (num 0)) e [.a, .b] (tgt1 next1) ∧
      (turnB (.agcfg next1 0 devOrder false) e && freshB e && !(operands e.u).a.psn && !(operands e.u).b.psn) = true) ∧
    (∃ e, MayFire (counter5 (onInstr (.agcfg next1 0 devOrder true) [5] (num 8) (num 0) (num 0))) e [.a, .b] (tgt1 next1) ∧
      (turnB (.agcfg next1 0 devOrder true) e && freshB e &&
        isVal (readWithin (counter5 (onInstr (.agcfg next1 0 devOrder true) [5] (num 8) (num 0) (num 0))) e.c false 8 8 true)) = true) ∧
    (∃ e, MayFire (onInstr (.agcfg next1 0 relOrder true) [5] (num 8) (num 0) (num 0)) e [.a, .b] (tgt1 next1) ∧
      turnB (.agcfg next1 0 relOrder true) e = true) ∧
    (∃ e, MayFire (onInstr (.bar next1 0 devOrder) [3] (num 0) (num 0) (num 0)) e [.a] (tgt1 next1) ∧
      (openB e && (noGroup (onInstr (.bar next1 0 devOrder) [3] (num 0) (num 0) (num 0)) e false == false) && !logFull e) = true) ∧
    (∃ e, MayFire (grouped (onInstr (.arrv next1 0 false .dev) [3] (num 0) (num 0) (num 0))) e [.a] (tgt1 next1) ∧
      (openB e && !noGroup (grouped (onInstr (.arrv next1 0 false .dev) [3] (num 0) (num 0) (num 0))) e true && !logFull e &&
        barRoom (grouped (onInstr (.arrv next1 0 false .dev) [3] (num 0) (num 0) (num 0))) 1 3) = true) ∧
    (∃ e p, Held (waiting (pend1 (num 0) (num 0) (num 0) 0 0 1) (onInstr (.bar next1 0 devOrder) [3] (num 0) (num 0) (num 0))) e p ∧
      (decide (p.step ≠ 0) && genComplete (waiting (pend1 (num 0) (num 0) (num 0) 0 0 1) (onInstr (.bar next1 0 devOrder) [3] (num 0) (num 0)
        (num 0))) e (barId e 0) true p.val.toNat) = true) ∧
    (∃ e p, Held (inPhase 1 (waiting (pend1 (num 0) (num 0) (num 0) 0 0 0) (grouped (onInstr (.arrv next1 0 true .dev) [3] (num 0) (num 0) (num 0))))) e p ∧
      relOver e .dev p = true) ∧
    (∃ e, MayFire (grouped (onInstr (.bwait next1 0 false .dev) [3] (num 0) (num 0) (num 0))) e [.a] (tgt1 next1) ∧
      (openB e && !noGroup (grouped (onInstr (.bwait next1 0 false .dev) [3] (num 0) (num 0) (num 0))) e true &&
        genComplete (grouped (onInstr (.bwait next1 0 false .dev) [3] (num 0) (num 0) (num 0))) e 3 true (operands e.u).a.word.toNat) = true) ∧
    (∃ e, MayFire (grouped (onInstr (.bwait next1 0 false .dev) [3] (num 1) (num 0) (num 0))) e [.a] (tgt1 next1) ∧
      (openB e && !genComplete (grouped (onInstr (.bwait next1 0 false .dev) [3] (num 1) (num 0) (num 0))) e 3 true
        (operands e.u).a.word.toNat) = true) :=
  ⟨fires_meets (by decide +kernel), fires_meets (by decide +kernel), holdsOne_meets (by decide +kernel), fires_meets (by decide +kernel),
   fires_meets (by decide +kernel), fires_meets (by decide +kernel), fires_meets (by decide +kernel), fires_meets (by decide +kernel),
   holdsOne_meets (by decide +kernel), holdsOne_meets (by decide +kernel), fires_meets (by decide +kernel), fires_meets (by decide +kernel)⟩

/-- BanksComplete, one unit: SPLIT that takes and one that is refused for a held entry and for room; a definition that is
made, refused, and retired; the waits and advances of a bobbin, and of none; the tile table. -/
theorem witness_BanksComplete :
    (∃ e, MayFire (onInstr (.split next1 0) [2] (num 0) (num 0) (num 0)) e [.a] (tgt1 next1) ∧
      (openB e && canGrow (onInstr (.split next1 0) [2] (num 0) (num 0) (num 0)) e 2) = true) ∧
    (∃ e, MayFire (withMem (onInstr (.split next1 0) [1] (num 0) (num 0) (num 0)) (fun m => { m with wr := 2, entW := true })) e
      [.a] (tgt1 next1) ∧ (openB e && decide (1 < e.ctx.mem.wr) && waysUsed e.ctx.mem) = true) ∧
    (∃ e, MayFire (onInstr (.split next1 0) [12] (num 0) (num 0) (num 0)) e [.a] (tgt1 next1) ∧
      (openB e && !canGrow (onInstr (.split next1 0) [12] (num 0) (num 0) (num 0)) e 12) = true) ∧
    (∃ e, MayFire (onInstr (.bobdef next1 0 false) [0, 0x04408000] (num 0) (num 0) (num 0)) e [.a] (tgt1 next1) ∧
      (openB e && decide (bobdefStatus (onInstr (.bobdef next1 0 false) [0, 0x04408000] (num 0) (num 0) (num 0)) e 2 bob2 false = 0) &&
        (bobbinWords (poolWord e.win 0) (poolWord e.win 1) == (2, bob2))) = true) ∧
    (∃ e, MayFire (onInstr (.bobdef next1 0 true) [0, 0x04408000] (num 0) (num 0) (num 0)) e [.a] (tgt1 next1) ∧
      (openB e && decide (bobdefStatus (onInstr (.bobdef next1 0 true) [0, 0x04408000] (num 0) (num 0) (num 0)) e 2 bob2 true = 3)) = true) ∧
    (∃ e, MayFire (withBob 0 0 (onInstr (.bobdef next1 0 true) [0, 0x04408000] (num 0) (num 0) (num 0))) e [.a] (tgt1 next1) ∧
      (openB e && decide (bobdefStatus (withBob 0 0 (onInstr (.bobdef next1 0 true) [0, 0x04408000] (num 0) (num 0) (num 0))) e 2 bob2 true = 0) &&
        getBob e.ctx.mem 2 == some bob2) = true) ∧
    (∃ e, MayFire (withBob 2 2 onData) e [.a] (tgt1 next1) ∧
      (getBob e.ctx.mem 2 == some bob2 && slotState e.ctx.mem bob2 0 == 2 && slotState e.ctx.mem bob2 1 == 2) = true) ∧
    (∃ e, MayFire (withBob 0 0 onData) e [.a] (tgt1 next1) ∧
      (slotState e.ctx.mem bob2 0 == 0 && slotState e.ctx.mem bob2 1 == 0 && (badvMany 2 true 2 e.ctx.mem).2 == 0) = true) ∧
    (∃ e, MayFire onData e [.a] (tgt1 next1) ∧
      ((getBob e.ctx.mem 2).isNone && !(operands e.u).a.psn && !entryHeld onData e 511) = true) :=
  ⟨fires_meets (by decide +kernel), fires_meets (by decide +kernel), fires_meets (by decide +kernel), fires_meets (by decide +kernel),
   fires_meets (by decide +kernel), fires_meets (by decide +kernel), fires_meets (by decide +kernel), fires_meets (by decide +kernel),
   fires_meets (by decide +kernel)⟩

/-- BanksComplete, memory: an extent that is mapped to HBM, for CWB, CFLUSH, PIN, UNPIN and CINV; a CFLUSH of everything
and its end; MAPW and UNMAPW, at once and with `.rel`. -/
theorem witness_BanksComplete_memory :
    (∀ i ∈ [Instr.cwb mem1 .line, .cflush mem1 .sblk, .pin mem1 true, .unpin mem1 true, .cinv mem1 .g .line],
      ∃ e, MayFire (mapped (onInstr i [] (num 64) (num 0) (num 0))) e [.a] (tgt1 next1) ∧
        (turnB i e && freshB e && carryVa e.ctx.mem 0 (operands e.u).a.word == some 64 &&
          decide ((resolve (mapped (onInstr i [] (num 64) (num 0) (num 0))) e.c 64 false).1 = .at 0 65600 true)) = true) ∧
    (∃ e, MayFire (onInstr (.cflush mem1 .all) [] (num 0) (num 0) (num 0)) e [.a] (tgt1 next1) ∧ turnB (.cflush mem1 .all) e = true) ∧
    (∃ e p, Held (inPhase 1 (waiting (pend1 (num 0) (num 0) (num 0) 0 0 1) (onInstr (.cflush mem1 .all) [] (num 0) (num 0) (num 0)))) e p ∧
      decide (p.phase < e.ctx.phase) = true) ∧
    (∃ e, MayFire (onInstr (.cinv mem1 .g .all) [] (num 0) (num 0) (num 0)) e [.a] (tgt1 next1) ∧ turnB (.cinv mem1 .g .all) e = true) ∧
    (∃ e, MayFire (mapped (onInstr (.mapw next1 0 devOrder true true) [0, 0, 0, 256] (num 0) (num 0) (num 0))) e [.a] (tgt1 next1) ∧
      (openB e && freshB e && !devOrder.rel) = true) := by
  refine ⟨fun i hi => ?_, fires_meets (by decide +kernel), holdsOne_meets (by decide +kernel), ?_, fires_meets (by decide +kernel)⟩
  · have h : ∀ i ∈ [Instr.cwb mem1 .line, .cflush mem1 .sblk, .pin mem1 true, .unpin mem1 true, .cinv mem1 .g .line],
        fires (mapped (onInstr i [] (num 64) (num 0) (num 0))) [.a] (tgt1 next1) (fun e =>
          turnB i e && freshB e && carryVa e.ctx.mem 0 (operands e.u).a.word == some 64 &&
          decide ((resolve (mapped (onInstr i [] (num 64) (num 0) (num 0))) e.c 64 false).1 = .at 0 65600 true)) = true := by decide +kernel
    exact fires_meets (h i hi)
  · exact fires_meets (by decide +kernel)

/-- BobbinPointers: a bobbin whose pointers stand at its last slot. -/
theorem witness_BobbinPointers :
    let m := { CtxMem.init with bobbins := [(2, { bob2 with head := 1, tail := 1 })], tiles := [(9, 2#2)] }
    let n := { CtxMem.init with bobbins := [(2, { bob2 with head := 1, tail := 1 })] }
    getBob m 2 = some { bob2 with head := 1, tail := 1 } ∧ mapWf 0 m.tiles = true ∧ (takeDrain m 2 { bob2 with head := 1, tail := 1 }).isSome = true ∧
      (badvOne m 2 { bob2 with head := 1, tail := 1 } false).isSome = true ∧ (takeFill n 2 { bob2 with head := 1, tail := 1 }).isSome = true ∧
      (badvOne n 2 { bob2 with head := 1, tail := 1 } true).isSome = true := by decide

/-- PinsCounted: each status of PIN, in a memory where its lines can be locked; a node with a pin and one without. -/
theorem witness_PinsCounted :
    (∀ lock, ∃ e, MayFire onData e [.a] (tgt1 next1) ∧ ((pinAt onData e 0x10000 lock).2 == 0) = true) ∧
    (∃ e, MayFire { onData with mem := { onData.mem with frames := [(1, { Frame.init with state := 1 })] } } e [.a] (tgt1 next1) ∧
      ((pinAt { onData with mem := { onData.mem with frames := [(1, { Frame.init with state := 1 })] } } e 0x10000 true).2 == 1) = true) ∧
    (∃ e, MayFire { onData with mem := { onData.mem with frames := [(1, { Frame.init with pins := 4095 })] } } e [.a] (tgt1 next1) ∧
      ((pinAt { onData with mem := { onData.mem with frames := [(1, { Frame.init with pins := 4095 })] } } e 0x10000 true).2 == 2) = true) ∧
    (∃ e, MayFire (withCtx onData (fun x => { x with pins := List.replicate 64 (0, false, none) })) e [.a] (tgt1 next1) ∧
      ((pinAt (withCtx onData (fun x => { x with pins := List.replicate 64 (0, false, none) })) e 0x10000 true).2 == 3) = true) ∧
    (∃ e, MayFire { onData with mem := { onData.mem with frames := [(1, { Frame.init with ms := true })] } } e [.a] (tgt1 next1) ∧
      ((pinAt { onData with mem := { onData.mem with frames := [(1, { Frame.init with ms := true })] } } e 0x10000 true).2 == 5) = true) ∧
    (PlainMemory onData ∧ onData.mem.soft = [] ∧ mapWf Frame.init onData.mem.frames = true) ∧
    (∃ e, MayFire onData e [.a] (tgt1 next1) ∧ ((unpinAt onData e 0x10000 true).2 == 3) = true) ∧
    (∃ e, MayFire (withCtx onData (fun x => { x with pins := [(1, true, none)] })) e [.a] (tgt1 next1) ∧
      ((unpinAt (withCtx onData (fun x => { x with pins := [(1, true, none)] })) e 0x10000 true).2 == 0) = true) :=
  ⟨fun lock => by cases lock <;> exact fires_meets (by decide +kernel), fires_meets (by decide +kernel), fires_meets (by decide +kernel),
   fires_meets (by decide +kernel), fires_meets (by decide +kernel),
   ⟨⟨(fun x h => by cases h), rfl, by decide, by decide, (fun p h => by cases h), .nil, by decide +kernel⟩, rfl, rfl⟩,
   fires_meets (by decide +kernel), fires_meets (by decide +kernel)⟩

/-! ### Group 0x8 -/

/-- Array 0 fused on one cell of the region, with a weight set of four planes; two drain VEs and 16 accumulator rows. -/
def arr1 : SeaArray := { fusedArray (0, 0, 1, 1) [0] with set0 := { WeightSet.init with p := 4, tiles := [(0, [1, 0, 0, 0])] } }
def sea (l : List SeaArray) (s : State) : State :=
  withCtx (withWin s (fun w => { w with t2 := 0x00020010#32 })) (fun x => { x with sea := { x.sea with arrays := l } })
def free4 : SeaArray := SeaArray.init
/-- A second array, east and south of array 0. -/
def arr2 : SeaArray := fusedArray (1, 1, 1, 1) [1]

/-- SeaConfigures: the statuses of FUSE, UNFUSE, WSWAP, EDLY, SKEWC and SEAQ, and what each of them does. -/
theorem witness_SeaConfigures :
    (∃ e, MayFire (sea [arr1, free4, free4, free4] onData) e [.a] (tgt1 next1) ∧
      ((getArr e.ctx 0).fused && (getArr e.ctx 0).swap.isNone && e.ctx.boundary.isNone && !arrayLeaving e 0 && arrayIdle e 0 && !(getArr e.ctx 1).fused &&
        decide (skewStatus e.ctx 0 1 = 1) && (getArr e.ctx 0).skew.isNone && countersFit (sea [arr1, free4, free4, free4] onData) e.c
          { arr1 with wadd := 5, sadd := 0 }) = true) ∧
    (∃ e, MayFire (withWin (sea [free4, arr1, free4, free4] onData) (fun w => { w with pool := [0] })) e [.a] (tgt1 next1) ∧
      (!(getArr e.ctx 0).fused && e.ctx.sea.arrays.any (fun b => b.fused && rectsMeet (rectWord (poolWord e.win 0)) (arrRect b))) = true) ∧
    (∃ e, MayFire (withWin (sea [free4, free4, free4, free4] onData) (fun w => { w with pool := [0x000F0000#32] })) e [.a] (tgt1 next1) ∧
      (!(getArr e.ctx 0).fused && decide ((freeDrains e.ctx (winNve e.win)).length < ((rectWord (poolWord e.win 0)).2.2.1 + 3) / 4)) = true) ∧
    (∃ e, MayFire (withWin (sea [free4, free4, free4, free4] onData) (fun w => { w with pool := [0x00070000#32] })) e [.a] (tgt1 next1) ∧
      (!(getArr e.ctx 0).fused && decide (((rectWord (poolWord e.win 0)).2.2.1 + 3) / 4 ≤ (freeDrains e.ctx (winNve e.win)).length)) = true) ∧
    (∃ e p, Held (inPhase 1 (waiting (pend1 (num 0) (num 0) (num 0) 0 0 1) (sea [arr1, free4, free4, free4] onData))) e p ∧
      decide (p.phase < e.ctx.phase) = true) ∧
    (∃ e, MayFire (sea [arr1, arr2, free4, free4] onData) e [.a] (tgt1 next1) ∧
      (e.ctx.boundary.isNone && decide (skewStatus e.ctx 0 1 = 0)) = true) ∧
    (∃ e, MayFire (sea [{ arr1 with skew := some 1 }, arr2, free4, free4] onData) e [.a] (tgt1 next1) ∧
      ((getArr e.ctx 0).skew == some 1 && (getArr e.ctx 1).skewIn.isEmpty && e.ctx.boundary.isNone && !drainStalled e.win 0) = true) ∧
    (∃ e, MayFire (sea [arr1, free4, free4, free4] onData) e [.a] (tgt1 next1) ∧
      (!(operands e.u).a.psn && decide (seaqWord (sea [arr1, free4, free4, free4] onData) e arr1 1 5 = some 0) &&
        decide (seaqWord (sea [arr1, free4, free4, free4] onData) e arr1 2 5 = none)) = true) :=
  ⟨fires_meets (by decide +kernel), fires_meets (by decide +kernel), fires_meets (by decide +kernel), fires_meets (by decide +kernel),
   holdsOne_meets (by decide +kernel), fires_meets (by decide +kernel), fires_meets (by decide +kernel), fires_meets (by decide +kernel)⟩

/-- AccumulatorsComplete: rows in range and one beyond; a drain to the target and one onto a skew circuit; rows staged in
scratch and read back. -/
theorem witness_AccumulatorsComplete :
    (∃ e, MayFire (withWin (sea [arr1, free4, free4, free4] onData) (fun w => { w with pool := [0x0001000F#32, 0x00000001#32] })) e [.a] (tgt1 next1) ∧
      ((accInside e.win (accRange (poolWord e.win 0))).length == 1 && accBeyond e.win (accRange (poolWord e.win 0)) == 1 &&
        (getArr e.ctx 0).fused && !(drainFmt (poolWord e.win 1)).dst && !drainStalled e.win 0 && !arrayLeaving e 0) = true) ∧
    (∃ e, MayFire (withWin (sea [{ arr1 with skew := some 1 }, arr2, free4, free4] onData) (fun w => { w with pool := [0, 0x00080001#32] })) e
      [.a] (tgt1 next1) ∧ ((getArr e.ctx 0).fused && !drainStalled e.win 0 && !arrayLeaving e 0 && (drainFmt (poolWord e.win 1)).dst && (getArr e.ctx 0).skew.isSome && decide ((accdrEnter e.c 0
        [[num 1]] (withWin (sea [{ arr1 with skew := some 1 }, arr2, free4, free4] onData) (fun w => { w with pool := [0, 0x00080001#32] }))).2 = [])) = true) ∧
    (∃ e, MayFire (withMem (withWin (sea [arr1, free4, free4, free4] onData) (fun w => { w with pool := [0, 0], scratch := 4096 }))
        (fun m => { m with wr := 12 })) e [.a] (tgt1 next1) ∧
      (let s := withMem (withWin (sea [arr1, free4, free4, free4] onData) (fun w => { w with pool := [0, 0], scratch := 4096 }))
        (fun m => { m with wr := 12 })
       (stageLines e.c ((List.range 64).map (fun j => (64 * j, accLine AccRow.clear j))) s).2.isEmpty &&
        (readLines e.c ((List.range 64).map (fun j => 64 * j)) s []).2.2) = true) ∧
    (∃ e, MayFire onData e [.a, .b] (headTgts (head1 .always)) ∧ predActive .always (operands e.u) = true) :=
  ⟨fires_meets (by decide +kernel), fires_meets (by decide +kernel), fires_meets (by decide +kernel), fires_meets (by decide +kernel)⟩

/-- A sound token at the head of slot a. -/
def atHead (e : Env) (x : Token) : Bool := e.u.qa.head? == some x && x.sound && x.parityOk

theorem atHead_meets {e : Env} {x : Token} (h : atHead e x = true) : AtHead e x := by
  simp only [atHead, Bool.and_eq_true, beq_iff_eq] at h
  exact ⟨h.1.1, h.1.2, h.2⟩

/-- An edge that holds a whole row. -/
def edged (s : State) : State := withUnit s (fun u => { u with sea := { u.sea with edge := List.replicate 16 (Machine.Num.ofInt 3, false) } })

/-- A row at the edge of an MMAO with DST 1 whose circuit is `skew`, and of an MMA beyond the accumulator's rows. -/
def skewed (skew : Option Nat) : State :=
  edged (withWin (sea [{ arr1 with skew := skew }, arr2, free4, free4] onData) (fun w => { w with pool := [0xFFFF#32, 0x00080001#32] }))

/-- SeaStreams: a block of weights as a token and from a slot; a row with room in the accumulator and to the target; one beyond
the accumulator, with a circuit and without one; a marker. -/
theorem witness_SeaStreams :
    (∃ e, MaySea (sea [arr1, free4, free4, free4] (armed (blockOf [movWord, movWord] [] (holding block1 (num 0) (num 0) (num 0))))) e ∧
      ((getArr e.ctx 0).fused && roomFor e (tgt1 next1) && (getArr e.ctx 0).swap.isNone && !(idleSet (getArr e.ctx 0)).used &&
        e.u.sea.slot.isNone && atHead e block1 && !block1.isMk) = true) ∧
    (∃ e, MaySea (withUnit (withBob 3 0 (sea [arr1, free4, free4, free4] onData)) (fun u => { u with sea := { u.sea with slot := some (2, 0), loading := true } })) e ∧
      ((getArr e.ctx 0).fused && roomFor e (tgt1 next1) && e.u.sea.loading && e.u.sea.slot == some (2, 0) && getBob e.ctx.mem 2 == some bob2) = true) ∧
    (∃ e, MaySea (edged (sea [arr1, free4, free4, free4] onData)) e ∧
      ((getArr e.ctx 0).fused && decide (16 * (getArr e.ctx 0).h ≤ e.u.sea.edge.length) && roomFor e (tgt1 next1) &&
        (edged (sea [arr1, free4, free4, free4] onData)).hl.inj.isEmpty &&
        decide (wbits (poolWord e.win 0) 15 0 + e.u.sea.mr.toNat * rowSpan (getArr e.ctx 0) + rowSpan (getArr e.ctx 0) ≤ winAccRows e.win) &&
        !drainStalled e.win 0 && !arrayLeaving e 0 && circuitRoom e.ctx 0 && !(drainFmt (poolWord e.win 1)).dst) = true) ∧
    (∀ x ∈ [some 1, none], ∃ e, MaySea (skewed x) e ∧
      ((getArr e.ctx 0).fused && decide (16 * (getArr e.ctx 0).h ≤ e.u.sea.edge.length) && roomFor e (tgt1 next1) && (skewed x).hl.inj.isEmpty &&
        decide (winAccRows e.win < wbits (poolWord e.win 0) 15 0 + e.u.sea.mr.toNat * rowSpan (getArr e.ctx 0) + rowSpan (getArr e.ctx 0)) &&
        !drainStalled e.win 0 && !arrayLeaving e 0 && circuitRoom e.ctx 0 && (drainFmt (poolWord e.win 1)).dst &&
        (enterCircuit (skewed x) e.c 0 []).isSome == x.isSome) = true) ∧
    (∃ e, MaySea (sea [arr1, free4, free4, free4] onMarks) e ∧
      ((getArr e.ctx 0).fused && e.u.sea.edge.isEmpty && decide (0 < (getArr e.ctx 0).h) && decide (MmaSrc.strm ≠ MmaSrc.skew) &&
        e.u.sea.slot.isNone && !drainStalled e.win 0 && !arrayLeaving e 0 && atHead e (markerTok 1) && (markerTok 1).isMk && roomFor e (tgt1 next1)) = true) :=
  ⟨seaFree_meets (by decide +kernel), seaFree_meets (by decide +kernel), seaFree_meets (by decide +kernel),
   fun x hx => by
     rcases List.mem_cons.1 hx with rfl | hx
     · exact seaFree_meets (by decide +kernel)
     · obtain rfl := List.mem_singleton.1 hx
       exact seaFree_meets (by decide +kernel),
   seaFree_meets (by decide +kernel)⟩

/-! ### Group 0x9 -/

/-- VectorLanesComplete: a vector and a scalar operand. -/
theorem witness_VectorLanesComplete :
    (∀ sl ∈ slotSets, ∃ e, MayFire (armed (blockOf [movWord, movWord] [1, 0] (holding block1 (num 1) block1 (num 1)))) e sl (tgt1 next1) ∧
      predActive .always (operands e.u) = true) := by
  intro sl h
  have : ∀ sl ∈ slotSets, fires (armed (blockOf [movWord, movWord] [1, 0] (holding block1 (num 1) block1 (num 1)))) sl (tgt1 next1)
    (fun e => predActive .always (operands e.u)) = true := by decide +kernel
  exact fires_meets (this sl h)

/-- VectorPacking: seventeen elements, of which the last, poisoned, stands alone in the second block. -/
theorem witness_VectorPacking :
    let l := List.replicate 16 (0x3F800000, false) ++ [(1, true)]
    (∀ x ∈ l, x.1 < 2 ^ Fmt.fp32.width) ∧ ((outTokens .fp32 0 l)[1]?).isSome = true ∧ ((outTokens .fp32 0 l)[1]?).map (·.psn) = some true := by
  decide +kernel

/-- VectorOthersComplete: a converter at a block and one that is due a super-scale; joined markers below and at a VRED's rank. -/
theorem witness_VectorOthersComplete :
    (∃ e, MayFire (armed (blockOf [movWord, movWord] [1, 0] (holding block1 block1 (num 0) (num 0)))) e [.a, .b] (tgt1 next1) ∧
      (!atSuper false e.u.ve) = true) ∧
    (∃ e, MayFire (armed (blockOf [movWord, movWord] [1, 0] (holding block1 block1 (num 0) (num 0)))) e [.a] (tgt1 next1) ∧
      atSuper true e.u.ve = true) ∧
    (∃ e, MayJoin onMarks e [.a] (tgt1 next1) ∧ decide ((joinRank e.u [.a]).1 = 1) = true) :=
  ⟨fires_meets (by decide +kernel), fires_meets (by decide +kernel), joined_meets (by decide +kernel)⟩

/-! ### Groups 0xA and 0xB -/

/-- A command of unit 0, as a COPY of the descriptor at pool word 0 gives it, with some fields set. -/
def cmdFor (s : State) (f : Cmd → Cmd) : State :=
  match focusEnv s with
  | some e => enterCmd s (f (cmdOf s e opCopy 0 0 devOrder))
  | none => s

/-- ShuttleIssues: a command that may be entered, and one that has completed. -/
theorem witness_ShuttleIssues :
    (∃ e, MayFire onData e [.a, .b] (tgt1 next1) ∧
      (openB e && freshB e && decide (outstanding onData e.c < 32) && decide (fieldCmds onData (cmdOf onData e opCopy 1 0 devOrder).field < 512)) = true) ∧
    (∃ e, MayFire onData e [.a] (tgt1 next1) ∧ (openB e && freshB e && !(operands e.u).a.psn) = true) ∧
    (∃ e, MaySea (waiting (pend1 (num 0) (num 0) (num 0) 0 0 1) (cmdFor onData (fun x => { x with doneAt := some 0, toks := [num 0] }))) e ∧
      (freshB e && (oldestDone (waiting (pend1 (num 0) (num 0) (num 0) 0 0 1) (cmdFor onData (fun x => { x with doneAt := some 0, toks := [num 0] })))
        e.u.pend).isSome) = true) :=
  ⟨fires_meets (by decide +kernel), fires_meets (by decide +kernel), seaFree_meets (by decide +kernel)⟩

/-- An open channel of vector tokens, or of scalar ones, whose both ends node 0 holds. -/
def chan1 (esz : Bool) : Chan :=
  { Chan.free with esz := esz, log2r := 12, soft := 4, ceil := 4, prod := 0, cons := 0, state := chOpenSt }
/-- Channel 5 in the unit, which is enabled, and endpoints 0 (push) and 1 (pop) of node 0 bound to it. -/
def channelled (c : Chan) (s : State) : State :=
  withCtx { s with chu := { s.chu with en := true, table := [(5, c)] } } (fun x =>
    { x with ends := [{ chid := 5, push := true, ending := false, fin := false }, { chid := 5, push := false, ending := false, fin := false }] })

def isPopTok (p : Popped) : Bool := match p with
  | .tok .. => true
  | _ => false
def isPopEnd (p : Popped) : Bool := match p with
  | .ends _ => true
  | _ => false

/-- ChannelRing: a ring at the pool's end, of either size of token, and each kind of token. -/
theorem witness_ChannelRing :
    (∀ esz, (channelled { chan1 esz with rbase := 0x03FFF000 } onData).mem.soft = [] ∧
      (channelled { chan1 esz with rbase := 0x03FFF000 } onData).mem.marks = [] ∧
      (channelled { chan1 esz with rbase := 0x03FFF000 } onData).mem.dirty = [] ∧
      (channelled { chan1 esz with rbase := 0x03FFF000 } onData).chu.pool.wf = true ∧
      (channelled { chan1 esz with rbase := 0x03FFF000 } onData).chu.pool.psn = [] ∧
      mapWf 0 (channelled { chan1 esz with rbase := 0x03FFF000 } onData).chu.tags = true ∧
      ({ chan1 esz with rbase := 0x03FFF000 } : Chan).rbase.toNat % 64 = 0) ∧
    (∀ n, (channelled (chan1 false) onData).chu.pool.readLine n = Line.zero) ∧ isSubst Line.zero.desc = false := by
  refine ⟨fun esz => by cases esz <;> decide +kernel, fun n => ?_, by decide⟩
  have h : (channelled (chan1 false) onData).chu.pool = Store.empty := by decide +kernel
  rw [h]
  simp [Store.readLine, Store.empty, Line.zero, mapGet, setHas, cellsNat]

/-- ChannelsComplete: a push with room, and of a marker; a pop and a peek of a token, and of an end. -/
theorem witness_ChannelsComplete :
    (∀ p ∈ [Pred.always, .ifTrue], ∃ e, MayFire (channelled (chan1 false) onData) e ([.a] ++ predSlots p) (tgt1 next1) ∧
      (endAt e 0 == some { chid := 5, push := true, ending := false, fin := false } && predActive p (operands e.u) &&
        !(chan1 false).bad && pushLive e (chan1 false) && pushRoom (chan1 false) && endHeld (channelled (chan1 false) onData) e
          { chid := 5, push := true, ending := false, fin := false }) = true) ∧
    (∃ e, MayJoin (channelled (chan1 false) onMarks) e [.a] (tgt1 next1) ∧ (pushLive e (chan1 false) && pushRoom (chan1 false)) = true) ∧
    (∀ take, ∃ e, MayFire (channelled { chan1 false with ctail := 1, ttail := 1, rt := 1 } onData) e [.a] (tgt1 next1) ∧
      (isPopTok (popFrom (channelled { chan1 false with ctail := 1, ttail := 1, rt := 1 } onData) e 1 take) && !e.u.ended) = true) ∧
    (∀ take, ∃ e, MayFire (channelled { chan1 false with state := chClosed } onData) e [.a] (tgt1 next1) ∧
      (isPopEnd (popFrom (channelled { chan1 false with state := chClosed } onData) e 1 take) && !e.u.ended && (endAt e 9).isNone) = true) := by
  refine ⟨fun p hp => ?_, joined_meets (by decide +kernel), fun take => by cases take <;> exact fires_meets (by decide +kernel),
    fun take => by cases take <;> exact fires_meets (by decide +kernel)⟩
  rcases List.mem_cons.1 hp with rfl | hp
  · exact fires_meets (by decide +kernel)
  · obtain rfl := List.mem_singleton.1 hp
    exact fires_meets (by decide +kernel)

/-- ChannelsComplete: a slot that PUSHB takes, one that POPB takes, and the last block of each. -/
theorem witness_ChannelsComplete_slots :
    (∃ e, MayFire (withBob 2 0 (channelled (chan1 true) (onInstr (.pushb next1 0) [0x200] (num 0) (num 0) (num 0)))) e [.a] (tgt1 next1) ∧
      (openB e && getBob e.ctx.mem (chepWord e.win 0).1 == some bob2 && !(scalarEnd (withBob 2 0 (channelled (chan1 true)
        (onInstr (.pushb next1 0) [0x200] (num 0) (num 0) (num 0)))) e (chepWord e.win 0).2).1 && slotState e.ctx.mem bob2 0 == 2) = true) ∧
    (∃ e, MayFire (withBob 0 0 (channelled (chan1 true) (onInstr (.popb next1 0) [0x201] (num 0) (num 0) (num 0)))) e [.a] (tgt1 next1) ∧
      (openB e && getBob e.ctx.mem (chepWord e.win 0).1 == some bob2 && !(scalarEnd (withBob 0 0 (channelled (chan1 true)
        (onInstr (.popb next1 0) [0x201] (num 0) (num 0) (num 0)))) e (chepWord e.win 0).2).1 && slotState e.ctx.mem bob2 0 == 0) = true) ∧
    (∃ e p, Held (waiting (pend1 (num 0) (num 0) (num 0) 0 3 1) (withBob 3 0 (channelled (chan1 true)
        (onInstr (.pushb next1 0) [0x200] (num 0) (num 0) (num 0))))) e p ∧
      (endAt e (chepWord e.win 0).2 == some { chid := 5, push := true, ending := false, fin := false } && pushLive e (chan1 true) &&
        pushRoom (chan1 true) && decide (slotBlocks bob2 ≤ holdDone p + 1)) = true) ∧
    (∃ e p, Held (waiting (pend1 (num 0) (num 0) (num 0) 0 3 1) (withBob 1 0 (channelled { chan1 true with ctail := 1, ttail := 1, rt := 1 }
        (onInstr (.popb next1 0) [0x201] (num 0) (num 0) (num 0))))) e p ∧
      (p.step == 1 && decide (slotBlocks bob2 ≤ holdDone p + 1) && isPopTok (popFrom (waiting (pend1 (num 0) (num 0) (num 0) 0 3 1) (withBob 1 0
        (channelled { chan1 true with ctail := 1, ttail := 1, rt := 1 } (onInstr (.popb next1 0) [0x201] (num 0) (num 0) (num 0))))) e
          (chepWord e.win 0).2 true)) = true) :=
  ⟨fires_meets (by decide +kernel), fires_meets (by decide +kernel), holdsOne_meets (by decide +kernel), holdsOne_meets (by decide +kernel)⟩

/-- ChannelsComplete: the operations of the channel unit, and a CHOPEN whose boundary is over. -/
theorem witness_ChannelsComplete_unit :
    (∃ e, MayFire (channelled (chan1 true) onData) e [.a] (tgt1 next1) ∧ (openB e && freshB e && !(operands e.u).a.psn) = true) ∧
    (∃ e p, Held (inPhase 1 (waiting (pend1 (num 5) (num 0) (num 0) 0 0 1) (channelled (chan1 true) onData))) e p ∧
      (freshB e && decide (p.phase < e.ctx.phase) && !p.a.psn) = true) :=
  ⟨fires_meets (by decide +kernel), holdsOne_meets (by decide +kernel)⟩

/-! ### Groups 0xC and 0xD -/

/-- MemSideCompletes: each operation at an aligned address of a mapped page, the read of a count, a reduction into a block,
and a conversion of frames. -/
theorem witness_MemSideCompletes :
    (∀ x ∈ [(Instr.matom mem1 0 11, [Slot.a, .b]), (.matom mem1 0 12, [.a, .b, .c]), (.mcas mem1 0 true, [.a, .b, .c]), (.mtas mem1 0 false, [.a, .b]),
        (.mcnt mem1 0 0, [.a, .b]), (.mcnt mem1 0 2, [.a])],
      ∃ e, MayFire (counter5 (onInstr x.1 [] (num 8) (num 1) (num 2))) e x.2 (tgt1 next1) ∧
        (turnB x.1 e && freshB e && formVa e 0 (operands e.u).a == some 8 && x.2.all (fun y => !(operandAt (operands e.u) y).psn) &&
          isDone (atomicG (counter5 (onInstr x.1 [] (num 8) (num 1) (num 2))) e 8 8 (fun y => y))) = true) ∧
    (∀ c ∈ [(1 : Fin 4), 3], ∃ e, MayFire (counter5 (onInstr (.mcnt mem1 0 c) [] (num 8) (num 0) (num 0))) e [.a] (tgt1 next1) ∧
      (turnB (.mcnt mem1 0 c) e && freshB e && isDone (atomicRead (counter5 (onInstr (.mcnt mem1 0 c) [] (num 8) (num 0) (num 0))) e 8 8)) = true) ∧
    (∃ e, MayFire (mapped (onInstr (.mred next1 0 devOrder .add) [0, 0, 1] (num 0) block1 (num 0))) e [.a, .b] (tgt1 next1) ∧
      (turnB (.mred next1 0 devOrder .add) e && freshB e && (mredVa (mredWords e.win 0) (operands e.u).a == 0) &&
        decide ((resolve (mapped (onInstr (.mred next1 0 devOrder .add) [0, 0, 1] (num 0) block1 (num 0))) e.c 0 true).1 = .at 0 65536 true) &&
        !isMs (mapped (onInstr (.mred next1 0 devOrder .add) [0, 0, 1] (num 0) block1 (num 0))) 1024 &&
        (mredLine .add (mredWords e.win 0) Line.zero block1).1.isSome) = true) ∧
    (∃ e, MayFire (onInstr (.framem next1 0 false) [0, 0, 0] (num 0) (num 0) (num 0)) e [.a] (tgt1 next1) ∧
      (turnB (.framem next1 0 false) e && freshB e) = true) := by
  refine ⟨fun x hx => ?_, fun c hc => ?_, fires_meets (by decide +kernel), fires_meets (by decide +kernel)⟩
  · have h : ∀ x ∈ [(Instr.matom mem1 0 11, [Slot.a, .b]), (.matom mem1 0 12, [.a, .b, .c]), (.mcas mem1 0 true, [.a, .b, .c]),
        (.mtas mem1 0 false, [.a, .b]), (.mcnt mem1 0 0, [.a, .b]), (.mcnt mem1 0 2, [.a])],
        fires (counter5 (onInstr x.1 [] (num 8) (num 1) (num 2))) x.2 (tgt1 next1) (fun e =>
          turnB x.1 e && freshB e && formVa e 0 (operands e.u).a == some 8 && x.2.all (fun y => !(operandAt (operands e.u) y).psn) &&
          isDone (atomicG (counter5 (onInstr x.1 [] (num 8) (num 1) (num 2))) e 8 8 (fun y => y))) = true := by decide +kernel
    exact fires_meets (h x hx)
  · rcases List.mem_cons.1 hc with rfl | hc
    · exact fires_meets (by decide +kernel)
    · obtain rfl := List.mem_singleton.1 hc
      exact fires_meets (by decide +kernel)

/-- A record of zeros but for its CRC: node 0, no predecessor. -/
def zeroRec : List Byte := List.replicate 60 0 ++ leBytes 4 (crc32 (List.replicate 60 0)).toNat
/-- A node that waits in the pool with a higher priority. -/
def rival (s : State) : State := { s with dsp := { s.dsp with nodes := s.dsp.nodes ++ [{ freshNode 7 { blankRec 7 with prio := 3 } with st := .ready }] } }

/-- The record of zeros with byte `k` set to `v`, its CRC made to match. -/
def recWith (k v : Nat) : List Byte :=
  let l := (List.replicate 60 (0 : Byte)).set k (BitVec.ofNat 8 v)
  l ++ leBytes 4 (crc32 l).toNat
/-- 64 nodes that reserve every entry left of the store. -/
def fullStore : State :=
  { onData with dsp := { onData.dsp with nodes := (List.range 64).map (fun k =>
      { freshNode (k + 1) { blankRec (k + 1) with children := 255 } with ctx := { (freshNode 0 (blankRec 0)).ctx with
          ckpt := some {
            win := none, carry := [], carryAtStart := [], puts := [], wr := 1, bobbins := [], tiles := [], draft := DraftSt.init 0
            sea := SeaSt.init, cmds := [], commits := 0, barBase := [], ends := [], orphans := [], sys := false } } }) } }

/-- LaunchChecks: a record that passes, and one for each cause, the class, reserved bits and alignment of R38; a launch refused for
its operand. -/
theorem witness_LaunchChecks :
    zeroRec.length = 64 ∧ checkRec State.reset zeroRec true = 0 ∧ checkRec onData zeroRec true = 4 ∧ (launchAt onData (.node 0) 0 false).2 ≠ 0 ∧
    checkRec State.reset (List.replicate 64 1) true = 1 ∧ checkRec State.reset (recWith 0 4) true = 2 ∧
    checkRec State.reset (recWith 12 0x20) true = 2 ∧ checkRec State.reset (recWith 12 0x18) true = 3 ∧
    checkRec State.reset (recWith 0x10 2) true = 6 ∧ checkRec State.reset (recWith 7 0x40) true = 6 ∧
    checkRec State.reset (recWith 7 0xFF) true = 6 ∧ checkRec fullStore zeroRec true = 5 ∧ checkRec fullStore zeroRec false = 0 := by
  decide +kernel

/-- DispatcherCompletes: a node with no entry left and one with an entry; YIELD on a core, with no rival, of a node that
may not be pre-empted and of one that may; its completion. -/
theorem witness_DispatcherCompletes :
    (∃ e, MayFire onData e [.a] (tgt1 next1) ∧ (openB e && freshB e && launchFull onData e.c) = true) ∧
    (∃ e, MayFire (withNode onData (fun n => { n with lrec := { n.lrec with children := 1 } })) e [.a] (tgt1 next1) ∧
      (openB e && freshB e && !launchFull (withNode onData (fun n => { n with lrec := { n.lrec with children := 1 } })) e.c) = true) ∧
    (∃ e, MayFire (withNode onData (fun n => { n with exec := some (.core 3) })) e [.a] (tgt1 next1) ∧
      (e.c == .node 0 && ctxCore (withNode onData (fun n => { n with exec := some (.core 3) })) e.c == some 3) = true) ∧
    (∃ e, MayFire onData e [.a] (tgt1 next1) ∧ (e.c == .node 0 && (getNode onData 0).any (fun n => !rivalWaits onData n && !n.lrec.pre) &&
      (ctxCore onData e.c).isNone) = true) ∧
    (∃ e, MayFire (rival (withNode onData (fun n => { n with lrec := { n.lrec with pre := true } }))) e [.a] (tgt1 next1) ∧
      (getNode (rival (withNode onData (fun n => { n with lrec := { n.lrec with pre := true } }))) 0).any (fun n =>
        rivalWaits (rival (withNode onData (fun n => { n with lrec := { n.lrec with pre := true } }))) n && n.lrec.pre && n.moving == .none) = true) ∧
    (∃ e p, Held (waiting (pend1 (num 0) (num 0) (num 0) 0 2 3) onData) e p ∧ (p.step == 3) = true) :=
  ⟨fires_meets (by decide +kernel), fires_meets (by decide +kernel), fires_meets (by decide +kernel), fires_meets (by decide +kernel),
   fires_meets (by decide +kernel), holdsOne_meets (by decide +kernel)⟩

/-! ### Groups 0xE and 0xF -/

/-- Core 0's firmware at level `l` with instruction `i` first. -/
def fwInstr (l : Fin 3) (i : Instr) (pool : List Nat) (a b c : Token) : State :=
  armedFw l (blockOf [(encode i).getD 0, movWord] pool (holding a b c (num 1)))
def fwWaiting (p : Pend) (s : State) : State := updUnit s (.fw 0 0) 0 (fun u => { u with pend := [p] })
/-- A record of kind 1 at address 0x40. -/
def withRecord (s : State) : State := writeLine s 1 (byteMask 0 1) (putNat 0 0 1 1) none

/-- CoresComplete: a firing in firmware at levels 0 and 1; numbers with a register and without; a TLBI in its turn; an event
that is pending; the firings that wait. -/
theorem witness_CoresComplete :
    (∃ e, MayFire (fwInstr 0 (.rte next1) [] (num 0) (num 0) (num 0)) e [.a] (tgt1 next1) ∧
      (e.c == .fw 0 0 && openB e && freshB e && !csrTraps (fwInstr 0 (.rte next1) [] (num 0) (num 0) (num 0)) 0 0x008 &&
        csrTraps (fwInstr 0 (.rte next1) [] (num 0) (num 0) (num 0)) 0 0x044 && !(operands e.u).a.psn &&
        evtPend (fwInstr 0 (.rte next1) [] (num 0) (num 0) (num 0)) 0 == 0) = true) ∧
    (∃ e, MayFire (fwInstr 1 (.rte next1) [] psn0 (num 0) (num 0)) e [.a] (tgt1 next1) ∧ (e.c == .fw 0 1 && (operands e.u).a.psn) = true) ∧
    (∃ e, MayFire (fwInstr 0 (.tlbi mem1 0 .large) [] (num 0x20000000) (num 0) (num 0)) e [.a] (tgt1 next1) ∧
      (e.c == .fw 0 0 && turnB (.tlbi mem1 0 .large) e && (carryVa e.ctx.mem 0 (operands e.u).a.word).isSome) = true) ∧
    (∃ e, MayFire (updCore fwData 0 (fun k => { k with evt := 0x10 })) e [.a] (tgt1 next1) ∧
      ((evtPend (updCore fwData 0 (fun k => { k with evt := 0x10 })) 0 &&& 0x10) != 0) = true) ∧
    (∃ e p, Held (fwWaiting (pend1 (num 0) (num 0) (num 0) 0 9 2) fwData) e p ∧ (e.c == .fw 0 0 && p.step == 2) = true) ∧
    (∃ e p, Held (fwWaiting (pend1 (num 0) (num 0) (num 0) 0 0 1) (updCore fwData 0 (fun k => { k with evt := 0x10 }))) e p ∧ (e.c == .fw 0 0) = true) :=
  ⟨fires_meets (by decide +kernel), fires_meets (by decide +kernel), fires_meets (by decide +kernel), fires_meets (by decide +kernel),
   holdsOne_meets (by decide +kernel), holdsOne_meets (by decide +kernel)⟩

/-- CoresComplete: TQPOST of a record that it may post, with room in the queue; SIGCHK and FWSWAP with and without a staged image. -/
theorem witness_CoresComplete_queue :
    (∃ e, MayFire { withRecord (fwInstr 0 (.tqpost next1 false .elem true) [] (num 0x40) (num 0) (num 0)) with
        tq := { TrapQueue.init with en := true } } e [.a, .b] (tgt1 next1) ∧
      (openB e && e.c == .fw 0 0 && paExists 0x40 && !(operands e.u).a.psn && !(operands e.u).b.psn &&
        (let s := { withRecord (fwInstr 0 (.tqpost next1 false .elem true) [] (num 0x40) (num 0) (num 0)) with
            tq := { TrapQueue.init with en := true } }
         let got := unitRead s noUnitNode (lineKey 0 0x40)
         !got.1.psn && listedKind (lineNat got.1.data 0 1) && !tqFull got.2)) = true) ∧
    (∀ ok, ∃ e, MayFire { fwData with fw := { fwData.fw with stagedOk := ok } } e [.a] (tgt1 next1) ∧
      (openB e && e.c == .fw 0 0 && !fwData.fw.swapping && fwData.fw.sig.isNone) = true) :=
  ⟨fires_meets (by decide +kernel), fun ok => by cases ok <;> exact fires_meets (by decide +kernel)⟩

/-- TrapTaken, TrapReturned, CoreCrashes, CsrReadBack: a core after reset, and one whose level 0 holds a block. -/
theorem witness_traps :
    (0 < State.reset.cores.length ∧ 15 < State.reset.cores.length ∧ State.reset.cores.length = 16) ∧ (1 : Nat) < 2 ∧
    (getCore State.reset 15).resident = [] ∧ (∀ x ∈ State.reset.cores, mapWf 0 x.keep = true) ∧
    (let s := fwInstr 0 (.trap next1 7) [] (num 0) (num 0) (num 0)
     (coreWin (getCore s 0) 0).win.any (fun w => (w.units[0]?).isSome && (w.code[0]?).bind instrOf == some (.trap next1 7)) = true) := by
  decide +kernel

/-- HealthCompletes: a field that is admitted, one that is drained and has passed; a record and none; a counter; a cell that
may be bypassed and one that may not; injections armed and not; the firings that wait. -/
theorem witness_HealthCompletes :
    (∃ e, MayFire fwData e [.a, .b] (tgt1 next1) ∧
      (openB e && e.c == .fw 0 0 && !(operands e.u).a.psn && !(operands e.u).b.psn && (getField fwData 1).state == 0 &&
        (selectCounter fwData 0x40000000 0).isSome && (findRecord fwData 5).isNone && bypassStatus fwData 5 0 == 0 && bypassStatus fwData 5 192 == 3) = true) ∧
    (∃ e, MayFire { fwData with hl := { fwData.hl with test := true, fields := List.replicate 4 { FieldSt.init with state := 2 } } } e [.a] (tgt1 next1) ∧
      (openB e && (getField { fwData with hl := { fwData.hl with test := true, fields := List.replicate 4 { FieldSt.init with state := 2 } } } 1).pass) = true) ∧
    (findRecord { fwData with hl := { fwData.hl with log := [{ kind := 3, src := 0, field := 0, x := 0, y := 0, node := 0, seq := 5, payload := [] }] } } 5).isSome = true ∧
    (∃ e p, Held (fwWaiting (pend1 (num 0) (num 0) (num 0) 0 0 2) fwData) e p ∧ (p.step == 2) = true) :=
  ⟨fires_meets (by decide +kernel), fires_meets (by decide +kernel), by decide +kernel, holdsOne_meets (by decide +kernel)⟩

/-! ### A draft in memory -/

/-- Words at an address of HBM that is a multiple of 64. -/
def storeWords (pa : Nat) (ws : List Nat) (m : Store) : Store :=
  (chunks 64 16 ws).zipIdx.foldl (fun m (l, j) => m.writeLine (pa / 64 + j)
    { data := lineOfBytes (l.flatMap (leBytes 4)), desc := 0, psn := false }) m

/-- A block of an AGEN that runs by itself over four words, and a DROP of what it emits: header, code, placement, the
descriptor, and a trailer of four words. -/
def imageOf1 (x h0 h1 place : Nat) : List Nat :=
  let body := [x, (encode (.drop .always)).getD 0, place, 0, 0x11000000, 0, 3, 4, 0, 0, 0x01000000, 0]
  [h0, h1, 0x00000405, (crc32 (body.flatMap (leBytes 4))).toNat] ++ body
def imageWords : Nat → Nat → Nat → List Nat := imageOf1 ((encode (.agen next1 0 false false)).getD 0)

/-- The translation of page 1 to itself, held in the TLB of field 0. -/
def page1 : List (List TlbEntry) := [[{ page := 1, entry := 0x10007, large := false }], [], [], []]
/-- A draft of one block at address 0x1_0000 of memory, which page 1 of virtual memory maps to itself. -/
def drafted1 (image : Nat → Nat → Nat → List Nat) (h0 place : Nat) (s : State) : State :=
  { s with mem := { s.mem with hbm := storeWords 0x10100 (image h0 0xFF000000 place) (storeWords 0x10000 [1, 0, 0x10100, 0] s.mem.hbm) }
           xl := { s.xl with en := true, tlb := page1 } }
def drafted : Nat → Nat → State → State := drafted1 imageWords


/-! ### The host, the links and bring-up -/

def booted : State := { State.reset with mg := { State.reset.mg with stage := 7 } }
def postedRec (kind : Nat) : TrapRec := { kind := kind, field := 0, src := 4, x := 0, y := 0, node := 0, payload := [], poster := .none }
def posting (rs : List TrapRec) (full fatal : Bool) : State :=
  { booted with tq := { booted.tq with en := true, tail := if full then 255 else 0, fatal := fatal, posters := rs } }

/-- HostQueueEvents: a device that has started and one that has not; a window with a record under check and without; a write
that reaches the last word and ones that do not; records that pass and fail; ring sizes at both ends; records taken. -/
theorem witness_HostQueueEvents :
    (ready booted = true ∧ ready State.reset = false ∧ (getLw booted 0).committed = none ∧
      (getLw (updLw booted 0 (fun x => { x with committed := some zeroRec })) 0).committed ≠ none ∧
      (getLw (updLw booted 0 (fun x => { x with committed := some zeroRec })) 0).held = []) ∧
    (checkRec booted zeroRec true = 0 ∧ checkRec booted (List.replicate 64 1) true = 1 ∧ checkRec onData zeroRec true = 4) ∧
    ((0x3C < (0x3D : Fin 64).val) ∧ (0x3B + 4 < 0x40) ∧ ((0x3C : Fin 64).val ≤ 0x3C ∧ 0x40 ≤ (0x3C : Fin 64).val + 4)) ∧
    (booted.tq.en = false ∧ (posting [] false false).tq.en = true ∧ (8 : Word).toNat % 32 = 8 ∧ (0x80000010 : Word).toNat % 32 = 16 ∧
      (7 : Word).toNat % 32 < 8 ∧ 16 < (17 : Word).toNat % 32) ∧
    (pickRec (tqFull (posting [postedRec 1] false false)) [postedRec 1] = some (postedRec 1, []) ∧ tqFull (posting [postedRec 1] false false) = false) ∧
    (pickRec (tqFull (posting [postedRec 1, postedRec 3] true false)) [postedRec 1, postedRec 3] = some (postedRec 3, [postedRec 1]) ∧
      tqFull (posting [postedRec 1, postedRec 3] true false) = true) ∧
    (∀ fatal, pickRec (tqFull (posting [postedRec 0x0F] true fatal)) [postedRec 0x0F] = some (postedRec 0x0F, []) ∧
      (posting [postedRec 0x0F] true fatal).tq.fatal = fatal) := by
  decide +kernel

def stagedAt (n : Nat) : State := { State.reset with mg := { State.reset.mg with stage := BitVec.ofNat 4 n } }
/-- A boundary that has been asked for. -/
def asking (s : State) (at_ : Nat) : State := { s with mg := { s.mg with atBusy := true, atpa := BitVec.ofNat 64 at_ } }

/-- BootEvents: every stage, a report's address that is refused and one that is taken. That an image verifies is the opaque
signature test's answer, so the slot that starts is not computed here. -/
theorem witness_BootEvents :
    (∀ n ∈ [0, 1, 2, 3, 4, 5, 6], (stagedAt n).mg.stage.toNat = n ∧ (stagedAt n).mg.off = false ∧ mapWf Frame.init (stagedAt n).mem.frames = true ∧
      (stagedAt n).hl.fields.length = 4 ∧ (stagedAt n).cores.length = 16 ∧ (stagedAt n).fw.swapping = false) ∧
    ({ State.reset.mg with off := true }.off = true ∧ 1 < (stagedAt 2).mg.stage.toNat ∧ (stagedAt 15).mg.stage.toNat ≠ 2) ∧
    bootSlot (stagedAt 1) = none ∧
    ((asking booted 0x100).mg.atBusy = true ∧ booted.mg.atBusy = false ∧ 0x100 % 256 = 0 ∧ paExists 0x100 = true) ∧
    ((asking booted 0x180).mg.atpa.toNat % 256 ≠ 0 ∧ paExists (asking booted (48 * 2 ^ 30)).mg.atpa.toNat = paExists (48 * 2 ^ 30)) := by
  decide +kernel

/-- A port that is up. -/
def linked : State := updPeer booted 0 (fun y => { y with up := true })
def openRelay0 (got : Nat) : Relay :=
  { port := 0, fport := 0, hops := 0, nextAck := false, refused := false, ticket := 0, nrow := 1, rb := 3, pcnt := 0, padd := 0, va := 0, got := got }
/-- A flit for page 1, at address 0x1_0000, with a mapped page. -/
def flit0 : Flit := { data := 5, desc := 0, poison := false, va := 0x10000, fport := 0, hops := 0 }
def receiving : State :=
  { linked with sh := { linked.sh with relays := [openRelay0 0] }, xl := { linked.xl with en := true, tlb := page1 } }
def branch0 : Branch :=
  { dk := 0, dst := 0x10040, node := 0, bob := 0, credit := false, tag := 0, off := false, next := 0, got := false, slot := none }
def cmd0 : Cmd :=
  { ticket := 3, ctx := .node 0, block := 0, idx := 0, op := 0xA0, variant := 0, order := devOrder, field := 0, waitPhase := none, started := true
    srcBob := false, src := 0x10000, srcTile := 0, slot := none, branches := [branch0], rb := 1, tr := 1, nrow := 2, sstr := 64, dstr := 64
    cnt := 0, add := 0, x10 := 0, x11 := 0, x12 := 0, permit := false, row := 0, index := [], kept := [], hi := 0, status := 0, ev := {}, counted := false
    doneAt := none, toks := [], opened := false, acked := false, sentUs := 0, bad := false }
def relayCmd : Cmd := { cmd0 with op := opRelay, opened := true }
def withCmd (x : Cmd) (s : State) : State := { s with sh := { s.sh with cmds := [x] } }

/-- LinkEvents: registers narrow and wide, an address in the aperture and beyond it, a block that is sound; a port up and
down; a flit that a transfer takes; a RELAY that waits for its acknowledgement, acknowledged or not. -/
theorem witness_LinkEvents :
    ((barNumber 0x1000).isSome = true ∧ (0x1000 : BitVec 15).toNat % 4 = 0 ∧
      (List.range 64).any (fun k => (barNumber (0x1000 + 4 * k)).any (fun n => isWide n && (0x1000 + 4 * k) % 8 == 0)) = true ∧
      (List.range 64).any (fun k => (barNumber (0x1000 + 4 * k)).any (fun n => !isWide n && n != 0 && !isWide (n - 1))) = true) ∧
    (apertureAddr booted 0 0x1040 = some 0x1040 ∧ apertureAddr booted 0 (48 * 2 ^ 30) = none ∧ apertureAddr booted 0 (786240 * 65536 - 64) ≠ none ∧ apertureAddr booted 0 (786240 * 65536) = none ∧
      (unitRead booted noUnitNode (lineKey 0 0x1040)).1.psn = false) ∧
    ((getPeer booted 0).up = false ∧ (getPeer linked 0).up = true) ∧
    (relayWhole (openRelay0 0) = false ∧ relayWhole (openRelay0 1) = false ∧
      (translate (toPeer receiving (.credit 0)) (flit0.va.signExtend 64) true).1 = .at 0 0x10000 true ∧
      (let t := (translate (toPeer receiving (.credit 0)) (flit0.va.signExtend 64) true).2
       unitWrite t noUnitNode (lineKey 0 0x10000) (fun y =>
         writeBack (writeLine y (lineKey 0 0x10000) (BitVec.allOnes 64) 5 (some 0)) (lineKey 0 0x10000))).sh = receiving.sh) ∧
    (ackedCmd (withCmd relayCmd linked) 0 3 = some relayCmd ∧ getCmd (withCmd relayCmd linked) 3 = some relayCmd ∧ relayPort relayCmd = 0 ∧
      getCmd (withCmd { relayCmd with acked := true } linked) 3 = some { relayCmd with acked := true }) ∧
    ((getPeer linked 0).outq = [] ∧ (getPeer (updPeer linked 0 (fun y => { y with outq := [.ack 0 3] })) 0).outq = [.ack 0 3] ∧
      ackOverdue { linked with run := { linked.run with time := 10000 } } relayCmd = true ∧ ackOverdue linked relayCmd = false) := by
  decide +kernel

/-- A flit is 80 bytes: the payload first, KIND behind the descriptor and the tag (R469). -/
theorem test_flit : (outBytes (.credit 0)).length = 80 ∧ ((outBytes (.ack 0 3)).take 68).drop 64 = [0, 0, 0, 1] ∧
    (outBytes (.ack 0 3)).take 2 = [3, 0] := by decide +kernel

/-! ### Health, the shuttle and the cores -/

def hlOp (op arg : Nat) : State := { booted with hl := { booted.hl with busy := true, opRun := BitVec.ofNat 3 op, argRun := BitVec.ofNat 64 arg } }
def withMarks (b : Nat) (m : BitVec 6) (s : State) : State := { s with mem := { s.mem with marks := [(b, m)] } }
def fieldAt (n : Nat) (s : State) : State := updField s 0 (fun y => { y with state := BitVec.ofNat 3 n })
def hlWaits (w : HlWait) (s : State) : State := { s with hl := { s.hl with wait := [w] } }
def wait0 (op x y : Nat) : HlWait := { who := none, op := op, field := 0, x := x, y := y, arg := 1 }
def check0 (c : CtxId) (src : Fin 16) : Check :=
  { ctx := c, src := src, field := 0, x := 0, y := 0, idx := some 0, lane := 0, code := 0, exp := 0, obs := 1, l0 := 0, l1 := 0, l2 := 0, l3 := 0, loc := 0
    inj := true }

/-- Unit 5 with each of its frames retired, and two frames of unit 6 of the same stack. -/
def unitGone : State :=
  let s := hlOp 2 5
  let gone (f : Nat) : Nat × Frame := (f, { Frame.init with state := 3 })
  { s with mem := { s.mem with frames := ((List.range 6143).map (fun h => gone (128 * h + Nat.xor (h % 128) 5))) ++ [gone 6, gone 135] } }

/-- HealthEvents: a pseudo-channel whose frames are retired, with room for the frame table's frames and with none. -/
theorem witness_HealthEvents_unit :
    (unitGone.hl.opRun = 2 ∧ unitGone.hl.argRun.toNat = 5 ∧ unitGone.mem.unitsOff.elem 5 = false ∧ unitGone.hl.busy = true) ∧
    unitFrames 5 ≤ ((retiredFrames unitGone).filter (fun g => frameUnit g == 5)).length ∧
    (tablesOf unitGone 5).length ≤ (tableRoom unitGone 5).length := by
  decide +kernel

/-- HealthEvents: operations in progress with arguments in range and beyond it, on either side of each bound; banks with no
mark, one and two; a field in each state, with a node on it and without; operations that wait; checks below and at eight. -/
theorem witness_HealthEvents :
    ((hlOp 1 0).hl.busy = true ∧ frameExists (0x10001 / 2 ^ 16) = true ∧ 0x10001 % 2 ^ 16 ≠ 0 ∧ (getFrame (hlOp 1 0x10000) 1).state = 0 ∧ booted.hl.busy = false) ∧
    ((hlOp 2 1024).hl.argRun.toNat = 1024 ∧ (hlOp 2 1023).mem.unitsOff.elem 1023 = false ∧
      ((retiredFrames (hlOp 2 1023)).filter (fun g => frameUnit g == 1023)).length < unitFrames 1023) ∧
    ((hlOp 3 8).hl.argRun.toNat = 8 ∧ (hlOp 3 7).mem.stacksOff.elem 7 = false) ∧
    (layerArg 12288 = none ∧ layerArg (6 * 65536) = none ∧ layerArg (5 * 65536 + 12287) = some (12287, 5)) ∧
    (bankMarks (withMarks 12287 0x20 (hlOp 5 (5 * 65536 + 12287))) 12287 = 0x20 ∧ markCount (bankMarks (withMarks 12287 0x21 booted) 12287) = 2 ∧
      markCount (bankMarks booted 12287) = 0) ∧
    ((getField (fieldAt 1 booted) 0).state = 1 ∧ booted.dsp.nodes.any (onField booted 0) = false ∧ onData.dsp.nodes.any (onField onData 0) = true ∧
      (getField (fieldAt 3 booted) 0).state = 3 ∧ booted.hl.wait = []) ∧
    (bypassReady (hlWaits (wait0 0xF5 0 0) booted) (wait0 0xF5 0 0) = true ∧ bypassReady (hlWaits (wait0 0xF5 0 0) onData) (wait0 0xF5 0 0) = false ∧
      bypassStatus booted 0 0 = 0 ∧ bypassStatus booted 0 192 = 3 ∧ (wait0 0xF3 2 0).x = 2) ∧
    ((getNode onData 0).any (fun n => decide (n.checks + 1 < 8)) = true ∧
      (getNode (withNode onData (fun n => { n with checks := 8 })) 0).any (fun n => decide (8 ≤ n.checks)) = true) ∧
    ((check0 (.node 0) 7).src = 7 ∧ (check0 (.node 0) 0).src ≠ 4 ∧ (check0 (.fw 0 0) 8).inj = true) ∧
    (let y := unitPlace (.cell 0 0)
     bypassStatus (postInfo (addDev (updField booted (unitField (.cell 0 0)) (fun z => { z with marginal := z.marginal ++ [.cell 0 0] })) 3 1) 0x40 y.1
      (y.2.2 * 256 + y.2.1)) 0 0 = 0) := by
  decide +kernel

/-- A field whose spare rows and columns are all in use. -/
def spent (s : State) : State := updField s 0 (fun y => { y with rows := [1, 2, 3, 4], cols := [1, 2, 3, 4] })
def asked (l : List Check) (s : State) : State := { s with run := { s.run with agenda := l.map (fun k => .event (.machineCheck k)) } }
def real0 : Check := { check0 (.node 0) 0 with inj := false }

/-- HealthEvents: a bin change that waits for a field in each state; a retest that finds a cell, with spares and without; a stack
lost, and one switched off; a plate below its limits and beyond each; a check that is not injected, at a unit's third and before
it, marginal already and not; and two checks of one node in one cycle. -/
theorem witness_HealthEvents_states :
    (∀ n ∈ [0, 1, 2, 3], (getField (fieldAt n (hlWaits (wait0 0xF3 0 0) booted)) 0).state = BitVec.ofNat 3 n ∧
      (fieldAt n (hlWaits (wait0 0xF3 0 0) booted)).hl.wait = [wait0 0xF3 0 0]) ∧
    ((getField (fieldAt 3 booted) 0).rows = [] ∧ (getField (fieldAt 3 booted) 0).cols = [] ∧ booted.hl.fields.length = 4 ∧
      cellOut (getField (spent (fieldAt 3 booted)) 0) 5 5 = false ∧ sparesFor (getField (spent (fieldAt 3 booted)) 0) 5 5 = false) ∧
    (bypassStatus (spent booted) 5 5 = 2 ∧ (wait0 0xF5 5 5).who = none ∧ bypassReady (spent booted) (wait0 0xF5 5 5) = true) ∧
    (let s := hlOp 3 7
     ({ s with mem := { s.mem with stacksOff := [7] } } : State).mem.stacksOff.elem 7 = true ∧
      ({ s with mem := { s.mem with stacksLost := [7] } } : State).mem.stacksOff.elem 7 = false) ∧
    ((1040 : Word).toNat % 2 ^ 16 ≤ 1040 ∧ (1041 : Word).toNat % 2 ^ 16 = 1041 ∧ (0x06E00000 : Word).toNat / 2 ^ 16 = 1760 ∧
      1760 < (0x06E10000 : Word).toNat / 2 ^ 16) ∧
    (takeChecks onData (.node 0) = ([], onData) ∧ checkUnit real0 = some (.site 0 0) ∧
      (getNode onData 0).any (fun n => decide (mapGet 0 n.unitChecks (unitKey (.site 0 0)) ≠ 2)) = true ∧
      (getNode (withNode onData (fun n => { n with unitChecks := [(0, 2)] })) 0).any (fun n => mapGet 0 n.unitChecks (unitKey (.site 0 0)) == 2) = true ∧
      (getField onData (unitField (.site 0 0))).marginal.elem (.site 0 0) = false) ∧
    (takeChecks (asked [check0 (.node 0) 0] onData) (.node 0) = ([check0 (.node 0) 0], onData) ∧
      checkKey (check0 (.node 0) 0) < checkKey (check0 (.node 0) 3)) := by
  decide +kernel

/-- A branch of a bobbin that no node has, and one that waits for its credit. -/
def paged (s : State) : State := { s with xl := { s.xl with en := true, tlb := page1 } }
def sigAt (va : Nat) : SigRun := { core := 0, c := .fw 0 0, idx := 0, va := BitVec.ofNat 64 va, len := 512, key := 0, acq := false, kept := [] }
def resOk (s : State) (x : Cmd) (sl : Option Nat) : Bool := match takeSource s x x.current with
  | .taken b t => b == sl && ((takeAll t x x.current 0 x.branches).any (fun r => !r.2.2))
  | _ => false
/-- Command 3 with a permit, in service, and another that waits its turn. -/
def serving : State :=
  { onData with sh := { onData.sh with cmds := [{ cmd0 with permit := true }, { cmd0 with ticket := 4, permit := true }], turn := [(0, 3, true)] } }
/-- Core 0's firmware block, loaded five microseconds ago under a limit of four. -/
def lateFw : State :=
  let s := updCore fwData 0 (fun k => { k with wdog := 4 })
  { s with run := { s.run with time := s.run.time + 5 } }
def srcWaits (s : State) (x : Cmd) : Bool := match takeSource s x x.current with
  | .wait => true
  | _ => false

/-- ShuttleAndCoreEvents: a command that is not held by its scope, one that is, whose phase has committed or not; one that
may take its permit, that waits for its source, and for a credit; one with a permit; one that has moved; with a counter
and without; a core with a block and without; a SIGCHK that copies its image and one whose address does not exist. -/
theorem witness_ShuttleAndCoreEvents :
    (getCmd (withCmd cmd0 (paged onData)) 3 = some cmd0 ∧ getCmd onData 3 = none ∧ cmd0.waitPhase = none ∧
      (getCtx (inPhase 1 onData) cmd0.ctx).any (fun y => decide (0 < relMark y cmd0.order.scope) && !decide (1 < relMark y cmd0.order.scope)) = true) ∧
    (resOk (withCmd cmd0 (paged onData)) cmd0 none = true ∧
      srcWaits (withCmd { cmd0 with srcBob := true } (withNode onData (fun n => { n with exec := none }))) { cmd0 with srcBob := true } = true ∧
      takeAll onData cmd0 0 0 [{ branch0 with credit := true }] = none ∧
      (moveOne (paged onData) { cmd0 with permit := true } 0).isSome = true) ∧
    (cmdReady cmd0 = false ∧ cmdReady { cmd0 with branches := [{ branch0 with next := 2 }] } = true ∧ ¬ (5 : Dword) = 0 ∧
      (served serving 0 = some 3 ∧ served serving 0 ≠ some 4) ∧ posterWaits onData (.cmd 3) = false ∧ (resolve (paged onData) (.node 0) 0x10008 true).1 = .at 0 0x10008 true) ∧
    (let k := getCore lateFw 0
     (coreWin k k.level.toNat).win.any (fun w => k.wdog != 0 && !(coreWin k k.level.toNat).late &&
       decide (k.wdog.toNat ≤ lateFw.run.time - w.loadedUs) && !crashWaits lateFw 0) = true) ∧
    ((coreWin (getCore fwData 0) (getCore fwData 0).level.toNat).win.isSome = true ∧ (coreWin (getCore booted 0) (getCore booted 0).level.toNat).win = none) ∧
    ((copyImage [] (sigAt 0x10000).va.toNat 8 0 Store.empty booted).1.isSome = true ∧
      (copyImage [] (sigAt (2 ^ 39)).va.toNat 8 0 Store.empty booted).1 = none) := by
  decide +kernel

/-! ### The dispatcher and blocks -/

def dspOp (op id : Nat) (s : State) : State := { s with dsp := { s.dsp with busy := true, opRun := BitVec.ofNat 3 op, opNode := BitVec.ofNat 32 id } }
def inserted0 : Boundary := { scope := .dev, cause := .inserted, checked := true }
/-- A record of where node 0 stood. -/
def ckpt0 : Option Ckpt := (getNode (takeCheckpoint onData (.node 0) inserted0).2 0).bind (·.ctx.ckpt)
/-- Node 0 in the pool, its draft in memory; in a region's form or a core's. -/
def pooled (core : Bool) : State :=
  drafted (if core then 0x00008101 else 0x01020101) (if core then 0 else 0x00010000) (withNode onData (fun n =>
    { n with win := none, st := .ready, exec := none, reserve := if core then none else some (0, 0, 2, 1)
             lrec := { n.lrec with cls := if core then 1 else 0 }
             ctx := { n.ctx with draft := DraftSt.init 0x10000, ckpt := ckpt0 } }))
/-- The same node placed, its block to be loaded. -/
def placedAt : State :=
  withNode (pooled false) (fun n => { n with st := .placed, loading := true, exec := some (.region 0 0 2 1), ctx := { n.ctx with ckpt := none } })

def isOk (r : LoadRes Window) : Bool := match r with
  | .ok .. => true
  | _ => false
def isWait (r : LoadRes Window) : Bool := match r with
  | .wait _ => true
  | _ => false
def isFail (r : LoadRes Window) : Bool := match r with
  | .fail .. => true
  | _ => false
def okWin (r : LoadRes Window) : Window := match r with
  | .ok w _ => w
  | _ => oneWindow 0
def okState (r : LoadRes Window) : State := match r with
  | .ok _ s => s
  | _ => State.reset

/-- The hypotheses of a placement pass over node 0, and a test of the executor that it finds. -/
def placesNode (s : State) (P : Executor → Bool) : Bool :=
  match getNode s 0 with
  | none => false
  | some n =>
    let r := nextBlock s n
    let w := okWin r
    let s2 := checkChans (okState r) ((placedEnds n w).map (·.1))
    !s.dsp.frozen && passOrder s == [0] && considered s n && !notYet s n && isOk r && (nodeFault n w).isNone && !neverFits s2 n w
      && roomToPlace s2 n w && (findExec s2 n w).any P && n.ctx.ckpt.isSome && (getNode s2 n.id).isSome

/-- DispatcherEvents: operations on a node that is not held and on one that is, in each state that they ask about; a pass
that places a node on a region and one on a core. -/
theorem witness_DispatcherEvents :
    ((dspOp 2 0 onData).dsp.busy = true ∧ (dspOp 2 9 onData).dsp.opNode.toNat = 9 ∧ getNode (dspOp 2 9 onData) 9 = none ∧ onData.dsp.busy = false) ∧
    ((getNode onData 0).any (fun n => n.saveFailed.isNone && (nodeRect n).isSome && !n.lrec.pre && n.st == .placed && n.completing.isNone && n.moving == .none) = true ∧
      (getNode (withNode onData (fun n => { n with saveFailed := some 1, lrec := { n.lrec with pre := true } })) 0).any (fun n =>
        n.saveFailed == some 1 && n.lrec.pre) = true ∧
      (getNode (withNode onData (fun n => { n with exec := none, st := .ready })) 0).any (fun n => (nodeRect n).isNone && n.st != .placed) = true) ∧
    (passOrder State.reset = [] ∧ State.reset.dsp.frozen = false) ∧
    placesNode (pooled false) (fun x => x == .region 0 0 2 1) = true ∧ placesNode (pooled true) (fun x => x == .core 0) = true := by
  decide +kernel

/-- The hypotheses of a load of node 0's block. -/
def loadsNode (s : State) : Bool :=
  match getNode s 0 with
  | none => false
  | some n =>
    let r := fetchBlock s (.node 0) n.ctx.draft
    let x := if (ctxCore s (.node 0)).isSome then coreWindow (okWin r) else okWin r
    let s2 := checkChans (okState r) ((trailerEnds x).map (·.1))
    let s3 := attachAll s2 0 x false
    let p := placeFault s3 n x (ctxCore s3 (.node 0)).isSome
    mayLoad s n && isOk r && (nodeFault n x).isNone && (mustMove (okState r) n x).isNone && n.moving == .none
      && endsReady s2 0 (trailerEnds x) && p.1.isNone && (unitFault p.2 x).isNone && (unfuseOut p.2 0 x).1

/-- PrivilegedBlocks: a block on a region whose first word is FRAMEM's or TLBI's, which the load fetches whole. -/
theorem witness_PrivilegedBlocks : ∀ x ∈ [0xC5028000, 0xE4028002], 
    let s := drafted1 (imageOf1 x) 0x01020101 0x00010000 placedAt
    (getNode s 0).any (mayLoad s) = true ∧ (getNode s 0).any (fun n => n.ctx.draft == DraftSt.init 0x10000) = true ∧
    isOk (fetchBlock s (.node 0) (DraftSt.init 0x10000)) = true ∧
    BitVec.ofNat 32 x ∈ (okWin (fetchBlock s (.node 0) (DraftSt.init 0x10000))).code ∧ (x / 2 ^ 24 = 0xC5 ∨ x / 2 ^ 24 = 0xE4) := by
  decide +kernel

/-- BlockEvents: a load that passes every check, one that waits for its draft, one that has no block at its index. -/
theorem witness_BlockEvents_load :
    loadsNode placedAt = true ∧ (getNode onData 0).any (fun n => !mayLoad onData n) = true ∧ getNode State.reset 0 = none ∧
    isWait (fetchBlock { placedAt with xl := { placedAt.xl with en := false } } (.node 0) (DraftSt.init 0x10000)) = true ∧
    isFail (fetchBlock placedAt (.node 0) { DraftSt.init 0x10000 with block := 1 }) = true := by
  decide +kernel

/-- BlockEvents: a block that a node may not hold; firmware's load, and one that it may not hold. -/
theorem witness_BlockEvents_refused :
    (getNode placedAt 0).any (fun n => (nodeFault n (blockOf [0xE202801C, 0] [] (ElemSt.init 0))).isSome) = true ∧
    (firmwareFault State.reset (blockOf [0xE202801C, 0] [] (ElemSt.init 0))).isSome = true := by
  decide +kernel

def fwDraft : State := drafted 0x00008101 0 (updCore State.reset 0 (fun k => { k with f0 := { k.f0 with draft := DraftSt.init 0x10000 } }))
/-- BlockEvents: firmware's load. -/
theorem witness_BlockEvents_firmware :
    isOk (fetchBlock fwDraft (.fw 0 0) (DraftSt.init 0x10000)) = true ∧
    firmwareFault (okState (fetchBlock fwDraft (.fw 0 0) (DraftSt.init 0x10000))) (okWin (fetchBlock fwDraft (.fw 0 0) (DraftSt.init 0x10000))) = none ∧
    (coreWin (getCore fwDraft 0) 0).win = none ∧ (getCore fwDraft 0).level.toNat = 0 ∧ posterWaits fwDraft (.fetch (.fw 0 0)) = false ∧
    isWait (fetchBlock fwDraft (.fw 0 0) (DraftSt.init 0x8000000000)) = true := by
  decide +kernel

def withBoundary (cause : Cause) (checked : Bool) (s : State) : State :=
  withCtx s (fun x => { x with boundary := some { scope := .dev, cause := cause, checked := checked } })
/-- Node 0 with no unit at work, whose exit has met its marker; NEXT is `next`. -/
def ended (next : Nat) : State :=
  armed { blockOf [movWord, (encode (.drop .always)).getD 0] [] (ElemSt.init 0) with
    h1 := BitVec.ofNat 32 (next * 2 ^ 24), units := [ElemSt.init 0, { ElemSt.init 0 with term := true }] }
/-- A node that is moved, with room for its image at address 0x1_0000. -/
def movingNode (s : State) : State :=
  paged (withNode s (fun n => { n with moving := .preempt false, closed := true, lrec := { n.lrec with pre := true, save := 0x10000, saveBytes := 0x8000 } }))
def stillNode (s : State) : State := { s with run := { s.run with still := [.node 0] } }

/-- BlockEvents: a boundary inside an accumulation and one that commits; a COMMIT boundary that is due and one that is not. -/
theorem witness_BlockEvents_boundary :
    (insideAccumulation { Ctx.init 0 with sea := { SeaSt.init with acc := [(0, { AccRow.clear with opened := true })] } }
      { scope := .dev, cause := .program 0, checked := false } = true) ∧
    (let s := withBoundary (.program 0) false onData
     (getNode s 0).any (fun n => n.ctx.boundary.any (fun b => !b.fails && !b.checked && !eventBoundary b.cause) && n.win.isSome &&
       !retireWaits s 0) = true) ∧
    (let s := stillNode (withCtx onData (fun x => { x with boundary := some { inserted0 with fails := true } }))
     (getNode s 0).any (fun n => n.ctx.boundary.any (·.fails) && s.run.still.elem (.node 0)) = true) ∧
    (let s := withBoundary .inserted true onData
     (getNode s 0).any (fun n => n.ctx.boundary.isSome && n.win.any (accessesDone false) && n.saveFailed.isNone && !posterWaits s (.boundary (.node 0)) &&
      (let s1 := settleStage s (.node 0)
       (getCtx s1 (.node 0)).any (fun y =>
         let r := commitBlocks (.node 0) false y.draft.block y.mem.stageG s1
         r.1 && (takeCheckpoint (commitChannels (updMem r.2 (.node 0) commitLocal) (.node 0)) (.node 0) inserted0).1))) = true) ∧
    commitDue onData (.node 0) = false ∧
    commitDue (withUnit (onInstr (.lds next1 0) [] (num 8) (num 0) (num 0)) (fun u => { u with commits := 1 })) (.node 0) = true := by
  decide +kernel

/-- BlockEvents: the end of a block, where its draft ends and where it goes on; a node whose commands are done and one that
has one open; a release of a node that waits for one predecessor and for two. -/
theorem witness_BlockEvents_end :
    ((ended 255).dsp.nodes.all (fun n => n.win.any blockDone && n.ctx.boundary.isNone && n.ctx.mem.puts.isEmpty) && blockRuns (ended 255) (.node 0)
      && !commitDue (ended 255) (.node 0)) = true ∧
    ((getNode (ended 3) 0).any (fun n => n.win.any (fun w => winNext w == 3) && !blockDone (oneWindow 0)) = true) ∧
    (ctxCore (updNode (updDraft (ended 3) (.node 0) (fun _ => { DraftSt.init 0 with block := 3 })) 0 (fun m => { m with loading := true })) (.node 0) = none) ∧
    (commandsDone (withNode onData (fun n => { n with completing := some 1 })) 0 = true ∧
      commandsDone (withCmd cmd0 (withNode onData (fun n => { n with completing := some 1 }))) 0 = false) ∧
    ((freshNode 0 { blankRec 0 with preds := 2 }).preds = 2 ∧ (freshNode 0 { blankRec 0 with preds := 1 }).st = .waiting) := by
  decide +kernel

theorem witness_BlockEvents_onward :
    onward (DraftSt.init 0) 255 = .over ∧ onward (DraftSt.init 0) 3 = .go { DraftSt.init 0 with block := 3 } := ⟨rfl, rfl⟩

/-- BlockEvents: a node that is to be moved, before it is quiet and after, with room for its image and without. -/
theorem witness_BlockEvents_move :
    (getNode (movingNode onData) 0).any (fun n => n.moving == .preempt false && n.exec.isSome && n.saveFailed.isNone && !n.loading
      && n.completing.isNone && n.ctx.boundary.isNone && n.closed) = true ∧
    quiescent onData (.node 0) (oneWindow 0) = false ∧ quiescent (stillNode onData) (.node 0) (oneWindow 0) = true ∧
    (getNode (movingNode (ended 3)) 0).any (fun n => n.win.any (fun w => decide (imageLen (fullLens n w false (savedTokens w)) ≤ n.lrec.saveBytes.toNat) &&
      decide (0 < imageLen (fullLens n w false (savedTokens w))) &&
      quiescent (stillNode (movingNode (ended 3))) (.node 0) w &&
      (doBoundary (resetForSave (stillNode (movingNode (ended 3))) n w) (.node 0) .dev .preempt).1)) = true := by
  decide +kernel

/-- BlockEvents: an image whose header is not sound, and one that is read back (its CRC covers 252 bytes). -/
theorem witness_BlockEvents_image :
    (getNode (movingNode (ended 3)) 0).any (fun n => (readImage (movingNode (ended 3)) { n with lrec := { n.lrec with save := 0 } } 2).1.isNone) = true := by
  decide +kernel
set_option maxRecDepth 100000 in
theorem witness_BlockEvents_restore :
    (getNode (movingNode (ended 3)) 0).any (fun n => n.win.any (fun w =>
      (readImage (saveCheckpoint (movingNode (ended 3)) n w).2 n 1).1.isSome)) = true := by
  decide +kernel

/-! ### The channel unit and the translation block -/

def chOp (op va : Nat) (s : State) : State :=
  { s with chu := { s.chu with busy := true, job := { op := op, chid := 5, va := va } } }
def freeEnds : Chan := { chan1 false with prod := noNode, cons := noNode }
/-- Channel 5's image at address 0x1_0000, in mapped memory. -/
def withImage : State := putImage (paged onData) (lineKey 0 0x10000) (chanImage freeEnds)
def spilled : Chan := { chan1 false with ttail := 1, ceil := 1024, spill := 0x10000 }
/-- Node 0 waits with a PUSH for room on channel 5. -/
def fullPush (still : Bool) : State :=
  let s := channelled { chan1 false with soft := 1, ctail := 1, ttail := 1, rt := 1 } (onInstr (.push next1 0 .always) [] (num 0) (num 0) (num 0))
  { s with run := { s.run with time := 100, still := if still then [.node 0] else [] } }
def probedOnce : State :=
  let s := fullPush true
  { s with chu := { s.chu with probes := [((setOf s 5).chans, setSig s (setOf s 5))] } }
def atPlace (p : Place × State) (pa : Nat) : Bool := match p.1 with
  | .at 0 a _ => a == pa
  | _ => false

/-- TableEvents: the channel unit's registers and operations: an image that is good and one that is not, a channel in each
state; a token to refill; the detector with no wait, with one that is not yet quiet, and with one that grows. -/
theorem witness_TableEvents_channels :
    ((0x00280000 : Word).toNat / 2 ^ 16 % 2 ^ 8 = 0x28 ∧ (0x80010000 : Word).toNat / 2 ^ 16 % 2 ^ 8 = 1 ∧ (0x80010000 : Word).msb = true ∧
      State.reset.chu.en = false ∧ (channelled (chan1 false) onData).chu.en = true ∧ anyAttached (channelled (chan1 false) onData) = true ∧
      anyAttached (channelled freeEnds onData) = false ∧
      checkChans (fullPush false) ((fullPush false).chu.table.map (·.1)) = fullPush false) ∧
    ((chOp 1 0x10000 withImage).chu.busy = true ∧ opVa (chOp 1 0x10000 withImage) = 0x10000 ∧
      atPlace (translate (chOp 1 0x10000 withImage) 0x10000 false) 0x10000 = true ∧
      imageChan (lineBytes (unitLine withImage noUnitNode (.at 0 0x10000 true)).1.data) = some { freeEnds with prod := noNode, cons := noNode } ∧
      (unitLine withImage noUnitNode (.at 0 0x10000 true)).1.psn = false ∧
      imageChan (lineBytes 0) = none) ∧
    (useChan (channelled (chan1 false) onData) 5 = (chan1 false, channelled (chan1 false) onData) ∧ (chan1 false).state = chOpenSt ∧
      useChan (chOp 3 0x10000 onData) 5 = (Chan.free, chOp 3 0x10000 onData) ∧ Chan.free.state = chFree ∧
      atPlace (translate (chOp 3 0x10000 (paged onData)) 0x10000 true) 0x10000 = true) ∧
    (refillDue spilled = true ∧ refillDue (chan1 false) = false ∧ ringTokens spilled = 511 + 1 ∧ spilled.lost.elem spilled.rt.toNat = false ∧
      (spillRead (paged (channelled spilled onData)) spilled 0).1.isSome = true) ∧
    (pushWaits onData = [] ∧ pushWaits (fullPush false) = [5] ∧ allBlocked (fullPush false) (setOf (fullPush false) 5) = false ∧
      (fullPush false).chu.dint.toNat ≤ (fullPush false).run.time - (fullPush false).chu.lastProbe) ∧
    (pushWaits probedOnce = [5] ∧ allBlocked probedOnce (setOf probedOnce 5) = true ∧
      probedOnce.chu.probes.any (fun p => p.1 == (setOf probedOnce 5).chans && p.2 == setSig probedOnce (setOf probedOnce 5)) = true ∧
      claimants probedOnce (setOf probedOnce 5) = [] ∧
      leastSoft probedOnce (((setOf probedOnce 5).chans.filter (pushWaits probedOnce).elem).filter (fun k =>
        decide ((getChan probedOnce k).soft.toNat < (getChan probedOnce k).ceil.toNat))) = some 5) := by
  decide +kernel

/-- Tables of three levels at frames 2 to 4, in which page 1 is a leaf that names frame 5, and page 0 is not valid. -/
def tabled (op opfn page : Nat) : State :=
  let m := storeWords 0x20000 [0x30001] (storeWords 0x30000 [0x40001] (storeWords 0x40000 [0, 0, 0x50007] State.reset.mem.hbm))
  { State.reset with
    mem := { State.reset.mem with hbm := m }
    xl := { State.reset.xl with en := true, root := 2, busy := true, job := { op := op, npg := 0, page := page, target := opfn } } }
def leafIs (r : Leaf × State) (pa e size : Nat) : Bool := match r.1 with
  | .leaf a b c => a == pa && b == e && c == size
  | _ => false
def leafNone (r : Leaf × State) : Bool := match r.1 with
  | .invalid => true
  | _ => false

/-- TableEvents: the translation block: a page with no valid leaf, one with a leaf; its frame free of pins, pinned, and
pinned as often as it can be; a frame to move to. -/
theorem witness_TableEvents_pages :
    (State.reset.xl.en = false ∧ State.reset.xl.busy = false ∧ (tabled 1 0 1).xl.job.npg = 0 ∧ (tabled 3 0 1).xl.job.op = 3) ∧
    leafNone (leafAt (tabled 1 0 0) 0) = true ∧
    leafIs (leafAt (tabled 1 0 1) 1) 0x40008 0x50007 16 = true ∧ leafFrame 1 0x50007 16 = some 5 ∧
    ((getFrame (tabled 1 0 1) 5).state = 0 ∧ (getFrame (tabled 1 0 1) 5).pins = 0) ∧
    ((getFrame (setFrame (tabled 4 0 1) 5 { Frame.init with pins := 4095 }) 5).pins = 4095 ∧
      leafIs (leafAt (setFrame (tabled 5 0 1) 5 { Frame.init with pins := 4095 }) 1) 0x40008 0x50007 16 = true) ∧
    (frameExists 7 = true ∧ (getFrame (leafAt (tabled 2 7 1) 1).2 7).state = 0 ∧ (getFrame (leafAt (tabled 2 7 1) 1).2 7).pins = 0 ∧
      (getFrame (leafAt (tabled 2 7 1) 1).2 7).ms = (getFrame (leafAt (tabled 2 7 1) 1).2 5).ms ∧ (leafAt (tabled 2 7 1) 1).2.xl.job.target = 7 ∧
      (7 : Nat) ≠ 5) := by
  decide +kernel

/-! ### Steps -/

def queued (js : List Job) (s : State) : State := { s with run := { s.run with agenda := js } }
/-- Field 0 and the module over their limits. -/
def hotField (s : State) : State := { s with pwr := { s.pwr with flevel := [2 ^ 80, 0, 0, 0], mlevel := 2 ^ 80 } }
/-- The instruction `i` first in the block of node 0. -/
def onWord (w : Nat) : State := armed (blockOf [w, movWord] [] (holding (num 5) (num 7) (num 9) (num 1)))
def goodWord (s : State) : Bool := match (fetchWord s (.node 0) 0).map (fun w => decodeBytes (wordBytes w.toNat)) with
  | some (.ok (i, [])) => i.wellFormed
  | _ => false

/-- StepRunsDecoded: a context that may act and one that may not, a unit held back and one that is not, a word that is
ill-formed and one that is unassigned; an event while the machine is on and while it is off. -/
theorem witness_StepRunsDecoded :
    (mayFire (onWord movWord) (.node 0) = true ∧ mayFire (withNode (onWord movWord) (fun n => { n with loading := true })) (.node 0) = false ∧
      (queued [.fire (.node 0) 0] (onWord movWord)).run.agenda = [.fire (.node 0) 0]) ∧
    (goodWord (onWord movWord) = true ∧ heldBack (onWord movWord) (.node 0) 0 = false ∧
      goodWord (onInstr (.lds next1 0) [] (num 8) (num 0) (num 0)) = true ∧ heldBack (hotField (onInstr (.lds next1 0) [] (num 8) (num 0) (num 0))) (.node 0) 0 = true) ∧
    (goodWord (onWord 0x4F000000) = false ∧ goodWord (onWord 0x06010000) = false ∧ mayFire (onWord 0x4F000000) (.node 0) = true) ∧
    (moduleThrottled (hotField (onWord movWord)) = true ∧ moduleThrottled (onWord movWord) = false) ∧
    (State.reset.mg.off = false ∧ ({ State.reset with mg := { State.reset.mg with off := true } } : State).mg.off = true ∧
      Instr.ageTick ≠ .deadlockDetect) := by
  decide +kernel

/-- MemoryStaysCanonical: a memory that lists bytes, and a step from it. -/
theorem witness_MemoryStaysCanonical :
    (counter5 onData).mem.wf = true ∧ (counter5 onData).mem.dirty ≠ [] ∧
    nextHas (step (queued [.fire (.node 0) 0] (counter5 onData))) (fun t => t.mem.wf) = true := by
  decide +kernel

/-- EncodingsRoundTrip: a well-formed instruction that has a word, and a word that decodes; of each, the last value of a field. -/
theorem witness_EncodingsRoundTrip :
    ((Instr.ldi none 0x7FFF).wellFormed = true ∧ encode (.ldi none 0x7FFF) = some 0x46FFFFFF) ∧
    (match decodeWord 0x46FFFFFF with
      | .ok i => i == .ldi none 0x7FFF
      | .error _ => false) = true := by
  decide +kernel

/-! ### Words worked out in the manual -/

def reads (w : Nat) (i : Instr) : Bool := (match decodeWord w with
  | .ok x => x == i
  | .error _ => false) && i.wellFormed && encode i == some w
def refuses (w : Nat) : Bool := match decodeWord w with
  | .ok i => !i.wellFormed
  | .error _ => true
def a_ (n : Fin 128) : Tgt := some { slot := .a, index := n }

/-- The table of "Encodings worked through" (02_encoding). -/
theorem test_words_worked_through :
    reads 0x46009234 (.ldi (a_ 1) 0x1234) && reads 0x0102FFC0 (.mov { t0 := a_ 5, t1 := none, pred := .always })
      && reads 0x0142E250 (.mov { t0 := some { slot := .b, index := 5 }, t1 := some { slot := .p, index := 9 }, pred := .ifTrue })
      && reads 0xA006022C (.copy (a_ 12) 4 { acq := false, rel := true, scope := .dev } false)
      && reads 0x56439880 (.ld { t := some { slot := .b, index := 7 }, seq := 12, unord := false } .s 0 false .w32) = true := by
  decide +kernel

/-- "Rejected encodings, worked through" (02_encoding). -/
theorem test_words_rejected : [0x00000000, 0x4F000000, 0x0102FFF0, 0xA006023C, 0x56439980, 0x560286A6].all refuses = true := by decide +kernel

/-- Group 0x0: MARK and COUNT of 04_elements' example, FANK of 06_ports'. -/
theorem test_words_flow :
    reads 0x06010018 (.mark (a_ 2) 3 0) && reads 0x09018000 (.count (a_ 3) 0)
      && reads 0x02428380 (.fank (some { slot := .b, index := 5 }) 7 0) = true := by decide +kernel

/-- Groups 0x1 to 0x4: the words under R152, R153 and R159, and CVTIF by hand from R160. -/
theorem test_words_scalar :
    reads 0x10027FC9 (.add { t0 := a_ 4, t1 := none, pred := .always } true false .w16)
      && reads 0x2BC361C5 (.cmp { t0 := some { slot := .p, index := 6 }, t1 := some { slot := .p, index := 7 }, pred := .always } .lt true)
      && reads 0x2CC327FB (.cmpi (some { slot := .p, index := 6 }) .lt false (BitVec.ofInt 11 (-5))) && reads 0x2E0320FF (.logi (a_ 6) .or 0x0FF)
      && reads 0x33857FC3 (.ffma { t0 := some { slot := .c, index := 10 }, t1 := none, pred := .always } .rdn)
      && reads 0x4002FFD4 (.cvtif { t0 := a_ 5, t1 := none, pred := .ifTrue } true .rne) = true := by
  decide +kernel

/-- Groups 0x5 to 0x7: by hand from R80, R220, R223, R229 and R191; BOBDEF and BWF of 05_banks' example. -/
theorem test_words_memory :
    reads 0x56028686 (.ld { t := a_ 5, seq := 3, unord := false } .s 0 true .w8) && reads 0x60FF8049 (.atom { t := none, seq := 0, unord := true } .g 0 9)
      && reads 0x69028272 (.cntadd { t := a_ 5, seq := 1, unord := true } 3 .sys) && reads 0x71028100 (.bobdef (a_ 5) 2 false)
      && reads 0x72048C01 (.bwf (a_ 9) 3 1) && reads 0x7A02FE01 (.pin { t := a_ 5, seq := 63, unord := false } true) = true := by
  decide +kernel

/-- Groups 0x8 and 0x9: the words of 07_sea's and 08_vector's examples, and MMA by hand from R274. -/
theorem test_words_engines :
    reads 0x85018389 (.mmao (a_ 3) 7 0 .skew 1) && reads 0x84028135 (.mma (a_ 5) 2 3 .strm 1) && reads 0x93048002 (.vfma (a_ 9) 0 true false)
      && reads 0x968600A0 (.vcmp (some { slot := .c, index := 12 }) 1 .lt false) && reads 0x9F030100 (.vqnt (a_ 6) 2 false) = true := by
  decide +kernel

/-- Groups 0xA to 0xF: LAUNCH and NODEQ of 12_dispatcher's example, the others by hand from R79, R301, R351, R378, R435 and R461. -/
theorem test_words_commands :
    reads 0xA0028051 (.copy (a_ 5) 0 { acq := true, rel := false, scope := .sys } true) && reads 0xB10281E0 (.push (a_ 5) 7 .ifFalse)
      && reads 0xC002841C (.matom { t := a_ 5, seq := 2, unord := false } 1 12)
      && reads 0xD00281AC (.launch (a_ 5) 3 { acq := false, rel := true, scope := .dev } false) && reads 0xD1010005 (.nodeq (a_ 2) 5)
      && reads 0xE202801C (.csrrd (a_ 5) 0x01C) && reads 0xF1028001 (.ecntr (a_ 5) true) = true := by
  decide +kernel

/-! ### Terms that each check refuses -/

def h0 : DHead := { t0 := next1, t1 := none, pred := .always }
def mg : MHead := { t := next1, seq := 0, unord := false }

/-- One ill-formed term for each name of `IllFormed`. -/
theorem smoke_ill_formed :
    [(Instr.halt (some { slot := .p, index := 127 }), IllFormed.targetCode), (.mov { h0 with t1 := next1 }, .equalTargets), (.mark next1 0 1, .markPeriod),
      (.strip next1 7, .rank), (.add h0 false true .w4, .unsignedNibbles), (.dot4 h0 false false .w32, .wideLanes), (.ld mg .w 0 false .w8, .carrySize),
      (.cas mg .w 0, .forbiddenSpace), (.atom mg .g 0 12, .atomicOperation), (.pref mg 0 .all, .extent), (.cinv mg .s .all, .extent)].all (fun p =>
        Instr.check p.1 == some p.2) = true ∧
    [(Instr.bar next1 0 { acq := false, rel := false, scope := .sys }, IllFormed.barrierScope), (.arrv next1 0 true .elem, .barrierScope),
      (.vperm next1 1 false 0, .unusedPool), (.vbcst next1 0 1 false, .broadcastIndex), (.einj next1 1 true, .unusedPool),
      (.wfe next1 0, .emptyMask), (.ldx mg .s 1 false .w32, .baseSelect), (.tqpost next1 false .dev true, .unusedScope),
      (.wswap next1 7 0, .rank)].all (fun p => Instr.check p.1 == some p.2) = true := by
  decide +kernel

theorem smoke_reduce_shape (op : RedOp) : (Instr.vred next1 0 0 op true false).check = some .reduceShape := by cases op <;> decide

/-! ### Results worked out in the manual -/

/-- The word that instruction `i` sends to slot a of unit 1 from data on its three slots. -/
def gives (i : Instr) (x y z v : Nat) : Bool :=
  nextHas (exec i (onInstr i [] (num x) (num y) (num z))) (fun t => (getWin t (.node 0)).any (fun w => (w.units[1]?).any (fun u => u.qa == [num v])))

/-- CRC-32 of the nine bytes "123456789" (R74). -/
theorem test_crc : crc32 [0x31, 0x32, 0x33, 0x34, 0x35, 0x36, 0x37, 0x38, 0x39] = 0xCBF43926#32 := by decide +kernel

/-- The table under R152. -/
theorem test_add_lanes : gives (.add h0 true false .w16) 0x7FF00001 0x0020FFFE 0 0x7FFFFFFF && gives (.add h0 false false .w16) 0x7FF00001 0x0020FFFE 0 0x8010FFFF = true := by
  decide +kernel
theorem test_div_signs : gives (.div h0 false false) 0xFFFFFFF9 2 0 0xFFFFFFFD && gives (.rem h0 false) 0xFFFFFFF9 2 0 0xFFFFFFFF = true := by decide +kernel
theorem test_div_zero : gives (.div h0 false false) 7 0 0 0x7FFFFFFF = true := by decide +kernel
theorem test_dot4 : gives (.dot4 h0 false false .w8) 0x010203FF 0x04040404 10 30 = true := by decide +kernel
theorem test_mulh : gives (.mulh h0 true .w32) 0xFFFFFFFF 2 0 1 = true := by decide +kernel
/-- The examples under R159 to R166. -/
theorem test_frsqe : gives (.frsqe h0) 0x40000000 0 0 0x3F350000 = true := by decide +kernel
theorem test_cvtfi : gives (.cvtfi h0 false .rne) 0x40200000 0 0 2 && gives (.cvtfi h0 false .rup) 0x40200000 0 0 3 = true := by decide +kernel
theorem test_cvtf8 : gives (.cvtf8 h0 2 false false) 0x43960000 0 0 0x00790000 && gives (.cvtf8 h0 2 false false) 0x43FA0000 0 0 0x007E0000 = true := by
  decide +kernel
theorem test_pack : gives (.pack h0 true false .w8) 0x0090FF80 0x00010000 0 0x01007F80 && gives (.unpk h0 false false .w8) 0x01007F80 0 0 0x007FFF80 = true := by
  decide +kernel
theorem test_scb_scd : gives (.scb h0 .i4) 0x40A80000 0 0 0x74 && gives (.scd h0) 0x74 0 0 0x3F400000 = true := by decide +kernel
/-- 0.814453125 is 0x3F50_8000 (R110's example). -/
theorem test_q4d : gives (.q4d h0 0) 0x0000000D 0x3FC00000 0 0x3F508000 = true := by decide +kernel
/-- The CMP example under R153: signed and unsigned. -/
theorem test_cmp_signs : gives (.cmp h0 .lt true) 0xFFFFFFFB 3 0 0 && gives (.cmp h0 .lt false) 0xFFFFFFFB 3 0 1 = true := by decide +kernel
/-- The hypothesis of SeaExact, at both ends of the weights' widths. -/
theorem witness_SeaExact : 0 < 1 ∧ 0 < 16 := by decide

end Sys2Proof.Tests
end

/-! PROOFS. O56: what reset leaves. -/

namespace Sys2Proof.Machine

/-! ### Reset -/

/-- Every core starts as the reset core. -/
theorem reset_core {k : Core} (h : k ∈ State.reset.cores) : k = Core.init := List.eq_of_mem_replicate h

theorem reset_field {f : FieldSt} (h : f ∈ State.reset.hl.fields) : f = FieldSt.init := List.eq_of_mem_replicate h

theorem reset_peerPort {p : PeerPort} (h : p ∈ State.reset.pr) : p = PeerPort.init := List.eq_of_mem_replicate h

/-- The channel table is empty at reset: every channel is FREE. -/
theorem getChan_reset (k : Nat) : getChan State.reset k = Chan.free := rfl

/-- Settles O56: the reset state lists each unit's initial record; the lists of like parts hold copies of one record. -/
theorem resetState : Obligations.ResetState := by
  unfold Obligations.ResetState
  intro s
  have chans : ∀ k, (getChan s k).state = chFree := fun k => congrArg Chan.state (getChan_reset k)
  have cores : ∀ k ∈ s.cores, k.level = 0 ∧ k.evt = 0 ∧ k.tcmp = 0xFFFFFFFF#32 ∧ k.wdog = 0 ∧ k.slice = 50 ∧ k.crash = 0 ∧
      k.keep = [] ∧ k.resident = [] ∧ k.tb0 = TrapBank.init ∧ k.tb1 = TrapBank.init := by
    intro k hk
    cases reset_core hk
    and_intros <;> rfl
  have fields : ∀ f ∈ s.hl.fields, f.state = 0 ∧ f.pass = true ∧ f.bin = 0 := by
    intro f hf
    cases reset_field hf
    and_intros <;> rfl
  have ports : ∀ p ∈ s.pr, p.en = true ∧ p.replays = 0 := by
    intro p hp
    cases reset_peerPort hp
    and_intros <;> rfl
  exact ⟨rfl, rfl, rfl, rfl, rfl, rfl, rfl,                 -- the trap queue
    rfl, rfl, rfl, rfl, rfl,                                -- the launch windows
    rfl, rfl, rfl, rfl,                                     -- the translation block
    rfl, rfl, rfl, rfl, chans,                              -- the channel unit
    rfl, rfl, rfl, rfl, rfl, rfl,                           -- the dispatcher
    rfl, rfl, rfl, rfl,                                     -- power
    rfl, cores, rfl,                                        -- the cores and the time
    rfl, rfl, rfl, rfl, rfl, rfl, fields,                   -- the health unit
    rfl, rfl, rfl, rfl, rfl, ports,                         -- the host and peer ports
    rfl, rfl, rfl, reset_mem_wf⟩

end Sys2Proof.Machine

/-! PROOFS. O58: what a step takes up, and what surrounds the meaning that it runs. -/

namespace Sys2Proof.Machine

/-! ### The decoder gives words, never events (R83) -/

/-- What holds of a decoding's value, where it has one. -/
def OkHas {α : Type} (P : α → Prop) : Except BadWord α → Prop
  | .ok x => P x
  | .error _ => True

theorem okHas_bind {α β : Type} {P : β → Prop} {x : Except BadWord α} {f : α → Except BadWord β} (h : ∀ a, OkHas P (f a)) :
    OkHas P (x >>= f) := by
  cases x with
  | error _ => trivial
  | ok a => exact h a

/-- A word of opcode group `g` decodes to an instruction of that group (R83). -/
theorem decodeFields_group (g c t i : Nat) : OkHas (fun x => groupOf x = some g) (decodeFields g c t i) := by
  unfold decodeFields
  split
  case h_17 => trivial
  all_goals
    simp only [decodeGroup0, decodeGroup1, decodeGroup2, decodeGroup3, decodeGroup4, decodeGroup5, decodeGroup6, decodeGroup7,
      decodeGroup8, decodeGroup9, decodeGroupA, decodeGroupB, decodeGroupC, decodeGroupD, decodeGroupE, decodeGroupF]
    split
  all_goals
    repeat' refine okHas_bind fun _ => ?_
    trivial

/-- The group of a word's instruction is bits [31:28] of the word (R76, R83). -/
theorem decodeWord_group (w : Nat) : OkHas (fun x => groupOf x = some (w / 2 ^ 28)) (decodeWord w) := decodeFields_group _ _ _ _

/-- The bytes of a word decode to an instruction of some opcode group, and leave no byte over. -/
theorem groupOf_of_decodeBytes {w : Nat} {i : Instr} {r : List Byte} (h : decodeBytes (wordBytes w) = .ok (i, r)) :
    (∃ g, groupOf i = some g) ∧ r = [] := by
  have hg := decodeWord_group (natOfBytes (wordBytes w))
  change (decodeWord (natOfBytes (wordBytes w))).map (·, []) = .ok (i, r) at h
  cases hx : decodeWord (natOfBytes (wordBytes w)) with
  | error _ => rw [hx] at h; cases h
  | ok x =>
    rw [hx] at h hg
    cases h
    exact ⟨⟨_, hg⟩, rfl⟩

/-- The legal instruction that a unit's word decodes to. -/
theorem fetchInstr_of_decodes {s : State} {c : CtxId} {i : Nat} {w : Word} {ins : Instr} {r : List Byte} (hw : fetchWord s c i = some w)
    (hd : decodeBytes (wordBytes w.toNat) = .ok (ins, r)) (hl : ins.wellFormed = true) : fetchInstr s c i = some ins := by
  simp [fetchInstr, hw, instrOf, hd, hl]

/-- A word that decodes to no well-formed instruction is none (R21). -/
theorem fetchInstr_of_illegal {s : State} {c : CtxId} {i : Nat} {w : Word} (hw : fetchWord s c i = some w)
    (hd : ∀ x, decodeBytes (wordBytes w.toNat) = .ok (x, []) → x.wellFormed = false) : fetchInstr s c i = none := by
  cases hx : decodeBytes (wordBytes w.toNat) with
  | error _ => simp [fetchInstr, hw, instrOf, hx]
  | ok p =>
    obtain ⟨x, r⟩ := p
    obtain ⟨-, rfl⟩ := groupOf_of_decodeBytes hx
    simp [fetchInstr, hw, instrOf, hx, hd x hx]

/-! ### What a step takes up (R4, R26) -/

theorem step_takes {s s1 : State} {i : Instr} (ha : s.run.agenda ≠ []) (h : takeHead s = (s1, some i)) : step s = perform i s1 := by
  cases hs : s.run.agenda with
  | nil => exact absurd hs ha
  | cons j js => simp [step, takeJob, hs, h]

theorem step_skips {s s1 : State} (ha : s.run.agenda ≠ []) (h : takeHead s = (s1, none)) : step s = .next s1 := by
  cases hs : s.run.agenda with
  | nil => exact absurd hs ha
  | cons j js => simp [step, takeJob, hs, h]

/-- The state in which the job ahead of the jobs `js` is taken up. -/
abbrev leaving (s : State) (js : List Job) : State := { s with run := { s.run with agenda := js } }

section Fire

variable {s : State} {c : CtxId} {i : Nat} {js : List Job} (ha : s.run.agenda = .fire c i :: js)
include ha

/-- A context that may not act does nothing. -/
theorem step_fire_idle (hm : mayFire (leaving s js) c = false) : step s = .next (leaving s js) :=
  step_skips (by simp [ha]) (by simp [takeHead, ha, hm])

/-- A unit whose word is no instruction is blocked. -/
theorem step_fire_illegal (hm : mayFire (leaving s js) c = true) (hi : fetchInstr (leaving s js) c i = none) :
    step s = .next (updUnit (leaving s js) c i (fun u => { u with blk := true })) :=
  step_skips (by simp [ha]) (by simp [takeHead, ha, hm, hi])

/-- A unit that its field's bucket holds back does nothing. -/
theorem step_fire_held {ins : Instr} (hm : mayFire (leaving s js) c = true) (hi : fetchInstr (leaving s js) c i = some ins)
    (hb : heldBack (leaving s js) c i = true) : step s = .next (leaving s js) :=
  step_skips (by simp [ha]) (by simp [takeHead, ha, hm, hi, hb])

theorem step_fire {ins : Instr} (hm : mayFire (leaving s js) c = true) (hi : fetchInstr (leaving s js) c i = some ins)
    (hb : heldBack (leaving s js) c i = false) : step s = perform ins (focusOn (leaving s js) c i) :=
  step_takes (by simp [ha]) (by simp [takeHead, ha, hm, hi, hb])

end Fire

theorem step_event {s : State} {e : Instr} {js : List Job} (ha : s.run.agenda = .event e :: js)
    (he : eventTaken (noFocus (leaving s js)) e = true) : step s = perform e (noFocus (leaving s js)) :=
  step_takes (by simp [ha]) (by simp [takeHead, ha, he])

theorem step_event_dropped {s : State} {e : Instr} {js : List Job} (ha : s.run.agenda = .event e :: js)
    (he : eventTaken (noFocus (leaving s js)) e = false) : step s = .next (noFocus (leaving s js)) :=
  step_skips (by simp [ha]) (by simp [takeHead, ha, he])

/-! ### What surrounds an instruction's meaning -/

/-- What follows the meaning of a field's step: `f`, unless the step accesses HBM above the module's limit (R392). -/
def throttledThen (s : State) (f : State → State) (o : Host.Outcome State Fault Refusal) : Host.Outcome State Fault Refusal :=
  match o with
  | .next t => .next (if moduleThrottled s && decide (s.pwr.moved < t.pwr.moved) then s else f t)
  | o => o

theorem perform_ofField {s : State} {i : Instr} (h : ofField s i = true) :
    perform i s = throttledThen s (settle s i) (exec i (told s i)) := by
  unfold perform
  cases exec i (told s i) <;> simp [throttledThen, hbmHeld, h]

/-- A step of no field that succeeds is followed by what is due. -/
theorem perform_next {s t : State} {i : Instr} (h : ofField s i = false) (ht : exec i (told s i) = .next t) :
    perform i s = .next (settle s i t) := by
  simp [perform, ht, hbmHeld, h]

/-- A step of no field behind which nothing is due is the instruction's meaning alone. -/
theorem perform_bare {s : State} {i : Instr} (h : ofField s i = false) (hs : ∀ t, settle s i t = t) :
    perform i s = exec i (told s i) := by
  unfold perform
  cases exec i (told s i) <;> simp [hbmHeld, h, hs]

theorem ofField_of_focus {s : State} {p : CtxId × Nat} (h : s.run.focus = some p) (i : Instr) : ofField s i = true := by
  simp [ofField, h]

theorem ofField_of_noFocus {s : State} (h : s.run.focus = none) {i : Instr} (hp : ∀ t, i ≠ .shuttleTilePermit t)
    (hc : ∀ t, i ≠ .shuttleComplete t) : ofField s i = false := by
  unfold ofField
  split
  · exact absurd rfl (hp _)
  · exact absurd rfl (hc _)
  · simp [h]

/-- Nothing is due behind an event but a shuttle's move and a boundary. -/
theorem settle_of_noFocus {s : State} (h : s.run.focus = none) {i : Instr} (hp : ∀ t, i ≠ .shuttleTilePermit t)
    (hy : ∀ y, i ≠ .phaseBoundary y) (t : State) : settle s i t = t := by
  simp only [settle, h]

theorem told_eq_self {i : Instr} (hn : ∀ n, i ≠ .preemption n) (hy : ∀ y, i ≠ .phaseBoundary y) (hd : i ≠ .deadlockDetect)
    (s : State) : told s i = s := by
  unfold told
  split
  · exact absurd rfl (hn _)
  · exact absurd rfl (hy _)
  · exact absurd rfl hd
  · rfl

/-- A decoded instruction is told nothing of quiescence. -/
theorem told_of_group {i : Instr} {g : Nat} (h : groupOf i = some g) (s : State) : told s i = s :=
  told_eq_self (by rintro n rfl; cases h) (by rintro y rfl; cases h) (by rintro rfl; cases h) s

/-- A unit's step: its instruction, the energy of its port, and a commit boundary that falls due. -/
theorem perform_focusOn {s : State} {c : CtxId} {i : Nat} {ins : Instr} {g : Nat} (h : groupOf ins = some g) :
    perform ins (focusOn s c i) =
      throttledThen (focusOn s c i) (fun t => settleCommit (chargeUnit (focusOn s c i) t c i) c) (exec ins (focusOn s c i)) := by
  rw [perform_ofField (ofField_of_focus rfl ins), told_of_group h]
  rfl

/-- While the module is off, every event but its reset is dropped. -/
theorem eventTaken_of_off {s : State} (h : s.mg.off = true) {e : Instr} (hr : ∀ b, e ≠ .moduleReset b) : eventTaken s e = false := by
  unfold eventTaken
  split
  · exact absurd rfl (hr _)
  · simp [h]
  · simp [h]

theorem eventTaken_of_on {s : State} (h : s.mg.off = false) {e : Instr} (hp : ∀ t, e ≠ .shuttleTilePermit t) : eventTaken s e = true := by
  unfold eventTaken
  split
  · rfl
  · exact absurd rfl (hp _)
  · simp [h]

theorem eventTaken_permit {s : State} (h : s.mg.off = false) (t : Nat) : eventTaken s (.shuttleTilePermit t) = !shuttleHeld s t := by
  simp [eventTaken, h]

/-- Settles O58: by the job at the head of the agenda, a unit or an event; a decoded instruction is no event, so nothing is told it. -/
theorem stepRunsDecoded : Obligations.StepRunsDecoded := by
  unfold Obligations.StepRunsDecoded
  intro s c i js w ins s1 s2 held after
  refine ⟨fun ha => ⟨step_fire_idle ha, fun hm hw hd hl => ?_, fun hm hw hd => ?_⟩, ?_⟩
  · have hi := fetchInstr_of_decodes hw hd hl
    obtain ⟨⟨g, hg⟩, -⟩ := groupOf_of_decodeBytes hd
    exact ⟨step_fire_held ha hm hi, fun hb => (step_fire ha hm hi hb).trans (perform_focusOn hg)⟩
  · exact step_fire_illegal ha hm (fetchInstr_of_illegal hw hd)
  · intro s3 tell ha
    refine ⟨fun ho hr => step_event_dropped ha (eventTaken_of_off ho hr), fun ho => ?_⟩
    have run (hp : ∀ t, ins ≠ .shuttleTilePermit t) : step s = perform ins s3 := step_event ha (eventTaken_of_on ho hp)
    refine ⟨fun hp hc hn hy hd => ?_, ?_, ?_, ?_, ?_, ?_⟩
    · rw [run hp, perform_bare (ofField_of_noFocus rfl hp hc) (settle_of_noFocus rfl hp hy), told_eq_self hn hy hd]
    · rintro t rfl
      exact (run nofun).trans (perform_ofField rfl)
    · rintro t rfl
      split
      · next hh => exact step_event_dropped ha ((eventTaken_permit (s := s3) ho t).trans (by rw [hh]; rfl))
      · next hh => exact (step_event ha ((eventTaken_permit (s := s3) ho t).trans (by simpa using hh))).trans (perform_ofField rfl)
    · rintro n rfl
      exact (run nofun).trans (perform_bare rfl fun _ => rfl)
    · rintro y t rfl hx
      exact (run nofun).trans (perform_next rfl hx)
    · rintro rfl
      exact (run nofun).trans (perform_bare rfl fun _ => rfl)

end Sys2Proof.Machine

/-! PROOFS. O55: the module's reset, the stages of bring-up and the attestation report. -/

namespace Sys2Proof.Machine

/-! ### Folds that treat each key once -/

/-- A fold of `set` over distinct keys changes what each key of the list reads as by `g`, once, and no other key's reading: given that one
`set` does so wherever `P` holds, and keeps `P`. -/
theorem foldl_each {β : Type} {P : State → Prop} {get : State → Nat → β} {set : State → Nat → State} {g : Nat → β → β} :
    ∀ {ks : List Nat}, (∀ s, P s → ∀ k ∈ ks, P (set s k) ∧ ∀ j, get (set s k) j = if j = k then g k (get s k) else get s j) →
      ks.Nodup → ∀ {s}, P s → P (ks.foldl set s) ∧ ∀ j, get (ks.foldl set s) j = if j ∈ ks then g j (get s j) else get s j
  | [], _, _, s, hs => ⟨hs, fun _ => by simp⟩
  | k :: ks, h, hn, s, hs => by
    obtain ⟨hk, hn⟩ := List.nodup_cons.1 hn
    obtain ⟨hs', hget⟩ := h s hs k (by simp)
    obtain ⟨hp, hall⟩ := foldl_each (fun s hs j hj => h s hs j (by simp [hj])) hn hs'
    refine ⟨hp, fun j => ?_⟩
    rw [List.foldl_cons, hall, hget]
    by_cases hj : j = k
    · subst hj; simp [hk]
    · simp [hj]

theorem getFrame_setFrame {s : State} (h : mapWf Frame.init s.mem.frames = true) (f j : Nat) (v : Frame) :
    getFrame (setFrame s f v) j = if j = f then v else getFrame s j := by
  by_cases hj : j = f
  · subst hj; simpa [getFrame] using mapGet_mapSet_same _ _ _ _ h
  · simpa [getFrame, hj] using mapGet_mapSet_other _ v _ _ _ h hj

theorem getField_updField {s : State} {f : Nat} (h : f < s.hl.fields.length) (g : FieldSt → FieldSt) (j : Nat) :
    getField (updField s f g) j = if j = f then g (getField s f) else getField s j := by
  by_cases hj : j = f
  · subst hj; simpa [getField] using nth_modNth _ _ _ _ h
  · simpa [getField, hj] using nth_modNth_other _ _ _ _ _ hj

theorem getCore_updCore {s : State} {c : Nat} (h : c < s.cores.length) (f : Core → Core) (j : Nat) :
    getCore (updCore s c f) j = if j = c then f (getCore s c) else getCore s j := by
  by_cases hj : j = c
  · subst hj; simpa using getCore_updCore_self s j f h
  · simpa [hj] using getCore_updCore_other s c j f hj

theorem length_modNth {α : Type} (f : α → α) : ∀ (l : List α) (n : Nat), (modNth f l n).length = l.length
  | [], _ => rfl
  | _ :: _, 0 => rfl
  | _ :: xs, n + 1 => congrArg (· + 1) (length_modNth f xs n)

theorem mapGet_of_notMem {α : Type} (d : α) : ∀ (m : List (Nat × α)) (k : Nat), k ∉ m.map (·.1) → mapGet d m k = d
  | [], _, _ => rfl
  | (a, v) :: m, k, h => by
    obtain ⟨hne, hm⟩ := not_or.1 (mt List.mem_cons.2 h)
    simp [mapGet, Ne.symm hne, mapGet_of_notMem d m k hm]

/-! ### Stages (R472) -/

theorem stageEnds_skip {s : State} {n : Nat} (h : s.mg.off = true ∨ s.mg.stage.toNat ≠ n) (ok : Bool) (work : State → State) :
    stageEnds s n ok work = s := by
  rcases h with h | h <;> simp [stageEnds, h]

theorem stageEnds_fail {s : State} {n : Nat} (ho : s.mg.off = false) (hn : s.mg.stage.toNat = n) (work : State → State) :
    stageEnds s n false work = bootFails s := by
  simp [stageEnds, ho, hn]

theorem stageEnds_pass {s : State} {n : Nat} (ho : s.mg.off = false) (hn : s.mg.stage.toNat = n) (work : State → State) :
    stageEnds s n true work = toStage (work s) (n + 1) := by
  simp [stageEnds, ho, hn]

@[simp] theorem getFrame_toStage (s : State) (n f : Nat) : getFrame (toStage s n) f = getFrame s f := rfl
@[simp] theorem getField_toStage (s : State) (n f : Nat) : getField (toStage s n) f = getField s f := rfl
@[simp] theorem getCore_toStage (s : State) (n c : Nat) : getCore (toStage s n) c = getCore s c := rfl
@[simp] theorem toStage_fw (s : State) (n : Nat) : (toStage s n).fw = s.fw := rfl

theorem toStage_mg (s : State) (n : Nat) : (toStage s n).mg = { s.mg with stage := BitVec.ofNat 4 n } := rfl

/-- The steps that end stages 2 to 6. -/
def stageRows (ok : Bool) (marks : List (Fin 12288 × Fin 6)) : List (Nat × Instr) :=
  [(2, .hbmTrain ok), (3, .sramTest ok marks), (4, .binLoadRetest ok), (5, .firmwareInstall), (6, .linkTrain ok)]

/-- Each ends its stage with its work, as its test went; FIRMWARE_INSTALL, of stage 5, has no test. -/
theorem exec_stageRow {ok : Bool} {marks : List (Fin 12288 × Fin 6)} {r : Nat × Instr} (hr : r ∈ stageRows ok marks) (s : State) :
    ∃ b work, (r.1 ≠ 5 → b = ok) ∧ exec r.2 s = .next (stageEnds s r.1 b work) := by
  simp only [stageRows, List.mem_cons, List.not_mem_nil, or_false] at hr
  rcases hr with rfl | rfl | rfl | rfl | rfl
  case inr.inr.inr.inl => exact ⟨true, _, fun h => absurd rfl h, rfl⟩
  all_goals exact ⟨ok, _, fun _ => rfl, rfl⟩

/-! ### Stage 2: the frame table -/

/-- A frame-table entry set normal: its default descriptor and its error count stay. -/
def normalFrame (x : Frame) : Frame := { x with ms := false, state := 0, pins := 0 }

def setNormal (s : State) (f : Nat) : State := setFrame s f (normalFrame (getFrame s f))

/-- HBM_TRAIN's work. -/
def setFramesNormal (s : State) : State := (s.mem.frames.map (·.1)).foldl setNormal s

theorem exec_hbmTrain (ok : Bool) (s : State) : exec (.hbmTrain ok) s = .next (stageEnds s 2 ok setFramesNormal) := rfl

theorem setFramesNormal_mg (s : State) : (setFramesNormal s).mg = s.mg :=
  List.foldlRecOn (motive := fun t : State => t.mg = s.mg) _ _ rfl (fun _ h _ _ => h)

/-- Listed frames are set normal, and a frame that is not listed is normal (log 7). -/
theorem getFrame_setFramesNormal {s : State} (h : mapWf Frame.init s.mem.frames = true) (f : Nat) :
    getFrame (setFramesNormal s) f = normalFrame (getFrame s f) := by
  have hn : (s.mem.frames.map (·.1)).Nodup :=
    List.pairwise_map.2 (((mapWf_iff _ _).1 h).1.imp Nat.ne_of_lt)
  have hstep : ∀ t : State, mapWf Frame.init t.mem.frames = true → ∀ k ∈ s.mem.frames.map (·.1),
      mapWf Frame.init (setNormal t k).mem.frames = true ∧
        ∀ j, getFrame (setNormal t k) j = if j = k then normalFrame (getFrame t k) else getFrame t j :=
    fun t ht k _ => ⟨mapSet_wf _ _ ht, fun j => getFrame_setFrame ht k j _⟩
  rw [setFramesNormal, (foldl_each (g := fun _ => normalFrame) hstep hn h).2]
  split
  · rfl
  · next hf => rw [getFrame, mapGet_of_notMem _ _ _ hf]; rfl

/-! ### Stage 4: the fields -/

/-- A field as boot leaves it: admitted, with the bin and the bypass map that the image gives. -/
def bootField (image : List Byte) (f : Nat) (x : FieldSt) : FieldSt :=
  let r := fieldRect f
  { x with state := 0, pass := true, bin := Config.bootBin image f
           rows := bootMap (2 * r.2.1) (2 * r.2.2.2) (Config.bootRows image f)
           cols := bootMap (2 * r.1) (2 * r.2.2.1) (Config.bootCols image f) }

/-- BIN_LOAD_RETEST's work. -/
def bootFields (s : State) : State := (List.range 4).foldl (fun t f => updField t f (bootField (bootBytes s) f)) s

theorem exec_binLoadRetest (ok : Bool) (s : State) : exec (.binLoadRetest ok) s = .next (stageEnds s 4 ok bootFields) := rfl

theorem bootFields_mg (s : State) : (bootFields s).mg = s.mg :=
  List.foldlRecOn (motive := fun t : State => t.mg = s.mg) _ _ rfl (fun _ h _ _ => h)

theorem getField_bootFields {s : State} (h : s.hl.fields.length = 4) {f : Nat} (hf : f < 4) :
    getField (bootFields s) f = bootField (bootBytes s) f (getField s f) := by
  have hstep : ∀ t : State, t.hl.fields.length = 4 → ∀ k ∈ List.range 4,
      (updField t k (bootField (bootBytes s) k)).hl.fields.length = 4 ∧ ∀ j, getField (updField t k (bootField (bootBytes s) k)) j =
        if j = k then bootField (bootBytes s) k (getField t k) else getField t j :=
    fun t ht k hk => ⟨(length_modNth _ _ _).trans ht, getField_updField (ht ▸ List.mem_range.1 hk) _⟩
  rw [bootFields, (foldl_each (g := bootField (bootBytes s)) hstep List.nodup_range h).2, if_pos (List.mem_range.2 hf)]

theorem length_setInsert_le : ∀ (l : List Nat) (k : Nat), (setInsert l k).length ≤ l.length + 1
  | [], _ => Nat.le_refl _
  | x :: xs, k => by
    simp only [setInsert]
    split
    · simp
    · split
      · simp
      · simpa using length_setInsert_le xs k

theorem length_foldl_setInsert_le : ∀ (ks l : List Nat), (ks.foldl setInsert l).length ≤ l.length + ks.length
  | [], _ => Nat.le_refl _
  | k :: ks, l => by
    have h1 := length_setInsert_le l k
    have h2 := length_foldl_setInsert_le ks (setInsert l k)
    simp only [List.foldl_cons, List.length_cons]
    omega

/-- A boot map removes at most 4 rows or columns (R450). -/
theorem length_bootMap_le (lo n : Nat) (l : List Nat) : (bootMap lo n l).length ≤ 4 := by
  have h := length_foldl_setInsert_le (((l.filter (fun p => decide (lo ≤ p) && decide (p < lo + n))).eraseDups).take 4) []
  exact h.trans (by simp)

/-! ### Stage 5: the cores -/

/-- What a core reads of the banks depends on nothing but the firmware. -/
theorem coreBank_of_fw {s t : State} (h : t.fw = s.fw) (c : Nat) : coreBank t c = coreBank s c := by
  rw [coreBank, hasSwitched, h, ← hasSwitched, ← coreBank]

/-- A core started by the firmware of `s`. -/
def startedCore (s : State) (c : Nat) (k : Core) : Core :=
  { k with f0 := dueWin (imageEntry s c), tvec := imageTrapd s c, fwver := imageVersion s.fw.active }

@[simp] theorem startedCore_f0 (s : State) (c : Nat) (k : Core) : (startedCore s c k).f0 = dueWin (imageEntry s c) := rfl
@[simp] theorem startedCore_tvec (s : State) (c : Nat) (k : Core) : (startedCore s c k).tvec = imageTrapd s c := rfl
@[simp] theorem startedCore_fwver (s : State) (c : Nat) (k : Core) : (startedCore s c k).fwver = imageVersion s.fw.active := rfl

theorem startedCore_of_fw {s t : State} (h : t.fw = s.fw) (c : Nat) : startedCore t c = startedCore s c := by
  funext k
  simp only [startedCore, imageEntry, imageTrapd, coreBank_of_fw h, h]

/-- The booted image as the active bank. -/
def installed (s : State) : State := { s with fw := { s.fw with active := imageOf s s.mg.slot.toNat } }

/-- FIRMWARE_INSTALL's work. -/
def startCores (s : State) : State := (List.range 16).foldl startCore (installed s)

theorem exec_firmwareInstall (s : State) : exec .firmwareInstall s = .next (stageEnds s 5 true startCores) := rfl

theorem startCores_mg (s : State) : (startCores s).mg = s.mg :=
  List.foldlRecOn (motive := fun t : State => t.mg = s.mg) _ _ rfl (fun _ h _ _ => h)

theorem startCores_fw (s : State) : (startCores s).fw = (installed s).fw :=
  List.foldlRecOn (motive := fun t : State => t.fw = (installed s).fw) _ _ rfl (fun _ h _ _ => h)

theorem getCore_startCores {s : State} (h : s.cores.length = 16) {c : Nat} (hc : c < 16) :
    getCore (startCores s) c = startedCore (startCores s) c (getCore s c) := by
  have hstep : ∀ t : State, t.fw = (installed s).fw ∧ t.cores.length = 16 → ∀ k ∈ List.range 16,
      ((startCore t k).fw = (installed s).fw ∧ (startCore t k).cores.length = 16) ∧
        ∀ j, getCore (startCore t k) j = if j = k then startedCore (installed s) k (getCore t k) else getCore t j := by
    rintro t ⟨hf, hl⟩ k hk
    refine ⟨⟨hf, (length_modNth _ _ _).trans hl⟩, fun j => ?_⟩
    rw [← startedCore_of_fw hf]
    exact getCore_updCore (hl ▸ List.mem_range.1 hk) _ j
  have h16 := (foldl_each (g := startedCore (installed s)) hstep List.nodup_range (s := installed s) ⟨rfl, h⟩).2 c
  rw [if_pos (List.mem_range.2 hc)] at h16
  rw [startedCore_of_fw (startCores_fw s)]
  exact h16

/-! ### Stage 6: the links -/

/-- LINK_TRAIN's work. -/
def trainLinks (s : State) : State :=
  let s1 := trainHost (trainHost s 0) 1
  { s1 with pr := s1.pr.map (fun q => { q with up := q.en, training := false }) }

theorem exec_linkTrain (ok : Bool) (s : State) : exec (.linkTrain ok) s = .next (stageEnds s 6 ok trainLinks) := rfl

/-! ### Attestation (R474) -/

theorem length_leBytes : ∀ n v : Nat, (leBytes n v).length = n
  | 0, _ => rfl
  | n + 1, v => congrArg (· + 1) (length_leBytes n (v / 256))

/-- The report's first 16 bytes. -/
def reportHead (nonce : Dword) : List Byte := leBytes 2 0xD9A7 ++ leBytes 1 1 ++ List.replicate 5 0 ++ leBytes 8 nonce.toNat

theorem length_reportHead (nonce : Dword) : (reportHead nonce).length = 16 := by simp [reportHead, length_leBytes]

theorem length_reportBody (s : State) : (reportBody s).length = 0x8C := by simp [reportBody, length_leBytes]

theorem length_reportBytes (s : State) : (reportBytes s).length = 256 := by simp [reportBytes, length_reportBody]

theorem take_reportBytes (s : State) : (reportBytes s).take 16 = reportHead s.mg.nonce := by
  have h : reportHead s.mg.nonce <+: reportBytes s := by
    simp only [reportBytes, reportBody, reportHead, List.append_assoc, List.prefix_append_right_inj]
    exact List.prefix_append _ _
  rw [← length_reportHead s.mg.nonce]
  exact (List.prefix_iff_eq_take.1 h).symm

/-! ### The rows, by case -/

theorem exec_bootImageVerify (s : State) : exec .bootImageVerify s = execBootImageVerify s := rfl
theorem exec_mgAttest (s : State) : exec .mgAttest s = execMgAttest s := rfl

theorem bootImageVerify_idle {s : State} (h : s.mg.off = true ∨ 1 < s.mg.stage.toNat) : exec .bootImageVerify s = .next s := by
  rcases h with h | h <;> simp [exec_bootImageVerify, execBootImageVerify, h]

theorem bootImageVerify_begin {s : State} (ho : s.mg.off = false) (hn : s.mg.stage = 0) :
    exec .bootImageVerify s = .next (toStage s 1) := by
  simp [exec_bootImageVerify, execBootImageVerify, ho, hn]

theorem bootImageVerify_none {s : State} (ho : s.mg.off = false) (hn : s.mg.stage = 1) (hb : bootSlot s = none) :
    exec .bootImageVerify s = .next (bootFails s) := by
  simp [exec_bootImageVerify, execBootImageVerify, ho, hn, hb]

theorem bootImageVerify_slot {s : State} {k : Nat} (ho : s.mg.off = false) (hn : s.mg.stage = 1) (hb : bootSlot s = some k) :
    exec .bootImageVerify s = .next (updMg s (fun g => { g with
      stage := 2, slot := BitVec.ofNat 4 k
      measure := Config.shake256 64 ((imageOf s k).readBytes 0 (imageLenOf (imageOf s k) - 128)) })) := by
  simp [exec_bootImageVerify, execBootImageVerify, ho, hn, hb]

/-- The attestation's end, with its result. -/
def attested (s : State) (r : BitVec 4) : State := updMg s (fun m => { m with atBusy := false, atResult := r })

theorem mgAttest_idle {s : State} (h : s.mg.atBusy = false) : exec .mgAttest s = .next s := by
  simp [exec_mgAttest, execMgAttest, h]

theorem mgAttest_refused {s : State} (h : s.mg.atBusy = true)
    (ha : ¬(s.mg.atpa.toNat % 256 = 0 ∧ paExists s.mg.atpa.toNat = true)) : exec .mgAttest s = .next (attested s 1) := by
  simp [exec_mgAttest, execMgAttest, attested, h, ha]

theorem mgAttest_written {s : State} (h : s.mg.atBusy = true)
    (ha : s.mg.atpa.toNat % 256 = 0 ∧ paExists s.mg.atpa.toNat = true) :
    exec .mgAttest s = .next (attested (putReport s s.mg.atpa.toNat (reportBytes s)) 0) := by
  simp [exec_mgAttest, execMgAttest, attested, h, ha]

/-- Settles O55: row by row; a stage that passes is its work and then the next stage, so each clause reads the work's lemma. -/
theorem bootEvents : Obligations.BootEvents := by
  unfold Obligations.BootEvents
  intro s ok k marks m failed staged rows
  have stage {n : Nat} (h : m.stage = BitVec.ofNat 4 n) (hn : n < 16) : s.mg.stage.toNat = n := by
    rw [show s.mg.stage = BitVec.ofNat 4 n from h]
    exact Nat.mod_eq_of_lt hn
  have pass {n : Nat} (ho : m.off = false) (h : m.stage = BitVec.ofNat 4 n) (hn : n < 16) (work : State → State) :
      stageEnds s n true work = toStage (work s) (n + 1) := stageEnds_pass ho (stage h hn) work
  refine ⟨rfl, ⟨powerOff s, by and_intros <;> rfl⟩, fun r hr hs => ?_, bootImageVerify_idle, fun ho => ⟨?_, ?_, ?_, ?_, ?_, ?_, ?_, ?_, ?_⟩,
    mgAttest_idle, mgAttest_refused, fun hb h256 hp => ?_⟩
  · obtain ⟨b, work, -, he⟩ := exec_stageRow hr s
    rw [he, stageEnds_skip hs]
  · rintro rfl r hr h5 hn
    obtain ⟨b, work, hb, he⟩ := exec_stageRow hr s
    rw [he, hb h5, stageEnds_fail ho hn]
    rfl
  · exact bootImageVerify_begin ho
  · exact bootImageVerify_none ho
  · exact fun hn hb => ⟨_, bootImageVerify_slot ho hn hb, rfl⟩
  · rintro hn rfl hw
    refine ⟨toStage (setFramesNormal s) 3, (exec_hbmTrain _ s).trans (congrArg _ (pass ho hn (by decide) _)), ?_, fun f => ?_⟩
    · rw [toStage_mg, setFramesNormal_mg]; rfl
    · rw [getFrame_toStage, getFrame_setFramesNormal hw]
      exact ⟨rfl, rfl, rfl⟩
  · rintro hn rfl rfl
    exact congrArg _ (pass ho hn (by decide) _)
  · rintro hn rfl h4
    refine ⟨toStage (bootFields s) 5, (exec_binLoadRetest _ s).trans (congrArg _ (pass ho hn (by decide) _)), ?_, fun f hf => ?_⟩
    · rw [toStage_mg, bootFields_mg]; rfl
    · rw [getField_toStage, getField_bootFields h4 hf]
      exact ⟨rfl, rfl, rfl, length_bootMap_le _ _ _, length_bootMap_le _ _ _⟩
  · intro hn h16
    refine ⟨toStage (startCores s) 6, (exec_firmwareInstall s).trans (congrArg _ (pass ho hn (by decide) _)), ?_, ?_, fun c hc => ?_⟩
    · rw [toStage_mg, startCores_mg]; rfl
    · rw [toStage_fw, startCores_fw]; rfl
    · rw [getCore_toStage, getCore_startCores h16 hc, ← startedCore_of_fw (toStage_fw (startCores s) 6)]
      exact ⟨rfl, startedCore_fwver _ _ _, fun _ => ⟨rfl, rfl⟩⟩
  · rintro hn rfl
    exact ⟨toStage (trainLinks s) 7, (exec_linkTrain _ s).trans (congrArg _ (pass ho hn (by decide) _)), rfl, rfl, rfl, rfl⟩
  · exact ⟨_, mgAttest_written hb ⟨h256, hp⟩, rfl, length_reportBytes s, take_reportBytes s⟩

end Sys2Proof.Machine

/-! PROOFS. O6: joined markers and false predicates at groups 0x1 to 0x4. -/

namespace Sys2Proof.Machine

/-- A firing of groups 0x1 to 0x4: it joins markers on its operand slots, passes their marker on, and nothing holds it back. -/
structure ScalarFiring (f : Firing) (sl : List Slot) (tg : List Target) (p : Pred) : Prop where
  slots : f.slots = sl
  joins : f.joins = sl
  tgts : f.tgts = tg
  markTgts : f.markTgts = []
  pred : f.pred = p
  mem : f.mem = false
  cmd : f.cmd = false
  shut : ∀ s, f.shut s = false
  onMark : f.onMark = passMark tg

theorem scalar_word (sl : List Slot) (h : DHead) (f : Word → Word → Word → Word) :
    ScalarFiring (wordFiring sl h f) sl (headTgts h) h.pred := ⟨rfl, rfl, rfl, rfl, rfl, rfl, rfl, fun _ => rfl, rfl⟩

theorem scalar_counted (sl : List Slot) (h : DHead) (f : Word → Word → Word → Word × Ev) :
    ScalarFiring (countedFiring sl h f) sl (headTgts h) h.pred := ⟨rfl, rfl, rfl, rfl, rfl, rfl, rfl, fun _ => rfl, rfl⟩

theorem scalar_divide (h : DHead) (f : Word → Word → Word × Nat) : ScalarFiring (divideFiring h f) [.a, .b] (headTgts h) h.pred :=
  ⟨rfl, rfl, rfl, rfl, rfl, rfl, rfl, fun _ => rfl, rfl⟩

theorem scalar_imm (t : Tgt) (f : Word → Word) : ScalarFiring (immFiring t f) [.a] (tgt1 t) .always :=
  ⟨rfl, rfl, rfl, rfl, rfl, rfl, rfl, fun _ => rfl, rfl⟩

theorem scalar_trigger (t : Tgt) (f : Env → Word × Bool) : ScalarFiring (triggerFiring t f) [.a] (tgt1 t) .always :=
  ⟨rfl, rfl, rfl, rfl, rfl, rfl, rfl, fun _ => rfl, rfl⟩

/-- Every instruction of groups 0x1 to 0x4 is a scalar firing of the form that `scalarForm` tells. -/
theorem exec_scalarForm {i : Instr} {sl : List Slot} {tg : List Target} {p : Pred} (h : scalarForm i = some (sl, tg, p)) :
    ∃ f, (∀ s, exec i s = runUnit s (fun _ => f)) ∧ ScalarFiring f sl tg p := by
  cases i
  case div | rem => cases h; exact ⟨_, fun _ => rfl, scalar_divide _ _⟩
  case cvtfi | cvtfh | cvtf8 | pack | q4e | scb => cases h; exact ⟨_, fun _ => rfl, scalar_counted _ _ _⟩
  case addi | muli | cmpi | logi | ldhi => cases h; exact ⟨_, fun _ => rfl, scalar_imm _ _⟩
  case ldi => cases h; exact ⟨_, fun _ => rfl, scalar_trigger _ _⟩
  all_goals cases h
  all_goals exact ⟨_, fun _ => rfl, scalar_word _ _ _⟩

/-- A predicate that does not hold is poisoned or 0 under `.ifTrue`, sound and not 0 under `.ifFalse` (R78). -/
theorem predActive_false {p : Pred} {o : Operands} (h : p = .ifTrue ∧ (o.p.psn = true ∨ o.p.data = 0)
    ∨ p = .ifFalse ∧ o.p.psn = false ∧ o.p.data ≠ 0) : predActive p o = false ∧ predSlots p = [.p] := by
  rcases h with ⟨rfl, h | h⟩ | ⟨rfl, h1, h2⟩
  · simp [predActive, Token.isTrue, predSlots, h]
  · simp [predActive, Token.isTrue, predSlots, h]
  · simpa [predActive, Token.isTrue, predSlots, h1] using h2

/-- A poisoned predicate counts (R78). -/
theorem notePred_eq {s : State} {e : Env} {p : Pred} (h : predSlots p = [.p]) :
    notePred s e p = if (operands e.u).p.psn then addCount s e.c cntPoison 1 else s := by
  cases p
  case always => cases h
  all_goals cases hp : (operands e.u).p.psn <;> simp [notePred, hp, addCount]

/-- Settles O6: every such instruction is one scalar firing, which passes the marker of its join, and predicated off only takes its
operands. -/
theorem scalarMarkersAndPredicates : Obligations.ScalarMarkersAndPredicates := by
  unfold Obligations.ScalarMarkersAndPredicates
  refine ⟨fun i sl tg p hi => ?_, fun i sl tg p s e hi hf hp => ?_⟩
  · obtain ⟨f, hx, h⟩ := exec_scalarForm hi
    refine joins_of hx (fun s _ => issue_free (h.shut s) h.mem h.cmd) (fun _ => ?_) (fun _ => ?_) (fun _ => h.mem) nofun (fun _ _ _ => ?_)
    · rw [Firing.joinSlots, h.joins, h.pred]
    · rw [h.tgts, h.markTgts, List.append_nil]
    · rw [h.onMark]; rfl
  · obtain ⟨f, hx, h⟩ := exec_scalarForm hi
    obtain ⟨hoff, hslot⟩ := predActive_false hp
    have hd : f.dataSlots = sl ++ predSlots p := by rw [Firing.dataSlots, h.slots, h.pred]
    have hj : f.joinSlots ⊆ f.dataSlots := by simp [Firing.joinSlots, Firing.dataSlots, h.slots, h.joins]
    rw [hx, runUnit_off (e := e) (by rw [hd, h.tgts]; exact hf) hj (mayIssue_plain (h.shut s) h.mem h.cmd) (by rw [h.pred]; exact hoff),
      hd, h.pred, notePred_eq hslot, hslot]

end Sys2Proof.Machine

/-! PROOFS. O2: joined markers at the flow instructions. -/

namespace Sys2Proof.Machine

/-- A join that does nothing but pass its marker, of an instruction that nothing holds back. -/
theorem passesMarkers_of {i : Instr} {g : Env → Firing} {sl : List Slot} {tg : List Target} (hx : ∀ s, exec i s = runUnit s g)
    (hj : ∀ e, (g e).joinSlots = sl) (ht : ∀ e, (g e).tgts = tg ∧ (g e).markTgts = [])
    (hi : ∀ e, (g e).mem = false ∧ (g e).cmd = false ∧ ∀ s, (g e).shut s = false) (hm : ∀ e, (g e).onMark = passMark tg) :
    PassesMarkers i free sl tg false :=
  joins_of hx (fun s e => issue_free ((hi e).2.2 s) (hi e).1 (hi e).2.1) hj (fun e => by simp [ht e]) (fun e => (hi e).1)
    nofun (fun s e r => by rw [hm]; rfl)

/-- Markers of one slot agree. -/
theorem joinRank_one (u : ElemSt) (x : Slot) : (joinRank u [x]).2 = true := by simp [joinRank]

/-- MERGE with a marker on p waits for markers on a and b (R138). -/
theorem mergeFiring_marker {tg : List Target} {e : Env} (h : (headOf e.u .p).isMk = true) (hp : e.u.qp ≠ []) :
    mergeFiring tg e = { slots := [.p, .a, .b], joins := [.p, .a, .b], tgts := tg, body := fun s _ _ => .wait s
                         onMark := passMark tg, resume := noResume } := by
  obtain ⟨x, q, hq⟩ := List.exists_cons_of_ne_nil hp
  have hx : x.isMk = true := by simpa [headOf, slotQueue, hq] using h
  simp [mergeFiring, hq, hx]

/-- MERGE with data on p, a marker standing on the slot that it selects (R138). -/
theorem mergeFiring_mismatch {tg : List Target} {e : Env} (hp : e.u.qp ≠ []) (h : (headOf e.u .p).isMk = false)
    (hs : (headOf e.u (mergeSlot (operands e.u).p)).isMk = true) :
    mergeFiring tg e = { slots := [mergeSlot (operands e.u).p], joins := [mergeSlot (operands e.u).p], tgts := tg
                         body := fun s _ _ => .wait s, onMark := fun s e _ => .emit (countMismatch s e.c) [], resume := noResume } := by
  obtain ⟨x, q, hq⟩ := List.exists_cons_of_ne_nil hp
  have ho : (operands e.u).p = x := by simp [operands, headOf, slotQueue, hq]
  have hx : x.isMk = false := by simpa [headOf, slotQueue, hq] using h
  rw [ho] at hs ⊢
  simp [mergeFiring, hq, hx, hs]

/-- A join whose firing depends on what stands in the unit. -/
theorem join_at {i : Instr} {g : Env → Firing} {s s1 : State} {e : Env} {sl : List Slot} {tg : List Target} {out : List (Target × Token)}
    (hx : exec i s = runUnit s g) (h : MayJoin s e sl tg) (hi : mayIssue s e (g e) = true) (hj : (g e).joinSlots = sl)
    (ht : (g e).tgts = tg ∧ (g e).markTgts = [] ∧ (g e).mem = false) (hb : (g e).onMark s e (joinRank e.u sl).1 = .emit s1 out) :
    exec i s = .next (finish (updUnit (if (joinRank e.u sl).2 then s1 else countMismatch s1 e.c) e.c e.i
      (markSeen e.win tg.isEmpty false (joinRank e.u sl).1)) e sl out) := by
  obtain ⟨rfl, hk, hmem⟩ := ht
  subst hj
  rw [hx, runUnit_mark (by rw [hk, List.append_nil]; exact h) hi hb]
  have hnote : noteMark e (g e) (joinRank e.u (g e).joinSlots).1 =
      markSeen e.win (g e).tgts.isEmpty false (joinRank e.u (g e).joinSlots).1 := by
    funext u
    simp [noteMark, hk, hmem]
  rw [hnote]
  cases (joinRank e.u (g e).joinSlots).2 <;> rfl

theorem fank_marker {t : Tgt} {k : Fin 256} {c : Fin 8} {s : State} {e : Env} (h : MayJoin s e [.a] (fankTargets e.win t k c)) :
    exec (.fank t k c) s = .next (finish (updUnit s e.c e.i
      (markSeen e.win (fankTargets e.win t k c).isEmpty false (joinRank e.u [.a]).1)) e [.a]
      (toAll (fankTargets e.win t k c) (markerTok (joinRank e.u [.a]).1))) := by
  rw [join_at (i := .fank t k c) (g := fun e => passFiring slotsA (fankTargets e.win t k c) .always) rfl h rfl rfl ⟨rfl, rfl, rfl⟩ rfl,
    joinRank_one, if_pos rfl]

theorem merge_passes (t0 t1 : Tgt) : PassesMarkers (.merge t0 t1) free [.p, .a, .b] (tgt1 t0 ++ tgt1 t1) false := by
  intro s e h _
  have hf := mergeFiring_marker (tg := tgt1 t0 ++ tgt1 t1) (h.marks .p (by simp)) (h.full .p (by simp))
  exact join_at (g := mergeFiring (tgt1 t0 ++ tgt1 t1)) rfl h (by rw [hf]; rfl) (by rw [hf]; rfl) (by rw [hf]; exact ⟨rfl, rfl, rfl⟩)
    (by rw [hf]; rfl)

theorem merge_mismatch {t0 t1 : Tgt} {s : State} {e : Env} (h : MayJoin s e [mergeSlot (operands e.u).p] (tgt1 t0 ++ tgt1 t1))
    (hp : e.u.qp ≠ []) (hm : (headOf e.u .p).isMk = false) :
    exec (.merge t0 t1) s = .next (finish (updUnit (countMismatch s e.c) e.c e.i
      (markSeen e.win (tgt1 t0 ++ tgt1 t1).isEmpty false (joinRank e.u [mergeSlot (operands e.u).p]).1)) e [mergeSlot (operands e.u).p] []) := by
  have hf := mergeFiring_mismatch (tg := tgt1 t0 ++ tgt1 t1) hp hm (h.marks _ (by simp))
  rw [join_at (i := .merge t0 t1) (g := mergeFiring (tgt1 t0 ++ tgt1 t1)) rfl h (by rw [hf]; rfl) (by rw [hf]; rfl)
    (by rw [hf]; exact ⟨rfl, rfl, rfl⟩) (by rw [hf]), joinRank_one, if_pos rfl]

/-- Settles O2: most instructions only pass their join's marker; MARK, RANKQ, STRIP, COUNT and CONST act on it, and MERGE looks at p. -/
theorem flowMarkers : Obligations.FlowMarkers := by
  unfold Obligations.FlowMarkers
  have pass {i : Instr} {sl : List Slot} {tg : List Target} {f : Firing} (hx : ∀ s, exec i s = runUnit s (fun _ => f)) (hj : f.joinSlots = sl)
      (ht : f.tgts = tg ∧ f.markTgts = []) (hi : f.mem = false ∧ f.cmd = false ∧ ∀ s, f.shut s = false) (hm : f.onMark = passMark tg) :
      PassesMarkers i free sl tg false := passesMarkers_of hx (fun _ => hj) (fun _ => ht) (fun _ => hi) (fun _ => hm)
  refine ⟨fun h => ?_, fun t0 t1 => ?_, fun h => ?_, fun p => ?_, fun _ _ _ _ _ h => fank_marker h,
    fun t0 t1 => ⟨merge_passes t0 t1, fun _ _ => merge_mismatch⟩, fun t w => ?_, fun t w => ?_, fun t b => ?_, fun t => ?_,
    fun t c k => ?_, fun t k => ?_, fun t k => ?_, fun t k => ?_, fun t k n => ?_⟩
  iterate 8 exact pass (fun _ => rfl) rfl ⟨rfl, rfl⟩ ⟨rfl, rfl, fun _ => rfl⟩ rfl
  case refine_12 =>
    refine joins_of (g := fun _ => _) (fun _ => rfl) (fun _ _ => issue_free rfl rfl rfl) (fun _ => rfl) (fun _ => List.append_nil _)
      (fun _ => rfl) nofun (fun s e r => ?_)
    dsimp only
    split <;> rfl
  all_goals
    exact joins_of (g := fun _ => _) (fun _ => rfl) (fun _ _ => issue_free rfl rfl rfl) (fun _ => rfl) (fun _ => List.append_nil _)
      (fun _ => rfl) nofun (fun _ _ _ => rfl)

end Sys2Proof.Machine

/-! PROOFS. O8: what a firing takes from its slots, and where its tokens stand after it. -/

namespace Sys2Proof.Machine

/-! ### What sending leaves of a unit -/

/-- A unit without its queues. -/
def sansQueues (u : ElemSt) : ElemSt := { u with qa := [], qb := [], qc := [], qp := [] }

theorem sansQueues_setQueue (u : ElemSt) (x : Slot) (q : List Token) : sansQueues (setQueue u x q) = sansQueues u := by cases x <;> rfl

/-- Tokens sent change of the units their queues alone. -/
theorem sendToks_sansQueues (i j : Nat) : ∀ (l stage : List (Target × Token)) (w : Window),
    ((sendToks w i stage l).1.units[j]?).map sansQueues = (w.units[j]?).map sansQueues
  | [], _, _ => rfl
  | (t, tok) :: l, stage, w => by
    simp only [sendToks]
    split
    · rfl
    · split
      · rw [sendToks_sansQueues i j l, pushTok, modNth_get]
        split
        · simp [Option.map_map, Function.comp_def, sansQueues_setQueue]
        · rfl
      · exact sendToks_sansQueues i j l _ w

theorem popSlots_stage (sl : List Slot) : ∀ u : ElemSt, (popSlots u sl).stage = u.stage := by
  induction sl with
  | nil => exact fun _ => rfl
  | cons x sl ih => exact fun u => (ih (popSlot u x)).trans (by cases x <;> rfl)

/-! ### Tokens of distinct targets, all of whose stages are empty -/

theorem hasRoom_of_queue {w v : Window} {i : Nat} {t : Target} (hq : queueOf v t = queueOf w t)
    (hw : { v with units := [] } = { w with units := [] }) : hasRoom v i t = hasRoom w i t := by
  have hh := congrArg (fun x : Window => winHops x i t.index.val) hw
  change winHops v i t.index.val = winHops w i t.index.val at hh
  simp only [queueOf] at hq
  simp only [hasRoom, hh]
  cases hv : v.units[t.index.val]? <;> cases hu : w.units[t.index.val]? <;> simp_all

/-- Room for another target is not used up. -/
theorem hasRoom_pushTok {w : Window} {i : Nat} {t x : Target} (tok : Token) (h : x ≠ t) :
    hasRoom (pushTok w t tok) i x = hasRoom w i x := by
  refine hasRoom_of_queue ?_ rfl
  simp [queueOf_push, Ne.symm h]

theorem stageFree_append {stage l : List (Target × Token)} {t : Target} :
    stageFree (stage ++ l) t = (stageFree stage t && stageFree l t) := by
  simp [stageFree]

/-- Each token of such a list arrives where its circuit has room, and stands in the output stage where it has none (R124). -/
theorem sendToks_distinct (i : Nat) : ∀ (l stage : List (Target × Token)) (w : Window), (l.map (·.1)).Nodup →
    (∀ p ∈ l, stageFree stage p.1 = true) → (sendToks w i stage l).2 = (stage ++ l.filter (fun p => !hasRoom w i p.1), [])
  | [], stage, w, _, _ => by simp [sendToks]
  | (t, tok) :: l, stage, w, hn, hf => by
    obtain ⟨ht, hn⟩ := List.nodup_cons.1 hn
    have hne : ∀ p ∈ l, p.1 ≠ t := fun p hp h => ht (List.mem_map.2 ⟨p, hp, h⟩)
    have hft := hf (t, tok) (by simp)
    have hfl : ∀ p ∈ l, stageFree stage p.1 = true := fun p hp => hf p (by simp [hp])
    cases hr : hasRoom w i t with
    | true =>
      have hfilter : l.filter (fun p => !hasRoom (pushTok w t tok) i p.1) = l.filter (fun p => !hasRoom w i p.1) :=
        List.filter_congr fun p hp => by rw [hasRoom_pushTok tok (hne p hp)]
      simp [sendToks, hft, hr, sendToks_distinct i l stage (pushTok w t tok) hn hfl, hfilter]
    | false =>
      have hfl' : ∀ p ∈ l, stageFree (stage ++ [(t, tok)]) p.1 = true := fun p hp => by
        rw [stageFree_append, hfl p hp]; simpa [stageFree] using (hne p hp).symm
      simp [sendToks, hft, hr, sendToks_distinct i l (stage ++ [(t, tok)]) w hn hfl']

theorem tokensTo_of_ne {tg : Target} {l : List (Target × Token)} (h : ∀ p ∈ l, p.1 ≠ tg) : tokensTo tg l = [] := by
  simpa [tokensTo] using fun p hp => h p hp

theorem tokensTo_cons (tg : Target) (q : Target × Token) (l : List (Target × Token)) :
    tokensTo tg (q :: l) = if q.1 = tg then q.2 :: tokensTo tg l else tokensTo tg l := by
  unfold tokensTo
  rw [List.filter_cons]
  by_cases h : q.1 = tg
  · rw [if_pos (by simpa using h), if_pos h, List.map_cons]
  · rw [if_neg (by simpa using h), if_neg h]

/-- Of distinct targets each gets its one token. -/
theorem tokensTo_distinct {l : List (Target × Token)} (hn : (l.map (·.1)).Nodup) : ∀ p ∈ l, tokensTo p.1 l = [p.2] := by
  induction l with
  | nil => exact fun _ hp => absurd hp List.not_mem_nil
  | cons q l ih =>
    intro p hp
    obtain ⟨hq, hn⟩ := List.nodup_cons.1 hn
    have hne : ∀ x ∈ l, x.1 ≠ q.1 := fun x hx h => hq (List.mem_map.2 ⟨x, hx, h⟩)
    rw [tokensTo_cons]
    rcases List.mem_cons.1 hp with rfl | hp
    · rw [if_pos rfl, tokensTo_of_ne hne]
    · rw [if_neg (hne p hp).symm, ih hn p hp]

/-! ### The window after a firing -/

/-- The unit that fires, its operands taken and the firing counted. -/
def firedUnit (sl : List Slot) (u : ElemSt) : ElemSt := { popSlots u sl with fired := u.fired + 1 }

/-- The window before its tokens are sent. -/
def firedWin (e : Env) (sl : List Slot) : Window := { e.win with units := modNth (firedUnit sl) e.win.units e.i }

/-- What a firing's sending leaves: the window, the output stage, and the tokens that the unit holds. -/
def firedSend (e : Env) (sl : List Slot) (out : List (Target × Token)) : Window × List (Target × Token) × List (Target × Token) :=
  sendToks (firedWin e sl) e.i e.u.stage out

theorem firedUnit_queue {sl : List Slot} (hn : sl.Nodup) (u : ElemSt) (x : Slot) :
    slotQueue (firedUnit sl u) x = if x ∈ sl then (slotQueue u x).tail else slotQueue u x := by
  rw [← popSlots_queue sl hn]
  cases x <;> rfl

theorem firedWin_get (e : Env) (sl : List Slot) (j : Nat) :
    (firedWin e sl).units[j]? = if j = e.i then (e.win.units[j]?).map (firedUnit sl) else e.win.units[j]? := modNth_get _ _ _ _

/-- A unit after a firing: of the one that fires, what it still holds is put back. -/
def putBack (e : Env) (sl : List Slot) (out : List (Target × Token)) (j : Nat) (u : ElemSt) : ElemSt :=
  if j = e.i then { u with stage := (firedSend e sl out).2.1, out := (firedSend e sl out).2.2 } else u

theorem putBack_queue (e : Env) (sl : List Slot) (out : List (Target × Token)) (j : Nat) (u : ElemSt) (x : Slot) :
    slotQueue (putBack e sl out j u) x = slotQueue u x := by
  unfold putBack
  split
  · cases x <;> rfl
  · rfl

variable {s : State} {e ej : Env} {sl : List Slot} {out : List (Target × Token)}

/-- The environment of a unit of the window after a firing. -/
theorem envAt_finish (h : envAt s e.c e.i = some e) (sl : List Slot) (out : List (Target × Token)) (j : Nat) :
    envAt (finish s e sl out) e.c j = ((firedSend e sl out).1.units[j]?).map (fun u =>
      { e with i := j, win := keepToks (firedSend e sl out) e.i, u := putBack e sl out j u }) := by
  obtain ⟨-, hself, hall⟩ := envAt_updWin h (fun w => emitToks { w with units := modNth (firedUnit sl) w.units e.i } e.i out)
  have hu : e.win.units[e.i]? = some e.u := (hself _ _ h).2.2.2.2
  have hst : unitStage (firedWin e sl) e.i = e.u.stage := by
    simp [unitStage, firedWin_get, hu, firedUnit, popSlots_stage]
  have hw : emitToks (firedWin e sl) e.i out = keepToks (firedSend e sl out) e.i := by rw [emitToks, hst]; rfl
  refine (hall j).trans ?_
  rw [show { e.win with units := modNth (firedUnit sl) e.win.units e.i } = firedWin e sl from rfl, hw]
  simp only [keepToks, modNth_get]
  by_cases hj : j = e.i
  · subst hj; simp [Option.map_map, Function.comp_def, putBack]
  · simp [hj, putBack]

/-- The unit at `j` before a firing. -/
theorem unit_of_envAt (h : envAt s e.c e.i = some e) {j : Nat} (hj : envAt s e.c j = some ej) : e.win.units[j]? = some ej.u :=
  ((envAt_updWin h id).2.1 j ej hj).2.2.2.2

/-- A unit of the window has its place in it after a firing, with nothing but its queues changed by the tokens sent. -/
theorem firedSend_unit {u : ElemSt} {j : Nat} (hu : (firedWin e sl).units[j]? = some u) (out : List (Target × Token)) :
    ∃ v, (firedSend e sl out).1.units[j]? = some v ∧ sansQueues v = sansQueues u := by
  have h := sendToks_sansQueues e.i j out e.u.stage (firedWin e sl)
  rw [hu] at h
  exact Option.map_eq_some_iff.1 h

theorem queueOf_keepToks (r : Window × List (Target × Token) × List (Target × Token)) (i : Nat) (tg : Target) :
    queueOf (keepToks r i) tg = queueOf r.1 tg := by
  simp only [queueOf, keepToks, modNth_get]
  split
  · rw [Option.map_map]
    refine congrArg (Option.map · _) (funext fun u => ?_)
    cases tg.slot <;> rfl
  · rfl

theorem queueOf_firedWin (hn : sl.Nodup) {tg : Target} {u : ElemSt} (hu : e.win.units[tg.index.val]? = some u) :
    queueOf (firedWin e sl) tg =
      some (if tg.index.val = e.i ∧ tg.slot ∈ sl then (slotQueue u tg.slot).tail else slotQueue u tg.slot) := by
  rw [queueOf, firedWin_get, hu]
  by_cases hi : tg.index.val = e.i
  · rw [if_pos hi, Option.map_some, Option.map_some, firedUnit_queue hn]
    simp [hi]
  · simp [hi]

/-- What a firing leaves in a target's queue and in its output stage for it: what stood there, then its tokens (R25, R124). -/
theorem firedSend_order (hn : sl.Nodup) {tg : Target} {u v : ElemSt} (hu : e.win.units[tg.index.val]? = some u)
    (hv : (firedSend e sl out).1.units[tg.index.val]? = some v) :
    slotQueue v tg.slot ++ tokensTo tg ((firedSend e sl out).2.1 ++ (firedSend e sl out).2.2) =
      (if tg.index.val = e.i ∧ tg.slot ∈ sl then (slotQueue u tg.slot).tail else slotQueue u tg.slot)
        ++ tokensTo tg e.u.stage ++ tokensTo tg out := by
  have h := sendToks_order e.i tg out e.u.stage (firedWin e sl)
  rw [queueOf_firedWin hn hu, queueOf, show sendToks (firedWin e sl) e.i e.u.stage out = firedSend e sl out from rfl, hv] at h
  exact Option.some.inj h

/-- Room for a target of another unit is as it was before the firing took its operands. -/
theorem hasRoom_firedWin (e : Env) (sl : List Slot) {tg : Target} (h : tg.index.val ≠ e.i) :
    hasRoom (firedWin e sl) e.i tg = hasRoom e.win e.i tg := by
  refine hasRoom_of_queue ?_ rfl
  rw [queueOf, firedWin_get, if_neg h]
  rfl

/-- What a firing holds of tokens for distinct targets of other units, whose stages are empty. -/
theorem firedSend_distinct (hf : ∀ p ∈ out, p.1.index.val ≠ e.i ∧ stageFree e.u.stage p.1 = true) (hd : (out.map (·.1)).Nodup) :
    (firedSend e sl out).2 = (e.u.stage ++ out.filter (fun p => !hasRoom e.win e.i p.1), []) := by
  have hroom : out.filter (fun p => !hasRoom (firedWin e sl) e.i p.1) = out.filter (fun p => !hasRoom e.win e.i p.1) :=
    List.filter_congr fun p hp => by rw [hasRoom_firedWin e sl (hf p hp).1]
  rw [firedSend, sendToks_distinct e.i out e.u.stage (firedWin e sl) hd (fun p hp => (hf p hp).2), hroom]

/-- Settles O8: the window after a firing is that of `firedSend`, which moves tokens through the output stage in order. -/
theorem firingTakesAndSends : Obligations.FiringTakesAndSends := by
  unfold Obligations.FiringTakesAndSends
  intro s e sl out h hn
  have hown : (firedWin e sl).units[e.i]? = some (firedUnit sl e.u) := by rw [firedWin_get, if_pos rfl, unit_of_envAt h h]; rfl
  obtain ⟨v, hv, hrest⟩ := firedSend_unit hown out
  have henv {j : Nat} {u : ElemSt} (hj : (firedSend e sl out).1.units[j]? = some u) : envAt (finish s e sl out) e.c j =
      some { e with i := j, win := keepToks (firedSend e sl out) e.i, u := putBack e sl out j u } := by rw [envAt_finish h, hj]; rfl
  have hput : putBack e sl out e.i v = { v with stage := (firedSend e sl out).2.1, out := (firedSend e sl out).2.2 } := if_pos rfl
  have still {j : Nat} {u : ElemSt} (hj : ∀ p ∈ out, p.1.index.val ≠ j) (hu : (firedWin e sl).units[j]? = some u) :
      (firedSend e sl out).1.units[j]? = some u := (sendToks_unit e.i out e.u.stage _ j hj).trans hu
  have after {j : Nat} {ej : Env} (hj : envAt s e.c j = some ej) : ∃ w, (firedSend e sl out).1.units[j]? = some w := by
    have hu : (firedWin e sl).units[j]? ≠ none := by rw [firedWin_get, unit_of_envAt h hj]; split <;> simp
    obtain ⟨u, hu⟩ := Option.ne_none_iff_exists'.1 hu
    exact (firedSend_unit hu out).imp fun _ hw => hw.1
  refine ⟨_, henv hv, ⟨?_, rfl, ?_, aside_finish⟩, ?_, ?_, ?_, ?_⟩
  · rw [hput]; exact congrArg ElemSt.fired hrest
  · exact sendToks_units e.i out e.u.stage (firedWin e sl)
  · intro hno x
    obtain rfl := Option.some.inj ((still hno hown).symm.trans hv)
    exact (putBack_queue e sl out e.i _ x).trans (firedUnit_queue hn e.u x)
  · intro j ej hj hej hno
    have hu := unit_of_envAt h hej
    exact ⟨_, henv (still hno (by rw [firedWin_get, if_neg hj, hu])), if_neg hj⟩
  · intro ho tg ej hej
    obtain ⟨w, hw⟩ := after hej
    refine ⟨_, henv hw, ?_⟩
    have hway : onTheWay e.u tg = tokensTo tg e.u.stage := by rw [onTheWay, ho, List.append_nil]
    rw [putBack_queue, hput, hway, onTheWay]
    exact firedSend_order hn (unit_of_envAt h hej) hw
  · intro hf hd
    have hsend := firedSend_distinct (sl := sl) hf hd
    refine ⟨by rw [hput, hsend], by rw [hput, hsend], fun p hp hr ej hej => ?_⟩
    obtain ⟨w, hw⟩ := after hej
    refine ⟨_, henv hw, ?_⟩
    have horder := firedSend_order hn (unit_of_envAt h hej) hw
    have hkept : tokensTo p.1 (out.filter (fun q => !hasRoom e.win e.i q.1)) = [] :=
      tokensTo_of_ne fun q hq hqp => by simpa [hqp, hr] using (List.mem_filter.1 hq).2
    rw [hsend, List.append_nil, tokensTo_append, tokensTo_free (hf p hp).2, hkept, if_neg (fun hx => (hf p hp).1 hx.1),
      tokensTo_distinct hd p hp] at horder
    simpa [putBack_queue] using horder

end Sys2Proof.Machine

/-! PROOFS. Bits of the bytes of a block: what masks, replaced bytes and merges read as. -/

namespace Sys2Proof.Machine

theorem pow_256 (n : Nat) : 256 ^ n = 2 ^ (8 * n) := by rw [Nat.pow_mul]

theorem testBit_lineNat (d : Bits512) (i n j : Nat) : (lineNat d i n).testBit j = (decide (j < 8 * n) && d.getLsbD (8 * i + j)) := by
  rw [lineNat, pow_256, pow_256, Nat.testBit_mod_two_pow, Nat.testBit_div_two_pow, BitVec.getLsbD, Nat.add_comm]

/-- Bytes are those of another block when their bits are. -/
theorem lineNat_congr {d d' : Bits512} {i n : Nat} (h : ∀ k, 8 * i ≤ k → k < 8 * (i + n) → d.getLsbD k = d'.getLsbD k) :
    lineNat d i n = lineNat d' i n := by
  refine Nat.eq_of_testBit_eq fun j => ?_
  rw [testBit_lineNat, testBit_lineNat]
  by_cases hj : j < 8 * n
  · rw [h _ (by omega) (by omega)]
  · simp [hj]

/-- Bytes are a number's when their bits are. -/
theorem lineNat_eq {d : Bits512} {i n v : Nat} (h : ∀ j, j < 8 * n → d.getLsbD (8 * i + j) = v.testBit j) : lineNat d i n = v % 256 ^ n := by
  refine Nat.eq_of_testBit_eq fun j => ?_
  rw [testBit_lineNat, pow_256, Nat.testBit_mod_two_pow]
  by_cases hj : j < 8 * n
  · rw [h j hj]
  · simp [hj]

theorem getLsbD_byteBits (i n k : Nat) : (byteBits i n).getLsbD k = decide (k < 512 ∧ 8 * i ≤ k ∧ k < 8 * (i + n)) := by
  rw [byteBits, BitVec.getLsbD_ofNat, pow_256, pow_256, Nat.testBit_mul_two_pow, Nat.testBit_two_pow_sub_one]
  simp only [← Bool.decide_and, decide_eq_decide]
  omega

/-- The bits of a block with some bytes replaced. -/
theorem getLsbD_putNat (d : Bits512) (i n v k : Nat) : (putNat d i n v).getLsbD k =
    if 8 * i ≤ k ∧ k < 8 * (i + n) then decide (k < 512) && v.testBit (k - 8 * i) else d.getLsbD k := by
  rw [putNat, BitVec.getLsbD_or, BitVec.getLsbD_and, BitVec.getLsbD_not, getLsbD_byteBits, BitVec.getLsbD_ofNat, pow_256, pow_256,
    Nat.testBit_mul_two_pow, Nat.testBit_mod_two_pow]
  by_cases hk : k < 512
  · by_cases h1 : 8 * i ≤ k
    · by_cases h2 : k < 8 * (i + n)
      · simp [hk, h1, h2, show k - 8 * i < 8 * n by omega]
      · simp [hk, h1, h2, show ¬k - 8 * i < 8 * n by omega]
    · simp [hk, h1]
  · simp [hk, BitVec.getLsbD_of_ge d k (by omega)]

theorem getLsbD_byteMask (i n k : Nat) : (byteMask i n).getLsbD k = decide (k < 64 ∧ i ≤ k ∧ k < i + n) := by
  rw [byteMask, BitVec.getLsbD_ofNat, Nat.testBit_mul_two_pow, Nat.testBit_two_pow_sub_one]
  simp only [← Bool.decide_and, decide_eq_decide]
  omega

/-- A sum of masked bytes has the bits that the mask chooses. -/
theorem testBit_maskSum (b : Nat → Bool) (k : Nat) : ∀ n, ((List.range n).map (fun i => if b i then 255 * 256 ^ i else 0)).sum < 256 ^ n ∧
    (((List.range n).map (fun i => if b i then 255 * 256 ^ i else 0)).sum).testBit k = (decide (k < 8 * n) && b (k / 8))
  | 0 => by simp
  | n + 1 => by
    obtain ⟨hlt, hbit⟩ := testBit_maskSum b k n
    rw [List.range_succ, List.map_append, List.sum_append, List.map_singleton, List.sum_singleton]
    generalize ((List.range n).map (fun i => if b i then 255 * 256 ^ i else 0)).sum = x at hlt hbit
    refine ⟨?_, ?_⟩
    · rw [Nat.pow_succ]; split <;> omega
    · rw [show x + (if b n then 255 * 256 ^ n else 0) = 2 ^ (8 * n) * (if b n then 255 else 0) + x by rw [← pow_256]; split <;> omega,
        Nat.testBit_two_pow_mul_add _ (by rw [← pow_256]; exact hlt), hbit]
      by_cases h : k < 8 * n
      · simp [h, show k < 8 * (n + 1) by omega]
      · by_cases h8 : k < 8 * (n + 1)
        · have hb : (if b n then 255 else 0).testBit (k - 8 * n) = b n := by
            obtain ⟨j, hj⟩ : ∃ j, j = k - 8 * n := ⟨_, rfl⟩
            have : j < 8 := by omega
            rw [← hj]
            interval_cases j <;> cases b n <;> rfl
          simp [h, h8, hb, show k / 8 = n by omega]
        · have hb : (if b n then 255 else 0).testBit (k - 8 * n) = false :=
            Nat.testBit_lt_two_pow (lt_of_lt_of_le (b := 2 ^ 8) (by split <;> decide) (Nat.pow_le_pow_right (by decide) (by omega)))
          simp [h, h8, hb]

theorem getLsbD_maskBits (m : BitVec 64) (k : Nat) : (maskBits m).getLsbD k = m.getLsbD (k / 8) := by
  rw [maskBits, BitVec.getLsbD_ofNat, (testBit_maskSum m.getLsbD k 64).2]
  by_cases hk : k < 512
  · simp [hk]
  · simp [hk, BitVec.getLsbD_of_ge m (k / 8) (by omega)]

/-- The bits of a block into which masked bytes are merged (R96). -/
theorem getLsbD_mergeLine (old : Line) (mask : BitVec 64) (data : Bits512) (desc : Option Desc) (k : Nat) :
    (mergeLine old mask data desc).data.getLsbD k =
      if mask.getLsbD (k / 8) then data.getLsbD k else !isSubst old.desc && old.data.getLsbD k := by
  simp only [mergeLine, BitVec.getLsbD_or, BitVec.getLsbD_and, BitVec.getLsbD_not, getLsbD_maskBits]
  by_cases hk : k < 512
  · cases hs : isSubst old.desc <;> cases hm : mask.getLsbD (k / 8) <;> simp [hk]
  · simp [BitVec.getLsbD_of_ge data k (by omega), BitVec.getLsbD_of_ge old.data k (by omega), hk]

end Sys2Proof.Machine

/-! PROOFS. O19: a word staged in a node's view. -/

namespace Sys2Proof.Machine

/-! ### Staged bytes -/

/-- A byte's own mask lies within another exactly when the other has its bit. -/
theorem byteMask_one_and (m : BitVec 64) {i : Nat} (hi : i < 64) : (byteMask i 1 &&& m == byteMask i 1) = m.getLsbD i := by
  have h (k : Nat) : (byteMask i 1).getLsbD k = decide (k = i) := by
    rw [getLsbD_byteMask, decide_eq_decide]; omega
  cases hm : m.getLsbD i with
  | true =>
    rw [beq_iff_eq]
    refine BitVec.eq_of_getLsbD_eq fun k _ => ?_
    rw [BitVec.getLsbD_and, h]
    by_cases hk : k = i <;> simp [hk, hm]
  | false =>
    rw [beq_eq_false_iff_ne]
    intro he
    have := congrArg (BitVec.getLsbD · i) he
    simp [BitVec.getLsbD_and, h, hm] at this

/-- A mask with a gap covers no whole block. -/
theorem ne_allOnes_of_gap {m : BitVec 64} {j : Nat} (hj : j < 64) (h : m.getLsbD j = false) : (m != BitVec.allOnes 64) = true := by
  rw [bne_iff_ne]
  rintro rfl
  rw [BitVec.getLsbD_allOnes, decide_eq_false_iff_not] at h
  exact h hj

/-- A merge that leaves a byte of a block keeps its poison (R205). -/
theorem mergeLine_psn_of_gap (l : Line) {m : BitVec 64} {j : Nat} (hj : j < 64) (h : m.getLsbD j = false) (data : Bits512) (desc : Option Desc) :
    (mergeLine l m data desc).psn = l.psn := by
  exact (congrArg (l.psn && ·) (ne_allOnes_of_gap hj h)).trans (Bool.and_true _)

/-- What was staged before is kept where no SUBST block was (R97). -/
theorem mergeStaged_some {y : Staged} (h : (y.desc.map isSubst).getD false = false) (mask : BitVec 64) (data : Bits512) :
    mergeStaged (some y) mask data none =
      { mask := y.mask ||| mask, data := (y.data &&& ~~~maskBits mask) ||| (data &&& maskBits mask), desc := y.desc } := by
  simp [mergeStaged, h]

theorem mergeStaged_mask (old : Option Staged) (mask : BitVec 64) (data : Bits512) (desc : Option Desc) (k : Nat) :
    (mergeStaged old mask data desc).mask.getLsbD k = ((old.any (·.mask.getLsbD k)) || mask.getLsbD k) := by
  cases old <;> simp [mergeStaged]

theorem mergeStaged_data (old : Option Staged) (mask : BitVec 64) (data : Bits512) (desc : Option Desc) {k : Nat} (h : mask.getLsbD (k / 8) = true) :
    (mergeStaged old mask data desc).data.getLsbD k = data.getLsbD k := by
  cases old <;> simp [mergeStaged, getLsbD_maskBits, h]

/-- The staged bytes of a node are what it reads, whatever stands below them. -/
theorem blockBytes_staged (l : Line) (old : Option Staged) {i n : Nat} (v : Nat) (hi : i + n ≤ 64) :
    blockBytes l (some (mergeStaged old (byteMask i n) (putNat 0 i n v) none)) i n = (v % 256 ^ n, false) := by
  generalize hx : mergeStaged old (byteMask i n) (putNat 0 i n v) none = x
  have hmask : byteMask i n &&& x.mask = byteMask i n := by
    refine BitVec.eq_of_getLsbD_eq fun k _ => ?_
    rw [BitVec.getLsbD_and, ← hx, mergeStaged_mask]
    cases (byteMask i n).getLsbD k <;> simp
  have hbits : lineNat (mergeLine l x.mask x.data x.desc).data i n = v % 256 ^ n := by
    refine lineNat_eq fun j hj => ?_
    have hin : (byteMask i n).getLsbD ((8 * i + j) / 8) = true := by rw [getLsbD_byteMask]; simp; omega
    rw [getLsbD_mergeLine, ← hx, mergeStaged_mask, hin, Bool.or_true, if_pos rfl, mergeStaged_data _ _ _ _ hin, getLsbD_putNat,
      if_pos (by omega)]
    simp; omega
  simp [blockBytes, overlay, hmask, hbits]

/-- The view of a byte that is not stored: the line below, or what was staged over it, as before (R57, R97). -/
theorem blockBytes_other (l : Line) (was : Option Staged) {i n j : Nat} (v : Nat) (hj : j < 64) (hout : j < i ∨ i + n ≤ j)
    (hw : ∀ y, was = some y → (y.desc.map isSubst).getD false = false) (hl : was = none → isSubst l.desc = false) :
    blockBytes l (some (mergeStaged was (byteMask i n) (putNat 0 i n v) none)) j 1 = blockBytes l was j 1 := by
  have hoff : (byteMask i n).getLsbD j = false := by rw [getLsbD_byteMask]; simp; omega
  have hbyte {k : Nat} (h1 : 8 * j ≤ k) (h2 : k < 8 * (j + 1)) : k / 8 = j := by omega
  cases was with
  | none =>
    have hdata : lineNat (mergeLine l (byteMask i n) (putNat 0 i n v &&& maskBits (byteMask i n)) none).data j 1 = lineNat l.data j 1 :=
      lineNat_congr fun k h1 h2 => by rw [getLsbD_mergeLine, hbyte h1 h2, hoff, hl rfl]; simp
    simp only [blockBytes, overlay, mergeStaged, byteMask_one_and _ hj, hoff, hdata, mergeLine_psn_of_gap l hj hoff, Bool.not_false,
      Bool.and_true]
  | some y =>
    rw [mergeStaged_some (hw y rfl)]
    have hmask : (y.mask ||| byteMask i n).getLsbD j = y.mask.getLsbD j := by rw [BitVec.getLsbD_or, hoff, Bool.or_false]
    have hdata : lineNat (mergeLine l (y.mask ||| byteMask i n) ((y.data &&& ~~~maskBits (byteMask i n)) ||| (putNat 0 i n v &&& maskBits (byteMask i n)))
        y.desc).data j 1 = lineNat (mergeLine l y.mask y.data y.desc).data j 1 := by
      refine lineNat_congr fun k h1 h2 => ?_
      have hk : k < 512 := by omega
      have hm : (maskBits (byteMask i n)).getLsbD k = false := by rw [getLsbD_maskBits, hbyte h1 h2, hoff]
      rw [getLsbD_mergeLine, getLsbD_mergeLine, hbyte h1 h2, hmask, BitVec.getLsbD_or, BitVec.getLsbD_and, BitVec.getLsbD_and,
        BitVec.getLsbD_not, hm]
      simp only [hk, Bool.not_false, decide_true, Bool.and_true, Bool.and_false, Bool.or_false]
    simp only [blockBytes, overlay, byteMask_one_and _ hj, hmask, hdata]
    cases hy : y.mask.getLsbD j with
    | true => simp only [Bool.not_true, Bool.and_false]
    | false => rw [mergeLine_psn_of_gap l hj hy, mergeLine_psn_of_gap l hj (hmask.trans hy)]

/-! ### A context without errors in its region parts -/

/-- No error lies in a part of the context's region (R205). -/
def NoErrs (s : State) (c : CtxId) : Prop := ∀ part b, regionErrs s c part b = []

theorem noErrs_of_sublist {s t : State} {c : CtxId} (h : NoErrs s c) (hs : t.mem.soft.Sublist s.mem.soft) : NoErrs t c := fun part b =>
  List.eq_nil_of_sublist_nil (h part b ▸ hs.filterMap _)

theorem addCe_soft (s : State) (k n : Nat) : (addCe s k n).mem.soft = s.mem.soft := by
  unfold addCe
  split
  · simp only; split <;> rfl
  · rfl

theorem countDecoded_soft (s : State) (k b : Nat) (ds : List Decoded) : (countDecoded s k b ds).mem.soft = s.mem.soft := by
  unfold countDecoded
  simp only
  split
  · split <;> rfl
  · rw [addCe_soft, addSymbols_mem]
    split <;> rfl

/-- The decoder drops no error. -/
theorem decodeAt_soft (s : State) (k b : Nat) (errs : List (Nat × Nat × Byte)) (l : Line) : (decodeAt s k b errs l).2.mem.soft = s.mem.soft := by
  unfold decodeAt
  simp only
  split
  · rfl
  · split
    · rfl
    · exact countDecoded_soft _ _ _ _

/-- A block about to be read, where no error lies, is as it was, and so is every context. -/
theorem settlePart_noErrs {s : State} {c : CtxId} (h : NoErrs s c) (part : RegionPart) (b : Nat) :
    NoErrs (settlePart c part s b) c ∧ getCtx (settlePart c part s b) c = getCtx s c := by
  unfold settlePart
  simp only [h part b, List.isEmpty_nil, Bool.true_and, if_true]
  split
  · exact ⟨h, rfl⟩
  · next hm =>
    cases c with
    | fw k l => exact absurd rfl hm
    | node id =>
      split
      · exact ⟨noErrs_of_sublist h List.filter_sublist, rfl⟩
      · refine ⟨noErrs_of_sublist h ?_, ?_⟩
        · exact List.filter_sublist.trans (by rw [decodeAt_soft])
        · simp only [getCtx, getNode, dropRegion, decodeAt_dsp]

theorem settleG_noErrs {s : State} {c : CtxId} (h : NoErrs s c) (b : Nat) : getCtx (settleG s c b) c = getCtx s c := by
  obtain ⟨h1, h2⟩ := settlePart_noErrs h .snapG b
  exact (settlePart_noErrs h1 .stageG b).2.trans h2

theorem settleS_noErrs {s : State} {c : CtxId} (h : NoErrs s c) (b : Nat) : getCtx (settleS s c b) c = getCtx s c := by
  obtain ⟨h1, h2⟩ := settlePart_noErrs h .scratch b
  obtain ⟨h3, h4⟩ := settlePart_noErrs h1 .snapS b
  exact (settlePart_noErrs h3 .stageS b).2.trans (h4.trans h2)

/-! ### A read under the node's staged bytes -/

/-- A line read from global memory comes under the node's staged bytes of its block. -/
theorem readG_staged {s : State} {c : CtxId} {va : Dword} {x : Ctx} {l : Line} {st : Option Staged} {u : State} (h : NoErrs s c)
    (hx : getCtx s c = some x) (hr : readG s c va false = .line l st u) : st = mapFind x.mem.stageG (va.toNat / 64 * 64) := by
  unfold readG at hr
  simp only [settleG_noErrs h, hx] at hr
  repeat' split at hr
  all_goals cases hr <;> rfl

theorem readS_staged {s : State} {c : CtxId} {ofs : Nat} {x : Ctx} {l : Line} {st : Option Staged} {u : State} (h : NoErrs s c)
    (hx : getCtx s c = some x) (hr : readS s c ofs false = .line l st u) : st = mapFind x.mem.stageS (ofs / 64 * 64) := by
  unfold readS at hr
  simp only [settleS_noErrs h, hx] at hr
  repeat' split at hr
  all_goals cases hr <;> rfl

/-! ### The staged store -/

/-- A firmware window that stands in the state lies in one of its cores. -/
theorem core_lt_of_win {s : State} {k : Fin 16} {l : Fin 3} {w : Window} (h : getWin s (.fw k l) = some w) : k.val < s.cores.length := by
  by_contra hc
  rw [getWin, getCore, nth_out _ _ _ (Nat.not_lt.1 hc), coreWin_init] at h
  cases h

theorem getCtx_updCtx_focus {s : State} {e : Env} (h : focusEnv s = some e) (f : Ctx → Ctx) : getCtx (updCtx s e.c f) e.c = some (f e.ctx) :=
  getCtx_updCtx f (focus_ctx h).1 fun _ l hc => core_lt_of_win (l := l) (hc ▸ (focus_ctx h).2)

theorem modNth_out {α : Type} (f : α → α) : ∀ {l : List α} {n : Nat}, l.length ≤ n → modNth f l n = l
  | [], _, _ => rfl
  | _ :: _, 0, h => absurd h (by simp)
  | x :: _, _ + 1, h => congrArg (x :: ·) (modNth_out f (Nat.le_of_succ_le_succ h))

/-- A core that there is not is not updated. -/
theorem updCore_out {s : State} {c : Nat} (f : Core → Core) (h : s.cores.length ≤ c) : updCore s c f = s := by
  rw [updCore, modNth_out f h]

theorem getWin_updCtx (s : State) (c : CtxId) (f : Ctx → Ctx) : getWin (updCtx s c f) c = getWin s c := by
  cases c with
  | node id =>
    rw [getWin, updCtx, getNode_updNode s id (fun n => { n with ctx := f n.ctx }) fun _ => rfl, getWin]
    cases getNode s id <;> rfl
  | fw k l =>
    by_cases hk : k.val < s.cores.length
    · rw [getWin, updCtx, getCore_updCore_self _ _ _ hk, getWin]
      match l with
      | 0 | 1 | 2 => rfl
    · rw [updCtx, updCore_out _ (Nat.not_lt.1 hk)]

/-- An update of a context moves no memory. -/
theorem peekLine_of_mem {s t : State} (hm : t.mem = s.mem) (hp : t.chu = s.chu) (k : Nat) : peekLine t k = peekLine s k := by
  have hg (b : Nat) : stackGone t b = stackGone s b := by rw [stackGone, hm, stackGone]
  have hb : backing t k = backing s k := by unfold backing; split <;> simp only [hm, hp]
  simp only [peekLine, hg, hb, hm]

/-- What staging `n` bytes of `v` at an address of global memory, or of scratch, makes of a context's memory. -/
def stagedMem (scr : Bool) (a n v : Nat) (m : CtxMem) : CtxMem :=
  let b := a / 64 * 64
  let put (was : Option Staged) : Staged := mergeStaged was (byteMask (a % 64) n) (putNat 0 (a % 64) n v) none
  if scr then { m with stageS := mapPut m.stageS b (put (mapFind m.stageS b)), entS := setInsert m.entS (sbS b) }
  else { m with stageG := mapPut m.stageG b (put (mapFind m.stageG b)), entG := setInsert m.entG (sbG b) }

/-- No part of a block is a whole one, so no error goes with it. -/
theorem renewPart_part (s : State) (c : CtxId) (part : RegionPart) (b : Nat) {i n : Nat} (hn : n < 64) :
    renewPart s c part b (byteMask i n) = s := by
  have hgap : (byteMask i n != BitVec.allOnes 64) = true := by
    by_cases hi : i = 0
    · exact ne_allOnes_of_gap (j := 63) (by decide) (by rw [getLsbD_byteMask]; simp; omega)
    · exact ne_allOnes_of_gap (j := 0) (by decide) (by rw [getLsbD_byteMask]; simp; omega)
  rw [renewPart, hgap, Bool.or_true, if_pos rfl]

theorem stageG_true {s t : State} {c : CtxId} {x : Ctx} {a : Dword} {n v : Nat} (hn : n < 64) (hx : getCtx s c = some x)
    (h : stageG s c a (byteMask (a.toNat % 64) n) (putNat 0 (a.toNat % 64) n v) none = (true, t)) :
    t = updCtx s c (fun y => { y with mem := stagedMem false a.toNat n v y.mem }) := by
  simp only [stageG, hx, renewPart_part s c _ _ hn] at h
  split at h
  · exact (Prod.mk.inj h).2.symm
  · exact absurd (Prod.mk.inj h).1 nofun

theorem stageS_true {s t : State} {c : CtxId} {x : Ctx} {a n v : Nat} (hn : n < 64) (hx : getCtx s c = some x)
    (h : stageS s c a (byteMask (a % 64) n) (putNat 0 (a % 64) n v) none = (true, t)) :
    t = updCtx s c (fun y => { y with mem := stagedMem true a n v y.mem }) := by
  simp only [stageS, hx, renewPart_part s c _ _ hn] at h
  split at h
  · exact (Prod.mk.inj h).2.symm
  · exact absurd (Prod.mk.inj h).1 nofun

/-- A word that is staged changes its context's stage and nothing else. -/
theorem stageWordAt_true {s t : State} {c : CtxId} {x : Ctx} {scr : Bool} {a : Dword} {n : Nat} {v : Word} (hn : n < 64)
    (hr : scr = true → a.toNat < scratchSize s c) (hx : getCtx s c = some x) (h : stageWordAt s c scr a n v = (true, t)) :
    t = updCtx s c (fun y => { y with mem := stagedMem scr a.toNat n v.toNat y.mem }) := by
  cases scr with
  | true => exact stageS_true hn hx (by simpa only [stageWordAt, stageAt, if_pos (hr rfl), if_true] using h)
  | false => exact stageG_true hn hx h

/-- A read of bytes that stand in the stage gives them, unpoisoned. -/
theorem ofRead_staged {r : ReadRes} {i n v w : Nat} {p : Bool} {u : State} {old : Option Staged} (hi : i + n ≤ 64)
    (hr : ofRead r i n = .val w p u)
    (hst : ∀ l st s, r = .line l st s → st = some (mergeStaged old (byteMask i n) (putNat 0 i n v) none)) : w = v % 256 ^ n ∧ p = false := by
  cases r with
  | line l st s =>
    cases hst l st s rfl
    rw [ofRead, blockBytes_staged l old v hi] at hr
    cases hr
    exact ⟨rfl, rfl⟩
  | full s => cases hr
  | fail k s => cases hr

/-- Settles O19: the word lands in the node's stage alone, and a read of the block lays the stage over whatever stands below it. -/
theorem stagedStore : Obligations.StagedStore := by
  unfold Obligations.StagedStore
  intro s t e scr a n v he hn ha hr herr hst
  have hfit : n < 64 ∧ a.toNat % 64 + n ≤ 64 := by
    simp only [List.mem_cons, List.not_mem_nil, or_false] at hn
    rcases hn with rfl | rfl | rfl <;> omega
  have ht := stageWordAt_true hfit.1 hr (focus_ctx he).1 hst
  have hctx : getCtx t e.c = some { e.ctx with mem := stagedMem scr a.toNat n v.toNat e.ctx.mem } := by rw [ht, getCtx_updCtx_focus he]
  have hmem : t.mem = s.mem := by rw [ht, updCtx_mem]
  have hwin : getWin t e.c = getWin s e.c := by rw [ht, getWin_updCtx]
  have herr' : NoErrs t e.c := fun part b => by rw [regionErrs, hmem]; exact herr part b
  refine ⟨fun w p u hread => ?_, peekLine_of_mem hmem (by rw [ht, updCtx_chu]), _, hctx, ?_, ?_, ?_, ?_, ?_, fun l i hi hout => ?_⟩
  · cases scr with
    | true =>
      have hsize : a.toNat < scratchSize t e.c := by rw [scratchSize, hwin]; exact hr rfl
      rw [readWithin, if_pos rfl, if_pos hsize] at hread
      exact ofRead_staged hfit.2 hread fun l st u h => (readS_staged herr' hctx h).trans (mapFind_mapPut_same _ _ _)
    | false => exact ofRead_staged hfit.2 hread fun l st u h => (readG_staged herr' hctx h).trans (mapFind_mapPut_same _ _ _)
  · cases scr <;> rfl
  · cases scr <;> rfl
  · cases scr <;> rfl
  · rintro b (hb | rfl)
    · cases scr
      · exact mapFind_mapPut_other _ _ _ _ hb
      · rfl
    · rfl
  · rintro b (hb | rfl)
    · cases scr
      · rfl
      · exact mapFind_mapPut_other _ _ _ _ hb
    · rfl
  · have view {m : List (Nat × Staged)} (hw : ∀ y, mapFind m (a.toNat / 64 * 64) = some y → (y.desc.map isSubst).getD false = false)
        (hl : mapFind m (a.toNat / 64 * 64) = none → isSubst l.desc = false) := blockBytes_other l _ (n := n) v.toNat hi hout hw hl
    cases scr <;>
    · intro b was is_ hw hl
      rw [show is_ = _ from mapFind_mapPut_same _ _ _]
      exact view hw hl

end Sys2Proof.Machine

/-! PROOFS. O21: what lies in memory stays readable while lines move, and an atomic replaces its bytes alone. -/

namespace Sys2Proof.Machine

/-! ### Maps -/

theorem mapFind_below {α : Type} {m : List (Nat × α)} {k : Nat} (h : ∀ p ∈ m, k < p.1) : mapFind m k = none := by
  cases m with
  | nil => rfl
  | cons p m =>
    have := h p (by simp)
    rw [mapFind, if_neg (by omega), if_pos this]

theorem mapFind_mapErase_same {α : Type} : ∀ {m : List (Nat × α)} {k : Nat}, m.Pairwise (fun a b => a.1 < b.1) → mapFind (mapErase m k) k = none
  | [], _, _ => rfl
  | (k', v) :: m, k, h => by
    obtain ⟨h1, h2⟩ := List.pairwise_cons.1 h
    simp only [mapErase]
    split
    · next hk => subst hk; exact mapFind_below h1
    · split
      · next h3 h4 => rw [mapFind, if_neg h3, if_pos h4]
      · next h3 h4 => rw [mapFind, if_neg h3, if_neg h4]; exact mapFind_mapErase_same h2

theorem mapFind_mapErase_other {α : Type} : ∀ {m : List (Nat × α)} {k j : Nat}, m.Pairwise (fun a b => a.1 < b.1) → j ≠ k →
    mapFind (mapErase m k) j = mapFind m j
  | [], _, _, _, _ => rfl
  | (k', v) :: m, k, j, h, hj => by
    obtain ⟨h1, h2⟩ := List.pairwise_cons.1 h
    simp only [mapErase]
    split
    · next hk =>
      subst hk
      rw [mapFind, if_neg (Ne.symm hj)]
      split
      · next hlt => exact mapFind_below fun p hp => Nat.lt_trans hlt (h1 p hp)
      · rfl
    · split
      · rfl
      · simp only [mapFind, mapFind_mapErase_other h2 hj]

theorem mem_of_mapFind {α : Type} {v : α} : ∀ {m : List (Nat × α)} {k : Nat}, mapFind m k = some v → (k, v) ∈ m
  | (k', v') :: m, k, h => by
    rw [mapFind] at h
    split at h
    · next hk => subst hk; cases h; exact List.mem_cons_self
    · split at h
      · cases h
      · exact List.mem_cons_of_mem _ (mem_of_mapFind h)

/-! ### Memory that reads as it did -/

/-- From one state of plain memory to another: every line reads as before, and what decides how lines are read has not changed. -/
structure Reads (s t : State) : Prop where
  plain : PlainMemory t
  same : SameMemory s t
  soft : t.mem.soft.Sublist s.mem.soft
  frames : t.mem.frames = s.mem.frames
  lost : t.mem.stacksLost = s.mem.stacksLost
  off : t.mem.stacksOff = s.mem.stacksOff
  inj : t.hl.inj = s.hl.inj

theorem Reads.refl {s : State} (h : PlainMemory s) : Reads s s := ⟨h, fun _ => rfl, .refl _, rfl, rfl, rfl, rfl⟩

theorem Reads.trans {s t u : State} (h : Reads s t) (g : Reads t u) : Reads s u :=
  ⟨g.plain, fun j => (g.same j).trans (h.same j), g.soft.trans h.soft, g.frames.trans h.frames, g.lost.trans h.lost, g.off.trans h.off,
    g.inj.trans h.inj⟩

/-- A change outside memory, the channel pool, the host ports and the armed injections. -/
theorem reads_of_mem {s t : State} (h : PlainMemory s) (hm : t.mem = s.mem) (hc : t.chu = s.chu) (h0 : t.hp0 = s.hp0) (h1 : t.hp1 = s.hp1)
    (hi : t.hl.inj = s.hl.inj) : Reads s t where
  plain := by
    refine ⟨?_, ?_, ?_, ?_, ?_, ?_, ?_⟩
    all_goals simp only [hm, h0, h1]
    exacts [h.sound, h.unmarked, h.host0, h.host1, h.home, h.rising, h.kept]
  same := peekLine_of_mem hm hc
  soft := by rw [hm]
  frames := by rw [hm]
  lost := by rw [hm]
  off := by rw [hm]
  inj := hi

theorem PlainMemory.hostRequest {s : State} (h : PlainMemory s) (k : Nat) : hostRequest s k = (false, s) := by
  unfold Machine.hostRequest
  split
  · simp [hostFails, h.host0]
  · simp [hostFails, h.host1]
  · rfl

/-- No error lies in the banks, so a bank's decoder returns a line as it stands. -/
theorem PlainMemory.decodeAt {s : State} (h : PlainMemory s) (k b : Nat) (l : Line) : decodeAt s k b (softOf s k) l = (l, s) := by
  have hs : softOf s k = [] := by
    rw [softOf, List.filterMap_eq_nil_iff]
    intro x hx
    have := h.sound x hx
    split
    · split
      · next he => simp [isSram, he] at this
      · rfl
    · rfl
  simp [Machine.decodeAt, hs, bankMarks, h.unmarked, mapGet]

/-! ### Lines that move to their backing store (R176, R362) -/

/-- A dirty line, and some of the errors at it, gone. -/
def lifted (s : State) (k : Nat) (sram hbm : Bool) : State :=
  dropSoft { s with mem := { s.mem with dirty := mapErase s.mem.dirty k } } k sram hbm

theorem lifted_plain {s : State} (h : PlainMemory s) (k : Nat) (sram hbm : Bool) : PlainMemory (lifted s k sram hbm) where
  sound := fun x hx => h.sound x (List.mem_filter.1 hx).1
  unmarked := h.unmarked
  host0 := h.host0
  host1 := h.host1
  home := fun p hp => h.home p ((mapErase_sublist _ k).subset hp)
  rising := h.rising.sublist (mapErase_sublist _ k)
  kept := h.kept

theorem reads_dropSoft {s : State} (h : PlainMemory s) (k : Nat) (sram hbm : Bool) : Reads s (dropSoft s k sram hbm) where
  plain := ⟨fun x hx => h.sound x (List.mem_filter.1 hx).1, h.unmarked, h.host0, h.host1, h.home, h.rising, h.kept⟩
  same := fun _ => rfl
  soft := List.filter_sublist
  frames := rfl
  lost := rfl
  off := rfl
  inj := rfl

theorem key_ext {j k : Nat} (ht : keyTgt j = keyTgt k) (hb : keyBlock j = keyBlock k) : j = k := by
  unfold keyTgt at ht
  unfold keyBlock at hb
  omega

/-- The store behind a line, written at a line of HBM or of a host. -/
theorem readLine_backing_setBacking {s : State} {k : Nat} (hk : keyTgt k < 3) (h : s.mem.wf = true) (l : Line) (j : Nat) :
    (backing (setBacking s k ((backing s k).writeLine (keyBlock k) l)) j).readLine (keyBlock j) =
      if j = k then l else (backing s j).readLine (keyBlock j) := by
  have hwf := backing_wf hk h
  by_cases ht : keyTgt j = keyTgt k
  · have hb : backing (setBacking s k ((backing s k).writeLine (keyBlock k) l)) j = (backing s k).writeLine (keyBlock k) l := by
      have : keyTgt k = 0 ∨ keyTgt k = 1 ∨ keyTgt k = 2 := by omega
      rcases this with h0 | h0 | h0 <;> simp [backing, setBacking, ht, h0]
    rw [hb]
    by_cases hj : j = k
    · rw [if_pos hj, hj, storeReadLine_writeLine _ _ hwf]
    · rw [if_neg hj, storeReadLine_writeLine_other _ _ _ hwf fun hb => hj (key_ext ht hb), backing, backing, ht]
  · rw [if_neg fun hj => ht (by rw [hj])]
    have hb : ∀ m, backing (setBacking s k m) j = backing s j := by
      intro m
      have : keyTgt k = 0 ∨ keyTgt k = 1 ∨ keyTgt k = 2 := by omega
      unfold backing
      rcases this with h0 | h0 | h0 <;> simp only [setBacking, h0] <;> split <;> simp_all
    rw [hb]

/-- Writing a store behind a line of HBM or a host changes no more than that store. -/
theorem setBacking_rest {s : State} {k : Nat} (hk : keyTgt k < 3) (m : Store) :
    ∃ x y z, setBacking s k m = { s with mem := { s.mem with hbm := x, host0 := y, host1 := z } } := by
  have : keyTgt k = 0 ∨ keyTgt k = 1 ∨ keyTgt k = 2 := by omega
  rcases this with h0 | h0 | h0 <;> exact ⟨_, _, _, by simp only [setBacking, h0]; rfl⟩

/-- A dirty line written to its backing store reads as before, and so does every other. -/
theorem reads_flush {s : State} {k : Nat} {l : Line} (h : PlainMemory s) (hf : mapFind s.mem.dirty k = some l) (sram hbm : Bool) :
    Reads s (setBacking (lifted s k sram hbm) k ((backing (lifted s k sram hbm) k).writeLine (keyBlock k) l)) := by
  have hk : keyTgt k < 3 := h.home _ (mem_of_mapFind hf)
  have hl := lifted_plain h k sram hbm
  have hwf := setBacking_line_wf k l (keyBlock k) hl.kept
  have hread := readLine_backing_setBacking hk hl.kept l
  obtain ⟨x, y, z, hset⟩ := setBacking_rest (s := lifted s k sram hbm) hk ((backing (lifted s k sram hbm) k).writeLine (keyBlock k) l)
  rw [hset] at hwf hread ⊢
  refine ⟨⟨hl.sound, hl.unmarked, hl.host0, hl.host1, hl.home, hl.rising, hwf⟩, fun j => ?_, List.filter_sublist, rfl, rfl, rfl, rfl⟩
  have hrest := hread j
  by_cases hg : keyTgt j = 0 ∧ stackGone s (keyBlock j / 2 ^ 30) = true
  · exact (if_pos hg).trans (if_pos hg).symm
  · refine (if_neg hg).trans (Eq.trans ?_ (if_neg hg).symm)
    rw [hrest]
    by_cases hj : j = k
    · subst hj
      rw [if_pos rfl, hf, show mapFind (lifted s j sram hbm).mem.dirty j = none from mapFind_mapErase_same h.rising]
    · rw [if_neg hj, show mapFind (lifted s k sram hbm).mem.dirty j = mapFind s.mem.dirty j from mapFind_mapErase_other h.rising hj]
      rfl

/-- What says where lines stand, and who waits for them, decides no line's value. -/
theorem reads_layout {s : State} (h : PlainMemory s) (ways : List (Nat × List HomeWay)) (buffers : List (Nat × List Nat)) (waits : List Waiter) :
    Reads s { s with mem := { s.mem with ways := ways, buffers := buffers, waits := waits } } where
  plain := ⟨h.sound, h.unmarked, h.host0, h.host1, h.home, h.rising, h.kept⟩
  same := fun _ => rfl
  soft := .refl _
  frames := rfl
  lost := rfl
  off := rfl
  inj := rfl

theorem reads_setWays {s : State} (h : PlainMemory s) (set : Nat) (l : List HomeWay) : Reads s (setWays s set l) := reads_layout h _ _ _

theorem reads_noteHbm {s : State} (h : PlainMemory s) (n : Nat) : Reads s (noteHbm s n) := reads_of_mem h rfl rfl rfl rfl rfl

theorem reads_writeBack {s : State} (h : PlainMemory s) (k : Nat) : Reads s (writeBack s k) := by
  unfold writeBack
  split
  · exact .refl h
  · next l hl =>
    have hf : mapFind s.mem.dirty k = some l := by
      unfold dirtyWay at hl
      split at hl
      · cases hl
      · exact hl
    have he : PlainMemory { s with mem := { s.mem with dirty := mapErase s.mem.dirty k } } :=
      ⟨h.sound, h.unmarked, h.host0, h.host1, fun p hp => h.home p ((mapErase_sublist _ k).subset hp), h.rising.sublist (mapErase_sublist _ k), h.kept⟩
    have hd := he.decodeAt k (homeBank k) l
    have hr := (lifted_plain h k true true).hostRequest k
    simp only [softOf] at hd
    simp only [softOf, hd, show dropSoft _ k true true = lifted s k true true from rfl, hr]
    have := reads_flush h hf true true
    exact this.trans (reads_noteHbm this.plain _)

theorem reads_drainBlock {s : State} (h : PlainMemory s) (k : Nat) : Reads s (drainBlock s k) := by
  unfold drainBlock
  split
  · exact .refl h
  · next l hl =>
    have := reads_flush h hl false true
    exact this.trans (reads_noteHbm this.plain _)

theorem reads_foldl {α : Type} {f : State → α → State} (hf : ∀ s x, PlainMemory s → Reads s (f s x)) :
    ∀ (l : List α) {s : State}, PlainMemory s → Reads s (l.foldl f s)
  | [], _, h => .refl h
  | x :: l, s, h => (hf s x h).trans (reads_foldl hf l (hf s x h).plain)

theorem reads_evictSb {s : State} (h : PlainMemory s) (set sb : Nat) : Reads s (evictSb s set sb) := by
  have := reads_foldl (f := fun t k => dropSoft (writeBack t k) k true false)
    (fun s k h => (reads_writeBack h k).trans (reads_dropSoft (reads_writeBack h k).plain k true false)) (sbLines sb) h
  exact this.trans (reads_setWays this.plain _ _)

theorem reads_enterWay {s : State} (h : PlainMemory s) (k : Nat) : Reads s (enterWay s k) := by
  unfold enterWay
  simp only
  split
  · exact reads_setWays h _ _
  · have {t : State} (ht : Reads s t) : Reads s (setWays t (homeSet k) ({ sb := sbOf k, valid := lineBit k } :: getWays t (homeSet k))) :=
      ht.trans (reads_setWays ht.plain _ _)
    refine this ?_
    split
    · exact .refl h
    · split
      · exact reads_evictSb h _ _
      · exact .refl h

theorem reads_enterBuffer {s : State} (h : PlainMemory s) (k : Nat) : Reads s (enterBuffer s k) := by
  unfold enterBuffer
  have h1 : Reads s (if (mapGet [] s.mem.buffers (unitOf k)).elem k then s else noteHbm s 1) := by
    split
    · exact .refl h
    · exact reads_noteHbm h 1
  have fin {t : State} (ht : Reads s t) (b : List (Nat × List Nat)) : Reads s { t with mem := { t.mem with buffers := b } } :=
    ht.trans (reads_layout ht.plain _ _ _)
  refine fin ?_ _
  split
  · exact h1.trans (reads_drainBlock h1.plain _)
  · exact h1

/-! ### A read of a plain line -/

theorem PlainLine.moved {s t : State} {k : Nat} (h : PlainLine s k) (ht : Reads s t) : PlainLine t k where
  toPlainMemory := ht.plain
  hbm := h.hbm
  on := by rw [stackGone, ht.lost, ht.off]; exact h.on
  clean := fun x hx => h.clean x (ht.soft.subset hx)

theorem PlainLine.softOf {s : State} {k : Nat} (h : PlainLine s k) : softOf s k = [] := by
  rw [Machine.softOf, List.filterMap_eq_nil_iff]
  exact fun x hx => if_neg (h.clean x hx)

theorem PlainLine.any_soft {s : State} {k : Nat} (h : PlainLine s k) (g : Soft → Bool) : s.mem.soft.any (fun e => e.block == k && g e) = false := by
  rw [List.any_eq_false]
  intro x hx
  rw [beq_false_of_ne (h.clean x hx), Bool.false_and]
  exact Bool.false_ne_true

theorem PlainLine.hbmRead {s : State} {k : Nat} (h : PlainLine s k) : hbmRead s k = (peekLine s k, s) := by
  simp only [Machine.hbmRead, h.any_soft, Bool.false_eq_true, if_false]

theorem PlainLine.bankRead {s : State} {k : Nat} (h : PlainLine s k) : bankRead s k = (peekLine s k, s) := by
  have := h.decodeAt k (homeBank k) (peekLine s k)
  rw [h.softOf] at this
  simp only [Machine.bankRead, h.softOf, this, List.isEmpty_nil, Bool.true_or, if_true]

/-- A plain line reads as it is stored, whatever its read fills or evicts (R173, R176). -/
theorem PlainLine.readLine {s : State} {k : Nat} (h : PlainLine s k) : (readLine s k).1 = peekLine s k ∧ Reads s (readLine s k).2 := by
  unfold Machine.readLine
  split
  · rw [h.hbmRead, ite_self]
    exact ⟨rfl, reads_enterBuffer h.toPlainMemory k⟩
  · split
    · rw [h.bankRead]; exact ⟨rfl, .refl h.toPlainMemory⟩
    · have hw := reads_enterWay h.toPlainMemory k
      split
      · rw [(h.moved hw).bankRead]
        exact ⟨hw.same k, hw⟩
      · have hn := reads_noteHbm h.toPlainMemory 1
        have he := reads_enterWay hn.plain k
        simp only [fillWay, h.hostRequest, h.hbm, if_true, (h.moved hn).hbmRead]
        exact ⟨hn.same k, hn.trans he⟩

/-! ### A write of a plain line -/

/-- From one state to another line `k` becomes `l`, every other line reads as before, and no injection is armed or fires. -/
structure OnlyLine (s t : State) (k : Nat) (l : Line) : Prop where
  line : peekLine t k = l
  others : ∀ j, j ≠ k → peekLine t j = peekLine s j
  inj : t.hl.inj = s.hl.inj

theorem Reads.onlyLine {s t u : State} {k : Nat} {l : Line} (h : Reads s t) (g : OnlyLine t u k l) : OnlyLine s u k l :=
  ⟨g.line, fun j hj => (g.others j hj).trans (h.same j), g.inj.trans h.inj⟩

theorem reads_keepOld {s : State} (h : PlainMemory s) (k : Nat) : Reads s (keepOld s k) := by
  have hc (l : Line) : (keepCmds s k l).chu = s.chu ∧ (keepCmds s k l).hp0 = s.hp0 ∧ (keepCmds s k l).hp1 = s.hp1 ∧
      (keepCmds s k l).hl = s.hl := by
    unfold keepCmds
    split <;> exact ⟨rfl, rfl, rfl, rfl⟩
  have hk (t : State) (l : Line) : (keepSig t k l).chu = t.chu ∧ (keepSig t k l).hp0 = t.hp0 ∧ (keepSig t k l).hp1 = t.hp1 ∧
      (keepSig t k l).hl = t.hl := by
    unfold keepSig
    split
    · split <;> exact ⟨rfl, rfl, rfl, rfl⟩
    · exact ⟨rfl, rfl, rfl, rfl⟩
  obtain ⟨c1, c2, c3, c4⟩ := hc (peekLine s k)
  obtain ⟨k1, k2, k3, k4⟩ := hk (keepCmds s k (peekLine s k)) (peekLine s k)
  exact reads_of_mem h (keepOld_mem s k) (k1.trans c1) (k2.trans c2) (k3.trans c3) (congrArg (·.inj) (k4.trans c4))

theorem PlainLine.setDirty {s : State} {k : Nat} (h : PlainLine s k) (l : Line) : OnlyLine s (setDirty s k l) k l := by
  have hb : ∀ j, peekLine (Machine.setDirty s k l) j = if j = k then l else peekLine s j := fun j => by
    by_cases hj : j = k
    · subst hj
      have hon : ¬(keyTgt j = 0 ∧ stackGone (Machine.setDirty s j l) (keyBlock j / 2 ^ 30) = true) := fun hg =>
        absurd (h.on.symm.trans hg.2) Bool.false_ne_true
      rw [if_pos rfl, peekLine, if_neg hon, show mapFind (Machine.setDirty s j l).mem.dirty j = some l from mapFind_mapPut_same _ _ _]
    · rw [if_neg hj, peekLine, peekLine, show mapFind (Machine.setDirty s k l).mem.dirty j = mapFind s.mem.dirty j from mapFind_mapPut_other _ _ _ _ hj]
      rfl
  exact ⟨by rw [hb, if_pos rfl], fun j hj => by rw [hb, if_neg hj], rfl⟩

theorem PlainLine.storeLine {s : State} {k : Nat} (h : PlainLine s k) (l : Line) : OnlyLine s (storeLine s k l) k l := by
  unfold Machine.storeLine
  split
  · have := reads_enterBuffer h.toPlainMemory k
    exact this.onlyLine ((h.moved this).setDirty l)
  · rw [if_neg (by rw [h.hbm]; decide)]
    have := reads_enterWay h.toPlainMemory k
    exact this.onlyLine ((h.moved this).setDirty l)

theorem PlainLine.pokeLine {s : State} {k : Nat} (h : PlainLine s k) (l : Line) : OnlyLine s (pokeLine s k l) k l := by
  have hk := reads_keepOld h.toPlainMemory k
  have ht : Reads s (tellWaiters (keepOld s k) k l) := hk.trans (reads_layout hk.plain _ _ _)
  exact ht.onlyLine ((h.moved ht).storeLine l)

/-- A write of a plain line is the merge of its bytes, and of no other line (R96, R97). -/
theorem PlainLine.writeLine {s : State} {k : Nat} (h : PlainLine s k) (mask : BitVec 64) (data : Bits512) (desc : Option Desc) :
    OnlyLine s (writeLine s k mask data desc) k (mergeLine (peekLine s k) mask data desc) := by
  unfold Machine.writeLine
  split
  · have := reads_dropSoft h.toPlainMemory k true true
    exact this.onlyLine ((h.moved this).pokeLine _)
  · have := h.readLine
    rcases hr : Machine.readLine s k with ⟨l, s1⟩
    rw [hr] at this
    obtain ⟨rfl, hs⟩ := this
    exact hs.onlyLine ((h.moved hs).pokeLine _)

/-- With no injection armed, a unit's residues match (R368, R458). -/
theorem unitOp_unarmed {s : State} (hi : s.hl.inj = []) (node : Word) (k : Nat) : unitOp s node k = (false, unitArrive s (unitOf k)) := by
  simp [unitOp, injectAt, unitArrive, hi]

theorem portOp_unarmed {s : State} (h : PlainMemory s) (hi : s.hl.inj = []) (c : CtxId) (i : Option Nat) (k : Nat) :
    (portOp s c i k).1 = true ∧ Reads s (portOp s c i k).2 := by
  unfold portOp
  split
  · exact ⟨rfl, .refl h⟩
  · rw [unitOp_unarmed hi]
    exact ⟨rfl, reads_of_mem h rfl rfl rfl rfl rfl⟩

theorem PlainLine.nodeWrite {s : State} {k : Nat} (h : PlainLine s k) (hi : s.hl.inj = []) (c : CtxId) (mask : BitVec 64) (data : Bits512)
    (desc : Option Desc) : OnlyLine s (nodeWrite s c k mask data desc) k (mergeLine (peekLine s k) mask data desc) := by
  have hw := h.writeLine mask data desc
  have : (Machine.writeLine s k mask data desc).hl.inj.isEmpty = true := by rw [hw.inj, hi]; rfl
  rw [Machine.nodeWrite, this, Bool.true_or, if_pos rfl]
  exact hw

/-- An atomic at a plain line that is not poisoned reads its bytes and replaces them alone (R59). -/
theorem atomicG_plain {s s1 : State} {e : Env} {va : Dword} {a n : Nat} {w : Bool} (f : Nat → Nat)
    (hr : resolve s e.c va true = (.at 0 a w, s1)) (hp : PlainLine s1 (lineKey 0 a)) (hn : (peekLine s1 (lineKey 0 a)).psn = false)
    (hi : s1.hl.inj = []) :
    ∃ t, atomicG s e va n f = .done (lineNat (peekLine s1 (lineKey 0 a)).data (a % 64) n) t ∧
      OnlyBytes s1 t (lineKey 0 a) (a % 64) n (f (lineNat (peekLine s1 (lineKey 0 a)).data (a % 64) n)) := by
  obtain ⟨ho, h2⟩ := portOp_unarmed hp.toPlainMemory hi e.c (some e.i) (lineKey 0 a)
  obtain ⟨hl, h3⟩ := (hp.moved h2).readLine
  rw [h2.same] at hl
  simp only [atomicG, atomicMay, hr]
  rcases hq : portOp s1 e.c (some e.i) (lineKey 0 a) with ⟨ok, s2⟩
  rw [hq] at ho h2 hl h3
  rcases hq : readLine s2 (lineKey 0 a) with ⟨l, s3⟩
  rw [hq] at hl h3
  simp only at ho hl h2 h3
  subst ho hl
  have hs := h2.trans h3
  have hw := (hp.moved hs).nodeWrite (hs.inj.trans hi) e.c (byteMask (a % 64) n)
    (putNat 0 (a % 64) n (f (lineNat (peekLine s1 (lineKey 0 a)).data (a % 64) n))) none
  rw [hs.same] at hw
  simp only [hq, hn, Bool.false_eq_true, if_false]
  exact ⟨_, rfl, (hs.onlyLine hw).line, (hs.onlyLine hw).others⟩

/-! ### An atomic in scratch -/

theorem sameMemory_addCe (s : State) (k n : Nat) : SameMemory s (addCe s k n) := fun _ => by
  unfold addCe
  split
  · simp only; split <;> rfl
  · rfl

theorem addSymbol_peekLine (s : State) (b : Nat) (ly : Fin 6) (j : Nat) : peekLine (addSymbol s b ly) j = peekLine s j := by
  unfold addSymbol
  simp only
  split <;> rfl

theorem addSymbols_peekLine (b j : Nat) : ∀ (l : List Nat) (t : State),
    peekLine (l.foldl (fun t j => addSymbol t b (Fin.ofNat 6 j)) t) j = peekLine t j
  | [], _ => rfl
  | x :: l, t => by rw [List.foldl_cons, addSymbols_peekLine b j l, addSymbol_peekLine]

/-- What a decoder counts changes no line. -/
theorem sameMemory_decodeAt (s : State) (k b : Nat) (errs : List (Nat × Nat × Byte)) (l : Line) : SameMemory s (decodeAt s k b errs l).2 := by
  intro j
  unfold decodeAt
  simp only
  split
  · rfl
  · split
    · rfl
    · unfold countDecoded
      simp only
      split
      · split <;> rfl
      · rw [sameMemory_addCe, addSymbols_peekLine]
        split <;> rfl

/-- A block of a part where no error lies is read as it stands. -/
theorem settlePart_clean {s : State} {c : CtxId} {part : RegionPart} {b : Nat} (h : regionErrs s c part b = []) :
    SameMemory s (settlePart c part s b) ∧ getCtx (settlePart c part s b) c = getCtx s c := by
  unfold settlePart
  simp only [h, List.isEmpty_nil, Bool.true_and, if_true]
  split
  · exact ⟨fun _ => rfl, rfl⟩
  · next hm =>
    cases c with
    | fw k l => exact absurd rfl hm
    | node id =>
      split
      · exact ⟨fun _ => rfl, rfl⟩
      · refine ⟨fun j => sameMemory_decodeAt _ _ _ _ _ j, ?_⟩
        simp only [getCtx, getNode, dropRegion, decodeAt_dsp]

/-- A core's store lies in no bank, so without an error nothing at all is done. -/
theorem settlePart_fw {s : State} {k : Fin 16} {l : Fin 3} {part : RegionPart} {b : Nat} (h : regionErrs s (.fw k l) part b = []) :
    settlePart (.fw k l) part s b = s := by
  unfold settlePart
  rw [h]
  rfl

/-- A context with scratch stands in the state. -/
theorem core_lt_of_scratch {s : State} {k : Fin 16} {l : Fin 3} {ofs : Nat} (h : ofs < scratchSize s (.fw k l)) : k.val < s.cores.length := by
  unfold scratchSize at h
  split at h
  · next hw => exact core_lt_of_win hw
  · exact absurd h (Nat.not_lt_zero _)

/-- An atomic on a block of scratch that is not poisoned reads its bytes and replaces them alone. -/
theorem atomicS_clean {s : State} {e : Env} {n ofs : Nat} (f : Nat → Nat) (hx : getCtx s e.c = some e.ctx) (hofs : ofs < scratchSize s e.c)
    (hwf : e.ctx.mem.scratch.wf = true) (hp : (e.ctx.mem.scratch.readLine (ofs / 64)).psn = false)
    (herr : regionErrs s e.c .scratch (ofs / 64 * 64) = []) :
    let l := e.ctx.mem.scratch.readLine (ofs / 64)
    let old := lineNat l.data (ofs % 64) n
    ∃ t, atomicS s e ofs n f = .done old t ∧ SameMemory s t ∧ ∃ x, getCtx t e.c = some x ∧
      x.mem.stageS = e.ctx.mem.stageS ∧
      x.mem.scratch.readLine (ofs / 64) = mergeLine l (byteMask (ofs % 64) n) (putNat 0 (ofs % 64) n (f old)) none ∧
      ∀ j, j ≠ ofs / 64 → x.mem.scratch.readLine j = e.ctx.mem.scratch.readLine j := by
  intro l old
  obtain ⟨hm, hc⟩ := settlePart_clean herr
  rw [hx] at hc
  have hcore : ∀ k l, e.c = .fw k l → k.val < (settlePart e.c .scratch s (ofs / 64 * 64)).cores.length := fun k l hk => by
    rw [hk] at herr ⊢
    rw [settlePart_fw herr]
    exact core_lt_of_scratch (hk ▸ hofs)
  simp only [atomicS, if_pos hofs, hc, Option.map_some, Option.getD_some, hp, Bool.false_eq_true, if_false]
  refine ⟨_, rfl, fun j => ?_, _, getCtx_updCtx _ hc hcore, rfl, ?_, fun j hj => ?_⟩
  · rw [updMem, peekLine_of_mem (updCtx_mem ..) (updCtx_chu ..), hm]
  · exact storeReadLine_writeLine _ _ hwf
  · exact storeReadLine_writeLine_other _ _ _ hwf hj

/-- Settles O21: moving lines through ways and buffers changes no line, so the one write of an atomic is all that memory sees. -/
theorem atomicEffect : Obligations.AtomicEffect := by
  unfold Obligations.AtomicEffect
  intro s s1 e va a n ofs w f
  exact ⟨fun hr hp hn hi => atomicG_plain f hr hp hn hi, fun hx ho hwf hp herr => atomicS_clean f hx ho hwf hp herr⟩

end Sys2Proof.Machine

/-! PROOFS. O40: the checks of a launch record, and what an acceptance or a refusal makes of the store. -/

namespace Sys2Proof.Machine

/-! ### The record's checks (R38, R46) -/

theorem leNat_lt : ∀ l : List Byte, leNat l < 256 ^ l.length
  | [] => by simp [leNat]
  | b :: bs => by
    have := leNat_lt bs
    have := b.isLt
    rw [leNat, List.length_cons, Nat.pow_succ]
    omega

/-- The CRC of a whole record is its last word. -/
theorem recWord_crc {bs : List Byte} (h : bs.length = 64) (w : Word) : recWord bs 0x3C ≠ w ↔ leNat (bs.drop 60) ≠ w.toNat := by
  have hlen : (bs.drop 60).length = 4 := by rw [List.length_drop, h]
  have hlt := leNat_lt (bs.drop 60)
  rw [hlen] at hlt
  have ht : (bs.drop 60).take 4 = bs.drop 60 := List.take_of_length_le (by omega)
  rw [recWord, recNat, ht, Ne, Ne, ← BitVec.toNat_inj, BitVec.toNat_ofNat, show 2 ^ 32 = 256 ^ 4 by rfl, Nat.mod_eq_of_lt hlt]

theorem canonical_iff (v : Dword) : canonical v = true ↔ v.toNat < 2 ^ 54 ∨ 2 ^ 64 - 2 ^ 54 ≤ v.toNat := by
  have := v.isLt
  simp only [canonical, Bool.or_eq_true, beq_iff_eq]
  omega

theorem vaField_iff (v : Dword) (align : Nat) : vaField v align = true ↔ canonical v = true ∧ v.toNat % align = 0 := by
  simp [vaField]

/-- The VA fields of a record are canonical and aligned (R38). -/
theorem recordVas_iff (r : LaunchRec) :
    (canonical r.draft && vaField r.succ 4 && vaField r.tiles 16 && vaField r.save 64 && vaField r.counter 8) = true ↔
      canonical r.draft = true ∧ canonical r.succ = true ∧ canonical r.tiles = true ∧ canonical r.save = true ∧
        canonical r.counter = true ∧ r.succ.toNat % 4 = 0 ∧ r.tiles.toNat % 16 = 0 ∧ r.save.toNat % 64 = 0 ∧ r.counter.toNat % 8 = 0 := by
  simp only [Bool.and_eq_true, vaField_iff]
  tauto

/-- A record that passes names no node of the store. -/
theorem checkRec_fresh {s : State} {bs : List Byte} {host : Bool} (h : checkRec s bs host = 0) : getNode s (parseRec bs).id.toNat = none := by
  by_contra hn
  have hsome : (getNode s (parseRec bs).id.toNat).isSome = true := Option.isSome_iff_ne_none.2 hn
  simp only [checkRec, hsome, or_true, if_true] at h
  split_ifs at h

/-! ### The store's nodes under an update -/

theorem map_updNode {α : Type} (g : Node → α) (s : State) (id : Nat) {f : Node → Node} (h : ∀ n, g (f n) = g n) :
    (updNode s id f).dsp.nodes.map g = s.dsp.nodes.map g := by
  rw [updNode_dsp_nodes, List.map_map]
  refine List.map_congr_left fun n _ => ?_
  simp only [Function.comp]
  split
  · exact h n
  · rfl

/-! ### A record accepted -/

theorem getNode_append_fresh {s : State} {r : LaunchRec} (h : getNode s r.id.toNat = none) (id : Nat) :
    getNode { s with dsp := { s.dsp with nodes := s.dsp.nodes ++ [freshNode r.id.toNat r] } } id =
      if id = r.id.toNat then some (freshNode r.id.toNat r) else getNode s id := by
  unfold getNode at h ⊢
  rw [List.find?_append]
  by_cases hid : id = r.id.toNat
  · rw [hid, if_pos rfl, h]
    simp [freshNode]
  · rw [if_neg hid]
    have : (freshNode r.id.toNat r).id ≠ id := Ne.symm hid
    simp [this]

theorem getNode_enterPool (s : State) (id k : Nat) (st : NodeState) :
    getNode (enterPool s id st) k =
      if k = id then (getNode s id).map (fun n => { n with st := st, age := 0, entered := s.dsp.serial }) else getNode s k := by
  have hf (n : Node) : ({ n with st := st, age := 0, entered := s.dsp.serial } : Node).id = n.id := rfl
  by_cases hk : k = id
  · rw [if_pos hk, hk]
    exact getNode_updNode s id _ hf
  · rw [if_neg hk]
    exact getNode_updNode_other s id k _ hf hk

/-- An accepted record's node waits for its predecessors, or is ready where it has none (R40). -/
theorem getNode_acceptRec {s : State} {r : LaunchRec} (h : getNode s r.id.toNat = none) :
    (∃ n, getNode (acceptRec s r) r.id.toNat = some n ∧ n.lrec = r ∧ n.exec = none ∧ n.st = if r.preds = 0 then .ready else .waiting) ∧
      ∀ id, id ≠ r.id.toNat → getNode (acceptRec s r) id = getNode s id := by
  have hnew := getNode_append_fresh h
  have hself := hnew r.id.toNat
  rw [if_pos rfl] at hself
  unfold acceptRec
  simp only
  split
  · have hn := getNode_enterPool { s with dsp := { s.dsp with nodes := s.dsp.nodes ++ [freshNode r.id.toNat r] } } r.id.toNat r.id.toNat .ready
    rw [if_pos rfl, hself] at hn
    exact ⟨⟨_, hn, rfl, rfl, rfl⟩, fun id hid => by rw [getNode_enterPool, if_neg hid, hnew, if_neg hid]⟩
  · exact ⟨⟨_, hself, rfl, rfl, rfl⟩, fun id hid => by rw [hnew, if_neg hid]⟩

/-! ### A launch refused -/

/-- A node without its count of launches refused and its event counts. -/
def sansCounts (n : Node) : Node := { n with launchRefused := 0, ctx := { n.ctx with counts := [] } }

/-- Of the nodes of the store no more than the launcher's counts have changed, and the refusal is counted (R388). -/
structure RefusedOnly (s t : State) (c : CtxId) : Prop where
  nodes : t.dsp.nodes.map sansCounts = s.dsp.nodes.map sansCounts
  others : ∀ id, c ≠ .node id → getNode t id = getNode s id
  counted : t.dsp.lrefused = s.dsp.lrefused + 1

theorem refusedOnly_refuseLaunch (s : State) (c : CtxId) : RefusedOnly s (refuseLaunch s c) c := by
  cases c with
  | fw k l => exact ⟨rfl, fun _ _ => rfl, rfl⟩
  | node id =>
    let refuse (n : Node) : Node := { n with launchRefused := n.launchRefused + 1 }
    let count (n : Node) : Node := { n with ctx := { n.ctx with counts := bumpWord n.ctx.counts cntRefused 1 } }
    refine ⟨?_, fun k hk => ?_, rfl⟩
    · exact (map_updNode sansCounts _ id (f := count) fun _ => rfl).trans (map_updNode sansCounts s id (f := refuse) fun _ => rfl)
    · have hne : k ≠ id := fun h => hk (by rw [h])
      exact (getNode_updNode_other _ id k count (fun _ => rfl) hne).trans (getNode_updNode_other s id k refuse (fun _ => rfl) hne)

theorem RefusedOnly.of_dsp {s s1 t u : State} {c : CtxId} (h : RefusedOnly s1 t c) (h1 : s1.dsp = s.dsp) (h2 : u.dsp = t.dsp) :
    RefusedOnly s u c where
  nodes := by rw [h2, h.nodes, h1]
  others := fun id hid => by rw [getNode, h2]; exact (h.others id hid).trans (by rw [getNode, h1, getNode])
  counted := by rw [h2, h.counted, h1]

/-- A launch that gives a status was refused. -/
theorem refusedOnly_launchAt (s : State) (c : CtxId) (va : Dword) (ok : Bool) (h : (launchAt s c va ok).2 ≠ 0) :
    RefusedOnly s (launchAt s c va ok).1 c := by
  have hdsp := readRec_dsp s c va
  unfold launchAt at h ⊢
  split
  · exact refusedOnly_refuseLaunch s c
  · next hok =>
    rw [if_neg hok] at h
    rcases hr : readRec s c va with ⟨rec?, s1⟩
    rw [hr] at hdsp h
    cases rec? with
    | none => exact (refusedOnly_refuseLaunch s1 c).of_dsp hdsp rfl
    | some bs =>
      simp only at h ⊢
      split
      · exact (refusedOnly_refuseLaunch s1 c).of_dsp hdsp rfl
      · next hst =>
        rw [if_neg hst] at h
        exact absurd rfl h

/-- Settles O40: `checkRec` runs the checks in the manual's order; an entry adds one node; a refusal only counts. -/
theorem launchChecks : Obligations.LaunchChecks := by
  unfold Obligations.LaunchChecks
  intro s bs host hlen r c inRange
  have hcheck : c = (if leNat (bs.drop 60) ≠ (crc32 (bs.take 60)).toNat then 1
      else if leNat (bs.take 8) / 4 % 64 ≠ 0 ∨ leNat ((bs.drop 12).take 4) / 32 % 8 ≠ 0 then 2
      else if r.cls = 3 then 3
      else if r.id = 0xFFFFFFFF#32 ∨ (getNode s r.id.toNat).isSome = true then 4
      else if ¬(inRange r.draft ∧ inRange r.succ ∧ inRange r.tiles ∧ inRange r.save ∧ inRange r.counter ∧
        r.succ.toNat % 4 = 0 ∧ r.tiles.toNat % 16 = 0 ∧ r.save.toNat % 64 = 0 ∧ r.counter.toNat % 8 = 0) then 6
      else if host = true ∧ freeEntries s = 0 then 5 else 0) := by
    simp only [inRange, ← canonical_iff, ← recordVas_iff, ← recWord_crc hlen]
    show checkRec s bs host = _
    unfold checkRec
    simp only [Bool.not_eq_true', ← Bool.not_eq_true]
    rfl
  refine ⟨hcheck, fun h0 => ?_, fun c va ok h => ?_⟩
  · have hfree : getNode s r.id.toNat = none := checkRec_fresh h0
    obtain ⟨⟨n, hn, hrec, hexec, hst⟩, hother⟩ := getNode_acceptRec hfree
    exact ⟨n, hn, hrec, hexec, hst, hother⟩
  · obtain ⟨hn, ho, hc⟩ := refusedOnly_launchAt s c va ok h
    exact ⟨hn, ho, hc⟩

end Sys2Proof.Machine

/-! PROOFS. O45: a crash of a core, up to its record and after it. -/

namespace Sys2Proof.Machine

/-- A firmware that starts anew, as its core keeps it (R424). -/
def restartedCore (s : State) (c : Nat) (k : Core) : Core :=
  { k with f0 := dueWin (imageEntry s c), h1 := FwWin.init, h2 := FwWin.init, level := 0,
           tb0 := TrapBank.init, tb1 := TrapBank.init,
           ctx := { k.ctx with boundary := none
                               mem := emptyWays { k.ctx.mem with stageG := [], stageS := [], carryStage := [], snapG := []
                                                                 snapS := [], puts := [], carry := [], carryAtStart := []
                                                                 snapW := [] } } }

theorem restartFirmware_cores (s : State) (c : Nat) : (restartFirmware s c).cores = modNth (restartedCore s c) s.cores c := rfl

theorem restartFirmware_fw (s : State) (c : Nat) : (restartFirmware s c).fw = s.fw := rfl

theorem getCore_restartFirmware {s : State} {c : Nat} (h : c < s.cores.length) :
    getCore (restartFirmware s c) c = restartedCore s c (getCore s c) := by
  rw [getCore, restartFirmware_cores, nth_modNth _ _ _ _ h, getCore]

/-- A restart leaves the image that the core runs. -/
theorem imageTrapd_restartFirmware (s : State) (c : Nat) : imageTrapd (restartFirmware s c) c = imageTrapd s c := by
  rw [imageTrapd, coreBank, hasSwitched, restartFirmware_fw, imageTrapd, coreBank, hasSwitched]

/-- Without a resident node a crash, its record taken, is the core's restart, counted. -/
theorem crashOver_of_idle {s : State} {c : Nat} (h : (getCore s c).resident = []) :
    crashOver s c = updCore (restartFirmware s c) c (fun k => { k with crash := k.crash + 1, tvec := imageTrapd (restartFirmware s c) c }) := by
  rw [crashOver, coreUser, h]
  rfl

/-- Settles O45: the crash posts its record and stands; `crashOver`, run once the record is taken, restarts the core's firmware. -/
theorem coreCrashes : Obligations.CoreCrashes := by
  unfold Obligations.CoreCrashes
  intro s c cause epc info
  refine ⟨fun hw => ?_, fun hw => ?_, fun r s1 ha hp => ?_, fun hc hres => ?_⟩
  · exact if_pos hw
  · refine ⟨_, if_neg (by rw [hw]; decide), ?_⟩
    simp [crashPayload]
  · show execTrapRecordPost s = _
    rw [execTrapRecordPost, ha]
    simp only [hp, afterRecord]
  · have ht := crashOver_of_idle hres
    have hlen : c < (restartFirmware s c).cores.length := by rw [restartFirmware_cores, length_modNth]; exact hc
    simp only [ht]
    rw [getCore_updCore_self _ _ _ hlen, getCore_restartFirmware hc, imageTrapd_restartFirmware]
    refine ⟨rfl, rfl, rfl, rfl, rfl, rfl, rfl, rfl, rfl, rfl, rfl, fun j hj => ?_⟩
    rw [getCore_updCore_other _ _ _ _ hj, getCore, restartFirmware_cores, nth_modNth_other _ _ _ _ _ hj, getCore]

end Sys2Proof.Machine

/-! PROOFS. O24: the ordering instructions and the barriers. -/

namespace Sys2Proof.Machine

/-! ### AGCFG (R219) -/

/-- The log's key of a firing on slots a and b is that of their two tokens. -/
theorem firingKey_ab (e : Env) (kind : Nat) (va : Option Dword) (o : Operands) :
    firingKey e kind va slotsAB { a := o.a, b := o.b, c := zeroTok, p := zeroTok } = firingKey e kind va [.a, .b] o := by
  simp only [firingKey, slotsAB, List.map_cons, List.map_nil, operandAt]

/-- AGCFG's base is the pair of its operands. -/
theorem agcfgAct_direct {s : State} {e : Env} {o : Operands} (t : Tgt) (k : Fin 256) (od : Order) (he : focusEnv s = some e) (hf : Fresh e)
    (ha : o.a.psn = false) (hb : o.b.psn = false) :
    let va := BitVec.ofNat 64 (o.b.word.toNat % 2 ^ 23 * 2 ^ 32 + o.a.word.toNat)
    agcfgAct t k od false s e o.a o.b =
      .emit (entered s e.c (firingKey e 0x55 (some va) [.a, .b] o) [va])
        (pairToks t va (wbits (poolWord e.win k.val) 2 0) false) := by
  simp only [agcfgAct, logged_fresh he hf, firingKey_ab, ha, hb, Bool.or_self, Bool.false_eq_true, if_false, Bool.not_false, if_true]

/-- AGCFG's base is the word that the pair leads to. -/
theorem agcfgAct_indirect {s s1 : State} {e : Env} {o : Operands} {v : Nat} (t : Tgt) (k : Fin 256) (od : Order) (he : focusEnv s = some e)
    (hf : Fresh e) (ha : o.a.psn = false) (hb : o.b.psn = false) {va : Dword}
    (hva : va = BitVec.ofNat 64 (o.b.word.toNat % 2 ^ 23 * 2 ^ 32 + o.a.word.toNat)) (h8 : va.toNat % 8 = 0)
    (hr : (if od.acq then readCommitted s e.c va 8 else readWithin s e.c false va 8 true) = .val v false s1) :
    agcfgAct t k od true s e o.a o.b =
      .emit (entered s1 e.c (firingKey e 0x55 (some va) [.a, .b] o) [BitVec.ofNat 64 v])
        (pairToks t (BitVec.ofNat 64 v) (wbits (poolWord e.win k.val) 2 0) false) := by
  subst hva
  simp only [agcfgAct, logged_fresh he hf, firingKey_ab, ha, hb, h8, hr, Bool.or_self, Bool.false_eq_true, if_false, Bool.not_true, ne_eq, not_true_eq_false]

/-! ### Arrivals (R231, R232) -/

theorem arrive_gen (s : State) (e : Env) (id : Nat) (dev : Bool) : (arrive s e id dev).2 = nextGen e id dev := by
  unfold arrive
  cases dev <;> rfl

theorem genComplete_block {s : State} {e : Env} {id g : Nat} (h : getWin s e.c = some e.win) :
    genComplete s e id false g = true ↔ ∀ n ∈ partyCounts e.win id false, g ≤ n := by
  simp [genComplete, h]

/-- The state of an arrival that is made and entered in the log. -/
def arrivedState (s : State) (e : Env) (op id : Nat) (dev : Bool) : State :=
  (arrive (entered s e.c (arrivalKey e op id (nextGen e id dev)) [BitVec.ofNat 64 (nextGen e id dev)]) e id dev).1

/-- A party that has a group and an entry, with nothing to replay and room in the log, arrives. -/
theorem arriveThen_made {s : State} {e : Env} {k : Fin 256} {sc : Scope} (t : Tgt) (op : Nat) (next : State → Nat → Act)
    (he : focusEnv s = some e) (hf : Fresh e) (hg : noGroup s e (barDev sc) = false)
    (hr : barDev sc = true → barRoom s (barGroup s e.c).1 (barId e k) = true) :
    arriveThen s e t op k sc next = next (arrivedState s e op (barId e k) (barDev sc)) (nextGen e (barId e k) (barDev sc)) := by
  have hlive (key : LogEntry) : replayNext s e.c key = .live s := by
    simp [replayNext, (focus_ctx he).1, hf.live]
  have hroom : (barDev sc && !barRoom s (barGroup s e.c).1 (barId e k)) = false := by
    cases hd : barDev sc
    · rfl
    · rw [hr hd]; rfl
  simp only [arriveThen, hg, Bool.false_eq_true, if_false, logArrival, hlive, hroom, hf.space, arrive_gen]
  rfl

theorem barWait_complete {s : State} {e : Env} {k : Fin 256} {sc : Scope} {g : Nat} (t : Tgt) (hold : State → Act)
    (h : genComplete s e (barId e k) (barDev sc) g = true) : barWait t k sc s e g hold = .emit s (result (tgt1 t) (BitVec.ofNat 32 g) false) := by
  rw [barWait, if_pos h, genOut]

theorem barWait_open {s : State} {e : Env} {k : Fin 256} {sc : Scope} {g : Nat} (t : Tgt) (hold : State → Act)
    (h : genComplete s e (barId e k) (barDev sc) g = false) : barWait t k sc s e g hold = hold s := by
  rw [barWait, h]; rfl

/-! ### The instructions -/

theorem fence_completes (t : Tgt) (q : Fin 64) (s : State) (e : Env) : Access (.fence t q) [.a] t s e s (result (tgt1 t) 0 false) :=
  completes_of rfl (mayIssue_turn rfl) rfl (List.Subset.refl _) rfl rfl rfl

theorem phase_issues (t : Tgt) (q : Fin 64) (sc : Scope) (s : State) (e : Env) :
    Issues (.phase t q sc) (fun x => InTurn x (.phase t q sc)) [.a] t s e (askBoundary s e.c sc (.program e.i))
      (pendOf (operands e.u) e.ctx.phase 0 1) :=
  issues_of rfl (mayIssue_turn rfl) rfl (List.Subset.refl _) rfl rfl rfl

theorem phase_resumes (t : Tgt) (q : Fin 64) (sc : Scope) {s : State} {e : Env} {p : Pend} (h : p.phase < e.ctx.phase) :
    Resumes (.phase t q sc) s e p s (result (tgt1 t) 0 false) :=
  resumes_of rfl (if_pos h)

/-- AGCFG without `.rel` is done at once. -/
theorem agcfg_completes (t : Tgt) (k : Fin 256) {od : Order} (ind : Bool) {s s1 : State} {e : Env} {out : List (Target × Token)}
    (hrel : od.rel = false) (h : agcfgAct t k od ind s e (operands e.u).a (operands e.u).b = .emit s1 out) :
    Access (.agcfg t k od ind) [.a, .b] t s e s1 out :=
  completes_of rfl (mayIssue_turn rfl) rfl (List.Subset.refl _) rfl rfl ((if_neg (by rw [hrel]; decide)).trans h)

theorem agcfg_issues (t : Tgt) (k : Fin 256) {od : Order} (ind : Bool) (s : State) (e : Env) (hrel : od.rel = true) :
    Issues (.agcfg t k od ind) (fun x => InTurn x (.agcfg t k od ind)) [.a, .b] t s e s (pendOf (operands e.u) (relMark e.ctx od.scope) 0 0) :=
  issues_of rfl (mayIssue_turn rfl) rfl (List.Subset.refl _) rfl rfl (if_pos hrel)

theorem osend_fires (t : Tgt) (pr : Pred) : Fires (.osend t pr) free [.a] (tgt1 t) pr noEffect (fun _ _ => toAll (tgt1 t) zeroTok) :=
  fires_of (fun _ => rfl) (fun _ _ => issue_free rfl rfl rfl) (fun _ => rfl) (fun _ => List.Subset.refl _) (fun _ => rfl) (fun _ => rfl)
    fun _ _ => rfl

theorem orecv_fires (h : DHead) : Fires (.orecv h) free [.a, .b] (headTgts h) h.pred noEffect (fun _ o => toAll (headTgts h) o.b) :=
  fires_of (fun _ => rfl) (fun _ _ => issue_free rfl rfl rfl) (fun _ => rfl) (fun _ => by simp) (fun _ => rfl) (fun _ => rfl) fun _ _ => rfl

/-- BAR without `.rel` arrives at once, and is held for its generation. -/
theorem bar_issues (t : Tgt) (k : Fin 256) {od : Order} {s : State} {e : Env} (he : focusEnv s = some e) (hf : Fresh e)
    (hn : noGroup s e (barDev od.scope) = false) (hr : barDev od.scope = true → barRoom s (barGroup s e.c).1 (barId e k) = true)
    (hrel : od.rel = false) :
    Issues (.bar t k od) OpenPhase [.a] t s e (arrivedState s e 0x65 (barId e k) (barDev od.scope))
      (pendOf (operands e.u) 0 (BitVec.ofNat 64 (nextGen e (barId e k) (barDev od.scope))) 1) :=
  issues_of rfl (mayIssue_cmd rfl rfl) rfl (List.Subset.refl _) rfl rfl
    ((if_neg (by rw [hrel]; decide)).trans (arriveThen_made t 0x65 _ he hf hn hr))

theorem bar_issues_rel (t : Tgt) (k : Fin 256) {od : Order} (s : State) (e : Env) (hrel : od.rel = true) :
    Issues (.bar t k od) OpenPhase [.a] t s e s (pendOf (operands e.u) (relMark e.ctx od.scope) 0 0) :=
  issues_of rfl (mayIssue_cmd rfl rfl) rfl (List.Subset.refl _) rfl rfl (if_pos hrel)

theorem bar_resumes (t : Tgt) {k : Fin 256} {od : Order} {s : State} {e : Env} {p : Pend} (hs : p.step ≠ 0)
    (hg : genComplete s e (barId e k) (barDev od.scope) p.val.toNat = true) :
    Resumes (.bar t k od) s e p s (result (tgt1 t) (BitVec.ofNat 32 p.val.toNat) false) :=
  resumes_of rfl ((if_neg hs).trans (barWait_complete t _ hg))

theorem arrv_completes (t : Tgt) (k : Fin 256) {rel : Bool} {sc : Scope} {s : State} {e : Env} (he : focusEnv s = some e) (hf : Fresh e)
    (hn : noGroup s e (barDev sc) = false) (hr : barDev sc = true → barRoom s (barGroup s e.c).1 (barId e k) = true) (hrel : rel = false) :
    Command (.arrv t k rel sc) [.a] t s e (arrivedState s e 0x66 (barId e k) (barDev sc))
      (result (tgt1 t) (BitVec.ofNat 32 (nextGen e (barId e k) (barDev sc))) false) :=
  completes_of rfl (mayIssue_cmd rfl rfl) rfl (List.Subset.refl _) rfl rfl
    ((if_neg (by rw [hrel]; decide)).trans (arriveThen_made t 0x66 _ he hf hn hr))

theorem arrv_resumes (t : Tgt) (k : Fin 256) {rel : Bool} {sc : Scope} {s : State} {e : Env} {p : Pend} (he : focusEnv s = some e)
    (hf : Fresh e) (hn : noGroup s e (barDev sc) = false) (hr : barDev sc = true → barRoom s (barGroup s e.c).1 (barId e k) = true)
    (hover : relOver e sc p = true) :
    Resumes (.arrv t k rel sc) s e p (arrivedState s e 0x66 (barId e k) (barDev sc))
      (result (tgt1 t) (BitVec.ofNat 32 (nextGen e (barId e k) (barDev sc))) false) :=
  resumes_of rfl ((if_pos hover).trans (arriveThen_made t 0x66 _ he hf hn hr))

theorem bwait_completes (t : Tgt) {k : Fin 256} {acq : Bool} {sc : Scope} {s : State} {e : Env} (hp : (operands e.u).a.psn = false)
    (hn : noGroup s e (barDev sc) = false) (hg : genComplete s e (barId e k) (barDev sc) (operands e.u).a.word.toNat = true) :
    Command (.bwait t k acq sc) [.a] t s e s (result (tgt1 t) (operands e.u).a.word false) := by
  have hbody := barWait_complete t (fun s1 => .hold s1 (pendOf (operands e.u) 0 ((operands e.u).a.word.zeroExtend 64) 1)) hg
  rw [BitVec.ofNat_toNat, BitVec.setWidth_eq] at hbody
  exact completes_of rfl (mayIssue_cmd rfl rfl) rfl (List.Subset.refl _) rfl rfl ((if_neg (by rw [hp, hn]; decide)).trans hbody)

theorem bwait_issues (t : Tgt) {k : Fin 256} {acq : Bool} {sc : Scope} {s : State} {e : Env} (hp : (operands e.u).a.psn = false)
    (hn : noGroup s e (barDev sc) = false) (hg : genComplete s e (barId e k) (barDev sc) (operands e.u).a.word.toNat = false) :
    Issues (.bwait t k acq sc) OpenPhase [.a] t s e s (pendOf (operands e.u) 0 ((operands e.u).a.word.zeroExtend 64) 1) :=
  issues_of rfl (mayIssue_cmd rfl rfl) rfl (List.Subset.refl _) rfl rfl
    ((if_neg (by rw [hp, hn]; decide)).trans
      (barWait_open t (fun s1 => .hold s1 (pendOf (operands e.u) 0 ((operands e.u).a.word.zeroExtend 64) 1)) hg))

/-- Settles O24: each instruction's firing emits, is held, or completes as its body or its `resume` says. -/
theorem orderAndBarriersComplete : Obligations.OrderAndBarriersComplete := by
  unfold Obligations.OrderAndBarriersComplete
  refine ⟨fun t q sc k od h pr s s1 e p v => ?_, fun t k od rel acq sc s e p => ?_⟩
  · exact ⟨fence_completes t q s e, phase_issues t q sc s e, fun hp => phase_resumes t q sc hp,
      fun hrel he hf ha hb => ⟨agcfg_completes t k false hrel (agcfgAct_direct t k od he hf ha hb),
        fun h8 hr => agcfg_completes t k true hrel (agcfgAct_indirect t k od he hf ha hb rfl h8 hr)⟩,
      fun hrel ind => agcfg_issues t k ind s e hrel, osend_fires t pr, orecv_fires h⟩
  · exact ⟨fun dev => arrive_gen s e _ dev, fun g hw => genComplete_block hw,
      fun ⟨he, hf, hn, hr⟩ hrel => bar_issues t k he hf hn hr hrel, fun hrel => bar_issues_rel t k s e hrel,
      fun hs hg => bar_resumes t hs hg, fun ⟨he, hf, hn, hr⟩ hrel => arrv_completes t k he hf hn hr hrel,
      fun ⟨he, hf, hn, hr⟩ hover => arrv_resumes t k he hf hn hr hover,
      fun hp hn => ⟨fun hg => bwait_completes t hp hn hg, fun hg => bwait_issues t hp hn hg⟩⟩

end Sys2Proof.Machine

/-! PROOFS. O42: privileged opcodes at the load of a node's block, and in the words of the privileged instructions. -/

namespace Sys2Proof.Machine

/-- A word's opcode is its first eight bits. -/
theorem word_op {op t i : Nat} (ht : t ≤ 511) (hi : i < 32768) : word op t i / 2 ^ 24 = op := by
  unfold word
  omega

theorem wordOp_eq (x : Word) : wordOp x = x.toNat / 2 ^ 24 := by
  have := x.isLt
  simp only [wordOp, wbits, bits]
  omega

theorem isPrivOp_of_privileged {op : Nat} (h : PrivilegedOp op) : isPrivOp op = true := by
  simp only [isPrivOp, Bool.or_eq_true, Bool.and_eq_true, beq_iff_eq, bne_iff_ne]
  unfold PrivilegedOp at h
  omega

/-- A node may run no privileged opcode (R84, R85). -/
theorem nodeFault_privileged {n : Node} {w : Window} (h : ∃ x ∈ w.code, PrivilegedOp (x.toNat / 2 ^ 24)) : nodeFault n w = some (5, 255, 0) := by
  obtain ⟨x, hx, hp⟩ := h
  have hany : w.code.any (fun x => isPrivOp (wordOp x)) = true :=
    List.any_eq_true.2 ⟨x, hx, by rw [wordOp_eq]; exact isPrivOp_of_privileged hp⟩
  have hno (core : Bool) : opcodesOk w core false = false := by simp [opcodesOk, hany]
  simp only [nodeFault, blockFault, hno, Bool.not_false, if_true]

/-- A load that fails changes the trap queue alone. -/
theorem failLoad_rest (s : State) (id cause blk idx : Nat) (va : Dword) (word : Nat) :
    (failLoad s id cause blk idx va word).dsp = s.dsp ∧ (failLoad s id cause blk idx va word).cores = s.cores := by
  unfold failLoad
  simp only
  split <;> exact ⟨rfl, rfl⟩

/-- A node's block fails its load by what checks 3 and 4 find in the code that its executor would run. -/
theorem loadNode_privileged {s s1 : State} {id : Nat} {n : Node} {w : Window} (kept : List ElemSt) (hn : getNode s id = some n)
    (hl : mayLoad s n = true) (hf : fetchBlock s (.node id) n.ctx.draft = .ok w s1) (hp : ∃ x ∈ w.code, PrivilegedOp (x.toNat / 2 ^ 24)) :
    loadNode s id kept = failLoad s1 id 5 n.ctx.draft.block 255 w.va 0 := by
  have hfault : nodeFault n (if (ctxCore s (.node id)).isSome then coreWindow w else w) = some (5, 255, 0) :=
    nodeFault_privileged (by split <;> exact hp)
  have hva : (if (ctxCore s (.node id)).isSome then coreWindow w else w).va = w.va := by split <;> rfl
  simp only [loadNode, hn, hl, hf, hfault, hva, Bool.not_true, Bool.false_eq_true, if_false]

/-- A word of a privileged opcode is privileged. -/
theorem privileged_word {op t i : Nat} (ho : PrivilegedOp op) (ht : t ≤ 511) (hi : i < 32768) :
    ∃ w, some (word op t i) = some w ∧ PrivilegedOp (w / 2 ^ 24) :=
  ⟨_, rfl, by rw [word_op ht hi]; exact ho⟩

section
open Sys2Proof.Laws

/-- The words of FRAMEM and of the privileged instructions of group 0xE have privileged opcodes (R84). -/
theorem privileged_firmware (t : Tgt) (m : MHead) (cause : BitVec 15) (n : BitVec 12) (mask : BitVec 6) (x acq : Bool) (sc : Scope) (k : Fin 256)
    (f : Fin 4) (te : TlbExt) :
    ∀ i ∈ [Instr.framem t k x, .trap t cause, .rte t, .csrrd t n, .csrwr t n, .tlbi m f te, .wfe t mask, .tqpost t acq sc x,
      .tqack t x sc, .sigchk t k acq sc f, .fwswap t], ∃ w, encode i = some w ∧ PrivilegedOp (w / 2 ^ 24) := by
  have := boolCode_le x
  have := boolCode_le acq
  have := scopeCode_le sc
  have := mheadCode_le m
  have := tlbExtCode_le te
  intro i hi
  fin_cases hi <;> exact privileged_word (by unfold PrivilegedOp; decide) (tgtCode_le _) (by omega)

/-- The words of group 0xF have privileged opcodes (R84). -/
theorem privileged_health (t : Tgt) (k : Fin 256) (x : Bool) :
    ∀ i ∈ [Instr.mcread t, .ecntr t x, .einj t k x, .binset t, .retest t, .bypass t, .flddrain t, .fldadmit t],
      ∃ w, encode i = some w ∧ PrivilegedOp (w / 2 ^ 24) := by
  have := boolCode_le x
  intro i hi
  fin_cases hi <;> exact privileged_word (by unfold PrivilegedOp; decide) (tgtCode_le t) (by omega)

end

/-- Settles O42: checks 3 and 4 find the opcode before anything is put in place; the map of R83 gives each word's opcode. -/
theorem privilegedBlocks : Obligations.PrivilegedBlocks := by
  unfold Obligations.PrivilegedBlocks
  refine ⟨fun s s1 id n w hn hl hf hp => ?_, fun t m cause n mask x acq sc k f te i hi => ?_⟩
  · obtain ⟨hdsp, hcores⟩ := failLoad_rest s1 id 5 n.ctx.draft.block 255 w.va 0
    exact ⟨congrArg Host.Outcome.next (loadNode_privileged [] hn hl hf hp), hdsp, hcores⟩
  · rcases List.mem_append.1 (show i ∈ [Instr.framem t k x, .trap t cause, .rte t, .csrrd t n, .csrwr t n, .tlbi m f te, .wfe t mask,
      .tqpost t acq sc x, .tqack t x sc, .sigchk t k acq sc f, .fwswap t] ++ [.mcread t, .ecntr t x, .einj t k x, .binset t, .retest t,
      .bypass t, .flddrain t, .fldadmit t] from hi) with h | h
    · exact privileged_firmware t m cause n mask x acq sc k f te i h
    · exact privileged_health t k x i h

end Sys2Proof.Machine

/-! PROOFS. O48: the launch windows, the trap queue's registers, and its arbiter. -/

namespace Sys2Proof.Machine

/-! ### A host's registers (R472) -/

theorem hostSets_ready {s : State} (h : ready s = true) (f : State → State) : hostSets f s = .next (f s) := by
  rw [hostSets, if_pos h]

theorem hostSets_idle {s : State} (h : ready s = false) (f : State → State) : hostSets f s = .next s := by
  rw [hostSets, h]; rfl

theorem wbit_top (w : Word) : wbit w 31 = w.msb := by
  have := w.isLt
  rw [BitVec.msb_eq_decide, wbit, bit, Bool.eq_iff_iff, beq_iff_eq, decide_eq_true_iff]
  omega

theorem wbits_low (w : Word) (hi : Nat) : wbits w hi 0 = w.toNat % 2 ^ (hi + 1) := by
  rw [wbits, bits, Nat.pow_zero, Nat.div_one, Nat.sub_zero]

/-! ### Launch windows (R45 to R47) -/

@[simp] theorem getLw_updLw (s : State) (port : Fin 2) (f : LaunchWin → LaunchWin) : getLw (updLw s port f) port = f (getLw s port) := by
  unfold getLw updLw
  split <;> rfl

theorem updLw_congr {s : State} {port : Fin 2} {f g : LaunchWin → LaunchWin} (h : f (getLw s port) = g (getLw s port)) :
    updLw s port f = updLw s port g := by
  unfold getLw at h
  unfold updLw
  split
  · next hp => rw [if_pos hp] at h; rw [h]
  · next hp => rw [if_neg hp] at h; rw [h]

theorem getLw_acceptRec (s : State) (r : LaunchRec) (port : Fin 2) : getLw (acceptRec s r) port = getLw s port := by
  unfold acceptRec
  simp only
  split <;> rfl

/-- While BUSY the bytes of a write are held. -/
theorem lwRecSet_busy {s : State} {port : Fin 2} (h : (getLw s port).committed ≠ none) (off : Nat) (data : List Byte) :
    lwRecSet port off data s = updLw s port (fun x => { x with held := x.held ++ [(off, data)] }) := by
  have hs : (getLw s port).committed.isSome = true := Option.isSome_iff_ne_none.2 h
  have hn : (getLw s port).committed.isNone = false := by rw [← Option.not_isSome, hs]; rfl
  simp only [lwRecSet, hn, Bool.false_and, Bool.false_eq_true, if_false]
  exact updLw_congr (if_pos hs)

/-- A write that does not cover the CRC is latched. -/
theorem lwRecSet_part {s : State} {port : Fin 2} (h : (getLw s port).committed = none) {off : Nat} {data : List Byte}
    (hc : 0x3C < off ∨ off + data.length < 0x40) :
    lwRecSet port off data s = updLw s port (fun x =>
      { x with latch := overwrite (getLw s port).latch off data, partWritten := x.partWritten || !data.isEmpty }) := by
  have hcov : ¬(off ≤ 0x3C ∧ 0x40 ≤ off + data.length) := by omega
  simp only [lwRecSet, getLw_updLw, latchWrite, hcov, h, Option.isSome_none, Bool.false_eq_true, if_false, Bool.and_false]
  refine updLw_congr ?_
  simp only [h, Option.isSome_none, Bool.false_eq_true, if_false]

/-- A write that covers the CRC commits the record, and has it checked. -/
theorem lwRecSet_commit {s : State} {port : Fin 2} (h : (getLw s port).committed = none) {off : Nat} {data : List Byte}
    (h1 : off ≤ 0x3C) (h2 : 0x40 ≤ off + data.length) :
    let l := overwrite (getLw s port).latch off data
    lwRecSet port off data s =
      queueJob (updLw s port (fun x => { x with latch := l, partWritten := false, committed := some l })) (.event (.launchRecordCheck port)) := by
  simp only [lwRecSet, getLw_updLw, latchWrite, h1, h2, h, Option.isSome_none, Option.isNone_none, Bool.false_eq_true, if_false, and_self,
    if_true, Option.isSome_some, Bool.and_self]
  refine congrArg (queueJob · _) (updLw_congr ?_)
  simp only [h, Option.isSome_none, Bool.false_eq_true, if_false]

/-- With nothing held, BUSY clears. -/
theorem clearLw_empty {s : State} {port : Fin 2} (h : (getLw s port).held = []) {f g : LaunchWin → LaunchWin}
    (hg : { f (getLw s port) with committed := none, held := [] } = g (getLw s port)) : clearLw s port f = updLw s port g := by
  simp only [clearLw, getLw_updLw, h, drainHeld, Option.isSome_none, Bool.false_eq_true, if_false]
  exact updLw_congr (by rw [h]; exact hg)

/-! ### The queue's registers (R53 to R55) -/

/-- TQ_CFG's write to a queue that is off, with a size that R54 allows. -/
theorem tqCfgSet_off {s : State} {w : Word} (he : s.tq.en = false) (h : 8 ≤ w.toNat % 32 ∧ w.toNat % 32 ≤ 16) :
    let n := BitVec.ofNat 5 (w.toNat % 32)
    tqCfgSet w s = { s with tq :=
      if w.msb then { s.tq with log2n := n, en := true, head := 0, tail := 0 } else { s.tq with log2n := n } } := by
  have hn : wbits w 4 0 = w.toNat % 32 := wbits_low w 4
  have hb : ¬(w.toNat % 32 < 8 ∨ 16 < w.toNat % 32) := by omega
  simp only [tqCfgSet, he, wbit_top, hn, Bool.false_eq_true, if_false, false_or, Bool.not_false, Bool.true_and]
  cases hm : w.msb <;> simp [hb]

/-- TQ_CFG's write to a queue that is off, with another size. -/
theorem tqCfgSet_off_bad {s : State} {w : Word} (he : s.tq.en = false) (h : w.toNat % 32 < 8 ∨ 16 < w.toNat % 32) :
    tqCfgSet w s = { s with tq :=
      if w.msb then { s.tq with cfgErr := true, en := true, head := 0, tail := 0 } else { s.tq with cfgErr := true } } := by
  have hn : wbits w 4 0 = w.toNat % 32 := wbits_low w 4
  simp only [tqCfgSet, he, wbit_top, hn, Bool.false_eq_true, if_false, false_or, Bool.not_false, Bool.true_and]
  cases hm : w.msb <;> simp [h]

/-- TQ_CFG's write to a queue that is on: its size stands. -/
theorem tqCfgSet_on {s : State} (w : Word) (he : s.tq.en = true) :
    tqCfgSet w s = { s with tq := { s.tq with en := w.msb, cfgErr := s.tq.cfgErr || decide (w.toNat % 32 ≠ s.tq.log2n.toNat) } } := by
  have hn : wbits w 4 0 = w.toNat % 32 := wbits_low w 4
  simp only [tqCfgSet, he, wbit_top, hn, if_true, true_or, Bool.not_true, Bool.false_and, Bool.false_eq_true, if_false]

/-! ### What a write of a line leaves of the trap queue -/

theorem decodeAt_tq (s : State) (k b : Nat) (errs : List (Nat × Nat × Byte)) (l : Line) : (decodeAt s k b errs l).2.tq = s.tq := by
  have symbol (t : State) (b : Nat) (ly : Fin 6) : (addSymbol t b ly).tq = t.tq := by
    unfold addSymbol; simp only; split <;> rfl
  have symbols (b : Nat) (l : List Nat) (t : State) : (l.foldl (fun t j => addSymbol t b (Fin.ofNat 6 j)) t).tq = t.tq := by
    induction l generalizing t with
    | nil => rfl
    | cons j l ih => rw [List.foldl_cons, ih, symbol]
  have ce (t : State) (k n : Nat) : (addCe t k n).tq = t.tq := by
    unfold addCe
    split
    · simp only; split <;> rfl
    · rfl
  unfold decodeAt
  simp only
  split
  · rfl
  · split
    · rfl
    · unfold countDecoded
      simp only
      split
      · split <;> rfl
      · rw [ce, symbols]
        split <;> rfl

theorem hostRequest_tq (s : State) (k : Nat) : (hostRequest s k).2.tq = s.tq := by
  unfold hostRequest; split <;> rfl

theorem setBacking_tq (s : State) (k : Nat) (m : Store) : (setBacking s k m).tq = s.tq := by
  unfold setBacking; split <;> rfl

theorem writeBack_tq (s : State) (k : Nat) : (writeBack s k).tq = s.tq := by
  unfold writeBack
  split
  · rfl
  · next l _ =>
    rcases hd : decodeAt { s with mem := { s.mem with dirty := mapErase s.mem.dirty k } } k (homeBank k) (softOf s k) l with ⟨l1, s0⟩
    have h0 : s0.tq = s.tq := by
      have := decodeAt_tq { s with mem := { s.mem with dirty := mapErase s.mem.dirty k } } k (homeBank k) (softOf s k) l
      rw [hd] at this
      exact this
    have h1 := (hostRequest_tq (dropSoft s0 k true true) k).trans h0
    simp only
    split
    · next hr => rw [hr] at h1; exact h1
    · next hr => rw [hr] at h1; exact (setBacking_tq _ _ _).trans h1

theorem foldl_tq {α : Type} {f : State → α → State} (h : ∀ s x, (f s x).tq = s.tq) (l : List α) (s : State) : (l.foldl f s).tq = s.tq := by
  induction l generalizing s with
  | nil => rfl
  | cons x l ih => rw [List.foldl_cons, ih, h]

theorem dropSoft_tq (s : State) (k : Nat) (sram hbm : Bool) : (dropSoft s k sram hbm).tq = s.tq := rfl

theorem setWays_tq (s : State) (set : Nat) (l : List HomeWay) : (setWays s set l).tq = s.tq := rfl

theorem evictSb_tq (s : State) (set sb : Nat) : (evictSb s set sb).tq = s.tq := by
  unfold evictSb
  rw [setWays_tq]
  exact foldl_tq (fun t k => (dropSoft_tq _ k true false).trans (writeBack_tq t k)) (sbLines sb) s

theorem enterWay_tq (s : State) (k : Nat) : (enterWay s k).tq = s.tq := by
  unfold enterWay
  simp only
  split
  · rfl
  · show State.tq (if _ then _ else _) = _
    split
    · rfl
    · split
      · exact evictSb_tq _ _ _
      · rfl

theorem enterBuffer_tq (s : State) (k : Nat) : (enterBuffer s k).tq = s.tq := by
  have hd (t : State) (v : Nat) : (drainBlock t v).tq = t.tq := by
    unfold drainBlock
    split
    · rfl
    · exact setBacking_tq _ _ _
  have hn : (if (mapGet [] s.mem.buffers (unitOf k)).elem k then s else noteHbm s 1).tq = s.tq := by
    split <;> rfl
  unfold enterBuffer
  simp only
  split
  · exact (hd _ _).trans hn
  · exact hn

theorem keepOld_tq (s : State) (k : Nat) : (keepOld s k).tq = s.tq := by
  unfold keepOld keepSig keepCmds
  repeat' split
  all_goals rfl

theorem storeLine_tq (s : State) (k : Nat) (l : Line) : (storeLine s k l).tq = s.tq := by
  unfold storeLine
  split
  · exact enterBuffer_tq s k
  · split
    · exact setBacking_tq _ _ _
    · exact enterWay_tq s k

theorem writeLine_whole_tq (s : State) (k : Nat) (data : Bits512) (desc : Option Desc) :
    (writeLine s k (BitVec.allOnes 64) data desc).tq = s.tq := by
  rw [writeLine, if_pos rfl, pokeLine, storeLine_tq]
  exact keepOld_tq _ k

/-- With no injection armed, an image is written as a line. -/
theorem putImage_tq {s : State} (hi : s.hl.inj = []) (key : Nat) (bs : List Byte) : (putImage s key bs).tq = s.tq := by
  have ht : ∃ t, unitTry s noUnitNode key = (true, t) ∧ t.tq = s.tq := by
    unfold unitTry
    split
    · exact ⟨s, rfl, rfl⟩
    · rw [unitOp_unarmed hi]
      exact ⟨_, rfl, rfl⟩
  obtain ⟨t, ht, htq⟩ := ht
  rw [putImage, unitWrite, ht]
  exact ((writeBack_tq _ _).trans (writeLine_whole_tq t key _ _)).trans htq

/-! ### The arbiter (R50, R52, R54) -/

theorem tellPoster_rest (s : State) (p : Poster) (step : Nat) (v : Dword) :
    (tellPoster s p step v).mem = s.mem ∧ (tellPoster s p step v).tq = s.tq := by
  unfold tellPoster
  split
  · exact ⟨updUnit_mem .., updUnit_tq ..⟩
  · exact ⟨rfl, rfl⟩

/-- A full queue lets none but records of kinds 0x03 and 0x0F past (R50). -/
theorem pickRec_full {l rest : List TrapRec} {r : TrapRec} (h : pickRec true l = some (r, rest)) : r.kind = 3 ∨ r.kind = 0x0F := by
  induction l generalizing rest with
  | nil => cases h
  | cons x l ih =>
    rw [pickRec] at h
    split at h
    · next hx =>
      cases h
      simpa using hx
    · obtain ⟨⟨y, z⟩, hy, he⟩ := Option.map_eq_some_iff.1 h
      cases he
      exact ih hy

/-- An ordinary record goes to the tail's slot. -/
theorem postOrdinary_spec {s : State} (hi : s.hl.inj = []) (r : TrapRec) :
    (postOrdinary s r).mem = (putImage s (lineKey 0 (s.tq.base.toNat * 65536 + 64 * (s.tq.tail.toNat % max 1 (ringSlots s.tq - 1))))
        (recBytes r s.tq.stamp)).mem ∧
      (postOrdinary s r).tq = { s.tq with tail := s.tq.tail + 1, stamp := s.tq.stamp + 1,
                                          outstanding := s.tq.outstanding ++ if r.kind = 1 then [(s.tq.stamp, r.poster)] else [] } := by
  obtain ⟨hm, hq⟩ := tellPoster_rest (raiseVec { writeRec s (s.tq.tail.toNat % max 1 (ringSlots s.tq - 1)) r with
    tq := { (writeRec s (s.tq.tail.toNat % max 1 (ringSlots s.tq - 1)) r).tq with
      tail := s.tq.tail + 1, outstanding := s.tq.outstanding ++ if r.kind = 1 then [(s.tq.stamp, r.poster)] else [] } } 0)
    r.poster 2 s.tq.stamp
  refine ⟨hm, hq.trans ?_⟩
  simp only [raiseVec, writeRec, putImage_tq hi]

/-- A fatal record goes to the fatal slot. -/
theorem postFatal_free {s : State} (hi : s.hl.inj = []) (r : TrapRec) (hf : s.tq.fatal = false) :
    (postFatal s r).mem = (putImage s (lineKey 0 (s.tq.base.toNat * 65536 + 64 * (ringSlots s.tq - 1))) (recBytes r s.tq.stamp)).mem ∧
      (postFatal s r).tq = { s.tq with fatal := true, stamp := s.tq.stamp + 1 } := by
  obtain ⟨hm, hq⟩ := tellPoster_rest (raiseVec { writeRec s (ringSlots s.tq - 1) r with
    tq := { (writeRec s (ringSlots s.tq - 1) r).tq with fatal := true } } 1) r.poster 2 s.tq.stamp
  rw [postFatal, hf]
  refine ⟨hm, hq.trans ?_⟩
  simp only [raiseVec, writeRec, putImage_tq hi]

/-- With the fatal slot taken it is counted. -/
theorem postFatal_taken {s : State} (r : TrapRec) (hf : s.tq.fatal = true) :
    (postFatal s r).mem = s.mem ∧
      (postFatal s r).tq = { s.tq with fatalMore := BitVec.ofNat 8 (min 255 (s.tq.fatalMore.toNat + 1)) } := by
  rw [postFatal, if_pos hf]
  exact tellPoster_rest _ _ _ _

/-- The arbiter's record, and what becomes of it. -/
theorem arbitrate_pick {s : State} {r : TrapRec} {rest : List TrapRec} (h : pickRec (tqFull s) s.tq.posters = some (r, rest)) :
    arbitrate s = some (r, let s1 := { s with tq := { s.tq with posters := rest } }
      if r.kind = 0x0F then postFatal s1 r
      else if tqFull s then tellPoster { s1 with tq := { s1.tq with dropped := s1.tq.dropped + 1 } } r.poster 3 0
      else postOrdinary s1 r) := by
  simp only [arbitrate, h]

theorem execTrapRecordPost_arbitrate {s s1 : State} {r : TrapRec} (h : arbitrate s = some (r, s1)) :
    exec .trapRecordPost s = .next (afterRecord s1 r.poster) := by
  show execTrapRecordPost s = _
  rw [execTrapRecordPost, h]

/-- A host's write of a register of these units does nothing before READY. -/
theorem hostQueue_idle {s : State} (h : ready s = false) (port : Fin 2) (off : Fin 64) (data : List Byte) (v : Dword) (w : Word) :
    ∀ i ∈ [Instr.lwRecWrite port off data, .hpDbellWrite port w, .tqBaseWrite v, .tqCfgWrite w, .tqHeadWrite w, .tqAckWrite v, .tqFatalClear],
      exec i s = .next s := by
  intro i hi
  fin_cases hi
  · exact hostSets_idle h _
  · exact hostSets_idle h _
  · exact hostSets_idle h _
  · exact hostSets_idle h _
  · exact hostSets_idle h _
  · exact hostSets_idle h fun s => (tqAckDo v s).2
  · exact hostSets_idle h _

/-- The check of a committed record, with no write held (R46). -/
theorem launchRecordCheck_exec {s : State} {port : Fin 2} {bs : List Byte} (hc : (getLw s port).committed = some bs) :
    exec (.launchRecordCheck port) s = .next (if checkRec s bs true = 0
      then clearLw (acceptRec s (parseRec bs)) port (fun w => { w with acceptedBit := true, accepted := w.accepted + 1 })
      else addDev (postRec s (refusedRec port (checkRec s bs true) bs)) 8 (if checkRec s bs true = 1 then 1 else 0)) := by
  show execLaunchRecordCheck port s = _
  simp only [execLaunchRecordCheck, hc]

/-- TQ_ACK's write (R53). -/
theorem tqAckDo_state (stamp : Dword) (s : State) : (tqAckDo stamp s).2 = { s with tq := (
    if s.tq.outstanding.any (fun o => o.1 == stamp) then { s.tq with outstanding := s.tq.outstanding.filter (fun o => decide (o.1 ≠ stamp)) }
    else { s.tq with badAck := true }) } := by
  have hf : (fun o : Dword × Poster => o.1 != stamp) = fun o => decide (o.1 ≠ stamp) := by
    funext o
    rw [bne, decide_not]
    rfl
  unfold tqAckDo
  rw [hf]
  split <;> rfl

/-- What the arbiter does with the record it picks. -/
theorem arbiter_spec {s : State} {r : TrapRec} {rest : List TrapRec} (hp : pickRec (tqFull s) s.tq.posters = some (r, rest))
    (hi : s.hl.inj = []) :
    let q := s.tq
    let q1 := { q with posters := rest }
    let at_ (slot : Nat) : Mem := (putImage { s with tq := q1 } (lineKey 0 (q.base.toNat * 65536 + 64 * slot)) (recBytes r q.stamp)).mem
    let size := 2 ^ q.log2n.toNat
    ∃ t, arbitrate s = some (r, t) ∧ exec .trapRecordPost s = .next (afterRecord t r.poster) ∧
      (r.kind ≠ 0x0F → tqFull s = false → t.mem = at_ (q.tail.toNat % max 1 (size - 1)) ∧
        t.tq = { q1 with tail := q.tail + 1, stamp := q.stamp + 1,
                         outstanding := q.outstanding ++ if r.kind = 1 then [(q.stamp, r.poster)] else [] }) ∧
      (r.kind ≠ 0x0F → tqFull s = true → r.kind = 3 ∧ t.mem = s.mem ∧ t.tq = { q1 with dropped := q.dropped + 1 }) ∧
      (r.kind = 0x0F → q.fatal = false → t.mem = at_ (size - 1) ∧ t.tq = { q1 with fatal := true, stamp := q.stamp + 1 }) ∧
      (r.kind = 0x0F → q.fatal = true → t.mem = s.mem ∧
        t.tq = { q1 with fatalMore := BitVec.ofNat 8 (min 255 (q.fatalMore.toNat + 1)) }) := by
  intro q q1 at_ size
  have ha := arbitrate_pick hp
  refine ⟨_, ha, execTrapRecordPost_arbitrate ha, fun hk hf => ?_, fun hk hf => ?_, fun hk hf => ?_, fun hk hf => ?_⟩
  · simp only [if_neg hk, hf, Bool.false_eq_true, if_false]
    exact postOrdinary_spec (s := { s with tq := q1 }) hi r
  · rw [hf] at hp
    simp only [if_neg hk, hf, if_true]
    exact ⟨(pickRec_full hp).resolve_right hk, tellPoster_rest _ _ _ _⟩
  · simp only [if_pos hk]
    exact postFatal_free (s := { s with tq := q1 }) hi r hf
  · simp only [if_pos hk]
    exact postFatal_taken (s := { s with tq := q1 }) r hf

/-- Settles O48: each row is its register's rule; the arbiter's write of a line leaves the queue's own registers. -/
theorem hostQueueEvents : Obligations.HostQueueEvents := by
  unfold Obligations.HostQueueEvents
  intro port off data v w s lw l q
  refine ⟨fun hr => ⟨?_, fun hc => ?_, fun hc hp => ?_, fun hc h1 h2 => ?_⟩, fun hr => hostQueue_idle hr port off data v w,
    fun bs hc hh => ⟨fun h0 => ?_, fun h0 => ⟨?_, rfl⟩⟩, fun r s1 c ha hp hh => ?_, fun hr => ?_, fun hr => ⟨fun he h8 h16 => ?_, fun he hn => ?_, fun he => ?_⟩,
    fun hr => ?_, fun hr => ?_, fun hr => ?_, fun hq => ?_, fun r rest hp hi => arbiter_spec hp hi⟩
  · refine (hostSets_ready hr _).trans ?_
    rw [ringCore, wbits_low]
    rfl
  · exact (hostSets_ready hr _).trans (congrArg _ (lwRecSet_busy hc off.val data))
  · exact (hostSets_ready hr _).trans (congrArg _ (lwRecSet_part hc hp))
  · exact (hostSets_ready hr _).trans (congrArg _ (lwRecSet_commit hc h1 h2))
  · rw [launchRecordCheck_exec hc, if_pos h0]
    refine congrArg _ (clearLw_empty ?_ ?_) <;> rw [getLw_acceptRec]
    exact hh
  · rw [launchRecordCheck_exec hc, if_neg h0]
  · rw [execTrapRecordPost_arbitrate ha, hp]
    exact congrArg _ (clearLw_empty hh rfl)
  · refine (hostSets_ready hr _).trans (congrArg _ ?_)
    unfold tqBaseSet
    split <;> rfl
  · exact (hostSets_ready hr _).trans (congrArg _ (tqCfgSet_off he ⟨h8, h16⟩))
  · exact (hostSets_ready hr _).trans (congrArg _ (tqCfgSet_off_bad he hn))
  · exact (hostSets_ready hr _).trans (congrArg _ (tqCfgSet_on w he))
  · exact hostSets_ready hr _
  · exact (hostSets_ready hr fun s => (tqAckDo v s).2).trans (congrArg _ (tqAckDo_state v s))
  · exact hostSets_ready hr _
  · show execTrapRecordPost s = _
    have : arbitrate s = none := by rw [arbitrate, hq]; rfl
    rw [execTrapRecordPost, this]

end Sys2Proof.Machine

/-! PROOFS. O53: the shuttle's steps, and the events of a core's clock. -/

namespace Sys2Proof.Machine

/-! ### A command's steps (R302, R303, R307) -/

/-- A ticket without a command has no step. -/
theorem shuttle_absent {s : State} {ticket : Nat} (h : getCmd s ticket = none) :
    ∀ i ∈ [Instr.shuttleCommandStart ticket, .shuttleTilePermit ticket, .shuttleComplete ticket], exec i s = .next s := by
  have start : execShuttleCommandStart ticket s = .next s := by rw [execShuttleCommandStart, h]
  have permit : execShuttleTilePermit ticket s = .next s := by rw [execShuttleTilePermit, h]
  have complete : execShuttleComplete ticket s = .next s := by rw [execShuttleComplete, h]
  intro i hi
  fin_cases hi
  exacts [start, permit, complete]

theorem commandStart_free {s : State} {ticket : Nat} {x : Cmd} (h : getCmd s ticket = some x) (hw : x.waitPhase = none) :
    exec (.shuttleCommandStart ticket) s = .next (putCmd s { x with started := true }) := by
  show execShuttleCommandStart ticket s = _
  simp only [execShuttleCommandStart, h, hw, if_true]

theorem commandStart_rel {s : State} {ticket p : Nat} {x : Cmd} {y : Ctx} (h : getCmd s ticket = some x) (hw : x.waitPhase = some p)
    (hy : getCtx s x.ctx = some y) :
    exec (.shuttleCommandStart ticket) s = .next (
      if y.boundary = none ∧ p < relMark y x.order.scope then putCmd s { x with started := true } else s) := by
  show execShuttleCommandStart ticket s = _
  simp only [execShuttleCommandStart, h, hw, hy, Bool.and_eq_true, Option.isNone_iff_eq_none, decide_eq_true_eq]

/-- A command that moves no more, or has not started, takes no permit. -/
theorem tilePermit_still {s : State} {ticket : Nat} {x : Cmd} (h : getCmd s ticket = some x)
    (hs : x.started = false ∨ x.doneAt.isSome = true ∨ x.moved = true) : exec (.shuttleTilePermit ticket) s = .next s := by
  show execShuttleTilePermit ticket s = _
  have : (x.started && x.doneAt.isNone && !x.moved) = false := by
    rcases hs with hs | hs | hs
    · rw [hs]; rfl
    · rw [← Option.not_isSome, hs, Bool.not_true, Bool.and_false, Bool.false_and]
    · rw [hs, Bool.not_true, Bool.and_false]
  simp only [execShuttleTilePermit, h, this, Bool.false_eq_true, if_false]

theorem tilePermit_moves {s : State} {ticket : Nat} {x : Cmd} (h : getCmd s ticket = some x) (hs : x.started = true) (hd : x.doneAt = none)
    (hm : x.moved = false) : exec (.shuttleTilePermit ticket) s = .next (advanceCmd s x) := by
  show execShuttleTilePermit ticket s = _
  simp only [execShuttleTilePermit, h, hs, hd, hm, Option.isNone_none, Bool.not_false, Bool.and_self, if_true]

theorem advanceCmd_permit {s : State} {x : Cmd} (ho : x.op ≠ opRelay) (hp : x.permit = false) : advanceCmd s x = takePermit s x x.current := by
  simp only [advanceCmd, ho, hp, false_and, if_false, Bool.not_false, if_true]

/-- The joint permit waits for the source's tile, then for every branch's space. -/
theorem takePermit_wait {s : State} {x : Cmd} (h : takeSource s x x.current = .wait) : takePermit s x x.current = s := by
  rw [takePermit, h]

theorem takePermit_branches {s s1 : State} {x : Cmd} {sl : Option Nat} (h : takeSource s x x.current = .taken sl s1)
    (hb : takeAll s1 x x.current 0 x.branches = none) : takePermit s x x.current = s := by
  simp only [takePermit, h, hb]

theorem takePermit_taken {s s1 s2 : State} {x : Cmd} {sl : Option Nat} {bs : List Branch} (h : takeSource s x x.current = .taken sl s1)
    (hb : takeAll s1 x x.current 0 x.branches = some (s2, bs, false)) :
    takePermit s x x.current = putCmd s2 { x with slot := sl, branches := bs, permit := true, row := 0 } := by
  simp only [takePermit, h, hb, Bool.false_eq_true, if_false]

theorem advanceCmd_unserved {s : State} {x : Cmd} (ho : x.op ≠ opRelay) (hp : x.permit = true) (hs : served s x.field ≠ some x.ticket) :
    advanceCmd s x = s := by
  simp only [advanceCmd, ho, hp, hs, false_and, if_false, Bool.not_true, Bool.false_eq_true, ne_eq, not_false_eq_true, if_true]

theorem advanceCmd_served {s s1 : State} {x x1 : Cmd} (ho : x.op ≠ opRelay) (hp : x.permit = true) (hs : served s x.field = some x.ticket)
    (hm : moveOne s x x.current = some (x1, s1)) :
    advanceCmd s x = if x.moves x.current ≤ x.row + 1 then setTurn (endTile s1 x1 x.current) x.field x.ticket false
      else setTurn (putCmd s1 { x1 with row := x1.row + 1 }) x.field x.ticket true := by
  simp only [advanceCmd, ho, hp, hs, hm, false_and, if_false, Bool.not_true, Bool.false_eq_true, ne_eq, not_true_eq_false]

theorem complete_unready {s : State} {ticket : Nat} {x : Cmd} (h : getCmd s ticket = some x) (hr : cmdReady x = false) :
    exec (.shuttleComplete ticket) s = .next s := by
  show execShuttleComplete ticket s = _
  simp only [execShuttleComplete, h, hr, Bool.not_false, if_true]

/-- A command whose counter has been added to, `s1` the state then, completes. -/
theorem complete_counted {s s1 : State} {ticket : Nat} {x : Cmd} (h : getCmd s ticket = some x) (hr : cmdReady x = true)
    (hc : countCmd s x = (true, s1)) : exec (.shuttleComplete ticket) s = .next (finishCmd s1 x) := by
  show execShuttleComplete ticket s = _
  simp only [execShuttleComplete, h, hr, hc, Bool.not_true, Bool.false_eq_true, if_false]

theorem countCmd_none {s : State} {x : Cmd} (h : x.cnt = 0 ∨ x.counted = true) : countCmd s x = (true, s) := by
  have : (x.counted || x.cnt == 0) = true := by
    rcases h with h | h <;> simp [h]
  rw [countCmd, if_pos this]

theorem countCmd_adds {s s1 : State} {x : Cmd} {tgt a : Nat} {w : Bool} (hn : x.cnt ≠ 0) (hc : x.counted = false)
    (hp : posterWaits s (.cmd x.ticket) = false) (hr : resolve s x.ctx x.cnt true = (.at tgt a w, s1)) :
    countCmd s x = (true, counterAdd s1 x.ctx (lineKey tgt a) a x.add (x.order.scope == .sys)) := by
  have : (x.counted || x.cnt == 0) = false := Bool.or_eq_false_iff.2 ⟨hc, beq_false_of_ne hn⟩
  simp only [countCmd, this, hp, hr, Bool.false_eq_true, if_false]

/-! ### A core's clock (R410, R421, R428) -/

theorem fwWatchdog_running {s : State} {c : Fin 16} {w : Window}
    (h : (coreWin (getCore s c.val) (getCore s c.val).level.toNat).win = some w) :
    let k := getCore s c.val
    let n := s.run.time - w.loadedUs
    exec (.fwWatchdog c) s = .next (
      if k.wdog ≠ 0 ∧ (coreWin k k.level.toNat).late = false ∧ k.wdog.toNat ≤ n ∧ crashWaits s c.val = false then
        takeTrap (updCore s c.val (fun y => setCoreWin y y.level.toNat { coreWin y y.level.toNat with late := true })) c.val k.level.toNat
          0x05 none (BitVec.ofNat 32 n)
      else s) := by
  intro k n
  have hn : fwElapsed s c.val = some n := by rw [fwElapsed, h]; rfl
  have hd : wdogDue s c.val = true ↔
      k.wdog ≠ 0 ∧ (coreWin k k.level.toNat).late = false ∧ k.wdog.toNat ≤ n ∧ crashWaits s c.val = false := by
    simp only [wdogDue, hn, Option.getD_some, Bool.and_eq_true, bne_iff_ne, Bool.not_eq_true', decide_eq_true_eq, and_assoc]
    rfl
  show execFwWatchdog c s = _
  simp only [execFwWatchdog, hn, ← hd]
  cases wdogDue s c.val <;> rfl

theorem fwWatchdog_empty {s : State} {c : Fin 16} (h : (coreWin (getCore s c.val) (getCore s c.val).level.toNat).win = none) :
    exec (.fwWatchdog c) s = .next s := by
  have hn : fwElapsed s c.val = none := by rw [fwElapsed, h]; rfl
  show execFwWatchdog c s = _
  simp only [execFwWatchdog, hn]

/-! ### SIGCHK's end (R433) -/

theorem sigchkComplete_none {s : State} (h : s.fw.sig = none) : exec .sigchkComplete s = .next s := by
  show execSigchkComplete s = _
  simp only [execSigchkComplete, h]

theorem sigchkComplete_copied {s s1 : State} {r : SigRun} {m : Store} (h : s.fw.sig = some r)
    (hc : copyImage r.kept r.va.toNat ((r.len + 63) / 64) 0 Store.empty s = (some m, s1)) :
    let st := sigStatus m r.len r.key (getCore s1 r.core).fwver
    exec .sigchkComplete s = .next (tellUnit { s1 with fw := { s1.fw with
      sig := none, staged := m, stagedOk := decide (st = 0), stgver := if st = 0 then imageVersion m else 0 } } r.c r.idx st) := by
  show execSigchkComplete s = _
  simp only [execSigchkComplete, h, hc]

theorem sigchkComplete_failed {s s1 : State} {r : SigRun} (h : s.fw.sig = some r)
    (hc : copyImage r.kept r.va.toNat ((r.len + 63) / 64) 0 Store.empty s = (none, s1)) :
    exec .sigchkComplete s = .next (tellUnit { s1 with fw := { s1.fw with sig := none, staged := Store.empty } } r.c r.idx 4) := by
  show execSigchkComplete s = _
  simp only [execSigchkComplete, h, hc]

/-- Settles O53: each row of the shuttle and of a core's clock, by the stage that the command or the window stands in. -/
theorem shuttleAndCoreEvents : Obligations.ShuttleAndCoreEvents := by
  unfold Obligations.ShuttleAndCoreEvents
  intro s s1 ticket x c k
  refine ⟨shuttle_absent, fun h => ⟨commandStart_free h, fun p y hw hy => commandStart_rel h hw hy, tilePermit_still h,
    fun hs hd hm hp ho => ?_, fun hs hd hm hp ho => ?_, complete_unready h, fun hr hc => complete_counted h hr (countCmd_none hc),
    fun tgt a w hr hn hc hw hres => complete_counted h hr (countCmd_adds hn hc hw hres)⟩, rfl, fun w => fwWatchdog_running, fwWatchdog_empty, rfl,
    sigchkComplete_none, fun r m => sigchkComplete_copied, fun r => sigchkComplete_failed⟩
  · rw [tilePermit_moves h hs hd hm, advanceCmd_permit ho hp]
    exact ⟨fun hw => by rw [takePermit_wait hw], fun sl hsl =>
      ⟨fun hb => by rw [takePermit_branches hsl hb], fun s2 bs hb => by rw [takePermit_taken hsl hb]⟩⟩
  · rw [tilePermit_moves h hs hd hm]
    exact ⟨fun hv => by rw [advanceCmd_unserved ho hp hv], fun x1 hv hmv => by rw [advanceCmd_served ho hp hv hmv]⟩

end Sys2Proof.Machine

/-! PROOFS. O54: hosts, registers and peer ports. -/

namespace Sys2Proof.Machine

/-! ### Register writes (R44, R463, R464) -/

theorem barSet_narrow {s : State} {off num : Nat} (port : Fin 2) (v : Dword) (h4 : off % 4 = 0) (hlo : 0x40 ≤ off) (hn : barNumber off = some num) :
    barSet port off false v s = writeHalf num (v.setWidth 32) s := by
  have h1 : ¬off < 0x40 := by omega
  simp only [barSet, barWrite, h4, h1, hn, Bool.false_eq_true, if_false, ne_eq, not_true_eq_false, Bool.not_false, if_true]

theorem barSet_wide {s : State} {off num : Nat} (port : Fin 2) (v : Dword) (h8 : off % 8 = 0) (hlo : 0x40 ≤ off) (hn : barNumber off = some num)
    (hw : isWide num = true) : barSet port off true v s = writeWide s num v := by
  have h1 : ¬off < 0x40 := by omega
  simp only [barSet, h8, h1, hn, hw, if_true, ne_eq, not_true_eq_false, if_false, Bool.not_true, Bool.false_eq_true]

theorem barSet_misaligned {s : State} {off : Nat} (port : Fin 2) (wide : Bool) (v : Dword) (h : off % 4 ≠ 0) : barSet port off wide v s = s := by
  have : off % (if wide then 8 else 4) ≠ 0 := by
    split <;> omega
  rw [barSet, if_pos this]

theorem writeHalf_narrow {num : Nat} (v : Word) (s : State) (hw : isWide num = false) (hl : num = 0 ∨ isWide (num - 1) = false) :
    writeHalf num v s = writeNarrow num v s := by
  have : ¬(0 < num ∧ isWide (num - 1) = true) := by
    rintro ⟨h0, h1⟩
    rcases hl with h | h
    · omega
    · rw [h] at h1; cases h1
  simp only [writeHalf, hw, this, Bool.false_eq_true, if_false]

theorem writeHalf_wide {num : Nat} (v : Word) (s : State) (hw : isWide num = true) :
    writeHalf num v s = writeWide s num (joinWords v ((readWide s num >>> 32).setWidth 32)) := by
  rw [writeHalf, if_pos hw]

/-! ### The aperture (R462, R466, R467) -/

/-- A write within one block. -/
theorem hostPutAll_block {s : State} {port : Fin 2} {off : Nat} {data : List Byte} (hd : data ≠ []) (hl : off % 64 + data.length ≤ 64) :
    hostPutAll port data.length off data s = (apertureAddr s port off).elim s (fun pa => hostPut s pa (off % 64) data) := by
  obtain ⟨b, bs, rfl⟩ := List.exists_cons_of_ne_nil hd
  have ht : (b :: bs).take (64 - off % 64) = b :: bs := List.take_of_length_le (by omega)
  have hdrop : (b :: bs).drop (b :: bs).length = [] := List.drop_length
  rw [List.length_cons, hostPutAll, ht, hdrop]
  · cases apertureAddr s port off <;> cases bs <;> rfl
  · exact nofun

/-- A read within one block. -/
theorem hostGetAll_block {s : State} {port : Fin 2} {off n : Nat} (h0 : 0 < n) (hl : off % 64 + n ≤ 64) :
    hostGetAll port n off n s = (apertureAddr s port off).elim (List.replicate n 0, s) (fun pa => hostGet s pa (off % 64) n) := by
  obtain ⟨k, rfl⟩ := Nat.exists_eq_succ_of_ne_zero (Nat.ne_of_gt h0)
  have hm : min (k + 1) (64 - off % 64) = k + 1 := by omega
  have hrest (o : Nat) (t : State) : hostGetAll port k o 0 t = ([], t) := by
    cases k <;> rfl
  simp only [hostGetAll, Nat.succ_ne_zero, if_false, Nat.succ_eq_add_one, hm, Nat.sub_self, hrest, List.append_nil]
  cases apertureAddr s port off with
  | none => rfl
  | some pa => rfl

theorem hostRead_block {s : State} {port : Fin 2} {off : BitVec 36} {n pa : Nat} {l : Line} {s1 : State} (h0 : 0 < n)
    (hl : off.toNat % 64 + n ≤ 64) (ha : apertureAddr s port off.toNat = some pa) (hr : unitRead s noUnitNode (lineKey 0 pa) = (l, s1))
    (hp : l.psn = false) :
    exec (.hostRead port off n) s = .next { s1 with run := { s1.run with
      toHost := s1.run.toHost ++ [.readReply port (((lineBytes l.data).drop (off.toNat % 64)).take n)] } } := by
  show execHostRead port off n s = _
  simp only [execHostRead, hostGetAll_block h0 hl, ha, Option.elim_some, hostGet, hr, hp, Bool.false_eq_true, if_false]
  rfl

theorem hostRead_beyond {s : State} {port : Fin 2} {off : BitVec 36} {n : Nat} (h0 : 0 < n) (hl : off.toNat % 64 + n ≤ 64)
    (ha : apertureAddr s port off.toNat = none) :
    exec (.hostRead port off n) s = .next { s with run := { s.run with
      toHost := s.run.toHost ++ [.readReply port (List.replicate n 0)] } } := by
  show execHostRead port off n s = _
  simp only [execHostRead, hostGetAll_block h0 hl, ha, Option.elim_none]
  rfl

/-- A write of the descriptor view that is not one of two bytes, or comes before READY, does nothing (R467, R472). -/
theorem descriptorViewWrite_idle {s : State} {n : Nat} (port : Fin 2) (view : BitVec 31) (dsc : Desc) (h : ready s = false ∨ n ≠ 2) :
    exec (.descriptorViewWrite port view n dsc) s = .next s := by
  have : (!ready s || n != 2 || view.toNat % 2 != 0) = true := by
    rcases h with h | h
    · rw [h]; rfl
    · rw [bne_iff_ne.2 h, Bool.or_true, Bool.true_or]
  exact if_pos this

theorem descriptorViewWrite_block {s : State} {port : Fin 2} {view : BitVec 31} {pa : Nat} (dsc : Desc) (hr : ready s = true)
    (hv : view.toNat % 2 = 0) (ha : apertureAddr s port (view.toNat / 2 * 64) = some pa) :
    exec (.descriptorViewWrite port view 2 dsc) s = .next (unitWrite s noUnitNode (lineKey 0 pa) (fun t =>
      writeBack (pokeLine (readLine t (lineKey 0 pa)).2 (lineKey 0 pa) { (readLine t (lineKey 0 pa)).1 with desc := dsc }) (lineKey 0 pa))) := by
  show execDescriptorViewWrite port view 2 dsc s = _
  have : (!ready s || 2 != 2 || view.toNat % 2 != 0) = false := by rw [hr, hv]; rfl
  simp only [execDescriptorViewWrite, this, ha, Bool.false_eq_true, if_false]

/-! ### Peer ports (R469 to R471) -/

theorem portDown_pr (s : State) (p : Nat) (training : Bool) :
    (portDown s p training).pr = modNth (fun q => { q with up := false, training := training, outq := [] }) s.pr p := rfl

/-- What a port that goes down cuts off. -/
theorem portDown_spec {s : State} {p : Fin 8} (training : Bool) (hp : p.val < s.pr.length) :
    let t := portDown s p.val training
    (getPeer t p.val).up = false ∧ (∀ j, j ≠ p.val → getPeer t j = getPeer s j) ∧ (∀ r ∈ t.sh.relays, r.port ≠ p.val) ∧
      t.mem = s.mem ∧ ∀ y ∈ s.sh.cmds, y.op = opRelay → y.started = true → y.doneAt = none → y.acked = false → relayPort y = p →
        y.mark stPeer ∈ t.sh.cmds := by
  intro t
  refine ⟨?_, fun j hj => ?_, fun r hr => ?_, rfl, fun y hy ho hs hd ha hport => ?_⟩
  · rw [getPeer, portDown_pr, nth_modNth _ _ _ _ hp]
  · rw [getPeer, portDown_pr, nth_modNth_other _ _ _ _ _ hj, getPeer]
  · obtain ⟨q, hq, rfl⟩ := List.mem_map.1 hr
    have hne : q.port ≠ p.val := by simpa using (List.mem_filter.1 hq).2
    split <;> exact hne
  · refine List.mem_map.2 ⟨y, hy, ?_⟩
    exact if_pos ⟨ho, hs, by rw [hd]; rfl, by rw [ha]; rfl, by rw [hport]⟩

theorem peerPort_off {s : State} {p : Fin 8} (h : (getPeer s p.val).up = false) (f : Flit) (hd : HeaderFlit) (ticket : Dword) :
    exec (.peerDataFlit p f) s = .next s ∧ exec (.peerHeaderFlit p hd) s = .next s ∧ exec (.peerAckFlit p ticket) s = .next s := by
  have : (!(getPeer s p.val).up) = true := by rw [h]; rfl
  exact ⟨if_pos this, if_pos this, if_pos this⟩

/-- A header whose transfer ends here opens it. -/
theorem peerHeaderFlit_opens {s : State} {p : Fin 8} {h : HeaderFlit} (hu : (getPeer s p.val).up = true) (hh : h.hops = 0) :
    exec (.peerHeaderFlit p h) s = .next (
      let t := toPeer s (.credit p)
      { t with sh := { t.sh with relays := t.sh.relays ++ [{ port := p.val, fport := h.fport.val, hops := 0, nextAck := false, refused := false,
                                                             ticket := h.ticket, nrow := h.nrow, rb := h.rb, pcnt := h.pcnt
                                                             padd := h.padd, va := h.va, got := 0 }] } }) := by
  show execPeerHeaderFlit p h s = _
  simp only [execPeerHeaderFlit, hu, hh, forward, Bool.not_true, Bool.false_eq_true, if_false, if_true]
  rfl

/-- A block of a transfer that ends here, not its last. -/
theorem peerDataFlit_block {s s1 s2 : State} {p : Fin 8} {f : Flit} {r : Relay} {rest : List Relay} {w : Bool} {t a : Nat}
    (hu : (getPeer s p.val).up = true) (hh : f.hops = 0) (hpsn : f.poison = false) (hrel : s.sh.relays = r :: rest) (hport : r.port = p.val)
    (hhops : r.hops = 0) (hr : relayWhole r = false) (hr1 : relayWhole { r with got := r.got + 1 } = false)
    (ht : translate (toPeer s (.credit p)) (f.va.signExtend 64) true = (.at t a w, s1))
    (hw : unitWrite s1 noUnitNode (lineKey t a) (fun y =>
      writeBack (writeLine y (lineKey t a) (BitVec.allOnes 64) f.data (some f.desc)) (lineKey t a)) = s2) (hsh : s2.sh = s.sh) :
    exec (.peerDataFlit p f) s = .next { s2 with sh := { s2.sh with relays := { r with got := r.got + 1 } :: rest } } := by
  have hwrite : relayWrite (toPeer s (.credit p)) f = (true, s2) := by
    simp only [relayWrite, ht, hpsn, Bool.false_eq_true, if_false, hw]
  have hrel2 : s2.sh.relays = r :: rest := by rw [hsh, hrel]
  have hmine : (r.port == p.val && r.hops == f.hops.val && (f.hops == 0 || r.fport == f.fport.val) && !relayWhole r) = true := by
    rw [hport, hhops, hr, hh]
    simp
  have hforward (o : Fin 8 → Fin 8 → PeerOut) (stop : Bool) : (if stop then (true, s2) else forward s2 f.hops f.fport o) = (true, s2) := by
    rw [forward, if_pos hh, ite_self]
  show execPeerDataFlit p f s = _
  simp only [execPeerDataFlit, hu, hwrite, hforward, hrel2, changeRelay, hmine, Bool.not_true, Bool.false_eq_true, if_false, if_true,
    Bool.or_false, hr1, false_and]
  rfl

theorem peerAckFlit_own {s : State} {p : Fin 8} {ticket : Dword} {x : Cmd} (hu : (getPeer s p.val).up = true) (ha : ackedCmd s p ticket = some x) :
    exec (.peerAckFlit p ticket) s = .next (putCmd (toPeer s (.credit p)) { x with acked := true }) := by
  show execPeerAckFlit p ticket s = _
  simp only [execPeerAckFlit, hu, ha, Bool.not_true, Bool.false_eq_true, if_false]

theorem relayAckTimeout_exec {s : State} {n : Nat} {x : Cmd} (h : getCmd s n = some x) :
    exec (.relayAckTimeout n) s = .next (if x.op = opRelay ∧ x.opened = true ∧ x.acked = false ∧ x.doneAt = none ∧ 10000 ≤ s.run.time - x.sentUs
      then putCmd s (x.mark stPeer) else s) := by
  show execRelayAckTimeout n s = _
  simp only [execRelayAckTimeout, h, ackOverdue, decide_eq_true_eq, Bool.not_eq_true', Option.isNone_iff_eq_none]

/-- Settles O54: a host's access lies within one block or register; a peer's flit changes its port, its transfer, and the block it brings. -/
theorem linkEvents : Obligations.LinkEvents := by
  unfold Obligations.LinkEvents
  intro s s1 s2 port off reg view data v dsc l pa up rate wd p f h x ticket n q i
  refine ⟨fun hr => ⟨hostSets_idle hr _, hostSets_idle hr _, descriptorViewWrite_idle port view dsc (.inl hr)⟩,
    fun hr => ⟨fun num h4 hlo hn => ⟨fun hw hl => ?_, fun hw => ?_, fun hw h8 => ?_⟩, fun h4 => ?_, fun hd hl ha => ?_, fun hd hl ha => ?_,
      fun hv ha => descriptorViewWrite_block dsc hr hv ha, fun hn => descriptorViewWrite_idle port view dsc (.inr hn)⟩,
    fun h0 hl ha hu hp => hostRead_block h0 hl ha hu hp, fun h0 hl ha => hostRead_beyond h0 hl ha, rfl, rfl, fun hq => ?_, fun o rest hq => ?_, rfl,
    ?_, fun t ht hp => ?_, ⟨_, rfl, portDown_pr s p.val false⟩,
    fun hr => hostSets_idle hr (retrainPort · p.val), fun hr => ⟨_, hostSets_ready hr (retrainPort · p.val), portDown_pr s p.val _⟩,
    fun hu => peerPort_off hu f h ticket, fun hu hh => peerHeaderFlit_opens hu hh,
    fun r rest w t a hu hh hpsn hrel hport hhops hw hw1 ht hs2 hsh => peerDataFlit_block hu hh hpsn hrel hport hhops hw hw1 ht hs2 hsh,
    fun hu ha => peerAckFlit_own hu ha, fun hc ho hop hak hd ht => ?_, fun hc ho => ?_⟩
  · exact (hostSets_ready hr _).trans (congrArg _ ((barSet_narrow port v h4 hlo hn).trans (writeHalf_narrow _ s hw hl)))
  · exact (hostSets_ready hr _).trans (congrArg _ ((barSet_narrow port v h4 hlo hn).trans (writeHalf_wide _ s hw)))
  · exact (hostSets_ready hr _).trans (congrArg _ (barSet_wide port v h8 hlo hn hw))
  · exact (hostSets_ready hr _).trans (congrArg _ (barSet_misaligned port up v h4))
  · exact (hostSets_ready hr _).trans (congrArg _ ((hostPutAll_block hd hl).trans (by rw [ha, Option.elim_some])))
  · exact (hostSets_ready hr _).trans (congrArg _ ((hostPutAll_block hd hl).trans (by rw [ha, Option.elim_none])))
  · show execPeerCreditFlit p s = _
    rw [execPeerCreditFlit, hq]
  · show execPeerCreditFlit p s = _
    rw [execPeerCreditFlit, hq]
  · show execPeerPortUp p s = _
    simp only [execPeerPortUp, Bool.and_eq_true]
  · rcases ht with ht | ⟨hr, ht⟩
    · cases ht
      exact portDown_spec false hp
    · cases (hostSets_ready hr (retrainPort · p.val)).symm.trans ht
      exact portDown_spec _ hp
  · rw [relayAckTimeout_exec hc, if_pos ⟨ho, hop, hak, hd, ht⟩]
  · rw [relayAckTimeout_exec hc, if_neg]
    rintro ⟨-, hop, hak, hd, ht⟩
    rcases ho with ho | ho | ho | ho
    · rw [ho] at hak; cases hak
    · rw [hd] at ho; cases ho
    · rw [ho] at hop; cases hop
    · omega

end Sys2Proof.Machine

/-! PROOFS. O50: the restore of an element's image on a core. The statement says that a completed restore counts the
events of the image's accumulator rows on every kind of executor. The model counts none of them where the node's
executor is a core, which no accumulator row reaches (R11), so the statement fails there. -/

namespace Sys2Proof.Machine

/-! ### A restore on a core -/

/-- A restore that reads its image and loads its block leaves the node on its core with the counts it was saved with. -/
theorem exec_restore_onCore {s s1 s2 : State} {id kind : Nat} {n r : Node} {h : List Byte} {body : List Line}
    (hn : getNode s id = some n) (hi : n.image = some kind) (hf : s.dsp.frozen = false) (hl : mayLoad s n = true)
    (hr : readImage s n kind = (some (h, body), s1)) (hc : onCore n = true)
    (hs : loadNode (updNode s1 id (fun _ => stateBack n h body)) id (((stateBack n h body).win.map (·.units)).getD []) = s2)
    (hg : getNode s2 id = some r) (hd : r.loading = false) :
    exec (.restore id) s = .next (tellYields (takeAgain s2 id) id 2) := by
  subst hs
  show execRestore id s = _
  simp [execRestore, hn, hi, hf, hl, hr, hc, hg, hd]

/-! ### The counterexample -/

/-- An accumulator row's first line in a format that is not FP32: reading it counts an event. -/
def countedLine : Line := { data := 0, desc := 0x0003, psn := false }

/-- The header of an image of node 0 that was saved on elements: 320 bytes long, with one accumulator row. -/
def countedHeader : List Byte :=
  let fields := leBytes 2 0xD9A5 ++ leBytes 2 1 ++ leBytes 4 0 ++ leBytes 4 320 ++ leBytes 12 0 ++ leBytes 2 1 ++ leBytes 58 0 ++
    leBytes 4 1 ++ leBytes 160 0 ++ leBytes 4 (crc32 (lineBytes countedLine.data)).toNat
  fields ++ leBytes 4 (crc32 fields).toNat

section
open Sys2Proof.Tests

/-- Node 0 is placed on core 0, to be restored from the image at address 0x11000; its block is at 0x10000. -/
def restoredOnCore : State :=
  let placed := withNode (pooled true) (fun n => { n with
    st := .placed
    loading := true
    exec := some (.core 0)
    image := some 2
    lrec := { n.lrec with save := 0x11000, saveBytes := 320 }
    ctx := { n.ctx with ckpt := none } })
  let s := updCore placed 0 (fun k => { k with resident := [0], turn := 0 })
  let put (m : Store) (k : Nat) (l : Line) : Store := m.writeLine (0x11000 / 64 + k) l
  { s with mem := { s.mem with hbm := put ((List.range 4).foldl (fun m k =>
      put m k { data := lineOfBytes ((countedHeader.drop (64 * k)).take 64), desc := 0, psn := false }) s.mem.hbm) 4 countedLine } }

/-- Its node. -/
def nodeOnCore : Node := (getNode restoredOnCore 0).getD (freshNode 0 (blankRec 0))

end

/-- What its restore reads. -/
def imageOnCore : List Byte × List Line := (readImage restoredOnCore nodeOnCore 2).1.getD ([], [])

/-- The node with its image written back. -/
def backOnCore : Node := stateBack nodeOnCore imageOnCore.1 imageOnCore.2

/-- The state with the node's block loaded. -/
def loadedOnCore : State :=
  loadNode (updNode (readImage restoredOnCore nodeOnCore 2).2 0 (fun _ => backOnCore)) 0 ((backOnCore.win.map (·.units)).getD [])

/-- The loaded node. -/
def runsOnCore : Node := (getNode loadedOnCore 0).getD (freshNode 0 (blankRec 0))

/-- The format events that node 0 has counted. -/
def formatCount (s : State) : Option Word := (getNode s 0).map (fun n => mapGet 0 n.ctx.counts cntFmt)

theorem eq_some_getD {α : Type} {o : Option α} (d : α) (h : o.isSome = true) : o = some (o.getD d) := by
  rw [← Option.some_get h, Option.getD_some]

theorem fst_eq_some {α β : Type} {p : Option α × β} (d : α) (h : p.1.isSome = true) : p = (some (p.1.getD d), p.2) :=
  Prod.ext (eq_some_getD d h) rfl

theorem getNode_restoredOnCore : getNode restoredOnCore 0 = some nodeOnCore := eq_some_getD _ (by decide +kernel)

theorem nodeOnCore_facts : nodeOnCore.image = some 2 ∧ restoredOnCore.dsp.frozen = false ∧ mayLoad restoredOnCore nodeOnCore = true ∧
    onCore nodeOnCore = true := by
  decide +kernel

set_option maxRecDepth 100000 in
theorem readImage_restoredOnCore_isSome : (readImage restoredOnCore nodeOnCore 2).1.isSome = true := by
  decide +kernel

theorem readImage_restoredOnCore :
    readImage restoredOnCore nodeOnCore 2 = (some (imageOnCore.1, imageOnCore.2), (readImage restoredOnCore nodeOnCore 2).2) := by
  rw [imageOnCore, Prod.mk.eta]
  exact fst_eq_some ([], []) readImage_restoredOnCore_isSome

theorem loadNode_backOnCore :
    loadNode (updNode (readImage restoredOnCore nodeOnCore 2).2 0 (fun _ => stateBack nodeOnCore imageOnCore.1 imageOnCore.2)) 0
      (((stateBack nodeOnCore imageOnCore.1 imageOnCore.2).win.map (·.units)).getD []) = loadedOnCore := by
  rw [loadedOnCore, backOnCore]

set_option maxRecDepth 100000 in
theorem loadedOnCore_isSome : (getNode loadedOnCore 0).isSome = true := by
  decide +kernel

theorem getNode_loadedOnCore : getNode loadedOnCore 0 = some runsOnCore := eq_some_getD _ loadedOnCore_isSome

set_option maxRecDepth 100000 in
theorem runsOnCore_loaded : runsOnCore.loading = false := by
  decide +kernel

set_option maxRecDepth 100000 in
/-- The model's restore counts no event of the image's row. -/
theorem formatCount_restored : formatCount (tellYields (takeAgain loadedOnCore 0) 0 2) = some 0 := by
  decide +kernel

set_option maxRecDepth 100000 in
/-- The statement's restore counts one. -/
theorem formatCount_claimed :
    formatCount (tellYields (takeAgain (addEv loadedOnCore (.node 0) (imageEvents imageOnCore.1 imageOnCore.2)) 0) 0 2) = some 1 := by
  decide +kernel

/-- What the model makes of the restore. -/
theorem exec_restore_restoredOnCore : exec (.restore 0) restoredOnCore = .next (tellYields (takeAgain loadedOnCore 0) 0 2) := by
  obtain ⟨hi, hf, hl, hc⟩ := nodeOnCore_facts
  exact exec_restore_onCore getNode_restoredOnCore hi hf hl readImage_restoredOnCore hc loadNode_backOnCore
    getNode_loadedOnCore runsOnCore_loaded

/-- Refutes O50: a restore on a core of an image that was saved on elements, with an accumulator row whose lines are not
FP32. The statement adds the row's format event to the node's counts; the model, which drops accumulator rows on a core
(R11), does not. -/
theorem not_blockEvents : ¬ Obligations.BlockEvents := by
  unfold Obligations.BlockEvents
  intro h
  obtain ⟨hi, hf, hl, -⟩ := nodeOnCore_facts
  obtain ⟨-, -, -, hnode, -⟩ := h restoredOnCore (readImage restoredOnCore nodeOnCore 2).2 loadedOnCore restoredOnCore restoredOnCore
    restoredOnCore 0 nodeOnCore (oneWindow 0) { scope := .dev, cause := .inserted, checked := false }
  obtain ⟨-, -, -, -, -, -, -, -, -, -, -, hrestore⟩ := hnode getNode_restoredOnCore
  obtain ⟨-, hread⟩ := hrestore 2 hi hf hl
  obtain ⟨hcounts, -⟩ := hread _ _ readImage_restoredOnCore loadNode_backOnCore
  have hclaim := (exec_restore_restoredOnCore.symm.trans (hcounts _ getNode_loadedOnCore runsOnCore_loaded))
  have hstates := congrArg formatCount (Host.Outcome.next.inj hclaim)
  rw [formatCount_restored, formatCount_claimed] at hstates
  exact absurd hstates (by decide)

end Sys2Proof.Machine

/-! PROOFS. O60, O59: the decoder and the encoder agree. Each field of a word is read as the operand whose code stands there and
as no other, so what a group's decoder reads back is arithmetic on the bits of the word. -/

namespace Sys2Proof.Machine

open Sys2Proof.Laws

/-! ### Fields of a word (R76 to R80): what a field reads as, and the code that it holds -/

theorem bind_eq_ok {α β : Type} {x : Except BadWord α} {f : α → Except BadWord β} {b : β} :
    (x >>= f) = .ok b ↔ ∃ a, x = .ok a ∧ f a = .ok b := by
  cases x <;> simp [bind, Except.bind]

theorem fixed_eq_ok {v e : Nat} {u : Unit} : fixed v e = .ok u ↔ v = e := by
  unfold fixed
  split <;> simpa

theorem bitAt_eq {i k : Nat} {b : Bool} : bitAt i k = b ↔ i / 2 ^ k % 2 = boolCode b := by
  cases b <;> simp [bitAt, boolCode]

@[simp] theorem boolCode_bitAt (i k : Nat) : boolCode (bitAt i k) = i / 2 ^ k % 2 := (bitAt_eq.1 rfl).symm

@[simp] theorem fin_val (n v : Nat) [NeZero n] : (fin n v).val = v % n := rfl

theorem fin_eq {n v : Nat} [NeZero n] {k : Fin n} : fin n v = k ↔ v % n = k.val := Fin.ext_iff

theorem readFin_eq_ok {n v : Nat} {k : Fin n} : readFin n v = .ok k ↔ v = k.val := by
  unfold readFin
  split
  case isTrue => simp [Fin.ext_iff]
  case isFalse hv => simpa using fun h : v = k.val => hv (h ▸ k.isLt)

theorem bitVec_ofNat_eq {n v : Nat} {x : BitVec n} : BitVec.ofNat n v = x ↔ v % 2 ^ n = x.toNat := by
  rw [← BitVec.toNat_inj, BitVec.toNat_ofNat]

theorem bitVec_toNat_le {n : Nat} (x : BitVec n) : x.toNat ≤ 2 ^ n - 1 := Nat.le_sub_one_of_lt x.isLt

/-! Coded operands: an enumeration's reader answers exactly at the enumeration's codes. -/

theorem readPred_eq_ok {v : Nat} {p : Pred} : readPred v = .ok p ↔ v = predCode p :=
  ⟨fun h => by unfold readPred at h; split at h <;> cases h <;> rfl, by rintro rfl; cases p <;> rfl⟩

theorem readWidth_eq_ok {v : Nat} {w : Width} : readWidth (v % 4) = .ok w ↔ v % 4 = widthCode w := by
  have := Nat.mod_lt v (by decide : 0 < 4)
  interval_cases v % 4 <;> cases w <;> simp [readWidth, widthCode]

theorem readRnd_eq_ok {v : Nat} {r : Rnd} : readRnd (v % 4) = .ok r ↔ v % 4 = rndCode r := by
  have := Nat.mod_lt v (by decide : 0 < 4)
  interval_cases v % 4 <;> cases r <;> simp [readRnd, rndCode]

theorem readCond_eq_ok {v : Nat} {c : Cond} : readCond v = .ok c ↔ v = condCode c :=
  ⟨fun h => by unfold readCond at h; split at h <;> cases h <;> rfl, by rintro rfl; cases c <;> rfl⟩

/-- LOGI's operation field has two bits; the reader takes any larger number as its last code. -/
theorem readLogOp_eq_ok {v : Nat} {o : LogOp} : readLogOp v = .ok o ↔ v = logOpCode o ∨ 3 < v ∧ logOpCode o = 3 := by
  rcases v with _ | _ | _ | v <;> cases o <;> simp [readLogOp, logOpCode]
  omega

theorem readScbFmt_eq_ok {v : Nat} {f : ScbFmt} : readScbFmt v = .ok f ↔ v = scbFmtCode f :=
  ⟨fun h => by unfold readScbFmt at h; split at h <;> cases h <;> rfl, by rintro rfl; cases f <;> rfl⟩

theorem readScope_eq_ok {v : Nat} {sc : Scope} : readScope v = .ok sc ↔ v = scopeCode sc :=
  ⟨fun h => by unfold readScope at h; split at h <;> cases h <;> rfl, by rintro rfl; cases sc <;> rfl⟩

theorem readSpace_eq_ok {v : Nat} {sp : Space} : readSpace v = .ok sp ↔ v = spaceCode sp :=
  ⟨fun h => by unfold readSpace at h; split at h <;> cases h <;> rfl, by rintro rfl; cases sp <;> rfl⟩

theorem readSize_eq_ok {v : Nat} {z : Size} : readSize v = .ok z ↔ v = sizeCode z :=
  ⟨fun h => by unfold readSize at h; split at h <;> cases h <;> rfl, by rintro rfl; cases z <;> rfl⟩

theorem readExt_eq_ok {v : Nat} {e : Ext} : readExt (v % 4) = .ok e ↔ v % 4 = extCode e := by
  have := Nat.mod_lt v (by decide : 0 < 4)
  interval_cases v % 4 <;> cases e <;> simp [readExt, extCode]

theorem readCntRel_eq_ok {v : Nat} {r : CntRel} : readCntRel v = .ok r ↔ v = cntRelCode r :=
  ⟨fun h => by unfold readCntRel at h; split at h <;> cases h <;> rfl, by rintro rfl; cases r <;> rfl⟩

theorem readMmaSrc_eq_ok {v : Nat} {m : MmaSrc} : readMmaSrc v = .ok m ↔ v = mmaSrcCode m :=
  ⟨fun h => by unfold readMmaSrc at h; split at h <;> cases h <;> rfl, by rintro rfl; cases m <;> rfl⟩

theorem readRedOp_eq_ok {v : Nat} {o : RedOp} : readRedOp (v % 4) = .ok o ↔ v % 4 = redOpCode o := by
  have := Nat.mod_lt v (by decide : 0 < 4)
  interval_cases v % 4 <;> cases o <;> simp [readRedOp, redOpCode]

theorem readScatOp_eq_ok {v : Nat} {o : ScatOp} : readScatOp v = .ok o ↔ v = scatOpCode o :=
  ⟨fun h => by unfold readScatOp at h; split at h <;> cases h <;> rfl, by rintro rfl; cases o <;> rfl⟩

theorem readMredOp_eq_ok {v : Nat} {o : MredOp} : readMredOp v = .ok o ↔ v = mredOpCode o :=
  ⟨fun h => by unfold readMredOp at h; split at h <;> cases h <;> rfl, by rintro rfl; cases o <;> rfl⟩

theorem readTlbExt_eq_ok {v : Nat} {e : TlbExt} : readTlbExt v = .ok e ↔ v = tlbExtCode e :=
  ⟨fun h => by unfold readTlbExt at h; split at h <;> cases h <;> rfl, by rintro rfl; cases e <;> rfl⟩

theorem readVar1_eq_ok {i : Nat} {b : Bool} : readVar1 i = .ok b ↔ i % 4 = boolCode b := by
  unfold readVar1
  constructor
  · intro h
    split at h <;> cases h <;> assumption
  · intro h
    rw [h]
    cases b <;> rfl

/-! Targets (R77). The code of slot p of instruction 127 is the code of no target, so that one target is read from no field. -/

@[simp] theorem slotCode_readSlot (v : Nat) : slotCode (readSlot (v % 4)) = v % 4 := by
  have := Nat.mod_lt v (by decide : 0 < 4)
  interval_cases v % 4 <;> rfl

@[simp] theorem readSlot_slotCode (sl : Slot) : readSlot (slotCode sl) = sl := by cases sl <;> rfl

theorem slotCode_le (sl : Slot) : slotCode sl ≤ 3 := by cases sl <;> decide

@[simp] theorem tgtCode_readTgt (v : Nat) : tgtCode (readTgt v) = v % 512 := by
  unfold readTgt
  split
  case isTrue h => exact h.symm
  case isFalse =>
    simp only [tgtCode, slotCode_readSlot, fin_val]
    omega

@[simp] theorem tgtCode_mod (t : Tgt) : tgtCode t % 512 = tgtCode t := Nat.mod_eq_of_lt (Nat.lt_succ_of_le (tgtCode_le t))

theorem tgtCheck_eq_none {t : Tgt} : tgtCheck t = none ↔ t ≠ some { slot := .p, index := 127 } := by
  simp [tgtCheck, refuse]

theorem tgtCheck_readTgt (v : Nat) : tgtCheck (readTgt v) = none := by
  rw [tgtCheck_eq_none]
  intro ht
  have hv : v % 512 = 511 := by rw [← tgtCode_readTgt, ht]; rfl
  rw [readTgt, if_pos hv] at ht
  cases ht

theorem tgtCode_ne_none {t : Target} (h : tgtCheck (some t) = none) : tgtCode (some t) ≠ tgtCode none := by
  obtain ⟨sl, x⟩ := t
  rw [tgtCheck_eq_none] at h
  intro he
  simp only [tgtCode] at he
  have := slotCode_le sl
  have hx : x = 127 := Fin.ext (by show x.val = 127; omega)
  have hs : sl = .p := by
    rw [← readSlot_slotCode sl, show slotCode sl = 3 by omega]
    rfl
  exact h (by rw [hx, hs])

theorem readTgt_tgtCode {t : Tgt} (h : tgtCheck t = none) : readTgt (tgtCode t) = t := by
  cases t with
  | none => rfl
  | some t =>
    have hne := tgtCode_ne_none h
    have := slotCode_le t.slot
    simp only [tgtCode] at hne
    have hslot : (slotCode t.slot * 128 + t.index.val) / 128 % 4 = slotCode t.slot := by omega
    have hidx : fin 128 (slotCode t.slot * 128 + t.index.val) = t.index := by rw [fin_eq]; omega
    rw [tgtCode, readTgt, hslot, hidx, readSlot_slotCode, if_neg (by omega)]

/-- A target field is read modulo its nine bits. -/
theorem readTgt_mod (v : Nat) : readTgt (v % 512) = readTgt v := by
  rw [← tgtCode_readTgt, readTgt_tgtCode (tgtCheck_readTgt v)]

theorem readTgt_eq {v : Nat} {t : Tgt} : readTgt v = t ↔ v % 512 = tgtCode t ∧ tgtCheck t = none := by
  constructor
  · rintro rfl
    exact ⟨(tgtCode_readTgt v).symm, tgtCheck_readTgt v⟩
  · rintro ⟨hv, ht⟩
    rw [← readTgt_mod, hv, readTgt_tgtCode ht]

/-! The fields that a form shares: ACQ, REL and SCOPE (R79), the D format's head (R76) and the M format's (R80). -/

theorem readOrder_eq_ok {i : Nat} {o : Order} :
    readOrder i = .ok o ↔ i / 4 % 8 = scopeCode o.scope ∧ i / 2 ^ 6 % 2 = boolCode o.acq ∧ i / 2 ^ 5 % 2 = boolCode o.rel := by
  obtain ⟨acq, rel, scope⟩ := o
  simp only [readOrder, bind_eq_ok, readScope_eq_ok, Except.ok.injEq, Order.mk.injEq, bitAt_eq, existsAndEq, and_true]

theorem readHead_eq_ok {t i : Nat} {h : DHead} :
    readHead t i = .ok h ↔ i / 16 % 4 = predCode h.pred ∧ (t % 512 = tgtCode h.t0 ∧ tgtCheck h.t0 = none) ∧
      i / 64 % 512 = tgtCode h.t1 ∧ tgtCheck h.t1 = none := by
  obtain ⟨t0, t1, pred⟩ := h
  simp only [readHead, bind_eq_ok, readPred_eq_ok, Except.ok.injEq, DHead.mk.injEq, readTgt_eq, existsAndEq, and_true]

theorem readMHead_eq {t i : Nat} {m : MHead} :
    readMHead t i = m ↔ (t % 512 = tgtCode m.t ∧ tgtCheck m.t = none) ∧ i / 512 % 64 = m.seq.val ∧ i / 2 ^ 6 % 2 = boolCode m.unord := by
  obtain ⟨tgt, seq, unord⟩ := m
  simp only [readMHead, MHead.mk.injEq, readTgt_eq, fin_eq, bitAt_eq]

theorem readMHead_t (t i : Nat) : (readMHead t i).t = readTgt t := rfl

/-- seq and UNORD, put back beside the space field, the base selector and the last four bits, make up bits [14:0] (R80). -/
theorem mheadCode_readMHead {t i : Nat} (hi : i < 2 ^ 15) :
    mheadCode (readMHead t i) + i / 128 % 4 * 128 + i / 16 % 4 * 16 + i % 16 = i := by
  simp only [mheadCode, readMHead, boolCode_bitAt, fin_val]
  omega

/-! ### What decodes encodes back, group by group

In each column of the opcode map the decoder's answer fixes the code of every field that it read; its word is then the sum of the
fields, put back at their places. -/

theorem okHas_bind_iff {α β : Type} {P : β → Prop} {x : Except BadWord α} {f : α → Except BadWord β} :
    OkHas P (x >>= f) ↔ ∀ a, x = .ok a → OkHas P (f a) := by
  cases x <;> simp [OkHas, bind, Except.bind]

theorem okHas_ok {α : Type} {P : α → Prop} {x : α} : OkHas P (.ok x) ↔ P x := Iff.rfl

theorem okHas_error {α : Type} {P : α → Prop} {e : BadWord} : OkHas P (.error e) ↔ True := Iff.rfl

theorem encode_of_fields {x : Instr} {op t i t' i' : Nat} (he : encode x = some (word op t' i')) (h : t' = t ∧ i' = i) :
    encode x = some (word op t i) := by
  rw [he, h.1, h.2]

theorem encode_decodeGroup0 {c t i : Nat} (hc : c < 16) (ht : t < 512) (hi : i < 2 ^ 15) :
    OkHas (fun x => encode x = some (word (0x00 + c) t i)) (decodeGroup0 c t i) := by
  interval_cases c
  all_goals
    simp only [decodeGroup0, okHas_bind_iff, okHas_ok, okHas_error, fixed_eq_ok, readPred_eq_ok, readHead_eq_ok]
  all_goals
    intros
    refine encode_of_fields rfl ?_
  all_goals
    grind only [headCode, tgtCode_readTgt, fin_val]

theorem encode_decodeGroup1 {c t i : Nat} (hc : c < 16) (ht : t < 512) (hi : i < 2 ^ 15) :
    OkHas (fun x => encode x = some (word (0x10 + c) t i)) (decodeGroup1 c t i) := by
  interval_cases c
  all_goals
    simp only [decodeGroup1, okHas_bind_iff, okHas_ok, fixed_eq_ok, readWidth_eq_ok, readHead_eq_ok]
  all_goals
    intros
    refine encode_of_fields rfl ?_
  all_goals
    grind only [headCode, boolCode_bitAt, tgtCode_readTgt, BitVec.toNat_ofNat]

theorem encode_decodeGroup2 {c t i : Nat} (hc : c < 16) (ht : t < 512) (hi : i < 2 ^ 15) :
    OkHas (fun x => encode x = some (word (0x20 + c) t i)) (decodeGroup2 c t i) := by
  interval_cases c
  all_goals
    simp only [decodeGroup2, okHas_bind_iff, okHas_ok, fixed_eq_ok, readWidth_eq_ok, readCond_eq_ok, readLogOp_eq_ok, readHead_eq_ok]
  all_goals
    intros
    refine encode_of_fields rfl ?_
  all_goals
    grind only [headCode, boolCode_bitAt, tgtCode_readTgt, BitVec.toNat_ofNat]

theorem encode_decodeGroup3 {c t i : Nat} (hc : c < 16) (ht : t < 512) (hi : i < 2 ^ 15) :
    OkHas (fun x => encode x = some (word (0x30 + c) t i)) (decodeGroup3 c t i) := by
  interval_cases c
  all_goals
    simp only [decodeGroup3, okHas_bind_iff, okHas_ok, fixed_eq_ok, readRnd_eq_ok, readCond_eq_ok, readHead_eq_ok]
  all_goals
    intros
    refine encode_of_fields rfl ?_
  all_goals
    grind only [headCode]

theorem encode_decodeGroup4 {c t i : Nat} (hc : c < 16) (ht : t < 512) (hi : i < 2 ^ 15) :
    OkHas (fun x => encode x = some (word (0x40 + c) t i)) (decodeGroup4 c t i) := by
  interval_cases c
  all_goals
    simp only [decodeGroup4, okHas_bind_iff, okHas_ok, okHas_error, fixed_eq_ok, readWidth_eq_ok, readRnd_eq_ok, readScbFmt_eq_ok,
      readHead_eq_ok]
  all_goals
    intros
    refine encode_of_fields rfl ?_
  all_goals
    grind only [headCode, boolCode_bitAt, tgtCode_readTgt, BitVec.toNat_ofNat, fin_val]

theorem encode_decodeGroup5 {c t i : Nat} (hc : c < 16) (ht : t < 512) (hi : i < 2 ^ 15) :
    OkHas (fun x => encode x = some (word (0x50 + c) t i)) (decodeGroup5 c t i) := by
  interval_cases c
  all_goals
    simp only [decodeGroup5, okHas_bind_iff, okHas_ok, okHas_error, fixed_eq_ok, readOrder_eq_ok, readSpace_eq_ok, readSize_eq_ok,
      readExt_eq_ok, readVar1_eq_ok]
  all_goals
    intros
    refine encode_of_fields rfl ?_
  all_goals
    grind only [readMHead_t, orderCode, boolCode_bitAt, tgtCode_readTgt, fin_val, mheadCode_readMHead]

theorem encode_decodeGroup6 {c t i : Nat} (hc : c < 16) (ht : t < 512) (hi : i < 2 ^ 15) :
    OkHas (fun x => encode x = some (word (0x60 + c) t i)) (decodeGroup6 c t i) := by
  interval_cases c
  all_goals
    simp only [decodeGroup6, okHas_bind_iff, okHas_ok, okHas_error, fixed_eq_ok, readPred_eq_ok, readScope_eq_ok, readOrder_eq_ok,
      readSpace_eq_ok, readCntRel_eq_ok, readHead_eq_ok]
  all_goals
    intros
    refine encode_of_fields rfl ?_
  all_goals
    grind only [headCode, readMHead_t, orderCode, boolCode_bitAt, tgtCode_readTgt, fin_val, mheadCode_readMHead]

theorem encode_decodeGroup7 {c t i : Nat} (hc : c < 16) (ht : t < 512) (hi : i < 2 ^ 15) :
    OkHas (fun x => encode x = some (word (0x70 + c) t i)) (decodeGroup7 c t i) := by
  interval_cases c
  all_goals
    simp only [decodeGroup7, okHas_bind_iff, okHas_ok, okHas_error, fixed_eq_ok, readOrder_eq_ok, readSpace_eq_ok, readExt_eq_ok,
      readVar1_eq_ok]
  all_goals
    intros
    refine encode_of_fields rfl ?_
  all_goals
    grind only [readMHead_t, orderCode, boolCode_bitAt, tgtCode_readTgt, fin_val, mheadCode_readMHead]

theorem encode_decodeGroup8 {c t i : Nat} (hc : c < 16) (ht : t < 512) (hi : i < 2 ^ 15) :
    OkHas (fun x => encode x = some (word (0x80 + c) t i)) (decodeGroup8 c t i) := by
  interval_cases c
  all_goals
    simp only [decodeGroup8, okHas_bind_iff, okHas_ok, okHas_error, fixed_eq_ok, readRnd_eq_ok, readMmaSrc_eq_ok, readHead_eq_ok]
  all_goals
    intros
    refine encode_of_fields rfl ?_
  all_goals
    grind only [headCode, boolCode_bitAt, tgtCode_readTgt, fin_val]

theorem encode_decodeGroup9 {c t i : Nat} (hc : c < 16) (ht : t < 512) (hi : i < 2 ^ 15) :
    OkHas (fun x => encode x = some (word (0x90 + c) t i)) (decodeGroup9 c t i) := by
  interval_cases c
  all_goals
    simp only [decodeGroup9, okHas_bind_iff, okHas_ok, fixed_eq_ok, readCond_eq_ok, readRedOp_eq_ok]
  all_goals
    intros
    refine encode_of_fields rfl ?_
  all_goals
    grind only [boolCode_bitAt, tgtCode_readTgt, fin_val]

theorem encode_decodeGroupA {c t i : Nat} (hc : c < 16) (ht : t < 512) (hi : i < 2 ^ 15) :
    OkHas (fun x => encode x = some (word (0xA0 + c) t i)) (decodeGroupA c t i) := by
  interval_cases c
  all_goals
    simp only [decodeGroupA, okHas_bind_iff, okHas_ok, okHas_error, fixed_eq_ok, readOrder_eq_ok, readScatOp_eq_ok, readVar1_eq_ok,
      readFin_eq_ok]
  all_goals
    intros
    refine encode_of_fields rfl ?_
  all_goals
    grind only [orderCode, tgtCode_readTgt, fin_val]

theorem encode_decodeGroupB {c t i : Nat} (hc : c < 16) (ht : t < 512) (hi : i < 2 ^ 15) :
    OkHas (fun x => encode x = some (word (0xB0 + c) t i)) (decodeGroupB c t i) := by
  interval_cases c
  all_goals
    simp only [decodeGroupB, okHas_bind_iff, okHas_ok, okHas_error, fixed_eq_ok, readPred_eq_ok, readVar1_eq_ok]
  all_goals
    intros
    refine encode_of_fields rfl ?_
  all_goals
    grind only [boolCode_bitAt, tgtCode_readTgt, fin_val]

theorem encode_decodeGroupC {c t i : Nat} (hc : c < 16) (ht : t < 512) (hi : i < 2 ^ 15) :
    OkHas (fun x => encode x = some (word (0xC0 + c) t i)) (decodeGroupC c t i) := by
  interval_cases c
  all_goals
    simp only [decodeGroupC, okHas_bind_iff, okHas_ok, okHas_error, fixed_eq_ok, readOrder_eq_ok, readMredOp_eq_ok, readVar1_eq_ok]
  all_goals
    intros
    refine encode_of_fields rfl ?_
  all_goals
    grind only [readMHead_t, orderCode, boolCode_bitAt, tgtCode_readTgt, fin_val, mheadCode_readMHead]

theorem encode_decodeGroupD {c t i : Nat} (hc : c < 16) (ht : t < 512) (hi : i < 2 ^ 15) :
    OkHas (fun x => encode x = some (word (0xD0 + c) t i)) (decodeGroupD c t i) := by
  interval_cases c
  all_goals
    simp only [decodeGroupD, okHas_bind_iff, okHas_ok, okHas_error, fixed_eq_ok, readOrder_eq_ok, readVar1_eq_ok, readFin_eq_ok]
  all_goals
    intros
    refine encode_of_fields rfl ?_
  all_goals
    grind only [orderCode, boolCode_bitAt, tgtCode_readTgt, fin_val]

theorem encode_decodeGroupE {c t i : Nat} (hc : c < 16) (ht : t < 512) (hi : i < 2 ^ 15) :
    OkHas (fun x => encode x = some (word (0xE0 + c) t i)) (decodeGroupE c t i) := by
  interval_cases c
  all_goals
    simp only [decodeGroupE, okHas_bind_iff, okHas_ok, okHas_error, fixed_eq_ok, readScope_eq_ok, readTlbExt_eq_ok, readVar1_eq_ok]
  all_goals
    intros
    refine encode_of_fields rfl ?_
  all_goals
    grind only [readMHead_t, boolCode_bitAt, tgtCode_readTgt, BitVec.toNat_ofNat, fin_val, mheadCode_readMHead]

theorem encode_decodeGroupF {c t i : Nat} (hc : c < 16) (ht : t < 512) (hi : i < 2 ^ 15) :
    OkHas (fun x => encode x = some (word (0xF0 + c) t i)) (decodeGroupF c t i) := by
  interval_cases c
  all_goals
    simp only [decodeGroupF, okHas_bind_iff, okHas_ok, okHas_error, fixed_eq_ok, readVar1_eq_ok]
  all_goals
    intros
    refine encode_of_fields rfl ?_
  all_goals
    grind only [tgtCode_readTgt, fin_val]

/-- A word's four parts (R76) decode to an instruction that has those parts. -/
theorem encode_decodeFields {g c t i : Nat} (hg : g < 16) (hc : c < 16) (ht : t < 512) (hi : i < 2 ^ 15) :
    OkHas (fun x => encode x = some (word (16 * g + c) t i)) (decodeFields g c t i) := by
  interval_cases g
  exacts [encode_decodeGroup0 hc ht hi, encode_decodeGroup1 hc ht hi, encode_decodeGroup2 hc ht hi, encode_decodeGroup3 hc ht hi,
    encode_decodeGroup4 hc ht hi, encode_decodeGroup5 hc ht hi, encode_decodeGroup6 hc ht hi, encode_decodeGroup7 hc ht hi,
    encode_decodeGroup8 hc ht hi, encode_decodeGroup9 hc ht hi, encode_decodeGroupA hc ht hi, encode_decodeGroupB hc ht hi,
    encode_decodeGroupC hc ht hi, encode_decodeGroupD hc ht hi, encode_decodeGroupE hc ht hi, encode_decodeGroupF hc ht hi]

theorem word_of_parts {w : Nat} : word (16 * (w / 2 ^ 28) + w / 2 ^ 24 % 16) (w / 2 ^ 15 % 512) (w % 2 ^ 15) = w := by
  unfold word
  omega

/-- A word that decodes is the word of what it decodes to. -/
theorem encode_of_decodeWord {w : Nat} {x : Instr} (hw : w < 2 ^ 32) (hd : decodeWord w = .ok x) : encode x = some w := by
  have he := encode_decodeFields (g := w / 2 ^ 28) (c := w / 2 ^ 24 % 16) (t := w / 2 ^ 15 % 512) (i := w % 2 ^ 15)
    (by omega) (by omega) (by omega) (by omega)
  rw [decodeWord] at hd
  rwa [hd, okHas_ok, word_of_parts] at he

/-! ### What is encoded decodes, group by group

A check that passes leaves targets that a word can name (R77). The readers then ask, of each field of the instruction's word, for the
operand's code: a quotient and a remainder of the sum that the encoder forms, with every code below the size of its field. -/

theorem firstOf_nil : firstOf [] = none := rfl

theorem firstOf_cons_eq_none {c : Option IllFormed} {cs : List (Option IllFormed)} : firstOf (c :: cs) = none ↔ c = none ∧ firstOf cs = none := by
  cases c <;> simp [firstOf]

/-- The word of an instruction has parts (R76) that decode to it. -/
def DecodesBack (x : Instr) : Prop :=
  ∃ op t i, encode x = some (word op t i) ∧ op < 256 ∧ t < 512 ∧ i < 2 ^ 15 ∧ decodeFields (op / 16) (op % 16) t i = .ok x

theorem decodesBack_of_fields {x : Instr} {op t i : Nat} (he : encode x = some (word op t i)) (hop : op < 256)
    (h : t < 512 ∧ i < 2 ^ 15 ∧ decodeFields (op / 16) (op % 16) t i = .ok x) : DecodesBack x :=
  ⟨op, t, i, he, hop, h⟩

theorem decodesBack_groups0to3 {x : Instr} {g : Nat} (hg : groupOf x = some g) (hq : g / 4 = 0) (hx : x.check = none) : DecodesBack x := by
  cases x with
  | mov | fank | steer | merge | gate | mark | rankq | strip | count | getw | putw | const | nextb | halt | drop =>
    unfold Instr.check at hx
    simp only [firstOf_cons_eq_none, firstOf_nil, Sys2Proof.headCheck] at hx
    refine decodesBack_of_fields rfl (by decide) ?_
    simp only [hx, decodeFields, decodeGroup0, bind_eq_ok, Except.ok.injEq, fixed_eq_ok, readPred_eq_ok, readHead_eq_ok, readTgt_eq,
      fin_eq, Instr.mov.injEq, Instr.fank.injEq, Instr.steer.injEq, Instr.merge.injEq, Instr.gate.injEq, Instr.mark.injEq,
      Instr.rankq.injEq, Instr.strip.injEq, Instr.count.injEq, Instr.getw.injEq, Instr.putw.injEq, Instr.const.injEq,
      Instr.nextb.injEq, Instr.halt.injEq, Instr.drop.injEq, tgtCode_mod, exists_const, existsAndEq, and_true, true_and, headCode]
    grind only [tgtCode_le, predCode_le]
  | add | sub | addi | mul | mulh | mad | div | rem | min | max | abs | neg | clamp | addc | muli | dot4 =>
    unfold Instr.check at hx
    simp only [firstOf_cons_eq_none, firstOf_nil, Sys2Proof.headCheck] at hx
    refine decodesBack_of_fields rfl (by decide) ?_
    simp only [hx, decodeFields, decodeGroup1, bind_eq_ok, Except.ok.injEq, fixed_eq_ok, readWidth_eq_ok, readHead_eq_ok, readTgt_eq,
      bitAt_eq, bitVec_ofNat_eq, Instr.add.injEq, Instr.sub.injEq, Instr.addi.injEq, Instr.mul.injEq, Instr.mulh.injEq,
      Instr.mad.injEq, Instr.div.injEq, Instr.rem.injEq, Instr.min.injEq, Instr.max.injEq, Instr.abs.injEq, Instr.neg.injEq,
      Instr.clamp.injEq, Instr.addc.injEq, Instr.muli.injEq, Instr.dot4.injEq, tgtCode_mod, exists_const, existsAndEq, and_true,
      true_and, headCode]
    grind only [tgtCode_le, predCode_le, boolCode_le, widthCode_le, bitVec_toNat_le]
  | and | or | xor | andn | shl | shr | rot | clz | popc | bfx | bfi | cmp | cmpi | sel | logi | tstb =>
    unfold Instr.check at hx
    simp only [firstOf_cons_eq_none, firstOf_nil, Sys2Proof.headCheck] at hx
    refine decodesBack_of_fields rfl (by decide) ?_
    simp only [hx, decodeFields, decodeGroup2, bind_eq_ok, Except.ok.injEq, fixed_eq_ok, readWidth_eq_ok, readCond_eq_ok,
      readLogOp_eq_ok, readHead_eq_ok, readTgt_eq, bitAt_eq, bitVec_ofNat_eq, Instr.and.injEq, Instr.or.injEq, Instr.xor.injEq,
      Instr.andn.injEq, Instr.shl.injEq, Instr.shr.injEq, Instr.rot.injEq, Instr.clz.injEq, Instr.popc.injEq, Instr.bfx.injEq,
      Instr.bfi.injEq, Instr.cmp.injEq, Instr.cmpi.injEq, Instr.sel.injEq, Instr.logi.injEq, Instr.tstb.injEq, tgtCode_mod,
      exists_const, existsAndEq, and_true, true_and, headCode]
    grind only [tgtCode_le, predCode_le, boolCode_le, widthCode_le, condCode_le, logOpCode_le, bitVec_toNat_le]
  | fadd | fsub | fmul | ffma | fmin | fmax | fneg | fcmp | fdiv | fsqrt | frsqe | frcpe | fclass | fexp2e | flog2e | fscl =>
    unfold Instr.check at hx
    simp only [firstOf_cons_eq_none, firstOf_nil, Sys2Proof.headCheck] at hx
    refine decodesBack_of_fields rfl (by decide) ?_
    simp only [hx, decodeFields, decodeGroup3, bind_eq_ok, Except.ok.injEq, fixed_eq_ok, readRnd_eq_ok, readCond_eq_ok, readHead_eq_ok,
      Instr.fadd.injEq, Instr.fsub.injEq, Instr.fmul.injEq, Instr.ffma.injEq, Instr.fmin.injEq, Instr.fmax.injEq, Instr.fneg.injEq,
      Instr.fcmp.injEq, Instr.fdiv.injEq, Instr.fsqrt.injEq, Instr.frsqe.injEq, Instr.frcpe.injEq, Instr.fclass.injEq,
      Instr.fexp2e.injEq, Instr.flog2e.injEq, Instr.fscl.injEq, tgtCode_mod, exists_const, existsAndEq, and_true, true_and, headCode]
    grind only [tgtCode_le, predCode_le, rndCode_le, condCode_le]
  | _ => cases hg <;> exact absurd hq (by decide)

theorem decodesBack_groups4to7 {x : Instr} {g : Nat} (hg : groupOf x = some g) (hq : g / 4 = 1) (hx : x.check = none) : DecodesBack x := by
  cases x with
  | cvtif | cvtfi | cvtfh | cvthf | cvtf8 | cvt8f | ldi | ldhi | pack | unpk | q4e | q4d | scb | scd | desc =>
    unfold Instr.check at hx
    simp only [firstOf_cons_eq_none, firstOf_nil, Sys2Proof.headCheck] at hx
    refine decodesBack_of_fields rfl (by decide) ?_
    simp only [hx, decodeFields, decodeGroup4, bind_eq_ok, Except.ok.injEq, fixed_eq_ok, readWidth_eq_ok, readRnd_eq_ok,
      readScbFmt_eq_ok, readHead_eq_ok, readTgt_eq, bitAt_eq, fin_eq, bitVec_ofNat_eq, Instr.cvtif.injEq, Instr.cvtfi.injEq,
      Instr.cvtfh.injEq, Instr.cvthf.injEq, Instr.cvtf8.injEq, Instr.cvt8f.injEq, Instr.ldi.injEq, Instr.ldhi.injEq, Instr.pack.injEq,
      Instr.unpk.injEq, Instr.q4e.injEq, Instr.q4d.injEq, Instr.scb.injEq, Instr.scd.injEq, Instr.desc.injEq, tgtCode_mod,
      exists_const, existsAndEq, and_true, true_and, headCode]
    grind only [tgtCode_le, predCode_le, boolCode_le, widthCode_le, rndCode_le, scbFmtCode_le, bitVec_toNat_le]
  | lds | sts | ldb | stb | agen | agcfg | ld | st | ldx | pref =>
    unfold Instr.check at hx
    simp only [firstOf_cons_eq_none, firstOf_nil] at hx
    refine decodesBack_of_fields rfl (by decide) ?_
    simp only [hx, decodeFields, decodeGroup5, bind_eq_ok, Except.ok.injEq, fixed_eq_ok, readOrder_eq_ok, readSpace_eq_ok,
      readSize_eq_ok, readExt_eq_ok, readVar1_eq_ok, readTgt_eq, readMHead_eq, bitAt_eq, fin_eq, Instr.lds.injEq, Instr.sts.injEq,
      Instr.ldb.injEq, Instr.stb.injEq, Instr.agen.injEq, Instr.agcfg.injEq, Instr.ld.injEq, Instr.st.injEq, Instr.ldx.injEq,
      Instr.pref.injEq, tgtCode_mod, exists_const, existsAndEq, and_true, true_and, mheadCode, orderCode]
    grind only [tgtCode_le, boolCode_le, scopeCode_le, spaceCode_le, sizeCode_le, extCode_le]
  | atom | cas | tas | fence | phase | bar | arrv | bwait | waitge | cntadd | osend | orecv =>
    unfold Instr.check at hx
    simp only [firstOf_cons_eq_none, firstOf_nil, Sys2Proof.headCheck] at hx
    refine decodesBack_of_fields rfl (by decide) ?_
    simp only [hx, decodeFields, decodeGroup6, bind_eq_ok, Except.ok.injEq, fixed_eq_ok, readPred_eq_ok, readScope_eq_ok,
      readOrder_eq_ok, readSpace_eq_ok, readCntRel_eq_ok, readHead_eq_ok, readTgt_eq, readMHead_eq, bitAt_eq, fin_eq, Instr.atom.injEq,
      Instr.cas.injEq, Instr.tas.injEq, Instr.fence.injEq, Instr.phase.injEq, Instr.bar.injEq, Instr.arrv.injEq, Instr.bwait.injEq,
      Instr.waitge.injEq, Instr.cntadd.injEq, Instr.osend.injEq, Instr.orecv.injEq, tgtCode_mod, exists_const, existsAndEq, and_true,
      true_and, headCode, mheadCode, orderCode]
    grind only [tgtCode_le, predCode_le, boolCode_le, scopeCode_le, spaceCode_le, cntRelCode_le]
  | split | bobdef | bwf | bwe | badv | tstat | tset | cflush | cwb | cinv | pin | unpin | mapw | unmapw =>
    unfold Instr.check at hx
    simp only [firstOf_cons_eq_none, firstOf_nil] at hx
    refine decodesBack_of_fields rfl (by decide) ?_
    simp only [hx, decodeFields, decodeGroup7, bind_eq_ok, Except.ok.injEq, fixed_eq_ok, readOrder_eq_ok, readSpace_eq_ok,
      readExt_eq_ok, readVar1_eq_ok, readTgt_eq, readMHead_eq, bitAt_eq, fin_eq, Instr.split.injEq, Instr.bobdef.injEq,
      Instr.bwf.injEq, Instr.bwe.injEq, Instr.badv.injEq, Instr.tstat.injEq, Instr.tset.injEq, Instr.cflush.injEq, Instr.cwb.injEq,
      Instr.cinv.injEq, Instr.pin.injEq, Instr.unpin.injEq, Instr.mapw.injEq, Instr.unmapw.injEq, tgtCode_mod, exists_const,
      existsAndEq, and_true, true_and, mheadCode, orderCode]
    grind only [tgtCode_le, boolCode_le, scopeCode_le, spaceCode_le, extCode_le]
  | _ => cases hg <;> exact absurd hq (by decide)

theorem decodesBack_groups8toB {x : Instr} {g : Nat} (hg : groupOf x = some g) (hq : g / 4 = 2) (hx : x.check = none) : DecodesBack x := by
  cases x with
  | fuse | unfuse | wload | wswap | mma | mmao | accz | accrd | accdr | accsv | accrs | edly | skewc | seaq =>
    unfold Instr.check at hx
    simp only [firstOf_cons_eq_none, firstOf_nil, Sys2Proof.headCheck] at hx
    refine decodesBack_of_fields rfl (by decide) ?_
    simp only [hx, decodeFields, decodeGroup8, bind_eq_ok, Except.ok.injEq, fixed_eq_ok, readRnd_eq_ok, readMmaSrc_eq_ok,
      readHead_eq_ok, readTgt_eq, bitAt_eq, fin_eq, Instr.fuse.injEq, Instr.unfuse.injEq, Instr.wload.injEq, Instr.wswap.injEq,
      Instr.mma.injEq, Instr.mmao.injEq, Instr.accz.injEq, Instr.accrd.injEq, Instr.accdr.injEq, Instr.accsv.injEq, Instr.accrs.injEq,
      Instr.edly.injEq, Instr.skewc.injEq, Instr.seaq.injEq, tgtCode_mod, exists_const, existsAndEq, and_true, true_and, headCode]
    grind only [tgtCode_le, predCode_le, boolCode_le, rndCode_le, mmaSrcCode_le]
  | vadd | vsub | vmul | vfma | vmin | vmax | vcmp | vsel | vcvt | vred | vexp2 | vrsq | vrcp | vperm | vbcst | vqnt =>
    unfold Instr.check at hx
    simp only [firstOf_cons_eq_none, firstOf_nil] at hx
    refine decodesBack_of_fields rfl (by decide) ?_
    simp only [hx, decodeFields, decodeGroup9, bind_eq_ok, Except.ok.injEq, fixed_eq_ok, readCond_eq_ok, readRedOp_eq_ok, readTgt_eq,
      bitAt_eq, fin_eq, Instr.vadd.injEq, Instr.vsub.injEq, Instr.vmul.injEq, Instr.vfma.injEq, Instr.vmin.injEq, Instr.vmax.injEq,
      Instr.vcmp.injEq, Instr.vsel.injEq, Instr.vcvt.injEq, Instr.vred.injEq, Instr.vexp2.injEq, Instr.vrsq.injEq, Instr.vrcp.injEq,
      Instr.vperm.injEq, Instr.vbcst.injEq, Instr.vqnt.injEq, tgtCode_mod, exists_const, existsAndEq, and_true, true_and]
    grind only [tgtCode_le, boolCode_le, condCode_le, redOpCode_le]
  | copy | gath | scat | mcast | xconv | relay | free | xstat =>
    unfold Instr.check at hx
    refine decodesBack_of_fields rfl (by decide) ?_
    simp only [hx, decodeFields, decodeGroupA, bind_eq_ok, Except.ok.injEq, fixed_eq_ok, readOrder_eq_ok, readScatOp_eq_ok,
      readVar1_eq_ok, readFin_eq_ok, readTgt_eq, fin_eq, Instr.copy.injEq, Instr.gath.injEq, Instr.scat.injEq, Instr.mcast.injEq,
      Instr.xconv.injEq, Instr.relay.injEq, Instr.free.injEq, Instr.xstat.injEq, tgtCode_mod, exists_const, existsAndEq, and_true,
      true_and, orderCode]
    grind only [tgtCode_le, boolCode_le, scopeCode_le, scatOpCode_le]
  | chopen | push | pop | pushb | popb | peek | chend | chstat | chgrow | chdef | chfree =>
    unfold Instr.check at hx
    refine decodesBack_of_fields rfl (by decide) ?_
    simp only [hx, decodeFields, decodeGroupB, bind_eq_ok, Except.ok.injEq, fixed_eq_ok, readPred_eq_ok, readVar1_eq_ok, readTgt_eq,
      bitAt_eq, fin_eq, Instr.chopen.injEq, Instr.push.injEq, Instr.pop.injEq, Instr.pushb.injEq, Instr.popb.injEq, Instr.peek.injEq,
      Instr.chend.injEq, Instr.chstat.injEq, Instr.chgrow.injEq, Instr.chdef.injEq, Instr.chfree.injEq, tgtCode_mod, exists_const,
      existsAndEq, and_true, true_and]
    grind only [tgtCode_le, predCode_le, boolCode_le]
  | _ => cases hg <;> exact absurd hq (by decide)

theorem decodesBack_groupsCtoF {x : Instr} {g : Nat} (hg : groupOf x = some g) (hq : g / 4 = 3) (hx : x.check = none) : DecodesBack x := by
  cases x with
  | matom | mcas | mtas | mred | mcnt | framem =>
    unfold Instr.check at hx
    refine decodesBack_of_fields rfl (by decide) ?_
    simp only [hx, decodeFields, decodeGroupC, bind_eq_ok, Except.ok.injEq, fixed_eq_ok, readOrder_eq_ok, readMredOp_eq_ok,
      readVar1_eq_ok, readTgt_eq, readMHead_eq, bitAt_eq, fin_eq, Instr.matom.injEq, Instr.mcas.injEq, Instr.mtas.injEq,
      Instr.mred.injEq, Instr.mcnt.injEq, Instr.framem.injEq, tgtCode_mod, exists_const, existsAndEq, and_true, true_and, mheadCode,
      orderCode]
    grind only [tgtCode_le, boolCode_le, scopeCode_le, mredOpCode_le]
  | launch | nodeq | yieldN | pwrq =>
    unfold Instr.check at hx
    refine decodesBack_of_fields rfl (by decide) ?_
    simp only [hx, decodeFields, decodeGroupD, bind_eq_ok, Except.ok.injEq, fixed_eq_ok, readOrder_eq_ok, readVar1_eq_ok,
      readFin_eq_ok, readTgt_eq, bitAt_eq, fin_eq, Instr.launch.injEq, Instr.nodeq.injEq, Instr.yieldN.injEq, Instr.pwrq.injEq,
      tgtCode_mod, exists_const, existsAndEq, and_true, true_and, orderCode]
    grind only [tgtCode_le, boolCode_le, scopeCode_le]
  | trap | rte | csrrd | csrwr | tlbi | wfe | jmpb | callb | retb | tqpost | tqack | sigchk | fwswap =>
    unfold Instr.check at hx
    simp only [firstOf_cons_eq_none, firstOf_nil] at hx
    refine decodesBack_of_fields rfl (by decide) ?_
    simp only [hx, decodeFields, decodeGroupE, bind_eq_ok, Except.ok.injEq, fixed_eq_ok, readScope_eq_ok, readTlbExt_eq_ok,
      readVar1_eq_ok, readTgt_eq, readMHead_eq, bitAt_eq, fin_eq, bitVec_ofNat_eq, Instr.trap.injEq, Instr.rte.injEq,
      Instr.csrrd.injEq, Instr.csrwr.injEq, Instr.tlbi.injEq, Instr.wfe.injEq, Instr.jmpb.injEq, Instr.callb.injEq, Instr.retb.injEq,
      Instr.tqpost.injEq, Instr.tqack.injEq, Instr.sigchk.injEq, Instr.fwswap.injEq, tgtCode_mod, exists_const, existsAndEq, and_true,
      true_and, mheadCode]
    grind only [tgtCode_le, boolCode_le, scopeCode_le, tlbExtCode_le, bitVec_toNat_le]
  | mcread | ecntr | einj | binset | retest | bypass | flddrain | fldadmit =>
    unfold Instr.check at hx
    simp only [firstOf_cons_eq_none, firstOf_nil] at hx
    refine decodesBack_of_fields rfl (by decide) ?_
    simp only [hx, decodeFields, decodeGroupF, bind_eq_ok, Except.ok.injEq, fixed_eq_ok, readVar1_eq_ok, readTgt_eq, fin_eq,
      Instr.mcread.injEq, Instr.ecntr.injEq, Instr.einj.injEq, Instr.binset.injEq, Instr.retest.injEq, Instr.bypass.injEq,
      Instr.flddrain.injEq, Instr.fldadmit.injEq, tgtCode_mod, exists_const, existsAndEq, and_true, true_and]
    grind only [tgtCode_le, boolCode_le]
  | _ => cases hg <;> exact absurd hq (by decide)

/-- An instruction that has a word stands in one of the sixteen groups (R83). -/
theorem groupOf_of_encode {x : Instr} {w : Nat} (he : encode x = some w) : ∃ g < 16, groupOf x = some g := by
  cases hg : groupOf x with
  | none => cases x <;> cases hg <;> cases he
  | some g => exact ⟨g, by cases x <;> cases hg <;> decide, rfl⟩

theorem decodesBack_of_encode {x : Instr} {w : Nat} (hx : x.check = none) (he : encode x = some w) : DecodesBack x := by
  obtain ⟨g, hlt, hg⟩ := groupOf_of_encode he
  obtain hq | hq | hq | hq : g / 4 = 0 ∨ g / 4 = 1 ∨ g / 4 = 2 ∨ g / 4 = 3 := by omega
  exacts [decodesBack_groups0to3 hg hq hx, decodesBack_groups4to7 hg hq hx, decodesBack_groups8toB hg hq hx, decodesBack_groupsCtoF hg hq hx]

theorem decodeWord_word {op t i : Nat} (ht : t < 512) (hi : i < 2 ^ 15) :
    decodeWord (word op t i) = decodeFields (op / 16) (op % 16) t i := by
  have hgroup : word op t i / 2 ^ 28 = op / 16 := by unfold word; omega
  have hcolumn : word op t i / 2 ^ 24 % 16 = op % 16 := by unfold word; omega
  have htgt : word op t i / 2 ^ 15 % 512 = t := by unfold word; omega
  have himm : word op t i % 2 ^ 15 = i := by unfold word; omega
  rw [decodeWord, hgroup, hcolumn, htgt, himm]

/-- The word of a well-formed instruction has 32 bits and decodes to the instruction. -/
theorem decodeWord_of_encode {x : Instr} {w : Nat} (hx : x.wellFormed = true) (he : encode x = some w) :
    w < 2 ^ 32 ∧ decodeWord w = .ok x := by
  obtain ⟨op, t, i, hword, hop, ht, hi, hdec⟩ := decodesBack_of_encode (Option.isNone_iff_eq_none.1 hx) he
  obtain rfl : w = word op t i := Option.some.inj (he.symm.trans hword)
  exact ⟨by unfold word; omega, by rw [decodeWord_word ht hi, hdec]⟩

/-! ### The statements -/

/-- Settles O60: both directions group by group, each field of a word being read as the operand whose code it holds. -/
theorem encodingsRoundTrip : Obligations.EncodingsRoundTrip :=
  ⟨fun _ _ hx he => decodeWord_of_encode hx he, fun _ _ hw hd => encode_of_decodeWord hw hd⟩

theorem natOfBytes_wordBytes {w : Nat} (hw : w < 2 ^ 32) : natOfBytes (wordBytes w) = w := by
  simp only [natOfBytes, wordBytes, BitVec.toNat_ofNat]
  omega

/-- The bytes of a well-formed instruction's word decode to the instruction, and leave no byte over. -/
theorem decodeBytes_of_encode {x : Instr} {w : Nat} (hx : x.wellFormed = true) (he : encode x = some w) :
    decodeBytes (wordBytes w) = .ok (x, []) := by
  obtain ⟨hw, hd⟩ := decodeWord_of_encode hx he
  change (decodeWord (natOfBytes (wordBytes w))).map (·, []) = _
  rw [natOfBytes_wordBytes hw, hd]
  rfl

/-- Settles O59: of a legal word it is enough that its instruction is well-formed and encodes to it; the words of no instruction
are run. -/
theorem decodeWords : Obligations.DecodeWords := by
  unfold Obligations.DecodeWords
  intro a h words
  have hwords : ∀ p ∈ words, p.2.wellFormed = true ∧ encode p.2 = some p.1 := by decide
  have hbase : (decodeWord 0x560286A6).toOption.all (fun x => !x.wellFormed) = true := by decide
  refine ⟨fun p hp => ?_, by decide, fun i hi => ?_⟩
  · obtain ⟨hwf, he⟩ := hwords p hp
    exact ⟨decodeBytes_of_encode hwf he, hwf, he⟩
  · rw [hi] at hbase
    simpa using hbase

end Sys2Proof.Machine

/-! PROOFS. O1, O3, O4, O5: what the firings of groups 0x0 to 0x4 give. -/

namespace Sys2Proof.Machine

/-! ### The operand forms (R131, R134, R148) -/

/-- An instruction whose one firing takes and joins the slots `sl`, and which nothing holds back. -/
theorem fires_one {i : Instr} {f : Firing} {sl : List Slot} {tg : List Target} {p : Pred} {eff : State → Env → Operands → State}
    {out : Env → Operands → List (Target × Token)} (hx : ∀ s, exec i s = runUnit s (fun _ => f))
    (hf : f.slots = sl ∧ f.joins = sl ∧ f.tgts = tg ∧ f.pred = p) (hi : f.mem = false ∧ f.cmd = false ∧ ∀ s, f.shut s = false)
    (hb : ∀ s e, f.body s e (operands e.u) = .emit (eff s e (operands e.u)) (out e (operands e.u))) : Fires i free sl tg p eff out := by
  obtain ⟨rfl, hj, rfl, rfl⟩ := hf
  exact fires_of hx (fun s _ => issue_free (hi.2.2 s) hi.1 hi.2.1) (fun _ => rfl) (fun _ => hj ▸ List.Subset.refl _) (fun _ => rfl)
    (fun _ => rfl) hb

theorem givesWord_of {i : Instr} {sl : List Slot} {h : DHead} {f : Word → Word → Word → Word}
    (hx : ∀ s, exec i s = runUnit s (fun _ => wordFiring sl h f)) : GivesWord i sl h f :=
  fires_one hx ⟨rfl, rfl, rfl, rfl⟩ ⟨rfl, rfl, fun _ => rfl⟩ (fun _ _ => rfl)

theorem givesImm_of {i : Instr} {t : Tgt} {f : Word → Word} (hx : ∀ s, exec i s = runUnit s (fun _ => immFiring t f)) : GivesImm i t f :=
  fires_one hx ⟨rfl, rfl, rfl, rfl⟩ ⟨rfl, rfl, fun _ => rfl⟩ (fun _ _ => rfl)

theorem fires_trigger {i : Instr} {t : Tgt} {f : Env → Word × Bool} (hx : ∀ s, exec i s = runUnit s (fun _ => triggerFiring t f)) :
    Fires i free [.a] (tgt1 t) .always noEffect (fun e _ => result (tgt1 t) (f e).1 (f e).2) :=
  fires_one hx ⟨rfl, rfl, rfl, rfl⟩ ⟨rfl, rfl, fun _ => rfl⟩ (fun _ _ => rfl)

theorem fires_counted {i : Instr} {sl : List Slot} {h : DHead} {f : Word → Word → Word → Word × Ev}
    (hx : ∀ s, exec i s = runUnit s (fun _ => countedFiring sl h f)) :
    Fires i free sl (headTgts h) h.pred (fun s e o => addEv s e.c (f o.a.word o.b.word o.c.word).2)
      (fun _ o => result (headTgts h) (f o.a.word o.b.word o.c.word).1 (sl.any (fun x => (operandAt o x).psn))) :=
  fires_one hx ⟨rfl, rfl, rfl, rfl⟩ ⟨rfl, rfl, fun _ => rfl⟩ (fun _ _ => rfl)

theorem fires_pass {i : Instr} {sl : List Slot} {tg : List Target} {p : Pred} (hx : ∀ s, exec i s = runUnit s (fun _ => passFiring sl tg p)) :
    Fires i free sl tg p noEffect (fun _ o => toAll tg o.a) :=
  fires_one hx ⟨rfl, rfl, rfl, rfl⟩ ⟨rfl, rfl, fun _ => rfl⟩ (fun _ _ => rfl)

/-! ### DIV and REM (R149) -/

theorem laneVal_eq_zero {uns : Bool} {b : Word} : laneVal 32 uns b.toNat = 0 ↔ b = 0 := by
  cases uns
  · rw [laneVal_signed, ← BitVec.toInt_zero (w := 32), BitVec.toInt_inj]; rfl
  · rw [laneVal_unsigned, ← BitVec.toNat_inj]; simp

theorem divOp_divisor (sat uns : Bool) (a b : Word) : (divOp sat uns a b).2 = if b = 0 then 1 else 0 := by
  simp only [divOp, laneVal_eq_zero]
  split <;> rfl

theorem remOp_divisor (uns : Bool) (a b : Word) : (remOp uns a b).2 = if b = 0 then 1 else 0 := by
  simp only [remOp, laneVal_eq_zero]
  split <;> rfl

theorem slotsPsn_two (o : Operands) : slotsPsn o slotsAB = (o.a.psn || o.b.psn) := by simp [slotsPsn, slotsAB, operandAt]

/-- A zero divisor counts when no operand is poisoned (R149). -/
theorem countDivZero_eq {z : Prop} [Decidable z] (s : State) (c : CtxId) (psn : Bool) :
    countDivZero s c psn (if z then 1 else 0) = if z ∧ psn = false then addCount s c cntDivZero 1 else s := by
  by_cases hz : z <;> cases psn <;> simp [countDivZero, addCount, hz]

theorem fires_divide {i : Instr} {h : DHead} {f : Word → Word → Word × Nat} (hx : ∀ s, exec i s = runUnit s (fun _ => divideFiring h f))
    (hf : ∀ a b, (f a b).2 = if b = 0 then 1 else 0) :
    Fires i free [.a, .b] (headTgts h) h.pred (fun s e o => if o.b.word = 0 ∧ !o.a.psn ∧ !o.b.psn then addCount s e.c cntDivZero 1 else s)
      (fun _ o => result (headTgts h) (f o.a.word o.b.word).1 (o.a.psn || o.b.psn)) := by
  refine fires_one hx ⟨rfl, rfl, rfl, rfl⟩ ⟨rfl, rfl, fun _ => rfl⟩ (fun s e => ?_)
  have hcond (x y : Bool) : (!x) = true ∧ (!y) = true ↔ (x || y) = false := by simp
  simp only [divideFiring, slotsPsn_two, hf, countDivZero_eq, hcond]

/-! ### The statements -/

theorem tstbOp_eq (a b : Word) : tstbOp a b = if a.getLsbD (b.toNat % 32) then 1 else 0 := by
  simp [tstbOp, boolWord, BitVec.getLsbD, Nat.testBit_eq_decide_div_mod_eq]

/-- Settles O3: a word, an immediate or a quotient; DIV and REM count a zero divisor. -/
theorem integerCompletes : Obligations.IntegerCompletes := by
  unfold Obligations.IntegerCompletes
  refine ⟨fun h t sat uns w v => ?_, fun h sat uns => ?_, fun h t uns w c op v u => ?_⟩
  · and_intros
    iterate 12 exact givesWord_of fun _ => rfl
    all_goals exact givesImm_of fun _ => rfl
  · exact ⟨fires_divide (fun _ => rfl) (divOp_divisor sat uns), fires_divide (fun _ => rfl) (remOp_divisor uns)⟩
  · simp only [← tstbOp_eq]
    and_intros
    iterate 14 exact givesWord_of fun _ => rfl
    all_goals exact givesImm_of fun _ => rfl

/-- Settles O4: each is a word of its operands; FEXP2E and FLOG2E compute it as assumption log 48 says. -/
theorem floatCompletes : Obligations.FloatCompletes := by
  unfold Obligations.FloatCompletes
  intro h r c
  and_intros
  all_goals exact givesWord_of fun _ => rfl

/-- Settles O5: a word or a constant, and for the narrowing conversions a word with its events. -/
theorem convertCompletes : Obligations.ConvertCompletes := by
  unfold Obligations.ConvertCompletes
  refine ⟨fun h t uns hi w r v l l4 l8 => ?_, fun h sat uns f nsat w r l l8 x => ?_⟩
  · and_intros
    iterate 7 exact givesWord_of fun _ => rfl
    · exact givesImm_of fun _ => rfl
    · exact fires_trigger (f := fun _ => (imm15 v, false)) fun _ => rfl
  · exact ⟨fires_counted (f := fun a _ _ => cvtfi uns r a) fun _ => rfl, fires_counted (f := fun a b _ => cvtfh sat f r a b) fun _ => rfl,
      fires_counted (f := fun a b _ => cvtf8 l.val f nsat a b) fun _ => rfl, fires_counted (f := fun a b _ => packOp sat uns w a b) fun _ => rfl,
      fires_counted (f := q4eOp l8.val) fun _ => rfl, fires_counted (f := fun a _ _ => scbOp x a) fun _ => rfl⟩

/-- MERGE with data on p and on the slot that it selects (R138). -/
theorem mergeFiring_data {tg : List Target} {e : Env} (hp : e.u.qp ≠ []) (h : (headOf e.u .p).isMk = false)
    (hs : (headOf e.u (mergeSlot (operands e.u).p)).isMk = false) :
    mergeFiring tg e = { slots := [.p, mergeSlot (operands e.u).p], joins := [], tgts := tg
                         body := fun s e' o => .emit (countPoison s e'.c o.p) (toAll tg (operandAt o (mergeSlot (operands e.u).p)))
                         onMark := passMark tg, resume := noResume } := by
  obtain ⟨x, q, hq⟩ := List.exists_cons_of_ne_nil hp
  have ho : (operands e.u).p = x := by simp [operands, headOf, slotQueue, hq]
  have hx : x.isMk = false := by simpa [headOf, slotQueue, hq] using h
  rw [ho] at hs ⊢
  simp [mergeFiring, hq, hx, hs]

theorem merge_completes {t0 t1 : Tgt} {s : State} {e : Env}
    (h : MayFire s e [.p, mergeSlot (operands e.u).p] (tgt1 t0 ++ tgt1 t1)) :
    exec (.merge t0 t1) s = .next (finish (countPoison s e.c (operands e.u).p) e [.p, mergeSlot (operands e.u).p]
      (toAll (tgt1 t0 ++ tgt1 t1) (operandAt (operands e.u) (mergeSlot (operands e.u).p)))) := by
  have hf := mergeFiring_data (tg := tgt1 t0 ++ tgt1 t1) (h.full .p (by simp)) (h.data .p (by simp)) (h.data _ (by simp))
  exact completes_of (g := mergeFiring (tgt1 t0 ++ tgt1 t1)) (gate := free) rfl (fun _ => by rw [hf]; rfl) (by rw [hf]) (by rw [hf]; simp)
    (by rw [hf]) (by rw [hf]) (by rw [hf]) h trivial

/-- The word that GETW gives (R146). -/
def carryAtStart (w : Fin 64) (e : Env) : Word × Bool :=
  ((mapGet Carry.zero e.ctx.mem.carryAtStart w.val).val, (mapGet Carry.zero e.ctx.mem.carryAtStart w.val).psn)

theorem fank_completes {t : Tgt} {k : Fin 256} {c : Fin 8} {s : State} {e : Env} (h : MayFire s e [.a] (fankTargets e.win t k c)) :
    exec (.fank t k c) s = .next (finish s e [.a] (toAll (fankTargets e.win t k c) (operands e.u).a)) :=
  completes_of (g := fun e => passFiring slotsA (fankTargets e.win t k c) .always) (gate := free) rfl (fun _ => rfl) rfl
    (List.Subset.refl [Slot.a]) rfl rfl rfl h trivial

/-- Settles O1: most are one firing with its own effect; FANK's targets stand in the pool, and MERGE looks at p. -/
theorem flowCompletes : Obligations.FlowCompletes := by
  unfold Obligations.FlowCompletes
  refine ⟨⟨fun h => fires_pass fun _ => rfl, fun _ _ _ _ _ h => fank_completes h, fun t0 t1 => ?_, fun h => fires_pass fun _ => rfl,
    fun t w => fires_trigger (f := carryAtStart w) fun _ => rfl, fun t w => ?_, fun t k n => ?_, fun p => fires_pass fun _ => rfl⟩,
    fun t0 t1 s e h => merge_completes h, fun t c k => ?_, fun t k => ?_, fun t k => ?_, fun t k => ?_, fun t b => ?_, fun t => ?_⟩
  all_goals exact fires_one (fun _ => rfl) ⟨rfl, rfl, rfl, rfl⟩ ⟨rfl, rfl, fun _ => rfl⟩ (fun _ _ => rfl)

end Sys2Proof.Machine

/-! PROOFS. O7: what an instruction of groups 0x0 to 0x4 leaves unchanged. -/

namespace Sys2Proof.Machine

/-- A firing whose acts change nothing but what `asideScalar` puts aside, and which ends in the step that it starts in. -/
structure FrameFiring (f : Firing) : Prop where
  body : ∀ (e : Env) s o, KeepAct e.c s (f.body s e o)
  onMark : ∀ (e : Env) s r, KeepAct e.c s (f.onMark s e r)
  resume : f.resume = noResume
  serial : f.serial = true

/-- The firing leaves its markers to `passMark`, so its body alone tells what it changes. -/
theorem frame_passing {f : Firing} {tg : List Target} (hb : ∀ (e : Env) s o, KeepAct e.c s (f.body s e o)) (hm : f.onMark = passMark tg)
    (hr : f.resume = noResume) (hs : f.serial = true) : FrameFiring f :=
  ⟨hb, fun _ _ _ => by rw [hm]; exact keep_pass, hr, hs⟩

theorem frame_word (sl : List Slot) (h : DHead) (f : Word → Word → Word → Word) : FrameFiring (wordFiring sl h f) :=
  frame_passing (fun _ _ _ => keep_emit) rfl rfl rfl

theorem frame_counted (sl : List Slot) (h : DHead) (f : Word → Word → Word → Word × Ev) : FrameFiring (countedFiring sl h f) :=
  frame_passing (fun _ _ _ => aside_countEvents) rfl rfl rfl

theorem frame_divide (h : DHead) (f : Word → Word → Word × Nat) : FrameFiring (divideFiring h f) :=
  frame_passing (fun _ _ _ => aside_addCount) rfl rfl rfl

theorem frame_imm (t : Tgt) (f : Word → Word) : FrameFiring (immFiring t f) := frame_passing (fun _ _ _ => keep_emit) rfl rfl rfl

theorem frame_trigger (t : Tgt) (f : Env → Word × Bool) : FrameFiring (triggerFiring t f) :=
  frame_passing (fun _ _ _ => keep_emit) rfl rfl rfl

theorem frame_pass (sl : List Slot) (tg : List Target) (p : Pred) : FrameFiring (passFiring sl tg p) :=
  frame_passing (fun _ _ _ => keep_emit) rfl rfl rfl

/-- NEXTB and HALT move the draft position alone (R143). -/
theorem frame_decide (t : Tgt) (f : Env → DraftSt → DraftSt) : FrameFiring (decideFiring t f) := by
  refine frame_passing (fun e s o => ?_) rfl rfl rfl
  show asideScalar e.c (if o.a.isTrue then updDraft (countPoison s e.c o.a) e.c (f e) else countPoison s e.c o.a) = _
  split
  · rw [aside_updDraft, aside_countPoison]
  · exact aside_countPoison

/-- PUTW's record is one of the values put aside (R146). -/
theorem aside_recordPut {c : CtxId} {s : State} {w : Nat} {v : Carry} :
    asideScalar c (updCtx s c (fun x => { x with mem := { x.mem with puts := mapPut x.mem.puts w v } })) = asideScalar c s :=
  aside_counts (fun _ => rfl) (fun _ => rfl)

theorem frame_merge (tg : List Target) (e : Env) : FrameFiring (mergeFiring tg e) := by
  unfold mergeFiring
  split
  · exact frame_passing (fun _ _ _ => rfl) rfl rfl rfl
  · dsimp only
    split
    · exact frame_passing (fun _ _ _ => rfl) rfl rfl rfl
    · split
      · exact ⟨fun _ _ _ => rfl, fun _ _ _ => aside_addCount, rfl, rfl⟩
      · exact frame_passing (fun _ _ _ => aside_countPoison) rfl rfl rfl

/-- COUNT's marker sets its count back, or leaves it (R141). -/
theorem keep_countMark {s : State} {e : Env} {k r : Nat} {f : ElemSt → ElemSt} {x y : List (Target × Token)} :
    KeepAct e.c s (if k ≤ r then .emit (updUnit s e.c e.i f) x else .emit s y) := by
  split
  · exact aside_updUnit
  · rfl

/-- An instruction of group 0x0 is one firing, with a frame in whatever unit it stands. -/
theorem exec_flow {i : Instr} (h : groupOf i = some 0) : ∃ g : Env → Firing, (∀ s, exec i s = runUnit s g) ∧ ∀ e, FrameFiring (g e) := by
  cases i
  case mov | gate | drop | fank => exact ⟨_, fun _ => rfl, fun _ => frame_pass _ _ _⟩
  case steer => exact ⟨_, fun _ => rfl, fun _ => frame_passing (fun _ _ _ => aside_countPoison) rfl rfl rfl⟩
  case merge => exact ⟨_, fun _ => rfl, frame_merge _⟩
  case mark => exact ⟨_, fun _ => rfl, fun _ => ⟨fun _ _ _ => aside_updUnit, fun _ _ _ => aside_updUnit, rfl, rfl⟩⟩
  case rankq | strip => exact ⟨_, fun _ => rfl, fun _ => ⟨fun _ _ _ => rfl, fun _ _ _ => rfl, rfl, rfl⟩⟩
  case count => exact ⟨_, fun _ => rfl, fun _ => ⟨fun _ _ _ => aside_updUnit, fun _ _ _ => keep_countMark, rfl, rfl⟩⟩
  case getw => exact ⟨_, fun _ => rfl, fun _ => frame_trigger _ _⟩
  case putw => exact ⟨_, fun _ => rfl, fun _ => frame_passing (fun _ _ _ => aside_recordPut.trans aside_countPoison) rfl rfl rfl⟩
  case const => exact ⟨_, fun _ => rfl, fun _ => ⟨fun _ _ _ => aside_updUnit, fun _ _ _ => aside_updUnit, rfl, rfl⟩⟩
  case nextb | halt => exact ⟨_, fun _ => rfl, fun _ => frame_decide _ _⟩
  all_goals cases h

/-- An instruction of groups 0x1 to 0x4 is one firing with a frame. -/
theorem exec_scalarFrame {i : Instr} {x : List Slot × List Target × Pred} (h : scalarForm i = some x) :
    ∃ f, (∀ s, exec i s = runUnit s (fun _ => f)) ∧ FrameFiring f := by
  cases i
  case div | rem => exact ⟨_, fun _ => rfl, frame_divide _ _⟩
  case cvtfi | cvtfh | cvtf8 | pack | q4e | scb => exact ⟨_, fun _ => rfl, frame_counted _ _ _⟩
  case addi | muli | cmpi | logi | ldhi => exact ⟨_, fun _ => rfl, frame_imm _ _⟩
  case ldi => exact ⟨_, fun _ => rfl, frame_trigger _ _⟩
  all_goals cases h
  all_goals exact ⟨_, fun _ => rfl, frame_word _ _ _⟩

/-- An instruction of no scalar form stands in group 0x0 or behind group 0x4. -/
theorem group_of_no_scalarForm {i : Instr} {g : Nat} (hn : scalarForm i = none) (h : groupOf i = some (g + 1)) : 4 ≤ g := by
  cases i
  all_goals cases hn
  all_goals cases h
  all_goals decide

/-- Settles O7: such an instruction is one firing, and a firing whose acts keep the frame keeps it. -/
theorem scalarFrame : Obligations.ScalarFrame := by
  unfold Obligations.ScalarFrame
  intro i g s t c k hi hg hfocus hx
  have hframe : ∃ g : Env → Firing, (∀ s, exec i s = runUnit s g) ∧ ∀ e, FrameFiring (g e) := by
    cases g with
    | zero => exact exec_flow hi
    | succ g =>
      obtain ⟨x, hs⟩ := Option.ne_none_iff_exists'.1 (fun hn => absurd (group_of_no_scalarForm hn hi) (by omega))
      obtain ⟨f, hf, hk⟩ := exec_scalarFrame hs
      exact ⟨fun _ => f, hf, fun _ => hk⟩
  obtain ⟨f, hf, hk⟩ := hframe
  exact aside_runUnit hfocus ((hf s).symm.trans hx) (fun e => (hk e).body e) (fun e => (hk e).onMark e) (fun e => (hk e).resume)
    (fun e => (hk e).serial)

end Sys2Proof.Machine

/-! PROOFS. O9, O10, O11: integer results against exact arithmetic. -/

namespace Sys2Proof.Machine

/-! ### A result narrowed to a lane (R148) -/

/-- A value in a lane's range is what its lane reads as. -/
theorem laneVal_wrapInt {n : Nat} {uns : Bool} {v : Int} (hn : 0 < n) (hlo : intLo n uns ≤ v) (hhi : v ≤ intHi n uns) :
    laneVal n uns (wrapInt n v) = v := by
  obtain ⟨k, rfl⟩ : ∃ k, n = k + 1 := ⟨n - 1, by omega⟩
  have hw := wrap_nat (k + 1) v
  have hlt := wrap_lt (k + 1) v
  have hpow : (2 : Int) ^ (k + 1) = 2 * 2 ^ k := pow_succ' 2 k
  have hpos : (0 : Int) < 2 ^ k := by positivity
  cases uns
  · simp only [intLo, intHi, Bool.false_eq_true, if_false, Nat.add_sub_cancel] at hlo hhi
    push_cast at hlo hhi
    simp only [laneVal, signExtend, Bool.false_eq_true, if_false, Nat.add_sub_cancel, Nat.mod_eq_of_lt hlt]
    have hbound : (((2 ^ k : Nat) : Int)) = 2 ^ k := by push_cast; rfl
    have hrange : (((2 ^ (k + 1) : Nat) : Int)) = 2 ^ (k + 1) := by push_cast; rfl
    rcases le_or_gt 0 v with h0 | h0
    · rw [Int.emod_eq_of_lt h0 (by omega)] at hw
      rw [if_pos (by omega), hw]
    · rw [← Int.add_emod_right, Int.emod_eq_of_lt (by omega) (by omega)] at hw
      rw [if_neg (by omega)]
      omega
  · simp only [intLo, intHi, if_true] at hlo hhi
    push_cast at hhi
    simp only [laneVal, if_true]
    rw [hw, Int.emod_eq_of_lt hlo (by omega)]

theorem narrow_sat (uns : Bool) {n : Nat} (hn : 0 < n) (v : Int) :
    laneVal n uns (narrow true uns n v) = max (intLo n uns) (min v (intHi n uns)) := by
  have hle : intLo n uns ≤ intHi n uns := by
    have : (0 : Int) < (2 ^ n : Nat) := by positivity
    have : (0 : Int) < (2 ^ (n - 1) : Nat) := by positivity
    cases uns <;> simp only [intLo, intHi] <;> omega
  exact laneVal_wrapInt hn (le_max_left _ _) (max_le hle (min_le_right _ _))

theorem narrow_lt (sat uns : Bool) (n : Nat) (v : Int) : narrow sat uns n v < 2 ^ n := wrap_lt n _

theorem narrow_wrap (uns : Bool) (n : Nat) (v : Int) : ((narrow false uns n v : Nat) : Int) = v % 2 ^ n := wrap_nat n v

theorem laneBits_pos (w : Width) : 0 < laneBits w := by cases w <;> decide

theorem elemBits_intOp (f : Nat → Int → Int → Int → Int) (sat uns : Bool) {w : Width} (a b c : Word) {j : Nat} (hj : j < 32 / laneBits w) :
    elemBits (intOp f sat uns w a b c).toNat (laneBits w) j = narrow sat uns (laneBits w) (f (laneBits w)
      (laneVal (laneBits w) uns (elemBits a.toNat (laneBits w) j)) (laneVal (laneBits w) uns (elemBits b.toNat (laneBits w) j))
      (laneVal (laneBits w) uns (elemBits c.toNat (laneBits w) j))) :=
  (lane_get hj).trans (Nat.mod_eq_of_lt (narrow_lt _ _ _ _))

/-- Settles O9: a lane is packed where it is read, and holds its own exact value narrowed. -/
theorem integerLanes : Obligations.IntegerLanes := by
  unfold Obligations.IntegerLanes
  intro f uns w a b c j hj
  simp only [elemBits_intOp f _ uns a b c hj, narrow_wrap, narrow_sat uns (laneBits_pos w), true_and]
  cases uns <;> simp [intLo, intHi]

/-! ### Whole words (R148 to R152) -/

theorem toNat_eq_emod {x : Word} {v : Int} (h : x = BitVec.ofInt 32 v) : (x.toNat : Int) = v % 2 ^ 32 := by
  rw [h, BitVec.toNat_ofInt, Int.toNat_of_nonneg (Int.emod_nonneg _ (by decide))]; rfl

/-- A wrapping operation on whole words is that of 32-bit arithmetic. -/
theorem intOp_wrap (f : Nat → Int → Int → Int → Int) (uns : Bool) (a b c : Word) : intOp f false uns .w32 a b c =
    BitVec.ofInt 32 (f 32 (laneVal 32 uns a.toNat) (laneVal 32 uns b.toNat) (laneVal 32 uns c.toNat)) :=
  (intOp_word f false uns a b c).trans (ofNat_wrapInt _)

theorem exactMulh_unsigned (a b c : Word) : intOp exactMulh false true .w32 a b c = BitVec.ofNat 32 (a.toNat * b.toNat / 2 ^ 32) := by
  rw [intOp_wrap, exactMulh, Int.fdiv_eq_ediv_of_nonneg _ (by decide), laneVal_unsigned, laneVal_unsigned]
  norm_cast

theorem exactMulh_signed (a b c : Word) : intOp exactMulh false false .w32 a b c = BitVec.ofInt 32 (a.toInt * b.toInt / 2 ^ 32) := by
  rw [intOp_wrap, exactMulh, Int.fdiv_eq_ediv_of_nonneg _ (by decide), laneVal_signed, laneVal_signed]
  rfl

theorem intOp_ring (uns : Bool) (a b c : Word) :
    intOp exactAdd false uns .w32 a b c = a + b ∧ intOp exactSub false uns .w32 a b c = a - b ∧
    intOp exactMul false uns .w32 a b c = a * b ∧ intOp exactMad false uns .w32 a b c = a * b + c ∧
    intOp exactNeg false false .w32 a b c = -a := by
  simp [intOp_wrap, exactAdd, exactSub, exactMul, exactMad, exactNeg, Int.sub_eq_add_neg, BitVec.sub_eq_add_neg, BitVec.ofInt_add,
    BitVec.ofInt_mul, BitVec.ofInt_neg, ofInt_laneVal]

theorem ofInt_toNat (a : Word) : BitVec.ofInt 32 (a.toNat : Int) = a := by simp

/-- ADDI and MULI extend their immediate by its sign (R151). -/
theorem immediate_ring (a : Word) (v : BitVec 15) :
    ((a + imm15 v).toNat : Int) = (a.toNat + v.toInt) % 2 ^ 32 ∧ ((a * imm15 v).toNat : Int) = (a.toNat * v.toInt) % 2 ^ 32 := by
  have himm : imm15 v = BitVec.ofInt 32 v.toInt := rfl
  constructor <;> refine toNat_eq_emod ?_
  · rw [BitVec.ofInt_add, ofInt_toNat, himm]
  · rw [BitVec.ofInt_mul, ofInt_toNat, himm]

/-- A word under UNS as a number. -/
theorem laneVal_word (uns : Bool) (a : Word) : laneVal 32 uns a.toNat = if uns then (a.toNat : Int) else a.toInt := by
  cases uns
  · exact laneVal_signed a
  · exact laneVal_unsigned a

/-- A whole word narrowed with saturation. -/
theorem laneVal_narrow_sat (uns : Bool) (v : Int) : laneVal 32 uns (BitVec.ofNat 32 (narrow true uns 32 v)).toNat =
    if uns then max 0 (min v (2 ^ 32 - 1)) else max (-2 ^ 31) (min v (2 ^ 31 - 1)) := by
  rw [BitVec.toNat_ofNat, Nat.mod_eq_of_lt (narrow_lt _ _ _ _), narrow_sat uns (by decide)]
  cases uns <;> rfl

/-- The sum that DOT4 narrows (R152). -/
def dot4Exact (uns : Bool) (w : Width) (a b c : Word) : Int :=
  (if uns then (c.toNat : Int) else c.toInt) + ((List.range (32 / laneBits w)).map (fun j =>
    laneVal (laneBits w) uns (elemBits a.toNat (laneBits w) j) * laneVal (laneBits w) uns (elemBits b.toNat (laneBits w) j))).sum

theorem dot4Op_eq (sat uns : Bool) (w : Width) (a b c : Word) :
    dot4Op sat uns w a b c = BitVec.ofNat 32 (narrow sat uns 32 (dot4Exact uns w a b c)) := by
  rw [dot4Exact, ← laneVal_word]; rfl

theorem dot4_wrap (uns : Bool) (w : Width) (a b c : Word) : ((dot4Op false uns w a b c).toNat : Int) = dot4Exact uns w a b c % 2 ^ 32 :=
  toNat_eq_emod ((dot4Op_eq false uns w a b c).trans (ofNat_wrapInt _))

theorem dot4_sat (uns : Bool) (w : Width) (a b c : Word) :
    (if uns then ((dot4Op true uns w a b c).toNat : Int) else (dot4Op true uns w a b c).toInt) =
      if uns then max 0 (min (dot4Exact uns w a b c) (2 ^ 32 - 1)) else max (-2 ^ 31) (min (dot4Exact uns w a b c) (2 ^ 31 - 1)) := by
  rw [← laneVal_word, dot4Op_eq, laneVal_narrow_sat]

/-- ADDC gives the two halves of its sum (R150). -/
theorem addcOp_halves (a b c : Word) : (addcOp true a b c).toNat * 2 ^ 32 + (addcOp false a b c).toNat = a.toNat + b.toNat + c.toNat % 2 := by
  have ha := a.isLt
  have hb := b.isLt
  simp only [addcOp, if_true, Bool.false_eq_true, if_false, BitVec.toNat_ofNat]
  split <;> simp only [BitVec.toNat_ofNat] <;> omega

theorem addcOp_carry_lt (a b c : Word) : (addcOp true a b c).toNat < 2 := by
  simp only [addcOp, if_true]
  split <;> decide

/-- The sum of the high halves and the carry of the low ones is the high half of the sum. -/
theorem chain_halves {x y k lo out hi : Nat} (hx : x < 2 ^ 64) (hy : y < 2 ^ 64) (hk : k < 2) (hlo : lo < 2 ^ 32) (hhi : hi < 2 ^ 32)
    (hlow : k * 2 ^ 32 + lo = x % 2 ^ 32 + y % 2 ^ 32)
    (hhigh : out * 2 ^ 32 + hi = x / 2 ^ 32 % 2 ^ 32 + y / 2 ^ 32 % 2 ^ 32 + k % 2) : hi * 2 ^ 32 + lo = (x + y) % 2 ^ 64 := by
  have hx1 : x / 2 ^ 32 < 2 ^ 32 := by omega
  have hy1 : y / 2 ^ 32 < 2 ^ 32 := by omega
  rw [Nat.mod_eq_of_lt hx1, Nat.mod_eq_of_lt hy1, Nat.mod_eq_of_lt hk] at hhigh
  have hx0 := Nat.div_add_mod x (2 ^ 32)
  have hy0 := Nat.div_add_mod y (2 ^ 32)
  have hsum : x + y = hi * 2 ^ 32 + lo + 2 ^ 64 * out := by linarith
  rw [hsum, Nat.add_mul_mod_self_left, Nat.mod_eq_of_lt (by omega)]

/-- The carry of the low halves makes the high halves' sum that of the whole (R150). -/
theorem addcOp_chain (x y : BitVec 64) :
    (addcOp false ((x >>> 32).setWidth 32) ((y >>> 32).setWidth 32) (addcOp true (x.setWidth 32) (y.setWidth 32) 0)).toNat * 2 ^ 32 +
      (addcOp false (x.setWidth 32) (y.setWidth 32) 0).toNat = (x + y).toNat := by
  have hlow := addcOp_halves (x.setWidth 32) (y.setWidth 32) 0
  have hhigh := addcOp_halves ((x >>> 32).setWidth 32) ((y >>> 32).setWidth 32) (addcOp true (x.setWidth 32) (y.setWidth 32) 0)
  have h0 : (0 : Word).toNat % 2 = 0 := rfl
  simp only [BitVec.toNat_setWidth, BitVec.toNat_ushiftRight, Nat.shiftRight_eq_div_pow, h0, Nat.add_zero] at hlow hhigh
  rw [BitVec.toNat_add]
  exact chain_halves x.isLt y.isLt (addcOp_carry_lt _ _ _) (BitVec.isLt _) (BitVec.isLt _) hlow hhigh

/-- Settles O10: whole words are one lane, and a lane's exact value is taken modulo 2^32. -/
theorem integerWords : Obligations.IntegerWords := by
  unfold Obligations.IntegerWords
  refine ⟨fun uns a b c => ?_, immediate_ring, fun uns w a b c => ⟨dot4_wrap uns w a b c, dot4_sat uns w a b c⟩, addcOp_halves, addcOp_chain⟩
  obtain ⟨hadd, hsub, hmul, hmad, hneg⟩ := intOp_ring uns a b c
  exact ⟨hadd, hsub, hmul, hmad, hneg, exactMulh_unsigned a b c, exactMulh_signed a b c⟩

/-! ### Division (R149) -/

theorem divOp_zero (sat uns : Bool) (a : Word) :
    (divOp sat uns a 0).1 = if uns then 0xFFFFFFFF#32 else if a.msb then 0x80000000#32 else 0x7FFFFFFF#32 := by
  rw [divOp, if_pos (laneVal_eq_zero.2 rfl)]
  cases uns
  · rw [laneVal_signed, BitVec.msb_eq_toInt]
    rcases lt_or_ge a.toInt 0 with h | h
    · simp [h, not_le.2 h]
    · simp [h, not_lt.2 h]
  · rfl

theorem remOp_zero (uns : Bool) (a : Word) : (remOp uns a 0).1 = a := by
  rw [remOp, if_pos (laneVal_eq_zero.2 rfl)]

/-- A word's own value is not changed by narrowing. -/
theorem ofNat_narrow_laneVal (sat uns : Bool) (x : Word) : BitVec.ofNat 32 (narrow sat uns 32 (laneVal 32 uns x.toNat)) = x := by
  have hlo : intLo 32 uns ≤ laneVal 32 uns x.toNat ∧ laneVal 32 uns x.toNat ≤ intHi 32 uns := by
    have hx := x.isLt
    have h1 := x.le_toInt
    have h2 := x.toInt_lt
    cases uns <;> simp only [laneVal_signed, laneVal_unsigned, intLo, intHi, if_true, Bool.false_eq_true, if_false] <;> omega
  have hn : narrow sat uns 32 (laneVal 32 uns x.toNat) = wrapInt 32 (laneVal 32 uns x.toNat) := by
    rw [narrow, clampInt, min_eq_left hlo.2, max_eq_right hlo.1, ite_self]
  rw [hn, ofNat_wrapInt, ofInt_laneVal]

/-- A quotient that is a word's value is that word. -/
theorem divOp_eq {sat uns : Bool} {a b x : Word} (hb : b ≠ 0)
    (hx : laneVal 32 uns x.toNat = (laneVal 32 uns a.toNat).tdiv (laneVal 32 uns b.toNat)) : (divOp sat uns a b).1 = x := by
  rw [divOp, if_neg (by rwa [laneVal_eq_zero]), ← hx, ofNat_narrow_laneVal]

theorem remOp_eq {uns : Bool} {a b x : Word} (hb : b ≠ 0)
    (hx : laneVal 32 uns x.toNat = (laneVal 32 uns a.toNat).tmod (laneVal 32 uns b.toNat)) : (remOp uns a b).1 = x := by
  rw [remOp, if_neg (by rwa [laneVal_eq_zero]), ← hx, ofNat_wrapInt, ofInt_laneVal]

theorem div_unsigned {sat : Bool} {a b : Word} (hb : b ≠ 0) : (divOp sat true a b).1 = a / b ∧ (remOp true a b).1 = a % b :=
  ⟨divOp_eq hb (by simp only [laneVal_unsigned, BitVec.toNat_udiv]; rfl), remOp_eq hb (by simp only [laneVal_unsigned, BitVec.toNat_umod]; rfl)⟩

theorem div_signed {sat : Bool} {a b : Word} (hb : b ≠ 0) (h : ¬(a = 0x80000000#32 ∧ b = -1)) :
    (divOp sat false a b).1.toInt = a.toInt.tdiv b.toInt ∧ (remOp false a b).1.toInt = a.toInt.tmod b.toInt := by
  have hq : (a.sdiv b).toInt = a.toInt.tdiv b.toInt := BitVec.toInt_sdiv_of_ne_or_ne a b (not_and_or.1 h)
  rw [divOp_eq hb (x := a.sdiv b) (by simp only [laneVal_signed, hq]),
    remOp_eq hb (x := a.srem b) (by simp only [laneVal_signed, BitVec.toInt_srem])]
  exact ⟨hq, BitVec.toInt_srem a b⟩

/-- Settles O11: but for -2^31 by -1, whose quotient is no word, a quotient is a word's own value. -/
theorem divisionCases : Obligations.DivisionCases := by
  unfold Obligations.DivisionCases
  intro sat a b
  exact ⟨div_unsigned, div_signed, by decide, by decide, by decide, divOp_zero sat true a, remOp_zero true a, remOp_zero false a,
    divOp_zero sat false a⟩

end Sys2Proof.Machine

/-! PROOFS. O12: shifts, counts, comparisons and bit fields on whole words. -/

namespace Sys2Proof.Machine

/-! ### Shifts and rotations (R153) -/

theorem shl_word (a b : Word) : laneMap2 .w32 shlLane a b = a <<< b := by
  rw [laneMap2_word]
  apply BitVec.eq_of_toNat_eq
  rw [BitVec.toNat_ofNat, BitVec.shiftLeft_eq', BitVec.toNat_shiftLeft, Nat.shiftLeft_eq, shlLane]
  split
  · rename_i h
    obtain ⟨d, hd⟩ := Nat.pow_dvd_pow 2 h
    rw [hd, Nat.mul_left_comm, Nat.mul_mod_right, Nat.zero_mod]
  · exact Nat.mod_mod _ _

/-- A value of 33 bits shifted right by more than 32 places is its sign. -/
theorem ediv_two_pow_min {v : Int} (hlo : -2 ^ 32 ≤ v) (hhi : v < 2 ^ 32) (n : Nat) : v / 2 ^ min n 32 = v / 2 ^ n := by
  rcases Nat.le_total n 32 with h | h
  · rw [Nat.min_eq_left h]
  · rw [Nat.min_eq_right h]
    have hp : (2 : Int) ^ 32 ≤ 2 ^ n := pow_le_pow_right₀ (by decide) h
    rcases lt_or_ge v 0 with hv | hv
    · rw [Int.ediv_eq_neg_one_of_neg_of_le hv (by omega), Int.ediv_eq_neg_one_of_neg_of_le hv (by omega)]
    · rw [Int.ediv_eq_zero_of_lt hv hhi, Int.ediv_eq_zero_of_lt hv (by omega)]

theorem shr_word (uns : Bool) (a b : Word) :
    laneMap2 .w32 (shrLane uns) a b = BitVec.ofInt 32 (laneVal 32 uns a.toNat / 2 ^ b.toNat) := by
  have hlo : -2 ^ 32 ≤ laneVal 32 uns a.toNat ∧ laneVal 32 uns a.toNat < 2 ^ 32 := by
    have ha := a.isLt
    have h1 := a.le_toInt
    have h2 := a.toInt_lt
    cases uns <;> simp only [laneVal_signed, laneVal_unsigned] <;> omega
  rw [laneMap2_word, shrLane, ofNat_wrapInt, Int.fdiv_eq_ediv_of_nonneg _ (Int.natCast_nonneg _), Nat.cast_pow,
    ← ediv_two_pow_min hlo.1 hlo.2]
  rfl

theorem shr_unsigned (a b : Word) : laneMap2 .w32 (shrLane true) a b = a >>> b := by
  rw [shr_word, laneVal_unsigned]
  apply BitVec.eq_of_toNat_eq
  rw [BitVec.ushiftRight_eq', BitVec.toNat_ushiftRight, Nat.shiftRight_eq_div_pow]
  have : (a.toNat : Int) / 2 ^ b.toNat = ((a.toNat / 2 ^ b.toNat : Nat) : Int) := by push_cast; rfl
  rw [this, BitVec.ofInt_natCast, BitVec.toNat_ofNat, Nat.mod_eq_of_lt (lt_of_le_of_lt (Nat.div_le_self _ _) a.isLt)]

theorem shr_signed (a b : Word) : laneMap2 .w32 (shrLane false) a b = a.sshiftRight b.toNat := by
  rw [shr_word, laneVal_signed, BitVec.sshiftRight, Int.shiftRight_eq_div_pow]
  norm_cast

/-- The bits that a rotation brings in do not overlap those that it moves up. -/
theorem rotLane_eq (a b : Word) : rotLane 32 a.toNat b.toNat = (a.rotateLeft b.toNat).toNat := by
  have hsplit : 2 ^ 32 = 2 ^ (32 - b.toNat % 32) * 2 ^ (b.toNat % 32) := by rw [← Nat.pow_add, Nat.sub_add_cancel (by omega)]
  have hlow : a.toNat / 2 ^ (32 - b.toNat % 32) < 2 ^ (b.toNat % 32) := by
    rw [Nat.div_lt_iff_lt_mul (Nat.two_pow_pos _), Nat.mul_comm, ← hsplit]; exact a.isLt
  have hhigh : a.toNat * 2 ^ (b.toNat % 32) % 2 ^ 32 = a.toNat % 2 ^ (32 - b.toNat % 32) * 2 ^ (b.toNat % 32) := by
    rw [hsplit, Nat.mul_mod_mul_right]
  rw [BitVec.toNat_rotateLeft, Nat.shiftLeft_eq, Nat.shiftRight_eq_div_pow, rotLane, hhigh, ← Nat.shiftLeft_eq,
    Nat.shiftLeft_add_eq_or_of_lt hlow]

theorem rot_word (a b : Word) : laneMap2 .w32 rotLane a b = a.rotateLeft b.toNat := by
  rw [laneMap2_word, rotLane_eq, BitVec.ofNat_toNat, BitVec.setWidth_eq]

/-! ### Counts (R153) -/

theorem pop_word (a : Word) : laneMap2 .w32 popLane a 0 = BitVec.ofNat 32 ((List.range 32).countP (fun k => a.getLsbD k)) := by
  rw [laneMap2_word, popLane, popcount_sum]

theorem clz_word {a : Word} {k : Nat} (hk : a.getLsbD k = true) (habove : ∀ j, k < j → a.getLsbD j = false) :
    laneMap2 .w32 clzLane a 0 = BitVec.ofNat 32 (31 - k) := by
  have hge : 2 ^ k ≤ a.toNat := Nat.ge_two_pow_of_testBit hk
  have hlt : a.toNat < 2 ^ (k + 1) := Nat.lt_pow_two_of_testBit _ habove
  have h0 : a.toNat ≠ 0 := by have := Nat.two_pow_pos k; omega
  rw [laneMap2_word, clzLane, if_neg h0, (Nat.log2_eq_iff h0).2 ⟨hge, hlt⟩]

/-! ### Comparisons (R153) -/

theorem boolWord_eq_one {x : Bool} : boolWord x = 1 ↔ x = true := by cases x <;> decide

theorem laneVal_inj {uns : Bool} {a b : Word} : laneVal 32 uns a.toNat = laneVal 32 uns b.toNat ↔ a = b :=
  ⟨fun h => by rw [← ofInt_laneVal uns a, h, ofInt_laneVal], fun h => by rw [h]⟩

theorem cmpOp_lt {uns : Bool} {a b : Word} : cmpOp .lt uns a b = 1 ↔ laneVal 32 uns a.toNat < laneVal 32 uns b.toNat := by
  rw [cmpOp, boolWord_eq_one, condHolds, beq_iff_eq, wordOrder, compare_lt_iff_lt]

theorem cmpOp_le {uns : Bool} {a b : Word} : cmpOp .le uns a b = 1 ↔ laneVal 32 uns a.toNat ≤ laneVal 32 uns b.toNat := by
  rw [cmpOp, boolWord_eq_one, condHolds, bne_iff_ne, wordOrder, compare_le_iff_le]

theorem cmpOp_eq {uns : Bool} {a b : Word} : cmpOp .eq uns a b = 1 ↔ a = b := by
  rw [cmpOp, boolWord_eq_one, condHolds, beq_iff_eq, wordOrder, compare_eq_iff_eq, laneVal_inj]

theorem cmpOp_ne {uns : Bool} {a b : Word} : cmpOp .ne uns a b = 1 ↔ a ≠ b := by
  rw [cmpOp, boolWord_eq_one, condHolds, bne_iff_ne, wordOrder, ne_eq, compare_eq_iff_eq, laneVal_inj]

theorem wordOrder_swap (uns : Bool) (a b : Word) : wordOrder uns a b = (wordOrder uns b a).swap :=
  Std.OrientedCmp.eq_swap (cmp := (compare : Int → Int → Ordering))

theorem cmpOp_swap (uns : Bool) (a b : Word) : cmpOp .gt uns a b = cmpOp .lt uns b a ∧ cmpOp .ge uns a b = cmpOp .le uns b a := by
  rw [cmpOp, cmpOp, cmpOp, cmpOp, wordOrder_swap uns a b]
  cases wordOrder uns b a <;> exact ⟨rfl, rfl⟩

theorem cmpOp_bit (c : Cond) (uns : Bool) (a b : Word) : cmpOp c uns a b = 0 ∨ cmpOp c uns a b = 1 := by
  rw [cmpOp]
  cases condHolds c (wordOrder uns a b)
  · exact .inl rfl
  · exact .inr rfl

/-! ### Bit fields (R154) -/

theorem testBit_field (x lo len k : Nat) : (x / 2 ^ lo % 2 ^ len).testBit k = (decide (k < len) && x.testBit (lo + k)) := by
  rw [Nat.testBit_mod_two_pow, Nat.testBit_div_two_pow, Nat.add_comm]

/-- A field extended by its sign is that of a word of its length. -/
theorem signExtend_eq_toInt {n : Nat} (hn : 0 < n) (v : Nat) : signExtend n v = (BitVec.ofNat n v).toInt := by
  obtain ⟨m, rfl⟩ : ∃ m, n = m + 1 := ⟨n - 1, by omega⟩
  have hp : 2 ^ (m + 1) = 2 * 2 ^ m := Nat.pow_succ'
  rw [signExtend, BitVec.toInt, BitVec.toNat_ofNat, Nat.add_sub_cancel]
  split <;> split <;> omega

theorem bfx_unsigned {a b : Word} {k : Nat} (hk : k < 32) :
    (bfxOp true a b).getLsbD k = (decide (k < fieldLen b) && a.getLsbD (fieldLo b + k)) := by
  rw [bfxOp]
  rw [if_pos rfl, ofNat_wrapInt, BitVec.ofInt_natCast, BitVec.getLsbD_ofNat, testBit_field]
  simp [hk, BitVec.getLsbD]

theorem bfx_signed {a b : Word} {k : Nat} (hk : k < 32) :
    (bfxOp false a b).getLsbD k = if k < fieldLen b then a.getLsbD (fieldLo b + k) else a.getLsbD (fieldLo b + fieldLen b - 1) := by
  have hlen : 0 < fieldLen b := Nat.succ_pos _
  have hsum : fieldLo b + (fieldLen b - 1) = fieldLo b + fieldLen b - 1 := by omega
  have hbit (j : Nat) : (BitVec.ofNat (fieldLen b) (a.toNat / 2 ^ fieldLo b % 2 ^ fieldLen b)).getLsbD j =
      (decide (j < fieldLen b) && a.getLsbD (fieldLo b + j)) := by
    rw [BitVec.getLsbD_ofNat, testBit_field, ← Bool.and_assoc, Bool.and_self]; rfl
  rw [bfxOp]
  rw [if_neg (by decide), ofNat_wrapInt, signExtend_eq_toInt hlen, ← BitVec.signExtend, BitVec.getLsbD_signExtend, BitVec.msb_eq_getLsbD_last,
    hbit, hbit, hsum]
  by_cases h : k < fieldLen b
  · simp [hk, h]
  · simp [hk, h, hlen]

/-- The bits of the word in which a field alone is set. -/
theorem getLsbD_fieldMask (lo len k : Nat) (hk : k < 32) :
    (BitVec.ofNat 32 ((2 ^ len - 1) * 2 ^ lo)).getLsbD k = decide (lo ≤ k ∧ k < lo + len) := by
  rw [BitVec.getLsbD_ofNat, Nat.testBit_mul_two_pow, Nat.testBit_two_pow_sub_one]
  by_cases h : lo ≤ k
  · have hiff : k - lo < len ↔ k < lo + len := by omega
    simp [hk, h, hiff]
  · simp [h]

theorem getLsbD_fieldValue (v lo len k : Nat) (hk : k < 32) :
    (BitVec.ofNat 32 (v % 2 ^ len * 2 ^ lo)).getLsbD k = (decide (lo ≤ k ∧ k < lo + len) && v.testBit (k - lo)) := by
  rw [BitVec.getLsbD_ofNat, Nat.testBit_mul_two_pow, Nat.testBit_mod_two_pow]
  by_cases h : lo ≤ k
  · have hiff : k - lo < len ↔ k < lo + len := by omega
    simp [hk, h, hiff]
  · simp [h]

theorem bfi_word {a b c : Word} {k : Nat} (hk : k < 32) : (bfiOp a c b).getLsbD k =
    if fieldLo b ≤ k ∧ k < fieldLo b + fieldLen b then c.getLsbD (k - fieldLo b) else a.getLsbD k := by
  rw [bfiOp]
  rw [BitVec.getLsbD_or, BitVec.getLsbD_and, BitVec.getLsbD_and, BitVec.getLsbD_not, getLsbD_fieldMask _ _ _ hk, getLsbD_fieldValue _ _ _ _ hk]
  by_cases h : fieldLo b ≤ k ∧ k < fieldLo b + fieldLen b
  · simp [hk, h, BitVec.getLsbD]
  · simp [hk, h]

/-- Settles O12: a whole word is one lane; a field is read bit by bit. -/
theorem shiftsAndFields : Obligations.ShiftsAndFields := by
  unfold Obligations.ShiftsAndFields
  refine ⟨fun a b => ?_, fun a b c k hk => ⟨bfx_unsigned hk, bfx_signed hk, bfi_word hk⟩⟩
  exact ⟨shl_word a b, shr_unsigned a b, shr_signed a b, rot_word a b, pop_word a, fun _ _ => clz_word, by decide,
    by rw [cmpOp_lt, laneVal_signed, laneVal_signed], by rw [cmpOp_lt, laneVal_unsigned, laneVal_unsigned, Nat.cast_lt],
    by rw [cmpOp_le, laneVal_signed, laneVal_signed], by rw [cmpOp_le, laneVal_unsigned, laneVal_unsigned, Nat.cast_le],
    fun uns => ⟨cmpOp_eq, cmpOp_ne, cmpOp_swap uns a b⟩, fun c uns => cmpOp_bit c uns a b⟩

end Sys2Proof.Machine

/-! PROOFS. O43: a trap taken. -/

namespace Sys2Proof.Machine

/-- What a trap at level 0 or 1 makes of its core (R420). -/
def trapped (level : Nat) (cause : Byte) (epc : Dword) (info : Word) (k : Core) : Core :=
  match level with
  | 0 => { k with tb0 := { cause := cause, epc := epc, info := info, ret := k.tb0.ret }, level := 1
                  f0 := freezeWin k.ctx k.f0, h1 := dueWin k.tvec, ctx := clearBlock k.ctx }
  | _ => { k with tb1 := { cause := cause, epc := epc, info := info, ret := k.tb1.ret }, level := 2
                  h1 := freezeWin k.ctx k.h1, h2 := dueWin k.tvec, ctx := clearBlock k.ctx }

theorem takeTrapAt_eq {level : Nat} (h : level < 2) (s : State) (c : Nat) (cause : Byte) (epc : Dword) (info : Word) :
    takeTrapAt s c level cause epc info = updCore s c (trapped level cause epc info) := by
  match level, h with
  | 0, _ => rfl
  | 1, _ => rfl

/-- The windows but the frozen one and the handler's stay (R420). -/
theorem coreWin_trapped {level j : Nat} (hl : level < 2) (h0 : j ≠ level) (h1 : j ≠ level + 1) (hj : j < 3) (cause : Byte) (epc : Dword)
    (info : Word) (k : Core) : coreWin (trapped level cause epc info k) j = coreWin k j := by
  match level, hl with
  | 0, _ =>
    obtain rfl : j = 2 := by omega
    rfl
  | 1, _ =>
    obtain rfl : j = 0 := by omega
    rfl

/-- Settles O43: a trap is one update of its core, and at either level each field of that update is as the rule says. -/
theorem trapTaken : Obligations.TrapTaken := by
  unfold Obligations.TrapTaken
  intro s c level cause epc info hc hl
  have hwin : ∀ j, j ≠ level → j ≠ level + 1 → j < 3 →
      coreWin (trapped level cause epc info (getCore s c)) j = coreWin (getCore s c) j :=
    fun j h0 h1 hj => coreWin_trapped hl h0 h1 hj cause epc info _
  have hothers : ∀ j, j ≠ c → getCore (updCore s c (trapped level cause epc info)) j = getCore s j :=
    fun j => getCore_updCore_other s c j _
  dsimp only
  rw [takeTrapAt_eq hl, getCore_updCore_self s c _ hc]
  match level, hl with
  | 0, _ => exact ⟨rfl, rfl, rfl, rfl, rfl, rfl, rfl, hwin, rfl, rfl, rfl, rfl, rfl, rfl, rfl, rfl, rfl, rfl, rfl, rfl, rfl, rfl, hothers, rfl⟩
  | 1, _ => exact ⟨rfl, rfl, rfl, rfl, rfl, rfl, rfl, hwin, rfl, rfl, rfl, rfl, rfl, rfl, rfl, rfl, rfl, rfl, rfl, rfl, rfl, rfl, hothers, rfl⟩

end Sys2Proof.Machine

/-! PROOFS. O26: the slots of a bobbin go round. A fill, a consumer and an advance of BADV each set the state of one slot and
move one pointer past it. -/

namespace Sys2Proof.Machine

/-! ### Slots and definitions of a bobbin -/

@[simp] theorem getBob_putBob (m : CtxMem) (k : Nat) (b : Bobbin) : getBob (putBob m k b) k = some b := mapFind_mapPut_same _ _ _

@[simp] theorem slotState_putBob (m : CtxMem) (k : Nat) (x b : Bobbin) (i : Nat) : slotState (putBob m k x) b i = slotState m b i := rfl

theorem slotState_setSlot_same (m : CtxMem) (b : Bobbin) (i : Nat) {v : BitVec 2} (hv : v ≠ 0) : slotState (setSlot m b i v) b i = v := by
  rw [slotState, setSlot, mapSet, if_neg hv, mapGet_mapPut_same]

theorem slotState_setSlot_other (m : CtxMem) (b : Bobbin) {i j : Nat} {v : BitVec 2} (hv : v ≠ 0) (h : i ≠ j) :
    slotState (setSlot m b j v) b i = slotState m b i := by
  rw [slotState, setSlot, mapSet, if_neg hv, mapGet_mapPut_other _ _ _ _ _ (by omega), slotState]

/-- A slot of a tile table in canonical form takes any state, EMPTY too. -/
theorem slotState_setSlot_of_wf {m : CtxMem} (h : mapWf 0 m.tiles = true) (b : Bobbin) (i : Nat) (v : BitVec 2) :
    slotState (setSlot m b i v) b i = v :=
  mapGet_mapSet_same _ _ _ _ h

/-- A pointer moves to the next slot, from the last one to the first. -/
theorem next_slot {p n : Nat} (h : p < n) : (p + 1) % max 1 n = if p + 1 = n then 0 else p + 1 := by
  rw [Nat.max_eq_right (by omega)]
  split
  · next hp => rw [hp, Nat.mod_self]
  · exact Nat.mod_eq_of_lt (by omega)

/-! ### What fills, consumers and BADV do -/

theorem takeFill_isSome {m : CtxMem} {k : Nat} {b : Bobbin} : (takeFill m k b).isSome = true ↔ slotState m b b.tail = 0 := by
  unfold takeFill
  split
  · next h => exact iff_of_true rfl h
  · next h => exact iff_of_false Bool.false_ne_true h

theorem takeDrain_isSome {m : CtxMem} {k : Nat} {b : Bobbin} : (takeDrain m k b).isSome = true ↔ slotState m b b.head = 2 := by
  unfold takeDrain
  split
  · next h => exact iff_of_true rfl h
  · next h => exact iff_of_false Bool.false_ne_true h

/-- A fill makes the slot at TAIL filling, and moves TAIL. -/
theorem takeFill_eq_some {m m' : CtxMem} {k j : Nat} {b : Bobbin} (h : takeFill m k b = some (j, m')) :
    j = b.tail ∧ ∃ x, m' = putBob (setSlot m b b.tail 1) k x ∧ x.tail = (b.tail + 1) % max 1 b.nslot ∧ x.head = b.head := by
  unfold takeFill at h
  split at h
  · cases h; exact ⟨rfl, _, rfl, rfl, rfl⟩
  · cases h

/-- A consumer makes the slot at HEAD draining, and moves HEAD. -/
theorem takeDrain_eq_some {m m' : CtxMem} {k j : Nat} {b : Bobbin} (h : takeDrain m k b = some (j, m')) :
    j = b.head ∧ ∃ x, m' = putBob (setSlot m b b.head 3) k x ∧ x.head = (b.head + 1) % max 1 b.nslot ∧ x.tail = b.tail := by
  unfold takeDrain at h
  split at h
  · cases h; exact ⟨rfl, _, rfl, rfl, rfl⟩
  · cases h

/-- A tail advance makes the empty slot at TAIL ready, and moves TAIL. -/
theorem badvOne_tail {m m' : CtxMem} {k : Nat} {b : Bobbin} (h : badvOne m k b true = some m') :
    slotState m b b.tail = 0 ∧
      ∃ x, m' = putBob (setSlot m b b.tail 2) k x ∧ x.tail = (b.tail + 1) % max 1 b.nslot ∧ x.head = b.head := by
  simp only [badvOne, if_true] at h
  split at h
  · next h0 => cases h; exact ⟨h0, _, rfl, rfl, rfl⟩
  · cases h

/-- A head advance empties the ready or draining slot at HEAD, and moves HEAD. -/
theorem badvOne_head {m m' : CtxMem} {k : Nat} {b : Bobbin} (h : badvOne m k b false = some m') :
    (slotState m b b.head = 2 ∨ slotState m b b.head = 3) ∧
      ∃ x, m' = putBob (setSlot m b b.head 0) k x ∧ x.head = (b.head + 1) % max 1 b.nslot ∧ x.tail = b.tail := by
  simp only [badvOne, Bool.false_eq_true, if_false] at h
  split at h
  · next h0 => cases h; exact ⟨h0, _, rfl, rfl, rfl⟩
  · cases h

/-- Settles O26: each operation's slot and pointer, read back. -/
theorem bobbinPointers : Obligations.BobbinPointers := by
  unfold Obligations.BobbinPointers
  intro m k b _ _ hhead htail next
  have h1 : (1 : BitVec 2) ≠ 0 := by decide
  have h2 : (2 : BitVec 2) ≠ 0 := by decide
  have h3 : (3 : BitVec 2) ≠ 0 := by decide
  refine ⟨takeFill_isSome, takeDrain_isSome, fun j m' h => ?_, fun j m' h => ?_, fun m' h => ?_, fun m' h => ?_⟩
  · obtain ⟨rfl, x, rfl, ht, hh⟩ := takeFill_eq_some h
    exact ⟨rfl, x, getBob_putBob .., ht.trans (next_slot htail), hh, slotState_setSlot_same _ _ _ h1,
      fun i hi => slotState_setSlot_other _ _ h1 hi⟩
  · obtain ⟨rfl, x, rfl, hh, ht⟩ := takeDrain_eq_some h
    exact ⟨rfl, x, getBob_putBob .., hh.trans (next_slot hhead), ht, slotState_setSlot_same _ _ _ h3,
      fun i hi => slotState_setSlot_other _ _ h3 hi⟩
  · obtain ⟨h0, x, rfl, ht, hh⟩ := badvOne_tail h
    exact ⟨h0, slotState_setSlot_same _ _ _ h2, x, getBob_putBob .., ht.trans (next_slot htail), hh⟩
  · obtain ⟨h0, x, rfl, hh, ht⟩ := badvOne_head h
    exact ⟨h0, fun hw => slotState_setSlot_of_wf hw b b.head 0, x, getBob_putBob .., hh.trans (next_slot hhead), ht⟩

end Sys2Proof.Machine

/-! PROOFS. O25: BADV behind a slot that waits to empty. The statement says that BADV leaves the advances alone. In the
model, as R190 has it, the slots that a consumer has finished with also empty once the advance has emptied the older slot
they waited for, so the statement fails for a bobbin that holds such a slot. -/

namespace Sys2Proof.Machine

/-! ### What BADV makes of its bobbin -/

theorem getCtx_updWin (s : State) (c : CtxId) (f : Window → Window) : getCtx (updWin s c f) c = getCtx s c := by
  cases c with
  | node id =>
    rw [getCtx, updWin, getNode_updNode s id (fun n => { n with win := n.win.map f }) fun _ => rfl, getCtx]
    cases getNode s id <;> rfl
  | fw k l =>
    by_cases hk : k.val < s.cores.length
    · rw [getCtx, updWin, getCore_updCore_self _ _ _ hk, getCtx, setCoreWin_ctx]
    · rw [updWin, updCore_out _ (Nat.not_lt.1 hk)]

/-- A firing that replaces its context's memory leaves that memory. -/
theorem getCtx_finish_updMem {s : State} {e : Env} (h : focusEnv s = some e) (m : CtxMem) (sl : List Slot) (out : List (Target × Token)) :
    getCtx (finish (updMem s e.c (fun _ => m)) e sl out) e.c = some { e.ctx with mem := m } := by
  rw [finish, getCtx_updWin, updMem, getCtx_updCtx_focus h]

/-- BADV that makes all its advances completes, and finished slots that waited for an emptied one empty (R188, R190). -/
theorem badv_completes (t : Tgt) {b : Fin 32} {side : Bool} {n : Fin 64} (s : State) {e : Env} {x : Bobbin} {y : CtxMem}
    (hx : getBob e.ctx.mem b.val = some x) (hy : badvMany b.val side (min (n.val + 1) x.nslot) e.ctx.mem = (y, 0)) :
    Acts (.badv t b side n) [.a] t s e (updMem s e.c (fun _ => settleSlots y)) (toAll (tgt1 t) (operands e.u).a) :=
  completes_of rfl (issue_free rfl rfl rfl) rfl (List.Subset.refl _) rfl rfl (by simp only [triggered, hx, badvGo, hy])

/-! ### The counterexample -/

section
open Sys2Proof.Tests

/-- BADV of one head advance, on a bobbin whose two slots drain: the second one's consumer has finished with it. -/
def finishedBehind : State :=
  withMem (withBob 3 3 (onInstr (.badv next1 2 false 0) [] (num 0) (num 0) (num 0)))
    (fun m => { m with bobbins := [(2, { bob2 with finished := [1] })] })

/-- The memory once the one advance has been made. -/
def advancedPast (m : CtxMem) : CtxMem := (badvMany 2 false 1 m).1

theorem finishedBehind_fires : ∃ e, MayFire finishedBehind e [.a] (tgt1 next1) ∧
    (getBob e.ctx.mem 2 == some { bob2 with finished := [1] } && (badvMany 2 false 1 e.ctx.mem).2 == 0 &&
      slotState (advancedPast e.ctx.mem) bob2 1 == 3 && slotState (settleSlots (advancedPast e.ctx.mem)) bob2 1 == 0) = true :=
  fires_meets (by decide +kernel)

/-- Refutes O25: BADV empties the slot at HEAD, and with it the finished slot behind it (R190), which the statement leaves
draining. -/
theorem not_banksComplete : ¬ Obligations.BanksComplete := by
  unfold Obligations.BanksComplete
  intro h
  obtain ⟨e, hfire, hfacts⟩ := finishedBehind_fires
  simp only [Bool.and_eq_true, beq_iff_eq] at hfacts
  obtain ⟨⟨⟨hbob, hall⟩, hdrains⟩, hempties⟩ := hfacts
  have hmany : badvMany (2 : Fin 32).val false (min ((0 : Fin 64).val + 1) { bob2 with finished := [1] }.nslot) e.ctx.mem =
      (advancedPast e.ctx.mem, 0) := Prod.ext rfl hall
  obtain ⟨-, -, -, -, hbobbin, -⟩ := h.1 next1 0 2 0 0 false finishedBehind e
  obtain ⟨-, -, hadvance⟩ := hbobbin _ hbob
  have hclaim := hadvance _ hmany hfire trivial
  have hmodel := badv_completes next1 finishedBehind hbob hmany hfire trivial
  have hctx := congrArg (getCtx · e.c) (Host.Outcome.next.inj (hmodel.symm.trans hclaim))
  simp only [getCtx_finish_updMem hfire.focus, Option.some.injEq] at hctx
  have hmem : settleSlots (advancedPast e.ctx.mem) = advancedPast e.ctx.mem := congrArg Ctx.mem hctx
  rw [hmem, hdrains] at hempties
  exact absurd hempties (by decide)

end

end Sys2Proof.Machine

/-! PROOFS. O27: the status of PIN, and the UNPIN that undoes it. The lines that a lock fills into their home ways change no
line, no frame and nothing of the node; so a PIN is one more pin of its frame and one more of its node, and UNPIN finds it. -/

namespace Sys2Proof.Machine

/-! ### What a move of lines leaves alone -/

/-- The focus and the agenda, the nodes, the cores and the locked superblocks. -/
def standing (s : State) : Run × Dispatcher × List Core × List Nat := (s.run, s.dsp, s.cores, s.mem.locked)

theorem standing_eq {s t : State} :
    standing t = standing s ↔ t.run = s.run ∧ t.dsp = s.dsp ∧ t.cores = s.cores ∧ t.mem.locked = s.mem.locked := by
  simp only [standing, Prod.mk.injEq]

theorem standing_setBacking (s : State) (k : Nat) (m : Store) : standing (setBacking s k m) = standing s := by
  unfold setBacking
  split <;> rfl

theorem standing_dropSoft (s : State) (k : Nat) (sram hbm : Bool) : standing (dropSoft s k sram hbm) = standing s := rfl

theorem standing_setWays (s : State) (set : Nat) (l : List HomeWay) : standing (setWays s set l) = standing s := rfl

theorem standing_noteHbm (s : State) (n : Nat) : standing (noteHbm s n) = standing s := rfl

/-- A dirty line is forgotten. -/
theorem PlainMemory.eraseDirty {s : State} (h : PlainMemory s) (k : Nat) :
    PlainMemory { s with mem := { s.mem with dirty := mapErase s.mem.dirty k } } :=
  ⟨h.sound, h.unmarked, h.host0, h.host1, fun p hp => h.home p ((mapErase_sublist _ k).subset hp), h.rising.sublist (mapErase_sublist _ k),
    h.kept⟩

theorem standing_writeBack {s : State} (h : PlainMemory s) (k : Nat) : standing (writeBack s k) = standing s := by
  unfold writeBack
  split
  · rfl
  · next l _ =>
    have hd := (h.eraseDirty k).decodeAt k (homeBank k) l
    have hr := (lifted_plain h k true true).hostRequest k
    simp only [softOf] at hd
    simp only [softOf, hd, show dropSoft _ k true true = lifted s k true true from rfl, hr]
    exact (standing_noteHbm _ _).trans (standing_setBacking _ _ _)

theorem standing_drainBlock (s : State) (k : Nat) : standing (drainBlock s k) = standing s := by
  unfold drainBlock
  split
  · rfl
  · exact (standing_noteHbm _ _).trans (standing_setBacking _ _ _)

/-- From one state of plain memory to another, lines having moved: every line reads as before, and the nodes stand as they did. -/
structure Moves (s t : State) : Prop extends Reads s t where
  stands : standing t = standing s

theorem Moves.refl {s : State} (h : PlainMemory s) : Moves s s := ⟨.refl h, rfl⟩

theorem Moves.trans {s t u : State} (h : Moves s t) (g : Moves t u) : Moves s u := ⟨h.toReads.trans g.toReads, g.stands.trans h.stands⟩

theorem moves_foldl {α : Type} {f : State → α → State} (hf : ∀ s x, PlainMemory s → Moves s (f s x)) :
    ∀ (l : List α) {s : State}, PlainMemory s → Moves s (l.foldl f s)
  | [], _, h => .refl h
  | x :: l, s, h => (hf s x h).trans (moves_foldl hf l (hf s x h).plain)

theorem moves_evictSb {s : State} (h : PlainMemory s) (set sb : Nat) : Moves s (evictSb s set sb) where
  toReads := reads_evictSb h set sb
  stands := by
    rw [evictSb, standing_setWays]
    exact (moves_foldl (fun s k h => ⟨(reads_writeBack h k).trans (reads_dropSoft (reads_writeBack h k).plain k true false),
      (standing_dropSoft _ _ _ _).trans (standing_writeBack h k)⟩) (sbLines sb) h).stands

theorem moves_enterWay {s : State} (h : PlainMemory s) (k : Nat) : Moves s (enterWay s k) where
  toReads := reads_enterWay h k
  stands := by
    unfold enterWay
    simp only
    split
    · exact standing_setWays _ _ _
    · rw [standing_setWays]
      split
      · rfl
      · split
        · exact (moves_evictSb h _ _).stands
        · rfl

theorem moves_enterBuffer {s : State} (h : PlainMemory s) (k : Nat) : Moves s (enterBuffer s k) where
  toReads := reads_enterBuffer h k
  stands := by
    have hn : standing (if (mapGet [] s.mem.buffers (unitOf k)).elem k then s else noteHbm s 1) = standing s := by
      split <;> rfl
    unfold enterBuffer
    simp only
    split
    · exact (standing_drainBlock _ _).trans hn
    · exact hn

theorem moves_noteHbm {s : State} (h : PlainMemory s) (n : Nat) : Moves s (noteHbm s n) := ⟨reads_noteHbm h n, standing_noteHbm s n⟩

/-! ### A read where no error lies -/

theorem hbmRead_clean {s : State} (h : s.mem.soft = []) (k : Nat) : hbmRead s k = (peekLine s k, s) := by
  simp [hbmRead, h]

theorem bankRead_clean {s : State} (hp : PlainMemory s) (h : s.mem.soft = []) (k : Nat) : bankRead s k = (peekLine s k, s) := by
  have hs : softOf s k = [] := by rw [softOf, h]; rfl
  have hd := hp.decodeAt k (homeBank k) (peekLine s k)
  rw [hs] at hd
  simp [bankRead, hs, hd]

theorem Moves.clean {s t : State} (h : Moves s t) (hs : s.mem.soft = []) : t.mem.soft = [] :=
  List.sublist_nil.1 (hs ▸ h.soft)

/-- A read of any line, whatever it fills or evicts. -/
theorem moves_readLine {s : State} (hp : PlainMemory s) (h : s.mem.soft = []) (k : Nat) : Moves s (readLine s k).2 := by
  unfold readLine
  split
  · rw [hbmRead_clean h, ite_self]
    exact moves_enterBuffer hp k
  · split
    · rw [bankRead_clean hp h]; exact .refl hp
    · split
      · have hw := moves_enterWay hp k
        rw [bankRead_clean hw.plain (hw.clean h)]
        exact hw
      · simp only [fillWay, hp.hostRequest]
        split
        · have hn := moves_noteHbm hp 1
          rw [hbmRead_clean (hn.clean h)]
          exact hn.trans (moves_enterWay hn.plain k)
        · exact moves_enterWay hp k

/-- A superblock's lines filled (R193). -/
theorem moves_fillLinesOf : ∀ (ks : List Nat) {s : State}, PlainMemory s → s.mem.soft = [] → Moves s (fillLinesOf s ks)
  | [], _, hp, _ => .refl hp
  | k :: ks, s, hp, h => by
    have hk : Moves s (if resident s k then s else (readLine s k).2) := by
      split
      · exact .refl hp
      · exact moves_readLine hp h k
    exact hk.trans (moves_fillLinesOf ks hk.plain (hk.clean h))

/-! ### Pins of a frame -/

/-- A frame with one pin more. -/
def morePins (x : Frame) : Frame := { x with pins := x.pins + 1 }

/-- A frame with one pin fewer, if it has one. -/
def fewerPins (x : Frame) : Frame := if x.pins = 0 then x else { x with pins := x.pins - 1 }

theorem toNat_morePins {x : Frame} (h : x.pins ≠ 4095) : (morePins x).pins.toNat = x.pins.toNat + 1 := by
  simp only [morePins]
  bv_omega

theorem toNat_fewerPins (x : Frame) : (fewerPins x).pins.toNat = x.pins.toNat - 1 := by
  unfold fewerPins
  split
  · next h => simp [h]
  · simp only; bv_omega

theorem fewerPins_morePins {x : Frame} (h : x.pins ≠ 4095) : fewerPins (morePins x) = x := by
  have h0 : (morePins x).pins ≠ 0 := fun h0 => by
    have := toNat_morePins h
    rw [h0] at this
    cases this
  rw [fewerPins, if_neg h0]
  simp [morePins]

theorem pinFrame_eq (s : State) (f : Nat) : pinFrame s f = setFrame s f (morePins (getFrame s f)) := rfl

theorem pinFrame_frames_wf {s : State} (h : mapWf Frame.init s.mem.frames = true) (f : Nat) : mapWf Frame.init (pinFrame s f).mem.frames = true :=
  mapSet_wf _ _ h

/-- A pinned frame is entered whatever the form of the table: it is no frame as at reset. -/
theorem getFrame_pinFrame {s : State} {f : Nat} (h : (getFrame s f).pins ≠ 4095) (j : Nat) :
    getFrame (pinFrame s f) j = if j = f then morePins (getFrame s f) else getFrame s j := by
  have hne : morePins (getFrame s f) ≠ Frame.init := fun he => by
    have := toNat_morePins h
    rw [he] at this
    cases this
  rw [pinFrame_eq, getFrame, setFrame, mapSet, if_neg hne]
  split
  · next hj => rw [hj, mapGet_mapPut_same]
  · next hj => rw [mapGet_mapPut_other _ _ _ _ _ hj, getFrame]

theorem getFrame_unpinFrame {s : State} (h : mapWf Frame.init s.mem.frames = true) (f j : Nat) :
    getFrame (unpinFrame s f) j = if j = f then fewerPins (getFrame s f) else getFrame s j := by
  by_cases h0 : (getFrame s f).pins = 0
  · rw [unpinFrame, if_pos h0, fewerPins, if_pos h0]
    split
    · next hj => rw [hj]
    · rfl
  · rw [unpinFrame, if_neg h0, getFrame_setFrame h, fewerPins, if_neg h0]

/-! ### The instruction in focus keeps its place -/

theorem focusEnv_of {s t : State} {e : Env} {x : Ctx} (h : focusEnv s = some e) (hr : t.run = s.run) (hx : getCtx t e.c = some x)
    (hw : getWin t e.c = getWin s e.c) : focusEnv t = some { e with ctx := x } := by
  obtain ⟨hc, hwin⟩ := focus_ctx h
  unfold focusEnv at h ⊢
  rw [hr]
  split at h
  · next c i _ =>
    have hci : e.c = c := by
      unfold envAt at h
      split at h
      · obtain ⟨u, -, rfl⟩ := Option.map_eq_some_iff.1 h; rfl
      · cases h
    subst hci
    simp only [envAt, hc, hwin, hx, hw] at h ⊢
    obtain ⟨u, hu, he⟩ := Option.map_eq_some_iff.1 h
    rw [hu, ← he]
    rfl
  · cases h

theorem focusEnv_of_standing {s t : State} (h : standing t = standing s) : focusEnv t = focusEnv s := by
  obtain ⟨hrun, hdsp, hcores, -⟩ := standing_eq.1 h
  simp only [focusEnv, envAt, getCtx, getWin, getNode, getCore, hrun, hdsp, hcores]

/-! ### PIN -/

/-- What a node notes of a pin: its frame, its kind, and the superblock that it locks. -/
abbrev Pin := Nat × Bool × Option Nat

/-- A frame pinned, and the pin entered with the node's. -/
def withPin (s : State) (c : CtxId) (p : Pin) : State := updCtx (pinFrame s p.1) c (fun x => { x with pins := x.pins ++ [p] })

/-- One more superblock locked. -/
def addLock (s : State) (sb : Nat) : State := { s with mem := { s.mem with locked := s.mem.locked ++ [sb] } }

theorem locked_addLock (s : State) (sb : Nat) : (addLock s sb).mem.locked = s.mem.locked ++ [sb] := rfl

/-- PIN locks its superblock. -/
def canLock (s : State) (addr : Nat) (lock : Bool) : Bool := lock && !(getFrame s (frameOf addr)).ms && lockRoom s (lockKey 0 addr)

theorem pinAt_refused {s : State} {e : Env} {addr : Nat} (lock : Bool) (h : pinStatus s e addr ≠ 0) :
    pinAt s e addr lock = (s, pinStatus s e addr) := if_pos h

theorem pinAt_locks {s : State} {e : Env} {addr : Nat} {lock : Bool} (h : pinStatus s e addr = 0) (hl : canLock s addr lock = true) :
    pinAt s e addr lock =
      (addLock (fillLinesOf (withPin s e.c (frameOf addr, lock, some (lockKey 0 addr))) (sbLines (lockKey 0 addr))) (lockKey 0 addr), 0) := by
  unfold canLock at hl
  simp [pinAt, h, hl, addLock, withPin]

theorem pinAt_unlocked {s : State} {e : Env} {addr : Nat} {lock : Bool} (h : pinStatus s e addr = 0) (hl : canLock s addr lock = false) :
    pinAt s e addr lock = (withPin s e.c (frameOf addr, lock, none), if lock then 5 else 0) := by
  unfold canLock at hl
  simp [pinAt, h, hl, withPin]

/-! ### The status of PIN -/

section

variable {s : State} {e : Env} {addr : Nat} {lock : Bool}

/-- The first check that fails gives the status (R193). -/
theorem pinStatus_cases (s : State) (e : Env) (addr : Nat) :
    (pinStatus s e addr = 1 ∧ (getFrame s (frameOf addr)).state ≠ 0) ∨
    (pinStatus s e addr = 2 ∧ (getFrame s (frameOf addr)).state = 0 ∧ (getFrame s (frameOf addr)).pins = 4095) ∨
    (pinStatus s e addr = 3 ∧ (getFrame s (frameOf addr)).state = 0 ∧ (getFrame s (frameOf addr)).pins ≠ 4095 ∧ 64 ≤ e.ctx.pins.length) ∨
    (pinStatus s e addr = 0 ∧ (getFrame s (frameOf addr)).state = 0 ∧ (getFrame s (frameOf addr)).pins ≠ 4095 ∧
      ¬ 64 ≤ e.ctx.pins.length) := by
  simp only [pinStatus]
  split
  · next h => exact .inl ⟨rfl, h⟩
  · next h =>
    have h0 := not_not.1 h
    split
    · next hp => exact .inr (.inl ⟨rfl, h0, hp⟩)
    · next hp =>
      split
      · next hl => exact .inr (.inr (.inl ⟨rfl, h0, hp, hl⟩))
      · next hl => exact .inr (.inr (.inr ⟨rfl, h0, hp, hl⟩))

theorem pinStatus_eq_one : pinStatus s e addr = 1 ↔ (getFrame s (frameOf addr)).state ≠ 0 := by
  obtain ⟨h, hs⟩ | ⟨h, hs, -⟩ | ⟨h, hs, -⟩ | ⟨h, hs, -⟩ := pinStatus_cases s e addr <;> simp_all

theorem pinStatus_eq_two :
    pinStatus s e addr = 2 ↔ (getFrame s (frameOf addr)).state = 0 ∧ (getFrame s (frameOf addr)).pins = 4095 := by
  obtain ⟨h, hs⟩ | ⟨h, hs, hp⟩ | ⟨h, hs, hp, -⟩ | ⟨h, hs, hp, -⟩ := pinStatus_cases s e addr <;> simp_all

theorem pinStatus_eq_three : pinStatus s e addr = 3 ↔
    (getFrame s (frameOf addr)).state = 0 ∧ (getFrame s (frameOf addr)).pins ≠ 4095 ∧ 64 ≤ e.ctx.pins.length := by
  obtain ⟨h, hs⟩ | ⟨h, hs, hp⟩ | ⟨h, hs, hp, hl⟩ | ⟨h, hs, hp, hl⟩ := pinStatus_cases s e addr <;> simp_all

theorem pins_of_pinStatus (h : pinStatus s e addr = 0) : (getFrame s (frameOf addr)).pins ≠ 4095 := by
  obtain ⟨h', -⟩ | ⟨h', -⟩ | ⟨h', -⟩ | ⟨-, -, hp, -⟩ := pinStatus_cases s e addr
  · omega
  · omega
  · omega
  · exact hp

theorem pinAt_status (h : pinStatus s e addr = 0) : (pinAt s e addr lock).2 = if lock && !canLock s addr lock then 5 else 0 := by
  cases hl : canLock s addr lock with
  | false => rw [pinAt_unlocked h hl]; simp
  | true => rw [pinAt_locks h hl]; simp

/-- PIN refuses with the status of its check. -/
theorem pinAt_refuses_iff {v : Nat} (h0 : v ≠ 0) (h5 : v ≠ 5) : (pinAt s e addr lock).2 = v ↔ pinStatus s e addr = v := by
  by_cases h : pinStatus s e addr = 0
  · rw [pinAt_status h, h]
    split <;> simp [h0.symm, h5.symm]
  · rw [pinAt_refused _ h]

theorem pinAt_takes_iff : (pinAt s e addr lock).2 = 0 ∨ (pinAt s e addr lock).2 = 5 ↔ pinStatus s e addr = 0 := by
  by_cases h : pinStatus s e addr = 0
  · rw [pinAt_status h]
    split <;> simp [h]
  · rw [pinAt_refused _ h]
    refine iff_of_false ?_ h
    rintro (h0 | h5)
    · exact h h0
    · have h5 : pinStatus s e addr = 5 := h5
      obtain ⟨h', -⟩ | ⟨h', -⟩ | ⟨h', -⟩ | ⟨h', -⟩ := pinStatus_cases s e addr <;> omega

theorem pinAt_unchanged (h : pinStatus s e addr ≠ 0) : (pinAt s e addr lock).1 = s := congrArg Prod.fst (pinAt_refused lock h)

theorem pinAt_status_five (h : (pinAt s e addr lock).2 = 5) : lock = true := by
  rw [pinAt_status (pinAt_takes_iff.1 (.inr h))] at h
  split at h
  · next hl => exact (Bool.and_eq_true .. ▸ hl).1
  · cases h

/-- A PIN with a lock gives 0 only where it locks. -/
theorem canLock_of_pinAt (h : (pinAt s e addr true).2 = 0) : canLock s addr true = true := by
  rw [pinAt_status (pinAt_takes_iff.1 (.inl h))] at h
  split at h
  · cases h
  · next hl => simpa using hl

theorem ms_of_canLock (h : canLock s addr lock = true) : (getFrame s (frameOf addr)).ms = false := by
  simp only [canLock, Bool.and_eq_true, Bool.not_eq_true'] at h
  exact h.1.2

theorem lockKey_mem_of_canLock (h : pinStatus s e addr = 0) (hl : canLock s addr lock = true) :
    lockKey 0 addr ∈ (pinAt s e addr lock).1.mem.locked := by
  rw [pinAt_locks h hl, locked_addLock]
  exact List.mem_append_right _ (List.mem_singleton.2 rfl)

end

/-- What a PIN that takes the pin `p` leaves: one pin more of its frame and of its node, and every line as it was. -/
structure PinTaken (s : State) (e : Env) (p : Pin) (t : State) : Prop where
  frames : t.mem.frames = (pinFrame s p.1).mem.frames
  same : SameMemory s t
  focus : focusEnv t = some { e with ctx := { e.ctx with pins := e.ctx.pins ++ [p] } }

theorem PinTaken.getFrame {s t : State} {e : Env} {p : Pin} (h : PinTaken s e p t) (hp : (getFrame s p.1).pins ≠ 4095) (j : Nat) :
    getFrame t j = if j = p.1 then morePins (getFrame s p.1) else getFrame s j := by
  rw [← getFrame_pinFrame hp, Machine.getFrame, h.frames, Machine.getFrame]

theorem pinTaken_withPin {s : State} {e : Env} (h : focusEnv s = some e) (p : Pin) : PinTaken s e p (withPin s e.c p) where
  frames := by rw [withPin, updCtx_mem]
  same := fun j => peekLine_of_mem (s := pinFrame s p.1) (updCtx_mem ..) (updCtx_chu ..) j
  focus := focusEnv_of (s := pinFrame s p.1) h (updCtx_run ..) (getCtx_updCtx_focus (s := pinFrame s p.1) h _) (getWin_updCtx ..)

theorem locked_withPin (s : State) (c : CtxId) (p : Pin) : (withPin s c p).mem.locked = s.mem.locked := by
  rw [withPin, updCtx_mem]
  rfl

theorem plain_withPin {s : State} (h : PlainMemory s) (hs : s.mem.soft = []) (c : CtxId) (p : Pin) :
    PlainMemory (withPin s c p) ∧ (withPin s c p).mem.soft = [] := by
  have hp : PlainMemory (pinFrame s p.1) := ⟨h.sound, h.unmarked, h.host0, h.host1, h.home, h.rising, h.kept⟩
  refine ⟨(reads_of_mem hp (updCtx_mem ..) (updCtx_chu ..) (updCtx_hp0 ..) (updCtx_hp1 ..) (by rw [updCtx_hl])).plain, ?_⟩
  rw [withPin, updCtx_mem]
  exact hs

theorem PinTaken.moves {s t u : State} {e : Env} {p : Pin} (h : PinTaken s e p t) (hm : Moves t u) : PinTaken s e p u where
  frames := hm.frames.trans h.frames
  same := fun j => (hm.same j).trans (h.same j)
  focus := (focusEnv_of_standing hm.stands).trans h.focus

theorem PinTaken.addLock {s t : State} {e : Env} {p : Pin} (h : PinTaken s e p t) (sb : Nat) : PinTaken s e p (addLock t sb) :=
  ⟨h.frames, h.same, h.focus⟩

/-- A PIN that takes a pin: which one, and what it leaves. A lock is taken where the status is 0. -/
theorem pinAt_takes {s : State} {e : Env} {addr : Nat} {lock : Bool} (he : focusEnv s = some e) (h : pinStatus s e addr = 0)
    (hm : lock = false ∨ PlainMemory s ∧ s.mem.soft = []) :
    ∃ held : Option Nat, PinTaken s e (frameOf addr, lock, held) (pinAt s e addr lock).1 ∧
      (pinAt s e addr lock).1.mem.locked = s.mem.locked ++ held.toList ∧
      ((pinAt s e addr lock).2 = 0 → held = if lock then some (lockKey 0 addr) else none) := by
  cases hl : canLock s addr lock with
  | false =>
    rw [pinAt_unlocked h hl]
    refine ⟨none, pinTaken_withPin he _, by rw [locked_withPin]; simp, fun h0 => ?_⟩
    cases lock with
    | false => rfl
    | true => cases h0
  | true =>
    have hlock : lock = true := by
      simp only [canLock, Bool.and_eq_true] at hl
      exact hl.1.1
    obtain ⟨hp, hs⟩ := hm.resolve_left (by simp [hlock])
    obtain ⟨hpt, hst⟩ := plain_withPin hp hs e.c (frameOf addr, lock, some (lockKey 0 addr))
    have hmoves := moves_fillLinesOf (sbLines (lockKey 0 addr)) hpt hst
    obtain ⟨-, -, -, hlocked⟩ := standing_eq.1 hmoves.stands
    rw [pinAt_locks h hl]
    refine ⟨some (lockKey 0 addr), ((pinTaken_withPin he _).moves hmoves).addLock _, ?_, fun _ => by rw [hlock]; rfl⟩
    rw [locked_addLock, hlocked, locked_withPin, Option.toList_some]

/-! ### UNPIN -/

theorem mem_of_findPin {l : List Pin} {f sb : Nat} {lock : Bool} {p : Pin} (h : findPin l f lock sb = some p) :
    p ∈ l ∧ p.1 = f ∧ p.2.1 = lock := by
  unfold findPin at h
  split at h
  · next q hq =>
    cases h
    have hprop := List.find?_some hq
    simp only [Bool.and_eq_true, beq_iff_eq] at hprop
    exact ⟨List.mem_of_find?_eq_some hq, hprop.1⟩
  · have hprop := List.find?_some h
    simp only [Bool.and_eq_true, beq_iff_eq] at hprop
    exact ⟨List.mem_of_find?_eq_some h, hprop⟩

theorem findPin_eq_none {l : List Pin} {f sb : Nat} {lock : Bool} :
    findPin l f lock sb = none ↔ ∀ p ∈ l, ¬(p.1 = f ∧ p.2.1 = lock) := by
  constructor
  · intro h p hp hkind
    unfold findPin at h
    split at h
    · cases h
    · exact List.find?_eq_none.1 h p hp (by simp [hkind])
  · intro h
    cases hf : findPin l f lock sb with
    | none => rfl
    | some p =>
      obtain ⟨hp, hkind⟩ := mem_of_findPin hf
      exact absurd hkind (h p hp)

/-- The pin of the superblock's own lock is found first. -/
theorem findPin_own {l : List Pin} {f sb : Nat} {lock : Bool} (h : (f, lock, if lock then some sb else none) ∈ l) :
    findPin l f lock sb = some (f, lock, if lock then some sb else none) := by
  have hfound : l.find? (fun p => p.1 == f && p.2.1 == lock && p.2.2 == (if lock then some sb else none)) =
      some (f, lock, if lock then some sb else none) := by
    cases hf : l.find? (fun p => p.1 == f && p.2.1 == lock && p.2.2 == (if lock then some sb else none)) with
    | none => exact absurd (List.find?_eq_none.1 hf _ h) (by simp)
    | some p =>
      have hprop := List.find?_some hf
      simp only [Bool.and_eq_true, beq_iff_eq] at hprop
      obtain ⟨⟨hframe, hkind⟩, hheld⟩ := hprop
      exact congrArg some (Prod.ext hframe (Prod.ext hkind hheld))
  rw [findPin, hfound]

theorem unpinAt_of_none {s : State} {e : Env} {addr : Nat} {lock : Bool} (h : findPin e.ctx.pins (frameOf addr) lock (lockKey 0 addr) = none) :
    unpinAt s e addr lock = (s, 3) := by
  simp only [unpinAt, h]

theorem unpinAt_of_some {s : State} {e : Env} {addr : Nat} {lock : Bool} {p : Pin}
    (h : findPin e.ctx.pins (frameOf addr) lock (lockKey 0 addr) = some p) :
    unpinAt s e addr lock = (updCtx (dropPin s p) e.c (fun x => { x with pins := x.pins.erase p }), 0) := by
  simp only [unpinAt, h]

/-- The locks once a pin is released. -/
def lockedWithout (p : Pin) (l : List Nat) : List Nat :=
  match p.2.2 with
  | some sb => l.erase sb
  | none => l

/-- What UNPIN leaves once it has released the pin `p`. -/
structure PinReleased (s : State) (e : Env) (p : Pin) (t : State) : Prop where
  frames : t.mem.frames = (unpinFrame s p.1).mem.frames
  same : SameMemory s t
  locked : t.mem.locked = lockedWithout p s.mem.locked
  ctx : getCtx t e.c = some { e.ctx with pins := e.ctx.pins.erase p }

theorem PinReleased.getFrame {s t : State} {e : Env} {p : Pin} (h : PinReleased s e p t) (hw : mapWf Frame.init s.mem.frames = true) (j : Nat) :
    getFrame t j = if j = p.1 then fewerPins (getFrame s p.1) else getFrame s j := by
  rw [← getFrame_unpinFrame hw, Machine.getFrame, h.frames, Machine.getFrame]

/-- A pin of a frame released moves nothing but the frame's count and the lock. -/
theorem dropPin_facts (s : State) (p : Pin) :
    (dropPin s p).mem.frames = (unpinFrame s p.1).mem.frames ∧ SameMemory s (dropPin s p) ∧
      (dropPin s p).mem.locked = lockedWithout p s.mem.locked ∧ focusEnv (dropPin s p) = focusEnv s := by
  have hu : SameMemory s (unpinFrame s p.1) ∧ (unpinFrame s p.1).mem.locked = s.mem.locked ∧ focusEnv (unpinFrame s p.1) = focusEnv s := by
    by_cases h0 : (getFrame s p.1).pins = 0
    · rw [unpinFrame, if_pos h0]
      exact ⟨fun _ => rfl, rfl, rfl⟩
    · rw [unpinFrame, if_neg h0]
      exact ⟨fun _ => rfl, rfl, rfl⟩
  obtain ⟨hsame, hlocked, hfocus⟩ := hu
  obtain ⟨f, lock, held⟩ := p
  cases held with
  | none => exact ⟨rfl, hsame, hlocked, hfocus⟩
  | some sb => exact ⟨rfl, hsame, congrArg (·.erase sb) hlocked, hfocus⟩

theorem unpinAt_releases {s : State} {e : Env} {addr : Nat} {lock : Bool} {p : Pin} (he : focusEnv s = some e)
    (h : findPin e.ctx.pins (frameOf addr) lock (lockKey 0 addr) = some p) : PinReleased s e p (unpinAt s e addr lock).1 := by
  obtain ⟨hframes, hsame, hlocked, hfocus⟩ := dropPin_facts s p
  rw [unpinAt_of_some h]
  exact ⟨by rw [updCtx_mem, hframes], fun j => (peekLine_of_mem (updCtx_mem ..) (updCtx_chu ..) j).trans (hsame j), by rw [updCtx_mem, hlocked],
    getCtx_updCtx_focus (hfocus.trans he) _⟩

/-- UNPIN answers 3 where the node holds no pin of the frame and kind. -/
theorem unpinAt_eq_three {s : State} {e : Env} {addr : Nat} {lock : Bool} :
    (unpinAt s e addr lock).2 = 3 ↔ ∀ p ∈ e.ctx.pins, ¬(p.1 = frameOf addr ∧ p.2.1 = lock) := by
  rw [← findPin_eq_none (sb := lockKey 0 addr)]
  cases h : findPin e.ctx.pins (frameOf addr) lock (lockKey 0 addr) with
  | none => simp [unpinAt_of_none h]
  | some p => simp [unpinAt_of_some h]

/-- UNPIN finds the pin that it releases, unless it answers 3. -/
theorem findPin_of_unpinAt {s : State} {e : Env} {addr : Nat} {lock : Bool} (h : (unpinAt s e addr lock).2 ≠ 3) :
    ∃ p, findPin e.ctx.pins (frameOf addr) lock (lockKey 0 addr) = some p := by
  cases hf : findPin e.ctx.pins (frameOf addr) lock (lockKey 0 addr) with
  | none => exact absurd (congrArg Prod.snd (unpinAt_of_none hf)) h
  | some p => exact ⟨p, rfl⟩

/-- A pin and a lock that were added and are taken back. -/
theorem count_append_erase {α : Type} [BEq α] [LawfulBEq α] (l : List α) (a x : α) : ((l ++ [a]).erase a).count x = l.count x := by
  rw [List.count_erase, List.count_append, List.count_singleton, Nat.add_sub_cancel]

/-- UNPIN after a PIN that succeeds: it finds the pin that was taken, and releases it. -/
theorem unpinAt_pinAt {s : State} {e : Env} {addr : Nat} {lock : Bool} (he : focusEnv s = some e) (h : (pinAt s e addr lock).2 = 0)
    (hm : lock = false ∨ PlainMemory s ∧ s.mem.soft = []) (hw : mapWf Frame.init s.mem.frames = true) :
    ∃ e1, focusEnv (pinAt s e addr lock).1 = some e1 ∧
      let v := unpinAt (pinAt s e addr lock).1 e1 addr lock
      v.2 = 0 ∧ (∀ g, getFrame v.1 g = getFrame s g) ∧ SameMemory s v.1 ∧ (∀ x, v.1.mem.locked.count x = s.mem.locked.count x) ∧
      ∃ x, getCtx v.1 e.c = some x ∧ ∀ p, x.pins.count p = e.ctx.pins.count p := by
  have hst := pinAt_takes_iff.1 (.inl h)
  have hpins := pins_of_pinStatus hst
  obtain ⟨held, ht, hlocked, hheld⟩ := pinAt_takes he hst hm
  obtain rfl := hheld h
  generalize (pinAt s e addr lock).1 = t at ht hlocked
  have hfind := findPin_own (l := e.ctx.pins ++ [(frameOf addr, lock, if lock then some (lockKey 0 addr) else none)])
    (List.mem_append_right _ (List.mem_singleton.2 rfl))
  have hv := unpinAt_releases ht.focus hfind
  have hwt : mapWf Frame.init t.mem.frames = true := by rw [ht.frames]; exact pinFrame_frames_wf hw _
  refine ⟨_, ht.focus, congrArg Prod.snd (unpinAt_of_some hfind), fun g => ?_, fun j => (hv.same j).trans (ht.same j), fun x => ?_,
    _, hv.ctx, count_append_erase _ _⟩
  · by_cases hg : g = frameOf addr
    · rw [hv.getFrame hwt, if_pos hg, ht.getFrame hpins, if_pos rfl, hg, fewerPins_morePins hpins]
    · rw [hv.getFrame hwt, if_neg hg, ht.getFrame hpins, if_neg hg]
  · rw [hv.locked, hlocked]
    cases lock with
    | false => simp [lockedWithout]
    | true => exact count_append_erase _ _ _

/-- Settles O27: PIN by its status and by the pin that it takes, UNPIN by the pin that it finds. -/
theorem pinsCounted : Obligations.PinsCounted := by
  unfold Obligations.PinsCounted
  intro s e addr lock he f r
  have refuses : ∀ v, v ≠ 0 → v ≠ 5 → (r.2 = v ↔ pinStatus s e addr = v) := fun v => pinAt_refuses_iff
  refine ⟨(refuses 1 (by decide) (by decide)).trans pinStatus_eq_one, (refuses 2 (by decide) (by decide)).trans pinStatus_eq_two,
    (refuses 3 (by decide) (by decide)).trans pinStatus_eq_three, fun h => ?_, fun h hm => ?_, pinAt_status_five, ?_, ?_,
    ⟨unpinAt_eq_three, fun h => ?_, fun h => ?_⟩, unpinAt_pinAt he⟩
  · refine pinAt_unchanged fun h0 => ?_
    have hr : r.2 = 0 ∨ r.2 = 5 := pinAt_takes_iff.2 h0
    omega
  · have hst := pinAt_takes_iff.1 h
    have hpins := pins_of_pinStatus hst
    obtain ⟨held, ht, -, -⟩ := pinAt_takes he hst hm
    refine ⟨?_, fun g hg => ?_, ht.same⟩
    · rw [ht.getFrame hpins, if_pos rfl, toNat_morePins hpins]
    · rw [ht.getFrame hpins, if_neg hg]
  · rintro rfl hms h
    exact Bool.false_ne_true ((ms_of_canLock (canLock_of_pinAt h)).symm.trans hms)
  · rintro rfl h
    exact lockKey_mem_of_canLock (pinAt_takes_iff.1 (.inl h)) (canLock_of_pinAt h)
  · exact congrArg Prod.fst (unpinAt_of_none (findPin_eq_none.2 (unpinAt_eq_three.1 h)))
  · obtain ⟨p, hp⟩ := findPin_of_unpinAt h
    obtain ⟨hmem, hframe, hkind⟩ := mem_of_findPin hp
    have hv := unpinAt_releases he hp
    refine ⟨congrArg Prod.snd (unpinAt_of_some hp), p, hmem, hframe, hkind, fun hw => ⟨?_, fun g hg => ?_⟩, hv.same, ?_, hv.ctx⟩
    · rw [hv.getFrame hw, hframe, if_pos rfl, toNat_fewerPins]
    · rw [hv.getFrame hw, hframe, if_neg hg]
    · exact hv.locked

end Sys2Proof.Machine

/-! PROOFS. O17: a generator's counters are the digits of its iteration in the mixed radix of its counts. -/

namespace Sys2Proof.Machine

/-! ### Digits of a mixed radix -/

/-- The digits of `x` in the radix `ns`, lowest first. -/
def mixedDigits : List Nat → Nat → List Nat
  | [], _ => []
  | n :: ns, x => x % n :: mixedDigits ns (x / n)

theorem mixedDigits_length : ∀ (ns : List Nat) (x : Nat), (mixedDigits ns x).length = ns.length
  | [], _ => rfl
  | n :: ns, x => by simp [mixedDigits, mixedDigits_length ns]

/-- Digit `j` is that of `x` without the places below it. -/
theorem nth_mixedDigits : ∀ (ns : List Nat) (x j : Nat), j < ns.length →
    nth 0 (mixedDigits ns x) j = x / (ns.take j).prod % nth 1 ns j
  | n :: ns, x, 0, _ => by simp [mixedDigits, nth]
  | n :: ns, x, j + 1, h => by
    simp [mixedDigits, nth, nth_mixedDigits ns (x / n) j (by simpa using h), Nat.div_div_eq_div_mul]

theorem succ_of_no_carry {n x : Nat} (h : x % n + 1 < n) :
    (x + 1) % n = x % n + 1 ∧ (x + 1) / n = x / n ∧ ¬ n ∣ x + 1 := by
  have hx : x + 1 = x % n + 1 + n * (x / n) := by have := Nat.mod_add_div x n; omega
  have hm : (x + 1) % n = x % n + 1 := by rw [hx, Nat.add_mul_mod_self_left, Nat.mod_eq_of_lt h]
  refine ⟨hm, ?_, fun hd => ?_⟩
  · rw [hx, Nat.add_mul_div_left _ _ (by omega), Nat.div_eq_of_lt h, Nat.zero_add]
  · have := Nat.mod_eq_zero_of_dvd hd
    omega

theorem succ_of_carry {n x : Nat} (hn : 0 < n) (h : ¬ x % n + 1 < n) : x + 1 = n * (x / n + 1) := by
  have := Nat.mod_lt x hn
  have := Nat.mod_add_div x n
  rw [Nat.mul_add]
  omega

/-- The next counters are the digits of the next number; counters past the radix stay. -/
theorem genNext_digits (zs : List Nat) : ∀ (ns : List Nat) (x d : Nat), (∀ n ∈ ns, 0 < n) →
    (genNext (mixedDigits ns x ++ zs) ns d).1 = mixedDigits ns (x + 1) ++ zs
  | [], _, _, _ => by cases zs <;> rfl
  | n :: ns, x, d, hp => by
    have ih := genNext_digits zs ns (x / n) (d + 1) (fun m hm => hp m (List.mem_cons_of_mem _ hm))
    simp only [mixedDigits, List.cons_append, genNext]
    split
    next h =>
      obtain ⟨hm, hq, -⟩ := succ_of_no_carry h
      rw [hm, hq]
    next h =>
      have hx := succ_of_carry (hp n (List.mem_cons_self ..)) h
      have hq : (x + 1) / n = x / n + 1 := by rw [hx, Nat.mul_div_cancel_left _ (hp n (List.mem_cons_self ..))]
      rw [hq, ih, hx, Nat.mul_mod_right]

/-- The places up to `j` end with iteration `x`, and place `j + 1` does not. -/
def EndsAt (ns : List Nat) (x j : Nat) : Prop :=
  j < ns.length ∧ (ns.take (j + 1)).prod ∣ x + 1 ∧ (j + 1 < ns.length → ¬ (ns.take (j + 2)).prod ∣ x + 1)

theorem endsAt_zero (n : Nat) (ns : List Nat) (x : Nat) :
    EndsAt (n :: ns) x 0 ↔ n ∣ x + 1 ∧ (∀ m ∈ ns.head?, ¬ n * m ∣ x + 1) := by
  cases ns <;> simp [EndsAt]

theorem endsAt_succ {n x : Nat} (ns : List Nat) (j : Nat) (hn : 0 < n) (hx : x + 1 = n * (x / n + 1)) :
    EndsAt (n :: ns) x (j + 1) ↔ EndsAt ns (x / n) j := by
  simp only [EndsAt, List.length_cons, Nat.add_lt_add_iff_right, List.take_succ_cons, List.prod_cons]
  rw [hx, Nat.mul_dvd_mul_iff_left hn, Nat.mul_dvd_mul_iff_left hn]

theorem EndsAt.dvd_head {n x j : Nat} {ns : List Nat} (h : EndsAt (n :: ns) x j) : n ∣ x + 1 := by
  obtain ⟨-, hd, -⟩ := h
  rw [List.take_succ_cons, List.prod_cons] at hd
  exact dvd_of_mul_right_dvd hd

/-- Nothing is finished where the lowest place goes on. -/
theorem genNext_top_none (zs : List Nat) : ∀ (ns : List Nat) (x d : Nat), (∀ n ∈ ns, 0 < n) →
    ((genNext (mixedDigits ns x ++ zs) ns d).2 = none ↔ ∀ n ∈ ns.head?, ¬ n ∣ x + 1)
  | [], _, _, _ => by cases zs <;> simp [mixedDigits, genNext]
  | n :: ns, x, d, hp => by
    simp only [mixedDigits, List.cons_append, genNext, List.head?_cons, Option.mem_def, Option.some.injEq, forall_eq']
    split
    next h => simp [(succ_of_no_carry h).2.2]
    next h => simp [succ_of_carry (hp n (List.mem_cons_self ..)) h]

/-- The dimension that the walk reports, counted from `d`, is the highest whose places all end. -/
theorem genNext_top (zs : List Nat) : ∀ (ns : List Nat) (x d k : Nat), (∀ n ∈ ns, 0 < n) →
    ((genNext (mixedDigits ns x ++ zs) ns d).2 = some k ↔ ∃ j, k = d + j ∧ EndsAt ns x j)
  | [], _, _, _, _ => by cases zs <;> simp [mixedDigits, genNext, EndsAt]
  | n :: ns, x, d, k, hp => by
    have hn := hp n (List.mem_cons_self ..)
    have hns : ∀ m ∈ ns, 0 < m := fun m hm => hp m (List.mem_cons_of_mem _ hm)
    have ih (k : Nat) := genNext_top zs ns (x / n) (d + 1) k hns
    have hnone := genNext_top_none zs ns (x / n) (d + 1) hns
    simp only [mixedDigits, List.cons_append, genNext]
    split
    next h => simpa using fun j _ (hj : EndsAt (n :: ns) x j) => (succ_of_no_carry h).2.2 (hj.dvd_head)
    next h =>
      have hx := succ_of_carry hn h
      have hzero : EndsAt (n :: ns) x 0 ↔ (genNext (mixedDigits ns (x / n) ++ zs) ns (d + 1)).2 = none := by
        rw [hnone, endsAt_zero, hx]
        simp [Nat.mul_dvd_mul_iff_left hn]
      simp only [Option.some.injEq]
      cases ht : (genNext (mixedDigits ns (x / n) ++ zs) ns (d + 1)).2 with
      | none =>
        have hsucc (j : Nat) : ¬ EndsAt (n :: ns) x (j + 1) := fun hj => by
          simpa [ht] using (ih _).2 ⟨j, rfl, (endsAt_succ ns j hn hx).1 hj⟩
        constructor
        · rintro rfl
          exact ⟨0, rfl, hzero.2 ht⟩
        · rintro ⟨_ | j, rfl, hj⟩
          · rfl
          · exact absurd hj (hsucc j)
      | some m =>
        obtain ⟨i, rfl, hi⟩ := (ih m).1 ht
        constructor
        · rintro rfl
          exact ⟨i + 1, by simp only [Option.getD_some]; omega, (endsAt_succ ns i hn hx).2 hi⟩
        · rintro ⟨_ | j, rfl, hj⟩
          · simp [hzero.1 hj] at ht
          · have := ht.symm.trans ((ih _).2 ⟨j, rfl, (endsAt_succ ns j hn hx).1 hj⟩)
            simp only [Option.some.injEq] at this
            simp only [Option.getD_some]
            omega

/-! ### The walk (R212) -/

theorem nth_of_lt {α : Type} (d : α) : ∀ (l : List α) (j : Nat) (h : j < l.length), nth d l j = l[j]
  | _ :: _, 0, _ => rfl
  | _ :: l, j + 1, h => nth_of_lt d l j (Nat.lt_of_succ_lt_succ h)

/-- The counters at iteration `n`: its digits, and 0 in the dimensions that the stream does not have. -/
theorem counters_eq_digits {ns : List Nat} (n : Nat) (hl : ns.length ≤ 4) :
    (List.range 4).map (fun j => if j < ns.length then n / (ns.take j).foldl (· * ·) 1 % nth 1 ns j else 0) =
      mixedDigits ns n ++ List.replicate (4 - ns.length) 0 := by
  refine List.ext_getElem (by simp [mixedDigits_length]; omega) (fun j _ _ => ?_)
  simp only [← List.prod_eq_foldl, List.getElem_map, List.getElem_range, List.getElem_append, mixedDigits_length, List.getElem_replicate]
  split
  next h => rw [← nth_mixedDigits ns n j h, nth_of_lt]
  next => rfl

/-- The addends of an iteration's address, one for each dimension. -/
theorem addends_eq {ns : List Nat} {st : List Dword} (n : Nat) (zs : List Nat) (hs : st.length = ns.length) :
    List.zipWith (fun c x => BitVec.ofNat 64 c * x) (mixedDigits ns n ++ zs) st =
      (List.range ns.length).map (fun j => BitVec.ofNat 64 (n / (ns.take j).foldl (· * ·) 1 % nth 1 ns j) * nth 0 st j) := by
  refine List.ext_getElem (by simp [mixedDigits_length]; omega) (fun j h1 h2 => ?_)
  have hj : j < ns.length := by simpa using h2
  simp only [← List.prod_eq_foldl, List.getElem_map, List.getElem_range, List.getElem_zipWith,
    List.getElem_append_left (mixedDigits_length ns n ▸ hj : j < (mixedDigits ns n).length)]
  rw [← nth_mixedDigits ns n j hj, nth_of_lt, nth_of_lt]

/-- Four counters written are the counters read. -/
theorem genCounters_setCounters (g : Gen) : ∀ l : List Nat, l.length = 4 → genCounters (setCounters g l) = l
  | [_, _, _, _], _ => rfl

theorem genStep_counters (d : StreamDesc) (g : Gen) :
    genCounters (genStep d g) = genCounters (setCounters g (genNext (genCounters g) d.counts 0).1) := by
  simp only [genStep]
  split <;> rfl

theorem genStep_active {d : StreamDesc} {g : Gen} (h : g.active = true) : (genStep d g).active = !genLast d g := by
  simp only [genStep]
  split
  next hl => rw [hl]; rfl
  next hl => simpa [hl, setCounters] using h

/-- A run's last iteration is the one before the product of the counts. -/
theorem endsAt_last_iff {ns : List Nat} {n : Nat} (h0 : 0 < ns.length) (hn : n < ns.prod) :
    EndsAt ns n (ns.length - 1) ↔ n + 1 = ns.prod := by
  have h1 : ns.length - 1 + 1 = ns.length := by omega
  have h2 : ns.length - 1 < ns.length := by omega
  simp only [EndsAt, h1, h2, List.take_length, Nat.lt_irrefl, false_implies, and_true, true_and]
  constructor
  · intro hd
    have := Nat.le_of_dvd (Nat.succ_pos n) hd
    omega
  · rintro h
    rw [h]

/-- Settles O17: the counters of an iteration are its digits, and `genNext` turns the digits of `n` into those of `n + 1`,
reporting the highest place up to which all end. -/
theorem generatorWalk : Obligations.GeneratorWalk := by
  unfold Obligations.GeneratorWalk
  intro d g n hp h0 h4 size hc hn ha
  have hsize (j : Nat) : size j = (d.counts.take j).prod := List.prod_eq_foldl.symm
  have hall : size 4 = d.counts.prod := by rw [hsize, List.take_of_length_le h4]
  have hg := hc.trans (counters_eq_digits n h4)
  have htop (j : Nat) : genTop d g = some j ↔ EndsAt d.counts n j := by
    rw [genTop, hg, genNext_top _ _ _ _ _ hp]
    simp
  have hlast : genLast d g = decide (n + 1 = size 4) := by
    rw [Bool.eq_iff_iff, genLast, beq_iff_eq, htop, decide_eq_true_iff, hall, endsAt_last_iff h0 (hall ▸ hn)]
  refine ⟨hlast, ?_, ?_, fun hs => ?_, fun j => ?_⟩
  · rw [genStep_counters, hg, genNext_digits _ _ _ _ hp, ← counters_eq_digits (n + 1) h4,
      genCounters_setCounters _ _ (by simp)]
  · rw [genStep_active ha, hlast, Bool.eq_iff_iff]
    simp only [Bool.not_eq_true', decide_eq_false_iff_not, decide_eq_true_iff]
    omega
  · rw [genAddr, hg, addends_eq n _ hs]
  · rw [htop, EndsAt, hsize, hsize, Nat.dvd_iff_mod_eq_zero, Nat.dvd_iff_mod_eq_zero]

end Sys2Proof.Machine

/-! PROOFS. O15, O16: the stream instructions. A generator in its run makes the iteration of its instruction, one at rest takes
the head of slot a (`genRun`); the lemmas say what the iteration or the taking does in the case at hand. -/

namespace Sys2Proof.Machine

/-! ### The step of a generator -/

/-- The stream step of a run in progress is its iteration. -/
theorem runStream_iterates {s : State} {e : Env} {t : Tgt} {k : Fin 256} (runs : Bool) (it tk : Env → StreamDesc → State)
    (h : MayIterate s e (streamDesc e.win k.val) t) :
    runStream s k (fun e d => genRun s e d runs (it e d) (tk e d)) = .next (it e (streamDesc e.win k.val)) := by
  rw [runStream_eq h.focus h.quiet, genRun_iter h]

/-- The stream step of a generator at rest takes the head of slot a. -/
theorem runStream_takes {s : State} {e : Env} {t : Tgt} {k : Fin 256} {x : Token} (runs : Bool) (it tk : Env → StreamDesc → State)
    (h : MayTake s e (streamDesc e.win k.val) t x) :
    runStream s k (fun e d => genRun s e d runs (it e d) (tk e d)) = .next (tk e (streamDesc e.win k.val)) := by
  rw [runStream_eq h.focus h.quiet, genRun_take h]

theorem tokenCheck_sound {s : State} {e : Env} {x : Token} (h : x.sound = true ∧ x.parityOk = true) : tokenCheck s e x = none := by
  simp [tokenCheck, h]

/-- The page probe of a store: a scratch access needs none. -/
theorem storeProbe_eq {s s1 : State} {c : CtxId} {scr : Bool} {a : Dword} (h : if scr then s1 = s else probe s c a true = (none, s1)) :
    (if scr then (none, s) else probe s c a true) = (none, s1) := by
  cases scr with
  | true => exact congrArg (Prod.mk none) h.symm
  | false => exact h

theorem exec_lds (t : Tgt) (k : Fin 256) (s : State) : exec (.lds t k) s = execLds t k s := rfl
theorem exec_ldb (t : Tgt) (k : Fin 256) (bob : Bool) (s : State) : exec (.ldb t k bob) s = execLdb t k bob s := rfl
theorem exec_agen (t : Tgt) (k : Fin 256) (va w : Bool) (s : State) : exec (.agen t k va w) s = execAgen t k va w s := rfl
theorem exec_sts (t : Tgt) (k : Fin 256) (s : State) : exec (.sts t k) s = execSts t k s := rfl
theorem exec_stb (t : Tgt) (k : Fin 256) (bob : Bool) (s : State) : exec (.stb t k bob) s = execStb t k bob s := rfl

section Generator
variable {s s1 s2 : State} {e : Env} {d : StreamDesc} {t : Tgt} {x : Token}

theorem MayTake.qa_eq (h : MayTake s e d t x) : ∃ l, e.u.qa = x :: l := List.head?_eq_some_iff.1 h.head

/-! ### LDS, LDB and AGEN (R216 to R218) -/

theorem ldsTok_val {a : Dword} {v : Nat} {p : Bool} (h : readSpan s e.c d.scratch a d.size d.ns = .val v p s1) :
    ldsTok s e d a = .tok (if p then scalarTok 0 true else scalarTok (elemVal d v) false) s1 := by
  rw [ldsTok, h]

theorem agenTok_mapped (va w : Bool) {a : Dword} (hs : d.scratch = false) (h : probe s e.c a w = (none, s1)) :
    agenTok va w s e d a = .tok (scalarTok ((if va then a else a - e.u.gen.base).setWidth 32) false) s1 := by
  simp only [agenTok, hs, h, Bool.false_eq_true, if_false]

/-- A data token starts a run, behind the marker held back (R212). -/
theorem genTake_data (h : MayTake s e d t x) (hx : x.isMk = false) :
    genTake s e d t =
      let u := { popSlot e.u .a with fired := e.u.fired + 1 }
      let held := e.u.gen.held.map (·.val)
      let p := match held with
        | some r => pairAtMarker d r u
        | none => (u, 0)
      sendFrom (addCount (updUnit s e.c e.i (fun _ => { p.1 with gen := genStart { p.1.gen with held := none } x })) e.c cntPoison
        (p.2 + b2n x.psn)) e (seqAll (tgt1 t) (held.map markerTok).toList) := by
  obtain ⟨l, hq⟩ := h.qa_eq
  simp only [genTake, hq, tokenCheck_sound h.sound, h.room, hx, Bool.not_true, Bool.false_eq_true, if_false] <;> rfl

/-- A marker is lifted above the generator's own (R212). -/
theorem genTake_marker (h : MayTake s e d t x) (hx : x.isMk = true) :
    genTake s e d t = genEmit s e d t
      (markSeen e.win t.isNone true x.rank.val
        { popSlot e.u .a with fired := e.u.fired + 1, gen := { e.u.gen with held := none, emitted := true } }) []
      (some (max (min (x.rank.val + d.counts.length) 6) ((e.u.gen.held.map (·.val)).getD 0))) := by
  obtain ⟨l, hq⟩ := h.qa_eq
  simp only [genTake, hq, tokenCheck_sound h.sound, h.room, hx, Bool.not_true, Bool.false_eq_true, if_false, if_true]
  rfl

/-- LDS, LDB and AGEN take what stands at the head of slot a alike. -/
theorem exec_load_takes {k : Fin 256} {va w : Bool} (h : MayTake s e (streamDesc e.win k.val) t x) :
    ∀ i ∈ [Instr.lds t k, .ldb t k false, .ldb t k true, .agen t k va w],
      exec i s = .next (genTake s e (streamDesc e.win k.val) t) := by
  simp only [List.forall_mem_cons, List.not_mem_nil, false_implies, implies_true, and_true]
  rw [exec_lds, execLds, exec_ldb, execLdb, exec_ldb, execLdb, exec_agen, execAgen]
  exact ⟨runStream_takes true _ _ h, runStream_takes true _ _ h, runStream_takes true _ _ h, runStream_takes true _ _ h⟩

theorem exec_ldb_block {k : Fin 256} (h : MayIterate s e (streamDesc e.win k.val) t) :
    exec (.ldb t k false) s = .next (genIterate s e (streamDesc e.win k.val) t true 0 ldbTok) := by
  rw [exec_ldb, execLdb, runStream_iterates true _ _ h, if_neg Bool.false_ne_true]

/-! ### LDB into a bobbin (R217) -/

theorem exec_ldb_fills {k : Fin 256} (h : MayIterate s e (streamDesc e.win k.val) t) :
    exec (.ldb t k true) s = .next (fillIterate s e (streamDesc e.win k.val) t) := by
  rw [exec_ldb, execLdb, runStream_iterates true _ _ h, if_pos rfl]

/-- A fill with no slot in hand takes the empty one at TAIL. -/
theorem fillIterate_takes {b : Bobbin} {i : Nat} {m : CtxMem} (h : MayIterate s e d t) (hb : getBob e.ctx.mem d.bob = some b)
    (hs : e.u.gen.slot = none) (hm : takeFill e.ctx.mem d.bob b = some (i, m)) :
    fillIterate s e d t = updUnit (updMem s e.c (fun _ => match getBob m d.bob with
        | some b1 => putBob m d.bob { b1 with fills := (i, e.i, e.u.gen) :: b1.fills }
        | none => m)) e.c e.i (fun u => { u with gen := { u.gen with slot := some i, done := 0 } }) := by
  simp only [fillIterate, h.room, h.answered, hb, hs, hm, Bool.not_true, Bool.or_self, Bool.false_eq_true, if_false] <;> rfl

/-- A fill's block that is not its slot's last. -/
theorem fillIterate_block {b : Bobbin} {i : Nat} (h : MayIterate s e d t) (hb : getBob e.ctx.mem d.bob = some b)
    (hs : e.u.gen.slot = some i) (hl : genLast d e.u.gen = false) (hd : e.u.gen.done + 1 < slotBlocks b)
    (hr : ldbTok s e d (genAddr d e.u.gen) = .tok x s1) :
    fillIterate s e d t = updUnit (slotFill s1 e.c b i e.u.gen.done { data := x.data, desc := x.desc, psn := x.psn }) e.c e.i
      (fun u => { u with gen := { genStep d e.u.gen with
                                  slot := some i, done := e.u.gen.done + 1
                                  held := (maxMark (e.u.gen.held.map (·.val)) (genTop d e.u.gen)).map (Fin.ofNat 8) } }) := by
  have hn : ¬ slotBlocks b ≤ e.u.gen.done + 1 := by omega
  simp only [fillIterate, h.room, h.answered, h.live_run, hb, hs, hl, hr, hn, decide_false, Bool.not_true, Bool.or_self,
    Bool.false_eq_true, if_false]

end Generator

/-- Settles O15: each instruction's iteration is `genIterate` or `fillIterate` with its own access; they share `genTake`. -/
theorem streamLoadsComplete : Obligations.StreamLoadsComplete := by
  unfold Obligations.StreamLoadsComplete
  intro t k va w s e d a
  refine ⟨fun h => ⟨fun v p s1 hs hr => ?_, fun x s1 hs hr => ?_, fun s1 hs hscr hp => ?_, fun b hb hslot h0 => ?_,
    fun b i x s1 hb hslot hl hd hr => ?_⟩, fun x h i hi => ⟨fun hx => ?_, fun hx => ?_⟩⟩
  · rw [Iterates, exec_lds, execLds, runStream_iterates true _ _ h, genIterate_tok h hs (ldsTok_val hr)]
  · rw [Iterates, exec_ldb_block h, genIterate_tok h hs hr]
  · rw [Iterates, exec_agen, execAgen, runStream_iterates true _ _ h, genIterate_tok h hs (agenTok_mapped va w hscr hp)]
  · obtain ⟨⟨j, m⟩, hm⟩ := Option.isSome_iff_exists.1 (takeFill_isSome.2 h0)
    obtain ⟨rfl, y, rfl, -, -⟩ := takeFill_eq_some hm
    refine ⟨_, hm, by rw [slotState_putBob, slotState_setSlot_same _ _ _ (by decide)], ?_⟩
    exact (exec_ldb_fills h).trans (congrArg _ (fillIterate_takes h hb hslot hm))
  · rw [exec_ldb_fills h, fillIterate_block h hb hslot hl hd hr]
  · exact (exec_load_takes h i hi).trans (congrArg _ (genTake_data h hx))
  · exact (exec_load_takes h i hi).trans (congrArg _ (genTake_marker h hx))

section Stores
variable {s s1 s2 : State} {e : Env} {d : StreamDesc} {t : Tgt} {x : Token}

/-! ### STS and STB (R216, R217) -/

/-- A store stages what stands at the head of slot a at the generator's address, and emits a 0. -/
theorem storeTake_stages {stage : Token → State → Dword → Bool × State} (h : MayTake s e d t x) (hx : x.isMk = false)
    (hw : genWaits s e = false) (hp : if d.scratch then s1 = s else probe s e.c (genAddr d e.u.gen) true = (none, s1))
    (hs : stage x s1 (genAddr d e.u.gen) = (true, s2)) :
    storeTake s e d t stage = genEmit s2 e d t
      { popSlot e.u .a with fired := e.u.fired + 1, gen := { genStep d e.u.gen with active := false } } [scalarTok 0 false] none := by
  obtain ⟨l, hq⟩ := h.qa_eq
  simp only [storeTake, hq, tokenCheck_sound h.sound, hx, storeIterate, h.room, hw, storeProbe_eq hp, hs, Bool.not_true,
    Bool.or_self, Bool.false_eq_true, if_false, if_true]

/-- STB of a bobbin at rest takes the ready slot at HEAD. -/
theorem drainHead_takes {b : Bobbin} {i : Nat} {m : CtxMem} (h : MayTake s e d t x) (hx : x.isMk = false)
    (hb : getBob e.ctx.mem d.bob = some b) (hm : takeDrain e.ctx.mem d.bob b = some (i, m)) :
    drainHead s e d t = updUnit (updMem s e.c (fun _ => m)) e.c e.i (fun _ =>
      { popSlot e.u .a with fired := e.u.fired + 1, gen := { e.u.gen with active := true, slot := some i, done := 0 } }) := by
  obtain ⟨l, hq⟩ := h.qa_eq
  simp only [drainHead, hq, tokenCheck_sound h.sound, hx, drainTake, hb, hm, Bool.false_eq_true, if_false, if_true]
  rfl

/-- A block of a slot drained: staged at the generator's address; the last one empties the slot, whose number leaves. -/
theorem drainIterate_stages {b : Bobbin} {i : Nat} (h : MayIterate s e d t) (hb : getBob e.ctx.mem d.bob = some b)
    (hi : e.u.gen.slot = some i) (hp : if d.scratch then s1 = s else probe s e.c (genAddr d e.u.gen) true = (none, s1))
    (hs : let l := (slotRead s e.c e.ctx.mem b i e.u.gen.done).1
      (if l.psn then stageSubst s1 e.c d.scratch (genAddr d e.u.gen)
        else stageAt s1 e.c d.scratch (genAddr d e.u.gen) (BitVec.allOnes 64) l.data (some l.desc)) = (true, s2)) :
    drainIterate s e d t =
      let g := e.u.gen
      let s3 := (slotRead s2 e.c e.ctx.mem b i g.done).2
      if slotBlocks b ≤ g.done + 1 ∨ d.auto = true ∧ genLast d g = true then
        genEmit (updMem s3 e.c (fun m => endDrain m d.bob i)) e d t
          { e.u with gen := { genStep d g with slot := none, done := 0, active := d.auto && (genStep d g).active } }
          [scalarTok (BitVec.ofNat 32 i) false] none
      else updUnit s3 e.c e.i (fun u => { u with gen := { genStep d g with done := g.done + 1, active := true } }) := by
  simp only [drainIterate, hb, hi, h.room, h.answered, storeProbe_eq hp, hs, Bool.not_true, Bool.or_self, Bool.false_eq_true, if_false,
    Bool.or_eq_true, Bool.and_eq_true, decide_eq_true_eq]

theorem exec_stb_stores {k : Fin 256} (h : MayTake s e (streamDesc e.win k.val) t x) :
    exec (.stb t k false) s = .next (storeTake s e (streamDesc e.win k.val) t (stbStage e (streamDesc e.win k.val))) := by
  simp only [exec_stb, execStb, Bool.false_eq_true, if_false]
  rw [runStream_takes false _ _ h]

theorem exec_stb_takes {k : Fin 256} (h : MayTake s e (streamDesc e.win k.val) t x) :
    exec (.stb t k true) s = .next (drainHead s e (streamDesc e.win k.val) t) := by
  simp only [exec_stb, execStb, if_true]
  rw [runStream_takes false _ _ h]

/-- A bobbin's STB in the middle of a slot drains it. -/
theorem exec_stb_drains {k : Fin 256} {i : Nat} (h : MayIterate s e (streamDesc e.win k.val) t) (hi : e.u.gen.slot = some i) :
    exec (.stb t k true) s = .next (drainIterate s e (streamDesc e.win k.val) t) := by
  simp only [exec_stb, execStb, if_true]
  rw [runStream_iterates false _ _ h, hi, Option.isSome_some, if_pos rfl]

end Stores

/-- Settles O16: a store stages the head of slot a; STB of a bobbin takes a slot, then drains it block by block. -/
theorem streamStoresComplete : Obligations.StreamStoresComplete := by
  unfold Obligations.StreamStoresComplete
  intro t k s s1 s2 e x d g a u
  refine ⟨fun h hx => ⟨fun hw hp => ⟨fun hs => ?_, fun hs => ?_⟩, fun b hb h2 => ?_⟩, fun b i h hb hi => ?_⟩
  · rw [exec_sts, execSts, runStream_takes false _ _ h, storeTake_stages h hx hw hp hs]
  · rw [exec_stb_stores h, storeTake_stages h hx hw hp hs]
  · obtain ⟨⟨j, m⟩, hm⟩ := Option.isSome_iff_exists.1 (takeDrain_isSome.2 h2)
    obtain ⟨rfl, y, rfl, -, -⟩ := takeDrain_eq_some hm
    refine ⟨_, hm, by rw [slotState_putBob, slotState_setSlot_same _ _ _ (by decide)], ?_⟩
    rw [exec_stb_takes h, drainHead_takes h hx hb hm]
    rfl
  · intro l hp hs s3
    rw [exec_stb_drains h hi, drainIterate_stages h hb hi hp hs]
    refine ⟨fun hd ha => ?_, fun hd => ?_⟩
    · have hn : ¬ (slotBlocks b ≤ g.done + 1 ∨ d.auto = true ∧ genLast d g = true) := by
        rintro (hle | ⟨h1, h2⟩)
        · omega
        · simp [h1, h2] at ha
      rw [if_neg hn]
    · rw [if_pos (Or.inl hd)]

end Sys2Proof.Machine

/-! PROOFS. O22: ATOM, CAS and TAS. -/

namespace Sys2Proof.Machine

/-! ### The body of an atomic (R222 to R224, R234) -/

section Atomic
variable {s s1 : State} {e : Env} {o : Operands} {sp : Space} {bsel : Fin 4} {used : List Slot} {f : Operands → Word → Word}

/-- An atomic that is performed is entered with the old value. -/
theorem atomicBody_done {a : Dword} {old : Nat} (kind : Nat) (t : Tgt) (out : Operands → Word → Word) (he : focusEnv s = some e)
    (hf : Fresh e) (ha : formAddr e sp bsel o.a = some a) (h4 : a.toNat % 4 = 0) (hp : slotsPsn o used = false)
    (h : atomicAt s e sp a 4 (fun x => (f o (BitVec.ofNat 32 x)).toNat) = .done old s1) :
    atomicBody kind t sp bsel used f out s e o =
      .emit (entered s1 e.c (firingKey e kind (some a) used o) [BitVec.ofNat 64 old])
        (result (tgt1 t) (out o (BitVec.ofNat 32 old)) false) := by
  simp [atomicBody, logged_fresh he hf, ha, h4, hp, h]

/-- A poisoned block, or a place with no writable translation, gives a poisoned 0. -/
theorem atomicBody_bad {a : Dword} (kind : Nat) (t : Tgt) (out : Operands → Word → Word) (he : focusEnv s = some e)
    (hf : Fresh e) (ha : formAddr e sp bsel o.a = some a) (h4 : a.toNat % 4 = 0) (hp : slotsPsn o used = false)
    (h : atomicAt s e sp a 4 (fun x => (f o (BitVec.ofNat 32 x)).toNat) = .bad s1) :
    atomicBody kind t sp bsel used f out s e o =
      badAccess (entered s1 e.c (firingKey e kind (some a) used o) []) e t := by
  simp [atomicBody, logged_fresh he hf, ha, h4, hp, h]

/-- No address, one that is misaligned, or a poisoned operand: nothing is accessed. -/
theorem atomicBody_refused (kind : Nat) (t : Tgt) (out : Operands → Word → Word) (he : focusEnv s = some e) (hf : Fresh e)
    (h : (∀ a, formAddr e sp bsel o.a = some a → a.toNat % 4 ≠ 0) ∨ slotsPsn o used = true) :
    atomicBody kind t sp bsel used f out s e o =
      badAccess (entered s e.c (firingKey e kind (formAddr e sp bsel o.a) used o) []) e t := by
  rw [atomicBody, logged_fresh he hf]
  cases ha : formAddr e sp bsel o.a with
  | none => rfl
  | some a =>
    have hc : (decide (a.toNat % 4 ≠ 0) || slotsPsn o used) = true := by
      rcases h with h | h
      · simp [h a ha]
      · simp [h]
    exact if_pos hc

/-- An instruction whose firing is an atomic completes as R222 to R224 say. -/
theorem atomic_completes {i : Instr} {m : MHead} {kind : Nat} {out : Operands → Word → Word}
    (hx : exec i s = runUnit s (fun _ => memFiring used m.t (atomicBody kind m.t sp bsel used f out)))
    (he : focusEnv s = some e) (hf : Fresh e) (old : Nat) :
    let addr := formAddr e sp bsel (operands e.u).a
    let key := firingKey e kind addr used (operands e.u)
    let g (x : Nat) : Nat := (f (operands e.u) (BitVec.ofNat 32 x)).toNat
    (∀ a, addr = some a → a.toNat % 4 = 0 → slotsPsn (operands e.u) used = false →
      (atomicAt s e sp a 4 g = .done old s1 →
        Access i used m.t s e (entered s1 e.c key [BitVec.ofNat 64 old]) (result (tgt1 m.t) (out (operands e.u) (BitVec.ofNat 32 old)) false)) ∧
      (atomicAt s e sp a 4 g = .bad s1 →
        Access i used m.t s e (addCount (entered s1 e.c key []) e.c cntPoison 1) (result (tgt1 m.t) 0 true))) ∧
    ((∀ a, addr = some a → a.toNat % 4 ≠ 0) ∨ slotsPsn (operands e.u) used = true →
      Access i used m.t s e (addCount (entered s e.c key []) e.c cntPoison 1) (result (tgt1 m.t) 0 true)) := by
  have fires {t : State} {l : List (Target × Token)}
      (hb : atomicBody kind m.t sp bsel used f out s e (operands e.u) = .emit t l) : Access i used m.t s e t l :=
    completes_of hx (mayIssue_turn rfl) rfl (List.Subset.refl _) rfl rfl hb
  intro addr key g
  refine ⟨fun a ha h4 hp => ⟨fun h => fires ?_, fun h => fires ?_⟩, fun h => fires (atomicBody_refused kind m.t out he hf h)⟩
  · simp only [key, ha]
    exact atomicBody_done kind m.t out he hf ha h4 hp h
  · simp only [key, ha]
    exact atomicBody_bad kind m.t out he hf ha h4 hp h

end Atomic

/-- TAS emits the bit that it sets. -/
theorem boolWord_bit (v : Word) (k : Nat) : (if v.getLsbD k then 1 else 0 : Word) = boolWord (v.toNat / 2 ^ k % 2 == 1) := by
  rw [boolWord, BitVec.getLsbD, Nat.testBit_eq_decide_div_mod_eq]
  rfl

theorem exec_atom (m : MHead) (sp : Space) (bsel : Fin 4) (op : Fin 16) (s : State) :
    exec (.atom m sp bsel op) s = runUnit s (fun _ => memFiring [.a, .b] m.t
      (atomicBody 0x60 m.t sp bsel [.a, .b] (fun o old => atomNew op.val old o.b.word) (fun _ old => old))) := rfl

theorem exec_cas (m : MHead) (sp : Space) (bsel : Fin 4) (s : State) :
    exec (.cas m sp bsel) s = runUnit s (fun _ => memFiring [.a, .b, .c] m.t
      (atomicBody 0x61 m.t sp bsel [.a, .b, .c] (fun o old => if old = o.b.word then o.c.word else old) (fun _ old => old))) := rfl

theorem exec_tas (m : MHead) (sp : Space) (bsel : Fin 4) (s : State) :
    exec (.tas m sp bsel) s = runUnit s (fun _ => memFiring [.a, .b] m.t
      (atomicBody 0x62 m.t sp bsel [.a, .b] (fun o old => old ||| BitVec.ofNat 32 (2 ^ (o.b.word.toNat % 32)))
        (fun o old => boolWord (old.toNat / 2 ^ (o.b.word.toNat % 32) % 2 == 1)))) := rfl

/-- Settles O22: the three instructions are one body, with their own new value and emitted word. -/
theorem atomicsComplete : Obligations.AtomicsComplete := by
  unfold Obligations.AtomicsComplete
  intro m sp bsel op s s1 e old o v addr bitOf Op he hf
  refine ⟨?_, ?_, ?_⟩
  · exact atomic_completes (exec_atom m sp bsel op s) he hf old
  · exact atomic_completes (exec_cas m sp bsel s) he hf old
  · have h := atomic_completes (s1 := s1) (exec_tas m sp bsel s) he hf old
    simp only [← boolWord_bit] at h
    exact h

end Sys2Proof.Machine

/-! PROOFS. O23: the counters. -/

namespace Sys2Proof.Machine

/-! ### CNTADD (R229) -/

theorem replayNext_fresh {s : State} {e : Env} (key : LogEntry) (he : focusEnv s = some e) (hf : Fresh e) :
    replayNext s e.c key = .live s := by
  simp [replayNext, (focus_ctx he).1, hf.live]

/-- A counter that can be reached is added to, and the add entered with the old value. -/
theorem cntAdd_done {s s1 : State} {e : Env} {o : Operands} {bsel : Fin 4} {va : Dword} {old : Nat} (t : Tgt) (hf : Fresh e)
    (h8 : va.toNat % 8 = 0) (hva : formVa e bsel o.a = some va) (hb : o.b.psn = false)
    (h : atomicG s e va 8 (fun x => (x + o.b.word.toNat) % 2 ^ 64) = .done old s1) :
    cntAdd t bsel s e o = .emit (entered s1 e.c (firingKey e 0x69 (some va) [.a, .b] o) [BitVec.ofNat 64 old])
      (result (tgt1 t) (BitVec.ofNat 32 old) false) := by
  simp only [cntAdd, hf.space, hva, h8, hb, h, cntKey, ne_eq, not_true_eq_false, decide_false, Bool.or_self, Bool.false_eq_true, if_false]
  rfl

theorem cntadd_completes {m : MHead} {bsel : Fin 4} {s s1 : State} {e : Env} {va : Dword} {old : Nat} (he : focusEnv s = some e)
    (hf : Fresh e) (h8 : va.toNat % 8 = 0) (hva : formVa e bsel (operands e.u).a = some va) (hb : (operands e.u).b.psn = false)
    (h : atomicG s e va 8 (fun x => (x + (operands e.u).b.word.toNat) % 2 ^ 64) = .done old s1) :
    Access (.cntadd m bsel .none) [.a, .b] m.t s e
      (entered s1 e.c (firingKey e 0x69 (some va) [.a, .b] (operands e.u)) [BitVec.ofNat 64 old])
      (result (tgt1 m.t) (BitVec.ofNat 32 old) false) := by
  have hbody : cntAddBody m.t bsel .none s e (operands e.u) = cntAdd m.t bsel s e (operands e.u) := by
    rw [cntAddBody, replayNext_fresh _ he hf]
  exact completes_of rfl (mayIssue_turn rfl) rfl (List.Subset.refl _) rfl rfl (hbody.trans (cntAdd_done m.t hf h8 hva hb h))

/-- With REL the boundary of its scope comes first. -/
theorem cntadd_issues (m : MHead) (bsel : Fin 4) {rel : CntRel} {sc : Scope} {s : State} {e : Env} (he : focusEnv s = some e) (hf : Fresh e)
    (hr : rel = .dev ∧ sc = Scope.dev ∨ rel = .sys ∧ sc = Scope.sys) :
    Issues (.cntadd m bsel rel) (fun x => InTurn x (.cntadd m bsel rel)) [.a, .b] m.t s e
      (askBoundary s e.c sc (.program e.i)) (pendOf (operands e.u) e.ctx.phase 0 1) := by
  have hbody : cntAddBody m.t bsel rel s e (operands e.u) =
      .hold (askBoundary s e.c sc (.program e.i)) (pendOf (operands e.u) e.ctx.phase 0 1) := by
    rw [cntAddBody, replayNext_fresh _ he hf]
    rcases hr with ⟨rfl, rfl⟩ | ⟨rfl, rfl⟩ <;> rfl
  exact issues_of rfl (mayIssue_turn rfl) rfl (List.Subset.refl _) rfl rfl hbody

/-- Its boundary over, a CNTADD adds. -/
theorem cntadd_resumes {m : MHead} {bsel : Fin 4} (rel : CntRel) {s s1 : State} {e : Env} {p : Pend} {va : Dword} {old : Nat}
    (he : focusEnv s = some e) (hf : Fresh e) (h8 : va.toNat % 8 = 0) (hva : formVa e bsel p.a = some va) (hb : p.b.psn = false)
    (hp : p.phase < e.ctx.phase) (h : atomicG s e va 8 (fun x => (x + p.b.word.toNat) % 2 ^ 64) = .done old s1) :
    Resumes (.cntadd m bsel rel) s e p
      (entered s1 e.c (firingKey e 0x69 (some va) [.a, .b] { a := p.a, b := p.b, c := p.c, p := zeroTok }) [BitVec.ofNat 64 old])
      (result (tgt1 m.t) (BitVec.ofNat 32 old) false) := by
  refine resumes_of rfl ?_
  simp only [hp, if_true, replayNext_fresh _ he hf]
  exact cntAdd_done (o := ⟨p.a, p.b, p.c, zeroTok⟩) m.t hf h8 hva hb h

/-! ### WAITGE (R230) -/

/-- The value that WAITGE finds at its counter decides whether it completes or waits there. -/
theorem waitgeLook_at {s s0 s1 : State} {e : Env} {o : Operands} {bsel : Fin 4} {va : Dword} {tgt a : Nat} {w : Bool} {l : Line} (t : Tgt)
    (h8 : va.toNat % 8 = 0) (hva : formVa e bsel o.a = some va) (hb : o.b.psn = false) (hc : o.c.psn = false)
    (hr : resolve s e.c va false = (.at tgt a w, s0)) (hl : portLine s0 e.c (.at tgt a w) = (some l, s1)) (hp : l.psn = false) :
    waitgeLook t bsel s e o =
      if o.c.word.toNat * 2 ^ 32 + o.b.word.toNat ≤ lineNat l.data (va.toNat % 64) 8 then
        .emit s1 (result (tgt1 t) (BitVec.ofNat 32 (lineNat l.data (va.toNat % 64) 8)) false)
      else .hold (enterWait s1 e (lineKey tgt a) (va.toNat % 64) (o.c.word.toNat * 2 ^ 32 + o.b.word.toNat)).1
        (pendOf o 0 (BitVec.ofNat 64 s1.mem.waitId) 2) := by
  have hok : (decide (va.toNat % 8 ≠ 0) || o.b.psn || o.c.psn) = false := by simp [h8, hb, hc]
  simp only [waitgeLook, hva, hok, Bool.false_eq_true, if_false]
  split
  next hfail =>
    rw [hr] at hfail
    cases hfail
  next hat =>
    rw [hr] at hat
    cases hat
    simp only [hl, hp, Bool.false_eq_true, if_false, placeKey, enterWait]

theorem waitge_completes {m : MHead} {bsel : Fin 4} {s s1 : State} {e : Env} {out : List (Target × Token)}
    (h : waitgeLook m.t bsel s e (operands e.u) = .emit s1 out) : Access (.waitge m bsel) [.a, .b, .c] m.t s e s1 out :=
  completes_of rfl (mayIssue_turn rfl) rfl (List.Subset.refl _) rfl rfl h

theorem waitge_issues {m : MHead} {bsel : Fin 4} {s s1 : State} {e : Env} {p : Pend}
    (h : waitgeLook m.t bsel s e (operands e.u) = .hold s1 p) :
    Issues (.waitge m bsel) (fun x => InTurn x (.waitge m bsel)) [.a, .b, .c] m.t s e s1 p :=
  issues_of rfl (mayIssue_turn rfl) rfl (List.Subset.refl _) rfl rfl h

/-- A WAITGE that has been notified completes with what it has seen. -/
theorem waitge_resumes {m : MHead} {bsel : Fin 4} {s : State} {e : Env} {p : Pend} {w : Waiter} {v : Nat}
    (hw : s.mem.waits.find? (fun w => w.id == p.val.toNat) = some w) (hv : w.seen = some v) :
    Resumes (.waitge m bsel) s e p { s with mem := { s.mem with waits := s.mem.waits.erase w } }
      (result (tgt1 m.t) (BitVec.ofNat 32 v) false) := by
  have hbody : waitgeResume m.t bsel s e p = .emit { s with mem := { s.mem with waits := s.mem.waits.erase w } }
      (result (tgt1 m.t) (BitVec.ofNat 32 v) false) := by
    simp only [waitgeResume, hw, hv]
  exact resumes_of rfl hbody

/-! ### What storing a line leaves alone (R363) -/

/-- A part `f` of the state that no move of a line touches: it does not read the lines and where they stand, the counts of errors and of
blocks moved, the agenda, the host ports, or the channel pool. -/
structure LineBlind {α : Type} (f : State → α) : Prop where
  mem : ∀ (s : State) frames ways dirty buffers soft hbm host0 host1, f { s with mem := { s.mem with
    frames := frames, ways := ways, dirty := dirty, buffers := buffers, soft := soft, hbm := hbm, host0 := host0, host1 := host1 } } = f s
  hl : ∀ (s : State) x, f { s with hl := x } = f s
  run : ∀ (s : State) x, f { s with run := x } = f s
  pwr : ∀ (s : State) x, f { s with pwr := x } = f s
  chu : ∀ (s : State) x, f { s with chu := x } = f s
  hp0 : ∀ (s : State) x, f { s with hp0 := x } = f s
  hp1 : ∀ (s : State) x, f { s with hp1 := x } = f s

theorem foldl_keeps {α β : Type} {f : State → α} {g : State → β → State} (h : ∀ s x, f (g s x) = f s) :
    ∀ (l : List β) (s : State), f (l.foldl g s) = f s
  | [], _ => rfl
  | x :: l, s => (foldl_keeps h l (g s x)).trans (h s x)

namespace LineBlind
variable {α : Type} {f : State → α}

theorem setBacking (h : LineBlind f) (s : State) (k : Nat) (m : Store) : f (setBacking s k m) = f s := by
  unfold Machine.setBacking
  split
  · exact h.mem s ..
  · exact h.mem s ..
  · exact h.mem s ..
  · exact h.chu s _

theorem noteHbm (h : LineBlind f) (s : State) (n : Nat) : f (noteHbm s n) = f s := h.pwr s _

theorem dropSoft (h : LineBlind f) (s : State) (k : Nat) (sram hbm : Bool) : f (dropSoft s k sram hbm) = f s := h.mem s ..

theorem setWays (h : LineBlind f) (s : State) (set : Nat) (l : List HomeWay) : f (setWays s set l) = f s := h.mem s ..

theorem setDirty (h : LineBlind f) (s : State) (k : Nat) (l : Line) : f (setDirty s k l) = f s := h.mem s ..

theorem addBank (h : LineBlind f) (s : State) (b k n : Nat) : f (addBank s b k n) = f s := h.hl s _

theorem addCe (h : LineBlind f) (s : State) (k n : Nat) : f (addCe s k n) = f s := by
  unfold Machine.addCe
  split
  · simp only
    split
    · exact (h.run _ _).trans (h.mem s ..)
    · exact h.mem s ..
  · rfl

theorem addSymbol (h : LineBlind f) (s : State) (b : Nat) (ly : Fin 6) : f (addSymbol s b ly) = f s := by
  unfold Machine.addSymbol
  simp only
  split
  · exact (h.run _ _).trans ((h.hl _ _).trans (h.addBank s ..))
  · exact (h.hl _ _).trans (h.addBank s ..)

theorem countDecoded (h : LineBlind f) (s : State) (k b : Nat) (ds : List Decoded) : f (countDecoded s k b ds) = f s := by
  unfold Machine.countDecoded
  simp only
  have hrec (n : Nat) : f (if n = 0 then s else Machine.addBank s b 1 n) = f s := by
    split
    · rfl
    · exact h.addBank s ..
  split
  · exact hrec _
  · rw [h.addCe, foldl_keeps (fun t j => h.addSymbol t b _), h.addBank, hrec]

theorem decodeAt (h : LineBlind f) (s : State) (k b : Nat) (errs : List (Nat × Nat × Byte)) (l : Line) : f (decodeAt s k b errs l).2 = f s := by
  unfold Machine.decodeAt
  simp only
  split
  · rfl
  · split
    · exact h.addBank s ..
    · exact h.countDecoded s ..

theorem hostRequest (h : LineBlind f) (s : State) (k : Nat) : f (hostRequest s k).2 = f s := by
  unfold Machine.hostRequest
  split
  · exact h.hp0 s _
  · exact h.hp1 s _
  · rfl

theorem writeBack (h : LineBlind f) (s : State) (k : Nat) : f (writeBack s k) = f s := by
  unfold Machine.writeBack
  split
  · rfl
  next l _ =>
    simp only
    generalize hd : Machine.decodeAt { s with mem := { s.mem with dirty := mapErase s.mem.dirty k } } k (homeBank k) (softOf s k) l = d
    have h0 : f d.2 = f s := by rw [← hd, h.decodeAt]; exact h.mem s ..
    generalize hr : Machine.hostRequest (Machine.dropSoft d.2 k true true) k = r
    have h1 : f r.2 = f s := by rw [← hr, h.hostRequest, h.dropSoft, h0]
    obtain ⟨_ | _, s1⟩ := r
    · exact (h.noteHbm _ _).trans ((h.setBacking _ _ _).trans h1)
    · exact h1

theorem evictSb (h : LineBlind f) (s : State) (set sb : Nat) : f (evictSb s set sb) = f s :=
  (h.setWays _ _ _).trans (foldl_keeps (fun t k => (h.dropSoft _ k true false).trans (h.writeBack t k)) _ s)

theorem enterWay (h : LineBlind f) (s : State) (k : Nat) : f (enterWay s k) = f s := by
  unfold Machine.enterWay
  simp only
  split
  · exact h.setWays s ..
  · rw [h.setWays]
    split
    · rfl
    · split
      · exact h.evictSb s ..
      · rfl

theorem drainBlock (h : LineBlind f) (s : State) (k : Nat) : f (drainBlock s k) = f s := by
  unfold Machine.drainBlock
  split
  · rfl
  · exact (h.noteHbm _ _).trans ((h.setBacking _ _ _).trans ((h.dropSoft _ _ _ _).trans (h.mem s ..)))

theorem enterBuffer (h : LineBlind f) (s : State) (k : Nat) : f (enterBuffer s k) = f s := by
  have hn : f (if (mapGet [] s.mem.buffers (unitOf k)).elem k then s else Machine.noteHbm s 1) = f s := by
    split
    · rfl
    · exact h.noteHbm s 1
  unfold Machine.enterBuffer
  simp only
  split
  · exact (h.mem _ ..).trans ((h.drainBlock _ _).trans hn)
  · exact (h.mem _ ..).trans hn

theorem storeLine (h : LineBlind f) (s : State) (k : Nat) (l : Line) : f (storeLine s k l) = f s := by
  unfold Machine.storeLine
  split
  · exact (h.setDirty _ _ _).trans (h.enterBuffer s k)
  · split
    · exact h.setBacking s ..
    · exact (h.setDirty _ _ _).trans (h.enterWay s k)

end LineBlind

theorem lineBlind_waits : LineBlind (fun s : State => s.mem.waits) :=
  ⟨fun _ _ _ _ _ _ _ _ _ => rfl, fun _ _ => rfl, fun _ _ => rfl, fun _ _ => rfl, fun _ _ => rfl, fun _ _ => rfl, fun _ _ => rfl⟩

theorem keepOld_waits (s : State) (k : Nat) : (keepOld s k).mem.waits = s.mem.waits := by
  have hc (l : Line) : (keepCmds s k l).mem.waits = s.mem.waits := by
    unfold keepCmds
    split <;> rfl
  have hs (t : State) (l : Line) : (keepSig t k l).mem.waits = t.mem.waits := by
    unfold keepSig
    split
    · split <;> rfl
    · rfl
  exact (hs _ _).trans (hc _)

/-- A line that changes is shown to those that wait at it, and to no other. -/
theorem pokeLine_waits (s : State) (k : Nat) (l : Line) : (pokeLine s k l).mem.waits = s.mem.waits.map (fun w => w.see k l) := by
  rw [pokeLine, lineBlind_waits.storeLine, tellWaiters, keepOld_waits]

/-- Settles O23: CNTADD is an atomic of 64 bits, after its boundary if it has one; WAITGE looks once, then is told. -/
theorem countersComplete : Obligations.CountersComplete := by
  unfold Obligations.CountersComplete
  intro m bsel rel s s0 s1 e va old p o t he hf h8
  refine ⟨fun hva hb => ⟨?_, fun sc hr => cntadd_issues m bsel he hf hr, fun tgt a w l hc hr hl hp => ?_⟩,
    fun hva hb hp => cntadd_resumes rel he hf h8 hva hb hp, fun w v hw hv => waitge_resumes hw hv, pokeLine_waits s⟩
  · rintro rfl h
    exact cntadd_completes he hf h8 hva hb h
  · have hlook := waitgeLook_at m.t h8 hva hb hc hr hl hp
    exact ⟨fun hle => waitge_completes (hlook.trans (if_pos hle)), fun hlt => waitge_issues (hlook.trans (if_neg (Nat.not_le.2 hlt)))⟩

end Sys2Proof.Machine

/-! PROOFS. O38: the memory-side instructions. -/

namespace Sys2Proof.Machine

/-! ### MATOM, MCAS, MTAS and MCNT (R370, R371) -/

/-- What an operation of a unit makes of its place. -/
def unitAccess (u : UnitOp) (s : State) (e : Env) (v : Dword) (o : Operands) : Atomic :=
  if u.writes then atomicMay s e (u.place v o) u.size (u.new o) else atomicRead s e (u.place v o) u.size

/-- An operation that is performed is entered with the old value, and emits its words. -/
theorem unitBody_done {s s1 : State} {e : Env} {o : Operands} {bsel : Fin 4} {u : UnitOp} {v : Dword} {old : Nat} (t : Tgt)
    (he : focusEnv s = some e) (hf : Fresh e) (hv : formVa e bsel o.a = some v) (ha : v.toNat % u.align = 0)
    (hp : ∀ x ∈ u.used, (operandAt o x).psn = false) (h : unitAccess u s e v o = .done old s1) :
    unitBody t bsel u s e o =
      .emit (entered s1 e.c (firingKey e u.kind (some (u.place v o)) u.used o) [BitVec.ofNat 64 old]) (emitWords t (u.out o old)) := by
  have hpsn : slotsPsn o u.used = false := by
    simpa [slotsPsn, List.any_eq_false] using hp
  have hc : (decide (v.toNat % u.align ≠ 0) || slotsPsn o u.used) = false := by simp [ha, hpsn]
  rw [unitAccess] at h
  simp only [unitBody, logged_fresh he hf, hv, Option.map_some, hc, h, Bool.false_eq_true, if_false]

/-- An instruction whose firing is an operation of a unit completes with it. -/
theorem unit_completes {i : Instr} {m : MHead} {s s1 : State} {e : Env} {bsel : Fin 4} {u : UnitOp} {v : Dword} {old : Nat}
    (hx : exec i s = runUnit s (fun _ => memFiring u.used m.t (unitBody m.t bsel u))) (he : focusEnv s = some e) (hf : Fresh e)
    (hv : formVa e bsel (operands e.u).a = some v) (ha : v.toNat % u.align = 0)
    (hp : ∀ x ∈ u.used, (operandAt (operands e.u) x).psn = false) (h : unitAccess u s e v (operands e.u) = .done old s1) :
    Access i u.used m.t s e
      (entered s1 e.c (firingKey e u.kind (some (u.place v (operands e.u))) u.used (operands e.u)) [BitVec.ofNat 64 old])
      (emitWords m.t (u.out (operands e.u) old)) :=
  completes_of hx (mayIssue_turn rfl) rfl (List.Subset.refl _) rfl rfl (unitBody_done m.t he hf hv ha hp h)

/-- The access of an operation that may write. -/
theorem unitAccess_writes {u : UnitOp} {s : State} {e : Env} {v : Dword} {o : Operands} (h : u.writes = true) :
    unitAccess u s e v o = atomicMay s e (u.place v o) u.size (u.new o) := if_pos h

/-- The access of an operation that only reads. -/
theorem unitAccess_reads {u : UnitOp} {s : State} {e : Env} {v : Dword} {o : Operands} (h : u.writes = false) :
    unitAccess u s e v o = atomicRead s e (u.place v o) u.size := if_neg (by rw [h]; exact Bool.false_ne_true)

theorem exec_matom (m : MHead) (bsel : Fin 4) (op : Fin 16) (s : State) : exec (.matom m bsel op) s = execMatom m bsel op s := rfl

theorem exec_matom_word {op : Fin 16} (m : MHead) (bsel : Fin 4) (s : State) (h : op.val < 12) :
    exec (.matom m bsel op) s = runUnit s (fun _ => memFiring (matom32 op.val).used m.t (unitBody m.t bsel (matom32 op.val))) := by
  rw [exec_matom, execMatom, if_pos h]

theorem exec_matom_wide {op : Fin 16} (m : MHead) (bsel : Fin 4) (s : State) (h : 12 ≤ op.val) :
    exec (.matom m bsel op) s = runUnit s (fun _ => memFiring (matom64 op.val).used m.t (unitBody m.t bsel (matom64 op.val))) := by
  rw [exec_matom, execMatom, if_neg (Nat.not_lt.2 h)]

/-- The new value of a 64-bit MATOM, by its AOP. -/
theorem matom64_new (op : Nat) (o : Operands) (x : Nat) :
    (matom64 op).new o x = some (
      if op = 12 then (x + wideOperand o) % 2 ^ 64 else if op = 13 then max x (wideOperand o)
      else if op = 14 then min x (wideOperand o) else wideOperand o) := by
  simp only [matom64]
  split
  · rw [if_pos rfl]
  · rw [if_neg (by decide), if_pos rfl]
  · rw [if_neg (by decide), if_neg (by decide), if_pos rfl]
  · next h12 h13 h14 => rw [if_neg h12, if_neg h13, if_neg h14]

/-- MCAS as an operation of a unit. -/
def mcasOp (flag : Bool) : UnitOp :=
  { kind := 0xC1, align := 4, size := 4, used := [.a, .b, .c], place := samePlace, writes := true, count := 1
    new := fun o old => if old = o.b.word.toNat then some o.c.word.toNat else none
    out := fun o old => [if flag then boolWord (old == o.b.word.toNat) else BitVec.ofNat 32 old] }

theorem exec_mcas (m : MHead) (bsel : Fin 4) (flag : Bool) (s : State) :
    exec (.mcas m bsel flag) s = runUnit s (fun _ => memFiring (mcasOp flag).used m.t (unitBody m.t bsel (mcasOp flag))) := rfl

/-- MTAS as an operation of a unit. -/
def mtasOp (clr : Bool) : UnitOp :=
  { kind := 0xC2, align := 8, size := 1, used := [.a, .b], writes := true, count := 1
    place := fun va o => va + BitVec.ofNat 64 (o.b.word.toNat / 8)
    new := fun o old => some (old - old / 2 ^ (o.b.word.toNat % 8) % 2 * 2 ^ (o.b.word.toNat % 8) + (if clr then 0 else 2 ^ (o.b.word.toNat % 8)))
    out := fun o old => [BitVec.ofNat 32 (old / 2 ^ (o.b.word.toNat % 8) % 2)] }

theorem exec_mtas (m : MHead) (bsel : Fin 4) (clr : Bool) (s : State) :
    exec (.mtas m bsel clr) s = runUnit s (fun _ => memFiring (mtasOp clr).used m.t (unitBody m.t bsel (mtasOp clr))) := rfl

/-- MCNT as an operation of a unit. -/
def mcntOp (op : Nat) : UnitOp :=
  { kind := 0xC4, align := 8, size := 8, used := if op = 0 then [.a, .b] else [.a], place := samePlace, writes := op == 0 || op == 2, count := 1
    new := fun o old => some (mcntNew op o old)
    out := fun o old => [BitVec.ofNat 32 (match op with
      | 0 => mcntNew 0 o old
      | 3 => old / 2 ^ 32
      | _ => old)] }

theorem exec_mcnt (m : MHead) (bsel op : Fin 4) (s : State) :
    exec (.mcnt m bsel op) s = runUnit s (fun _ => memFiring (mcntOp op.val).used m.t (unitBody m.t bsel (mcntOp op.val))) := rfl

/-! ### MRED (R372, R373) -/

/-- The state after a reduction into a line: the line written, and at `.sys` written back; else no more than its read. -/
def mredWritten (s2 s3 : State) (e : Env) (k : Nat) (sys : Bool) (l : Line) (new_ : Option Bits512) : State :=
  match new_ with
  | some v =>
    let s4 := nodeWrite s3 e.c k (BitVec.allOnes 64) v (some l.desc)
    if sys then writeBack s4 k else s4
  | none => if l.psn then poisonedHalf s2 s3 k else s3

/-- A reduction into a line that its unit lets through. -/
theorem mredAt_done {op : MredOp} {sys w : Bool} {x : MredWords} {va : Dword} {o : Operands} {s s1 s2 s3 : State} {e : Env} {tgt a st : Nat}
    {l : Line} {new_ : Option Bits512} {ev : Ev} (done : State → Nat → Act) (hp : o.a.psn = false) (h64 : o.a.word.toNat % 64 = 0)
    (hc : (isFirmware e.c || canonical va) = true) (hr : resolve s e.c va true = (.at tgt a w, s1))
    (hu : portOp s1 e.c (some e.i) (lineKey tgt a) = (true, s2)) (hl : readLine s2 (lineKey tgt a) = (l, s3))
    (hm : mredLine op x l o.b = (new_, st, ev)) :
    mredAt op sys x va o s e done =
      done (addEv (addCount (mredWritten s2 s3 e (lineKey tgt a) sys l new_) e.c cntPoison (st / 16 % 2)) e.c ev) st := by
  have hok : (o.a.psn || decide (o.a.word.toNat % 64 ≠ 0) || !(isFirmware e.c || canonical va)) = false := by simp [hp, h64, hc]
  rw [mredAt, hok, if_neg Bool.false_ne_true, hr]
  -- The key of a line is an unknown from here on, so that no check of the steps below computes with it.
  obtain ⟨key, hkey⟩ : ∃ f, lineKey = f := ⟨_, rfl⟩
  rw [hkey] at hu hl ⊢
  simp only [hu, hl, hm]
  cases new_ <;> rfl

theorem mredWritten_some (s2 s3 : State) (e : Env) (k : Nat) (sc : Scope) (l : Line) (v : Bits512) :
    mredWritten s2 s3 e k (sc == .sys) l (some v) =
      if sc = .sys then writeBack (nodeWrite s3 e.c k (BitVec.allOnes 64) v (some l.desc)) k
      else nodeWrite s3 e.c k (BitVec.allOnes 64) v (some l.desc) := by
  simp only [mredWritten, beq_iff_eq]

/-- A MRED that is performed is entered with its status. -/
theorem mredGo_done {op : MredOp} {w : Bool} {va : Dword} {o : Operands} {s s1 s2 s3 : State} {e : Env} {tgt a st : Nat} {l : Line}
    {new_ : Option Bits512} {ev : Ev} (t : Tgt) (od : Order) (k : Fin 256) (he : focusEnv s = some e) (hf : Fresh e)
    (hva : va = mredVa (mredWords e.win k.val) o.a) (hp : o.a.psn = false) (h64 : o.a.word.toNat % 64 = 0)
    (hc : (isFirmware e.c || canonical va) = true) (hr : resolve s e.c va true = (.at tgt a w, s1))
    (hu : portOp s1 e.c (some e.i) (lineKey tgt a) = (true, s2)) (hl : readLine s2 (lineKey tgt a) = (l, s3))
    (hm : mredLine op (mredWords e.win k.val) l o.b = (new_, st, ev)) :
    mredGo t od op k s e o =
      .emit (entered (addEv (addCount (mredWritten s2 s3 e (lineKey tgt a) (od.scope == .sys) l new_) e.c cntPoison (st / 16 % 2)) e.c ev)
        e.c (mredKey e va o) [BitVec.ofNat 64 st]) (result (tgt1 t) (BitVec.ofNat 32 st) false) := by
  subst hva
  rw [mredGo, logged_fresh he hf, mredAt_done _ hp h64 hc hr hu hl hm, status]

theorem mred_completes {t : Tgt} {k : Fin 256} {od : Order} {op : MredOp} {s s1 : State} {e : Env} {out : List (Target × Token)}
    (hrel : od.rel = false) (h : mredGo t od op k s e (operands e.u) = .emit s1 out) :
    Access (.mred t k od op) [.a, .b] t s e s1 out :=
  completes_of rfl (mayIssue_turn rfl) rfl (List.Subset.refl _) rfl rfl ((if_pos (by rw [hrel]; rfl)).trans h)

/-! ### FRAMEM (R374 to R376) -/

/-- A logged operation that gives a status is entered with it. -/
theorem logStatus_fresh {s : State} {e : Env} (t : Tgt) (key : LogEntry) (live : State → State × Nat) (he : focusEnv s = some e) (hf : Fresh e) :
    logStatus t s e key live =
      .emit (entered (live s).1 e.c key [BitVec.ofNat 64 (live s).2]) (result (tgt1 t) (BitVec.ofNat 32 (live s).2) false) := by
  rw [logStatus, logged_fresh he hf]

theorem framem_completes {t : Tgt} {k : Fin 256} {norm : Bool} {s : State} {e : Env} (he : focusEnv s = some e) (hf : Fresh e) :
    let v := (poolWord e.win k.val).toNat + wbits (poolWord e.win (k.val + 1)) 22 0 * 2 ^ 32
    let r := framemDo (!norm) (v / 65536) (wbits (poolWord e.win (k.val + 2)) 15 0 + 1) s
    Access (.framem t k norm) [.a] t s e
      (entered r.1 e.c (logKey e 0xC5 (BitVec.ofNat 64 v) [poolWord e.win (k.val + 2), boolWord norm]) [BitVec.ofNat 64 r.2])
      (result (tgt1 t) (BitVec.ofNat 32 r.2) false) :=
  completes_of rfl (mayIssue_turn rfl) rfl (List.Subset.refl _) rfl rfl (logStatus_fresh t _ _ he hf)

/-- Settles O38: MATOM to MCNT are operations of a unit, MRED a reduction at its line, FRAMEM a logged command. -/
theorem memSideCompletes : Obligations.MemSideCompletes := by
  unfold Obligations.MemSideCompletes
  intro m bsel aop cop flag norm t k od op s s1 s2 s3 e va old tgt a st w l new_ ev o lo wide Unit b j he hf
  refine ⟨fun h12 hv ha hp h => ?_, fun h12 hv ha hp h => ?_, fun hv ha hp h => ?_, fun hv ha hp h => ?_, fun hv ha hp h => ?_,
    fun hv ha hp h => ?_, ?_, ?_, ?_⟩
  · exact unit_completes (exec_matom_word m bsel s h12) he hf hv ha hp ((unitAccess_writes rfl).trans h)
  · refine unit_completes (exec_matom_wide m bsel s h12) he hf hv ha hp ((unitAccess_writes rfl).trans ?_)
    rw [funext (matom64_new aop.val (operands e.u))]
    exact h
  · exact unit_completes (exec_mcas m bsel flag s) he hf hv ha hp ((unitAccess_writes rfl).trans h)
  · exact unit_completes (exec_mtas m bsel flag s) he hf hv ha hp ((unitAccess_writes rfl).trans h)
  · exact unit_completes (exec_mcnt m bsel 0 s) he hf hv ha hp ((unitAccess_writes rfl).trans h)
  · exact unit_completes (exec_mcnt m bsel 2 s) he hf hv ha hp ((unitAccess_writes rfl).trans h)
  · rintro (rfl | rfl) hv ha hp h
    · exact unit_completes (exec_mcnt m bsel 1 s) he hf hv ha hp ((unitAccess_reads rfl).trans h)
    · exact unit_completes (exec_mcnt m bsel 3 s) he hf hv ha hp ((unitAccess_reads rfl).trans h)
  · intro x line written hrel hp h64 hva hc hr hu hl hm s4
    have h := mred_completes hrel (mredGo_done t od k he hf hva hp h64 hc hr hu hl hm)
    cases new_ with
    | none => exact h
    | some v =>
      rw [mredWritten_some] at h
      exact h
  · exact framem_completes he hf

end Sys2Proof.Machine
